-- ==== Sys2Proof/Word.lean ====
section
/-!
DEFINITION. The word types of the machine (00_scope R7, R8; 02_encoding R86, R87): 32-bit words, bytes,
96-lane masks and the register-number fields of the slot formats (R84).
-/

namespace Sys2Proof

/-- A 32-bit word: a uniform register, a lane of a vector register, a slot word. -/
abbrev Word := BitVec 32

/-- A byte of memory. -/
abbrev Byte := BitVec 8

/-- A set of lanes 0-95, lane l in bit l (R87, R172). -/
abbrev Mask := BitVec 96

/-- A uniform register number s0-s1023 (R84, R87). -/
abbrev SReg := BitVec 10

/-- A vector register number v0-v127 (R84, R86). -/
abbrev VReg := BitVec 7

/-- A triple number t0-t31 (R84, R87). -/
abbrev TReg := BitVec 5

end Sys2Proof
end

