-- ==== Sys2Proof/Syntax.lean ====
section
/-!
DEFINITION. The instructions and events of spec/opcode_table.json, one constructor a row (02_encoding
R95-R110; the events of 95_what_each_step_holds). An encoded row carries the fields of its slot word
(R84) and, where the opcode is marked L, the literal of the next word (R85). A row without a word is
a step of an engine, of the device or of the outside world; it carries what it acts on.
-/

namespace Sys2Proof

/-- Condition codes of `SCMP`, `VCMPS` and `VCMP`, in the order of R98. -/
inductive Cond where
  | eq | ne | lt | le | gt | ge | ltu | leu | gtu | geu
  deriving DecidableEq, Repr

/-- Conditions of `BR`, in the order of R102. -/
inductive BrCond where
  | al | eqz | nez | ltz | gez
  deriving DecidableEq, Repr

/-- Conditions of `VFCMP`, in the order of R103. -/
inductive FCond where
  | eq | ne | lt | le | gt | ge | un | ord
  deriving DecidableEq, Repr

/-- Widths of `SLD`, in the order of R96. -/
inductive LoadWidth where
  | w | h | hs | b | bs
  deriving DecidableEq, Repr

/-- Widths of `SST`, `VLDC` and `VSTC`, in the order of R96 and R103. -/
inductive Width where
  | w | h | b
  deriving DecidableEq, Repr

/-- The operations of `VRED`, in the order of R104. -/
inductive RedOp where
  | add | and | or | xor | min | max | minu | maxu | fadd | fmin | fmax | maxi | mini | fmaxi | fmini
  deriving DecidableEq, Repr

/-- The operations of `VSCAN`, in the order of R103. -/
inductive ScanOp where
  | add | fadd | max | min
  deriving DecidableEq, Repr

/-- Kinds of `VATMIN` and `VATMAX` (R105). -/
inductive AtKind where
  | i32 | u32 | f32
  deriving DecidableEq, Repr

/-- The operations of `GATOM`, in the order of R108. -/
inductive AtomOp where
  | add | and | or | xor | min | max | minu | maxu | xchg | cas | fadd | fmaxi16 | fmaxi32
  deriving DecidableEq, Repr

/-- The operations of `GRED`, in the order of R108. -/
inductive RedAtomOp where
  | add | and | or | xor | min | max | minu | maxu | fadd | fmin | fmax | fmaxi16 | fmaxi32
  deriving DecidableEq, Repr

/-- Element types of the mode register, in the order of R92. -/
inductive Etype where
  | i32 | u32 | i16 | u16 | i8 | u8 | i4 | f32 | f16 | bf16 | f8a | f8b
  deriving DecidableEq, Repr

/-- What an uncorrectable error strikes (R421): a scratchpad word of a team, the register file of a
group, a 256-byte line of package memory, a Sweli link, or a die's consistency check. -/
inductive MachineError where
  | scratchpad (team addr : Nat)
  | registerFile (group : Nat)
  | globalLine (pa : Nat)
  | link (port : BitVec 6)
  | internal (die : BitVec 2)
  deriving DecidableEq, Repr

/-- The causes of ILLEGAL, in the order of R82 (1-20). -/
inductive IllegalCause where
  | unassignedOpcode | reservedSub | mustBeZero | literalBeyondLen | vectorQuota | readOnlyRegister
  | modeValue | headerBit8 | flagNumber | longLatencyNoFlag | thirdLongLatency | hiddenDependence
  | transferNotLast | depBit | privileged | notControlCore | blockRange | outsideHandler
  | immediateRange | missingFeature
  deriving DecidableEq, Repr

/-- The cause number of R82. -/
def IllegalCause.code (c : IllegalCause) : Nat := c.ctorIdx + 1

/-- What an event acts on: numbers of a unit (a die, function, command, domain, context, group), of a
part of it, a value written, bytes the outside supplies, an error. A field an event does not name is
unused. -/
structure EventArg where
  a : Nat := 0
  b : Nat := 0
  c : Nat := 0
  value : Option Word := none
  bytes : List Byte := []
  err : MachineError := .internal 0
  deriving DecidableEq, Repr

/-- One constructor for each row of spec/opcode_table.json: the encoded rows with fields in the table's
order, the encoded rows without fields, the events. An event takes what it acts on from the `EventArg`
that the state holds for it. -/
inductive Instr where
  /-- SMOV (R163): Copies uniform register sa into sd. -/
  | smov (sd sa : SReg)
  /-- SLIT (R163): Writes the 32-bit literal into sd. -/
  | slit (sd : SReg) (imm : Word)
  /-- SADD (R164): sd := sd + s(sa), wrapping. -/
  | sadd (sd sa : SReg)
  /-- SSUB (R164): sd := sd - s(sa), wrapping. -/
  | ssub (sd sa : SReg)
  /-- SMUL (R164): sd := low 32 bits of sd times s(sa). -/
  | smul (sd sa : SReg)
  /-- SMULHS (R164): sd := high 32 bits of the signed product. -/
  | smulhs (sd sa : SReg)
  /-- SMULHU (R164): sd := high 32 bits of the unsigned product. -/
  | smulhu (sd sa : SReg)
  /-- SAND (R164): sd := sd AND s(sa). -/
  | sand (sd sa : SReg)
  /-- SOR (R164): sd := sd OR s(sa). -/
  | sor (sd sa : SReg)
  /-- SXOR (R164): sd := sd XOR s(sa). -/
  | sxor (sd sa : SReg)
  /-- SANDN (R164): sd := sd AND NOT s(sa). -/
  | sandn (sd sa : SReg)
  /-- SSHL (R164): sd shifted left by s(sa). -/
  | sshl (sd sa : SReg)
  /-- SSHR (R164): sd shifted right logically by s(sa). -/
  | sshr (sd sa : SReg)
  /-- SSRA (R164): sd shifted right arithmetically by s(sa). -/
  | ssra (sd sa : SReg)
  /-- SMIN (R164): sd := signed minimum of sd and s(sa). -/
  | smin (sd sa : SReg)
  /-- SMAX (R164): sd := signed maximum of sd and s(sa). -/
  | smax (sd sa : SReg)
  /-- SMINU (R164): sd := unsigned minimum of sd and s(sa). -/
  | sminu (sd sa : SReg)
  /-- SMAXU (R164): sd := unsigned maximum of sd and s(sa). -/
  | smaxu (sd sa : SReg)
  /-- SADD_LIT (R164): sd := sd + literal. -/
  | saddLit (sd : SReg) (imm : Word)
  /-- SSUB_LIT (R164): sd := sd - literal. -/
  | ssubLit (sd : SReg) (imm : Word)
  /-- SMUL_LIT (R164): sd := low bits of sd times literal. -/
  | smulLit (sd : SReg) (imm : Word)
  /-- SMULHS_LIT (R164): sd := high bits of signed product with literal. -/
  | smulhsLit (sd : SReg) (imm : Word)
  /-- SMULHU_LIT (R164): sd := high bits of unsigned product with literal. -/
  | smulhuLit (sd : SReg) (imm : Word)
  /-- SAND_LIT (R164): sd := sd AND literal. -/
  | sandLit (sd : SReg) (imm : Word)
  /-- SOR_LIT (R164): sd := sd OR literal. -/
  | sorLit (sd : SReg) (imm : Word)
  /-- SXOR_LIT (R164): sd := sd XOR literal. -/
  | sxorLit (sd : SReg) (imm : Word)
  /-- SANDN_LIT (R164): sd := sd AND NOT literal. -/
  | sandnLit (sd : SReg) (imm : Word)
  /-- SSHL_LIT (R164): sd shifted left by literal. -/
  | sshlLit (sd : SReg) (imm : Word)
  /-- SSHR_LIT (R164): sd shifted right logically by literal. -/
  | sshrLit (sd : SReg) (imm : Word)
  /-- SSRA_LIT (R164): sd shifted right arithmetically by literal. -/
  | ssraLit (sd : SReg) (imm : Word)
  /-- SMIN_LIT (R164): sd := signed minimum of sd and literal. -/
  | sminLit (sd : SReg) (imm : Word)
  /-- SMAX_LIT (R164): sd := signed maximum of sd and literal. -/
  | smaxLit (sd : SReg) (imm : Word)
  /-- SMINU_LIT (R164): sd := unsigned minimum of sd and literal. -/
  | sminuLit (sd : SReg) (imm : Word)
  /-- SMAXU_LIT (R164): sd := unsigned maximum of sd and literal. -/
  | smaxuLit (sd : SReg) (imm : Word)
  /-- SCMP (R165): Writes 1 to sd when sd cc s(sa) holds, else 0. -/
  | scmp (sd sa : SReg) (cc : Cond)
  /-- SCMP_LIT (R165): Writes 1 to sd when sd cc literal holds, else 0. -/
  | scmpLit (sd : SReg) (cc : Cond) (imm : Word)
  /-- SNOT (R166): sd := NOT s(sa). -/
  | snot (sd sa : SReg)
  /-- SNEG (R166): sd := 0 - s(sa) modulo 2^32. -/
  | sneg (sd sa : SReg)
  /-- SABS (R166): sd := absolute value of s(sa). -/
  | sabs (sd sa : SReg)
  /-- SCLZ (R166): sd := count of leading zeros of s(sa). -/
  | sclz (sd sa : SReg)
  /-- SCTZ (R166): sd := count of trailing zeros of s(sa). -/
  | sctz (sd sa : SReg)
  /-- SPOP (R166): sd := count of set bits of s(sa). -/
  | spop (sd sa : SReg)
  /-- SBREV (R166): sd := bit-reversed s(sa). -/
  | sbrev (sd sa : SReg)
  /-- SSEXT8 (R166): sd := s(sa)[7:0] sign-extended. -/
  | ssext8 (sd sa : SReg)
  /-- SSEXT16 (R166): sd := s(sa)[15:0] sign-extended. -/
  | ssext16 (sd sa : SReg)
  /-- SZEXT8 (R166): sd := s(sa)[7:0] zero-extended. -/
  | szext8 (sd sa : SReg)
  /-- SZEXT16 (R166): sd := s(sa)[15:0] zero-extended. -/
  | szext16 (sd sa : SReg)
  /-- SDIV (R167): Starts a long-latency signed division of sd by s(sa). -/
  | sdiv (sd sa : SReg)
  /-- SDIVU (R167): Starts a long-latency unsigned division of sd by s(sa). -/
  | sdivu (sd sa : SReg)
  /-- SREM (R167): Starts a long-latency signed remainder of sd by s(sa). -/
  | srem (sd sa : SReg)
  /-- SREMU (R167): Starts a long-latency unsigned remainder of sd by s(sa). -/
  | sremu (sd sa : SReg)
  /-- SBFXU (R168): Extracts a zero-extended bit field of sd under control word s(sa). -/
  | sbfxu (sd sa : SReg)
  /-- SBFXS (R168): Extracts a sign-extended bit field of sd under control word s(sa). -/
  | sbfxs (sd sa : SReg)
  /-- SBFI (R168): Inserts low bits of s(sa) into a field of sd given by the literal control word. -/
  | sbfi (sd sa : SReg) (ctl : Word)
  /-- SLD (R169): Loads a scratchpad word, half or byte at s(sa)+literal into sd. -/
  | sld (sd sa : SReg) (width : LoadWidth) (off : Word)
  /-- SST (R169): Stores s(sd) as a word, half or byte at s(sa)+literal. -/
  | sst (sd sa : SReg) (width : Width) (off : Word)
  /-- SLR (R170): Reads word n of the task's launch record into sd. -/
  | slr (sd : SReg) (n : BitVec 10)
  /-- SLR_C (R170): Reads word n of the task's constant block into sd. -/
  | slrC (sd : SReg) (n : BitVec 10)
  /-- MODE (R171): Writes the mode register from s(sa), checking the value. -/
  | mode (sa : SReg)
  /-- MODEG (R171): Reads the mode register into sd. -/
  | modeg (sd : SReg)
  /-- MODEI (R171): Writes the mode register from the literal. -/
  | modei (imm : Word)
  /-- MPOP (R172): Counts the set bits of a triple into sd. -/
  | mpop (sd : SReg) (ta : TReg)
  /-- MFIRST (R172): Writes the lowest set lane of a triple to sd. -/
  | mfirst (sd : SReg) (ta : TReg)
  /-- MLAST (R172): Writes the highest set lane of a triple to sd. -/
  | mlast (sd : SReg) (ta : TReg)
  /-- MNOT (R172): td := NOT ta over lanes 0-95. -/
  | mnot (td ta : TReg)
  /-- MAND (R172): td := td AND ta. -/
  | mand (td ta : TReg)
  /-- MOR (R172): td := td OR ta. -/
  | mor (td ta : TReg)
  /-- MXOR (R172): td := td XOR ta. -/
  | mxor (td ta : TReg)
  /-- MANDN (R172): td := td AND NOT ta. -/
  | mandn (td ta : TReg)
  /-- MCLR (R172): Clears every lane bit of a triple. -/
  | mclr (td : TReg)
  /-- MALL (R172): Sets lanes 0-95 of a triple. -/
  | mall (td : TReg)
  /-- BR (R174): Moves the whole split to the target when s(sc) meets cond, else falls through. -/
  | br (sc : SReg) (cc : BrCond) (target : Word)
  /-- BRV (R175): Sends the lanes selected by a mask to the target, dividing the split when lanes go both ways. -/
  | brv (u : Bool) (f : Bool) (tm : TReg) (target : Word)
  /-- CALL (R176): Pushes a return offset on the split's call stack and continues at the target. -/
  | call (target : Word)
  /-- TRAPU (R178): Raises USER with a 10-bit code. -/
  | trapu (code : BitVec 10)
  /-- VADD (R193): Per-element integer a + b. -/
  | vadd (vd va vb : VReg)
  /-- VSUB (R193): Per-element integer a - b. -/
  | vsub (vd va vb : VReg)
  /-- VMUL (R193): Per-element integer a × b. -/
  | vmul (vd va vb : VReg)
  /-- VMULHS (R193): High half of the signed element product. -/
  | vmulhs (vd va vb : VReg)
  /-- VMULHU (R193): High half of the unsigned element product. -/
  | vmulhu (vd va vb : VReg)
  /-- VAND (R193): Lane-wise a AND b. -/
  | vand (vd va vb : VReg)
  /-- VOR (R193): Lane-wise a OR b. -/
  | vor (vd va vb : VReg)
  /-- VXOR (R193): Lane-wise a XOR b. -/
  | vxor (vd va vb : VReg)
  /-- VANDN (R193): Lane-wise a AND NOT b. -/
  | vandn (vd va vb : VReg)
  /-- VSHL (R193): Per-element shift left. -/
  | vshl (vd va vb : VReg)
  /-- VSHR (R193): Per-element logical shift right. -/
  | vshr (vd va vb : VReg)
  /-- VSRA (R193): Per-element arithmetic shift right. -/
  | vsra (vd va vb : VReg)
  /-- VMIN (R193): Per-element minimum by signedness. -/
  | vmin (vd va vb : VReg)
  /-- VMAX (R193): Per-element maximum by signedness. -/
  | vmax (vd va vb : VReg)
  /-- VMINU (R193): Per-element unsigned minimum. -/
  | vminu (vd va vb : VReg)
  /-- VMAXU (R193): Per-element unsigned maximum. -/
  | vmaxu (vd va vb : VReg)
  /-- VMAD (R193): Per-element c + a × b fitted once. -/
  | vmad (vd va vb : VReg)
  /-- VADDS (R194): VADD with b taken from s(sb) in every lane. -/
  | vadds (vd va : VReg) (sb : SReg)
  /-- VSUBS (R194): VSUB with a uniform operand. -/
  | vsubs (vd va : VReg) (sb : SReg)
  /-- VMULS (R194): VMUL with a uniform operand. -/
  | vmuls (vd va : VReg) (sb : SReg)
  /-- VANDS (R194): VAND with a uniform operand. -/
  | vands (vd va : VReg) (sb : SReg)
  /-- VSHLS (R194): VSHL with a uniform operand. -/
  | vshls (vd va : VReg) (sb : SReg)
  /-- VSHRS (R194): VSHR with a uniform operand. -/
  | vshrs (vd va : VReg) (sb : SReg)
  /-- VSRAS (R194): VSRA with a uniform operand. -/
  | vsras (vd va : VReg) (sb : SReg)
  /-- VMINS (R194): VMIN with a uniform operand. -/
  | vmins (vd va : VReg) (sb : SReg)
  /-- VMAXS (R194): VMAX with a uniform operand. -/
  | vmaxs (vd va : VReg) (sb : SReg)
  /-- VFADDS (R200): Float a + s(sb) per element. -/
  | vfadds (vd va : VReg) (sb : SReg)
  /-- VFMULS (R200): Float a × s(sb) per element. -/
  | vfmuls (vd va : VReg) (sb : SReg)
  /-- VFMAS (R200): Float a × s(sb) + c rounded once. -/
  | vfmas (vd va : VReg) (sb : SReg)
  /-- VCMPS (R196): Compares va with s(sb) and writes a mask triple t0-t7. -/
  | vcmps (cc : Cond) (td : BitVec 3) (va : VReg) (sb : SReg)
  /-- VNOT (R195): Lane-wise NOT. -/
  | vnot (vd va : VReg)
  /-- VNEG (R195): Per-element negation. -/
  | vneg (vd va : VReg)
  /-- VABS (R195): Per-element absolute value. -/
  | vabs (vd va : VReg)
  /-- VCLZ (R195): Lane leading-zero count. -/
  | vclz (vd va : VReg)
  /-- VPOP (R195): Lane population count. -/
  | vpop (vd va : VReg)
  /-- VBREV (R195): Lane bit reversal. -/
  | vbrev (vd va : VReg)
  /-- VSEXT8 (R195): Lane sign extension from bit 7. -/
  | vsext8 (vd va : VReg)
  /-- VSEXT16 (R195): Lane sign extension from bit 15. -/
  | vsext16 (vd va : VReg)
  /-- VCMP_A (R196): Integer compare of va and vb with conditions EQ to LEU into a triple. -/
  | vcmpA (cc : BitVec 3) (td : TReg) (va vb : VReg)
  /-- VCMP_B (R196): Integer compare of va and vb with GTU or GEU into a triple. -/
  | vcmpB (geu : Bool) (td : TReg) (va vb : VReg)
  /-- VSEL (R198): Selects va or vb per lane by a triple. -/
  | vsel (vd va vb : VReg) (tn : BitVec 3)
  /-- VMOV (R198): Copies va into vd. -/
  | vmov (vd va : VReg)
  /-- VLANE (R198): Writes each lane's number into vd. -/
  | vlane (vd : VReg)
  /-- VBCS (R198): Broadcasts s(sb) to every lane of vd. -/
  | vbcs (vd : VReg) (sb : SReg)
  /-- VGET (R199): Reads lane s(sd) of va into sd. -/
  | vget (sd : SReg) (va : VReg)
  /-- VPUT (R199): Writes s(sb) into lane s(sb+1) of vd. -/
  | vput (vd : VReg) (sb : SReg)
  /-- VFADD (R200): Float a + b. -/
  | vfadd (vd va vb : VReg)
  /-- VFSUB (R200): Float a - b. -/
  | vfsub (vd va vb : VReg)
  /-- VFMUL (R200): Float a × b. -/
  | vfmul (vd va vb : VReg)
  /-- VFMIN (R200): Float minimum by R143. -/
  | vfmin (vd va vb : VReg)
  /-- VFMAX (R200): Float maximum by R143. -/
  | vfmax (vd va vb : VReg)
  /-- VFCPYS (R200): Magnitude of a with the sign of b. -/
  | vfcpys (vd va vb : VReg)
  /-- VFMA (R200): a × b + c rounded once. -/
  | vfma (vd va vb : VReg)
  /-- VFMS (R200): a × b - c rounded once. -/
  | vfms (vd va vb : VReg)
  /-- VFNMA (R200): -(a × b) + c rounded once. -/
  | vfnma (vd va vb : VReg)
  /-- VFNMS (R200): -(a × b) - c rounded once. -/
  | vfnms (vd va vb : VReg)
  /-- VFABS (R201): Clears the float sign. -/
  | vfabs (vd va : VReg)
  /-- VFNEG (R201): Flips the float sign. -/
  | vfneg (vd va : VReg)
  /-- VFRINT (R201): Rounds to an integral value in rm. -/
  | vfrint (vd va : VReg)
  /-- VFTRUNC (R201): Integral value toward zero. -/
  | vftrunc (vd va : VReg)
  /-- VFFLOOR (R201): Integral value toward minus infinity. -/
  | vffloor (vd va : VReg)
  /-- VFCEIL (R201): Integral value toward plus infinity. -/
  | vfceil (vd va : VReg)
  /-- VFCLASS (R201): Writes the class code of each stored float element. -/
  | vfclass (vd va : VReg)
  /-- VFCMP (R197): Float compare of va and vb into a triple. -/
  | vfcmp (cc : FCond) (td : TReg) (va vb : VReg)
  /-- VCVT_LOW (R202): Converts va from source etype 0-7 into the mode's etype. -/
  | vcvtLow (vd va : VReg) (src : BitVec 3)
  /-- VCVT_HIGH (R202): Converts va from source etype 8-11 into the mode's etype. -/
  | vcvtHigh (vd va : VReg) (src : BitVec 3)
  /-- VPACK (R203): Narrows two lane values into packed elements of vd. -/
  | vpack (vd va vb : VReg)
  /-- VUNPK (R204): Widens element p of each lane to 32 bits. -/
  | vunpk (vd va : VReg) (part : BitVec 3)
  /-- VDOT4I8 (R205): Accumulates four I8 products into I32. -/
  | vdot4i8 (vd va vb : VReg)
  /-- VDOT4U8 (R205): Accumulates four U8 products into U32. -/
  | vdot4u8 (vd va vb : VReg)
  /-- VDOT4F8A (R205): Accumulates four F8A products into F32 exactly. -/
  | vdot4f8a (vd va vb : VReg)
  /-- VDOT4F8B (R205): Accumulates four F8B products into F32 exactly. -/
  | vdot4f8b (vd va vb : VReg)
  /-- VDOT8I4 (R205): Accumulates eight I4 products into I32. -/
  | vdot8i4 (vd va vb : VReg)
  /-- VDOT2F16 (R205): Accumulates two F16 products into F32 exactly. -/
  | vdot2f16 (vd va vb : VReg)
  /-- VDOT2BF16 (R205): Accumulates two BF16 products into F32 exactly. -/
  | vdot2bf16 (vd va vb : VReg)
  /-- VPERM (R206): Gathers source lanes named by vb. -/
  | vperm (vd va vb : VReg)
  /-- VSHX (R207): Exchanges lanes at XOR distance s(sb). -/
  | vshx (vd va : VReg) (sb : SReg)
  /-- VSHU (R207): Shifts lanes up by s(sb). -/
  | vshu (vd va : VReg) (sb : SReg)
  /-- VSHD (R207): Shifts lanes down by s(sb). -/
  | vshd (vd va : VReg) (sb : SReg)
  /-- VRED (R209): Reduces va over the split's active lanes into sd, with index forms writing sd+1. -/
  | vred (op : RedOp) (sd : SReg) (va : VReg)
  /-- VSCAN (R210): Writes an inclusive or exclusive prefix over active lanes. -/
  | vscan (op : ScanOp) (excl : Bool) (vd va : VReg)
  /-- VLD (R214): Contiguous word load into vd. -/
  | vld (vd : VReg) (sb : SReg) (off : Word)
  /-- VLDH (R214): Contiguous half load, zero-extended. -/
  | vldh (vd : VReg) (sb : SReg) (off : Word)
  /-- VLDB (R214): Contiguous byte load, zero-extended. -/
  | vldb (vd : VReg) (sb : SReg) (off : Word)
  /-- VST (R214): Contiguous word store from vd. -/
  | vst (vd : VReg) (sb : SReg) (off : Word)
  /-- VSTH (R214): Contiguous half store. -/
  | vsth (vd : VReg) (sb : SReg) (off : Word)
  /-- VSTB (R214): Contiguous byte store. -/
  | vstb (vd : VReg) (sb : SReg) (off : Word)
  /-- VLDC (R215): Loads through per-lane addresses in va. -/
  | vldc (width : Width) (vd va : VReg)
  /-- VSTC (R215): Stores through per-lane addresses in va. -/
  | vstc (width : Width) (vd va : VReg)
  /-- VATADD (R219): Scratchpad atomic add per lane. -/
  | vatadd (ret : Bool) (vd va vb : VReg)
  /-- VATAND (R219): Scratchpad atomic AND per lane. -/
  | vatand (ret : Bool) (vd va vb : VReg)
  /-- VATOR (R219): Scratchpad atomic OR per lane. -/
  | vator (ret : Bool) (vd va vb : VReg)
  /-- VATXOR (R219): Scratchpad atomic XOR per lane. -/
  | vatxor (ret : Bool) (vd va vb : VReg)
  /-- VATMIN (R219): Scratchpad atomic minimum of kind I32, U32 or F32. -/
  | vatmin (kind : AtKind) (ret : Bool) (vd va vb : VReg)
  /-- VATMAX (R219): Scratchpad atomic maximum of kind I32, U32 or F32. -/
  | vatmax (kind : AtKind) (ret : Bool) (vd va vb : VReg)
  /-- VATXCHG (R219): Scratchpad atomic exchange returning the old value. -/
  | vatxchg (vd va vb : VReg)
  /-- VSPILL (R225): Pushes va onto the group's spill stack for the split's lane set. -/
  | vspill (va : VReg)
  /-- VFILL (R225): Pops the spill stack into vd. -/
  | vfill (vd : VReg)
  /-- BARA (R230): Records the split's next arrival at a team barrier. -/
  | bara (b : BitVec 4)
  /-- BARW (R230): Waits until the team barrier has completed every phase the split arrived for. -/
  | barw (b : BitVec 4)
  /-- BAR (R230): Arrives at and waits on a team barrier. -/
  | bar (b : BitVec 4)
  /-- BARCFG (R228): Sets a team barrier's configuration from the next b0 completion. -/
  | barcfg (b : BitVec 4) (sd : SReg)
  /-- LCVT_L (R237): Starts conversion of F32 to L32. -/
  | lcvtL (vd va : VReg)
  /-- LCVT_F (R237): Starts conversion of L32 to F32. -/
  | lcvtF (vd va : VReg)
  /-- LEXP (R240): Starts computing 2^y in L32. -/
  | lexp (vd va : VReg)
  /-- LMUL (R238): Starts an L32 product. -/
  | lmul (vd va vb : VReg)
  /-- LDIV (R238): Starts an L32 quotient. -/
  | ldiv (vd va vb : VReg)
  /-- LSQRT (R239): Starts an L32 square root. -/
  | lsqrt (vd va : VReg)
  /-- LRSQ (R239): Starts an L32 reciprocal square root. -/
  | lrsq (vd va : VReg)
  /-- LRCP (R239): Starts an L32 reciprocal. -/
  | lrcp (vd va : VReg)
  /-- LPOW (R241): Starts an L32 power a^b. -/
  | lpow (vd va vb : VReg)
  /-- LADD (R242): Starts an L32 sum. -/
  | ladd (vd va vb : VReg)
  /-- LSUB (R242): Starts an L32 difference. -/
  | lsub (vd va vb : VReg)
  /-- LFIX (R243): Starts moving the L32 log field to Q9.21 fixed point. -/
  | lfix (vd va : VReg)
  /-- LFLT (R243): Starts building an L32 value from a Q9.21 log field. -/
  | lflt (vd va : VReg)
  /-- CPY (R248): Starts a linear copy. -/
  | cpy (sd sa : SReg)
  /-- CPY2 (R248): Starts a 2-D strided copy. -/
  | cpy2 (sd sa : SReg)
  /-- GATH (R248): Starts an indexed gather into scratchpad, with optional tombstones. -/
  | gath (sd sa : SReg)
  /-- SCAT (R248): Starts an indexed scatter to global memory. -/
  | scat (sd sa : SReg)
  /-- CPSCH (R263): Starts the team's static copy schedule. -/
  | cpsch (sd sa : SReg)
  /-- CPSTG (R264): Releases the next stage of the team's copy schedule. -/
  | cpstg (sd : SReg)
  /-- CPCUR (R265): Reads the copy schedule's release counters into four registers. -/
  | cpcur (sd sa : SReg)
  /-- MWLD (R274): Latches a weight tile into a weight buffer. -/
  | mwld (sd sa : SReg)
  /-- MTBL (R281): Replaces the team's activation table. -/
  | mtbl (sd sa : SReg)
  /-- MLOOP (R277): Streams gathered rows through the array over K-steps into an accumulator bank. -/
  | mloop (sd sa : SReg)
  /-- MRD (R286): Reads one accumulator column into a vector register. -/
  | mrd (sd sa : SReg)
  /-- MST (R284): Writes accumulator rows to scratchpad through the fused chain. -/
  | mst (sd sa : SReg)
  /-- MCLR_MATRIX (R287): Clears one or both accumulator banks. -/
  | mclrMatrix (sd sa : SReg)
  /-- MSTAT (R288): Reads, and optionally clears, the matrix status after earlier matrix commands. -/
  | mstat (sd sa : SReg)
  /-- TASK (R313): Enters a task creation from a launch record into the issuer's write set or commit. -/
  | task (sd sa : SReg)
  /-- ALLOC (R315): Grows the team's scratchpad allocation. -/
  | alloc (sd sa : SReg)
  /-- FREE (R315): Shrinks the team's scratchpad allocation. -/
  | free (sd sa : SReg)
  /-- VGROW (R316): Raises the group's vector count in force. -/
  | vgrow (sd sa : SReg)
  /-- VSHRK (R316): Lowers the group's vector count in force. -/
  | vshrk (sd sa : SReg)
  /-- KBAR (R319): Arrives at and waits on a cluster barrier, closing the quantum. -/
  | kbar (k : BitVec 2)
  /-- SEND (R327): Sends a two-word message to a port and closes the quantum. -/
  | send (sd sa : SReg)
  /-- RECV (R328): Polls a poll or count port into seven registers. -/
  | recv (sd sa : SReg)
  /-- YIELD (R333): Parks the group as a continuation waiting on one port. -/
  | yield (sa : SReg)
  /-- PORTCFG (R329): Writes a port's configuration fields. -/
  | portcfg (sd sa : SReg)
  /-- PATCFG (R330): Writes a whole pattern entry. -/
  | patcfg (sd sa : SReg)
  /-- PATSET (R331): Enables or disables a pattern, or arms or disarms count operations. -/
  | patset (sd sa : SReg)
  /-- PHREG (R366): Registers or changes the role of a phaser party. -/
  | phreg (sd sa : SReg)
  /-- PHDROP (R367): Drops a phaser party. -/
  | phdrop (sd sa : SReg)
  /-- PHSIG (R368): Signals an ALL phaser for the group party. -/
  | phsig (sd sa : SReg)
  /-- PHSIGB (R368): Signals an ALL phaser bound to the issuer's outstanding writes. -/
  | phsigb (sd sa : SReg)
  /-- PHANY (R369): Sends an any-of candidate to an ANY phaser. -/
  | phany (sd sa : SReg)
  /-- PHANYB (R369): Sends an any-of candidate bound to the issuer's outstanding writes. -/
  | phanyb (sd sa : SReg)
  /-- PHWAIT (R370): Waits for the party's next phase and returns its outcome. -/
  | phwait (sd sa : SReg)
  /-- PHSTAT (R371): Reads the party's phaser view into five registers. -/
  | phstat (sd sa : SReg)
  /-- GATOM (R387): Global atomic with return, applied at step 3 and closing the quantum. -/
  | gatom (op : AtomOp) (sd sa : SReg)
  /-- GATOM_ORDERED (R39): Ordered global atomic without return, applied at step 2. -/
  | gatomOrdered (op : AtomOp) (sa : SReg)
  /-- GRED (R387): Commutative global reduction applied at step 2. -/
  | gred (op : RedAtomOp) (sa : SReg)
  /-- MCST (R395): Multicasts one 256 B line to every member of a fabric group. -/
  | mcst (sd sa : SReg)
  /-- COLL (R399): Contributes the team's data to a tree collective. -/
  | coll (sd sa : SReg)
  /-- GSYNC (R402): Reports the domain's view of a group or tree membership. -/
  | gsync (sd sa : SReg)
  /-- RDSR (R410): Reads system register n into sd. -/
  | rdsr (sd : SReg) (n : BitVec 10)
  /-- WRSR (R410): Writes s(sa) into system register n with its side effects. -/
  | wrsr (n : BitVec 10) (sa : SReg)
  /-- TLBINV (R411): Drops matching translation-cache entries package-wide. -/
  | tlbinv (sa : SReg)
  /-- PHALLOC (R412): Allocates a phaser slot with fixed attributes. -/
  | phalloc (sd sa : SReg)
  /-- PHFREE (R412): Frees a phaser and releases its waiters. -/
  | phfree (sd sa : SReg)
  /-- TREEREQ (R413): Creates or deletes a fabric tree. -/
  | treereq (sd sa : SReg)
  /-- CTXSAV (R433): Writes a drained context's record and releases its resources. -/
  | ctxsav (sd sa : SReg)
  /-- CTXLD (R434): Checks and loads a saved context record into a free context. -/
  | ctxld (sd sa : SReg)
  /-- BKPT (R442): Raises DEBUG cause 4 on a compute core. -/
  | bkpt (code : BitVec 10)
  /-- NOP (R163): Retires with no effect other than advancing the clock. -/
  | nop
  /-- RET (R176): Pops the top call frame and continues at its offset. -/
  | ret
  /-- RECON (R183): Makes the split wait at a reconvergence point until its divergence record can merge. -/
  | recon
  /-- EXIT (R177): Ends the issuing split; its lanes leave the group for good. -/
  | exit
  /-- ROOT (R317): Roots the issuing task and closes the quantum. -/
  | root
  /-- SPLIT (R318): Asks for a voluntary split of an unrooted task. -/
  | split
  /-- ERET (R410): Leaves the supervisor handler, applying pending trap dispositions, and continues at EPC. -/
  | eret
  /-- WFI (R410): Waits until a supervisor entry or event is pending. -/
  | wfi
  /-- HALTC (R410): Stops the control core until die reset. -/
  | haltc
  /-- TRET (R424): Ends the user handler and resumes at the rpc word. -/
  | tret
  /-- TESC (R424): Ends the user handler and passes the trap to the supervisor. -/
  | tesc
  /-- DIVISION_COMPLETE (R167): A uniform division finishes, writes sd and decrements its flag. Argument: a = cmd. -/
  | divisionComplete
  /-- CLAUSE_START (R156): A clause starts for a split once its words are fetched, its checks pass and its WAIT flags are zero. -/
  | clauseStart
  /-- LOG_OPERATION_COMPLETE (R232): A log-engine operation delivers its result and ORs its flags into %fps. Argument: a = cmd. -/
  | logOperationComplete
  /-- COPY_COMMAND_COMPLETE (R254): A copy command finishes, writes its status and decrements its flag, signalling by cmode. Argument: a = cmd. -/
  | copyCommandComplete
  /-- COPY_FAULT (R259): A copy chunk faults; the command is suspended and a fault record is queued. Argument: a = cmd. -/
  | copyFault
  /-- MATRIX_COMMAND_COMPLETE (R289): A matrix command completes, decrements its flag and writes its status. Argument: a = cmd. -/
  | matrixCommandComplete
  /-- UNROOTED_EVENT_TAKES_EFFECT (R302): A held event of an unrooted task takes effect once every other agent has passed it in logical order. Argument: a = group, b = split. -/
  | unrootedEventTakesEffect
  /-- TASK_PLACEMENT (R297): A ready task's teams are placed on a cluster once space and reservations allow. Argument: a = task. -/
  | taskPlacement
  /-- CONTINUATION_RESUME (R345): A released continuation is resumed on a core with budget, restoring its recorded state. Argument: a = cont. -/
  | continuationResume
  /-- COMMIT (R46): Commit(q) of a domain begins once commit(q-1) is done and M reaches (q+1)Q, applying its eight steps. Argument: a = dom. -/
  | commit
  /-- GATHERED_LAUNCH_START (R355): A filled gathering of launches on a phaser starts as one commit domain. Argument: a = phaser. -/
  | gatheredLaunchStart
  /-- HOST_SUBMISSION_ENTRY (R348): The join engine takes a submission ring entry, accepting or skipping it by its hseq. Argument: a = fn. -/
  | hostSubmissionEntry
  /-- HOST_LAUNCH_REQUEST (R349): An accepted launch request is checked and starts a new commit domain, with a reply. Argument: a = ctx. -/
  | hostLaunchRequest
  /-- SRTAIL_DOORBELL (R455): A host write to SRTAIL rings the doorbell of a function's submission ring. Argument: a = fn, value = tail. -/
  | srtailDoorbell
  /-- SVDB_DOORBELL (R455): A write to SVDB queues event 1 on die 0. Argument: a = fn. -/
  | svdbDoorbell
  /-- FNMAP_WRITE (R456): Maps a package function to a context, ignored if it would map two functions of one port. Argument: value = value. -/
  | fnmapWrite
  /-- SUPERVISOR_ENTRY (R416): The control core enters its vector for the next queued trap record, copy fault, debug record or event. Argument: a = die. -/
  | supervisorEntry
  /-- EVT_READ (R407): Reading EVT returns and pops the head event record. Argument: a = die. -/
  | evtRead
  /-- TQACT_RESUME (R426): Answers the head trap record with resume at rpc, applied at ERET. Argument: a = die. -/
  | tqactResume
  /-- TQACT_TERMINATE (R426): Answers the head trap record with team termination and a fault-port report. Argument: a = die. -/
  | tqactTerminate
  /-- TQACT_RESUME_AT_TQRPC (R426): Answers the head trap record with resume at TQRPC. Argument: a = die. -/
  | tqactResumeAtTqrpc
  /-- CFQACT_REPLAY (R261): Answers the head copy-fault record with replay from the cursor. Argument: a = die. -/
  | cfqactReplay
  /-- CFQACT_DECLINE (R261): Answers the head copy-fault record with decline, terminating the team. Argument: a = die. -/
  | cfqactDecline
  /-- PREEMPT (R430): Starts pre-emption of a running context package-wide. Argument: a = ctx. -/
  | preempt
  /-- DRAIN_COMPLETE (R430): Every agent of a draining context has stopped; CTXST becomes drained and event 2 is queued. Argument: a = ctx. -/
  | drainComplete
  /-- DRAIN_DEADLINE_EXPIRY (R431): The drain deadline passes and the context is force-reset, with event 3. Argument: a = ctx. -/
  | drainDeadlineExpiry
  /-- CONTEXT_SPACE_WRITE (R408): A write to PSPACE, TSPACE or MSHARE takes effect only while the context is free. Argument: a = die, b = n, value = value. -/
  | contextSpaceWrite
  /-- PROFILING_BUFFER_MOVE (R427): A write to PBBASE or PBSIZE resets head and tail and drops every translation-cache entry. Argument: a = die, b = n, value = value. -/
  | profilingBufferMove
  /-- PROFILE_SAMPLE (R451): A sample period expires and a sample record is written for a resident group. Argument: a = die, b = core. -/
  | profileSample
  /-- DQACT_RESUME (R445): Answers the head debug record by releasing the team's halt. Argument: a = die. -/
  | dqactResume
  /-- DQACT_STEP (R447): Issues exactly one slot of the named split and queues a step record. Argument: a = die, b = slot, c = entry. -/
  | dqactStep
  /-- DQACT_TERMINATE (R445): Answers the head debug record by terminating the team. Argument: a = die. -/
  | dqactTerminate
  /-- DQACT_HOLD (R445): Removes the head debug record and keeps the team halted. Argument: a = die. -/
  | dqactHold
  /-- HALTREQ (R446): Halts the team holding the named group slot as a DEBUG cause 6 stop. Argument: a = die, b = core, c = slot. -/
  | haltreq
  /-- DWDATA_ACCESS (R448): Reads or writes one item of a halted group through the access window. Argument: a = die, value = write. -/
  | dwdataAccess
  /-- DEBUG_WINDOW_ACCESS (R469): A host access to the BAR 2 debug window acts on a debug register, or is counted when closed. Argument: a = port, b = off, value = write. -/
  | debugWindowAccess
  /-- MEASUREMENT_EXTEND (R464): Extends a measurement slot with the staged digest. Argument: value = value. -/
  | measurementExtend
  /-- ATTESTATION_QUOTE (R465): Starts an attestation quote over the nonce and measurements. -/
  | attestationQuote
  /-- ATTESTATION_QUOTE_COMPLETE (R465): The quote is signed, the counter persisted and ATTSTAT becomes done. -/
  | attestationQuoteComplete
  /-- UNLOCK_VERIFY (R468): Starts verification of the debug token. -/
  | unlockVerify
  /-- UNLOCK_VERIFY_COMPLETE (R468): Token verification finishes with a pass or failure code. -/
  | unlockVerifyComplete
  /-- UNLOCK_COMMIT (R468): Enters the DEBUG lifecycle state after a verified token. -/
  | unlockCommit
  /-- KWIPE (R468): Empties every key slot when every context is free. -/
  | kwipe
  /-- CHECKPOINT_SAVE (R470): Starts copying package memory to the host regions. -/
  | checkpointSave
  /-- CHECKPOINT_RESTORE (R470): Starts restoring package memory from the host regions. -/
  | checkpointRestore
  /-- CHECKPOINT_COMPLETE (R470): A checkpoint or restore ends and event 8 is queued with its final code. Argument: a = linkFailed. -/
  | checkpointComplete
  /-- PACKAGE_RESET (R458): The package resets, checks firmware and starts the control cores. -/
  | packageReset
  /-- RECOVERY_IMAGE_SUBMIT (R461): A host-written recovery image is checked and booted if accepted. Argument: bytes = image. -/
  | recoveryImageSubmit
  /-- HOST_LINK_DOWN (R457): Loss of a host link queues event 7 on its die. Argument: a = port. -/
  | hostLinkDown
  /-- LINK_DOWN (R390): A Sweli link that cannot recover is taken down and a MACHINE fault raised. Argument: a = port. -/
  | linkDown
  /-- UNCORRECTABLE_ERROR (R421): An uncorrectable memory or internal error raises a MACHINE fault. Argument: err. -/
  | uncorrectableError
  /-- SUPPLY_DROOP (R471): A supply sag stretches the cluster clock and is counted in DROOPCNT. Argument: a = die, b = cluster. -/
  | supplyDroop
  /-- LIFETIME_SECOND_TICK (R472): Each second the temperature, voltage and hour counters are advanced. Argument: a = milliDegrees, b = milliVolts. -/
  | lifetimeSecondTick
  /-- LIFETIME_COUNTER_PERSIST (R472): Lifetime counters are persisted at least every 60 s and at orderly shutdown. -/
  | lifetimeCounterPersist
  /-- REGISTER_WRITE (R407): A write to a register with no behaviour of its own stores the value. Argument: a = die, b = n, value = value. -/
  | registerWrite
  /-- STALL_REASON_COUNT (R190): In every cycle in which a resident group issues no slot, exactly one of its stall-reason counters is incremented. Argument: a = group. -/
  | stallReasonCount
  /-- SWELI_LINK_RETRAIN (R390): A Sweli link recovers by retraining and the retrain is counted in lifetime kind 4. Argument: a = port. -/
  | sweliLinkRetrain
  /-- HOST_LINK_RETRAIN (R472): A host PCIe link retrains and the event is counted in lifetime kind 5. Argument: a = port. -/
  | hostLinkRetrain
  /-- CORRECTED_ECC_EVENT (R472): An ECC error is corrected and counted in lifetime kind 2 for its die and bank. Argument: a = die, b = bank. -/
  | correctedEccEvent
  /-- MANAGEMENT_CONTROLLER_CAP (R471): On SW9-M the management controller imposes a lower power cap, and the lower of the two caps applies. Argument: value = watts. -/
  | managementControllerCap
  /-- RECEIVE_TABLE_WRITE (R407): A write to RTDATA changes a receive-table entry only when the entry's context is free or saved, and is ignored otherwise. Argument: value = value. -/
  | receiveTableWrite
  /-- DSACK_WRITE (R348): The host writes DSACK, freeing reply-ring space so that a step 4 waiting for space can go on. Argument: a = fn, value = value. -/
  | dsackWrite
  /-- CAREA_WRITE (R428): The supervisor enlarges a context's area with a write to CAREA, and the groups waiting for space go on. Argument: a = die, b = n, value = value. -/
  | careaWrite
  /-- REPLY_ENTRY_VISIBLE (R348): A reply entry's write completes in host memory and DSENT advances to cover it. Argument: a = fn. -/
  | replyEntryVisible
  deriving DecidableEq, Repr

end Sys2Proof
end

