-- ==== Sys2Proof/Machine/Uses.lean ====
section
/-!
DEFINITION. The registers an instruction reads and writes by its fields, its block and its opcode
(02_encoding R78), which instructions are long-latency (R77), control transfers (R80), privileged or
of the control core's set (R111), the sizes of descriptor blocks, and the static operand conditions
of R82 that depend on the instruction alone.
-/

namespace Sys2Proof.Machine

/-- The uniform registers n, n+1, … n+k-1. -/
def regRange (n k : Nat) : List Nat := (List.range k).map (n + ·)

/-- The three uniform registers of triple t (R87). -/
def tripleRegs (t : Nat) : List Nat := regRange (3 * t + 1) 3

/-- The descriptor block an instruction reads: first register and number of words (R78, R244, R270,
R312, R326, R363, R383, R394, R398, R402, R409). -/
def blockOf : Instr → Option (Nat × Nat)
  | .cpy _ sa => some (sa.toNat, 8)
  | .cpy2 _ sa | .mloop _ sa => some (sa.toNat, 11)
  | .gath _ sa | .scat _ sa | .task _ sa => some (sa.toNat, 12)
  | .cpsch _ sa | .gsync _ sa => some (sa.toNat, 5)
  | .cpcur _ sa | .mclrMatrix _ sa | .mstat _ sa | .alloc _ sa | .free _ sa | .vgrow _ sa
  | .vshrk _ sa | .recv _ sa | .phsig _ sa | .phsigb _ sa | .phwait _ sa | .phfree _ sa =>
    some (sa.toNat, 1)
  | .mwld _ sa | .mrd _ sa | .send _ sa | .portcfg _ sa | .gatom _ _ sa | .gatomOrdered _ sa
  | .gred _ sa | .tlbinv sa | .treereq _ sa | .ctxld _ sa => some (sa.toNat, 3)
  | .mtbl _ sa | .ctxsav _ sa => some (sa.toNat, 4)
  | .mst _ sa => some (sa.toNat, 9)
  | .yield sa | .mcst _ sa => some (sa.toNat, 7)
  | .patcfg _ sa => some (sa.toNat, 8)
  | .patset _ sa | .coll _ sa => some (sa.toNat, 6)
  | .phreg _ sa | .phdrop _ sa | .phany _ sa | .phanyb _ sa | .phstat _ sa | .phalloc _ sa =>
    some (sa.toNat, 2)
  | _ => none

/-- The registers of the descriptor block. -/
def blockRegs (i : Instr) : List Nat :=
  match blockOf i with
  | some (a, k) => regRange a k
  | none => []

/-- The effect depends on the issuing split's activity mask, so s1-s3 are read (R78). -/
def readsMask : Instr → Bool
  | .vadd .. | .vsub .. | .vmul .. | .vmulhs .. | .vmulhu .. | .vand .. | .vor .. | .vxor ..
  | .vandn .. | .vshl .. | .vshr .. | .vsra .. | .vmin .. | .vmax .. | .vminu .. | .vmaxu ..
  | .vmad .. | .vadds .. | .vsubs .. | .vmuls .. | .vands .. | .vshls .. | .vshrs .. | .vsras ..
  | .vmins .. | .vmaxs .. | .vfadds .. | .vfmuls .. | .vfmas .. | .vcmps .. | .vnot .. | .vneg ..
  | .vabs .. | .vclz .. | .vpop .. | .vbrev .. | .vsext8 .. | .vsext16 .. | .vcmpA .. | .vcmpB ..
  | .vsel .. | .vmov .. | .vlane .. | .vbcs .. | .vget .. | .vput .. | .vfadd .. | .vfsub ..
  | .vfmul .. | .vfmin .. | .vfmax .. | .vfcpys .. | .vfma .. | .vfms .. | .vfnma .. | .vfnms ..
  | .vfabs .. | .vfneg .. | .vfrint .. | .vftrunc .. | .vffloor .. | .vfceil .. | .vfclass ..
  | .vfcmp .. | .vcvtLow .. | .vcvtHigh .. | .vpack .. | .vunpk .. | .vdot4i8 .. | .vdot4u8 ..
  | .vdot4f8a .. | .vdot4f8b .. | .vdot8i4 .. | .vdot2f16 .. | .vdot2bf16 .. | .vperm ..
  | .vshx .. | .vshu .. | .vshd .. | .vred .. | .vscan .. | .vld .. | .vldh .. | .vldb .. | .vst ..
  | .vsth .. | .vstb .. | .vldc .. | .vstc .. | .vatadd .. | .vatand .. | .vator .. | .vatxor ..
  | .vatmin .. | .vatmax .. | .vatxchg .. | .vspill .. | .vfill .. | .bara .. | .barw .. | .bar ..
  | .barcfg .. | .lcvtL .. | .lcvtF .. | .lexp .. | .lmul .. | .ldiv .. | .lsqrt .. | .lrsq ..
  | .lrcp .. | .lpow .. | .ladd .. | .lsub .. | .lfix .. | .lflt .. | .brv .. | .gatom ..
  | .gatomOrdered .. | .gred .. | .gath .. | .scat .. | .mloop .. | .mrd .. => true
  | _ => false

/-- Uniform registers read through fields (R78, R97, R162). -/
def fieldReads : Instr → List Nat
  | .smov _ a | .snot _ a | .sneg _ a | .sabs _ a | .sclz _ a | .sctz _ a | .spop _ a | .sbrev _ a
  | .ssext8 _ a | .ssext16 _ a | .szext8 _ a | .szext16 _ a | .sld _ a _ _ | .mode a
  | .wrsr _ a => [a.toNat]
  | .sadd d a | .ssub d a | .smul d a | .smulhs d a | .smulhu d a | .sand d a | .sor d a
  | .sxor d a | .sandn d a | .sshl d a | .sshr d a | .ssra d a | .smin d a | .smax d a
  | .sminu d a | .smaxu d a | .scmp d a _ | .sdiv d a | .sdivu d a | .srem d a | .sremu d a
  | .sbfxu d a | .sbfxs d a | .sbfi d a _ | .sst d a _ _ => [d.toNat, a.toNat]
  | .saddLit d _ | .ssubLit d _ | .smulLit d _ | .smulhsLit d _ | .smulhuLit d _ | .sandLit d _
  | .sorLit d _ | .sxorLit d _ | .sandnLit d _ | .sshlLit d _ | .sshrLit d _ | .ssraLit d _
  | .sminLit d _ | .smaxLit d _ | .sminuLit d _ | .smaxuLit d _ | .scmpLit d _ _ => [d.toNat]
  | .mpop _ t | .mfirst _ t | .mlast _ t | .mnot _ t | .brv _ _ t _ => tripleRegs t.toNat
  | .mand d t | .mor d t | .mxor d t | .mandn d t => tripleRegs d.toNat ++ tripleRegs t.toNat
  | .br c _ _ => [c.toNat]
  | .vadds _ _ s | .vsubs _ _ s | .vmuls _ _ s | .vands _ _ s | .vshls _ _ s | .vshrs _ _ s
  | .vsras _ _ s | .vmins _ _ s | .vmaxs _ _ s | .vfadds _ _ s | .vfmuls _ _ s | .vfmas _ _ s
  | .vcmps _ _ _ s | .vbcs _ s | .vshx _ _ s | .vshu _ _ s | .vshd _ _ s | .vld _ s _
  | .vldh _ s _ | .vldb _ s _ | .vst _ s _ | .vsth _ s _ | .vstb _ s _ => [s.toNat]
  | .vput _ s => [s.toNat, s.toNat + 1]
  | .vget d _ => [d.toNat]
  | .vsel _ _ _ t => tripleRegs t.toNat
  | .barcfg _ d => [d.toNat]
  | _ => []

/-- Every uniform register the instruction reads for R78 and R79. -/
def uReads (i : Instr) : List Nat :=
  fieldReads i ++ blockRegs i ++ (if readsMask i then [1, 2, 3] else [])

/-- The index forms of `VRED` write a pair (R104). -/
def RedOp.isIndex : RedOp → Bool
  | .maxi | .mini | .fmaxi | .fmini => true
  | _ => false

/-- Every uniform register the instruction writes for R78 (R104, R183, R253, R265, R328,
R363). -/
def uWrites : Instr → List Nat
  | .smov d _ | .slit d _ | .sadd d _ | .ssub d _ | .smul d _ | .smulhs d _ | .smulhu d _
  | .sand d _ | .sor d _ | .sxor d _ | .sandn d _ | .sshl d _ | .sshr d _ | .ssra d _ | .smin d _
  | .smax d _ | .sminu d _ | .smaxu d _ | .saddLit d _ | .ssubLit d _ | .smulLit d _
  | .smulhsLit d _ | .smulhuLit d _ | .sandLit d _ | .sorLit d _ | .sxorLit d _ | .sandnLit d _
  | .sshlLit d _ | .sshrLit d _ | .ssraLit d _ | .sminLit d _ | .smaxLit d _ | .sminuLit d _
  | .smaxuLit d _ | .scmp d _ _ | .scmpLit d _ _ | .snot d _ | .sneg d _ | .sabs d _ | .sclz d _
  | .sctz d _ | .spop d _ | .sbrev d _ | .ssext8 d _ | .ssext16 d _ | .szext8 d _ | .szext16 d _
  | .sdiv d _ | .sdivu d _ | .srem d _ | .sremu d _ | .sbfxu d _ | .sbfxs d _ | .sbfi d _ _
  | .sld d _ _ _ | .slr d _ | .slrC d _ | .modeg d | .mpop d _ | .mfirst d _ | .mlast d _
  | .vget d _ | .cpy d _ | .cpy2 d _ | .scat d _ | .cpsch d _ | .cpstg d | .mwld d _ | .mtbl d _
  | .mloop d _ | .mrd d _ | .mst d _ | .mclrMatrix d _ | .mstat d _ | .task d _ | .alloc d _
  | .free d _ | .vgrow d _ | .vshrk d _ | .send d _ | .portcfg d _ | .patcfg d _ | .patset d _
  | .phreg d _ | .phdrop d _ | .phsig d _ | .phsigb d _ | .phany d _ | .phanyb d _ | .gatom _ d _
  | .mcst d _ | .coll d _ | .gsync d _ | .rdsr d _ | .phalloc d _ | .phfree d _ | .treereq d _
  | .ctxsav d _ | .ctxld d _ => [d.toNat]
  | .mnot d _ | .mand d _ | .mor d _ | .mxor d _ | .mandn d _ | .mclr d | .mall d
  | .vcmpA _ d _ _ | .vcmpB _ d _ _ | .vfcmp _ d _ _ => tripleRegs d.toNat
  | .vcmps _ d _ _ => tripleRegs d.toNat
  | .vred op d _ => if RedOp.isIndex op then [d.toNat, d.toNat + 1] else [d.toNat]
  | .gath d _ => if 4 ≤ d.toNat ∧ d.toNat ≤ 1004 then regRange d.toNat 4 else [d.toNat]
  | .cpcur d _ | .phwait d _ => regRange d.toNat 4
  | .recv d _ => regRange d.toNat 7
  | .phstat d _ => regRange d.toNat 5
  | .recon => [1, 2, 3]
  | _ => []

/-- Vector registers read through fields (R78, R191, R214). -/
def vReads : Instr → List Nat
  | .vadd _ a b | .vsub _ a b | .vmul _ a b | .vmulhs _ a b | .vmulhu _ a b | .vand _ a b
  | .vor _ a b | .vxor _ a b | .vandn _ a b | .vshl _ a b | .vshr _ a b | .vsra _ a b
  | .vmin _ a b | .vmax _ a b | .vminu _ a b | .vmaxu _ a b | .vcmpA _ _ a b | .vcmpB _ _ a b
  | .vsel _ a b _ | .vfadd _ a b | .vfsub _ a b | .vfmul _ a b | .vfmin _ a b | .vfmax _ a b
  | .vfcpys _ a b | .vfcmp _ _ a b | .vperm _ a b | .lmul _ a b | .ldiv _ a b | .lpow _ a b
  | .ladd _ a b | .lsub _ a b | .vatadd _ _ a b | .vatand _ _ a b | .vator _ _ a b
  | .vatxor _ _ a b | .vatmin _ _ _ a b | .vatmax _ _ _ a b | .vatxchg _ a b => [a.toNat, b.toNat]
  | .vmad d a b | .vfma d a b | .vfms d a b | .vfnma d a b | .vfnms d a b | .vpack d a b
  | .vdot4i8 d a b | .vdot4u8 d a b | .vdot4f8a d a b | .vdot4f8b d a b | .vdot8i4 d a b
  | .vdot2f16 d a b | .vdot2bf16 d a b => [a.toNat, b.toNat, d.toNat]
  | .vadds _ a _ | .vsubs _ a _ | .vmuls _ a _ | .vands _ a _ | .vshls _ a _ | .vshrs _ a _
  | .vsras _ a _ | .vmins _ a _ | .vmaxs _ a _ | .vfadds _ a _ | .vfmuls _ a _ | .vcmps _ _ a _
  | .vnot _ a | .vneg _ a | .vabs _ a | .vclz _ a | .vpop _ a | .vbrev _ a | .vsext8 _ a
  | .vsext16 _ a | .vmov _ a | .vget _ a | .vfabs _ a | .vfneg _ a | .vfrint _ a | .vftrunc _ a
  | .vffloor _ a | .vfceil _ a | .vfclass _ a | .vcvtLow _ a _ | .vcvtHigh _ a _ | .vunpk _ a _
  | .vshx _ a _ | .vshu _ a _ | .vshd _ a _ | .vred _ _ a | .vscan _ _ _ a | .vldc _ _ a
  | .vspill a | .lcvtL _ a | .lcvtF _ a | .lexp _ a | .lsqrt _ a | .lrsq _ a | .lrcp _ a
  | .lfix _ a | .lflt _ a => [a.toNat]
  | .vfmas d a _ => [a.toNat, d.toNat]
  | .vst d _ _ | .vsth d _ _ | .vstb d _ _ => [d.toNat]
  | .vstc _ d a => [d.toNat, a.toNat]
  | _ => []

/-- Vector registers written through fields (R78, R191). -/
def vWrites : Instr → List Nat
  | .vadd d _ _ | .vsub d _ _ | .vmul d _ _ | .vmulhs d _ _ | .vmulhu d _ _ | .vand d _ _
  | .vor d _ _ | .vxor d _ _ | .vandn d _ _ | .vshl d _ _ | .vshr d _ _ | .vsra d _ _
  | .vmin d _ _ | .vmax d _ _ | .vminu d _ _ | .vmaxu d _ _ | .vmad d _ _ | .vsel d _ _ _
  | .vfadd d _ _ | .vfsub d _ _ | .vfmul d _ _ | .vfmin d _ _ | .vfmax d _ _ | .vfcpys d _ _
  | .vfma d _ _ | .vfms d _ _ | .vfnma d _ _ | .vfnms d _ _ | .vpack d _ _ | .vdot4i8 d _ _
  | .vdot4u8 d _ _ | .vdot4f8a d _ _ | .vdot4f8b d _ _ | .vdot8i4 d _ _ | .vdot2f16 d _ _
  | .vdot2bf16 d _ _ | .vperm d _ _ | .lmul d _ _ | .ldiv d _ _ | .lpow d _ _ | .ladd d _ _
  | .lsub d _ _ | .vadds d _ _ | .vsubs d _ _ | .vmuls d _ _ | .vands d _ _ | .vshls d _ _
  | .vshrs d _ _ | .vsras d _ _ | .vmins d _ _ | .vmaxs d _ _ | .vfadds d _ _ | .vfmuls d _ _
  | .vfmas d _ _ | .vnot d _ | .vneg d _ | .vabs d _ | .vclz d _ | .vpop d _ | .vbrev d _
  | .vsext8 d _ | .vsext16 d _ | .vmov d _ | .vlane d | .vbcs d _ | .vput d _ | .vfabs d _
  | .vfneg d _ | .vfrint d _ | .vftrunc d _ | .vffloor d _ | .vfceil d _ | .vfclass d _
  | .vcvtLow d _ _ | .vcvtHigh d _ _ | .vunpk d _ _ | .vshx d _ _ | .vshu d _ _ | .vshd d _ _
  | .vscan _ _ d _ | .vld d _ _ | .vldh d _ _ | .vldb d _ _ | .vldc _ d _ | .vfill d
  | .vatxchg d _ _ | .lcvtL d _ | .lcvtF d _ | .lexp d _ | .lsqrt d _ | .lrsq d _ | .lrcp d _
  | .lfix d _ | .lflt d _ => [d.toNat]
  | .vatadd r d _ _ | .vatand r d _ _ | .vator r d _ _ | .vatxor r d _ _ | .vatmin _ r d _ _
  | .vatmax _ r d _ _ => if r then [d.toNat] else []
  | _ => []

/-- The long-latency instructions (R77). -/
def longLatency : Instr → Bool
  | .sdiv .. | .sdivu .. | .srem .. | .sremu .. | .lcvtL .. | .lcvtF .. | .lexp .. | .lmul ..
  | .ldiv .. | .lsqrt .. | .lrsq .. | .lrcp .. | .lpow .. | .ladd .. | .lsub .. | .lfix ..
  | .lflt .. | .cpy .. | .cpy2 .. | .gath .. | .scat .. | .cpsch .. | .cpstg .. | .mwld ..
  | .mtbl .. | .mloop .. | .mrd .. | .mst .. | .mclrMatrix .. | .gatom .. | .mcst .. | .coll ..
  | .gsync .. => true
  | _ => false

/-- The control transfers (R80). -/
def isTransfer : Instr → Bool
  | .br .. | .brv .. | .call .. | .ret | .exit | .yield .. | .trapu .. | .eret | .tret
  | .tesc => true
  | _ => false

/-- The transfers that make DEP bit 0 of the next clause need no check, having written no register
(R78). -/
def isBranch : Instr → Bool
  | .br .. | .brv .. | .call .. | .ret | .eret => true
  | _ => false

/-- The privileged instructions, opcodes 0xE0-0xEA (R111). -/
def isPrivileged : Instr → Bool
  | .rdsr .. | .wrsr .. | .eret | .tlbinv .. | .phalloc .. | .phfree .. | .treereq ..
  | .ctxsav .. | .ctxld .. | .wfi | .haltc => true
  | _ => false

/-- The control core's set: 0x00-0x17 except `BRV` and `RECON`, 0xE0-0xEA and 0xF0 (R111). -/
def onControlCore : Instr → Bool
  | .nop | .smov .. | .slit .. | .sadd .. | .ssub .. | .smul .. | .smulhs .. | .smulhu ..
  | .sand .. | .sor .. | .sxor .. | .sandn .. | .sshl .. | .sshr .. | .ssra .. | .smin ..
  | .smax .. | .sminu .. | .smaxu .. | .saddLit .. | .ssubLit .. | .smulLit .. | .smulhsLit ..
  | .smulhuLit .. | .sandLit .. | .sorLit .. | .sxorLit .. | .sandnLit .. | .sshlLit ..
  | .sshrLit .. | .ssraLit .. | .sminLit .. | .smaxLit .. | .sminuLit .. | .smaxuLit ..
  | .scmp .. | .scmpLit .. | .snot .. | .sneg .. | .sabs .. | .sclz .. | .sctz .. | .spop ..
  | .sbrev .. | .ssext8 .. | .ssext16 .. | .szext8 .. | .szext16 .. | .sdiv .. | .sdivu ..
  | .srem .. | .sremu .. | .sbfxu .. | .sbfxs .. | .sbfi .. | .sld .. | .sst .. | .slr ..
  | .slrC .. | .mode .. | .modeg .. | .modei .. | .mpop .. | .mfirst .. | .mlast .. | .mnot ..
  | .mand .. | .mor .. | .mxor .. | .mandn .. | .mclr .. | .mall .. | .br .. | .call .. | .ret
  | .exit | .trapu .. | .bkpt .. => true
  | i => isPrivileged i

/-- The log-engine instructions, which need LOG (R17, R82 cause 20). -/
def isLog : Instr → Bool
  | .lcvtL .. | .lcvtF .. | .lexp .. | .lmul .. | .ldiv .. | .lsqrt .. | .lrsq .. | .lrcp ..
  | .lpow .. | .ladd .. | .lsub .. | .lfix .. | .lflt .. => true
  | _ => false

/-- The matrix-engine instructions, which need MX (R17, R82 cause 20). -/
def isMatrix : Instr → Bool
  | .mwld .. | .mtbl .. | .mloop .. | .mrd .. | .mst .. | .mclrMatrix .. | .mstat .. => true
  | _ => false

/-- A mode value the mode register refuses: reserved etype, a bit of [31:15], or ginv with guard 0
(R82 cause 7, R171). -/
def modeIllegal (m : Word) : Bool :=
  decide (12 ≤ (m.extractLsb' 0 4).toNat) || (m.extractLsb' 15 17 != 0) ||
    (m.getLsbD 14 && (m.extractLsb' 9 5 == 0))

/-- The read-only special registers s1008-s1022 (R89). -/
def isReadOnly (n : Nat) : Bool := decide (1008 ≤ n) && decide (n ≤ 1022)

/-- The literal or target condition of cause 19 (R81, R100, R170). -/
def immediateBad : Instr → Bool
  | .br _ _ t | .brv _ _ _ t | .call t => t.extractLsb' 0 2 != 0
  | .sbfi _ _ c => c.extractLsb' 5 3 != 0 || c.extractLsb' 13 19 != 0
  | .slr _ n => decide (64 ≤ n.toNat)
  | _ => false

/-- A block or result block that leaves s0-s1023, or that its instruction forbids to start below s4
(R82 cause 17, R104, R199, R265, R328, R363). -/
def blockBad (i : Instr) : Bool :=
  (match blockOf i with | some (a, k) => decide (1024 < a + k) | none => false) ||
  (match i with
   | .vput _ s => s == 1023
   | .vred op d _ => RedOp.isIndex op && (decide (d.toNat < 4) || d == 1023)
   | .recv d _ => decide (d.toNat < 4) || d == 1023
   | .phwait d _ | .phstat d _ => decide (d.toNat < 4) || d == 1023
   | .cpcur d _ => decide (1024 < d.toNat + 4)
   | _ => false)

/-- Reserved values that the constructors still precheck (R82 cause 2, R103). -/
def reservedValue : Instr → Bool
  | .vsel _ _ _ t => t == 0
  | .vcvtHigh _ _ c => decide (4 ≤ c.toNat)
  | _ => false

/-- Must-be-zero fields that the constructors still precheck (R82 cause 3, R102, R105): `BR` AL with a
register; an atomic without return that names a destination. -/
def fieldNotZero : Instr → Bool
  | .br c .al _ => c != 0
  | .vatadd r d _ _ | .vatand r d _ _ | .vator r d _ _ | .vatxor r d _ _ | .vatmin _ r d _ _
  | .vatmax _ r d _ _ => !r && d != 0
  | _ => false

/-- The lowest static cause of R82 that the instruction's own operands meet. -/
def operandCause (i : Instr) : Option IllegalCause :=
  if reservedValue i then some .reservedSub
  else if fieldNotZero i then some .mustBeZero
  else if (uWrites i).any isReadOnly then some .readOnlyRegister
  else if (match i with | .modei m => modeIllegal m | _ => false) then some .modeValue
  else if blockBad i then some .blockRange
  else if immediateBad i then some .immediateRange
  else none

/-- The kind of an instruction under R94: true integer, false float, none neutral (R192). -/
def kindOf : Instr → Option Bool
  | .vadd .. | .vsub .. | .vmul .. | .vmulhs .. | .vmulhu .. | .vshl .. | .vshr .. | .vsra ..
  | .vmin .. | .vmax .. | .vminu .. | .vmaxu .. | .vmad .. | .vadds .. | .vsubs .. | .vmuls ..
  | .vshls .. | .vshrs .. | .vsras .. | .vmins .. | .vmaxs .. | .vneg .. | .vabs .. | .vcmpA ..
  | .vcmpB .. | .vcmps .. | .vdot4i8 .. | .vdot4u8 .. | .vdot8i4 .. => some true
  | .vfadds .. | .vfmuls .. | .vfmas .. | .vfadd .. | .vfsub .. | .vfmul .. | .vfmin ..
  | .vfmax .. | .vfcpys .. | .vfma .. | .vfms .. | .vfnma .. | .vfnms .. | .vfabs .. | .vfneg ..
  | .vfrint .. | .vftrunc .. | .vffloor .. | .vfceil .. | .vfclass .. | .vfcmp .. | .vdot4f8a ..
  | .vdot4f8b .. | .vdot2f16 .. | .vdot2bf16 .. => some false
  | .vred op _ _ =>
    match op with
    | .add | .min | .max | .minu | .maxu | .maxi | .mini => some true
    | .fadd | .fmin | .fmax | .fmaxi | .fmini => some false
    | .and | .or | .xor => none
  | .vscan op _ _ _ =>
    match op with
    | .add => some true
    | .fadd => some false
    | .max | .min => none
  | _ => none

/-- The element types 7-11 are the float ones (R92). -/
def floatEtype (mode : Word) : Bool := decide (7 ≤ (mode.extractLsb' 0 4).toNat)

/-- The mode refuses the instruction's kind (R94). -/
def kindBad (i : Instr) (mode : Word) : Bool :=
  match kindOf i with
  | none => false
  | some isInt => isInt == floatEtype mode

/-- Instructions with per-lane results, for which the guard triple is read (R93); `GATH`, `SCAT` and `MLOOP` never read
it (R244, R277), and `MRD`, whose column R286 gives to the lanes that write under R93, reads it.
(DEDUCED, log 130). -/
def usesGuard (i : Instr) : Bool :=
  readsMask i &&
    (match i with
     | .vred .. | .vget .. | .vspill .. | .vfill .. | .bara .. | .barw .. | .bar .. | .barcfg ..
     | .brv .. | .gath .. | .scat .. | .mloop .. => false
     | _ => true)

/-- A control transfer after which DEP bit 0 is not checked: it wrote no register, or the clause has no
predecessor (R78). -/
def lastAfter (i : Instr) : Option Instr := if isTransfer i then none else some i

end Sys2Proof.Machine
end

