-- ==== Sys2Proof/WellFormed.lean ====
section
/-!
DEFINITION. Which instructions an encoding may name (02_encoding R82, R96-R110): the conditions on the
fields that a constructor of `Instr` still admits and that the spec refuses. The conditions that depend
on the clause, on the group or on the core (causes 4, 5, 9-16, 18, 20) are checked where a clause starts.
-/

namespace Sys2Proof

/-- A `GATOM` with sd = s0 is an ordered atomic, which is another row of the table (R39, R107). -/
def Instr.namesOwnRow : Instr → Bool
  | .gatom _ sd _ => sd != 0
  | _ => true

/-- The instruction is one that a valid encoding names: its operands meet no static cause of R82, and
its fields select its own row. -/
def Instr.wf (i : Instr) : Bool :=
  Instr.namesOwnRow i && (Machine.operandCause i).isNone

end Sys2Proof
end

