-- ==== Sys2Proof/Decode.lean ====
section
/-!
DEFINITION. Clause headers and slot words (02_encoding R73-R75, R84, R85, R95-R111): the decoder, total on
every word, which names the cause of R82 for a word that is no instruction (causes 1-4), and the encoder
written from the same tables. Words are little-endian in memory (00_scope R7, R73).
-/

namespace Sys2Proof

/-! ### The fields of a clause header (R74) -/

/-- WAIT, bits [31:20]: flag i in bit i. -/
def hdrWait (h : Word) : BitVec 12 := h.extractLsb' 20 12

/-- SETA, bits [19:16]. -/
def hdrSetA (h : Word) : BitVec 4 := h.extractLsb' 16 4

/-- SETB, bits [15:12]. -/
def hdrSetB (h : Word) : BitVec 4 := h.extractLsb' 12 4

/-- The number of slot words, LEN plus one, 1-8. -/
def hdrLen (h : Word) : Nat := (h.extractLsb' 9 3).toNat + 1

/-- DEP, bits [7:0]. -/
def hdrDep (h : Word) : BitVec 8 := h.extractLsb' 0 8

/-! ### Slot words -/

/-- Entry `n` of a table of sub values; a value the table does not assign is reserved (R82 cause 2). -/
def pick {α : Type} (table : List α) (n : Nat) : Except IllegalCause α :=
  match table[n]? with
  | some x => .ok x
  | none => .error .reservedSub

/-- A must-be-zero condition on the fields of an assigned sub value (R82 cause 3). -/
def mustZero (ok : Bool) (r : Except IllegalCause Instr) : Except IllegalCause Instr :=
  match r with
  | .ok i => if ok then .ok i else .error .mustBeZero
  | .error c => .error c

/-- The condition codes in the order of R98. -/
def conds : List Cond := [.eq, .ne, .lt, .le, .gt, .ge, .ltu, .leu, .gtu, .geu]

/-- The branch conditions in the order of R102. -/
def brConds : List BrCond := [.al, .eqz, .nez, .ltz, .gez]

/-- The float conditions in the order of R103 (0x5B). -/
def fconds : List FCond := [.eq, .ne, .lt, .le, .gt, .ge, .un, .ord]

/-- The widths of `SLD` (R96). -/
def loadWidths : List LoadWidth := [.w, .h, .hs, .b, .bs]

/-- The widths of `SST`, `VLDC` and `VSTC` (R96, R103). -/
def widths : List Width := [.w, .h, .b]

/-- The reductions of `VRED` in the order of R104. -/
def redOps : List RedOp :=
  [.add, .and, .or, .xor, .min, .max, .minu, .maxu, .fadd, .fmin, .fmax, .maxi, .mini, .fmaxi,
    .fmini]

/-- The scans of `VSCAN` (R103, 0x66), two sub values each. -/
def scanOps : List ScanOp := [.add, .fadd, .max, .min]

/-- The kinds of `VATMIN` and `VATMAX` (R105). -/
def atKinds : List AtKind := [.i32, .u32, .f32]

/-- The operations of `GATOM` in the order of R108. -/
def atomOps : List AtomOp :=
  [.add, .and, .or, .xor, .min, .max, .minu, .maxu, .xchg, .cas, .fadd, .fmaxi16, .fmaxi32]

/-- The operations of `GRED` in the order of R108. -/
def redAtomOps : List RedAtomOp :=
  [.add, .and, .or, .xor, .min, .max, .minu, .maxu, .fadd, .fmin, .fmax, .fmaxi16, .fmaxi32]

/-- The opcodes marked L, whose literal is the next word of the clause (R85, R96, R103). -/
def hasLiteral (opc : BitVec 8) : Bool :=
  [0x02, 0x04, 0x06, 0x0A, 0x0B, 0x0C, 0x0F, 0x11, 0x12, 0x13, 0x67, 0x68, 0x69, 0x6A, 0x6B,
    0x6C].contains opc.toNat

/-- Opcode 0x10, the mask operations: the field rules of R96 and R101. -/
def maskOp (d a : BitVec 10) (sub : BitVec 4) : Except IllegalCause Instr :=
  let t := a.extractLsb' 0 5
  let td := d.extractLsb' 0 5
  mustZero
    ((if sub.toNat < 8 then a.extractLsb' 5 5 == 0 else a == 0) &&
      (sub.toNat < 3 || d.extractLsb' 5 5 == 0))
    (pick [.mpop d t, .mfirst d t, .mlast d t, .mnot td t, .mand td t, .mor td t, .mxor td t,
      .mandn td t, .mclr td, .mall td] sub.toNat)

/-- The fields of the layouts of R84, read by the opcode map (R96, R103, R106-R110). -/
def decodeMap (w lit : Word) : Except IllegalCause Instr :=
  let d := w.extractLsb' 14 10
  let a := w.extractLsb' 4 10
  let sub := w.extractLsb' 0 4
  let vd := w.extractLsb' 17 7
  let va := w.extractLsb' 10 7
  let vb := w.extractLsb' 3 7
  let vsub := w.extractLsb' 0 3
  let sb := w.extractLsb' 0 10
  let ra := w.extractLsb' 7 7
  let rsub := w.extractLsb' 3 4
  let rz := w.extractLsb' 0 3
  let u := w.getLsbD 13
  let cond := w.extractLsb' 10 3
  let tm := w.extractLsb' 5 5
  let z := w.extractLsb' 0 5
  match (w.extractLsb' 24 8).toNat with
  | 0x00 => mustZero (d == 0 && a == 0 && sub == 0) (.ok .nop)
  | 0x01 => mustZero (sub == 0) (.ok (.smov d a))
  | 0x02 => mustZero (a == 0 && sub == 0) (.ok (.slit d lit))
  | 0x03 => pick [.sadd d a, .ssub d a, .smul d a, .smulhs d a, .smulhu d a, .sand d a, .sor d a,
    .sxor d a, .sandn d a, .sshl d a, .sshr d a, .ssra d a, .smin d a, .smax d a, .sminu d a,
    .smaxu d a] sub.toNat
  | 0x04 => mustZero (a == 0) (pick [.saddLit d lit, .ssubLit d lit, .smulLit d lit, .smulhsLit d
    lit, .smulhuLit d lit, .sandLit d lit, .sorLit d lit, .sxorLit d lit, .sandnLit d lit, .sshlLit
    d lit, .sshrLit d lit, .ssraLit d lit, .sminLit d lit, .smaxLit d lit, .sminuLit d lit,
    .smaxuLit d lit] sub.toNat)
  | 0x05 => (pick conds sub.toNat).map (.scmp d a)
  | 0x06 => mustZero (a == 0) ((pick conds sub.toNat).map (.scmpLit d · lit))
  | 0x07 => pick [.snot d a, .sneg d a, .sabs d a, .sclz d a, .sctz d a, .spop d a, .sbrev d a,
    .ssext8 d a, .ssext16 d a, .szext8 d a, .szext16 d a] sub.toNat
  | 0x08 => pick [.sdiv d a, .sdivu d a, .srem d a, .sremu d a] sub.toNat
  | 0x09 => pick [.sbfxu d a, .sbfxs d a] sub.toNat
  | 0x0A => mustZero (sub == 0) (.ok (.sbfi d a lit))
  | 0x0B => (pick loadWidths sub.toNat).map (.sld d a · lit)
  | 0x0C => (pick widths sub.toNat).map (.sst d a · lit)
  | 0x0D => pick [.slr d a, .slrC d a] sub.toNat
  | 0x0E => mustZero (match sub with | 0 => d == 0 | _ => a == 0) (pick [.mode a, .modeg d]
    sub.toNat)
  | 0x0F => mustZero (d == 0 && a == 0 && sub == 0) (.ok (.modei lit))
  | 0x10 => maskOp d a sub
  | 0x11 => mustZero (!u && tm == 0 && z == 0) ((pick brConds cond.toNat).map (.br d · lit))
  | 0x12 => mustZero (d == 0 && z == 0) (pick [.brv u false tm lit, .brv u true tm lit] cond.toNat)
  | 0x13 => mustZero (d == 0 && !u && cond == 0 && tm == 0 && z == 0) (.ok (.call lit))
  | 0x14 => mustZero (d == 0 && !u && cond == 0 && tm == 0 && z == 0) (.ok .ret)
  | 0x15 => mustZero (d == 0 && !u && cond == 0 && tm == 0 && z == 0) (.ok .recon)
  | 0x16 => mustZero (d == 0 && !u && cond == 0 && tm == 0 && z == 0) (.ok .exit)
  | 0x17 => mustZero (!u && cond == 0 && tm == 0 && z == 0) (.ok (.trapu d))
  | 0x40 => pick [.vadd vd va vb, .vsub vd va vb, .vmul vd va vb, .vmulhs vd va vb, .vmulhu vd va
    vb, .vand vd va vb, .vor vd va vb, .vxor vd va vb] vsub.toNat
  | 0x41 => pick [.vandn vd va vb, .vshl vd va vb, .vshr vd va vb, .vsra vd va vb, .vmin vd va vb,
    .vmax vd va vb, .vminu vd va vb, .vmaxu vd va vb] vsub.toNat
  | 0x42 => pick [.vmad vd va vb] vsub.toNat
  | 0x43 => .ok (.vadds vd va sb)
  | 0x44 => .ok (.vsubs vd va sb)
  | 0x45 => .ok (.vmuls vd va sb)
  | 0x46 => .ok (.vands vd va sb)
  | 0x47 => .ok (.vshls vd va sb)
  | 0x48 => .ok (.vshrs vd va sb)
  | 0x49 => .ok (.vsras vd va sb)
  | 0x4A => .ok (.vmins vd va sb)
  | 0x4B => .ok (.vmaxs vd va sb)
  | 0x4C => .ok (.vfadds vd va sb)
  | 0x4D => .ok (.vfmuls vd va sb)
  | 0x4E => .ok (.vfmas vd va sb)
  | 0x4F => (pick conds (vd.extractLsb' 3 4).toNat).map (.vcmps · (vd.extractLsb' 0 3) va sb)
  | 0x50 => mustZero (vb == 0) (pick [.vnot vd va, .vneg vd va, .vabs vd va, .vclz vd va, .vpop vd
    va, .vbrev vd va, .vsext8 vd va, .vsext16 vd va] vsub.toNat)
  | 0x51 => mustZero (vd.extractLsb' 5 2 == 0) (.ok (.vcmpA vsub (vd.extractLsb' 0 5) va vb))
  | 0x52 => mustZero (vd.extractLsb' 5 2 == 0) (pick [.vcmpB false (vd.extractLsb' 0 5) va vb,
    .vcmpB true (vd.extractLsb' 0 5) va vb] vsub.toNat)
  | 0x53 => .ok (.vsel vd va vb vsub)
  | 0x54 => mustZero (vb == 0 && (vsub == 0 || va == 0)) (pick [.vmov vd va, .vlane vd] vsub.toNat)
  | 0x55 => mustZero (va == 0) (.ok (.vbcs vd sb))
  | 0x56 => mustZero (rsub == 0 && rz == 0) (.ok (.vget d ra))
  | 0x57 => mustZero (va == 0) (.ok (.vput vd sb))
  | 0x58 => pick [.vfadd vd va vb, .vfsub vd va vb, .vfmul vd va vb, .vfmin vd va vb, .vfmax vd va
    vb, .vfcpys vd va vb] vsub.toNat
  | 0x59 => pick [.vfma vd va vb, .vfms vd va vb, .vfnma vd va vb, .vfnms vd va vb] vsub.toNat
  | 0x5A => mustZero (vb == 0) (pick [.vfabs vd va, .vfneg vd va, .vfrint vd va, .vftrunc vd va,
    .vffloor vd va, .vfceil vd va, .vfclass vd va] vsub.toNat)
  | 0x5B => mustZero (vd.extractLsb' 5 2 == 0) ((pick fconds vsub.toNat).map (.vfcmp ·
    (vd.extractLsb' 0 5) va vb))
  | 0x5C => mustZero (vb == 0) (.ok (.vcvtLow vd va vsub))
  | 0x5D => mustZero (vb == 0) (.ok (.vcvtHigh vd va vsub))
  | 0x5E => pick [.vpack vd va vb] vsub.toNat
  | 0x5F => mustZero (vb == 0) (.ok (.vunpk vd va vsub))
  | 0x60 => pick [.vdot4i8 vd va vb, .vdot4u8 vd va vb, .vdot4f8a vd va vb, .vdot4f8b vd va vb,
    .vdot8i4 vd va vb, .vdot2f16 vd va vb, .vdot2bf16 vd va vb] vsub.toNat
  | 0x61 => pick [.vperm vd va vb] vsub.toNat
  | 0x62 => .ok (.vshx vd va sb)
  | 0x63 => .ok (.vshu vd va sb)
  | 0x64 => .ok (.vshd vd va sb)
  | 0x65 => mustZero (rz == 0) ((pick redOps rsub.toNat).map (.vred · d ra))
  | 0x66 => mustZero (vb == 0) ((pick scanOps (vsub.extractLsb' 1 2).toNat).map (.vscan ·
    (vsub.getLsbD 0) vd va))
  | 0x67 => mustZero (va == 0) (.ok (.vld vd sb lit))
  | 0x68 => mustZero (va == 0) (.ok (.vldh vd sb lit))
  | 0x69 => mustZero (va == 0) (.ok (.vldb vd sb lit))
  | 0x6A => mustZero (va == 0) (.ok (.vst vd sb lit))
  | 0x6B => mustZero (va == 0) (.ok (.vsth vd sb lit))
  | 0x6C => mustZero (va == 0) (.ok (.vstb vd sb lit))
  | 0x6D => mustZero (vb == 0) ((pick widths vsub.toNat).map (.vldc · vd va))
  | 0x6E => mustZero (vb == 0) ((pick widths vsub.toNat).map (.vstc · vd va))
  | 0x6F => pick [.vatadd false vd va vb, .vatadd true vd va vb] vsub.toNat
  | 0x70 => pick [.vatand false vd va vb, .vatand true vd va vb] vsub.toNat
  | 0x71 => pick [.vator false vd va vb, .vator true vd va vb] vsub.toNat
  | 0x72 => pick [.vatxor false vd va vb, .vatxor true vd va vb] vsub.toNat
  | 0x73 => (pick atKinds (vsub.extractLsb' 1 2).toNat).map (.vatmin · (vsub.getLsbD 0) vd va vb)
  | 0x74 => (pick atKinds (vsub.extractLsb' 1 2).toNat).map (.vatmax · (vsub.getLsbD 0) vd va vb)
  | 0x75 => if vsub == 1 then .ok (.vatxchg vd va vb) else .error .reservedSub
  | 0x76 => mustZero (vd == 0 && vb == 0 && vsub == 0) (.ok (.vspill va))
  | 0x77 => mustZero (va == 0 && vb == 0 && vsub == 0) (.ok (.vfill vd))
  | 0x78 => mustZero (d == 0 && a.extractLsb' 4 6 == 0 && sub == 0) (.ok (.bara (a.extractLsb' 0
    4)))
  | 0x79 => mustZero (d == 0 && a.extractLsb' 4 6 == 0 && sub == 0) (.ok (.barw (a.extractLsb' 0
    4)))
  | 0x7A => mustZero (d == 0 && a.extractLsb' 4 6 == 0 && sub == 0) (.ok (.bar (a.extractLsb' 0 4)))
  | 0x7B => mustZero (a.extractLsb' 4 6 == 0 && sub == 0) (.ok (.barcfg (a.extractLsb' 0 4) d))
  | 0x90 => mustZero (vb == 0) (pick [.lcvtL vd va, .lcvtF vd va] vsub.toNat)
  | 0x91 => mustZero (vb == 0) (pick [.lexp vd va] vsub.toNat)
  | 0x92 => pick [.lmul vd va vb] vsub.toNat
  | 0x93 => pick [.ldiv vd va vb] vsub.toNat
  | 0x94 => mustZero (vb == 0) (pick [.lsqrt vd va] vsub.toNat)
  | 0x95 => mustZero (vb == 0) (pick [.lrsq vd va] vsub.toNat)
  | 0x96 => mustZero (vb == 0) (pick [.lrcp vd va] vsub.toNat)
  | 0x97 => pick [.lpow vd va vb] vsub.toNat
  | 0x98 => pick [.ladd vd va vb] vsub.toNat
  | 0x99 => pick [.lsub vd va vb] vsub.toNat
  | 0x9A => mustZero (vb == 0) (pick [.lfix vd va] vsub.toNat)
  | 0x9B => mustZero (vb == 0) (pick [.lflt vd va] vsub.toNat)
  | 0xA0 => pick [.cpy d a] sub.toNat
  | 0xA1 => pick [.cpy2 d a] sub.toNat
  | 0xA2 => pick [.gath d a] sub.toNat
  | 0xA3 => pick [.scat d a] sub.toNat
  | 0xA4 => pick [.cpsch d a] sub.toNat
  | 0xA5 => mustZero (a == 0) (pick [.cpstg d] sub.toNat)
  | 0xA6 => pick [.cpcur d a] sub.toNat
  | 0xB0 => pick [.mwld d a] sub.toNat
  | 0xB1 => pick [.mtbl d a] sub.toNat
  | 0xB2 => pick [.mloop d a] sub.toNat
  | 0xB3 => pick [.mrd d a] sub.toNat
  | 0xB4 => pick [.mst d a] sub.toNat
  | 0xB5 => pick [.mclrMatrix d a] sub.toNat
  | 0xB6 => pick [.mstat d a] sub.toNat
  | 0xC0 => pick [.task d a] sub.toNat
  | 0xC1 => pick [.alloc d a] sub.toNat
  | 0xC2 => pick [.free d a] sub.toNat
  | 0xC3 => pick [.vgrow d a] sub.toNat
  | 0xC4 => pick [.vshrk d a] sub.toNat
  | 0xC5 => mustZero (d == 0 && a == 0) (pick [.root] sub.toNat)
  | 0xC6 => mustZero (d == 0 && a == 0) (pick [.split] sub.toNat)
  | 0xC7 => mustZero (d == 0 && a.extractLsb' 2 8 == 0) (pick [.kbar (a.extractLsb' 0 2)] sub.toNat)
  | 0xC8 => pick [.send d a] sub.toNat
  | 0xC9 => pick [.recv d a] sub.toNat
  | 0xCA => mustZero (d == 0) (pick [.yield a] sub.toNat)
  | 0xCB => pick [.portcfg d a] sub.toNat
  | 0xCC => pick [.patcfg d a] sub.toNat
  | 0xCD => pick [.patset d a] sub.toNat
  | 0xD0 => pick [.phreg d a] sub.toNat
  | 0xD1 => pick [.phdrop d a] sub.toNat
  | 0xD2 => pick [.phsig d a] sub.toNat
  | 0xD3 => pick [.phsigb d a] sub.toNat
  | 0xD4 => pick [.phany d a] sub.toNat
  | 0xD5 => pick [.phanyb d a] sub.toNat
  | 0xD6 => pick [.phwait d a] sub.toNat
  | 0xD7 => pick [.phstat d a] sub.toNat
  | 0xD8 => (pick atomOps sub.toNat).map fun o => if d == 0 then .gatomOrdered o a else .gatom o d a
  | 0xD9 => mustZero (d == 0) ((pick redAtomOps sub.toNat).map (.gred · a))
  | 0xDA => pick [.mcst d a] sub.toNat
  | 0xDB => pick [.coll d a] sub.toNat
  | 0xDC => pick [.gsync d a] sub.toNat
  | 0xE0 => pick [.rdsr d a] sub.toNat
  | 0xE1 => pick [.wrsr d a] sub.toNat
  | 0xE2 => mustZero (d == 0 && a == 0) (pick [.eret] sub.toNat)
  | 0xE3 => mustZero (d == 0) (pick [.tlbinv a] sub.toNat)
  | 0xE4 => pick [.phalloc d a] sub.toNat
  | 0xE5 => pick [.phfree d a] sub.toNat
  | 0xE6 => pick [.treereq d a] sub.toNat
  | 0xE7 => pick [.ctxsav d a] sub.toNat
  | 0xE8 => pick [.ctxld d a] sub.toNat
  | 0xE9 => mustZero (d == 0 && a == 0) (pick [.wfi] sub.toNat)
  | 0xEA => mustZero (d == 0 && a == 0) (pick [.haltc] sub.toNat)
  | 0xEB => mustZero (d == 0 && a == 0) (pick [.tret] sub.toNat)
  | 0xEC => mustZero (d == 0 && a == 0) (pick [.tesc] sub.toNat)
  | 0xF0 => mustZero (d == 0) (pick [.bkpt a] sub.toNat)
  | _ => .error .unassignedOpcode

/-- The instruction of a slot word and of its literal, or the lowest of the causes 1-4 that the two
words alone meet (R82). `lit` is none where the clause has no word after this one. (DEDUCED, log 35). -/
def decode (w : Word) (lit : Option Word) : Except IllegalCause Instr :=
  match decodeMap w (lit.getD 0) with
  | .error c => .error c
  | .ok i =>
    if Machine.reservedValue i then .error .reservedSub
    else if Machine.fieldNotZero i then .error .mustBeZero
    else if hasLiteral (w.extractLsb' 24 8) && lit.isNone then .error .literalBeyondLen
    else .ok i

/-! ### Encoding -/

/-- Format VV (R84). -/
def vv (opc : BitVec 8) (d a b : VReg) (sub : BitVec 3) : Word := opc ++ d ++ a ++ b ++ sub

/-- Format VS (R84). -/
def vs (opc : BitVec 8) (d a : VReg) (s : SReg) : Word := opc ++ d ++ a ++ s

/-- Format SS (R84). -/
def ss (opc : BitVec 8) (d a : SReg) (sub : BitVec 4) : Word := opc ++ d ++ a ++ sub

/-- Format VR (R84). -/
def vr (opc : BitVec 8) (d : SReg) (a : VReg) (sub : BitVec 4) : Word := opc ++ d ++ a ++ sub ++ 0#3

/-- Format BR (R84). -/
def br (opc : BitVec 8) (c : SReg) (u : Bool) (cond : BitVec 3) (t : TReg) : Word :=
  opc ++ c ++ BitVec.ofBool u ++ cond ++ t ++ 0#5

/-- A 5-bit number in a 10-bit field whose upper bits are 0. -/
def wide5 (t : BitVec 5) : BitVec 10 := 0#5 ++ t

/-- A 4-bit number in a 10-bit field whose upper bits are 0. -/
def wide4 (t : BitVec 4) : BitVec 10 := 0#6 ++ t

/-- A 2-bit number in a 10-bit field whose upper bits are 0. -/
def wide2 (t : BitVec 2) : BitVec 10 := 0#8 ++ t

/-- A 5-bit number in a 7-bit field whose upper bits are 0. -/
def wide7 (t : BitVec 5) : BitVec 7 := 0#2 ++ t

/-- A bit in a 3-bit field whose upper bits are 0. -/
def wide3 (t : BitVec 1) : BitVec 3 := 0#2 ++ t

/-- The words of an instruction: its slot word and its literal. An event has no words. -/
def encode : Instr → List Word
  | .nop => [ss 0x00 0 0 0]
  | .smov d a => [ss 0x01 d a 0]
  | .slit d n => [ss 0x02 d 0 0, n]
  | .sadd d a => [ss 0x03 d a 0]
  | .ssub d a => [ss 0x03 d a 1]
  | .smul d a => [ss 0x03 d a 2]
  | .smulhs d a => [ss 0x03 d a 3]
  | .smulhu d a => [ss 0x03 d a 4]
  | .sand d a => [ss 0x03 d a 5]
  | .sor d a => [ss 0x03 d a 6]
  | .sxor d a => [ss 0x03 d a 7]
  | .sandn d a => [ss 0x03 d a 8]
  | .sshl d a => [ss 0x03 d a 9]
  | .sshr d a => [ss 0x03 d a 10]
  | .ssra d a => [ss 0x03 d a 11]
  | .smin d a => [ss 0x03 d a 12]
  | .smax d a => [ss 0x03 d a 13]
  | .sminu d a => [ss 0x03 d a 14]
  | .smaxu d a => [ss 0x03 d a 15]
  | .saddLit d n => [ss 0x04 d 0 0, n]
  | .ssubLit d n => [ss 0x04 d 0 1, n]
  | .smulLit d n => [ss 0x04 d 0 2, n]
  | .smulhsLit d n => [ss 0x04 d 0 3, n]
  | .smulhuLit d n => [ss 0x04 d 0 4, n]
  | .sandLit d n => [ss 0x04 d 0 5, n]
  | .sorLit d n => [ss 0x04 d 0 6, n]
  | .sxorLit d n => [ss 0x04 d 0 7, n]
  | .sandnLit d n => [ss 0x04 d 0 8, n]
  | .sshlLit d n => [ss 0x04 d 0 9, n]
  | .sshrLit d n => [ss 0x04 d 0 10, n]
  | .ssraLit d n => [ss 0x04 d 0 11, n]
  | .sminLit d n => [ss 0x04 d 0 12, n]
  | .smaxLit d n => [ss 0x04 d 0 13, n]
  | .sminuLit d n => [ss 0x04 d 0 14, n]
  | .smaxuLit d n => [ss 0x04 d 0 15, n]
  | .scmp d a c => [ss 0x05 d a (BitVec.ofNat 4 c.ctorIdx)]
  | .scmpLit d c n => [ss 0x06 d 0 (BitVec.ofNat 4 c.ctorIdx), n]
  | .snot d a => [ss 0x07 d a 0]
  | .sneg d a => [ss 0x07 d a 1]
  | .sabs d a => [ss 0x07 d a 2]
  | .sclz d a => [ss 0x07 d a 3]
  | .sctz d a => [ss 0x07 d a 4]
  | .spop d a => [ss 0x07 d a 5]
  | .sbrev d a => [ss 0x07 d a 6]
  | .ssext8 d a => [ss 0x07 d a 7]
  | .ssext16 d a => [ss 0x07 d a 8]
  | .szext8 d a => [ss 0x07 d a 9]
  | .szext16 d a => [ss 0x07 d a 10]
  | .sdiv d a => [ss 0x08 d a 0]
  | .sdivu d a => [ss 0x08 d a 1]
  | .srem d a => [ss 0x08 d a 2]
  | .sremu d a => [ss 0x08 d a 3]
  | .sbfxu d a => [ss 0x09 d a 0]
  | .sbfxs d a => [ss 0x09 d a 1]
  | .sbfi d a n => [ss 0x0A d a 0, n]
  | .sld d a c n => [ss 0x0B d a (BitVec.ofNat 4 c.ctorIdx), n]
  | .sst d a c n => [ss 0x0C d a (BitVec.ofNat 4 c.ctorIdx), n]
  | .slr d n => [ss 0x0D d n 0]
  | .slrC d n => [ss 0x0D d n 1]
  | .mode a => [ss 0x0E 0 a 0]
  | .modeg d => [ss 0x0E d 0 1]
  | .modei n => [ss 0x0F 0 0 0, n]
  | .mpop d t => [ss 0x10 d (wide5 t) 0]
  | .mfirst d t => [ss 0x10 d (wide5 t) 1]
  | .mlast d t => [ss 0x10 d (wide5 t) 2]
  | .mnot d t => [ss 0x10 (wide5 d) (wide5 t) 3]
  | .mand d t => [ss 0x10 (wide5 d) (wide5 t) 4]
  | .mor d t => [ss 0x10 (wide5 d) (wide5 t) 5]
  | .mxor d t => [ss 0x10 (wide5 d) (wide5 t) 6]
  | .mandn d t => [ss 0x10 (wide5 d) (wide5 t) 7]
  | .mclr d => [ss 0x10 (wide5 d) 0 8]
  | .mall d => [ss 0x10 (wide5 d) 0 9]
  | .br c k n => [br 0x11 c false (BitVec.ofNat 3 k.ctorIdx) 0, n]
  | .brv u f t n => [br 0x12 0 u (cond f 1 0) t, n]
  | .call n => [br 0x13 0 false 0 0, n]
  | .ret => [br 0x14 0 false 0 0]
  | .recon => [br 0x15 0 false 0 0]
  | .exit => [br 0x16 0 false 0 0]
  | .trapu k => [br 0x17 k false 0 0]
  | .vadd d a b => [vv 0x40 d a b 0]
  | .vsub d a b => [vv 0x40 d a b 1]
  | .vmul d a b => [vv 0x40 d a b 2]
  | .vmulhs d a b => [vv 0x40 d a b 3]
  | .vmulhu d a b => [vv 0x40 d a b 4]
  | .vand d a b => [vv 0x40 d a b 5]
  | .vor d a b => [vv 0x40 d a b 6]
  | .vxor d a b => [vv 0x40 d a b 7]
  | .vandn d a b => [vv 0x41 d a b 0]
  | .vshl d a b => [vv 0x41 d a b 1]
  | .vshr d a b => [vv 0x41 d a b 2]
  | .vsra d a b => [vv 0x41 d a b 3]
  | .vmin d a b => [vv 0x41 d a b 4]
  | .vmax d a b => [vv 0x41 d a b 5]
  | .vminu d a b => [vv 0x41 d a b 6]
  | .vmaxu d a b => [vv 0x41 d a b 7]
  | .vmad d a b => [vv 0x42 d a b 0]
  | .vadds d a s => [vs 0x43 d a s]
  | .vsubs d a s => [vs 0x44 d a s]
  | .vmuls d a s => [vs 0x45 d a s]
  | .vands d a s => [vs 0x46 d a s]
  | .vshls d a s => [vs 0x47 d a s]
  | .vshrs d a s => [vs 0x48 d a s]
  | .vsras d a s => [vs 0x49 d a s]
  | .vmins d a s => [vs 0x4A d a s]
  | .vmaxs d a s => [vs 0x4B d a s]
  | .vfadds d a s => [vs 0x4C d a s]
  | .vfmuls d a s => [vs 0x4D d a s]
  | .vfmas d a s => [vs 0x4E d a s]
  | .vcmps c t a s => [vs 0x4F (BitVec.ofNat 4 c.ctorIdx ++ t) a s]
  | .vnot d a => [vv 0x50 d a 0 0]
  | .vneg d a => [vv 0x50 d a 0 1]
  | .vabs d a => [vv 0x50 d a 0 2]
  | .vclz d a => [vv 0x50 d a 0 3]
  | .vpop d a => [vv 0x50 d a 0 4]
  | .vbrev d a => [vv 0x50 d a 0 5]
  | .vsext8 d a => [vv 0x50 d a 0 6]
  | .vsext16 d a => [vv 0x50 d a 0 7]
  | .vcmpA c t a b => [vv 0x51 (wide7 t) a b c]
  | .vcmpB g t a b => [vv 0x52 (wide7 t) a b (cond g 1 0)]
  | .vsel d a b t => [vv 0x53 d a b t]
  | .vmov d a => [vv 0x54 d a 0 0]
  | .vlane d => [vv 0x54 d 0 0 1]
  | .vbcs d s => [vs 0x55 d 0 s]
  | .vget d a => [vr 0x56 d a 0]
  | .vput d s => [vs 0x57 d 0 s]
  | .vfadd d a b => [vv 0x58 d a b 0]
  | .vfsub d a b => [vv 0x58 d a b 1]
  | .vfmul d a b => [vv 0x58 d a b 2]
  | .vfmin d a b => [vv 0x58 d a b 3]
  | .vfmax d a b => [vv 0x58 d a b 4]
  | .vfcpys d a b => [vv 0x58 d a b 5]
  | .vfma d a b => [vv 0x59 d a b 0]
  | .vfms d a b => [vv 0x59 d a b 1]
  | .vfnma d a b => [vv 0x59 d a b 2]
  | .vfnms d a b => [vv 0x59 d a b 3]
  | .vfabs d a => [vv 0x5A d a 0 0]
  | .vfneg d a => [vv 0x5A d a 0 1]
  | .vfrint d a => [vv 0x5A d a 0 2]
  | .vftrunc d a => [vv 0x5A d a 0 3]
  | .vffloor d a => [vv 0x5A d a 0 4]
  | .vfceil d a => [vv 0x5A d a 0 5]
  | .vfclass d a => [vv 0x5A d a 0 6]
  | .vfcmp c t a b => [vv 0x5B (wide7 t) a b (BitVec.ofNat 3 c.ctorIdx)]
  | .vcvtLow d a k => [vv 0x5C d a 0 k]
  | .vcvtHigh d a k => [vv 0x5D d a 0 k]
  | .vpack d a b => [vv 0x5E d a b 0]
  | .vunpk d a k => [vv 0x5F d a 0 k]
  | .vdot4i8 d a b => [vv 0x60 d a b 0]
  | .vdot4u8 d a b => [vv 0x60 d a b 1]
  | .vdot4f8a d a b => [vv 0x60 d a b 2]
  | .vdot4f8b d a b => [vv 0x60 d a b 3]
  | .vdot8i4 d a b => [vv 0x60 d a b 4]
  | .vdot2f16 d a b => [vv 0x60 d a b 5]
  | .vdot2bf16 d a b => [vv 0x60 d a b 6]
  | .vperm d a b => [vv 0x61 d a b 0]
  | .vshx d a s => [vs 0x62 d a s]
  | .vshu d a s => [vs 0x63 d a s]
  | .vshd d a s => [vs 0x64 d a s]
  | .vred o d a => [vr 0x65 d a (BitVec.ofNat 4 o.ctorIdx)]
  | .vscan o x d a => [vv 0x66 d a 0 (BitVec.ofNat 2 o.ctorIdx ++ BitVec.ofBool x)]
  | .vld d s n => [vs 0x67 d 0 s, n]
  | .vldh d s n => [vs 0x68 d 0 s, n]
  | .vldb d s n => [vs 0x69 d 0 s, n]
  | .vst d s n => [vs 0x6A d 0 s, n]
  | .vsth d s n => [vs 0x6B d 0 s, n]
  | .vstb d s n => [vs 0x6C d 0 s, n]
  | .vldc c d a => [vv 0x6D d a 0 (BitVec.ofNat 3 c.ctorIdx)]
  | .vstc c d a => [vv 0x6E d a 0 (BitVec.ofNat 3 c.ctorIdx)]
  | .vatadd r d a b => [vv 0x6F d a b (wide3 (BitVec.ofBool r))]
  | .vatand r d a b => [vv 0x70 d a b (wide3 (BitVec.ofBool r))]
  | .vator r d a b => [vv 0x71 d a b (wide3 (BitVec.ofBool r))]
  | .vatxor r d a b => [vv 0x72 d a b (wide3 (BitVec.ofBool r))]
  | .vatmin k r d a b => [vv 0x73 d a b (BitVec.ofNat 2 k.ctorIdx ++ BitVec.ofBool r)]
  | .vatmax k r d a b => [vv 0x74 d a b (BitVec.ofNat 2 k.ctorIdx ++ BitVec.ofBool r)]
  | .vatxchg d a b => [vv 0x75 d a b 1]
  | .vspill a => [vv 0x76 0 a 0 0]
  | .vfill d => [vv 0x77 d 0 0 0]
  | .bara b => [ss 0x78 0 (wide4 b) 0]
  | .barw b => [ss 0x79 0 (wide4 b) 0]
  | .bar b => [ss 0x7A 0 (wide4 b) 0]
  | .barcfg b d => [ss 0x7B d (wide4 b) 0]
  | .lcvtL d a => [vv 0x90 d a 0 0]
  | .lcvtF d a => [vv 0x90 d a 0 1]
  | .lexp d a => [vv 0x91 d a 0 0]
  | .lmul d a b => [vv 0x92 d a b 0]
  | .ldiv d a b => [vv 0x93 d a b 0]
  | .lsqrt d a => [vv 0x94 d a 0 0]
  | .lrsq d a => [vv 0x95 d a 0 0]
  | .lrcp d a => [vv 0x96 d a 0 0]
  | .lpow d a b => [vv 0x97 d a b 0]
  | .ladd d a b => [vv 0x98 d a b 0]
  | .lsub d a b => [vv 0x99 d a b 0]
  | .lfix d a => [vv 0x9A d a 0 0]
  | .lflt d a => [vv 0x9B d a 0 0]
  | .cpy d a => [ss 0xA0 d a 0]
  | .cpy2 d a => [ss 0xA1 d a 0]
  | .gath d a => [ss 0xA2 d a 0]
  | .scat d a => [ss 0xA3 d a 0]
  | .cpsch d a => [ss 0xA4 d a 0]
  | .cpstg d => [ss 0xA5 d 0 0]
  | .cpcur d a => [ss 0xA6 d a 0]
  | .mwld d a => [ss 0xB0 d a 0]
  | .mtbl d a => [ss 0xB1 d a 0]
  | .mloop d a => [ss 0xB2 d a 0]
  | .mrd d a => [ss 0xB3 d a 0]
  | .mst d a => [ss 0xB4 d a 0]
  | .mclrMatrix d a => [ss 0xB5 d a 0]
  | .mstat d a => [ss 0xB6 d a 0]
  | .task d a => [ss 0xC0 d a 0]
  | .alloc d a => [ss 0xC1 d a 0]
  | .free d a => [ss 0xC2 d a 0]
  | .vgrow d a => [ss 0xC3 d a 0]
  | .vshrk d a => [ss 0xC4 d a 0]
  | .root => [ss 0xC5 0 0 0]
  | .split => [ss 0xC6 0 0 0]
  | .kbar k => [ss 0xC7 0 (wide2 k) 0]
  | .send d a => [ss 0xC8 d a 0]
  | .recv d a => [ss 0xC9 d a 0]
  | .yield a => [ss 0xCA 0 a 0]
  | .portcfg d a => [ss 0xCB d a 0]
  | .patcfg d a => [ss 0xCC d a 0]
  | .patset d a => [ss 0xCD d a 0]
  | .phreg d a => [ss 0xD0 d a 0]
  | .phdrop d a => [ss 0xD1 d a 0]
  | .phsig d a => [ss 0xD2 d a 0]
  | .phsigb d a => [ss 0xD3 d a 0]
  | .phany d a => [ss 0xD4 d a 0]
  | .phanyb d a => [ss 0xD5 d a 0]
  | .phwait d a => [ss 0xD6 d a 0]
  | .phstat d a => [ss 0xD7 d a 0]
  | .gatom o d a => [ss 0xD8 d a (BitVec.ofNat 4 o.ctorIdx)]
  | .gatomOrdered o a => [ss 0xD8 0 a (BitVec.ofNat 4 o.ctorIdx)]
  | .gred o a => [ss 0xD9 0 a (BitVec.ofNat 4 o.ctorIdx)]
  | .mcst d a => [ss 0xDA d a 0]
  | .coll d a => [ss 0xDB d a 0]
  | .gsync d a => [ss 0xDC d a 0]
  | .rdsr d a => [ss 0xE0 d a 0]
  | .wrsr d a => [ss 0xE1 d a 0]
  | .eret => [ss 0xE2 0 0 0]
  | .tlbinv a => [ss 0xE3 0 a 0]
  | .phalloc d a => [ss 0xE4 d a 0]
  | .phfree d a => [ss 0xE5 d a 0]
  | .treereq d a => [ss 0xE6 d a 0]
  | .ctxsav d a => [ss 0xE7 d a 0]
  | .ctxld d a => [ss 0xE8 d a 0]
  | .wfi => [ss 0xE9 0 0 0]
  | .haltc => [ss 0xEA 0 0 0]
  | .tret => [ss 0xEB 0 0 0]
  | .tesc => [ss 0xEC 0 0 0]
  | .bkpt k => [ss 0xF0 0 k 0]
  | .divisionComplete | .clauseStart | .logOperationComplete | .copyCommandComplete | .copyFault |
    .matrixCommandComplete | .unrootedEventTakesEffect | .taskPlacement | .continuationResume |
    .commit | .gatheredLaunchStart | .hostSubmissionEntry | .hostLaunchRequest | .srtailDoorbell |
    .svdbDoorbell | .fnmapWrite | .supervisorEntry | .evtRead | .tqactResume | .tqactTerminate |
    .tqactResumeAtTqrpc | .cfqactReplay | .cfqactDecline | .preempt | .drainComplete |
    .drainDeadlineExpiry | .contextSpaceWrite | .profilingBufferMove | .profileSample |
    .dqactResume | .dqactStep | .dqactTerminate | .dqactHold | .haltreq | .dwdataAccess |
    .debugWindowAccess | .measurementExtend | .attestationQuote | .attestationQuoteComplete |
    .unlockVerify | .unlockVerifyComplete | .unlockCommit | .kwipe | .checkpointSave |
    .checkpointRestore | .checkpointComplete | .packageReset | .recoveryImageSubmit | .hostLinkDown
    | .linkDown | .uncorrectableError | .supplyDroop | .lifetimeSecondTick |
    .lifetimeCounterPersist | .registerWrite | .stallReasonCount | .sweliLinkRetrain |
    .hostLinkRetrain | .correctedEccEvent | .managementControllerCap | .receiveTableWrite |
    .dsackWrite | .careaWrite | .replyEntryVisible => []

/-- The instruction that a slot word of `nbits` = 32 bits encodes, its literal, where the opcode takes
one, being a word of zeros; for 64 bits the literal is the second word. (DEDUCED, log 35). -/
def decodeTableWord (nbits w : Nat) : Option Instr :=
  match decode (BitVec.ofNat 32 w) (some (BitVec.ofNat 32 (if nbits ≤ 32 then 0 else w / 2 ^ 32))) with
  | .ok i => some i
  | .error _ => none

end Sys2Proof
end

