-- ==== Sys2Proof/Config.lean ====
section
/-!
DEFINITION. What the spec leaves to the part, to manufacture, to the outside world or open: values nothing
in the model constrains (each a constant without a body), and the figures that R6, R15 and R17 fix. Each is
named in a row of notes/assumptions.
-/

namespace Sys2Proof

/-- NONCE as drawn for the n-th time (R462). (DESIGN CHOICE, log 10). -/
opaque Config.nonce : Nat → Word

/-- The device identity, a fuse (R462). (DESIGN CHOICE, log 10). -/
opaque Config.devid : BitVec 64

/-- Which of the states that can be fused the part has. (DESIGN CHOICE, log 10). -/
opaque Config.fusedCode : Fin 4

/-- The fused lifecycle state (R466): BLANK, FACTORY, FIELD or RETIRED. (DESIGN CHOICE, log 10). -/
def Config.fusedState : BitVec 3 :=
  if Config.fusedCode = 0 then 0 else if Config.fusedCode = 1 then 1 else if Config.fusedCode = 2 then 2 else 4

/-- The svn fuses blown in manufacture and service (R461). (DESIGN CHOICE, log 10). -/
opaque Config.fwsvn : BitVec 6

/-- The peer number (R390) and whether the package is the pod's fabric manager (R407 FMEN).
(DESIGN CHOICE, log 10). -/
opaque Config.peer : BitVec 9
opaque Config.fabricManager : Bool

/-- The number by which a RACE record names the mode register or another shared item of a group: kind, item
(R419 gives none). (DESIGN CHOICE, log 22). -/
opaque Config.sharedItem : Nat → Nat → Word

/-- The cycles that a group issues no slot for a reason, counted at a given step (R190). (DESIGN CHOICE, log 11). -/
opaque Config.stallCycles : Nat → Nat

/-- The reason that a group's split counts while physical timing alone keeps it from issuing (R190), at a given step.
(DESIGN CHOICE, log 11). -/
opaque Config.idleReason : Nat → Nat

/-- The status a `SEND` returns when its message waits for another domain's commit (R473), at a given step.
(DEDUCED, log 47). -/
opaque Config.lateStatus : Nat → Word

/-- The status that `PHDROP` of a party that is not registered returns (R367 gives none): phaser, kind.
(DESIGN CHOICE, log 75). -/
opaque Config.dropStatus : Nat → Nat → Word

/-- The phase, payload and rank (0, 1, 2) of a waiter whose phaser is freed before any phase has completed (R370 gives
none), by phaser. (DESIGN CHOICE, log 75). -/
opaque Config.noResult : Nat → Nat → Word

/-- The die cycle counter and the average power when they are read at a given step (R451, R471).
(DESIGN CHOICE, log 11). -/
opaque Config.cycles : Nat → BitVec 64
opaque Config.power : Nat → Word

/-- A byte of package memory after a failed restore: which restore, which address (R470). (DESIGN CHOICE, log 6). -/
opaque Config.lostByte : Nat → Nat → Byte

/-- The key in a slot, for the data (0) and for the tweak (1): by the slot's key number (R427). The keys are not known.
(DESIGN CHOICE, log 14). -/
opaque Config.memoryKey : Nat → Nat → BitVec 256

/-- Verification of an HSS signature over a message by the firmware key and by the debug-authority key
(R459, R467), and the identity key's signature made with a counter value (R463). (DESIGN CHOICE, log 13). -/
opaque Config.firmwareVerifies : List Byte → List Byte → Bool
opaque Config.authorityVerifies : List Byte → List Byte → Bool
opaque Config.identitySignature : Nat → List Byte → List Byte

/-- The counter value of the identity key's first signature in this run (R463). (DESIGN CHOICE, log 13). -/
opaque Config.signatureStart : Nat

/-- The one-time keys of an HSS key with two levels of height 10 (R459, R463). -/
def Config.signatureKeys : Nat := 2 ^ 20

/-- The fields of the 64-byte firmware header, whose layout R459 does not give: fmt, svn, payload length,
payload digest, whether it asks to raise FWSVN, whether it asks to be written to flash. -/
structure FirmwareHeader where
  fmt : Nat
  svn : Nat
  length : Nat
  digest : List Byte
  raises : Bool
  toFlash : Bool
  deriving DecidableEq, Repr, Inhabited

/-- The reading of a firmware header. (DESIGN CHOICE, log 12). -/
opaque Config.firmwareHeader : List Byte → FirmwareHeader

/-- An image carries the factory's signature (R466: the only kind that boots a BLANK part).
(DESIGN CHOICE, log 12). -/
opaque Config.factorySigned : List Byte → Bool

/-- Where a firmware payload holds the supervisor image: byte offset and length (R458). (DESIGN CHOICE, log 12). -/
opaque Config.supervisorPart : List Byte → Nat × Nat

/-- The configuration digest that extends ms1 (R458). (DESIGN CHOICE, log 12). -/
opaque Config.configurationDigest : List Byte

/-- The areas of a context record, which R432 leaves to the hardware: 4 KiB pages of the first six areas of the n-th
image, pages of the last one by the number of saved teams, and the bytes of an area in a record written at a step.
(DESIGN CHOICE, log 98). -/
opaque Config.recordPages : Nat → Nat → Nat
opaque Config.backPages : Nat → Nat
opaque Config.recordBytes : Nat → Nat → List Byte

/-- A switch of a tree over these members, with the root first, in whose slots all the pod's trees lie, when there is one
(R397), and the peers of the pod. (DEDUCED, log 80). -/
opaque Config.fullSwitch : Nat → List Nat → Option (BitVec 16)
opaque Config.inPod : Nat → Bool

/-- The launch number in the reply to a refused launch request, by the step that answers it (R349 gives none).
(DESIGN CHOICE, log 70). -/
opaque Config.refusedLaunch : Nat → BitVec 32

/-- Words 0-7 of a node's clock-service slot (R361, R376): level, slot, word. (DEDUCED, log 78). -/
opaque Config.clockSlot : Nat → Nat → Nat → Word

/-- The other packages of the pod: the response of a peer to a multicast line sent at a given step (0 positive, else the
cause, R395); for the n-th collective of a tree, the quantum of the latest of their contributions, whether their blocks differ,
whether a node of the tree meets an abort before the result, and a peer's contribution (R400, R401).
(DESIGN CHOICE, log 79). -/
opaque Config.memberResponse : Nat → Nat → Nat
opaque Config.peerQuantum : Nat → Nat → Nat
opaque Config.peerMismatch : Nat → Nat → Bool
opaque Config.nodeAborts : Nat → Nat → Nat → Bool
opaque Config.peerContribution : Nat → Nat → Nat → List Byte

/-- The shape of a tree over its members (R152, R397), as nodes each after its children: the member whose contribution is
local to the node, and how many of the results still open before it are its children, in ascending port order. Whether a
Sweli port of this package carries a link of a tree (R401). (DESIGN CHOICE, log 79). -/
opaque Config.treeNodes : Nat → List Nat → List (Option Nat × Nat)
opaque Config.treeLink : Nat → Nat → Bool

/-- Logical cores of a cluster (R15). -/
def Config.coresPerCluster : Nat := 24

/-- The feature mask of every enabled core (R17, shipping parts). (DEDUCED, log 59). -/
def Config.features : Nat := 0x001F

end Sys2Proof
end

