-- ==== Sys2Proof/Machine/Sparse.lean ====
section
/-!
DEFINITION. Sparse maps from numbers to values: a list of (key, value) pairs with strictly rising keys, in
which no value equals what an unlisted key reads as. Memory, scratchpads and register files are held so
(equal contents are equal lists). `Table` is the same list used for units that exist or do not.
-/

namespace Sys2Proof.Machine

/-! ### Little-endian numbers (00_scope R7) -/

/-- The little-endian bytes of a number: `n` of them. -/
def leBytes : Nat → Nat → List Byte
  | 0, _ => []
  | n + 1, w => BitVec.ofNat 8 w :: leBytes n (w / 256)

/-- The number a little-endian list of bytes holds. -/
def leNat : List Byte → Nat
  | [] => 0
  | b :: bs => b.toNat + 256 * leNat bs

/-- A sparse map. What an unlisted key reads as is said where the map is read. -/
abbrev Sparse (α : Type) := List (Nat × α)

/-- The value at key `k`; `d` says what an unlisted key reads as. -/
def Sparse.getF {α : Type} (d : Nat → α) : Sparse α → Nat → α
  | [], k => d k
  | (j, v) :: m, k => if j = k then v else Sparse.getF d m k

/-- The value at key `k`, where every unlisted key reads as `d`. -/
def Sparse.get {α : Type} (d : α) (m : Sparse α) (k : Nat) : α := Sparse.getF (fun _ => d) m k

/-- The entries for consecutive keys from `k`, without those that an unlisted key reads as. -/
def Sparse.entries {α : Type} [DecidableEq α] (d : Nat → α) (k : Nat) : List α → Sparse α
  | [] => []
  | v :: vs =>
    if v = d k then Sparse.entries d (k + 1) vs else (k, v) :: Sparse.entries d (k + 1) vs

/-- Writes consecutive values from key `k`, keeping the canonical form. -/
def Sparse.writeF {α : Type} [DecidableEq α] (d : Nat → α) (m : Sparse α) (k : Nat) (vs : List α) :
    Sparse α :=
  m.filter (fun e => decide (e.1 < k)) ++
    (Sparse.entries d k vs ++ m.filter (fun e => decide (k + vs.length ≤ e.1)))

/-- Writes consecutive values where every unlisted key reads as `d`. -/
def Sparse.write {α : Type} [DecidableEq α] (d : α) (m : Sparse α) (k : Nat) (vs : List α) :
    Sparse α := Sparse.writeF (fun _ => d) m k vs

/-- Writes one value at key `k`: an entry equal to `d` is removed. -/
def Sparse.set {α : Type} [DecidableEq α] (d : α) (m : Sparse α) (k : Nat) (v : α) : Sparse α :=
  Sparse.write d m k [v]

/-- The values at `n` consecutive keys from `k`. -/
def Sparse.readF {α : Type} (d : Nat → α) (m : Sparse α) (k n : Nat) : List α :=
  let w := m.filter (fun e => decide (k ≤ e.1) && decide (e.1 < k + n))
  (List.range n).map (fun i => Sparse.getF d w (k + i))

/-- The values at `n` consecutive keys where every unlisted key reads as `d`. -/
def Sparse.read {α : Type} (d : α) (m : Sparse α) (k n : Nat) : List α :=
  Sparse.readF (fun _ => d) m k n

/-- The canonical form: keys strictly rising from at least `lo`, no entry that an unlisted key reads as. -/
def Sparse.wfFrom {α : Type} [DecidableEq α] (d : Nat → α) : Nat → Sparse α → Bool
  | _, [] => true
  | lo, (j, v) :: m => decide (lo ≤ j) && decide (v ≠ d j) && Sparse.wfFrom d (j + 1) m

/-- The canonical form where every unlisted key reads as `d`. -/
def Sparse.wf {α : Type} [DecidableEq α] (d : α) (m : Sparse α) : Bool :=
  Sparse.wfFrom (fun _ => d) 0 m

/-- A table of units by number. -/
abbrev Table (α : Type) := List (Nat × α)

/-- The unit numbered `k`, when there is one. -/
def Table.find {α : Type} : Table α → Nat → Option α
  | [], _ => none
  | (j, v) :: m, k => if j = k then some v else Table.find m k

/-- Puts a unit at number `k`, replacing what was there. -/
def Table.put {α : Type} (m : Table α) (k : Nat) (v : α) : Table α :=
  match m with
  | [] => [(k, v)]
  | (j, w) :: m' =>
    if j < k then (j, w) :: Table.put m' k v
    else if j = k then (k, v) :: m'
    else (k, v) :: (j, w) :: m'

/-- Changes the unit numbered `k`, if there is one. -/
def Table.upd {α : Type} (m : Table α) (k : Nat) (f : α → α) : Table α :=
  m.map (fun e => if e.1 = k then (e.1, f e.2) else e)

/-- Removes the unit numbered `k`. -/
def Table.del {α : Type} (m : Table α) (k : Nat) : Table α :=
  m.filter (fun e => e.1 != k)

/-- The units in rising order of number. -/
def Table.vals {α : Type} (m : Table α) : List α := m.map (·.2)

/-- The numbers present. -/
def Table.keys {α : Type} (m : Table α) : List Nat := m.map (·.1)

/-- Inserts `x` into a list sorted by `le`, before the first element it precedes. -/
def insertBy {α : Type} (le : α → α → Bool) (x : α) : List α → List α
  | [] => [x]
  | y :: ys => if le x y then x :: y :: ys else y :: insertBy le x ys

/-- Sorts by `le`, keeping the order of elements that `le` does not separate. -/
def sortBy {α : Type} (le : α → α → Bool) (l : List α) : List α :=
  l.foldr (insertBy le) []

/-- The first least element by `lt`. -/
def leastBy {α : Type} (lt : α → α → Bool) : List α → Option α
  | [] => none
  | x :: xs =>
    match leastBy lt xs with
    | none => some x
    | some y => if lt y x then some y else some x

end Sys2Proof.Machine
end

