-- ==== Sys2Proof/Machine/Aes.lean ====
section
/-!
DEFINITION. AES-256-XTS, which the spec names for encrypted pages (13_control_core R427).
-/

namespace Sys2Proof.Machine

/-! ### The field of 256 elements -/

/-- Twice an element, modulo x^8 + x^4 + x^3 + x + 1. -/
def gfDouble (b : Byte) : Byte := (b <<< 1) ^^^ (if b.msb then 0x1B else 0)

/-- The rows of the byte substitution, 16 bytes each: the affine image of the inverse in the field. -/
def subRows : List Nat :=
  [ 0x637C777BF26B6FC53001672BFED7AB76, 0xCA82C97DFA5947F0ADD4A2AF9CA472C0,
    0xB7FD9326363FF7CC34A5E5F171D83115, 0x04C723C31896059A071280E2EB27B275,
    0x09832C1A1B6E5AA0523BD6B329E32F84, 0x53D100ED20FCB15B6ACBBE394A4C58CF,
    0xD0EFAAFB434D338545F9027F503C9FA8, 0x51A3408F929D38F5BCB6DA2110FFF3D2,
    0xCD0C13EC5F974417C4A77E3D645D1973, 0x60814FDC222A908846EEB814DE5E0BDB,
    0xE0323A0A4906245CC2D3AC629195E479, 0xE7C8376D8DD54EA96C56F4EA657AAE08,
    0xBA78252E1CA6B4C6E8DD741F4BBD8B8A, 0x703EB5664803F60E613557B986C11D9E,
    0xE1F8981169D98E949B1E87E9CE5528DF, 0x8CA1890DBFE6426841992D0FB054BB16 ]

/-- The rows of the table that undoes it. -/
def unsubRows : List Nat :=
  [ 0x52096AD53036A538BF40A39E81F3D7FB, 0x7CE339829B2FFF87348E4344C4DEE9CB,
    0x547B9432A6C2233DEE4C950B42FAC34E, 0x082EA16628D924B2765BA2496D8BD125,
    0x72F8F66486689816D4A45CCC5D65B692, 0x6C704850FDEDB9DA5E154657A78D9D84,
    0x90D8AB008CBCD30AF7E45805B8B34506, 0xD02C1E8FCA3F0F02C1AFBD0301138A6B,
    0x3A9111414F67DCEA97F2CFCEF0B4E673, 0x96AC7422E7AD3585E2F937E81C75DF6E,
    0x47F11A711D29C5896FB7620EAA18BE1B, 0xFC563E4BC6D279209ADBC0FE78CD5AF4,
    0x1FDDA8338807C731B11210592780EC5F, 0x60517FA919B54A0D2DE57A9F93C99CEF,
    0xA0E03B4DAE2AF5B0C8EBBB3C83539961, 0x172B047EBA77D626E169146355210C7D ]

/-- A byte of a table of 16 rows. -/
def rowByte (rows : List Nat) (b : Byte) : Byte :=
  BitVec.ofNat 8 (rows.getD (b.toNat / 16) 0 / 2 ^ (8 * (15 - b.toNat % 16)))

/-- The byte substitution, and what undoes it. -/
def subByte (b : Byte) : Byte := rowByte subRows b
def unsubByte (b : Byte) : Byte := rowByte unsubRows b

/-! ### Rounds on a block of 16 bytes, column by column -/

/-- The block whose bytes `f` gives. -/
def aesBlock (f : Nat → Byte) : List Byte := (List.range 16).map f

/-- The byte substitution and the row shift, and what undoes them. -/
def aesSub (b : List Byte) : List Byte := aesBlock fun i => subByte (b.getD (5 * i % 16) 0)
def aesUnsub (b : List Byte) : List Byte := aesBlock fun i => unsubByte (b.getD (13 * i % 16) 0)

/-- Byte `i + k` of the column that byte `i` stands in. -/
def inColumn (b : List Byte) (i k : Nat) : Byte := b.getD (i / 4 * 4 + (i + k) % 4) 0

/-- The column mix: each byte is twice itself, three times the next, and the other two. -/
def aesMix (b : List Byte) : List Byte :=
  aesBlock fun i =>
    gfDouble (inColumn b i 0) ^^^ (gfDouble (inColumn b i 1) ^^^ inColumn b i 1) ^^^ inColumn b i 2 ^^^ inColumn b i 3

/-- 9, 11, 13 and 14 times an element. -/
def gf9 (x : Byte) : Byte := gfDouble (gfDouble (gfDouble x)) ^^^ x
def gf11 (x : Byte) : Byte := gfDouble (gfDouble (gfDouble x)) ^^^ gfDouble x ^^^ x
def gf13 (x : Byte) : Byte := gfDouble (gfDouble (gfDouble x)) ^^^ gfDouble (gfDouble x) ^^^ x
def gf14 (x : Byte) : Byte := gfDouble (gfDouble (gfDouble x)) ^^^ gfDouble (gfDouble x) ^^^ gfDouble x

/-- What undoes the column mix. -/
def aesUnmix (b : List Byte) : List Byte :=
  aesBlock fun i => gf14 (inColumn b i 0) ^^^ gf11 (inColumn b i 1) ^^^ gf13 (inColumn b i 2) ^^^ gf9 (inColumn b i 3)

/-- The sum of two blocks. -/
def aesAdd (k b : List Byte) : List Byte := aesBlock fun i => b.getD i 0 ^^^ k.getD i 0

/-- The rounds with their keys, the last of which mixes no columns. -/
def aesRounds : List (List Byte) → List Byte → List Byte
  | [], b => b
  | k :: ks, b =>
    if ks.isEmpty then aesAdd k (aesSub b) else aesRounds ks (aesAdd k (aesMix (aesSub b)))

/-- The rounds undone, the last one first. -/
def aesUnrounds : List (List Byte) → List Byte → List Byte
  | [], b => b
  | k :: ks, b =>
    if ks.isEmpty then aesUnsub (aesAdd k b) else aesUnsub (aesUnmix (aesAdd k (aesUnrounds ks b)))

/-! ### The key schedule -/

/-- `n` more words of the key schedule, each of 4 bytes, the newest first. -/
def aesExpand : Nat → List (List Byte) → List (List Byte)
  | 0, ws => ws
  | n + 1, ws =>
    let i := ws.length
    let w := ws.headD []
    let t :=
      if i % 8 = 0 then
        ((w.drop 1 ++ w.take 1).map subByte).zipWith (· ^^^ ·) [(1 : Byte) <<< (i / 8 - 1), 0, 0, 0]
      else if i % 8 = 4 then w.map subByte
      else w
    aesExpand n ((ws.getD 7 []).zipWith (· ^^^ ·) t :: ws)

/-- The keys of a block's start and of its 14 rounds, from the 32 bytes of a key. -/
def aesKeys (key : List Byte) : List (List Byte) :=
  let ws := (aesExpand 52 ((List.range 8).map fun i => (key.drop (4 * i)).take 4).reverse).reverse
  (List.range 15).map fun r => ((ws.drop (4 * r)).take 4).flatten

/-- AES-256 of a block, and what undoes it. -/
def aesEncrypt (key b : List Byte) : List Byte :=
  let ks := aesKeys key
  aesRounds (ks.drop 1) (aesAdd (ks.headD []) b)
def aesDecrypt (key b : List Byte) : List Byte :=
  let ks := aesKeys key
  aesAdd (ks.headD []) (aesUnrounds (ks.drop 1) b)

/-! ### XTS on units of 16 bytes (R427) -/

/-- The key's half `half` (0 for the data, 1 for the tweak), as bytes. -/
def keyHalf (key half : Nat) : List Byte := leBytes 32 (Config.memoryKey key half).toNat

/-- What the tweak of a unit, its PA divided by 16, comes to. (DESIGN CHOICE, log 14). -/
def xtsMask (key unit : Nat) : List Byte := aesEncrypt (keyHalf key 1) (leBytes 16 unit)

/-- A unit under a key, and back. (DESIGN CHOICE, log 14). -/
def encipher (key unit : Nat) (bs : List Byte) : List Byte :=
  let t := xtsMask key unit
  aesAdd t (aesEncrypt (keyHalf key 0) (aesAdd t bs))
def decipher (key unit : Nat) (bs : List Byte) : List Byte :=
  let t := xtsMask key unit
  aesAdd t (aesDecrypt (keyHalf key 0) (aesAdd t bs))

end Sys2Proof.Machine
end

