-- ==== Sys2Proof/Machine/State.lean ====
section
/-!
DEFINITION. The state of the package as plain data: every piece of state the spec gives the machine, and
the few fields the model itself needs (INVENTORY.md, State). Maps are sparse lists in a canonical form.
-/

namespace Sys2Proof.Machine

/-- Why the machine stops. -/
inductive Fault where
  /-- Raised by an access to a physical address at or above 256 GiB, where no package memory is
  (R406): the spec gives such an access no effect. Safe: the model stops where a part may go on. -/
  | noSuchPhysicalAddress (pa : Nat)
  deriving DecidableEq, Repr

/-- Why an instruction has no meaning in the model. -/
inductive Refusal where
  /-- Raised by an arm of `exec` whose instruction has no meaning yet. Safe. -/
  | notModelled (mnemonic : String)
  deriving DecidableEq, Repr

/-- Who issues a slot: a split of a group, or the control core of a die (R24, R405). -/
inductive Actor where
  | split (group split : Nat)
  | core (die : Nat)
  deriving DecidableEq, Repr

/-- What the outside and physical timing make happen next: a slot is issued by an actor, or an event
happens. The model's own record of those choices (R49: none of them is an architectural result). -/
inductive Turn where
  | issue (who : Actor)
  | event (what : Instr) (arg : EventArg)
  deriving DecidableEq, Repr

/-- A trap as it is raised: class, cause and the fields of R419. `lanes` none means the active lanes of
the faulting split (R417). (DEDUCED, log 27). (DEDUCED, log 28). -/
structure Trap where
  cls : Nat
  cause : Nat
  aux : Nat := 0
  lanes : Option Mask := none
  d0 : Word := 0
  d1 : Word := 0
  d2 : Word := 0
  d3 : Word := 0
  stat : Bool := false
  slot : Nat := 0
  /-- rpc is taken after the instruction (R418). -/
  rpcNext : Bool := false
  /-- The instruction word and the offset, when they are not those of the split's next slot (R417, R418). -/
  insn : Option Word := none
  off : Option Nat := none
  /-- The group and split that the trap is raised in, when they are not the issuer's (R184, R187, R228). -/
  target : Option (Nat × Nat) := none
  deriving DecidableEq, Repr

/-- An event of an unrooted task that waits for its place in logical order (R302). (DEDUCED, log 61). -/
inductive Held where
  | trap (t : Trap)
  | root
  | split
  | exhaust (cause : Nat)
  /-- An issue that counts toward the write-set total (R301), or a `SPLIT` without effect (R318). -/
  | turn
  deriving DecidableEq, Repr

/-- A started clause (R156): its header's offset and word, its slot words, the index of the next slot
word, and how many of its long-latency slots have issued (R76). -/
structure Clause where
  off : Nat
  hw : Word
  words : List Word
  idx : Nat
  ll : Nat
  deriving DecidableEq, Repr

/-- What a split does (R41, R190, R448). (DESIGN CHOICE, log 40). -/
inductive Mode where
  /-- Can issue. -/
  | ready
  /-- Waits at the `RECON` that is the next slot of `c` as kept here (R183). -/
  | recon (c : Clause)
  /-- Waits for commit(q) of its domain (R38). -/
  | commit (q : Nat)
  /-- Waits in `BARW` or `BAR` on barrier `b` until it has completed `phase` (R230). -/
  | bar (b phase : Nat)
  /-- Waits in `KBAR` on cluster barrier `k` for `phase` (R319). -/
  | kbar (k phase : Nat)
  /-- Blocked in `PHWAIT` on a phaser id, with its first result register and the phase that it waits for (R370). -/
  | phaser (ph sd phase : Nat)
  /-- Parked by `YIELD` (R333). -/
  | parked
  /-- Its next slot is an event held by R302. -/
  | held (ev : Held)
  /-- Its next slot waits for physical work; the number is the reason of R190. -/
  | stalled (reason : Nat)
  /-- Its stripe conflict waits to be reported (R223). -/
  | raced
  deriving DecidableEq, Repr

/-- A pending destination (R79, R160): kind 0 uniform, 1 vector, 2 %fps; register; flag. -/
structure Pend where
  kind : Nat
  reg : Nat
  flag : Nat
  deriving DecidableEq, Repr

/-- The frame of a user handler (R423): the saved s992-s1007, rpc, and the started clause the trap stood in. -/
structure Frame where
  regs : List Word
  rpc : Word
  clause : Option Clause
  deriving DecidableEq, Repr

/-- A split: an agent (R24, R179). (DEDUCED, log 39). -/
structure Split where
  /-- Lane set and activity mask (R179, R87). -/
  lanes : Mask
  mask : Mask
  /-- The offset of the next clause header, when no clause is started. -/
  pc : Nat
  clause : Option Clause := none
  /-- The last instruction retired before a clause reached by falling through (R78, DEP bit 0); none when
  there is no predecessor to check. -/
  last : Option Instr := none
  /-- The logical clock (R32). -/
  clock : Nat
  /-- %fps (R138). -/
  fps : Word := 0
  /-- The key lane (R28). -/
  klane : Nat
  /-- The call stack, top first (R176). -/
  calls : List Word := []
  /-- The spill depth (R225). -/
  spill : Nat := 0
  /-- Divergence records, innermost first (R180). -/
  recs : List Nat := []
  /-- Pending destinations (R79). -/
  pend : List Pend := []
  /-- The splits whose program order this one continues: itself, its parents, the splits merged into it
  (R251). -/
  line : List Nat := []
  /-- Arrivals at each team barrier, with those inherited (R229). -/
  arr : List (Nat × Nat) := []
  /-- The highest phase of each team barrier that this line has waited for (R251). -/
  seen : List (Nat × Nat) := []
  /-- Arrivals at each cluster barrier (R319). -/
  karr : List (Nat × Nat) := []
  /-- The quantum in which ordered atomics were last issued, and how many (R39). -/
  ordQ : Nat := 0
  ordN : Nat := 0
  /-- The base of the logical-time allowance (R300 cause 4). -/
  base : Nat
  mode : Mode := .ready
  /-- The wait that a trap found the split in, taken up again when the trap is resumed (R434, R187). -/
  saved : Option Mode := none
  /-- Traps that wait for the commit the split waits for (R340, R377). -/
  due : List Trap := []
  /-- The user handler's frame, while one runs (R423). -/
  frame : Option Frame := none
  /-- The next issue skips the PC comparators, the watch comparators (R441). -/
  skipPc : Bool := false
  skipWatch : Bool := false
  /-- The debugger steps this split by one slot (R447). -/
  step : Bool := false
  /-- Its next slot waits for scratchpad or vector budget, and no new team is placed there meanwhile (R315, R316). -/
  claims : Bool := false
  /-- The clock at which a draining agent stops (R430). -/
  stopAt : Option Nat := none
  /-- The split-table entry held, or the position in the split stack (R181). -/
  entry : Option Nat := some 0
  deriving DecidableEq, Repr

/-- One access recorded for the sibling rules (R186): the split, the kind of item (R419 class 5 aux), the
item, whether it is a write (0 read, 1 write, 2 + k an atomic without return of operation k), and the least clock of
such an access. -/
structure SibAcc where
  split : Nat
  kind : Nat
  item : Nat
  how : Nat
  clock : Nat
  deriving DecidableEq, Repr

/-- A sibling conflict (R187): its time as clock and key lane, the item, and the two splits with their key lanes, the lower
key first. -/
structure SibConflict where
  clock : Nat
  klane : Nat
  kind : Nat
  item : Nat
  lo : Nat
  hi : Nat
  loSplit : Nat
  hiSplit : Nat
  deriving DecidableEq, Repr

/-- A group (R20). -/
structure Group where
  /-- Its task, its team's number, its index in the team (R28). -/
  task : Nat
  team : Nat
  gidx : Nat
  /-- The group slot of its core, 0-63, by quadrant (R16, R19). -/
  slot : Nat
  /-- s4-s1007 (R87). -/
  u : Sparse Word := []
  /-- v0-v127, 96 lanes each; an unlisted register is all 0 (R86). -/
  v : Sparse (List Word) := []
  /-- The vector count in force; after a change, the one that governs the clauses to come, and the register from which on
  the end of the started clause discards (R296, R316). -/
  vcount : Nat
  vnext : Option (Nat × Nat) := none
  /-- The mode register (R91). -/
  mode : Word := 0
  /-- f0-f11 (R76). -/
  flags : Sparse Nat := []
  splits : Table Split
  nextSplit : Nat := 1
  /-- The split stack, top first (R181). -/
  stack : List Nat := []
  /-- The lane sets of divergence records (R180). -/
  recs : Table Mask := []
  nextRec : Nat := 0
  /-- Serial numbers of copy commands (R248). -/
  cserial : Nat := 0
  /-- The side buffer (R417). -/
  side : List Word := List.replicate 16 0
  /-- The 16 stall-reason counters (R190). -/
  stalls : Sparse Word := []
  /-- The spill stack: slot by depth (R225). -/
  spills : Sparse (List Word) := []
  /-- What registers held before results that no waiting clause has made usable yet: kind and register as in `Pend`, lane,
  value (R79, R177). -/
  kept : List (Nat × Nat × Nat × Word) := []
  /-- Accesses since a division, for the sibling rules (R186). -/
  sib : List SibAcc := []
  /-- The conflicts of siblings that wait to be reported (R187). -/
  sibRaces : List SibConflict := []
  /-- Siblings that have exited, with whom a live split's accesses may still conflict: split, key lane, clock of the
  `EXIT`, line (R186). -/
  ended : List (Nat × Nat × Nat × List Nat) := []
  /-- Allocation size this group uses (R315). -/
  size : Nat := 0
  halted : Bool := false
  parked : Bool := false
  exited : Bool := false
  /-- The largest clock of an `EXIT` of its splits (R47, R359). -/
  lastExit : Nat := 0
  deriving DecidableEq, Repr

/-- A team barrier (R227-R229): configuration, the word that waits for the next b0 completion, completed
phases, the largest arrival clock of each phase, and the commands in flight that belong to a phase: (phase,
command). -/
structure Bar where
  cfg : Word
  next : Option Word := none
  done : Nat := 0
  clocks : List (Nat × Nat) := []
  cmds : List (Nat × Nat) := []
  /-- An arrival at this barrier was made in the current b0 interval (R228). -/
  touched : Bool := false
  /-- The highest phase that any split has arrived for, and that any command belongs to (R228). -/
  arrived : Nat := 0
  named : Nat := 0
  deriving DecidableEq, Repr

/-- A stripe access (R221): stripe, group, kind (0 read, 1 write, 2 + k an atomic without return of operation k), the least
clock of such an access, and the first and the last b0 interval that it may belong to (R58). -/
structure StripeAcc where
  stripe : Nat
  group : Nat
  how : Nat
  clock : Nat
  lo : Nat
  hi : Nat
  deriving DecidableEq, Repr

/-- The lowest stripe conflict found (R223): its time, the stripe, the two groups in ascending order, and the
group and split whose access completed it. -/
structure Conflict where
  clock : Nat
  gidx : Nat
  stripe : Nat
  lo : Nat
  hi : Nat
  group : Nat
  split : Nat
  deriving DecidableEq, Repr

/-- A trap that a group of the team holds (R425): when, whose, and its record; `routed` once its handler or
record has been given. -/
structure HeldTrap where
  clock : Nat
  group : Nat
  split : Nat
  trap : Trap
  words : List Word
  routed : Bool := false
  /-- Given to the user handler, which runs. -/
  user : Bool := false
  /-- Its number, by which its record names it. -/
  id : Nat := 0
  /-- The debugger has written the split's pc since (R450). -/
  moved : Bool := false
  deriving DecidableEq, Repr

/-- A latched weight tile (R273, R274): its 8 KiB, format, column scales, base address. -/
structure Tile where
  bytes : Sparse Byte
  fmt : Nat
  scales : List Word
  base : Nat
  deriving DecidableEq, Repr

/-- The matrix state of a team (R266, R268, R281). -/
structure Matrix where
  w0 : Option Tile := none
  w1 : Option Tile := none
  a0 : Sparse Word := []
  a1 : Sparse Word := []
  /-- The activation table: its 257 entries, and the words lo, hi and ext. -/
  tbl : Option (List Word × List Word) := none
  status : Word := 0
  deriving DecidableEq, Repr

/-- A team's static copy schedule (R262-R265). -/
structure Sched where
  owner : Nat
  lbase : Word
  gbase : Nat
  rounds : Nat
  sel : List Nat
  entries : List (List Word)
  round : Nat
  stage : Nat
  stages : Nat
  released : Nat
  active : Bool
  /-- What the other groups see: the state as of the last b0 completion (R265). -/
  view : List Word
  deriving DecidableEq, Repr

/-- One group's `COLL` (R399): group, its index, clock, key, SRC as it stood, and the b0 intervals that the issue may belong
to. -/
structure CollIssue where
  group : Nat
  gidx : Nat
  clock : Nat
  key : Nat
  data : List Byte
  span : Nat × Nat
  deriving DecidableEq, Repr

/-- A team's part in a collective (R399, R400): block, the barrier phase its result completes and the number under
which that phase waits, the issues, the quantum of the contribution and its number on its tree once a commit has taken
it, whether it is over. -/
structure Coll where
  block : List Word
  phase : Nat
  cmd : Nat
  issues : List CollIssue
  quantum : Option Nat := none
  number : Option Nat := none
  finished : Bool := false
  /-- Something that aborts it has happened before it completed (R401). -/
  aborted : Bool := false
  deriving DecidableEq, Repr

/-- A team (R20). -/
structure Team where
  task : Nat
  tidx : Nat
  /-- The core it is placed on: 24 × cluster + logical core of a die (R443), none while not placed. -/
  die : Nat
  core : Nat
  groups : List Nat
  /-- Bytes of the allocation, local offset to byte; unlisted bytes are 0 (R212). -/
  mem : Sparse Byte := []
  /-- Bytes of the allocation that posted window writes have changed in the current epoch, as they stood when it began
  (R64). -/
  before : Sparse Byte := []
  /-- By group index, the bytes of the allocation that other groups' writes of the b0 interval have changed, as the group
  sees them until the next completion of b0 (R59). -/
  views : Table (Sparse Byte) := []
  /-- The allocation size the other groups see, and the size as last set (R315). -/
  size : Nat
  /-- The size that window accesses of each epoch are judged by (R65). -/
  epochSize : Nat
  bars : Table Bar := []
  /-- Accesses of the b0 intervals still open for some group (R221) and the lowest conflict found (R223). -/
  stripes : List StripeAcc := []
  conflict : Option Conflict := none
  /-- The window epoch (R63). -/
  epoch : Nat := 0
  /-- The b0 interval number, for the spans of engine accesses (R222). -/
  interval : Nat := 0
  mx : Matrix := {}
  sched : Option Sched := none
  /-- Collectives, and the first `COLL` block of a b0 interval (R399). -/
  colls : List Coll := []
  collFirst : Option (Nat × List Word) := none
  halted : Bool := false
  /-- A DEBUG stop met a user handler of the team, which stays halted until the stop is resumed (R440). -/
  stopped : Bool := false
  traps : List HeldTrap := []
  terminated : Bool := false
  exited : Bool := false
  /-- The largest clock of an `EXIT` of its groups, and the offset of that `EXIT` (R47, R452). -/
  lastExit : Nat := 0
  exitOff : Nat := 0
  deriving DecidableEq, Repr

/-- A window-rule access of an epoch (R66): stripe of which team, by which team and group, window or local,
read or write. -/
structure WinAcc where
  target : Nat
  stripe : Nat
  team : Nat
  group : Nat
  window : Bool
  write : Bool
  epoch : Nat
  deriving DecidableEq, Repr

/-- A task (R25, R297, R305, R314). -/
structure Task where
  launch : Nat
  ts : Nat
  seq : Nat
  path : Nat
  lo : List Int
  hi : List Int
  /-- The launch record's words as taken (R170). -/
  words : List Word
  /-- The start clock (R33). -/
  start : Nat
  /-- Its place in the order in which tasks became ready (R297). -/
  ready : Nat := 0
  placed : Bool := false
  teams : List Nat := []
  /-- The quantum in which it rooted (R305). -/
  rooted : Option Nat := none
  /-- The bytes directed at global memory by the issues of each quantum (R301). -/
  wset : Sparse Nat := []
  /-- The read signature of an unrooted timestamped task: bits set (R309). -/
  sig : List Nat := []
  /-- Completed phases of each cluster barrier, and the largest quantum closed by an arrival to phase p of
  barrier k, under 4p + k (R319, R42). -/
  kdone : List (Nat × Nat) := []
  kquant : List (Nat × Nat) := []
  /-- The window accesses of the current epoch (R66). -/
  win : List WinAcc := []
  /-- The quantum of its retirement, once its last team has exited (R47). -/
  retired : Option Nat := none
  /-- The family it belongs to (R314). -/
  family : Nat
  /-- The sheaf its groups start with (R325, R336). -/
  sheaf : List Word := []
  deriving DecidableEq, Repr

/-- A family: a task created from a record with all of its tillers (R314): seq, record, live members. -/
structure Family where
  root : Bool
  ts : Nat
  seq : Nat
  words : List Word
  live : Nat
  deriving DecidableEq, Repr

/-- A launch (R20, R27, R73, R293). (DEDUCED, log 85). -/
structure Launch where
  ctx : Nat
  /-- The context-local launch number (R349). -/
  num : Nat
  dom : Nat
  words : List Word
  /-- The seq counter (R27). -/
  nextSeq : Nat := 1
  /-- Bytes of package memory that commits have changed since the launch began, as they stood before (R73). -/
  old : Sparse Byte := []
  families : Table Family := []
  /-- Not yet retired tasks of the grid. -/
  liveTasks : Nat := 0
  ended : Bool := false
  /-- An unfilled gathering it waits for (R355). -/
  waiting : Bool := false
  /-- The phasers whose gathering it was left out of, for its quantum length (R355). -/
  alone : List Nat := []
  /-- Its place in the order in which launches were submitted (R298). -/
  order : Nat := 0
  deriving DecidableEq, Repr

/-- What one uncommitted effect does when its commit step applies it (R46). -/
inductive EffBody where
  /-- Step 1: bytes at a global virtual address: pieces of (physical address, key number + 1 or 0 for plain,
  bytes), each inside one page. -/
  | write (va : Nat) (pieces : List (Nat × Nat × List Byte))
  /-- Step 2 or 3, or with a write set step 1: an atomic, operation code (0-12 `GATOM`, 16-28 `GRED`), its lanes with
  physical address, key, operand, second operand and virtual address, and for the form with return the registers vret
  and sd (R387). -/
  | atom (op : Nat) (lanes : List (Nat × Nat × Nat × Word × Word × Nat)) (ret : Option (Nat × Nat))
  /-- Step 4: a message to a port; `sd` for a `SEND` (R327). -/
  | message (port : Nat) (w0 w1 : Word) (sd : Option Nat)
  /-- Step 4: configuration changes (R332): kind 0 `PORTCFG`, 1 `PATCFG`, 2 `PATSET`, 3 a `RECV` take. -/
  | config (kind : Nat) (words : List Word)
  /-- Step 4: the continuation of the group registers (R334). -/
  | yield (cont : Nat)
  /-- Step 5: a registration, role change or drop (R366, R367, R359). -/
  | phreg (ph kind : Nat) (party role rank : Nat) (sd : Option Nat)
  | phdrop (ph kind : Nat) (party : Nat) (sd : Option Nat)
  /-- Step 5: a signal; `bound` waits for the issuer's writes (R368, R369). -/
  | phsig (ph kind : Nat) (party : Nat) (cand : Option (Nat × Word)) (bound : Bool) (sd : Option Nat)
  /-- Step 6: a posted window write to a team (R65). -/
  | window (team addr : Nat) (bytes : List Byte)
  /-- Step 7: a task creation (R313). -/
  | spawn (words : List Word)
  /-- Step 8: `PHWAIT` on a phaser id, with its first result register and the phase that it waits for (R370). -/
  | phwait (ph sd phase : Nat)
  /-- A multicast line: group, OFF, ACK address, cmode, target, payload, line, flag and sd (R395, R396). -/
  | mcst (words : List Word) (line : List Byte) (flag sd : Nat)
  /-- A flag and status written after the commit: `COLL` issues (R399). -/
  | status (flag sd : Nat) (value : Word)
  /-- `GSYNC`: block, flag and sd (R402). -/
  | gsync (words : List Word) (flag sd : Nat)
  deriving DecidableEq, Repr

/-- An uncommitted effect: whose it is, its agent key, its place in program order, the command it came
from, and its logical time when that is fixed (R40, R46). -/
structure Effect where
  dom : Nat
  launch : Nat
  task : Nat
  team : Nat
  group : Nat
  split : Nat
  key : Nat
  prog : Nat
  cmd : Nat := 0
  /-- The splits whose program order the issuer continued (R56, R251). -/
  line : List Nat := []
  time : Option Nat
  /-- The (barrier, phase) pairs by which another agent's write becomes visible to its team (R251). -/
  pub : List (Nat × Nat) := []
  /-- The word of the instruction that made it. -/
  insn : Word := 0
  body : EffBody
  deriving DecidableEq, Repr

/-- One row of a copy command (R247): source and destination, bytes, the position, the source bytes as of issue (none
while they wait for a translation), and the words that wait for the commit of the issuer's own atomics: offset in the
row, physical address, key, bytes (R389). -/
structure Row where
  pos : Nat
  src : Nat
  dst : Nat
  len : Nat
  data : Option (List Byte) := none
  late : List (Nat × Nat × Nat × Nat) := []
  deriving DecidableEq, Repr

/-- What a long-latency command in flight is (R159). -/
inductive CmdBody where
  /-- A division: its result (R167). -/
  | div (value : Word)
  /-- A log operation: result and flags by lane (R232, R234). -/
  | log (results : List (Nat × Word × Word))
  /-- A copy: block words, opcode, rows, serial, cursor, fault cause while suspended, schedule entry, whether
  its reads are done. -/
  | copy (opc : Nat) (block : List Word) (rows : List Row) (serial : Nat) (quantum : Nat)
      (fault : Option (Nat × Nat × Nat × Bool)) (entry : Option Nat) (refused : Option Word)
  /-- A schedule stage: the commands it started, the entries released (R264). -/
  | stage (cmds : List Nat) (status : Word)
  /-- A command that completes at once with a status (`CPSCH`; a refused `CPSTG`). -/
  | done (status : Word)
  /-- A matrix command (R269, R289): the rows it writes to its team's allocation, the column that it gives to a vector
  register (register, writing lanes, words by lane), its message (port, word 0), its status. -/
  | matrix (rows : List (Nat × List Byte)) (col : Option (Nat × Mask × List Word)) (msg : Option (Nat × Word))
      (status : Word)
  /-- An atomic with return, a fabric command: completed by its commit. -/
  | waits
  deriving DecidableEq, Repr

/-- A long-latency command in flight: issuer, flag, destinations, the local ranges it holds, the barrier
phase it belongs to (R76, R229, R252). -/
structure Cmd where
  group : Nat
  split : Nat
  team : Nat
  task : Nat
  flag : Nat
  sd : Nat
  /-- The splits that take its register results: the issuer and its children (R234, R257). -/
  into : List Nat
  key : Nat
  clock : Nat
  prog : Nat
  /-- The splits whose program order the issuer continued (R56, R251). -/
  line : List Nat := []
  time : Option Nat := none
  reads : List (Nat × Nat) := []
  writes : List (Nat × Nat) := []
  /-- The ranges of other teams' allocations that it writes: team index, offset, bytes (R66, R72). -/
  wins : List (Nat × Nat × Nat) := []
  bar : Option (Nat × Nat) := none
  interval : Nat := 0
  /-- It has completed and is kept until its logical time is fixed (R40). -/
  finished : Bool := false
  /-- The barrier phases that its effects, still to be made, are visible by (R251). -/
  pub : List (Nat × Nat) := []
  /-- Uncommitted bytes of the agent's view at issue, by virtual address, of rows still to be read (R251). -/
  ovl : Sparse Byte := []
  /-- Bytes of package memory that commits changed since issue, as they stood, while reads of the command are
  still to be made (R251). -/
  old : Sparse Byte := []
  /-- The commit that its late reads wait for: the one of the issuer's own atomics (R389). -/
  after : Option Nat := none
  /-- The commands whose bytes its reads still to be made wait for (R251, R252). -/
  behind : List Nat := []
  /-- The progress cursor of a copy: row position and byte offset; the chunks below it are done (R259, R261). -/
  cursor : Nat × Nat := (0, 0)
  body : CmdBody
  deriving DecidableEq, Repr

/-- A port entry (R322, R323). -/
structure Port where
  depth : Nat := 0
  kind : Nat := 0
  isOpen : Bool := false
  trap : Bool := false
  ovfv : Bool := false
  ovf : Nat := 0
  owner : Nat := 0
  count : Word := 0
  /-- Messages held: word 0, word 1, tag. -/
  fifo : List (Word × Word × Nat) := []
  /-- Armed count operations: threshold, action, target, payload, tag of the arming agent. -/
  armed : List (Word × Word × Word × Word × Nat) := []
  /-- The reader group: task and group index (R323). -/
  reader : Option (Nat × Nat) := none
  deriving DecidableEq, Repr

/-- A pattern entry (R324). -/
structure Pattern where
  ports : List Nat
  prio : Nat
  en : Bool
  act : Nat
  arg0 : Word
  arg1 : Word
  fired : Word
  owner : Nat
  deriving DecidableEq, Repr

/-- A continuation (R342): its group, port, priority, registration order once registered, the sheaf and
release clock once fired, and the record's contents. -/
structure Cont where
  group : Nat
  port : Nat
  prio : Nat
  live : BitVec 128
  rank : Option Nat := none
  fired : Option (Word × Word × Nat) := none
  /-- pc, mode, mask, lane set, %fps, vector count, key lane, clock. -/
  pc : Nat
  mode : Word
  mask : Mask
  lanes : Mask
  fps : Word
  vcount : Nat
  klane : Nat
  clock : Nat
  /-- Anchored to its core (R345). -/
  anch : Bool := false
  /-- s16-s63 and the live vector registers. -/
  u : Sparse Word
  v : Sparse (List Word)
  deriving DecidableEq, Repr

/-- A message produced outside the agents' order: derived messages and reports (R335, R339). `byTask` where its tag
holds only a task key. -/
structure Msg where
  ctx : Nat
  port : Nat
  w0 : Word
  w1 : Word
  tag : Nat
  byTask : Bool := false
  /-- Its place in the program order of the agent that its tag names (R335). -/
  place : Nat := 2 ^ 64
  deriving DecidableEq, Repr

/-- A phaser party (R356, R357): kind, id (group, team or launch), rank, role in force (1 SIG, 2 WAIT, 3 BOTH,
0 none), held role for the next boundary, held drop, sphase, wphase, arrivals. -/
structure Party where
  kind : Nat
  id : Nat
  rank : Nat
  role : Nat
  /-- The role and the rank held for the next boundary. -/
  next : Option Nat := none
  nrank : Nat := 0
  leaving : Bool := false
  sphase : Nat
  wphase : Nat
  arrived : Bool := false
  ahead : Bool := false
  /-- The die of its leaf (R360). -/
  die : Nat := 0
  deriving DecidableEq, Repr

/-- A phaser (R352, R357, R374): attributes, context, home die, phase, parties, candidates, last result,
gathering. (DEDUCED, log 73). -/
structure Phaser where
  any : Bool
  scope : Nat
  gather : Nat
  ctx : Nat
  die : Nat
  phase : Nat := 0
  parties : List Party := []
  /-- Candidates of the open phase and of the next: time, rank, payload. -/
  cand : List (Nat × Nat × Word) := []
  candNext : List (Nat × Nat × Word) := []
  /-- The last completed phase with payload and rank. -/
  result : Option (Nat × Word × Nat) := none
  freed : Bool := false
  /-- Launches that wait on the gathering, in order of acceptance (R355). -/
  waiting : List Nat := []
  deriving DecidableEq, Repr

/-- A commit domain (R36, R45, R53, R473). -/
structure Domain where
  q : Nat
  /-- Its place in the order in which domains began (R391). -/
  began : Nat := 0
  /-- Commits made: commit(n) is the next one. -/
  next : Nat := 0
  /-- The domains it joins, and the quantum from which commits are common (R473). -/
  join : List (Nat × Nat) := []
  /-- Derived messages for the next commit (R339), reports to fault ports (R261, R299). -/
  derived : List Msg := []
  reports : List Msg := []
  /-- Domain view of the group table and of trees (R391). -/
  groups : Sparse Word := []
  trees : List (Nat × Nat × List Nat) := []
  /-- Effects that wait for a joined domain's first common commit, with its number (R473). -/
  late : List (Nat × Effect) := []
  /-- TASK firings of the step 4 in hand: record words, launch, sheaf (R325). -/
  firings : List (List Word × Nat × List Word) := []
  /-- Phaser signals of join parties raised at step 4, in firing order: phaser, launch. -/
  joinSigs : List (Nat × Nat) := []
  /-- Pages tagged by the domain (R53). -/
  pages : List Nat := []
  deriving DecidableEq, Repr

/-- A context (R320, R407, R428-R431). -/
structure Ctx where
  /-- CTXST: 0 free, 1 running, 2 draining, 3 drained, 4 resetting. -/
  st : Nat := 0
  ttb : Nat := 0
  /-- KSLOT, PSPACE, TSPACE and MSHARE of each die. -/
  kslot : Sparse Word := []
  pspace : Sparse Word := []
  tspace : Sparse Word := []
  mshare : Sparse Word := []
  /-- CAREA and DRAIN of each die. -/
  carea : Sparse Nat := []
  drain : Sparse Word := []
  /-- The dies where a group waits for space in the context's areas, and event 5 has said so (R428, R429). -/
  full : List Nat := []
  csize : Word := 0
  cevt : Word := 0
  /-- Host mailboxes (R348): HACC, DSENT, host messages arrived (hseq, port, words), launch requests
  accepted and not yet handled (hseq, record VA), the replay ring's records of four words (R52), replies not yet
  written (port, launch flag, words). -/
  hacc : Word := 0
  dsent : Word := 0
  inbox : List (Word × Nat × Word × Word) := []
  requests : List (Word × Nat) := []
  replay : List (List Word) := []
  /-- The recorded messages that a replay has still to deliver, with their two words, while one runs (R51). -/
  playback : Option (List (List Word × Word × Word)) := none
  replies : List (Nat × Bool × Word × Word) := []
  /-- Replies whose write is on its way to host memory, in order: function, place in its ring, reply (R348, R457). -/
  flight : List (Nat × Nat × Nat × Bool × Word × Word) := []
  nextLaunch : Nat := 0
  /-- Live tasks (R299). -/
  live : Nat := 0
  /-- The die whose control core pre-empted the context (R430), and the number of the record image that CSIZE was taken
  from. -/
  die : Nat := 0
  image : Nat := 0
  deriving DecidableEq, Repr, Inhabited

/-- A queued trap or debug record (R416, R444): the team, its held trap, the 16 words. -/
structure Record where
  team : Nat
  group : Nat
  split : Nat
  words : List Word
  /-- A disposition written to TQACT or DQACT and not yet applied. -/
  act : Option Word := none
  /-- The held trap that it reports, by number. -/
  trap : Nat := 0
  deriving DecidableEq, Repr

/-- A control core (R405, R407, R443). -/
structure Core where
  u : Sparse Word := []
  flags : Sparse Nat := []
  mode : Word := 0
  pc : Nat := 0
  clause : Option Clause := none
  last : Option Instr := none
  calls : List Word := []
  pend : List Pend := []
  /-- Divisions in flight: flag, destination, result (R405). -/
  divs : List (Nat × Nat × Word) := []
  mem : Sparse Byte := []
  /-- Started (R458); stopped by `HALTC` or a second trap (R410, R416). -/
  running : Bool := false
  halted : Bool := false
  /-- CCSTAT ie, inh, dbl. -/
  ie : Bool := false
  inh : Bool := false
  dbl : Bool := false
  /-- Plain RW system registers of the die, by number. -/
  sys : Sparse Word := []
  ecause : Word := 0
  trapQ : List Record := []
  faultQ : List (Nat × List Word) := []
  debugQ : List Record := []
  events : List Word := []
  /-- The group slot of each core that the next profile sample starts its search at (R451). -/
  sampled : Sparse Nat := []
  deriving DecidableEq, Repr

/-- A debug comparator set of one core (R435): PC, global and local comparators by index, words. -/
structure Comparators where
  pc : Sparse (List Word) := []
  global : Sparse (List Word) := []
  loc : Sparse (List Word) := []
  deriving DecidableEq, Repr

/-- A host function's registers (R455, R456). -/
structure Fn where
  srbase : Nat := 0
  srsize : Word := 0
  srtail : Word := 0
  srhead : Nat := 0
  rrbase : Nat := 0
  rrsize : Word := 0
  rrhead : Nat := 0
  dsack : Word := 0
  ferr : Word := 0
  /-- FNMAP: the context while the function is mapped, and the context field as written (R456). -/
  map : Option Nat := none
  field : Nat := 0
  deriving DecidableEq, Repr

/-- The device units of chapter 15. -/
structure Device where
  /-- R460: 0 reset, 1 boot, 2 running, 3 recovery. That a control core is halted is read from the cores. -/
  st : Nat := 0
  fns : Table Fn := []
  /-- ms0-ms7 (R464), by number; an unlisted one is zero. -/
  ms : Sparse (List Byte) := []
  /-- ATTSTAT, and the running quote: the bytes covered and the buffer (R465). -/
  attstat : Nat := 0
  quote : Option (List Byte × Nat) := none
  /-- Signatures made by the identity key (R463). -/
  sigs : Nat := 0
  unlkstat : Nat := 0
  /-- The token bytes under verification, or verified (R468). -/
  token : List Byte := []
  /-- The lifecycle state in force is DEBUG (R466). -/
  debug : Bool := false
  /-- The values that NONCE has had, newest first (R462). -/
  nonces : List Word := [Config.nonce 0]
  /-- The security version that the fuses have been raised to (R461). -/
  svn : Nat := 0
  /-- Key slots that hold a key, and how often keys have been lost (R458, R468). -/
  keys : List Nat := []
  keyGen : Nat := 0
  /-- CKPTSTAT, and the running checkpoint: a restore, and the two host addresses (R470). -/
  ckptstat : Nat := 0
  ckptOp : Option (Bool × Nat × Nat) := none
  /-- PCAP, and the cap of the management controller (R471). -/
  pcap : Word := 2800
  cap : Option Word := none
  /-- Lifetime counters by 2^20 × kind + index, current and persisted; whole seconds counted toward an hour, and those
  since the counters were last persisted (R472). -/
  life : Sparse Word := []
  lifeKept : Sparse Word := []
  seconds : Nat := 0
  unkept : Nat := 0
  /-- DPSEL and DPERR (R469). -/
  dpsel : Word := 0
  dperr : Word := 0
  /-- Host links and fabric links that are down (R457, R390). -/
  hostDown : List Nat := []
  linkDown : List Nat := []
  deriving DecidableEq, Repr

/-- A saved context (R432): its record as written, and what the record's areas hold, which only `CTXLD` reads. Ports and
patterns stand by their numbers in the context, records of the queues in order. -/
structure SavedCtx where
  bytes : List Byte
  num : Nat
  ctx : Ctx
  doms : Table Domain
  launches : Table Launch
  tasks : Table Task
  teams : Table Team
  groups : Table Group
  cmds : Table Cmd
  effects : List Effect
  conts : Table Cont
  ports : Table Port
  patterns : Table Pattern
  phasers : Table Phaser
  traps : List Record
  debugs : List Record
  faults : List (Nat × List Word)
  deriving DecidableEq, Repr, Inhabited

/-- The package. -/
structure State where
  /-- The model's own: choices of the outside in store, the issuer and the event that `exec` runs, the step
  counter that free values are drawn by, the next identifier, the next program-order number, and how often
  memory was lost. -/
  script : List Turn := []
  actor : Actor := .core 0
  arg : EventArg := {}
  ticks : Nat := 0
  fresh : Nat := 1
  prog : Nat := 0
  lost : Nat := 0
  /-- SW9-C (one die) instead of SW9-P (R1-R3). -/
  chip : Bool := false
  /-- Package memory by physical address (R406); what an unlisted byte reads as is in `Machine/Memory`. -/
  mem : Sparse Byte := []
  /-- 16-byte units held encrypted: unit number, key slot (R427). -/
  enc : Sparse Nat := []
  /-- Bytes of lines with an uncorrectable error, by line number (R258, R421). -/
  bad : List Nat := []
  /-- Host memory: address with bit 64 naming the port (R347, R455, R470), and the firmware flash (R458). -/
  host : Sparse Byte := []
  flash : List Byte := []
  doms : Table Domain := []
  launches : Table Launch := []
  tasks : Table Task := []
  teams : Table Team := []
  groups : Table Group := []
  cmds : Table Cmd := []
  effects : List Effect := []
  conts : Table Cont := []
  /-- Ports and patterns by 16384 * die + physical entry, 4096 * die + physical entry. -/
  ports : Table Port := []
  patterns : Table Pattern := []
  /-- Phasers by id, the freed ones as they ended; the allocation generation of each slot (R352, R412). -/
  phasers : Table Phaser := []
  gens : Sparse Nat := []
  ctxs : Table Ctx := []
  cores : Table Core := []
  comps : Table Comparators := []
  /-- Exact accumulators of pending `GRED.FADD` words: (pa, sum over 2^1074 scale, NaN state) (R380). -/
  accs : List (Nat × Int × List Word) := []
  /-- Tasks that a die's task engine has dispatched in the round at a priority, by 256 * die + 16 * priority + context
  (R298). -/
  rounds : Sparse Nat := []
  /-- Group table words, receive table words, trees (R392, R393, R397). -/
  gtab : Sparse Word := []
  rtab : Sparse Word := []
  trees : List (Nat × Nat × List Nat) := []
  /-- Contributions that this package has made to each tree (R399). -/
  collN : Sparse Nat := []
  /-- What the areas of the context records hold that `CTXSAV` has written (R432). -/
  saved : List SavedCtx := []
  dev : Device := {}
  deriving DecidableEq, Repr

/-- The package right after reset, before the boot ROM runs (R458 step 1): every register at its reset value, no
context, no control core started, key slots and measurements empty, nothing written to any memory.
(DESIGN CHOICE, log 1). (DESIGN CHOICE, log 3). (DESIGN CHOICE, log 7). (DESIGN CHOICE, log 8). -/
def State.reset : State :=
  { script := [], actor := .core 0, arg := {}, ticks := 0, fresh := 1, prog := 0, lost := 0, chip := false
    mem := [], enc := [], bad := [], host := [], flash := [], doms := [], launches := [], tasks := [], teams := []
    groups := [], cmds := [], effects := [], conts := [], ports := [], patterns := [], phasers := [], gens := []
    ctxs := [], cores := [], comps := [], accs := [], rounds := [], gtab := [], rtab := [], trees := [], collN := []
    saved := [], dev := {} }

end Sys2Proof.Machine
end

