-- ==== Sys2Proof/Machine/Memory.lean ====
section
/-!
DEFINITION. Package memory by physical address (13_control_core R406), memory encryption and the walk of the
translation tables (R427), little-endian words over bytes (00_scope R7).
-/

namespace Sys2Proof.Machine

/-! ### Bytes and words -/

/-- The four bytes of a word. -/
def wordBytes (w : Word) : List Byte := leBytes 4 w.toNat

/-- The word of up to four bytes. -/
def bytesWord (bs : List Byte) : Word := BitVec.ofNat 32 (leNat bs)

/-- The words of a list of bytes, four bytes each; `n` of them. -/
def bytesWords : Nat → List Byte → List Word
  | 0, _ => []
  | n + 1, bs => bytesWord (bs.take 4) :: bytesWords n (bs.drop 4)

/-- Bits [hi:lo] of a word as a number. -/
def bits (w : Word) (hi lo : Nat) : Nat := (w.toNat / 2 ^ lo) % 2 ^ (hi - lo + 1)

/-- Bit `i` of a word. -/
def bit (w : Word) (i : Nat) : Bool := w.getLsbD i

/-- A number as a word. -/
def word (n : Nat) : Word := BitVec.ofNat 32 n

/-- A 0/1 word. -/
def flagWord (b : Bool) : Word := if b then 1 else 0

/-! ### Physical memory -/

/-- Bytes of package memory (R406; 64 GiB on SW9-C, R3). (DESIGN CHOICE, log 5). -/
def memSize (s : State) : Nat := if s.chip then 2 ^ 36 else 2 ^ 38

/-- What a byte nothing has written reads as: 0 from power-on (the model's choice), and a free value once a
restore has failed (R470). (DESIGN CHOICE, log 6). -/
def memDefault (s : State) (a : Nat) : Byte := if s.lost = 0 then 0 else Config.lostByte s.lost a

/-- Package memory is in its canonical form. -/
def Memory.wf (s : State) : Bool := Sparse.wfFrom (memDefault s) 0 s.mem

/-- The bytes as DRAM holds them, before any deciphering that the unit's holder is credited with.
(DESIGN CHOICE, log 6). -/
def memRead (s : State) (a n : Nat) : List Byte := Sparse.readF (memDefault s) s.mem a n

/-- Writes bytes into DRAM. -/
def memWrite (s : State) (a : Nat) (bs : List Byte) : State :=
  { s with mem := Sparse.writeF (memDefault s) s.mem a bs }

/-- The 16 bytes of a unit as a reader with key `want` (number + 1, or 0 for none) sees them, when the unit
is held under key `held`. -/
def unitView (held want unit : Nat) (bs : List Byte) : List Byte :=
  if held = want then bs
  else
    let raw := if held = 0 then bs else encipher (held - 1) unit bs
    if want = 0 then raw else decipher (want - 1) unit raw

/-- Reads one unit with a key. -/
def readUnit (s : State) (want unit : Nat) : List Byte :=
  unitView (Sparse.get 0 s.enc unit) want unit (memRead s (16 * unit) 16)

/-- Reads bytes with key `want` (R427). Where no unit is held encrypted and no key is used, the bytes are
those of memory. -/
def physRead (s : State) (want a n : Nat) : List Byte :=
  if want = 0 && s.enc.isEmpty then memRead s a n
  else (List.range n).map (fun i => (readUnit s want ((a + i) / 16)).getD ((a + i) % 16) 0)

/-- Brings one unit under key `want`. -/
def rekeyUnit (s : State) (want unit : Nat) : State :=
  if Sparse.get 0 s.enc unit = want then s
  else
    let bs := readUnit s want unit
    { memWrite s (16 * unit) bs with enc := Sparse.set 0 s.enc unit want }

/-- Writes bytes with key `want` (R427). (DESIGN CHOICE, log 5). -/
def physWrite (s : State) (want a : Nat) (bs : List Byte) : State :=
  if want = 0 && s.enc.isEmpty then memWrite s a bs
  else
    let us := (List.range ((a + bs.length - 1) / 16 - a / 16 + 1)).map (· + a / 16)
    memWrite (us.foldl (fun s u => rekeyUnit s want u) s) a bs

/-! ### Translation -/

/-- The context of number `c`; an unlisted one stands at reset. -/
def ctxOf (s : State) (c : Nat) : Ctx := (Table.find s.ctxs c).getD {}

/-- Changes a context. -/
def updCtx (s : State) (c : Nat) (f : Ctx → Ctx) : State :=
  { s with ctxs := Table.put s.ctxs c (f (ctxOf s c)) }

/-- The control core of a die; an unlisted one stands at reset. -/
def coreOf (s : State) (d : Nat) : Core := (Table.find s.cores d).getD {}

/-- Changes a control core. -/
def updCore (s : State) (d : Nat) (f : Core → Core) : State :=
  { s with cores := Table.put s.cores d (f (coreOf s d)) }

/-- The dies of the package (R1, R3). (DESIGN CHOICE, log 1). -/
def dies (s : State) : List Nat := if s.chip then [0] else [0, 1, 2, 3]

/-- The physical range of a die's profiling buffer: base and size in bytes (R443). -/
def profRange (c : Core) : Nat × Nat :=
  (((Sparse.get 0 c.sys 580).toNat / 4096 * 4096) + (bits (Sparse.get 0 c.sys 581) 7 0) * 2 ^ 32,
    (Sparse.get 0 c.sys 582).toNat * 4096)

/-- A physical range overlaps the profiling buffer of some die (R427). -/
def overlapsProfile (s : State) (pa n : Nat) : Bool :=
  (dies s).any fun d =>
    let r := profRange (coreOf s d)
    decide (0 < r.2) && decide (pa < r.1 + r.2) && decide (r.1 < pa + n)

/-- What a walk finds. -/
inductive Walk where
  | invalid
  /-- The physical address of the byte, the permissions, and the key (number + 1, 0 for none). -/
  | page (pa : Nat) (r w x : Bool) (key : Nat)
  /-- A table entry lies where there is no memory (R406). -/
  | hole (pa : Nat)
  deriving DecidableEq, Repr

/-- A table entry's must-be-zero bits (R427). -/
def entryBad (e : Nat) : Bool := (e / 2 ^ 6) % 2 ^ 10 != 0 || e / 2 ^ 40 != 0

/-- The walk from the context's TTB for one virtual address, by a walker of die `die`, whose KSLOT names the key; tables are
read unencrypted (R407, R427). -/
def walk (s : State) (ctx die va : Nat) : Walk :=
  let c := ctxOf s ctx
  let entry (base i : Nat) : Option Nat :=
    if memSize s ≤ base + 8 * i + 7 then none else some (leNat (physRead s 0 (base + 8 * i) 8))
  let key (e : Nat) : Nat :=
    if (e / 32) % 2 = 1 then 16 * s.dev.keyGen + bits (Sparse.get 0 c.kslot die) 3 0 + 1 else 0
  let leaf (e base size : Nat) : Walk :=
    if overlapsProfile s base size then .invalid
    else .page (base + va % size) ((e / 4) % 2 == 1) ((e / 8) % 2 == 1) ((e / 16) % 2 == 1) (key e)
  let paOf (e : Nat) : Nat := (e / 2 ^ 16) % 2 ^ 24 * 2 ^ 16
  match entry c.ttb (va / 2 ^ 42 % 2 ^ 14) with
  | none => .hole c.ttb
  | some e1 =>
    if e1 % 4 ≠ 3 || entryBad e1 then .invalid
    else
      match entry (paOf e1) (va / 2 ^ 29 % 2 ^ 13) with
      | none => .hole (paOf e1)
      | some e2 =>
        if e2 % 2 ≠ 1 || entryBad e2 then .invalid
        else if e2 / 2 % 2 = 0 then
          if paOf e2 % 2 ^ 29 ≠ 0 then .invalid else leaf e2 (paOf e2) (2 ^ 29)
        else
          match entry (paOf e2) (va / 2 ^ 16 % 2 ^ 13) with
          | none => .hole (paOf e2)
          | some e3 =>
            if e3 % 4 ≠ 3 || entryBad e3 then .invalid else leaf e3 (paOf e3) (2 ^ 16)

/-- Splits a byte range at 64 KiB page boundaries: (address, bytes). Enough pieces for `fuel` pages. -/
def pageParts : Nat → Nat → Nat → List (Nat × Nat)
  | 0, _, _ => []
  | fuel + 1, a, n =>
    if n = 0 then []
    else
      let k := min n (65536 - a % 65536)
      (a, k) :: pageParts fuel (a + k) (n - k)

/-- The page pieces of a range. -/
def partsOf (a n : Nat) : List (Nat × Nat) := pageParts (n / 65536 + 2) a n

/-- A piece of a translated range: physical address, key, bytes. -/
inductive Piece where
  | ok (pa key n : Nat)
  | invalid (va : Nat)
  | denied (va : Nat)
  | hole (pa : Nat)
  deriving DecidableEq, Repr

/-- Translates one page piece on die `die` for fetch (`x`), read or write (a write needs both R and W, R427).
(DEDUCED, log 112). -/
def translate (s : State) (ctx die : Nat) (x wr : Bool) (p : Nat × Nat) : Piece :=
  match walk s ctx die p.1 with
  | .invalid => .invalid p.1
  | .hole pa => .hole pa
  | .page pa r w xx key =>
    if (if x then xx else r && (!wr || w)) then
      (if memSize s < pa + p.2 then .hole pa else .ok pa key p.2)
    else .denied p.1

end Sys2Proof.Machine
end

