-- ==== Sys2Proof/Machine/Ops.lean ====
section
/-!
DEFINITION. The named operations over the state: units by number, uniform and vector registers, keys, clause
positions, taking a trap and returning from one (02_encoding R86-R89; 01_engines R25-R29; 13_control_core
R414-R426).
-/

namespace Sys2Proof.Machine

/-! ### Units by number -/

/-- The issuing split with everything it belongs to. -/
structure Who where
  g : Nat
  x : Nat
  grp : Group
  sp : Split
  team : Team
  task : Task
  launch : Launch
  deriving DecidableEq, Repr

/-- Looks up split `x` of group `g`. -/
def whoOf (s : State) (g x : Nat) : Option Who :=
  match Table.find s.groups g with
  | none => none
  | some grp =>
    match Table.find grp.splits x, Table.find s.teams grp.team, Table.find s.tasks grp.task with
    | some sp, some team, some task =>
      (Table.find s.launches task.launch).map fun l => ⟨g, x, grp, sp, team, task, l⟩
    | _, _, _ => none

/-- The issuer that `exec` runs for, when it is a split. (DEDUCED, log 36). -/
def issuer (s : State) : Option Who :=
  match s.actor with
  | .split g x => whoOf s g x
  | .core _ => none

/-- Changes a group. -/
def updGroup (s : State) (g : Nat) (f : Group → Group) : State :=
  { s with groups := Table.upd s.groups g f }

/-- Changes a split of a group. -/
def updSplit (s : State) (g x : Nat) (f : Split → Split) : State :=
  updGroup s g fun grp => { grp with splits := Table.upd grp.splits x f }

/-- Changes a team. -/
def updTeam (s : State) (t : Nat) (f : Team → Team) : State :=
  { s with teams := Table.upd s.teams t f }

/-- Changes a task. -/
def updTask (s : State) (k : Nat) (f : Task → Task) : State :=
  { s with tasks := Table.upd s.tasks k f }

/-- Changes a launch. -/
def updLaunch (s : State) (l : Nat) (f : Launch → Launch) : State :=
  { s with launches := Table.upd s.launches l f }

/-- Changes a commit domain. -/
def updDom (s : State) (d : Nat) (f : Domain → Domain) : State :=
  { s with doms := Table.upd s.doms d f }

/-- Changes a command in flight. -/
def updCmd (s : State) (c : Nat) (f : Cmd → Cmd) : State :=
  { s with cmds := Table.upd s.cmds c f }

/-! ### Launch-record fields (R293) and keys (R25, R28) -/

/-- Word `n` of a launch record. -/
def recWord (ws : List Word) (n : Nat) : Word := ws.getD n 0

/-- Teams per task. -/
def recWidth (ws : List Word) : Nat := bits (recWord ws 3) 12 8

/-- Groups per team. -/
def recTeam (ws : List Word) : Nat := bits (recWord ws 3) 7 4 + 1

/-- The quantum length Q. (DEDUCED, log 55). -/
def recQ (ws : List Word) : Nat := 2 ^ bits (recWord ws 3) 19 16

/-- The code base. -/
def recCode (ws : List Word) : Nat := (recWord ws 0).toNat + bits (recWord ws 1) 23 0 * 2 ^ 32

/-- The constant block's address (R170). -/
def recCblk (ws : List Word) : Nat := (recWord ws 31).toNat + bits (recWord ws 32) 23 0 * 2 ^ 32

/-- The required feature mask (R17). -/
def recFeat (ws : List Word) : Nat := bits (recWord ws 33) 15 0

/-- The fault port and the done port, when valid. -/
def recPort (ws : List Word) (n : Nat) : Option Nat :=
  if bit (recWord ws n) 16 then some (bits (recWord ws n) 15 0) else none

/-- The phasers the record lists (R354). -/
def recPhasers (ws : List Word) : List Nat :=
  (List.range (min 8 (bits (recWord ws 50) 3 0))).map fun i => bits (recWord ws (51 + i)) 19 0

/-- The 96-bit task key (R25). -/
def taskKey (k : Task) : Nat := k.ts * 2 ^ 64 + k.seq * 2 ^ 16 + k.path

/-- The group index within the task (R28). -/
def groupIndex (team : Team) (grp : Group) : Nat := team.tidx * team.groups.length + grp.gidx

/-- The 128-bit agent key (R28). -/
def agentKey (w : Who) : Nat :=
  taskKey w.task * 2 ^ 32 + groupIndex w.team w.grp * 2 ^ 16 + w.sp.klane

/-- The quantum an agent stands in (R36). -/
def quantum (w : Who) : Nat := w.sp.clock / recQ w.launch.words

/-! ### Masks and triples (R87, R172) -/

/-- Words 0-2 of a 96-bit mask. -/
def maskWord (m : Mask) (i : Nat) : Word := m.extractLsb' (32 * i) 32

/-- A mask from its three words. -/
def maskOf (a b c : Word) : Mask := c ++ b ++ a

/-- The lanes of a mask in ascending order. -/
def lanesOf (m : Mask) : List Nat := (List.range 96).filter fun l => m.getLsbD l

/-- The mask of a list of lanes. -/
def maskFrom (p : Nat → Bool) : Mask :=
  (List.range 96).foldl (fun m l => if p l then m ||| (1#96 <<< l) else m) 0

/-- The lowest lane, 96 if none. -/
def lowLane (m : Mask) : Nat := ((List.range 96).find? fun l => m.getLsbD l).getD 96

/-! ### Uniform registers (R87-R89, R405) -/

/-- A signed bound as a register word. -/
def intWord (i : Int) : Word := BitVec.ofInt 32 i

/-- The read-only special registers of a group (R89). (DEDUCED, log 39). -/
def special (w : Who) (n : Nat) : Word :=
  match n with
  | 1008 => word w.team.groups.length
  | 1009 => word w.grp.gidx
  | 1010 => word w.team.tidx
  | 1011 => word (recWidth w.task.words)
  | 1012 => intWord (w.task.lo.getD 0 0)
  | 1013 => intWord (w.task.lo.getD 1 0)
  | 1014 => intWord (w.task.lo.getD 2 0)
  | 1015 => intWord (w.task.hi.getD 0 0)
  | 1016 => intWord (w.task.hi.getD 1 0)
  | 1017 => intWord (w.task.hi.getD 2 0)
  | 1018 => word (taskKey w.task / 2 ^ 64)
  | 1019 => word (taskKey w.task / 2 ^ 32)
  | 1020 => word (taskKey w.task)
  | 1021 => word w.sp.clock
  | 1022 => word (w.sp.clock / 2 ^ 32)
  | _ => 0

/-- A split's read of uniform register `n`. -/
def groupRead (w : Who) (n : Nat) : Word :=
  if n = 0 then 0
  else if n < 4 then maskWord w.sp.mask (n - 1)
  else if n < 1008 then Sparse.get 0 w.grp.u n
  else if n < 1023 then special w n
  else w.sp.fps

/-- The uniform registers that an instruction of a split writes: a `GATH` writes s(sd+1) to s(sd+3) only with its tomb
bit (R79, R253). -/
def writesNow (w : Who) (i : Instr) : List Nat :=
  match i with
  | .gath d a => if bit (groupRead w a.toNat) 9 then uWrites i else [d.toNat]
  | i => uWrites i

/-- A control core's read of uniform register `n` (R405). -/
def coreRead (c : Core) (n : Nat) : Word :=
  if n = 0 then 0 else if 1008 ≤ n && n ≤ 1022 then 0 else Sparse.get 0 c.u n

/-- The issuer's read of uniform register `n`. -/
def uread (s : State) (n : Nat) : Word :=
  match s.actor with
  | .split g x => match whoOf s g x with | some w => groupRead w n | none => 0
  | .core d => coreRead (coreOf s d) n

/-- The activity mask with word `i` replaced, ANDed with the lane set (R87). -/
def setMaskWord (sp : Split) (i : Nat) (v : Word) : Mask :=
  let w (j : Nat) := if j = i then v else maskWord sp.mask j
  maskOf (w 0) (w 1) (w 2) &&& sp.lanes

/-- A split's write of uniform register `n`: s0 discards, s1-s3 are ANDed with the lane set, the read-only
registers are never written, %fps keeps bits [5:0] (R87, R162). -/
def groupWrite (s : State) (g x n : Nat) (v : Word) : State :=
  if n = 0 then s
  else if n < 4 then updSplit s g x fun sp => { sp with mask := setMaskWord sp (n - 1) v }
  else if n < 1008 then updGroup s g fun grp => { grp with u := Sparse.set 0 grp.u n v }
  else if n < 1023 then s
  else updSplit s g x fun sp => { sp with fps := v &&& 0x3F }

/-- A control core's write of uniform register `n` (R405). -/
def coreWrite (s : State) (d n : Nat) (v : Word) : State :=
  if n = 0 then s
  else if 1008 ≤ n && n ≤ 1022 then s
  else updCore s d fun c => { c with u := Sparse.set 0 c.u n v }

/-- The issuer's write of uniform register `n`. -/
def uwrite (s : State) (n : Nat) (v : Word) : State :=
  match s.actor with
  | .split g x => groupWrite s g x n v
  | .core d => coreWrite s d n v

/-- Writes consecutive uniform registers. -/
def uwrites (s : State) (n : Nat) (vs : List Word) : State :=
  (vs.foldl (fun (p : State × Nat) v => (uwrite p.1 p.2 v, p.2 + 1)) (s, n)).1

/-- The words of a block (R78). -/
def block (s : State) (a : SReg) (k : Nat) : List Word :=
  (List.range k).map fun i => uread s (a.toNat + i)

/-- Triple `t` as the issuer reads it (R87, R172). -/
def tripleRead (s : State) (t : Nat) : Mask :=
  maskOf (uread s (3 * t + 1)) (uread s (3 * t + 2)) (uread s (3 * t + 3))

/-- Writes triple `t` (R87, R172). -/
def tripleWrite (s : State) (t : Nat) (m : Mask) : State :=
  uwrites s (3 * t + 1) [maskWord m 0, maskWord m 1, maskWord m 2]

/-! ### Vector registers (R86) -/

/-- The 96 lanes of a register of zeros. -/
def zeroVec : List Word := List.replicate 96 0

/-- Vector register `v` of a group. -/
def vecRead (grp : Group) (v : Nat) : List Word := Sparse.get zeroVec grp.v v

/-- Lane `l` of a vector register. -/
def laneRead (grp : Group) (v l : Nat) : Word := (vecRead grp v).getD l 0

/-- Writes lanes of a vector register: lane `l` takes `f l` where `p l` holds. -/
def vecWrite (grp : Group) (v : Nat) (p : Nat → Bool) (f : Nat → Word) : Group :=
  let old := vecRead grp v
  let new := (List.range 96).map fun l => if p l then f l else old.getD l 0
  { grp with v := Sparse.set zeroVec grp.v v new }

/-- The guard's choice of a lane (R93): the guard triple of the mode, inverted by ginv. -/
def guardAllows (s : State) (mode : Word) (l : Nat) : Bool :=
  let g := bits mode 13 9
  g = 0 || ((tripleRead s g).getLsbD l != bit mode 14)

/-- The writing lanes of the issuing split (R93). -/
def writing (s : State) (w : Who) : Mask :=
  let g := bits w.grp.mode 13 9
  if g = 0 then w.sp.mask
  else
    let t := tripleRead s g
    w.sp.mask &&& (if bit w.grp.mode 14 then ~~~ t else t)

/-- The vector count that governs the clauses to come (R316). -/
def Group.count (grp : Group) : Nat := (grp.vnext.map (·.1)).getD grp.vcount

/-- The vector registers that a group takes of its quadrant's budget: the larger count until the clause that changes it
ends (R296, R316). -/
def Group.budget (grp : Group) : Nat :=
  if grp.splits.any fun e => e.2.clause.isSome || e.2.frame.any fun f => f.clause.isSome then max grp.vcount grp.count
  else grp.count

/-- The end of a clause that has changed the vector count: the count is in force, and the registers given up are discarded
(R316). (DEDUCED, log 57). -/
def Group.takeCount (grp : Group) : Group :=
  match grp.vnext with
  | none => grp
  | some (n, keep) => { grp with vcount := n, vnext := none, v := grp.v.filter fun e => decide (e.1 < keep) }

/-! ### Clause positions (R73, R83, R158) -/

/-- The offset of the next slot of a clause. -/
def Clause.slotOff (c : Clause) : Nat := c.off + 4 + 4 * c.idx

/-- The offset of the header after a clause. -/
def Clause.nextOff (c : Clause) : Nat := c.off + 4 + 4 * c.words.length

/-- The slot words the next instruction takes: one, or two with its literal (R85). -/
def slotWords (c : Clause) : Nat :=
  match c.words[c.idx]? with
  | some w => if hasLiteral (w.extractLsb' 24 8) then 2 else 1
  | none => 1

/-- The instruction in the next slot, when it is one. -/
def slotInstr (c : Clause) : Option Instr :=
  match c.words[c.idx]? with
  | some w => match decode w c.words[c.idx + 1]? with | .ok i => some i | .error _ => none
  | none => none

/-- The pc of a split: its next slot, or its next clause header. -/
def splitPc (sp : Split) : Nat :=
  match sp.clause with
  | some c => c.slotOff
  | none => sp.pc

/-- The offset after a split's next instruction. -/
def splitNext (sp : Split) : Nat :=
  match sp.clause with
  | some c => if c.idx + slotWords c < c.words.length then c.off + 4 + 4 * (c.idx + slotWords c) else c.nextOff
  | none => sp.pc

/-- How many long-latency slots stand before word `k` of a clause (R76). -/
def llBefore (words : List Word) (k : Nat) : Nat → Nat → Nat → Nat
  | 0, _, n => n
  | fuel + 1, i, n =>
    if k ≤ i then n
    else
      match words[i]? with
      | none => n
      | some w =>
        let n' := match decode w words[i + 1]? with
          | .ok ins => if longLatency ins then n + 1 else n
          | .error _ => n
        llBefore words k fuel (if hasLiteral (w.extractLsb' 24 8) then i + 2 else i + 1) n'

/-- A split set to continue at offset `r`: inside the clause `c` when `r` is one of its slots, otherwise at
a header. -/
def continueAt (sp : Split) (c : Option Clause) (r : Nat) : Split :=
  match c with
  | some c =>
    if c.off + 4 ≤ r && r < c.nextOff then
      let k := (r - c.off - 4) / 4
      { sp with clause := some { c with idx := k, ll := llBefore c.words k 8 0 0 }, last := none }
    else { sp with clause := none, pc := r, last := none }
  | none => { sp with clause := none, pc := r, last := none }

/-! ### Commit-domain orders of groups of a team -/

/-- Splits of a team: (group number, split number, split). -/
def teamSplits (s : State) (t : Nat) : List (Nat × Nat × Split) :=
  s.groups.flatMap fun (g, grp) =>
    if grp.team = t && !grp.exited then grp.splits.map fun (x, sp) => (g, x, sp) else []

/-- Splits of a task. -/
def taskSplits (s : State) (k : Nat) : List (Nat × Nat × Split) :=
  s.groups.flatMap fun (g, grp) =>
    if grp.task = k && !grp.exited then grp.splits.map fun (x, sp) => (g, x, sp) else []

/-! ### Reading through translation -/

/-- The 16 bytes of a unit as a reader with key `want` saw them before the changes that `old` records, which holds what
memory held of each unit changed, unencrypted or enciphered (R427). -/
def unitOld (s : State) (old : Sparse Byte) (want unit : Nat) : List Byte :=
  match Table.find old (16 * unit) with
  | none => readUnit s want unit
  | some _ => unitView 0 want unit ((List.range 16).map fun i => (Table.find old (16 * unit + i)).getD 0)

/-- Bytes at a physical address as they stood before the changes that `old` records. (DEDUCED, log 85). -/
def physReadOld (s : State) (old : Sparse Byte) (key pa n : Nat) : List Byte :=
  if old.isEmpty then physRead s key pa n
  else (List.range n).map fun i => (unitOld s old key ((pa + i) / 16)).getD ((pa + i) % 16) 0

/-- Reads a virtual range as of before `old`, for fetch (`x`) or as data; the first piece that cannot be read
is answered otherwise (R427). -/
def vaRead (s : State) (ctx die : Nat) (x : Bool) (old : Sparse Byte) (va n : Nat) :
    Except Piece (List Byte) :=
  (partsOf va n).foldl
    (fun r p =>
      match r with
      | .error e => .error e
      | .ok bs =>
        match translate s ctx die x false p with
        | .ok pa key k => .ok (bs ++ physReadOld s old key pa k)
        | e => .error e)
    (.ok [])

/-- A word of the launch's constant block, as committed before the launch began (R170). (DEDUCED, log 38). -/
def constWord (s : State) (l : Launch) (die cblk n : Nat) : Except Piece Word :=
  (vaRead s l.ctx die false l.old ((cblk + 4 * n) % 2 ^ 56) 4).map bytesWord

/-- The user handler's base (R415): none without a handler word that says so, or when it cannot be read. -/
def handlerBase (s : State) (w : Who) : Option Nat :=
  if recCblk w.launch.words = 0 then none
  else
    match constWord s w.launch w.team.die (recCblk w.launch.words) 1023 with
    | .ok h => if bit h 0 && !bit h 1 then some (h.toNat / 4 * 4) else none
    | .error _ => none

/-! ### Writing package memory -/

/-- A copy command has still to read some of its sources. -/
def Cmd.reading (c : Cmd) : Bool :=
  match c.body with
  | .copy _ _ rows _ _ _ _ _ => rows.any fun r => r.data.isNone
  | _ => false

/-- Adds bytes from key `a` where the map has none yet. -/
def overlayAdd (m : Sparse Byte) (a : Nat) (bs : List Byte) : Sparse Byte :=
  let w := m.filter fun e => decide (a ≤ e.1) && decide (e.1 < a + bs.length)
  let mid := (List.range bs.length).zip bs |>.map fun (i, b) =>
    (a + i, if w.isEmpty then b else (Table.find w (a + i)).getD b)
  m.filter (fun e => decide (e.1 < a)) ++ (mid ++ m.filter fun e => decide (a + bs.length ≤ e.1))

/-- The words of a physical range leave Commutative state: memory holds their merged value already (R380). -/
def mergeWords (s : State) (pa n : Nat) : State :=
  if s.accs.isEmpty then s
  else { s with accs := s.accs.filter fun a => decide (a.1 + 4 ≤ pa) || decide (pa + n ≤ a.1) }

/-- The whole units of a physical range: the first byte, and what memory holds of them, enciphered where it is. -/
def unitsAt (s : State) (pa n : Nat) : Nat × List Byte :=
  let lo := pa / 16 * 16
  (lo, physRead s 0 lo ((pa + n + 15) / 16 * 16 - lo))

/-- A launch that runs keeps bytes as they stood. -/
def Launch.keepOld (lo : Nat) (now : List Byte) (l : Launch) : Launch :=
  if l.ended then l else { l with old := overlayAdd l.old lo now }

/-- A command with reads still to be made keeps bytes as they stood. -/
def Cmd.keepOld (lo : Nat) (now : List Byte) (c : Cmd) : Cmd :=
  if c.reading then { c with old := overlayAdd c.old lo now } else c

/-- A write of package memory other than a commit's: live launches, those of a saved context too, keep the bytes as they
stood, for fetch (R73). (DEDUCED, log 85). -/
def storeCore (s : State) (key pa : Nat) (bs : List Byte) : State :=
  let (lo, now) := unitsAt s pa bs.length
  let keep (t : Table Launch) : Table Launch := t.map fun (n, l) => (n, l.keepOld lo now)
  let s := { s with
    launches := keep s.launches
    saved := s.saved.map fun v => { v with launches := keep v.launches } }
  mergeWords (physWrite s key pa bs) pa bs.length

/-- A commit's write of package memory: outstanding reads keep the bytes as they stood as well (R251). -/
def storeGlobal (s : State) (key pa : Nat) (bs : List Byte) : State :=
  let (lo, now) := unitsAt s pa bs.length
  let keep (t : Table Cmd) : Table Cmd := t.map fun (n, c) => (n, c.keepOld lo now)
  storeCore { s with
    cmds := keep s.cmds
    saved := s.saved.map fun v => { v with cmds := keep v.cmds } } key pa bs

/-! ### The profiling buffer (R451-R453) -/

/-- Appends one 32-byte record to a die's ring, when the ring exists and the context is profiled; a record
that would reach PBTAIL is dropped and counted. -/
def profRecord (s : State) (die ctx : Nat) (ws : List Word) : State :=
  let c := coreOf s die
  let r := profRange c
  if r.2 = 0 || !bit (Sparse.get 0 c.sys 586) (16 + ctx) then s
  else
    let head := (Sparse.get 0 c.sys 583).toNat
    let next := (head + 32) % r.2
    if next = (Sparse.get 0 c.sys 584).toNat then
      updCore s die fun c =>
        { c with sys := Sparse.set 0 c.sys 585 (word (min 0xFFFFFFFF ((Sparse.get 0 c.sys 585).toNat + 1))) }
    else if memSize s < r.1 + head + 32 then s
    else
      let s := storeCore s 0 (r.1 + head) (ws.flatMap wordBytes)
      updCore s die fun c => { c with sys := Sparse.set 0 c.sys 583 (word next) }

/-- The words of a trace or sample record of a split (R451). -/
def traceWords (s : State) (w : Who) (kind : Nat) (pc : Nat) (arg : Word) : List Word :=
  let c := Config.cycles s.ticks
  [word (kind + w.launch.ctx * 2 ^ 4 + w.team.die * 2 ^ 8 + w.team.core * 2 ^ 10 + w.grp.slot * 2 ^ 17 +
      (w.sp.entry.getD 0) * 2 ^ 23),
    word pc, maskWord w.sp.mask 0, maskWord w.sp.mask 1, maskWord w.sp.mask 2, arg,
    c.extractLsb' 0 32, c.extractLsb' 32 32]

/-- Writes a trace record when PBCTL bit `en` asks for it. -/
def trace (s : State) (w : Who) (en kind pc : Nat) (arg : Word) : State :=
  if bit (Sparse.get 0 (coreOf s w.team.die).sys 586) en then
    profRecord s w.team.die w.launch.ctx (traceWords s w kind pc arg)
  else s

/-! ### Taking a trap (R414-R418, R422-R425) -/

/-- The word at a split's pc: its next slot, or the header of its next clause, none when it cannot be fetched.
(DEDUCED, log 21). -/
def wordAtPc (s : State) (w : Who) : Option Word :=
  match w.sp.clause with
  | some c => c.words[c.idx]?
  | none =>
    match vaRead s w.launch.ctx w.team.die true w.launch.old ((recCode w.task.words + w.sp.pc) % 2 ^ 56) 4 with
    | .ok bs => some (bytesWord bs)
    | .error _ => none

/-- The 16 words of a trap record (R417), with the faulting split as it stands. (DEDUCED, log 21).
(DEDUCED, log 27). (DEDUCED, log 28). -/
def trapWords (s : State) (w : Who) (t : Trap) : List Word :=
  let pc := t.off.getD (splitPc w.sp)
  let rpc := if t.rpcNext then splitNext w.sp else splitPc w.sp
  let insn := (t.insn.orElse fun _ => wordAtPc s w).getD 0
  let lanes := t.lanes.getD w.sp.mask
  let key := taskKey w.task
  [word (t.cls + t.cause * 2 ^ 8 + (if w.sp.frame.isSome then 2 ^ 16 else 0) +
      (if t.stat then 2 ^ 18 else 0) + t.slot * 2 ^ 19 + t.aux * 2 ^ 24),
    word pc, word rpc, insn, maskWord lanes 0, maskWord lanes 1, maskWord lanes 2, t.d0, t.d1, t.d2, t.d3,
    word key, word (key / 2 ^ 32), word (key / 2 ^ 64),
    word (groupIndex w.team w.grp + w.sp.klane * 2 ^ 16), word (w.team.tidx + w.launch.ctx * 2 ^ 16)]

/-- The sibling halt record of a group that stops (R422): class 0xFF, the next clause to start, skid 0.
(DESIGN CHOICE, log 23). -/
def haltWords (grp : Group) : List Word :=
  let pc := match grp.splits with
    | (_, sp) :: _ => (match sp.clause with | some c => c.nextOff | none => sp.pc)
    | [] => 0
  [0xFF, word pc] ++ List.replicate 14 0

/-- Stops every group of a team; a group without a trap of its own writes its halt record (R422).
(DESIGN CHOICE, log 23). -/
def haltTeam (s : State) (t : Nat) : State :=
  let traps := match Table.find s.teams t with | some tm => tm.traps | none => []
  let s := updTeam s t fun tm => { tm with halted := true }
  { s with groups := s.groups.map fun (g, grp) =>
      if grp.team = t && !grp.exited then
        (g, { grp with
          halted := true
          side := if grp.halted || traps.any (fun h => h.group = g) then grp.side else haltWords grp })
      else (g, grp) }

/-- Adds a record to the die's trap queue (R416). -/
def queueTrap (s : State) (die : Nat) (r : Record) : State :=
  updCore s die fun c => { c with trapQ := c.trapQ ++ [r] }

/-- The faulting split enters its user handler at H + 128 × class (R423). -/
def enterHandler (s : State) (g x : Nat) (ws : List Word) (base : Nat) : State :=
  match whoOf s g x with
  | none => s
  | some w =>
    let regs := (List.range 16).map fun i => Sparse.get 0 w.grp.u (992 + i)
    let s := updGroup s g fun grp => { grp with u := Sparse.write 0 grp.u 992 ws }
    updSplit s g x fun sp =>
      { sp with
        frame := some ⟨regs, ws.getD 2 0, sp.clause⟩
        clause := none
        pc := base + 128 * bits (ws.getD 0 0) 7 0
        last := none
        mode := .ready }

/-- A step or halt record first (R446, R447), otherwise the lowest (clock, group index) (R425). -/
def firstTrap (s : State) (hs : List HeldTrap) : Option HeldTrap :=
  let gi (h : HeldTrap) := match Table.find s.groups h.group with | some g => g.gidx | none => 0
  (hs.find? fun h => h.trap.cls = 12 && decide (5 ≤ h.trap.cause)).orElse fun _ =>
    leastBy (fun a b => decide (a.clock < b.clock) || (a.clock = b.clock && decide (gi a < gi b))) hs

/-- Which held trap of a team is given its handler or its record next: where a DEBUG stop has met a user handler, the DEBUG
records one by one (R440); otherwise one raised inside a running user handler at once, then the first in order, and none
while another is being handled (R425). -/
def nextTrap (s : State) (tm : Team) : Option HeldTrap :=
  let open' := tm.traps.filter fun h => !h.routed
  if tm.stopped then
    if tm.traps.any fun h => h.routed && h.trap.cls = 12 then none
    else firstTrap s (open'.filter fun h => h.trap.cls = 12)
  else
    match open'.find? fun h => tm.traps.any fun r => r.user && r.group = h.group && r.split = h.split with
    | some h => some h
    | none => if tm.traps.any fun h => h.routed then none else firstTrap s open'

/-- Routes the next held trap of a team (R414). (DEDUCED, log 24). -/
def serveTraps (s : State) (t : Nat) : State :=
  match Table.find s.teams t with
  | none => s
  | some tm =>
    match nextTrap s tm with
    | none => s
    | some h =>
      let nested := tm.traps.any fun r => r.user && r.group = h.group && r.split = h.split
      let mark (user : Bool) (s : State) := updTeam s t fun tm =>
        { tm with traps := tm.traps.map fun r => if r.id = h.id then { r with routed := true, user := user } else r }
      let rec' : Record := { team := t, group := h.group, split := h.split, words := h.words, trap := h.id }
      let toSupervisor := queueTrap (mark false s) tm.die rec'
      if h.trap.cls = 12 then
        updCore (mark false s) tm.die fun c => { c with debugQ := c.debugQ ++ [rec'] }
      else if h.trap.cls = 15 || nested then toSupervisor
      else
        match (whoOf s h.group h.split).bind (handlerBase s) with
        | some base => enterHandler (mark true s) h.group h.split h.words base
        | none => toSupervisor

/-- A mode in which a split waits for something that a trap does not end. -/
def Mode.lasting : Mode → Bool
  | .recon _ | .commit _ | .bar .. | .kbar .. | .phaser .. | .parked => true
  | _ => false

/-- Takes a trap in a split of group `g`: the side buffer is written, the team is halted, and the trap goes
where R414 says once its turn has come. A wait that the trap meets is kept for the resume. (DEDUCED, log 24). -/
def takeTrap (s : State) (g x : Nat) (t : Trap) : State :=
  let (g, x) := t.target.getD (g, x)
  match whoOf s g x with
  | none => s
  | some w =>
    let ws := trapWords s w t
    let s := trace s w 3 5 (splitPc w.sp) (word (t.cls + t.cause * 2 ^ 8))
    let s := updGroup s g fun grp => { grp with side := ws }
    let s := updSplit s g x fun sp =>
      { sp with
        mode := .ready
        saved := if sp.mode.lasting then some sp.mode else sp.saved
        base := if t.cls = 6 && t.cause = 4 then sp.clock else sp.base }
    let s := updTeam { s with fresh := s.fresh + 1 } w.grp.team fun tm =>
      { tm with stopped := tm.stopped || (t.cls = 12 && tm.traps.any fun h => h.user), traps := tm.traps ++
          [{ clock := w.sp.clock, group := g, split := x, trap := t, words := ws, id := s.fresh }] }
    serveTraps (haltTeam s w.grp.team) w.grp.team

/-- Raises a trap: an agent of an unrooted task holds it until its turn in logical order (R302); a MACHINE
fault, a step record and a halt request are taken at once. -/
def raise (s : State) (g x : Nat) (t : Trap) : State :=
  match whoOf s g x with
  | none => s
  | some w =>
    if w.task.rooted.isNone && t.cls ≠ 15 && !(t.cls = 12 && 5 ≤ t.cause) then
      updSplit s g x fun sp =>
        { sp with mode := .held (.trap t), saved := if sp.mode.lasting then some sp.mode else sp.saved }
    else takeTrap s g x t

/-! ### Returning from a trap (R424-R426) -/

/-- The traps that `p` names leave their team's list. -/
def dropTrap (s : State) (t : Nat) (p : HeldTrap → Bool) : State :=
  updTeam s t fun tm => { tm with traps := tm.traps.filter fun h => !p h }

/-- The traps that `p` names are done with: the team's halt is released when no trap remains, and otherwise the next trap
takes its turn (R425). -/
def endTrap (s : State) (t : Nat) (p : HeldTrap → Bool) : State :=
  let s := dropTrap s t p
  match Table.find s.teams t with
  | none => s
  | some tm =>
    if tm.traps.isEmpty then
      let s := updTeam s t fun tm => { tm with halted := false }
      { s with groups := s.groups.map fun (i, grp) =>
          if grp.team = t then (i, { grp with halted := false }) else (i, grp) }
    else serveTraps s t

/-- A resumed split takes up the wait that its trap met. -/
def Split.takeUp (sp : Split) : Split :=
  { sp with mode := sp.saved.getD (if sp.mode.lasting then sp.mode else .ready), saved := none }

/-- Restores s992-s1007 from the user handler's frame and continues the split at `r` (R424, R426). -/
def leaveHandler (s : State) (g x r : Nat) : State :=
  match whoOf s g x with
  | none => s
  | some w =>
    match w.sp.frame with
    | some f =>
      let s := updGroup s g fun grp => { grp with u := Sparse.write 0 grp.u 992 f.regs }
      updSplit s g x fun sp =>
        { (continueAt sp f.clause r).takeUp with frame := none }
    | none => updSplit s g x fun sp => (continueAt sp sp.clause r).takeUp

/-- A trap entered the user handler, or left it by `TESC`: it is the one whose frame its split holds. -/
def HeldTrap.framed (h : HeldTrap) : Bool := h.user || bit (h.words.getD 0 0) 17

/-- A held trap by its number. -/
def heldTrap (s : State) (t id : Nat) : Option HeldTrap :=
  (Table.find s.teams t).bind fun tm => tm.traps.find? fun h => h.id = id

/-- A supervisor's or debugger's resume of a held trap: the split that holds it continues at offset `r`, or stays where it
stands when there is none. A trap that is not the one of the split's frame leaves the user handler in force. -/
def resumeTrap (s : State) (t id : Nat) (r : Option Nat) : State :=
  match heldTrap s t id with
  | none => s
  | some h =>
    let s := match whoOf s h.group h.split with
      | none => s
      | some w =>
        let r := r.getD (splitPc w.sp)
        if w.sp.frame.isSome && !h.framed then
          updSplit s h.group h.split fun sp => (continueAt sp sp.clause r).takeUp
        else leaveHandler s h.group h.split r
    endTrap s t fun h => h.id = id

/-! ### Traps of a control core (R416) -/

/-- A control core enters its vector `v`, saving `epc` and writing ECAUSE. (DEDUCED, log 91). -/
def coreEnter (s : State) (d base epc : Nat) (ecause : Word) : State :=
  updCore s d fun c =>
    { c with sys := Sparse.set 0 c.sys 3 (word epc), inh := true, ecause := ecause, clause := none, pc := base, last := none }

/-- A trap raised by the control core's own code: the vector of its class, or, while a handler runs, dbl and
a stop (R416). (DEDUCED, log 91). -/
def coreTrap (s : State) (d : Nat) (cls cause : Nat) : State :=
  let c := coreOf s d
  let pc := match c.clause with | some k => k.slotOff | none => c.pc
  if c.inh then updCore s d fun c => { c with dbl := true, halted := true }
  else
    coreEnter s d ((Sparse.get 0 c.sys 2).toNat + 128 * cls) pc (word (4 + cls * 2 ^ 8 + cause * 2 ^ 16))

end Sys2Proof.Machine
end

