-- ==== Sys2Proof/Machine/Races.lean ====
section
/-!
DEFINITION. The sharing rules: stripes between groups of a team (05_lane_engine R221-R224), the cluster window
(01_engines R63-R66), siblings of one group (04_issue_engine R186, R187); and the split table (R181).
-/

namespace Sys2Proof.Machine

/-- One scratchpad access: the team it reaches (a task-relative index), the offset in that team's allocation,
bytes, and how (0 read, 1 write, 2 + k an atomic without return of operation k). -/
structure Acc where
  team : Nat
  off : Nat
  len : Nat
  how : Nat
  deriving DecidableEq, Repr

/-- An access of a shared item other than memory, for the sibling rules: kind (0 uniform register, 1 mode,
2 vector lane, 4 other), item, and whether it is written. -/
structure Item where
  kind : Nat
  item : Nat
  write : Bool
  deriving DecidableEq, Repr

/-! ### Stripes -/

/-- The stripes of a byte range of an allocation (R58, R213). -/
def stripesOf (off len : Nat) : List Nat :=
  if len = 0 then []
  else (List.range ((off + len - 1) / 256 - off / 256 + 1)).map (· + off / 256)

/-- Each (stripe, how) of the accesses to team `t`, once. -/
def stripeUses (accs : List Acc) (t : Nat) : List (Nat × Nat) :=
  ((accs.filter fun a => a.team = t).flatMap fun a =>
    (stripesOf a.off a.len).map fun n => (n, a.how)).eraseDups

/-- Two accesses of one stripe by different groups that do not conflict (R221): both reads, or both atomics
without return of the same operation. -/
def compatible (a b : Nat) : Bool := (a = 0 && b = 0) || (2 ≤ a && a = b)

/-- (clock, group index) order. -/
def pairLt (a b : Nat × Nat) : Bool := decide (a.1 < b.1) || (a.1 = b.1 && decide (a.2 < b.2))

/-- The later of two (clock, group index) pairs. -/
def pairMax (a b : Nat × Nat) : Nat × Nat := if pairLt a b then b else a

/-- The first and the last b0 interval that an access of a split may belong to, as its arrivals and waits tell: the
completion of a phase that it has arrived for and not yet waited for may come before or after the access (R48, R58).
(DEDUCED, log 115). -/
def b0Span (sp : Split) : Nat × Nat :=
  let a := (Table.find sp.arr 0).getD 0
  (max (((Table.find sp.seen 0).getD 0) + 1) a, a + 1)

/-- An access of these intervals may share one with a recorded access. (DEDUCED, log 115). -/
def StripeAcc.meets (r : StripeAcc) (span : Nat × Nat) : Bool := decide (r.lo ≤ span.2) && decide (span.1 ≤ r.hi)

/-- The lowest conflict that new uses of the intervals `span` make with the recorded ones: at (time, stripe) (R223).
(DEDUCED, log 33). (DEDUCED, log 115). -/
def stripeConflict (tm : Team) (gidx clock : Nat) (span : Nat × Nat) (g x : Nat) (uses : List (Nat × Nat)) :
    Option Conflict :=
  let found := uses.flatMap fun (n, how) =>
    (tm.stripes.filter fun r =>
        r.stripe = n && r.group ≠ gidx && r.meets span && !compatible r.how how).map fun r =>
      let t := pairMax (r.clock, r.group) (clock, gidx)
      (⟨t.1, t.2, n, min r.group gidx, max r.group gidx, g, x⟩ : Conflict)
  leastBy (fun a b => pairLt (a.clock, a.gidx) (b.clock, b.gidx) ||
    ((a.clock, a.gidx) = (b.clock, b.gidx) && decide (a.stripe < b.stripe))) found

/-- Records uses, keeping the least clock of each (stripe, group, how, intervals). -/
def recordStripes (l : List StripeAcc) (gidx clock : Nat) (span : Nat × Nat) (uses : List (Nat × Nat)) : List StripeAcc :=
  let same (n how : Nat) (r : StripeAcc) : Bool :=
    r.stripe = n && r.group = gidx && r.how = how && r.lo = span.1 && r.hi = span.2
  uses.foldl (fun l (n, how) =>
    if l.any (same n how) then l.map fun r => if same n how r then { r with clock := min r.clock clock } else r
    else l ++ [⟨n, gidx, how, clock, span.1, span.2⟩]) l

/-! ### What the groups of a team see of each other's writes (R59, R224) -/

/-- The key under which `Team.views` holds what group `gidx` does not see yet of the writes of interval `n`. -/
def viewKey (n gidx : Nat) : Nat := 16 * n + gidx

/-- The first b0 interval whose writes by other groups a split does not see. -/
def unseen (sp : Split) : Nat := ((Table.find sp.seen 0).getD 0) + 1

/-- The bytes that group `gidx` does not see yet, from interval `n` on: what the earliest interval left stands. -/
def Team.hidden (tm : Team) (n gidx : Nat) : Sparse Byte :=
  (tm.views.filter fun v => v.1 % 16 = gidx && decide (n ≤ v.1 / 16)).foldl (fun m v =>
    v.2.foldl (fun m e => overlayAdd m e.1 [e.2]) m) []

/-- The allocation as group `gidx` sees it, which has seen the writes of the intervals before `n` (R59). -/
def Team.seenBy (tm : Team) (n gidx : Nat) : Sparse Byte :=
  (tm.hidden n gidx).foldl (fun m e => Sparse.set 0 m e.1 e.2) tm.mem

/-- Group `gidx` writes bytes of the allocation in interval `n`: it sees them at once, the others keep what they saw
(R59). -/
def Team.store (tm : Team) (n gidx off : Nat) (bs : List Byte) : Team :=
  let now := Sparse.read 0 tm.mem off bs.length
  let inside (k : Nat) : Bool := decide (off ≤ k) && decide (k < off + bs.length)
  let own : Table (Sparse Byte) := tm.views.map fun v =>
    if v.1 % 16 = gidx then (v.1, v.2.filter fun e => !inside e.1) else v
  let hide (vs : Table (Sparse Byte)) (j : Nat) : Table (Sparse Byte) :=
    if j = gidx then vs
    else Table.put vs (viewKey n j) (overlayAdd ((Table.find vs (viewKey n j)).getD []) off now)
  { tm with
    mem := Sparse.write 0 tm.mem off bs
    views := ((List.range tm.groups.length).foldl hide own).filter fun v => !v.2.isEmpty }

/-- Bytes that group `gidx` sees otherwise than they stand, after it has changed them together with other groups (R61). -/
def Team.veil (tm : Team) (n gidx : Nat) (m : Sparse Byte) (off len : Nat) : Team :=
  if Sparse.read 0 tm.mem off len = Sparse.read 0 m off len then tm
  else
    let v := (Table.find tm.views (viewKey n gidx)).getD []
    { tm with views := Table.put tm.views (viewKey n gidx) (overlayAdd v off (Sparse.read 0 m off len)) }

/-! ### The cluster window -/

/-- Two accesses of one stripe in one epoch that raise RACE (R66). -/
def windowClash (a b : WinAcc) : Bool :=
  (a.window && a.write && !(b.window && b.write)) || (b.window && b.write && !(a.window && a.write)) ||
    (!a.window && a.write && b.window && !b.write) || (!b.window && b.write && a.window && !a.write)

/-- The window-rule accesses of an instruction. An atomic is a write. -/
def windowUses (w : Who) (accs : List Acc) : List WinAcc :=
  (accs.flatMap fun a =>
    (stripesOf a.off a.len).map fun n =>
      (⟨a.team, n, w.team.tidx, w.grp.gidx, a.team ≠ w.team.tidx, a.how ≠ 0, w.team.epoch⟩ : WinAcc)).eraseDups

/-- The RACE that completes a window pair: class 5 cause 2 (R66, R419). (DEDUCED, log 33). -/
def windowRace (w : Who) (uses : List WinAcc) : Option Trap :=
  (uses.findSome? fun u =>
    w.task.win.find? fun r =>
      r.target = u.target && r.stripe = u.stripe && r.epoch = u.epoch &&
        !(r.team = u.team && r.group = u.group) && windowClash r u).map fun r =>
    let a := (r.team, r.group)
    let b := (w.team.tidx, w.grp.gidx)
    let (lo, hi) := if pairLt b a then (b, a) else (a, b)
    { cls := 5, cause := 2, d0 := word r.stripe, d1 := word (lo.1 + hi.1 * 2 ^ 16),
      d2 := word (lo.2 + hi.2 * 2 ^ 16) }

/-! ### Siblings -/

/-- An access as the sibling rules see it: kind, item, how. -/
abbrev SibUse := Nat × Nat × Nat

/-- The scratchpad words an access touches, as kind 3 items: own offsets, or window addresses. An access that stands for
something other than scratchpad lies beyond every allocation and touches none. -/
def sibWords (own : Nat) (a : Acc) : List SibUse :=
  if a.len = 0 ∨ 0x100000 ≤ a.off then []
  else
    let base := if a.team = own then a.off else 0x1000000 + a.team * 0x100000 + a.off
    (List.range ((base + a.len - 1) / 4 - base / 4 + 1)).map fun i => (3, base / 4 + i, a.how)

/-- The uses of an instruction: its uniform registers s4-s1007 (with the guard triple when it reads one),
the items it names, its scratchpad words (R186). (DEDUCED, log 34). -/
def sibUses (w : Who) (i : Instr) (items : List Item) (accs : List Acc) : List SibUse :=
  let shared (l : List Nat) := l.filter fun n => 4 ≤ n && n ≤ 1007
  let g := bits w.grp.mode 13 9
  let guard := if usesGuard i && g ≠ 0 then tripleRegs g else []
  ((shared (uReads i ++ guard)).map fun n => (0, n, 0)) ++ ((shared (writesNow w i)).map fun n => (0, n, 1)) ++
    (items.map fun t => (t.kind, t.item, if t.write then 1 else 0)) ++
    (accs.flatMap (sibWords w.team.tidx))

/-- The live splits of a group other than `x`. -/
def otherSplits (grp : Group) (x : Nat) : List (Nat × Split) :=
  grp.splits.filter fun e => e.1 != x

/-- Two sibling accesses that do not race: both reads, or both atomics without return (R186). -/
def sibCompatible (a b : Nat) : Bool := (a = 0 && b = 0) || (2 ≤ a && 2 ≤ b)

/-- Sibling conflicts in the order in which the lowest is reported: by time, then kind, item and pair.
(DEDUCED, log 34). -/
def SibConflict.before (a b : SibConflict) : Bool :=
  let n (c : SibConflict) : List Nat := [c.clock, c.klane, c.kind, c.item, c.lo, c.hi]
  decide (n a < n b)

/-- The lowest sibling conflict of a group that waits to be reported. -/
def Group.sibRace (grp : Group) : Option SibConflict := leastBy SibConflict.before grp.sibRaces

/-- The siblings of a split that were live at its clock: those that live, and those whose `EXIT` stands at a higher (clock,
key lane). Each is given with its key lane and line (R186: only accesses made while both are live count).
(DEDUCED, log 34). -/
def liveSiblings (w : Who) : List (Nat × Nat × List Nat) :=
  ((otherSplits w.grp w.x).map fun (y, sp) => (y, sp.klane, sp.line)) ++
    ((w.grp.ended.filter fun e => pairLt (w.sp.clock, w.sp.klane) (e.2.2.1, e.2.1)).map fun e => (e.1, e.2.1, e.2.2.2))

/-- The sibling conflicts that the uses complete. The time of one is the later (clock, key lane) of its two accesses.
(DEDUCED, log 34). -/
def sibConflicts (w : Who) (uses : List SibUse) : List SibConflict :=
  uses.flatMap fun u =>
    (w.grp.sib.filter fun r => r.kind = u.1 && r.item = u.2.1 && !sibCompatible r.how u.2.2 &&
        !w.sp.line.contains r.split).flatMap fun r =>
      ((liveSiblings w).filter fun e => e.2.2.contains r.split).map fun (y, klane, _) =>
        let t := pairMax (r.clock, klane) (w.sp.clock, w.sp.klane)
        let mine := decide (w.sp.klane < klane)
        { clock := t.1, klane := t.2, kind := u.1, item := u.2.1
          lo := min klane w.sp.klane, hi := max klane w.sp.klane
          loSplit := if mine then w.x else y, hiSplit := if mine then y else w.x }

/-- The RACE of a sibling conflict: class 5 cause 3 (R187, R419). (DESIGN CHOICE, log 22). -/
def SibConflict.trap (c : SibConflict) : Trap :=
  let item := if c.kind = 3 then word (4 * c.item) else if c.kind = 2 then word (c.item / 128)
    else if c.kind = 0 then word c.item else Config.sharedItem c.kind c.item
  { cls := 5, cause := 3, aux := c.kind, d0 := item, d1 := word (c.lo + c.hi * 2 ^ 16) }

/-- The siblings that have exited with whom an access of some live split may still conflict. -/
def Group.endedNear (grp : Group) : List (Nat × Nat × Nat × List Nat) :=
  grp.ended.filter fun e => grp.splits.any fun p => !p.2.line.contains e.1 && pairLt (p.2.clock, p.2.klane) (e.2.2.1, e.2.1)

/-- Records the uses of a split, keeping the least clock of each; a group with one live split, and none that has exited at
a higher clock, records nothing. -/
def recordSib (grp : Group) (x clock : Nat) (uses : List SibUse) : Group :=
  let grp := { grp with ended := grp.endedNear }
  if (otherSplits grp x).isEmpty && grp.ended.isEmpty then { grp with sib := [] }
  else
    let same (u : SibUse) (r : SibAcc) : Bool := r.split = x && r.kind = u.1 && r.item = u.2.1 && r.how = u.2.2
    { grp with
      sib := uses.foldl (fun l u =>
        if l.any (same u) then l.map fun r => if same u r then { r with clock := min r.clock clock } else r
        else l ++ [⟨x, u.1, u.2.1, u.2.2, clock⟩]) grp.sib }

/-- The split of a group that continues the program order of split `x`. -/
def heirOf (grp : Group) (x : Nat) : Option Nat :=
  if (Table.find grp.splits x).isSome then some x
  else (grp.splits.find? fun e => e.2.line.contains x).map (·.1)

/-! ### The report of a conflict (R187, R223) -/

/-- A split stalls at a team barrier that stands two phases behind it (R230). -/
def Split.atBarrier (sp : Split) : Bool :=
  match sp.mode with
  | .stalled _ => sp.clause.any fun c => match slotInstr c with | some (.bara _) => true | some (.bar _) => true | _ => false
  | _ => false

/-- A split does not stand in the way of reporting a conflict at time `t`, by `place` its second part: it is at or above
it, or waits for other agents. (DEDUCED, log 33). -/
def passedConflict (t : Nat × Nat) (place : Nat) (sp : Split) : Bool :=
  !pairLt (sp.clock, place) t || sp.atBarrier || sp.claims ||
    (match sp.mode with
     | .recon _ | .bar .. | .kbar .. | .phaser .. | .parked | .raced => true
     | _ => false)

/-- The agent key of key lane `lane` in the group of index `gidx` of a team (R28). -/
def keyIn (k : Task) (tm : Team) (gidx lane : Nat) : Nat :=
  taskKey k * 2 ^ 32 + (tm.tidx * tm.groups.length + gidx) * 2 ^ 16 + lane

/-- The (clock, agent key) at which a stripe conflict, a sibling conflict of a group, is an event of its task (R302).
(DEDUCED, log 33). -/
def Conflict.event (c : Conflict) (k : Task) (tm : Team) : Nat × Nat := (c.clock, keyIn k tm c.gidx 0)
def SibConflict.event (c : SibConflict) (k : Task) (tm : Team) (gidx : Nat) : Nat × Nat := (c.clock, keyIn k tm gidx c.klane)

/-- Where the conflict that keeps a split from retiring stands in the order of events. -/
def racePlace (v : Who) : Nat × Nat :=
  let found := (v.team.conflict.map fun c => c.event v.task v.team).toList ++
    (v.grp.sibRace.map fun c => c.event v.task v.team v.grp.gidx).toList
  (leastBy pairLt found).getD (v.sp.clock, agentKey v)

/-- A split does not stand in the way of an event at (clock, key): it stands above it, or waits for other agents; one that
a conflict stops is an event itself (R302). (DEDUCED, log 61). -/
def clearOf (place : Nat × Nat) (v : Who) : Bool :=
  pairLt place (v.sp.clock, agentKey v) || v.sp.atBarrier ||
    (match v.sp.mode with
     | .recon _ | .bar .. | .kbar .. | .commit _ | .phaser .. | .parked => true
     | .raced => pairLt place (racePlace v)
     | _ => false)

/-- The live group of a team with an index. -/
def liveGroup (s : State) (t gidx : Nat) : Option (Nat × Group) :=
  s.groups.find? fun (_, grp) => grp.team = t && grp.gidx = gidx && !grp.exited

/-- The split of a group with the lowest key lane. -/
def lowestSplit (grp : Group) : Option (Nat × Split) :=
  leastBy (fun a b => decide (a.2.klane < b.2.klane)) grp.splits

/-- A conflict that is an event at `place` may be reported as far as the rest of its task is concerned: the task is rooted,
or no split of it that `mine` does not name stands in the way (R302). -/
def turnOfTask (s : State) (task : Nat) (place : Nat × Nat) (mine : Nat → Group → Bool) : Bool :=
  (match Table.find s.tasks task with | some k => k.rooted.isSome | none => true) ||
    (taskSplits s task).all fun (g, x, _) =>
      match whoOf s g x with
      | some v => mine g v.grp || clearOf place v
      | none => true

/-- The splits of a group that a conflict stopped may go on. -/
def Group.freeRaced (grp : Group) : Group :=
  { grp with splits := grp.splits.map fun (x, sp) => (x, if sp.mode = .raced then { sp with mode := .ready } else sp) }

/-- Reports a team's lowest stripe conflict once every group below its time has reached it or waits: RACE is raised in
the lower group of the pair at its halt point, or, when that group has ended, in the other. -/
def settleStripes (s : State) (t : Nat) : State :=
  match Table.find s.teams t with
  | none => s
  | some tm =>
    match tm.conflict with
    | none => s
    | some c =>
      let passed := (teamSplits s t).all fun (g, _, sp) =>
        match Table.find s.groups g with
        | some grp => passedConflict (c.clock, c.gidx) grp.gidx sp
        | none => true
      let turn := match Table.find s.tasks tm.task with
        | some k => turnOfTask s tm.task (c.event k tm) fun _ grp => grp.team = t
        | none => true
      if tm.halted || !passed || !turn then s
      else
        let s := updTeam s t fun tm => { tm with conflict := none }
        let s := { s with groups := s.groups.map fun (g, grp) =>
          if grp.team = t then (g, if grp.sibRace.isNone then grp.freeRaced else grp) else (g, grp) }
        let tr : Trap := { cls := 5, cause := 1, d0 := word c.stripe, d1 := word (c.lo + c.hi * 2 ^ 16) }
        match (liveGroup s t c.lo).orElse fun _ => liveGroup s t c.hi with
        | some (g, grp) =>
          match if g = c.group then heirOf grp c.split else (lowestSplit grp).map (·.1) with
          | some x => takeTrap s g x tr
          | none => s
        | none => s

/-- Reports a group's lowest sibling conflict likewise: RACE is raised in the split of the pair with the lower key, or,
when that split has ended, in the other (R187). (DEDUCED, log 33). -/
def settleSiblings (s : State) (g : Nat) : State :=
  match Table.find s.groups g with
  | none => s
  | some grp =>
    match grp.sibRace with
    | none => s
    | some c =>
      let turn := match Table.find s.tasks grp.task, Table.find s.teams grp.team with
        | some k, some tm => turnOfTask s grp.task (c.event k tm grp.gidx) fun h _ => h = g
        | _, _ => true
      if grp.halted || !(grp.splits.all fun (_, sp) => passedConflict (c.clock, c.klane) sp.klane sp) ||
          !turn then s
      else
        let s := updGroup s g fun grp => { grp.freeRaced with sibRaces := [] }
        match (heirOf grp c.loSplit).orElse fun _ => heirOf grp c.hiSplit with
        | some x => takeTrap s g x c.trap
        | none => s

/-- Reports the conflicts of a team and of its groups that are due. -/
def settleRace (s : State) (t : Nat) : State :=
  let gs := s.groups.filterMap fun (g, grp) => if grp.team = t && !grp.exited then some g else none
  gs.foldl settleSiblings (settleStripes s t)

/-- A split's access at its clock lies below the time of a conflict, so that the split runs on (R223).
(DEDUCED, log 33). -/
def runsOn (t : Nat × Nat) (place : Nat) (sp : Split) : Bool := pairLt (sp.clock, place) t

/-- The lower of a team's pending stripe conflict and a new one. -/
def lowerStripe (old : Option Conflict) (k : Conflict) : Conflict :=
  match old with
  | some j =>
    if pairLt (k.clock, k.gidx) (j.clock, j.gidx) || ((k.clock, k.gidx) = (j.clock, j.gidx) && decide (k.stripe < j.stripe))
    then k else j
  | none => k

/-- The sibling that a split of the pair conflicts with, and whether the later access is that sibling's: the conflict does not
count when split `x` has exited before it (R186). -/
def SibConflict.past (c : SibConflict) (line : List Nat) (klane exit : Nat) : Bool :=
  ((line.contains c.loSplit && c.klane = c.hi) || (line.contains c.hiSplit && c.klane = c.lo)) &&
    !pairLt (c.clock, c.klane) (exit, klane)

/-- A split of a group has exited: it is kept for the accesses of siblings at lower clocks, and the conflicts that it does
not live to see are dropped, so that those they stopped try again (R186). (DEDUCED, log 34). -/
def Group.sibExit (grp : Group) (x : Nat) (sp : Split) : Group :=
  let grp := { grp with ended := grp.ended ++ [(x, sp.klane, sp.clock, sp.line)] }
  let grp := { grp with ended := grp.endedNear }
  if grp.sibRaces.any fun c => c.past sp.line sp.klane sp.clock then
    { grp with sibRaces := grp.sibRaces.filter fun c => !c.past sp.line sp.klane sp.clock }.freeRaced
  else grp

/-- A split may not end while a conflict waits that would be left with no group, or no split, to be reported in.
(DEDUCED, log 33). -/
def keepsPair (s : State) (w : Who) : Bool :=
  (match w.team.conflict with
   | some c =>
     (w.grp.gidx = c.lo && (liveGroup s w.grp.team c.hi).isNone) ||
       (w.grp.gidx = c.hi && (liveGroup s w.grp.team c.lo).isNone)
   | none => false) ||
    (let rest := { w.grp with splits := Table.del w.grp.splits w.x }
     (w.grp.sibRaces.filter fun c => !c.past w.sp.line w.sp.klane w.sp.clock).any fun c =>
       (heirOf rest c.loSplit).isNone && (heirOf rest c.hiSplit).isNone)

/-! ### The ranges of a collective (R398, R399) -/

/-- Bytes of an element of a format code. -/
def collSize (fmt : Nat) : Nat := if fmt < 2 then 4 else 2

/-- Fields of a COLL block: op, fmt, bar, rec, bytes. -/
def collBytes (b : List Word) : Nat := (b.getD 4 0).toNat * collSize (bits (b.getD 0 0) 6 4)

/-- The local ranges that a collective's block has it write: DST, and REC when it is named. -/
def collWrites (b : List Word) : List (Nat × Nat) :=
  ((b.getD 3 0).toNat, collBytes b) :: if bit (b.getD 0 0) 12 then [((b.getD 5 0).toNat, 132)] else []

/-- Those of a placed block that lie in the own allocation. (DEDUCED, log 81). -/
def collRanges (b : List Word) : List (Nat × Nat) := (collWrites b).filter fun r => decide (r.1 < 0x100000)

/-- A group of the team reaches DST or REC of a collective before its wait on the phase that the result completes
(R399): the address. (DEDUCED, log 81). -/
def collTouched (w : Who) (accs : List Acc) : Option Nat :=
  let open' := w.team.colls.filter fun c =>
    decide ((Table.find w.sp.seen (bits (c.block.getD 0 0) 11 8)).getD 0 < c.phase)
  accs.findSome? fun a =>
    if a.team = w.team.tidx && open'.any fun c => (collRanges c.block).any fun r => (decide (a.off < r.1 + r.2) && decide (r.1 < a.off + a.len))
    then some a.off else none

/-! ### The split table and the split stack (R181) -/

/-- The lowest free entry of the split table. -/
def freeEntry (grp : Group) : Option Nat :=
  [0, 1, 2, 3].find? fun e => !(grp.splits.any fun p => p.2.entry = some e)

/-- A split whose wait gives up its entry while the split stack is not empty. -/
def Split.yields (sp : Split) : Bool :=
  match sp.mode with
  | .commit _ | .bar .. | .kbar .. | .phaser .. => true
  | _ => false

/-- A split whose wait always gives up its entry. -/
def Split.leaves (sp : Split) : Bool :=
  match sp.mode with | .recon _ | .parked => true | _ => false

/-- Fills free entries from the split stack, topmost split able to issue first. -/
def fillEntries : Nat → Group → Group
  | 0, grp => grp
  | n + 1, grp =>
    match freeEntry grp with
    | none => grp
    | some e =>
      match grp.stack.find? fun x =>
        match Table.find grp.splits x with
        | some sp => !sp.yields && !sp.leaves
        | none => false with
      | none => grp
      | some x =>
        fillEntries n { grp with
          stack := grp.stack.filter (· != x)
          splits := Table.upd grp.splits x fun sp => { sp with entry := some e } }

/-- Seats a split that can issue and has no entry: the lowest free one, or the top of the split stack. -/
def seatSplit (grp : Group) (x : Nat) : Group :=
  match Table.find grp.splits x with
  | none => grp
  | some sp =>
    if sp.entry.isSome || sp.yields || sp.leaves || grp.stack.contains x then grp
    else
      match freeEntry grp with
      | some e => { grp with splits := Table.upd grp.splits x fun sp => { sp with entry := some e } }
      | none => { grp with stack := x :: grp.stack }

/-- Entries free whose splits wait, those that wait for a commit or a barrier only while the split stack is not empty, and
are filled from the stack. -/
def yieldEntries (grp : Group) : Group :=
  let waits := !grp.stack.isEmpty
  fillEntries 4 { grp with splits := grp.splits.map fun (x, sp) =>
    (x, if sp.leaves || (waits && sp.yields) then { sp with entry := none } else sp) }

/-- Moves entries as R181 says after any change of a group's splits; splits that come onto the stack make waiting ones give
up their entries in turn. -/
def reseat (grp : Group) : Group :=
  let grp := yieldEntries { grp with stack := grp.stack.filter fun x => (Table.find grp.splits x).isSome }
  yieldEntries ((Table.keys grp.splits).foldl seatSplit grp)

/-- A wait that `p` names ends for a split: its clock rises to `t` (R42). -/
def relSplit (p : Mode → Bool) (t : Nat) (sp : Split) : Split :=
  if p sp.mode || sp.saved.any p then
    { sp with
      clock := max sp.clock t
      mode := if p sp.mode then .ready else sp.mode
      saved := if sp.saved.any p then none else sp.saved }
  else sp

/-- A split waits for what `p` names. -/
def Split.waits (p : Mode → Bool) (sp : Split) : Bool := p sp.mode || sp.saved.any p

/-- Ends a wait for every split of the groups that `sel` names. -/
def releaseWhere (s : State) (sel : Group → Bool) (p : Mode → Bool) (t : Nat) : State :=
  { s with groups := s.groups.map fun (g, grp) =>
      if sel grp && grp.splits.any fun e => e.2.waits p then
        (g, reseat { grp with splits := grp.splits.map fun (x, sp) => (x, relSplit p t sp) })
      else (g, grp) }

/-- Every split that waits for physical work may try again. (DESIGN CHOICE, log 40). -/
def wakeStalled (s : State) : State :=
  releaseWhere s (fun _ => true) (fun m => match m with | .stalled _ => true | _ => false) 0

end Sys2Proof.Machine
end

