-- ==== Sys2Proof/Machine/Commands.lean ====
section
/-!
DEFINITION. Commands in flight and uncommitted effects: logical times (01_engines R40), flags and results of
completed commands (02_encoding R76, R79; 04_issue_engine R159, R177), and the team barriers
(05_lane_engine R227-R230).
-/

namespace Sys2Proof.Machine

/-! ### Effects and logical times -/

/-- An effect of the issuing agent, next in program order. -/
def emit (s : State) (w : Who) (time : Option Nat) (cmd : Nat) (body : EffBody) : State :=
  { s with
    prog := s.prog + 1
    effects := s.effects ++
      [{ dom := w.launch.dom, launch := w.task.launch, task := w.grp.task, team := w.grp.team, group := w.g,
         split := w.x, key := agentKey w, prog := s.prog, cmd, time, line := w.sp.line
         insn := match w.sp.clause with | some c => c.words.getD c.idx 0 | none => 0
         body }] }

/-- The live splits of a group that continue the program order of split `x`. -/
def heirs (s : State) (g x : Nat) : Table Split :=
  match Table.find s.groups g with
  | some grp => if grp.exited then [] else grp.splits.filter fun e => e.2.line.contains x
  | none => []

/-- A completed command with nothing left to do: its logical time is fixed, and no agent that continues its issuer stands
below that time (R40). (DEDUCED, log 118). -/
def spent (s : State) (c : Cmd) : Bool :=
  c.finished && c.time.any fun t => (heirs s c.group c.split).all fun e => decide (t ≤ e.2.clock)

/-- Bytes of a team's allocation change by a command of group index `gidx`, in the b0 interval that is open (R59, R222). -/
def landOwn (s : State) (t gidx off : Nat) (bs : List Byte) : State :=
  updTeam s t fun tm => tm.store (((Table.find tm.bars 0).map (·.done)).getD 0 + 1) gidx off bs

/-- The index of a group in its team. -/
def indexOf (s : State) (g : Nat) : Nat := ((Table.find s.groups g).map (·.gidx)).getD 0

/-- Drops the commands with nothing left to do. -/
def pruneCmds (s : State) : State := { s with cmds := s.cmds.filter fun e => !spent s e.2 }

/-- The stripes of a command's local ranges, as accesses of group index `gidx` in one b0 interval (R222). -/
def Cmd.stripes (c : Cmd) (gidx n : Nat) : List StripeAcc :=
  let add (how : Nat) (l : List (Nat × Nat)) : List StripeAcc :=
    l.flatMap fun (a, len) => (stripesOf a len).map fun k => ⟨k, gidx, how, c.clock, n, n⟩
  add 0 c.reads ++ add 1 c.writes

/-- The issuer reaches what fixes the logical time of the commands that `p` names, among those that agents of its line
issued: the first of the agents that continue a command's issuer counts, by logical clock. Their effects take the time, and
their accesses count up to the b0 interval that it may lie in (R40, R222). (DEDUCED, log 118). -/
def fixTimes (s : State) (w : Who) (p : Cmd → Bool) : State :=
  let t := w.sp.clock
  let hit := s.cmds.filter fun (_, c) =>
    c.group = w.g && (c.time.all fun u => decide (t < u)) && w.sp.line.contains c.split && p c
  if hit.isEmpty then s
  else
    let ids := Table.keys hit
    let last := (b0Span w.sp).2
    let s := updTeam s w.grp.team fun tm =>
      { tm with stripes := tm.stripes ++
          ((hit.filter fun e => e.2.time.isNone).flatMap fun e => e.2.stripes w.grp.gidx last).filter fun r =>
            !tm.stripes.contains r }
    pruneCmds { s with
      cmds := s.cmds.map fun (n, c) => if ids.contains n then (n, { c with time := some t }) else (n, c)
      effects := s.effects.map fun e => if e.cmd ≠ 0 && ids.contains e.cmd then { e with time := some t } else e }

/-- A new command in flight: its number and the state. -/
def newCmd (s : State) (c : Cmd) : Nat × State :=
  (s.fresh, { s with fresh := s.fresh + 1, cmds := Table.put s.cmds s.fresh c })

/-! ### Flags and results -/

/-- A completed long-latency operation lowers its flag (R76); splits that wait for it try again. -/
def lowerFlag (s : State) (g f : Nat) : State :=
  wakeStalled (updGroup s g fun grp => { grp with flags := Sparse.set 0 grp.flags f (flagCount grp f - 1) })
where
  /-- Counter `f` of a group. -/
  flagCount (grp : Group) (f : Nat) : Nat := Sparse.get 0 grp.flags f

/-- The splits that take a command's results and still live (R177). -/
def takers (s : State) (c : Cmd) : Table Split :=
  match Table.find s.groups c.group with
  | some grp => if grp.exited then [] else grp.splits.filter fun e => c.into.contains e.1
  | none => []

/-- A uniform register that the splits of a group share. -/
def sharedReg (n : Nat) : Bool := decide (4 ≤ n) && decide (n < 1008)

/-- What the registers of results hold in a group: of a uniform register that its splits share, and of lanes. -/
def Group.before (grp : Group) (outs : List (Nat × Nat × Nat × Word)) : List (Nat × Nat × Nat × Word) :=
  outs.filterMap fun o =>
    if o.1 = 0 && sharedReg o.2.1 then some (0, o.2.1, 0, Sparse.get 0 grp.u o.2.1)
    else if o.1 = 1 then some (1, o.2.1, o.2.2.1, laneRead grp o.2.1 o.2.2.1)
    else none

/-- Registers whose results no waiting clause has made usable yet keep what they held (R79, R177). -/
def Group.keep (grp : Group) (outs : List (Nat × Nat × Nat × Word)) : Group :=
  let same (k o : Nat × Nat × Nat × Word) : Bool := k.1 = o.1 && k.2.1 = o.2.1 && k.2.2.1 = o.2.2.1
  { grp with kept := grp.kept ++ (grp.before outs).filter fun o => !grp.kept.any fun k => same k o }

/-- A kept register, or lane of one, is among the destinations `ps` of a split. -/
def keptOf (ps : List Pend) (sp : Split) (k : Nat × Nat × Nat × Word) : Bool :=
  (ps.any fun p => p.kind = k.1 && p.reg = k.2.1) && (k.1 = 0 || sp.lanes.getLsbD k.2.2.1)

/-- The results of the destinations `ps` of a split are usable: nothing is kept for them. -/
def Group.usable (grp : Group) (sp : Split) (ps : List Pend) : Group :=
  { grp with kept := grp.kept.filter fun k => !keptOf ps sp k }

/-- The results that split `x` has not waited for are discarded, whether they have been written or not: its lanes, and the
uniform registers that are pending for no other split, hold again what they held (R177, R235). (DEDUCED, log 17). -/
def Group.giveBack (grp : Group) (x : Nat) (sp : Split) : Group :=
  let other (k : Nat × Nat × Nat × Word) : Bool := (otherSplits grp x).any fun e =>
    e.2.pend.any fun p => p.kind = k.1 && p.reg = k.2.1
  let back := grp.kept.filter fun k => keptOf sp.pend sp k && (k.1 = 1 || !other k)
  let grp := { grp with kept := grp.kept.filter fun k => !back.contains k }
  back.foldl (fun grp k =>
    if k.1 = 0 then { grp with u := Sparse.set 0 grp.u k.2.1 k.2.2.2 }
    else vecWrite grp k.2.1 (fun l => l = k.2.2.1) fun _ => k.2.2.2) grp

/-- Writes the results of a completed command, each a kind (0 a uniform register, 1 a lane of a vector register, 2 the
lane's `%fps` flags), a register, a lane and a value, to the splits that take them, the results of lanes by the split that
holds the lane (R159, R233, R234). (DEDUCED, log 17). -/
def deliver (s : State) (c : Cmd) (outs : List (Nat × Nat × Nat × Word)) : State :=
  let to' := takers s c
  let held (l : Nat) : Bool := to'.any fun e => e.2.lanes.getLsbD l
  let s := if to'.isEmpty then s
    else updGroup s c.group fun grp => grp.keep (outs.filter fun o => o.1 ≠ 1 || held o.2.2.1)
  let s := (outs.filter fun o => o.1 = 0).foldl (fun s o =>
    (if sharedReg o.2.1 then to'.take 1 else to').foldl (fun s e => groupWrite s c.group e.1 o.2.1 o.2.2.2) s) s
  let vs := outs.filter fun o => o.1 = 1 && held o.2.2.1
  let s := if vs.isEmpty then s else updGroup s c.group fun grp =>
    ((vs.map fun o => o.2.1).eraseDups).foldl (fun grp v =>
      let ls := (vs.filter fun o => o.2.1 = v).map fun o => (o.2.2.1, o.2.2.2)
      vecWrite grp v (fun l => (Table.find ls l).isSome) fun l => (Table.find ls l).getD 0) grp
  let fs := outs.filter fun o => o.1 = 2
  if fs.isEmpty then s else to'.foldl (fun s e =>
    updSplit s c.group e.1 fun sp =>
      { sp with fps := (fs.filter fun o => sp.lanes.getLsbD o.2.2.1).foldl (fun f o => f ||| o.2.2.2) sp.fps }) s

/-- Ends a command: its results are written and its flag falls (R76, R159). That the destinations stay pending until a
wait is R79. (DEDUCED, log 17). -/
def finishCmd (s : State) (id : Nat) (c : Cmd) (outs : List (Nat × Nat × Nat × Word)) : State :=
  if c.finished then s
  else pruneCmds (updCmd (lowerFlag (deliver s c outs) c.group c.flag) id fun c => { c with finished := true })

/-- The results of consecutive uniform registers. -/
def uniformOuts (n : Nat) (vs : List Word) : List (Nat × Nat × Nat × Word) :=
  ((List.range vs.length).zip vs).map fun (i, v) => (0, n + i, 0, v)

/-- The results of lanes of a vector register. -/
def laneOuts (v : Nat) (ls : List (Nat × Word)) : List (Nat × Nat × Nat × Word) := ls.map fun (l, x) => (1, v, l, x)

/-! ### Team barriers (R227-R230) -/

/-- A barrier's configuration at team start: every group takes part, cp 0 (R227). -/
def barReset (tm : Team) : Bar := { cfg := word (2 ^ tm.groups.length - 1) }

/-- Barrier `b` of a team. -/
def barOf (tm : Team) (b : Nat) : Bar := (Table.find tm.bars b).getD (barReset tm)

/-- Changes a barrier. -/
def updBar (s : State) (t b : Nat) (f : Bar → Bar) : State :=
  updTeam s t fun tm => { tm with bars := Table.put tm.bars b (f (barOf tm b)) }

/-- A pair list's value for a key, 0 when it has none. -/
def pairGet (l : List (Nat × Nat)) (k : Nat) : Nat := (Table.find l k).getD 0

/-- Raises a pair list's value for a key to at least `v`. (DEDUCED, log 41). -/
def pairMaxSet (l : List (Nat × Nat)) (k v : Nat) : List (Nat × Nat) := Table.put l k (max v (pairGet l k))

/-- The largest arrival clock of the phases of a barrier up to `p` (R42, R230). -/
def barClock (k : Bar) (p : Nat) : Nat := ((k.clocks.filter fun e => decide (e.1 ≤ p)).map (·.2)).foldl max 0

/-- The arrivals that a group has made: those that each of its live splits has made or inherited (R229). -/
def groupArrivals (grp : Group) (b : Nat) : Nat :=
  match grp.splits.map fun (_, sp) => pairGet sp.arr b with
  | [] => 0
  | n :: ns => ns.foldl min n

/-- The live groups of a team that take part in a barrier. -/
def barGroups (s : State) (t : Nat) (cfg : Word) : List (Nat × Group) :=
  s.groups.filter fun (_, grp) => grp.team = t && !grp.exited && bit cfg grp.gidx

/-- Phase `done + 1` of a barrier can complete (R229). -/
def barReady (s : State) (t : Nat) (b : Nat) (k : Bar) : Bool :=
  let gs := barGroups s t k.cfg
  let p := k.done + 1
  (!gs.isEmpty || k.clocks.any fun e => e.1 = p) &&
    gs.all (fun (_, grp) => decide (p ≤ groupArrivals grp b)) && !(k.cmds.any fun e => e.1 = p)

/-- The lowest-key split of group 0 of a team, when it lives. -/
def groupZero (s : State) (t : Nat) : Option (Nat × Nat) :=
  match liveGroup s t 0 with
  | some (g, grp) => (lowestSplit grp).map fun (x, _) => (g, x)
  | none => none

/-- BOUNDS cause barrier configuration. -/
def barCfgTrap (v : Word) : Trap := { cls := 4, cause := 11, d0 := v }

/-- A team's allocation size as last set (R315). -/
def lastSize (s : State) (tm : Team) : Nat :=
  match tm.groups.findSome? fun g => (Table.find s.groups g).bind fun grp =>
      if grp.size ≠ tm.size then some grp.size else none with
  | some n => n
  | none => tm.size

/-- The first b0 interval that an access still to come of a team's group may belong to. -/
def firstOpen (s : State) (t : Nat) (p : Split → Nat) (sel : Group → Bool) (d : Nat) : Nat :=
  ((teamSplits s t).filterMap fun (g, _, sp) =>
    match Table.find s.groups g with
    | some grp => if sel grp then some (p sp) else none
    | none => none).foldl min d

/-- What the completion of phase `p` of b0 does (R59, R222, R224, R228, R315, R265): the records of the intervals that no
access to come may belong to clear, the ranges of commands whose logical time is still open count in the interval that
begins, writes become visible, the other groups see the size and the schedule, and configurations take effect.
(DEDUCED, log 115). (DEDUCED, log 116). -/
def b0Completed (s : State) (t p : Nat) : State :=
  let engine := (s.cmds.filter fun (_, c) => c.team = t && c.time.isNone).flatMap fun (_, c) =>
    c.stripes (indexOf s c.group) (p + 1)
  let first := firstOpen s t (fun sp => (b0Span sp).1) (fun _ => true) (p + 1)
  let s := updTeam s t fun tm =>
    { tm with
      stripes := ((tm.stripes.filter fun r => decide (first ≤ r.hi)) ++ engine).eraseDups
      views := tm.views.filter fun v =>
        decide (firstOpen s t unseen (fun grp => grp.gidx = v.1 % 16) (p + 1) ≤ v.1 / 16)
      interval := tm.interval + 1
      size := lastSize s tm
      sched := tm.sched.map fun c =>
        { c with view := [word c.released, word c.round, word c.stage, flagWord c.active] } }
  let s := match Table.find s.teams t with
    | some tm => { s with groups := s.groups.map fun (g, grp) =>
        if grp.team = t then (g, { grp with size := tm.size }) else (g, grp) }
    | none => s
  (List.range 16).foldl (fun s b =>
    match Table.find s.teams t with
    | none => s
    | some tm =>
      let k := barOf tm b
      let s := if (Table.find tm.bars b).isSome then updBar s t b fun k => { k with touched := false, next := none } else s
      match k.next with
      | none => s
      | some v =>
        if decide (k.done < k.arrived) || (!bit v 16 && decide (k.done < k.named)) then
          match groupZero s t with
          | some (g, x) => raise s g x (barCfgTrap v)
          | none => s
        else updBar s t b fun k => { k with cfg := v }) s

/-- Completes the phases of a barrier that can complete; `fuel` bounds how many. -/
def barSettle : Nat → State → Nat → Nat → State
  | 0, s, _, _ => s
  | fuel + 1, s, t, b =>
    match Table.find s.teams t with
    | none => s
    | some tm =>
      let k := barOf tm b
      if !barReady s t b k then s
      else
        let p := k.done + 1
        let clock := barClock k p
        let s := updBar s t b fun k => { k with done := p }
        let s := if b = 0 then b0Completed s t p else s
        let s := releaseWhere s (fun grp => grp.team = t)
          (fun m => match m with | .bar b' p' => b' = b && decide (p' ≤ p) | _ => false) clock
        barSettle fuel (wakeStalled s) t b

/-- Every barrier of a team after a change of its groups or commands. -/
def barSettleAll (s : State) (t : Nat) : State :=
  (List.range 16).foldl (fun s b => barSettle 4 s t b) s

/-- The phase that a command issued now belongs to (R229). -/
def cmdPhase (grp : Group) (b : Nat) : Nat := groupArrivals grp b + 1

/-- A command names barrier `b`: it belongs to a phase and counts as an arrival at the issuer's clock after the
command retired (R42, R229). -/
def barAddCmd (s : State) (w : Who) (b id : Nat) : State :=
  let p := cmdPhase w.grp b
  updBar s w.grp.team b fun k =>
    { k with cmds := k.cmds ++ [(p, id)], named := max k.named p, clocks := pairMaxSet k.clocks p (w.sp.clock + 1) }

/-- A command that named a barrier has completed, or is cancelled. -/
def barEndCmd (s : State) (t id : Nat) : State :=
  match Table.find s.teams t with
  | none => s
  | some tm =>
    match tm.bars.find? fun e => e.2.cmds.any fun c => c.2 = id with
    | none => s
    | some (b, _) =>
      barSettle 4 (updBar s t b fun k => { k with cmds := k.cmds.filter fun c => c.2 != id }) t b

end Sys2Proof.Machine
end

