-- ==== Sys2Proof/Machine/Slot.lean ====
section
/-!
DEFINITION. Issuing one slot: the checks in the order of R438, the long-latency flag and pending destinations
(02_encoding R76, R79), retirement and the logical clock (01_engines R32, R38), and the same on a control core
(13_control_core R405, R416).
-/

namespace Sys2Proof.Machine

/-- How a retired slot continues: with the next slot, at a clause header, by closing its quantum (R38), by
waiting after it has retired, or not at all. -/
inductive Flow where
  | next
  | jump (target : Nat)
  | close
  | wait (m : Mode)
  | gone

/-- One access that a watch comparator sees: global or local, address, bytes, read, write, and what it belongs to (R437,
R438): a lane or position below 96, `noLane`, `listPos`, or a row. -/
structure Look where
  isGlobal : Bool
  addr : Nat
  len : Nat
  rd : Bool
  wr : Bool
  pos : Nat
  deriving DecidableEq, Repr

/-- An access that belongs to no lane. -/
def noLane : Nat := 96

/-- An access to the index list of a `GATH` or `SCAT`, which belongs to no position. -/
def listPos : Nat := 97

/-- An access of row `n` of a `CPY` or `CPY2`. -/
def rowPos (n : Nat) : Nat := 128 + n

/-- What a slot that passed its own checks does: the state with its effects, its accesses for the sharing
rules and the comparators, its continuation, what follows retirement, and the destinations that a
long-latency slot leaves pending when they differ from its fields' (R253). -/
structure Out where
  s : State
  accs : List Acc := []
  items : List Item := []
  looks : List Look := []
  flow : Flow := .next
  post : State → State := id
  pends : Option (List (Nat × Nat)) := none

/-- What an instruction's own checks and effect come to. -/
inductive Res where
  | ok (o : Out)
  | trap (t : Trap)
  | exhaust (cause : Nat)
  /-- The slot waits for physical work, with the reason of R190. -/
  | stall (reason : Nat)
  /-- The slot waits for a barrier phase before it can count its own (R230). -/
  | barrier (reason : Nat)
  /-- The slot waits for scratchpad or vector budget, and no new team is placed there meanwhile (R315, R316). -/
  | claim
  /-- The slot waits for its turn in the logical order of an unrooted task (R301, R302). -/
  | turn (h : Held)
  /-- The slot first closes the quantum and then issues (R39). -/
  | closeFirst
  /-- The slot waits for space in its context's areas (R428). -/
  | full
  | stop (f : Fault)

/-- An instruction that only changes the state. -/
def Res.done (s : State) : Res := .ok { s := s }

/-- Carries a body's check. -/
def Res.bind {α : Type} (x : Except Trap α) (f : α → Res) : Res :=
  match x with
  | .ok a => f a
  | .error t => .trap t

/-! ### Comparators (R435-R438) -/

/-- The comparator set of a core. -/
def compsOf (s : State) (die core : Nat) : Comparators := (Table.find s.comps (die * 128 + core)).getD {}

/-- A PC comparator matches the next slot (R436). (DEDUCED, log 101). -/
def pcMatch (w : Who) (c : Clause) (ws : List Word) : Bool :=
  let x := ws.getD 0 0
  let off := (ws.getD 1 0).toNat
  bit x 0 && bits x 15 10 = 0 && off % 4 = 0 && (bit x 5 || bits x 4 1 = w.launch.ctx) &&
    bit x (6 + bits (recWord w.task.words 4) 1 0) && bit x (16 + w.grp.gidx) &&
    (off = c.slotOff || (off = c.off && c.idx = 0))

/-- The stop of a PC comparator, if one matches. (DEDUCED, log 26). -/
def pcHit (s : State) (w : Who) (c : Clause) : Option Trap :=
  if w.sp.skipPc || w.sp.step then none
  else
    ((compsOf s w.team.die w.team.core).pc.find? fun e => pcMatch w c e.2).map fun e =>
      { cls := 12, cause := 1, d0 := word e.1 }

/-- The range of a watch comparator. -/
def watchRange (isGlobal : Bool) (ws : List Word) : Nat × Nat :=
  let n (i : Nat) := (ws.getD i 0).toNat
  if isGlobal then (n 1 + bits (ws.getD 2 0) 23 0 * 2 ^ 32, n 3 + bits (ws.getD 4 0) 23 0 * 2 ^ 32)
  else (n 1, n 2)

/-- A watch comparator is armed for the group and well-formed (R437). -/
def watchArmed (isGlobal : Bool) (w : Who) (ws : List Word) : Bool :=
  let x := ws.getD 0 0
  bit x 0 && bits x 15 8 = 0 && (bit x 7 || bits x 6 3 = w.launch.ctx) && bit x (16 + w.grp.gidx) &&
    (!isGlobal || (bits (ws.getD 2 0) 31 24 = 0 && bits (ws.getD 4 0) 31 24 = 0))

/-- The bytes of an access lie partly in a watch comparator's range. (DEDUCED, log 101). -/
def watchMatch (ws : List Word) (l : Look) : Bool :=
  let x := ws.getD 0 0
  let r := watchRange l.isGlobal ws
  ((bit x 1 && l.rd) || (bit x 2 && l.wr)) && decide (max l.addr r.1 < min (l.addr + l.len) r.2)

/-- The stop of a watch comparator, global ones first (R438, R439). -/
def watchHit (s : State) (w : Who) (looks : List Look) : Option Trap :=
  if w.sp.skipWatch || w.sp.step || looks.isEmpty then none
  else
    let cs := compsOf s w.team.die w.team.core
    let try' (isGlobal : Bool) (set : Sparse (List Word)) : Option Trap :=
      set.findSome? fun (n, ws) =>
        let hits := looks.filter fun l => l.isGlobal == isGlobal && watchMatch ws l
        if !watchArmed isGlobal w ws then none
        else
          (leastBy (fun a b => decide (a.addr < b.addr)) hits).map fun l =>
            let lo := max l.addr (watchRange isGlobal ws).1
            let rows := (hits.filter fun h => decide (rowPos 0 ≤ h.pos)).map fun h => h.pos - rowPos 0
            { cls := 12, cause := if isGlobal then 2 else 3
              lanes := if !rows.isEmpty then some 0 else if hits.all fun h => h.pos = noLane then none
                else some (maskFrom fun k => hits.any fun h => h.pos = k)
              d0 := word n, d1 := word lo
              d2 := match rows with | r :: rs => word (rs.foldl min r) | [] => 0 }
    let quad := w.grp.slot / 16
    (try' true cs.global).orElse fun _ => try' false (cs.loc.filter fun e => e.1 / 4 = quad)

/-! ### HAZARD, MODE, exhaustion -/

/-- The pending destination an access of a register meets (R79, R233): register 1023 is %fps. -/
def pendOf (pend : List Pend) (kind reg : Nat) : Option Pend :=
  pend.find? fun p =>
    (p.kind = kind && p.reg = reg) || (kind = 0 && reg = 1023 && p.kind = 2)

/-- HAZARD for a list of registers, lowest first (R419). (DEDUCED, log 20). -/
def hazardIn (pend : List Pend) (kind : Nat) (regs : List Nat) : Option Trap :=
  let hit := regs.filterMap fun r => if r = 0 && kind = 0 then none else (pendOf pend kind r).map fun p => (r, p)
  (leastBy (fun a b => decide (a.1 < b.1)) hit).map fun (r, p) =>
    { cls := 2, cause := 1, aux := p.kind, d0 := word r, d1 := word p.flag }

/-- The registers a slot names, with the guard triple when it reads one: none may be pending. (DEDUCED, log 20). -/
def hazardOf (w : Who) (i : Instr) : Option Trap :=
  if w.sp.pend.isEmpty then none
  else
    let g := bits w.grp.mode 13 9
    let guard := if usesGuard i && g ≠ 0 then tripleRegs g else []
    (hazardIn w.sp.pend 0 (uReads i ++ writesNow w i ++ guard)).orElse fun _ =>
      hazardIn w.sp.pend 1 (vReads i ++ vWrites i)

/-- The logical-time allowance (R293, R300). -/
def recTq (ws : List Word) : Nat := (recWord ws 18).toNat + (recWord ws 19).toNat * 2 ^ 32

/-- The instruction at this clock exhausts: its clock would reach 2^63, or the allowance is used up (R35,
R300). Where both hold, the cause is 6. (DEDUCED, log 19). (DEDUCED, log 125). -/
def timeUp (w : Who) : Option Nat :=
  if 2 ^ 63 ≤ w.sp.clock + 1 then some 6
  else if w.sp.base + recTq w.task.words ≤ w.sp.clock then some 4
  else none

/-- The clock at which the quantum that an agent stands in ends (R38). -/
def quantumEnd (w : Who) : Nat := (quantum w + 1) * recQ w.launch.words

/-- Closing the quantum keeps the clock below 2^63 (R35). -/
def closeFits (w : Who) : Bool := decide (quantumEnd w < 2 ^ 63)

/-- The checks before the instruction's own effect. (DEDUCED, log 19). -/
def precheck (s : State) (w : Who) (c : Clause) (i : Instr) : Option Res :=
  match pcHit s w c with
  | some t => some (.trap t)
  | none =>
    if isPrivileged i then
      some (.trap { cls := 0, cause := 15, stat := true, slot := c.idx, d0 := c.hw, off := some c.off })
    else
      match timeUp w with
      | some k => some (.exhaust k)
      | none =>
        match hazardOf w i with
        | some t => some (.trap t)
        | none =>
          if kindBad i w.grp.mode then
            some (.trap
              { cls := 3, cause := 1, aux := if kindOf i = some true then 0 else 1, d0 := w.grp.mode })
          else none

/-! ### Flags of long-latency slots (R76) -/

/-- The flag that the next long-latency slot of a started clause counts. -/
def Clause.flag (c : Clause) : Nat := if c.ll = 0 then bits c.hw 19 16 else bits c.hw 15 12

/-- Counter `f` of a group. -/
def flagOf (grp : Group) (f : Nat) : Nat := Sparse.get 0 grp.flags f

/-- The pending destinations of a long-latency slot (R79): no destination s0; a log operation's %fps. -/
def pendsOf (i : Instr) (o : Out) (f : Nat) : List Pend :=
  let regs := match o.pends with
    | some l => l
    | none =>
      ((uWrites i).map fun n => (0, n)) ++ ((vWrites i).map fun n => (1, n)) ++
        (if isLog i then [(2, 1023)] else [])
  (regs.filter fun r => r ≠ (0, 0)).map fun r => ⟨r.1, r.2, f⟩

/-! ### Retirement -/

/-- Moves a split past its next instruction. -/
def advance (i : Instr) (c : Clause) (sp : Split) : Split :=
  let k := c.idx + slotWords c
  if k < c.words.length then { sp with clause := some { c with idx := k } }
  else { sp with clause := none, pc := c.nextOff, last := lastAfter i }

/-- What retirement does to the issuing split (R32, R38, R173). -/
def retireSplit (q : Nat) (i : Instr) (c : Clause) (flow : Flow) (sp : Split) : Split :=
  let sp := { sp with skipPc := false, skipWatch := false, claims := false }
  match flow with
  | .next => { advance i c sp with clock := sp.clock + 1 }
  | .jump t => { sp with clause := none, pc := t, last := none, clock := sp.clock + 1 }
  | .close =>
    let n := sp.clock / q
    { advance i c sp with clock := (n + 1) * q, mode := .commit n }
  | .wait m => { advance i c sp with clock := sp.clock + 1, mode := m }
  | .gone => sp

/-- Retires a slot: sharing records, the flag and pending destinations, the clock and the next position. -/
def retire (w : Who) (c : Clause) (i : Instr) (o : Out) (uses : List (Nat × Nat)) (wuses : List WinAcc)
    (sib : List SibUse) : State :=
  let ll := longLatency i
  let f := c.flag
  let s := updGroup o.s w.g fun grp =>
    let grp := recordSib grp w.x w.sp.clock sib
    if ll then { grp with flags := Sparse.set 0 grp.flags f (flagOf grp f + 1) } else grp
  let s := if uses.isEmpty then s
    else updTeam s w.grp.team fun tm =>
      { tm with stripes := recordStripes tm.stripes w.grp.gidx w.sp.clock (b0Span w.sp) uses }
  let s := if wuses.isEmpty then s
    else updTask s w.grp.task fun k =>
      { k with win := wuses.foldl (fun l u => if l.contains u then l else l ++ [u]) k.win }
  let c := if ll then { c with ll := c.ll + 1 } else c
  let s := updSplit s w.g w.x fun sp =>
    let sp := retireSplit (recQ w.launch.words) i c o.flow sp
    if ll then { sp with pend := sp.pend ++ pendsOf i o f } else sp
  updGroup (o.post s) w.g reseat

/-- The agent that a stepped split's record is raised for: the split, or, once it has divided or merged, the agent that
continues it, the one in its entry first; where it has exited, another of its team (R447). (DEDUCED, log 102). -/
def stepAgent (s : State) (w : Who) : Nat × Nat :=
  let other := match teamSplits s w.grp.team with
    | (h, y, _) :: _ => (h, y)
    | [] => (w.g, w.x)
  match Table.find s.groups w.g with
  | none => other
  | some grp =>
    if (Table.find grp.splits w.x).isSome then (w.g, w.x)
    else
      let heirs := grp.splits.filter fun e => e.2.line.contains w.x
      match ((heirs.find? fun e => e.2.entry = w.sp.entry).orElse fun _ => heirs.head?).orElse fun _ => lowestSplit grp with
      | some e => (w.g, e.1)
      | none => other

/-- A stepped split's record (R447): the step ends, and a DEBUG stop of cause 5 is raised. -/
def endStep (s : State) (w : Who) (d0 : Nat) : State :=
  if !w.sp.step then s
  else
    let s := updSplit s w.g w.x fun sp => { sp with step := false }
    let e := stepAgent s w
    takeTrap s e.1 e.2 { cls := 12, cause := 5, d0 := word d0 }

/-- The wait that a retired slot has left its split in, for the step record. -/
def stepCode (s : State) (w : Who) : Nat :=
  match whoOf s w.g w.x with
  | some v => if v.sp.mode.lasting then 1 else 0
  | none => 0

/-- Queues an event record on a die (R407 EVT, R429). -/
def queueEvent (s : State) (die code ctx arg : Nat) : State :=
  updCore s die fun c => { c with events := c.events ++ [word (code + ctx * 2 ^ 8 + arg * 2 ^ 12)] }

/-- Something waits for space in a context's areas: the control core of its die receives event 5, once until the wait is
over or the supervisor has answered (R428, R429). (DESIGN CHOICE, log 100). -/
def areaFull (s : State) (n die : Nat) : State :=
  if (ctxOf s n).full.contains die then s
  else queueEvent (updCtx s n fun k => { k with cevt := 5, full := k.full ++ [die] }) die 5 n 0

/-- The stall reason of a wait (R190). -/
def Mode.reason : Mode → Option Nat
  | .recon _ => some 11
  | .commit _ => some 8
  | .bar .. | .kbar .. => some 9
  | .phaser .. => some 10
  | .stalled k => some k
  | .held _ | .raced => some 15
  | .ready | .parked => none

/-- Counts a group's idle cycles for a reason, saturating (R190). (DESIGN CHOICE, log 11). -/
def countStall (s : State) (g k : Nat) : State :=
  updGroup s g fun grp =>
    let n := (Sparse.get 0 grp.stalls k).toNat + Config.stallCycles s.ticks
    { grp with stalls := Sparse.set 0 grp.stalls k (word (min 0xFFFFFFFF n)) }

/-- Every WAIT flag of a header is zero in the given counters (R75). -/
def waitOver (flags : Sparse Nat) (hw : Word) : Bool :=
  (List.range 12).all fun f => !(hdrWait hw).getLsbD f || Sparse.get 0 flags f = 0

/-- The reasons that nothing but physical timing decides: fetch, a result or datapath that is not ready, another split
chosen, a full engine queue, a bank, a move between table and stack, the power cap (R190). -/
def physicalReasons : List Nat := [0, 3, 4, 5, 6, 7, 12, 14]

/-- The lowest reason that applies to a table split. (DESIGN CHOICE, log 11). -/
def splitReason (s : State) (w : Who) : Nat :=
  let stopped := w.grp.halted || (match w.sp.stopAt with | some t => decide (t ≤ w.sp.clock) | none => false)
  let halt := if stopped then [13] else []
  let waitsFlag := w.sp.clause.isNone && (wordAtPc s w).any fun hw => !waitOver w.grp.flags hw
  let full := w.sp.clause.any fun c => (slotInstr c).any longLatency && decide (15 ≤ flagOf w.grp c.flag)
  let mine := match w.sp.mode with
    | .ready | .stalled _ => (if waitsFlag then [1] else []) ++ (if full then [2] else [])
    | _ => []
  match (mine ++ w.sp.mode.reason.toList ++ halt) with
  | [] => physicalReasons.getD (Config.idleReason s.ticks % 8) 15
  | k :: ks => ks.foldl min k

/-- The reason that a resident group counts in an idle cycle: that of its table split with the lowest (clock, agent key)
(R190). -/
def idleReason (s : State) (g : Nat) (grp : Group) : Nat :=
  let table := grp.splits.filter fun p => p.2.entry.isSome
  match leastBy (fun a b => pairLt (a.2.clock, a.2.klane) (b.2.clock, b.2.klane)) table with
  | none => if grp.splits.any fun p => (match p.2.mode with | .recon _ => true | _ => false) then 11 else 12
  | some (x, _) => match whoOf s g x with | some w => splitReason s w | none => 15

/-- Counts the idle cycles of a group whose split waits, unless it is parked. -/
def countWait (s : State) (w : Who) : State :=
  match whoOf s w.g w.x with
  | some v => if v.sp.mode.reason.isSome && !v.grp.parked then countStall s w.g (idleReason s w.g v.grp) else s
  | none => s

/-- A stepped slot that waits before it retires: its record is queued at once, and its later issue skips the comparators
(R447). -/
def stepWaits (s : State) (w : Who) : State :=
  if !w.sp.step then s
  else endStep (updSplit s w.g w.x fun sp => { sp with skipPc := true, skipWatch := true }) w 1

/-- Ends a slot that does not retire. -/
def settle (s : State) (w : Who) (r : Res) : Host.Outcome State Fault Refusal :=
  let out (s : State) := Host.Outcome.next (settleRace s w.grp.team)
  let hold (h : Held) := out (stepWaits (updSplit s w.g w.x fun sp => { sp with mode := .held h }) w)
  let stall (k : Nat) (claims : Bool) (s : State) :=
    countWait (updSplit s w.g w.x fun sp => { sp with mode := .stalled k, claims }) w
  match r with
  | .ok o => out o.s
  | .trap t =>
    let s := updSplit s w.g w.x fun sp =>
      if t.cls = 12 then sp else { sp with skipPc := false, skipWatch := false }
    out (raise (endStep s w (0x100 + t.cls)) w.g w.x t)
  | .exhaust k =>
    if w.task.rooted.isNone then hold (.exhaust k)
    else
      let reason := if k = 5 ∨ k = 6 then 3 else 0
      out (raise (endStep s w 0x106) w.g w.x { cls := 6, cause := k, d0 := reason })
  | .stall k => out (let s := stall k false s; if k = 8 then stepWaits s w else s)
  | .barrier k => out (stepWaits (stall k false s) w)
  | .claim => out (stall 15 true s)
  | .turn h => hold h
  | .closeFirst =>
    out (stepWaits (updGroup (updSplit s w.g w.x fun sp =>
      { sp with clock := quantumEnd w, mode := .commit (quantum w) }) w.g reseat) w)
  | .full => out (stall 15 false (areaFull s w.launch.ctx w.team.die))
  | .stop f => .fault f

/-- A slot that closes its quantum. -/
def Flow.closes : Flow → Bool
  | .close => true
  | _ => false

/-- The stripes that an access list touches, those that the window rules see, and what the siblings see. -/
def Out.stripes (o : Out) (w : Who) : List (Nat × Nat) := stripeUses o.accs w.team.tidx
def Out.windows (o : Out) (w : Who) : List WinAcc := if recWidth w.task.words ≤ 1 then [] else windowUses w o.accs
def Out.shared (o : Out) (w : Who) (i : Instr) : List SibUse := sibUses w i o.items o.accs

/-- The state after a slot that nothing stops: it retires, the wait that it enters is counted, a step record or a
report of a stripe conflict that is due is made. -/
def slotDone (w : Who) (c : Clause) (i : Instr) (o : Out) : State :=
  let s := countWait (retire w c i o (o.stripes w) (o.windows w) (o.shared w i)) w
  settleRace (endStep s w (stepCode s w)) w.grp.team

/-- Keeps the conflicts found: the lowest of stripes for the team, and those of siblings for the group (R187, R223). -/
def noteConflicts (w : Who) (stripe : Option Conflict) (sib : List SibConflict) (s : State) : State :=
  let s := match stripe with
    | some k => updTeam s w.grp.team fun tm => { tm with conflict := some (lowerStripe tm.conflict k) }
    | none => s
  if sib.isEmpty then s else updGroup s w.g fun grp => { grp with sibRaces := (grp.sibRaces ++ sib).eraseDups }

/-- A split stops at a slot that a conflict keeps from retiring. -/
def haltRaced (s : State) (w : Who) : State := updSplit s w.g w.x fun sp => { sp with mode := .raced }

/-- The slot that completes these conflicts does not retire: the time of one is its split's own place, or the group or split
in which the conflict would be raised has ended (R62, R187, R223). (DEDUCED, log 33). -/
def raceStays (s : State) (w : Who) (stripe : Option Conflict) (sib : List SibConflict) : Bool :=
  (stripe.any fun k => !runsOn (k.clock, k.gidx) w.grp.gidx w.sp || (liveGroup s w.grp.team k.lo).isNone) ||
    sib.any fun k => !runsOn (k.clock, k.klane) w.sp.klane w.sp || (heirOf w.grp k.loSplit).isNone

/-- The checks after the instruction's own, and retirement. A slot that completes a conflict of a time above its own
place retires, and its split runs on (R223). (DEDUCED, log 33). -/
def complete (s : State) (w : Who) (c : Clause) (i : Instr) (o : Out) : Host.Outcome State Fault Refusal :=
  match watchHit s w o.looks with
  | some t => settle s w (.trap t)
  | none =>
    if longLatency i && 15 ≤ flagOf w.grp c.flag then settle s w (.stall 2)
    else if o.flow.closes && w.task.rooted.isNone then settle s w (.turn .root)
    else
      let stripe := stripeConflict w.team w.grp.gidx w.sp.clock (b0Span w.sp) w.g w.x (o.stripes w)
      let sib := sibConflicts w (o.shared w i)
      let met := noteConflicts w stripe sib
      if raceStays s w stripe sib || (i = .exit && keepsPair s w) then .next (settleRace (endStep (haltRaced (met s) w) w 0x105) w.grp.team)
      else
        match windowRace w (o.windows w) with
        | some t => settle s w (.trap t)
        | none => .next (slotDone w c i { o with s := met o.s })

/-- A split issues its next slot, which holds `i`. -/
def groupSlot (i : Instr) (body : State → Res) (s : State) (w : Who) (c : Clause) :
    Host.Outcome State Fault Refusal :=
  match precheck s w c i with
  | some r => settle s w r
  | none =>
    match body s with
    | .ok o =>
      if o.flow.closes && !closeFits w then settle s w (.exhaust 6)
      else
        match collTouched w o.accs with
        | some a => settle s w (.trap { cls := 4, cause := 17, d0 := word a, d1 := word w.grp.size })
        | none => complete s w c i o
    | .closeFirst => settle s w (if closeFits w then .closeFirst else .exhaust 6)
    | r => settle s w r

/-! ### The control core -/

/-- Moves a control core past its next instruction. -/
def coreAdvance (i : Instr) (c : Clause) (f : Flow) (k : Core) : Core :=
  let n := c.idx + slotWords c
  match f with
  | .jump t => { k with clause := none, pc := t, last := none }
  | _ =>
    if n < c.words.length then { k with clause := some { c with idx := n } }
    else { k with clause := none, pc := c.nextOff, last := lastAfter i }

/-- The state after a slot of a control core that nothing stops. -/
def coreDone (d : Nat) (c : Clause) (i : Instr) (o : Out) : State :=
  let ll := longLatency i
  let f := c.flag
  let c := if ll then { c with ll := c.ll + 1 } else c
  let s := match o.flow with
    | .gone => o.s
    | flow => updCore o.s d fun k =>
      let k := coreAdvance i c flow k
      if ll then
        { k with
          flags := Sparse.set 0 k.flags f (Sparse.get 0 k.flags f + 1)
          pend := k.pend ++ pendsOf i o f }
      else k
  o.post s

/-- A control core issues its next slot: no clock, its own traps enter the vector of their class. -/
def coreSlot (i : Instr) (body : State → Res) (s : State) (d : Nat) (c : Clause) :
    Host.Outcome State Fault Refusal :=
  let k := coreOf s d
  if !onControlCore i then .next (coreTrap s d 0 16)
  else
    match hazardIn k.pend 0 (uReads i ++ uWrites i) with
    | some t => .next (coreTrap s d t.cls t.cause)
    | none =>
      match body s with
      | .ok o =>
        if longLatency i && 15 ≤ Sparse.get 0 k.flags c.flag then .next s
        else .next (coreDone d c i o)
      | .trap t => .next (coreTrap s d t.cls t.cause)
      | .stop f => .fault f
      | _ => .next s

/-- Issues `i` for the actor. Without an issuer, or without a started clause, nothing happens. -/
def slot (i : Instr) (body : State → Res) (s : State) : Host.Outcome State Fault Refusal :=
  match s.actor with
  | .split g x =>
    match whoOf s g x with
    | none => .next s
    | some w =>
      match w.sp.clause with
      | none => .next s
      | some c => groupSlot i body s w c
  | .core d =>
    match (coreOf s d).clause with
    | none => .next s
    | some c => coreSlot i body s d c

/-- The body of an instruction that only a split issues. -/
def withWho (s : State) (f : Who → Res) : Res :=
  match issuer s with
  | some w => f w
  | none => .done s

end Sys2Proof.Machine
end

