-- ==== Sys2Proof/Machine/Operands.lean ====
section
/-!
DEFINITION. Operand forms: scratchpad addresses of one access and of the lanes of a vector instruction
(01_engines R54, R55; 05_lane_engine R214-R219), reads and writes of scratchpad, the lane scheme of R191, and the
elements of a lane under an element type (03_numbers R123).
-/

namespace Sys2Proof.Machine

/-! ### Scratchpad addresses -/

/-- Team `t` of the issuer's task. -/
def teamAt (s : State) (w : Who) (t : Nat) : Option (Nat × Team) :=
  (w.task.teams[t]?).bind fun n => (Table.find s.teams n).map fun tm => (n, tm)

/-- The result of placing an address: a team index and an offset, or the limit that it breaks. -/
inductive Place where
  | at (team off : Nat)
  | out (limit : Nat)
  deriving DecidableEq, Repr

/-- Where `n` bytes at a local address lie (R54, R55): the own allocation as the issuing group sees its size,
or a window, judged by the target's size at the issuer's last commit point (R65). -/
def locate (s : State) (w : Who) (a n : Nat) : Place :=
  if a < 0x100000 then (if a + n ≤ w.grp.size then .at w.team.tidx a else .out w.grp.size)
  else if 0x1000000 ≤ a && a < 0x2800000 then
    let t := (a - 0x1000000) / 0x100000
    let off := a % 0x100000
    if recWidth w.task.words ≤ t then .out (recWidth w.task.words)
    else if t = w.team.tidx then (if off + n ≤ w.grp.size then .at t off else .out w.grp.size)
    else match teamAt s w t with
      | some (_, tm) => if off + n ≤ tm.epochSize then .at t off else .out tm.epochSize
      | none => .out 0
  else .out w.grp.size

/-- BOUNDS of one access: cause 1 range, 2 misaligned (R169, R420). -/
def placeOne (s : State) (w : Who) (a n : Nat) : Except Trap (Nat × Nat) :=
  match locate s w a n with
  | .out limit => .error { cls := 4, cause := 1, d0 := word a, d1 := word limit }
  | .at t off =>
    if a % n = 0 then .ok (t, off)
    else .error { cls := 4, cause := 2, d0 := word a, d1 := word w.grp.size }

/-- What one lane's access fails by: its lowest BOUNDS cause and its limit (R216). (DEDUCED, log 29). -/
def laneFault (s : State) (w : Who) (atomic : Bool) (a n : Nat) : Option (Nat × Nat) :=
  let p := locate s w a n
  let limit := match p with | .out k => k | .at .. => w.grp.size
  let outside := match p with | .out _ => true | .at .. => false
  if !atomic && outside then some (1, limit)
  else if a % n ≠ 0 then some (2, limit)
  else if atomic && (outside || 0x1000000 ≤ a) then some (4, limit)
  else none

/-- Checks every accessing lane before any access (R216, R219): the places of the lanes, in ascending order. -/
def placeLanes (s : State) (w : Who) (atomic : Bool) (n : Nat) (base : Option Nat) (lanes : List (Nat × Nat)) :
    Except Trap (List (Nat × Nat × Nat)) :=
  let bad := lanes.filterMap fun (l, a) => (laneFault s w atomic a n).map fun f => (l, a, f.1, f.2)
  let own := match base with | some b => if b % n = 0 then none else some b | none => none
  match leastBy (fun x y => decide (x.2.2.1 < y.2.2.1)) bad, own with
  | some (_, a, c, limit), _ =>
    .error { cls := 4, cause := c, d0 := word a, d1 := word limit,
             lanes := some (maskFrom fun k => bad.any fun x => x.1 = k && x.2.2.1 = c) }
  | none, some b => .error { cls := 4, cause := 2, d0 := word b, d1 := word w.grp.size, lanes := some 0 }
  | none, none =>
    .ok (lanes.filterMap fun (l, a) =>
      match locate s w a n with | .at t off => some (l, t, off) | .out _ => none)

/-! ### Scratchpad contents -/

/-- Bytes of a team's allocation. -/
def teamBytes (tm : Team) (off n : Nat) : List Byte := Sparse.read 0 tm.mem off n

/-- Bytes of an allocation as of the barrier that began the current window epoch, where posted writes have changed them
since (R64). (DEDUCED, log 44). -/
def epochBytes (tm : Team) (off n : Nat) : List Byte :=
  let now := teamBytes tm off n
  if tm.before.isEmpty then now
  else (List.range n).map fun i => (Table.find tm.before (off + i)).getD (now.getD i 0)

/-- The own allocation as the issuer's group sees it (R59). -/
def ownSpad (w : Who) (tm : Team) : Sparse Byte := tm.seenBy (unseen w.sp) w.grp.gidx

/-- Bytes of an allocation of the issuer's task: the own one as its group sees it, another team's as of the epoch's beginning
(R59, R64). (DEDUCED, log 44). -/
def spadRead (s : State) (w : Who) (t off n : Nat) : List Byte :=
  match teamAt s w t with
  | some (_, tm) => if t = w.team.tidx then Sparse.read 0 (ownSpad w tm) off n else epochBytes tm off n
  | none => List.replicate n 0

/-- A write of an allocation: the own one at once, another team's as a posted window write (R65). -/
def spadWrite (s : State) (w : Who) (t off : Nat) (bs : List Byte) : State :=
  if t = w.team.tidx then updTeam s w.grp.team fun tm => tm.store (b0Span w.sp).2 w.grp.gidx off bs
  else match teamAt s w t with
    | some (n, _) => emit s w (some w.sp.clock) 0 (.window n off bs)
    | none => s

/-- Joins writes that follow one another without a gap. -/
def joinWrites : List (Nat × Nat × List Byte) → List (Nat × Nat × List Byte)
  | [] => []
  | (t, off, bs) :: rest =>
    match joinWrites rest with
    | (t', off', bs') :: more =>
      if t' = t ∧ off' = off + bs.length then (t, off, bs ++ bs') :: more
      else (t, off, bs) :: (t', off', bs') :: more
    | [] => [(t, off, bs)]

/-- Writes of several places, the later one standing where they overlap (R57, R217). -/
def spadWrites (s : State) (w : Who) (l : List (Nat × Nat × List Byte)) : State :=
  (joinWrites l).foldl (fun s e => spadWrite s w e.1 e.2.1 e.2.2) s

/-- Two byte ranges overlap. -/
def overlap (a n b m : Nat) : Bool := decide (a < b + m) && decide (b < a + n)

/-- The commands in flight that hold an access: one of the issuer's group on its own allocation (R71, R252, R280), or one of
another group whose logical time is past and whose bytes are thus the ones to be seen (R40, R64, R72). -/
def heldBy (s : State) (w : Who) (accs : List Acc) : List Nat :=
  Table.keys (s.cmds.filter fun (_, c) =>
    !c.finished && (c.group = w.g || c.time.isSome) &&
      accs.any fun a =>
        w.task.teams[a.team]? = some c.team &&
          (((a.how = 0 || a.team = w.team.tidx) && c.writes.any fun r => overlap a.off a.len r.1 r.2) ||
            (a.how ≠ 0 && a.team = w.team.tidx && c.reading && c.reads.any fun r => overlap a.off a.len r.1 r.2)))

/-- An access is held. -/
def heldAccess (s : State) (w : Who) (accs : List Acc) : Bool := !(heldBy s w accs).isEmpty

/-- The address as the instruction forms it, for the local watch comparators. -/
def localLook (a n pos : Nat) (rd wr : Bool) : Look := ⟨false, a, n, rd, wr, pos⟩

/-! ### The lane scheme (R191) -/

/-- The items of written or read lanes of a vector register, for the sibling rules. -/
def laneItems (v : Nat) (lanes : List Nat) (write : Bool) : List Item :=
  lanes.map fun l => ⟨2, v * 128 + l, write⟩

/-- Adds flags to the %fps of the issuing split (R139). -/
def raiseFlags (s : State) (w : Who) (fl : Word) : State :=
  if fl = 0 then s else updSplit s w.g w.x fun sp => { sp with fps := sp.fps ||| fl }

/-- Writes one result and its flags for every writing lane (R191). -/
def laneResults (s : State) (w : Who) (vd : Nat) (f : Nat → Word × Word) : Out :=
  let m := writing s w
  let ls := lanesOf m
  let rs := (List.range 96).map fun l => if m.getLsbD l then f l else (0, 0)
  let fl := rs.foldl (fun a r => a ||| r.2) 0
  let s := updGroup s w.g fun grp =>
    vecWrite grp vd (fun l => m.getLsbD l) fun l => (rs.getD l (0, 0)).1
  { s := raiseFlags s w fl, items := laneItems vd ls true }

/-- The effects of a vector instruction of the plain scheme: f of the lane number, with flags; without a writing lane
none. -/
def vecOut (s : State) (w : Who) (vd : Nat) (f : Nat → Word × Word) : Out :=
  if (lanesOf (writing s w)).isEmpty then { s } else laneResults s w vd f

/-- A vector instruction of the plain scheme. -/
def vecOp (s : State) (vd : VReg) (f : Who → Nat → Word × Word) : Res :=
  withWho s fun w => .ok (vecOut s w vd.toNat (f w))

/-! ### Elements of a lane (R92, R123) -/

/-- Bits of an element and elements of a lane. -/
def etypeWidth : Etype → Nat
  | .i32 | .u32 | .f32 => 32
  | .i16 | .u16 | .f16 | .bf16 => 16
  | .i8 | .u8 | .f8a | .f8b => 8
  | .i4 => 4

/-- Elements of a lane. -/
def etypeCount (e : Etype) : Nat := 32 / etypeWidth e

/-- The signed element types among the integer ones. -/
def etypeSigned : Etype → Bool
  | .i32 | .i16 | .i8 | .i4 => true
  | _ => false

/-- The element types in the order of R92. -/
def etypeOf (n : Nat) : Etype :=
  [.i32, .u32, .i16, .u16, .i8, .u8, .i4, .f32, .f16, .bf16, .f8a, .f8b].getD n .i32

/-- The element type in force. -/
def modeEtype (m : Word) : Etype := etypeOf (bits m 3 0)

/-- Element `e` of width `w` of a lane, as a number. -/
def element (x : Word) (w e : Nat) : Nat := x.toNat / 2 ^ (w * e) % 2 ^ w

/-- A lane from its elements, element 0 lowest. -/
def packLane (w : Nat) (es : List Nat) : Word :=
  BitVec.ofNat 32 (es.foldr (fun e acc => e % 2 ^ w + 2 ^ w * acc) 0)

/-- An element read as signed or unsigned. -/
def elemInt (w : Nat) (signed : Bool) (x : Nat) : Int :=
  if signed && 2 ^ (w - 1) ≤ x then (x : Int) - 2 ^ w else x

/-- Applies `f` to each element position, with flags. -/
def mapElems (e : Etype) (f : Nat → Nat × Word) : Word × Word :=
  let rs := (List.range (etypeCount e)).map f
  (packLane (etypeWidth e) (rs.map (·.1)), rs.foldl (fun a r => a ||| r.2) 0)

end Sys2Proof.Machine
end

