-- ==== Sys2Proof/Machine/Flags.lean ====
section
/-!
DEFINITION. The flags of %fps (03_numbers R138, R140), the fitting of integer results (R124, R125), and the
conditions of the compare instructions (02_encoding R98, R102).
-/

namespace Sys2Proof.Machine

/-- NV, invalid operation. -/
def fNV : Word := 1
/-- DZ, division of a non-zero finite value by zero. -/
def fDZ : Word := 2
/-- OF, overflow. -/
def fOF : Word := 4
/-- UF, tiny and inexact, or flushed. -/
def fUF : Word := 8
/-- NX, inexact. -/
def fNX : Word := 16
/-- SAT, clamped to a bound. -/
def fSAT : Word := 32

/-- A flag when a condition holds. -/
def flagIf (b : Bool) (f : Word) : Word := if b then f else 0

/-- The least value of an integer element. -/
def intLow (w : Nat) (signed : Bool) : Int := if signed then -(2 ^ (w - 1)) else 0

/-- The greatest value of an integer element. -/
def intHigh (w : Nat) (signed : Bool) : Int := if signed then 2 ^ (w - 1) - 1 else 2 ^ w - 1

/-- An integer as an element of width `w`, modulo 2^w. -/
def wrapInt (w : Nat) (v : Int) : Nat := (v % 2 ^ w).toNat

/-- Fits an exact integer result to an element (R124). -/
def fitInt (w : Nat) (signed sat : Bool) (v : Int) : Nat × Word :=
  if sat && decide (v < intLow w signed) then (wrapInt w (intLow w signed), fSAT)
  else if sat && decide (intHigh w signed < v) then (wrapInt w (intHigh w signed), fSAT)
  else (wrapInt w v, 0)

/-- A condition between two elements of width `w` (R98, R196). -/
def condHolds (c : Cond) (w : Nat) (a b : Nat) : Bool :=
  let x := elemInt w true a
  let y := elemInt w true b
  match c with
  | .eq => a == b
  | .ne => a != b
  | .lt => decide (x < y)
  | .le => decide (x ≤ y)
  | .gt => decide (y < x)
  | .ge => decide (y ≤ x)
  | .ltu => decide (a < b)
  | .leu => decide (a ≤ b)
  | .gtu => decide (b < a)
  | .geu => decide (b ≤ a)

/-- The condition of `BR` on a register (R102, R174). -/
def brHolds (c : BrCond) (v : Word) : Bool :=
  match c with
  | .al => true
  | .eqz => v == 0
  | .nez => v != 0
  | .ltz => v.getLsbD 31
  | .gez => !v.getLsbD 31

/-- Whether mode.sat, mode.ftz, mode.daz are set, and mode.rm. -/
def modeSat (m : Word) : Bool := bit m 8
def modeDaz (m : Word) : Bool := bit m 7
def modeFtz (m : Word) : Bool := bit m 6
def modeRm (m : Word) : Nat := bits m 5 4

end Sys2Proof.Machine
end

