-- ==== Sys2Proof/Machine/Float.lean ====
section
/-!
DEFINITION. Binary floating point (03_numbers R126-R148): decoding, one rounding function, exact sums, minimum
and maximum, ranking, compares and conversions. A finite magnitude is m × 2^e exactly.
-/

namespace Sys2Proof.Machine

/-- A format: width, fraction bits, bias, and whether it has infinities and −0 (R126). -/
structure Fmt where
  width : Nat
  frac : Nat
  bias : Nat
  ieee : Bool
  deriving DecidableEq, Repr

def fmtF32 : Fmt := ⟨32, 23, 127, true⟩
def fmtF16 : Fmt := ⟨16, 10, 15, true⟩
def fmtBF16 : Fmt := ⟨16, 7, 127, true⟩
def fmtF8A : Fmt := ⟨8, 3, 7, false⟩
def fmtF8B : Fmt := ⟨8, 2, 15, false⟩

/-- The float format of an element type. -/
def etypeFmt : Etype → Option Fmt
  | .f32 => some fmtF32
  | .f16 => some fmtF16
  | .bf16 => some fmtBF16
  | .f8a => some fmtF8A
  | .f8b => some fmtF8B
  | _ => none

/-- Exponent bits. -/
def Fmt.expBits (f : Fmt) : Nat := f.width - 1 - f.frac

/-- The largest finite exponent. -/
def Fmt.emax (f : Fmt) : Int := (2 ^ f.expBits - 1 : Int) - (if f.ieee then 1 else 0) - f.bias

/-- The smallest normal exponent. -/
def Fmt.emin (f : Fmt) : Int := 1 - (f.bias : Int)

/-- The sign bit. -/
def Fmt.signBit (f : Fmt) : Nat := 2 ^ (f.width - 1)

/-- The largest finite code. -/
def Fmt.largest (f : Fmt) (neg : Bool) : Nat :=
  (if f.ieee then (2 ^ f.expBits - 2) * 2 ^ f.frac + (2 ^ f.frac - 1) else f.signBit - 1) +
    (if neg then f.signBit else 0)

/-- A zero: +0 in F8 whatever the sign. -/
def Fmt.zero (f : Fmt) (neg : Bool) : Nat := if neg && f.ieee then f.signBit else 0

/-- The default NaN (R128). -/
def Fmt.nan (f : Fmt) : Nat :=
  if f.ieee then (2 ^ f.expBits - 1) * 2 ^ f.frac + 2 ^ (f.frac - 1) else f.signBit

/-- An infinity; F8 saturates with OF (R131). -/
def Fmt.inf (f : Fmt) (neg : Bool) : Nat × Word :=
  if f.ieee then ((2 ^ f.expBits - 1) * 2 ^ f.frac + (if neg then f.signBit else 0), 0) else (f.largest neg, fOF)

/-- What a code means (R127). -/
inductive FVal where
  | nan (signalling : Bool)
  | inf (neg : Bool)
  | zero (neg : Bool)
  | fin (neg : Bool) (m : Nat) (e : Int)
  deriving DecidableEq, Repr

/-- The meaning of a code; `daz` reads a subnormal as a zero of its sign, +0 in F8 (R127, R133). -/
def Fmt.decode (f : Fmt) (daz : Bool) (code : Nat) : FVal :=
  let code := code % 2 ^ f.width
  let neg := decide (f.signBit ≤ code)
  let ex := code / 2 ^ f.frac % 2 ^ f.expBits
  let fr := code % 2 ^ f.frac
  if !f.ieee && code = f.signBit then .nan false
  else if f.ieee && ex = 2 ^ f.expBits - 1 then
    if fr = 0 then .inf neg else .nan (decide (fr < 2 ^ (f.frac - 1)))
  else if ex = 0 then
    if fr = 0 then .zero (neg && f.ieee)
    else if daz then .zero (neg && f.ieee)
    else .fin neg fr (f.emin - f.frac)
  else .fin neg (2 ^ f.frac + fr) ((ex : Int) - f.bias - f.frac)

/-- The code is a NaN. -/
def Fmt.isNan (f : Fmt) (code : Nat) : Bool := match f.decode false code with | .nan _ => true | _ => false

/-- The code is a signalling NaN. -/
def Fmt.isSnan (f : Fmt) (code : Nat) : Bool :=
  match f.decode false code with | .nan s => s | _ => false

/-- A NaN quieted in its own format (R141). -/
def Fmt.quiet (f : Fmt) (code : Nat) : Nat :=
  if f.ieee then (if code / 2 ^ (f.frac - 1) % 2 = 1 then code else code + 2 ^ (f.frac - 1)) else f.signBit

/-- A NaN of format `f` delivered in format `g` (R134, R141): sign and high fraction bits kept, quieted. -/
def Fmt.nanTo (f g : Fmt) (code : Nat) : Nat :=
  if !g.ieee then g.signBit
  else if !f.ieee then g.nan
  else
    let q := f.quiet (code % 2 ^ f.width)
    let fr := q % 2 ^ f.frac
    let fr' := if f.frac ≤ g.frac then fr * 2 ^ (g.frac - f.frac) else fr / 2 ^ (f.frac - g.frac)
    (2 ^ g.expBits - 1) * 2 ^ g.frac + fr' + (if f.signBit ≤ q then g.signBit else 0)

/-! ### Rounding (R129-R133) -/

/-- A dropped part of value `r` of `d` (and `sticky` for a remainder below one unit) makes the kept number
`n` round up in magnitude. -/
def roundsUp (rm : Nat) (neg : Bool) (n r d : Nat) (sticky : Bool) : Bool :=
  match rm with
  | 0 => decide (d < 2 * r) || (2 * r = d && (sticky || n % 2 = 1))
  | 1 => false
  | 2 => neg && (r ≠ 0 || sticky)
  | _ => !neg && (r ≠ 0 || sticky)

/-- m × 2^e (with `sticky`: and a little more, less than 2^e) as a multiple of 2^q: the multiple, and whether it
is inexact. -/
def roundAt (rm : Nat) (neg : Bool) (m : Nat) (e : Int) (sticky : Bool) (q : Int) : Nat × Bool :=
  if q ≤ e then (m * 2 ^ (e - q).toNat, sticky)
  else
    let d := 2 ^ (q - e).toNat
    let n := m / d
    let r := m % d
    (if roundsUp rm neg n r d sticky then n + 1 else n, r ≠ 0 || sticky)

/-- The position of the highest set bit of m > 0. -/
def highBit (m : Nat) : Nat := m.log2

/-- A magnitude rounded into a format, with flags. -/
def Fmt.round (f : Fmt) (rm : Nat) (ftz neg : Bool) (m : Nat) (e : Int) (sticky : Bool) : Nat × Word :=
  let sgn := if neg then f.signBit else 0
  let lead : Int := e + highBit m
  let (n, ix) := roundAt rm neg m e sticky (lead - f.frac)
  let lead := if n = 2 ^ (f.frac + 1) then lead + 1 else lead
  if f.emax < lead then
    if f.ieee then
      let toInf := rm = 0 || (rm = 2 && neg) || (rm = 3 && !neg)
      (if toInf then (f.inf neg).1 else f.largest neg, fOF ||| fNX)
    else (f.largest neg, fOF ||| fSAT ||| fNX)
  else if lead < f.emin then
    if ftz then (f.zero neg, fUF ||| fNX)
    else
      let (n, ix) := roundAt rm neg m e sticky (f.emin - f.frac)
      (if n = 0 then f.zero neg else n + sgn, flagIf ix (fUF ||| fNX))
  else
    let n := if n = 2 ^ (f.frac + 1) then 2 ^ f.frac else n
    ((lead + f.bias).toNat * 2 ^ f.frac + (n - 2 ^ f.frac) + sgn, flagIf ix fNX)

/-! ### Exact sums (R147, R148) -/

/-- A term of an exact sum: its factors with their formats, and an inversion of its sign. (DEDUCED, log 42). -/
structure Term where
  neg : Bool
  factors : List (Fmt × Nat)
  deriving DecidableEq, Repr

/-- The special and finite parts of a term. -/
inductive TermVal where
  | nan
  | invalid
  | inf (neg : Bool)
  | zero (neg : Bool)
  | fin (v : Int) (e : Int)
  deriving DecidableEq, Repr

/-- The product of a term's factors. -/
def Term.value (t : Term) (daz : Bool) : TermVal :=
  let ds := t.factors.map fun p => p.1.decode daz p.2
  let sign := ds.foldl (fun s d => match d with
    | .inf n => xor s n | .zero n => xor s n | .fin n _ _ => xor s n | .nan _ => s) t.neg
  let anyNan := ds.any fun d => match d with | .nan _ => true | _ => false
  let anyInf := ds.any fun d => match d with | .inf _ => true | _ => false
  let anyZero := ds.any fun d => match d with | .zero _ => true | _ => false
  if anyNan then (if anyInf && anyZero then .invalid else .nan)
  else if anyInf then (if anyZero then .invalid else .inf sign)
  else if anyZero then .zero sign
  else
    let p := ds.foldl (fun (a : Nat × Int) d => match d with
      | .fin _ m e => (a.1 * m, a.2 + e) | _ => a) (1, 0)
    .fin (if sign then -(p.1 : Int) else p.1) p.2

/-- The sum of finite terms as v × 2^e. (DEDUCED, log 42). -/
def sumFinite (ts : List TermVal) : Int × Int :=
  let es := ts.filterMap fun t => match t with | .fin _ e => some e | _ => none
  let lo := match es with | [] => 0 | e :: r => r.foldl min e
  (ts.foldl (fun a t => match t with | .fin v e => a + v * 2 ^ (e - lo).toNat | _ => a) 0, lo)

/-- The first NaN operand of a list of terms, delivered in `out` (R141). -/
def firstNan (out : Fmt) (ops : List (Fmt × Nat)) : Option Nat :=
  (ops.find? fun p => p.1.isNan p.2).map fun p => p.1.nanTo out p.2

/-- A dyadic value rounded into a format; a zero takes the sign `zneg`. -/
def Fmt.ofDyadic (f : Fmt) (rm : Nat) (ftz : Bool) (v e : Int) (zneg : Bool) : Nat × Word :=
  if v = 0 then (f.zero zneg, 0) else f.round rm ftz (decide (v < 0)) v.natAbs e false

/-- An exact sum rounded once (R147, R148). The NaN is the first operand of `order` that is one. No term at
all gives +0 (R146). -/
def exactSum (out : Fmt) (rm : Nat) (ftz daz : Bool) (order : List (Fmt × Nat)) (ts : List Term) : Nat × Word :=
  let vs := ts.map fun t => t.value daz
  let snan := order.any fun p => p.1.isSnan p.2
  let pos := vs.contains (.inf false)
  let neg := vs.contains (.inf true)
  let invalid := vs.contains .invalid || (pos && neg)
  match firstNan out order with
  | some c => (c, flagIf (snan || invalid) fNV)
  | none =>
    if invalid then (out.nan, fNV)
    else if pos || neg then out.inf neg
    else
      let (v, e) := sumFinite vs
      if v = 0 then
        let allNeg := !vs.isEmpty && vs.all fun t => t = .zero true
        (out.zero (allNeg || (rm = 2 && !vs.isEmpty)), 0)
      else out.ofDyadic rm ftz v e false

/-- The operands of terms in order. -/
def termOps (ts : List Term) : List (Fmt × Nat) := ts.flatMap (·.factors)

/-! ### Element operations (R200, R201) -/

/-- The rounding context of an instruction. -/
structure Rnd where
  rm : Nat
  ftz : Bool
  daz : Bool
  deriving DecidableEq, Repr

/-- The rounding context of a mode word. -/
def modeRnd (m : Word) : Rnd := ⟨modeRm m, modeFtz m, modeDaz m⟩

/-- a + b, or a − b. Two zeros of one sign keep it (IEEE 754, R127). -/
def fAdd (f : Fmt) (r : Rnd) (minus : Bool) (a b : Nat) : Nat × Word :=
  let res := exactSum f r.rm r.ftz r.daz [(f, a), (f, b)] [⟨false, [(f, a)]⟩, ⟨minus, [(f, b)]⟩]
  match f.decode r.daz a, f.decode r.daz b with
  | .zero s, .zero t => if s = xor t minus then (f.zero s, 0) else res
  | _, _ => res

/-- a × b. -/
def fMul (f : Fmt) (r : Rnd) (a b : Nat) : Nat × Word :=
  let t : Term := ⟨false, [(f, a), (f, b)]⟩
  match t.value r.daz with
  | .zero s => (f.zero s, 0)
  | _ => exactSum f r.rm r.ftz r.daz t.factors [t]

/-- ±(a × b) ± c, rounded once (R147). -/
def fFma (f : Fmt) (r : Rnd) (negP negC : Bool) (a b c : Nat) : Nat × Word :=
  exactSum f r.rm r.ftz r.daz [(f, a), (f, b), (f, c)] [⟨negP, [(f, a), (f, b)]⟩, ⟨negC, [(f, c)]⟩]

/-- Order of two values that are no NaN: less. With `zsign`, −0 is below +0 (R143). (DEDUCED, log 43). -/
def valLess (zsign : Bool) (a b : FVal) : Bool :=
  let num (x : FVal) : Int × Int × Int :=   -- class, value, exponent
    match x with
    | .inf true => (-1, 0, 0)
    | .inf false => (1, 0, 0)
    | .zero n => (0, 0, if zsign && n then -1 else 0)
    | .fin n m e => (0, if n then -(m : Int) else m, e)
    | .nan _ => (0, 0, 0)
  let (ca, va, ea) := num a
  let (cb, vb, eb) := num b
  if ca ≠ cb then decide (ca < cb)
  else if ca ≠ 0 then false
  else if va = 0 && vb = 0 then decide (ea < eb)
  else
    let lo := min (if va = 0 then eb else ea) (if vb = 0 then ea else eb)
    decide (va * 2 ^ (ea - lo).toNat < vb * 2 ^ (eb - lo).toNat)

/-- A result with flags, a tiny one replaced by zero under ftz (R133). -/
def Fmt.flush (f : Fmt) (ftz : Bool) (r : Nat × Word) : Nat × Word :=
  match f.decode false r.1 with
  | .fin neg m _ => if ftz && decide (m < 2 ^ f.frac) then (f.zero neg, r.2 ||| fUF ||| fNX) else r
  | _ => r

/-- The smaller or the greater of two operands, not flushed (R143). (DEDUCED, log 43). -/
def fPick (f : Fmt) (daz isMax : Bool) (a b : Nat) : Nat × Word :=
  let fl := flagIf (f.isSnan a || f.isSnan b) fNV
  match firstNan f [(f, a), (f, b)] with
  | some c => (c, fl)
  | none =>
    let x := f.decode daz a
    let y := f.decode daz b
    let pickB := if isMax then valLess true x y else valLess true y x
    let (v, c) := if pickB then (y, b) else (x, a)
    match v with
    | .zero s => (f.zero s, fl)
    | _ => (c % 2 ^ f.width, fl)

/-- Minimum or maximum (R143, R133). (DEDUCED, log 43). -/
def fMinMax (f : Fmt) (r : Rnd) (isMax : Bool) (a b : Nat) : Nat × Word := f.flush r.ftz (fPick f r.daz isMax a b)

/-- Magnitude of a, sign of b (R200). -/
def fCopySign (f : Fmt) (a b : Nat) : Nat :=
  if !f.ieee && a % f.signBit = 0 then a % 2 ^ f.width
  else a % f.signBit + (if b / f.signBit % 2 = 1 then f.signBit else 0)

/-- The sign cleared (R201). -/
def fAbs (f : Fmt) (a : Nat) : Nat := if !f.ieee && a = f.signBit then a else a % f.signBit

/-- The sign flipped (R201). -/
def fNeg (f : Fmt) (a : Nat) : Nat :=
  if !f.ieee && a % f.signBit = 0 then a else if f.signBit ≤ a then a - f.signBit else a + f.signBit

/-- Rounded to an integral value: `VFRINT` in rm with NX, the others in a fixed direction without (R201). -/
def fIntegral (f : Fmt) (r : Rnd) (how : Option Nat) (a : Nat) : Nat × Word :=
  match f.decode r.daz a with
  | .nan s => (f.quiet a, flagIf s fNV)
  | .inf _ => (a, 0)
  | .zero n => (f.zero n, 0)
  | .fin n m e =>
    if 0 ≤ e then (a, 0)
    else
      let (k, ix) := roundAt (how.getD r.rm) n m e false 0
      let c := if k = 0 then f.zero n else (f.round 0 false n k 0 false).1
      (c, flagIf (ix && how.isNone) fNX)

/-- The class code of the stored bits (R201). -/
def fClass (f : Fmt) (a : Nat) : Nat :=
  let sub := a / 2 ^ f.frac % 2 ^ f.expBits = 0
  match f.decode false a with
  | .nan s => if s then 8 else 9
  | .inf n => if n then 0 else 7
  | .zero n => if n then 3 else 4
  | .fin n _ _ => if n then (if sub then 2 else 1) else (if sub then 5 else 6)

/-- A float condition with its flag (R197). -/
def fCond (f : Fmt) (daz : Bool) (c : FCond) (a b : Nat) : Bool × Word :=
  let x := f.decode daz a
  let y := f.decode daz b
  let nan := f.isNan a || f.isNan b
  let ordered := match c with | .lt | .le | .gt | .ge => true | _ => false
  let fl := flagIf (f.isSnan a || f.isSnan b || (nan && ordered)) fNV
  if nan then (match c with | .ne | .un => (true, fl) | _ => (false, fl))
  else
    let lt := valLess false x y
    let gt := valLess false y x
    (match c with
     | .eq => !lt && !gt
     | .ne => lt || gt
     | .lt => lt
     | .le => !gt
     | .gt => gt
     | .ge => !lt
     | .un => false
     | .ord => true, fl)

/-- Candidate (value, index) `a` beats `b` (R144). -/
def fRankBetter (f : Fmt) (isMax : Bool) (a b : Nat × Nat) : Bool :=
  match f.isNan a.1, f.isNan b.1 with
  | true, false => true
  | false, true => false
  | true, true => decide (a.2 < b.2)
  | false, false =>
    let x := f.decode false a.1
    let y := f.decode false b.1
    if valLess true x y then !isMax
    else if valLess true y x then isMax
    else decide (a.2 < b.2)

/-! ### Conversions (R134-R137) -/

/-- Float to float: exact or rounded; the same format copies with daz and quieting (R134, R202). -/
def cvtFF (f g : Fmt) (r : Rnd) (a : Nat) : Nat × Word :=
  match f.decode r.daz a with
  | .nan s => (f.nanTo g a, flagIf (s || (!g.ieee && f ≠ g)) fNV)
  | .inf n => g.inf n
  | .zero n => (g.zero n, 0)
  | .fin n m e => g.round r.rm r.ftz n m e false

/-- Float to integer, saturating (R135). -/
def cvtFI (f : Fmt) (w : Nat) (signed : Bool) (r : Rnd) (a : Nat) : Nat × Word :=
  let clamp (neg : Bool) : Nat × Word :=
    (wrapInt w (if neg then intLow w signed else intHigh w signed), fNV ||| fSAT)
  match f.decode r.daz a with
  | .nan _ => (0, fNV)
  | .inf n => clamp n
  | .zero _ => (0, 0)
  | .fin n m e =>
    let (k, ix) := roundAt r.rm n m e false 0
    let v : Int := if n then -(k : Int) else k
    if v < intLow w signed then clamp true
    else if intHigh w signed < v then clamp false
    else (wrapInt w v, flagIf ix fNX)

/-- Integer to float (R136). -/
def cvtIF (g : Fmt) (r : Rnd) (v : Int) : Nat × Word := g.ofDyadic r.rm r.ftz v 0 false

end Sys2Proof.Machine
end

