-- ==== Sys2Proof/Machine/Atomic.lean ====
section
/-!
DEFINITION. The operations of a home slice on a word or a pair (12_home_fabric R385, R386; 03_numbers R144, R145,
R151): codes 0-12 are those of `GATOM`, 16-28 those of `GRED`, both in the order of 02_encoding R108.
-/

namespace Sys2Proof.Machine

/-- The NaN that a slice delivers: the smallest bit pattern among the operands' NaNs, quieted (R386). -/
def homeNan (xs : List Nat) : Option Nat :=
  (leastBy (fun a b => decide (a < b)) (xs.filter fmtF32.isNan)).map fmtF32.quiet

/-- The exact sum of operands, rounded once in RNE (R386). -/
def homeSum (xs : List Nat) : Nat :=
  match homeNan xs with
  | some n => n
  | none => (exactSum fmtF32 0 false false [] (xs.map fun x => ⟨false, [(fmtF32, x)]⟩)).1

/-- FMIN and FMAX at a slice, with −0 below +0 (R385). -/
def homeMinMax (isMax : Bool) (a b : Nat) : Nat :=
  match homeNan [a, b] with
  | some n => n
  | none =>
    let lt := valLess true (fmtF32.decode false a) (fmtF32.decode false b)
    if lt == isMax then b else a

/-- The winner of two (value, index) candidates in the max form, as delivered (R144). -/
def homeMaxIndex (f : Fmt) (a b : Nat × Nat) : Nat × Nat :=
  let w := if fRankBetter f true b a then b else a
  (if f.isSnan w.1 then f.quiet w.1 else w.1, w.2)

/-- An exact accumulator (R151, R380): the sum of the finite operands, in units of 2^-149; the special operands; and
0 once an operand other than −0 has taken part. -/
abbrev Exact := Int × List Word

/-- An operand added to an accumulator. -/
def exactAdd (e : Exact) (x : Word) : Exact :=
  let mark (m : Word) : List Word := if e.2.contains m then e.2 else e.2 ++ [m]
  match fmtF32.decode false x.toNat with
  | .nan _ => (e.1, mark x)
  | .inf _ => (e.1, mark x)
  | .zero neg => if neg then e else (e.1, mark 0)
  | .fin neg m k =>
    let v : Int := (m : Int) * 2 ^ (k + 149).toNat
    (e.1 + (if neg then -v else v), mark 0)

/-- The accumulator's value, rounded once to F32 in RNE with ftz off. -/
def exactValue (e : Exact) : Word :=
  match homeNan (e.2.map (·.toNat)) with
  | some n => word n
  | none =>
    let pos := e.2.contains 0x7F800000
    let neg := e.2.contains 0xFF800000
    if pos && neg then 0x7FC00000
    else if pos then 0x7F800000
    else if neg then 0xFF800000
    else word (fmtF32.ofDyadic 0 false e.1 (-149) (!e.2.contains 0)).1

/-- Bytes that an operation acts on. -/
def atomBytes (op : Nat) : Nat := if op % 16 = 12 then 8 else 4

/-- `GRED.FADD` keeps its word in Commutative state. -/
def isExact (op : Nat) : Bool := op = 24

/-- The new value of a word under a one-word operation: `v` the operand, `x` the second operand (R385). -/
def atomWord (op : Nat) (old v x : Word) : Word :=
  if op < 16 && op = 8 then v
  else if op < 16 && op = 9 then (if old = x then v else old)
  else if op < 16 && op = 10 then word (homeSum [old.toNat, v.toNat])
  else match op % 16 with
    | 0 => old + v
    | 1 => old &&& v
    | 2 => old ||| v
    | 3 => old ^^^ v
    | 4 => if v.toInt < old.toInt then v else old
    | 5 => if old.toInt < v.toInt then v else old
    | 6 => if v.toNat < old.toNat then v else old
    | 7 => if old.toNat < v.toNat then v else old
    | 9 => word (homeMinMax false old.toNat v.toNat)
    | 10 => word (homeMinMax true old.toNat v.toNat)
    | _ =>
      let w := homeMaxIndex fmtF16 (bits old 31 16, bits old 15 0) (bits v 31 16, bits v 15 0)
      word (w.1 * 2 ^ 16 + w.2)

/-- The new bytes of an operation on `old`, and the accumulator that the word keeps. `acc` is the one it has. -/
def atomStep (op : Nat) (old : List Byte) (acc : Option Exact) (v x : Word) : List Byte × Option Exact :=
  if isExact op then
    let e := exactAdd (acc.getD (exactAdd (0, []) (bytesWord old))) v
    (wordBytes (exactValue e), some e)
  else if atomBytes op = 8 then
    let w := homeMaxIndex fmtF32 ((bytesWord (old.drop 4)).toNat, (bytesWord (old.take 4)).toNat) (v.toNat, x.toNat)
    (wordBytes (word w.2) ++ wordBytes (word w.1), none)
  else (wordBytes (atomWord op (bytesWord old) v x), none)

end Sys2Proof.Machine
end

