-- ==== Sys2Proof/Machine/Fetch.lean ====
section
/-!
DEFINITION. Starting a clause: the fetch of its words, the static checks of R82 and R83, WAIT (R75, R156), and
the predecessor rule of DEP (R78).
-/

namespace Sys2Proof.Machine

/-! ### Static checks (R82, R83) -/

/-- A register that both instructions name, written by the first, makes a hidden dependence (R78). s0 is
discarded by every write and %fps is no register for this rule. -/
def depends (prev cur : Instr) : Bool :=
  let w := (uWrites prev).filter fun n => n ≠ 0 && n ≠ 1023
  (w.any fun n => (uReads cur).contains n || (uWrites cur).contains n) ||
    (vWrites prev).any fun n => (vReads cur).contains n || (vWrites cur).contains n

/-- What the static checks know of the issuer: none for a control core. -/
structure Site where
  vcount : Nat
  feat : Nat
  deriving DecidableEq, Repr

/-- The static conditions of one slot apart from its decoding: (cause numbers). -/
def slotCauses (site : Option Site) (hw : Word) (n k ll : Nat) (prev : Option Instr) (i : Instr) (lit : Bool) :
    List Nat :=
  let last := k + (if lit then 2 else 1)
  let set := if ll = 0 then (hdrSetA hw).toNat else (hdrSetB hw).toNat
  (match operandCause i with | some c => [c.code] | none => []) ++
    (match site with
     | some v => if (vReads i ++ vWrites i).any fun r => decide (v.vcount ≤ r) then [5] else []
     | none => []) ++
    (if longLatency i then (if 2 ≤ ll then [11] else if set = 15 then [10] else []) else []) ++
    (match prev with | some p => if !(hdrDep hw).getLsbD k && depends p i then [12] else [] | none => []) ++
    (if isTransfer i && last ≠ n then [13] else []) ++
    (match site with
     | some v =>
       (if isPrivileged i then [15] else []) ++
         (if (isLog i && v.feat / 4 % 2 = 0) || (isMatrix i && v.feat % 2 = 0) then [20] else [])
     | none => if onControlCore i then [] else [16])

/-- The cause of a word that does not decode: the lowest that its fields meet. -/
def badWordCause (w : Word) (c : IllegalCause) : Nat :=
  match c with
  | .literalBeyondLen =>
    match decode w (some 0) with
    | .ok i => match operandCause i with | some d => min d.code 4 | none => 4
    | .error d => d.code
  | c => c.code

/-- The static conditions of a clause: (slot index, cause), from slot word `k` on. -/
def clauseCauses (site : Option Site) (hw : Word) (n : Nat) : Nat → Nat → Nat → Option Instr → List Word →
    List (Nat × Nat)
  | 0, _, _, _, _ => []
  | _ + 1, _, _, _, [] => []
  | fuel + 1, k, ll, prev, w :: ws =>
    let lit := hasLiteral (w.extractLsb' 24 8)
    let rest := if lit then ws.drop 1 else ws
    let k' := if lit then k + 2 else k + 1
    match decode w (if lit then ws.head? else none) with
    | .error c => (k, badWordCause w c) :: clauseCauses site hw n fuel k' ll none rest
    | .ok i =>
      ((slotCauses site hw n k ll prev i lit).map fun c => (k, c)) ++
        clauseCauses site hw n fuel k' (if longLatency i then ll + 1 else ll) (some i) rest

/-- The positions of literal words in a clause. -/
def literalSlots : Nat → Nat → List Word → List Nat
  | 0, _, _ => []
  | _ + 1, _, [] => []
  | fuel + 1, k, w :: ws =>
    if hasLiteral (w.extractLsb' 24 8) then (k + 1) :: literalSlots fuel (k + 2) (ws.drop 1)
    else literalSlots fuel (k + 1) ws

/-- The header conditions, at slot 0: bit 8, a flag number 12-14, a DEP bit of a literal or above LEN (R83). -/
def headerCauses (hw : Word) (words : List Word) : List (Nat × Nat) :=
  let n := words.length
  let bad (f : BitVec 4) : Bool := decide (12 ≤ f.toNat ∧ f.toNat ≤ 14)
  (if hw.getLsbD 8 then [(0, 8)] else []) ++
    (if bad (hdrSetA hw) || bad (hdrSetB hw) then [(0, 9)] else []) ++
    (if (hdrDep hw).toNat / 2 ^ n ≠ 0 || (literalSlots 8 0 words).any fun k => k < n && (hdrDep hw).getLsbD k
     then [(0, 14)] else [])

/-- The static condition a clause is refused for: the lowest cause at the lowest slot. -/
def staticCheck (site : Option Site) (hw : Word) (words : List Word) (prev : Option Instr) : Option (Nat × Nat) :=
  leastBy pairLt (headerCauses hw words ++ clauseCauses site hw words.length 8 0 0 prev words)

/-! ### Starting a clause -/

/-- What fetching words comes to. -/
inductive Fetched where
  | ok (words : List Word)
  | trap (t : Trap)
  | stop (f : Fault)

/-- An uncorrectable line in a physical range (R421). -/
def badLine (s : State) (pa n : Nat) : Option Nat :=
  s.bad.find? fun l => decide (256 * l < pa + n) && decide (pa < 256 * l + 256)

/-- Fetches one word as committed before the grid's launch began (R73, R81, R427). -/
def fetchWord (s : State) (l : Launch) (die va : Nat) : Except (Trap ⊕ Fault) Word :=
  match translate s l.ctx die true false (va, 4) with
  | .ok pa key _ =>
    match badLine s pa 4 with
    | some line =>
      .error (.inl { cls := 15, cause := 3, d0 := word (256 * line), d1 := word (256 * line / 2 ^ 32) })
    | none => .ok (bytesWord (physReadOld s l.old key pa 4))
  | .hole pa => .error (.inr (.noSuchPhysicalAddress pa))
  | _ => .error (.inl { cls := 8, cause := 1, d0 := word va, d1 := word (va / 2 ^ 32) })

/-- Fetches `n` consecutive words. -/
def fetchWords (s : State) (l : Launch) (die : Nat) : Nat → Nat → Except (Trap ⊕ Fault) (List Word)
  | _, 0 => .ok []
  | va, n + 1 =>
    match fetchWord s l die (va % 2 ^ 56) with
    | .error e => .error e
    | .ok w => (fetchWords s l die (va + 4) n).map (w :: ·)

/-- Flag `f` is named in WAIT. -/
def waits (hw : Word) (f : Nat) : Bool := decide (f < 12) && (hdrWait hw).getLsbD f

/-- A split starts the clause at its pc (R156): the fetch, the checks, WAIT; the waited flags end the pending
state of their destinations (R79, R160) and fix the time of their commands (R40). A changed vector count governs from
here on (R316). (DEDUCED, log 36). -/
def startClause (s : State) (w : Who) : Host.Outcome State Fault Refusal :=
  let base := recCode w.task.words
  let va := base + w.sp.pc
  let stopped (e : Trap ⊕ Fault) : Host.Outcome State Fault Refusal :=
    match e with
    | .inl t => settle s w (.trap t)
    | .inr f => .fault f
  match fetchWord s w.launch w.team.die (va % 2 ^ 56) with
  | .error e => stopped e
  | .ok hw =>
    match fetchWords s w.launch w.team.die (va + 4) (hdrLen hw) with
    | .error e => stopped e
    | .ok words =>
      match staticCheck (some ⟨w.grp.count, recFeat w.task.words⟩) hw words w.sp.last with
      | some (k, c) =>
        settle s w (.trap
          { cls := 0, cause := c, stat := true, slot := k, d0 := hw, insn := some (words.getD k 0) })
      | none =>
        if !waitOver w.grp.flags hw then settle s w (.stall 1)
        else
          let s := fixTimes s w fun c => waits hw c.flag
          let s := if w.sp.frame.any fun f => f.clause.isSome then s else updGroup s w.g Group.takeCount
          let s := updGroup s w.g fun grp => grp.usable w.sp (w.sp.pend.filter fun p => waits hw p.flag)
          .next (updSplit s w.g w.x fun sp =>
            { sp with
              clause := some ⟨w.sp.pc, hw, words, 0, 0⟩
              pend := sp.pend.filter fun p => !waits hw p.flag })

/-- The words of a control core's local memory. (DEDUCED, log 37). -/
def coreWords (c : Core) (a n : Nat) : List Word := bytesWords n (Sparse.read 0 c.mem a (4 * n))

/-- A control core starts the clause at its pc (R405). (DEDUCED, log 37). -/
def coreStartClause (s : State) (d : Nat) : State :=
  let c := coreOf s d
  if 0x40000 < c.pc + 4 || c.pc % 4 ≠ 0 then coreTrap s d 4 1
  else
    let hw := (coreWords c c.pc 1).getD 0 0
    if 0x40000 < c.pc + 4 + 4 * hdrLen hw then coreTrap s d 4 1
    else
      let words := coreWords c (c.pc + 4) (hdrLen hw)
      match staticCheck none hw words c.last with
      | some (_, cause) => coreTrap s d 0 cause
      | none =>
        if !waitOver c.flags hw then s
        else updCore s d fun c =>
          { c with clause := some ⟨c.pc, hw, words, 0, 0⟩, pend := c.pend.filter fun p => !waits hw p.flag }

/-- CLAUSE_START: the actor starts its next clause. -/
def execClauseStart (s : State) : Host.Outcome State Fault Refusal :=
  match s.actor with
  | .split g x =>
    match whoOf s g x with
    | none => .next s
    | some w => if w.sp.clause.isSome then .next s else startClause s w
  | .core d => if (coreOf s d).clause.isSome then .next s else .next (coreStartClause s d)

end Sys2Proof.Machine
end

