-- ==== Sys2Proof/Machine/Uniform.lean ====
section
/-!
DEFINITION. The issue engine's uniform instructions (04_issue_engine R161-R172), on a split and on a control core
(13_control_core R405, R406).
-/

namespace Sys2Proof.Machine

/-! ### Operations -/

/-- A slot that writes one uniform register. -/
def writeSlot (i : Instr) (sd : SReg) (f : State → Word) (s : State) : Host.Outcome State Fault Refusal :=
  slot i (fun s => .done (uwrite s sd.toNat (f s))) s

/-- sd := f(sd, s(sa)). -/
def binarySlot (i : Instr) (f : Word → Word → Word) (sd sa : SReg) (s : State) :
    Host.Outcome State Fault Refusal :=
  writeSlot i sd (fun s => f (uread s sd.toNat) (uread s sa.toNat)) s

/-- sd := f(sd, literal). -/
def literalSlot (i : Instr) (f : Word → Word → Word) (sd : SReg) (imm : Word) (s : State) :
    Host.Outcome State Fault Refusal :=
  writeSlot i sd (fun s => f (uread s sd.toNat) imm) s

/-- sd := f(s(sa)). -/
def unarySlot (i : Instr) (f : Word → Word) (sd sa : SReg) (s : State) : Host.Outcome State Fault Refusal :=
  writeSlot i sd (fun s => f (uread s sa.toNat)) s

/-- Bits [63:32] of the signed product. -/
def mulHighS (a b : Word) : Word := BitVec.ofInt 32 (a.toInt * b.toInt / 2 ^ 32)

/-- Bits [63:32] of the unsigned product. -/
def mulHighU (a b : Word) : Word := BitVec.ofNat 32 (a.toNat * b.toNat / 2 ^ 32)

/-- Shifts by an unsigned count; 32 and more shift everything out (R164). -/
def shiftLeft (a b : Word) : Word := if b.toNat < 32 then a <<< b.toNat else 0
def shiftRight (a b : Word) : Word := if b.toNat < 32 then a >>> b.toNat else 0
def shiftArith (a b : Word) : Word := a.sshiftRight (min b.toNat 31)

/-- Smaller and larger, signed and unsigned. -/
def minS (a b : Word) : Word := if a.toInt ≤ b.toInt then a else b
def maxS (a b : Word) : Word := if b.toInt ≤ a.toInt then a else b
def minU (a b : Word) : Word := if a.toNat ≤ b.toNat then a else b
def maxU (a b : Word) : Word := if b.toNat ≤ a.toNat then a else b

/-- Leading zero bits, trailing zero bits, set bits of a word (R166). -/
def leadingZeros (a : Word) : Nat := ((List.range 32).find? fun i => a.getLsbD (31 - i)).getD 32
def trailingZeros (a : Word) : Nat := ((List.range 32).find? fun i => a.getLsbD i).getD 32
def setBits (a : Word) : Nat := ((List.range 32).filter fun i => a.getLsbD i).length

/-- Bit i moved to bit 31 − i. -/
def bitReverse (a : Word) : Word :=
  BitVec.ofNat 32 ((List.range 32).foldl (fun n i => 2 * n + (a.getLsbD i).toNat) 0)

/-- Sign and zero extension of the low bits. -/
def signExt (n : Nat) (a : Word) : Word := (a.setWidth n).signExtend 32
def zeroExt (n : Nat) (a : Word) : Word := (a.setWidth n).setWidth 32

/-- Magnitude of a signed word; 0x8000_0000 keeps itself. -/
def absWord (a : Word) : Word := if a.getLsbD 31 then 0 - a else a

/-- Position and width of a bit field, truncated at bit 31 (R168). -/
def fieldOf (ctl : Word) : Nat × Nat :=
  let pos := bits ctl 4 0
  (pos, min (bits ctl 12 8 + 1) (32 - pos))

/-- The bit field of a word, zero-extended and sign-extended. -/
def extractU (a ctl : Word) : Word :=
  let (p, n) := fieldOf ctl
  BitVec.ofNat 32 (a.toNat / 2 ^ p % 2 ^ n)
def extractS (a ctl : Word) : Word :=
  let (p, n) := fieldOf ctl
  BitVec.ofInt 32 (elemInt n true (a.toNat / 2 ^ p % 2 ^ n))

/-- Inserts the low bits of `v` into the field of `a`. -/
def insertField (a v ctl : Word) : Word :=
  let (p, n) := fieldOf ctl
  let old := a.toNat / 2 ^ p % 2 ^ n
  BitVec.ofNat 32 (a.toNat - old * 2 ^ p + v.toNat % 2 ^ n * 2 ^ p)

/-- Quotient and remainder, signed (R167). -/
def divS (a b : Word) : Word × Word :=
  if b = 0 then (0xFFFFFFFF, a)
  else if a = 0x80000000 ∧ b = 0xFFFFFFFF then (0x80000000, 0)
  else (BitVec.ofInt 32 (Int.tdiv a.toInt b.toInt), BitVec.ofInt 32 (Int.tmod a.toInt b.toInt))

/-- Quotient and remainder, unsigned (R167). -/
def divU (a b : Word) : Word × Word :=
  if b = 0 then (0xFFFFFFFF, a) else (BitVec.ofNat 32 (a.toNat / b.toNat), BitVec.ofNat 32 (a.toNat % b.toNat))

/-- A division: the result is computed at issue and delivered at completion (R159, R167). (DESIGN CHOICE, log 18). -/
def divisionSlot (i : Instr) (f : Word → Word → Word) (sd sa : SReg) (s : State) :
    Host.Outcome State Fault Refusal :=
  slot i (fun s =>
    let v := f (uread s sd.toNat) (uread s sa.toNat)
    match s.actor with
    | .core d =>
      .done (updCore s d fun c =>
        { c with divs := c.divs ++ [((c.clause.map Clause.flag).getD 15, sd.toNat, v)] })
    | .split _ _ =>
      withWho s fun w =>
        let c : Cmd :=
          { group := w.g, split := w.x, team := w.grp.team, task := w.grp.task
            flag := (w.sp.clause.map Clause.flag).getD 15, sd := sd.toNat, into := [w.x], key := agentKey w
            clock := w.sp.clock, prog := s.prog, body := .div v }
        .done (newCmd s c).2) s

/-- DIVISION_COMPLETE: command `a` of a group, or, with b = die + 1, the oldest division of a control core. -/
def execDivisionComplete (s : State) : Host.Outcome State Fault Refusal :=
  if s.arg.b = 0 then
    match Table.find s.cmds s.arg.a with
    | some c =>
      match c.body with
      | .div v => .next (finishCmd s s.arg.a c (uniformOuts c.sd [v]))
      | _ => .next s
    | none => .next s
  else
    let d := s.arg.b - 1
    match (coreOf s d).divs with
    | (f, n, v) :: rest =>
      .next (coreWrite (updCore s d fun c =>
        { c with divs := rest, flags := Sparse.set 0 c.flags f (Sparse.get 0 c.flags f - 1) }) d n v)
    | [] => .next s

/-! ### Scratchpad, launch words, mode -/

/-- Where a control core's address leads (R406). -/
inductive CoreSpace where
  | loc (a : Nat)
  | pa (a : Nat)
  | bad
  deriving DecidableEq, Repr

/-- The address map of a control core. -/
def corePlace (c : Core) (a n : Nat) : CoreSpace :=
  if a + n ≤ 0x40000 then .loc a
  else if 0x1000000 ≤ a && a + n ≤ 0x2000000 then
    .pa (bits (Sparse.get 0 c.sys 5) 15 0 * 2 ^ 24 + (a - 0x1000000))
  else .bad

/-- BOUNDS of a control core's access: cause 1 outside the map, 2 misaligned. -/
def coreAccess (s : State) (d a n : Nat) (f : CoreSpace → Res) : Res :=
  match corePlace (coreOf s d) a n with
  | .bad => .trap { cls := 4, cause := 1, d0 := word a }
  | p =>
    if a % n ≠ 0 then .trap { cls := 4, cause := 2, d0 := word a }
    else match p with
      | .pa pa => if memSize s < pa + n then .stop (.noSuchPhysicalAddress pa) else f p
      | p => f p

/-- A uniform load of `n` bytes at s(sa) + off (R169). -/
def loadBody (sd sa : SReg) (off : Word) (n : Nat) (ext : Word → Word) (s : State) : Res :=
  let a := (uread s sa.toNat + off).toNat
  match s.actor with
  | .core d =>
    coreAccess s d a n fun p =>
      let bs := match p with
        | .loc a => Sparse.read 0 (coreOf s d).mem a n
        | .pa a => physRead s 0 a n
        | .bad => []
      .done (uwrite s sd.toNat (ext (bytesWord bs)))
  | .split _ _ =>
    withWho s fun w =>
      .bind (placeOne s w a n) fun (t, o) =>
        let accs : List Acc := [⟨t, o, n, 0⟩]
        if heldAccess s w accs then .stall 7
        else
          .ok { s := uwrite s sd.toNat (ext (bytesWord (spadRead s w t o n))), accs
                looks := [localLook a n noLane true false] }

/-- A uniform store of the low `n` bytes of s(sd) at s(sa) + off (R169). -/
def storeBody (sd sa : SReg) (off : Word) (n : Nat) (s : State) : Res :=
  let a := (uread s sa.toNat + off).toNat
  let bs := leBytes n (uread s sd.toNat).toNat
  match s.actor with
  | .core d =>
    coreAccess s d a n fun p =>
      match p with
      | .loc a => .done (updCore s d fun c => { c with mem := Sparse.write 0 c.mem a bs })
      | .pa a => .done (storeCore s 0 a bs)
      | .bad => .done s
  | .split _ _ =>
    withWho s fun w =>
      .bind (placeOne s w a n) fun (t, o) =>
        let accs : List Acc := [⟨t, o, n, 1⟩]
        if heldAccess s w accs then .stall 7
        else .ok { s := spadWrite s w t o bs, accs, looks := [localLook a n noLane false true] }

/-- Bytes of a load width, and its extension. -/
def loadBytes : LoadWidth → Nat
  | .w => 4 | .h | .hs => 2 | .b | .bs => 1
def loadExt : LoadWidth → Word → Word
  | .w, v => v
  | .h, v => zeroExt 16 v
  | .hs, v => signExt 16 v
  | .b, v => zeroExt 8 v
  | .bs, v => signExt 8 v

/-- Bytes of a store width. -/
def widthBytes : Width → Nat
  | .w => 4 | .h => 2 | .b => 1

/-- Writes the mode register of the issuer. -/
def modeWrite (s : State) (m : Word) : State :=
  match s.actor with
  | .split g _ => updGroup s g fun grp => { grp with mode := m }
  | .core d => updCore s d fun c => { c with mode := m }

/-- The mode register of the issuer. -/
def modeRead (s : State) : Word :=
  match s.actor with
  | .split g _ => ((Table.find s.groups g).map (·.mode)).getD 0
  | .core d => (coreOf s d).mode

/-- The mode register as an item of the sibling rules (R171, R186). -/
def modeItem (write : Bool) : List Item := [⟨1, 0, write⟩]


/-! ### Moves and arithmetic (R163-R168) -/

/-- NOP: only the clock advances (R163). -/
def execNop (s : State) : Host.Outcome State Fault Refusal :=
  slot .nop (fun s => .done s) s

/-- SMOV: sd := s(sa) (R163). -/
def execSmov (sd sa : SReg) (s : State) : Host.Outcome State Fault Refusal :=
  unarySlot (.smov sd sa) (fun a => a) sd sa s

/-- SLIT: sd := literal (R163). -/
def execSlit (sd : SReg) (imm : Word) (s : State) : Host.Outcome State Fault Refusal :=
  writeSlot (.slit sd imm) sd (fun _ => imm) s

/-- SADD: sd + b (R164). -/
def execSadd (sd sa : SReg) (s : State) : Host.Outcome State Fault Refusal :=
  binarySlot (.sadd sd sa) (fun a b => a + b) sd sa s

/-- SSUB: sd − b (R164). -/
def execSsub (sd sa : SReg) (s : State) : Host.Outcome State Fault Refusal :=
  binarySlot (.ssub sd sa) (fun a b => a - b) sd sa s

/-- SMUL: low half of the product (R164). -/
def execSmul (sd sa : SReg) (s : State) : Host.Outcome State Fault Refusal :=
  binarySlot (.smul sd sa) (fun a b => a * b) sd sa s

/-- SMULHS: high half of the signed product (R164). -/
def execSmulhs (sd sa : SReg) (s : State) : Host.Outcome State Fault Refusal :=
  binarySlot (.smulhs sd sa) mulHighS sd sa s

/-- SMULHU: high half of the unsigned product (R164). -/
def execSmulhu (sd sa : SReg) (s : State) : Host.Outcome State Fault Refusal :=
  binarySlot (.smulhu sd sa) mulHighU sd sa s

/-- SAND: sd AND b (R164). -/
def execSand (sd sa : SReg) (s : State) : Host.Outcome State Fault Refusal :=
  binarySlot (.sand sd sa) (fun a b => a &&& b) sd sa s

/-- SOR: sd OR b (R164). -/
def execSor (sd sa : SReg) (s : State) : Host.Outcome State Fault Refusal :=
  binarySlot (.sor sd sa) (fun a b => a ||| b) sd sa s

/-- SXOR: sd XOR b (R164). -/
def execSxor (sd sa : SReg) (s : State) : Host.Outcome State Fault Refusal :=
  binarySlot (.sxor sd sa) (fun a b => a ^^^ b) sd sa s

/-- SANDN: sd AND NOT b (R164). -/
def execSandn (sd sa : SReg) (s : State) : Host.Outcome State Fault Refusal :=
  binarySlot (.sandn sd sa) (fun a b => a &&& ~~~ b) sd sa s

/-- SSHL: sd shifted left (R164). -/
def execSshl (sd sa : SReg) (s : State) : Host.Outcome State Fault Refusal :=
  binarySlot (.sshl sd sa) shiftLeft sd sa s

/-- SSHR: sd shifted right, zeros in (R164). -/
def execSshr (sd sa : SReg) (s : State) : Host.Outcome State Fault Refusal :=
  binarySlot (.sshr sd sa) shiftRight sd sa s

/-- SSRA: sd shifted right, sign in (R164). -/
def execSsra (sd sa : SReg) (s : State) : Host.Outcome State Fault Refusal :=
  binarySlot (.ssra sd sa) shiftArith sd sa s

/-- SMIN: smaller, signed (R164). -/
def execSmin (sd sa : SReg) (s : State) : Host.Outcome State Fault Refusal :=
  binarySlot (.smin sd sa) minS sd sa s

/-- SMAX: larger, signed (R164). -/
def execSmax (sd sa : SReg) (s : State) : Host.Outcome State Fault Refusal :=
  binarySlot (.smax sd sa) maxS sd sa s

/-- SMINU: smaller, unsigned (R164). -/
def execSminu (sd sa : SReg) (s : State) : Host.Outcome State Fault Refusal :=
  binarySlot (.sminu sd sa) minU sd sa s

/-- SMAXU: larger, unsigned (R164). -/
def execSmaxu (sd sa : SReg) (s : State) : Host.Outcome State Fault Refusal :=
  binarySlot (.smaxu sd sa) maxU sd sa s

/-- SADD, literal form: sd + b (R164). -/
def execSaddLit (sd : SReg) (imm : Word) (s : State) : Host.Outcome State Fault Refusal :=
  literalSlot (.saddLit sd imm) (fun a b => a + b) sd imm s

/-- SSUB, literal form: sd − b (R164). -/
def execSsubLit (sd : SReg) (imm : Word) (s : State) : Host.Outcome State Fault Refusal :=
  literalSlot (.ssubLit sd imm) (fun a b => a - b) sd imm s

/-- SMUL, literal form: low half of the product (R164). -/
def execSmulLit (sd : SReg) (imm : Word) (s : State) : Host.Outcome State Fault Refusal :=
  literalSlot (.smulLit sd imm) (fun a b => a * b) sd imm s

/-- SMULHS, literal form: high half of the signed product (R164). -/
def execSmulhsLit (sd : SReg) (imm : Word) (s : State) : Host.Outcome State Fault Refusal :=
  literalSlot (.smulhsLit sd imm) mulHighS sd imm s

/-- SMULHU, literal form: high half of the unsigned product (R164). -/
def execSmulhuLit (sd : SReg) (imm : Word) (s : State) : Host.Outcome State Fault Refusal :=
  literalSlot (.smulhuLit sd imm) mulHighU sd imm s

/-- SAND, literal form: sd AND b (R164). -/
def execSandLit (sd : SReg) (imm : Word) (s : State) : Host.Outcome State Fault Refusal :=
  literalSlot (.sandLit sd imm) (fun a b => a &&& b) sd imm s

/-- SOR, literal form: sd OR b (R164). -/
def execSorLit (sd : SReg) (imm : Word) (s : State) : Host.Outcome State Fault Refusal :=
  literalSlot (.sorLit sd imm) (fun a b => a ||| b) sd imm s

/-- SXOR, literal form: sd XOR b (R164). -/
def execSxorLit (sd : SReg) (imm : Word) (s : State) : Host.Outcome State Fault Refusal :=
  literalSlot (.sxorLit sd imm) (fun a b => a ^^^ b) sd imm s

/-- SANDN, literal form: sd AND NOT b (R164). -/
def execSandnLit (sd : SReg) (imm : Word) (s : State) : Host.Outcome State Fault Refusal :=
  literalSlot (.sandnLit sd imm) (fun a b => a &&& ~~~ b) sd imm s

/-- SSHL, literal form: sd shifted left (R164). -/
def execSshlLit (sd : SReg) (imm : Word) (s : State) : Host.Outcome State Fault Refusal :=
  literalSlot (.sshlLit sd imm) shiftLeft sd imm s

/-- SSHR, literal form: sd shifted right, zeros in (R164). -/
def execSshrLit (sd : SReg) (imm : Word) (s : State) : Host.Outcome State Fault Refusal :=
  literalSlot (.sshrLit sd imm) shiftRight sd imm s

/-- SSRA, literal form: sd shifted right, sign in (R164). -/
def execSsraLit (sd : SReg) (imm : Word) (s : State) : Host.Outcome State Fault Refusal :=
  literalSlot (.ssraLit sd imm) shiftArith sd imm s

/-- SMIN, literal form: smaller, signed (R164). -/
def execSminLit (sd : SReg) (imm : Word) (s : State) : Host.Outcome State Fault Refusal :=
  literalSlot (.sminLit sd imm) minS sd imm s

/-- SMAX, literal form: larger, signed (R164). -/
def execSmaxLit (sd : SReg) (imm : Word) (s : State) : Host.Outcome State Fault Refusal :=
  literalSlot (.smaxLit sd imm) maxS sd imm s

/-- SMINU, literal form: smaller, unsigned (R164). -/
def execSminuLit (sd : SReg) (imm : Word) (s : State) : Host.Outcome State Fault Refusal :=
  literalSlot (.sminuLit sd imm) minU sd imm s

/-- SMAXU, literal form: larger, unsigned (R164). -/
def execSmaxuLit (sd : SReg) (imm : Word) (s : State) : Host.Outcome State Fault Refusal :=
  literalSlot (.smaxuLit sd imm) maxU sd imm s

/-- SCMP.cc: 1 when (sd cc b) holds, else 0 (R165). -/
def execScmp (sd sa : SReg) (cc : Cond) (s : State) : Host.Outcome State Fault Refusal :=
  binarySlot (.scmp sd sa cc) (fun a b => flagWord (condHolds cc 32 a.toNat b.toNat)) sd sa s

/-- SCMP.cc, literal form (R165). -/
def execScmpLit (sd : SReg) (cc : Cond) (imm : Word) (s : State) : Host.Outcome State Fault Refusal :=
  literalSlot (.scmpLit sd cc imm) (fun a b => flagWord (condHolds cc 32 a.toNat b.toNat)) sd imm s

/-- SNOT: NOT a (R166). -/
def execSnot (sd sa : SReg) (s : State) : Host.Outcome State Fault Refusal :=
  unarySlot (.snot sd sa) (fun a => ~~~ a) sd sa s

/-- SNEG: 0 − a (R166). -/
def execSneg (sd sa : SReg) (s : State) : Host.Outcome State Fault Refusal :=
  unarySlot (.sneg sd sa) (fun a => 0 - a) sd sa s

/-- SABS: magnitude (R166). -/
def execSabs (sd sa : SReg) (s : State) : Host.Outcome State Fault Refusal :=
  unarySlot (.sabs sd sa) absWord sd sa s

/-- SCLZ: leading zeros (R166). -/
def execSclz (sd sa : SReg) (s : State) : Host.Outcome State Fault Refusal :=
  unarySlot (.sclz sd sa) (fun a => word (leadingZeros a)) sd sa s

/-- SCTZ: trailing zeros (R166). -/
def execSctz (sd sa : SReg) (s : State) : Host.Outcome State Fault Refusal :=
  unarySlot (.sctz sd sa) (fun a => word (trailingZeros a)) sd sa s

/-- SPOP: set bits (R166). -/
def execSpop (sd sa : SReg) (s : State) : Host.Outcome State Fault Refusal :=
  unarySlot (.spop sd sa) (fun a => word (setBits a)) sd sa s

/-- SBREV: bits reversed (R166). -/
def execSbrev (sd sa : SReg) (s : State) : Host.Outcome State Fault Refusal :=
  unarySlot (.sbrev sd sa) bitReverse sd sa s

/-- SSEXT8: a[7:0] sign-extended (R166). -/
def execSsext8 (sd sa : SReg) (s : State) : Host.Outcome State Fault Refusal :=
  unarySlot (.ssext8 sd sa) (signExt 8) sd sa s

/-- SSEXT16: a[15:0] sign-extended (R166). -/
def execSsext16 (sd sa : SReg) (s : State) : Host.Outcome State Fault Refusal :=
  unarySlot (.ssext16 sd sa) (signExt 16) sd sa s

/-- SZEXT8: a[7:0] zero-extended (R166). -/
def execSzext8 (sd sa : SReg) (s : State) : Host.Outcome State Fault Refusal :=
  unarySlot (.szext8 sd sa) (zeroExt 8) sd sa s

/-- SZEXT16: a[15:0] zero-extended (R166). -/
def execSzext16 (sd sa : SReg) (s : State) : Host.Outcome State Fault Refusal :=
  unarySlot (.szext16 sd sa) (zeroExt 16) sd sa s

/-- SDIV: signed quotient, long-latency (R167). -/
def execSdiv (sd sa : SReg) (s : State) : Host.Outcome State Fault Refusal :=
  divisionSlot (.sdiv sd sa) (fun a b => (divS a b).1) sd sa s

/-- SDIVU: unsigned quotient, long-latency (R167). -/
def execSdivu (sd sa : SReg) (s : State) : Host.Outcome State Fault Refusal :=
  divisionSlot (.sdivu sd sa) (fun a b => (divU a b).1) sd sa s

/-- SREM: signed remainder, long-latency (R167). -/
def execSrem (sd sa : SReg) (s : State) : Host.Outcome State Fault Refusal :=
  divisionSlot (.srem sd sa) (fun a b => (divS a b).2) sd sa s

/-- SREMU: unsigned remainder, long-latency (R167). -/
def execSremu (sd sa : SReg) (s : State) : Host.Outcome State Fault Refusal :=
  divisionSlot (.sremu sd sa) (fun a b => (divU a b).2) sd sa s

/-- SBFXU: the field that s(sa) names, zero-extended (R168). -/
def execSbfxu (sd sa : SReg) (s : State) : Host.Outcome State Fault Refusal :=
  binarySlot (.sbfxu sd sa) extractU sd sa s

/-- SBFXS: the field that s(sa) names, sign-extended (R168). -/
def execSbfxs (sd sa : SReg) (s : State) : Host.Outcome State Fault Refusal :=
  binarySlot (.sbfxs sd sa) extractS sd sa s

/-- SBFI: the low bits of s(sa) into the field of sd (R168). -/
def execSbfi (sd sa : SReg) (ctl : Word) (s : State) : Host.Outcome State Fault Refusal :=
  writeSlot (.sbfi sd sa ctl) sd (fun s => insertField (uread s sd.toNat) (uread s sa.toNat) ctl) s

/-! ### Memory, launch words and the mode register (R169-R171) -/

/-- SLD: a uniform load (R169). -/
def execSld (sd sa : SReg) (width : LoadWidth) (off : Word) (s : State) : Host.Outcome State Fault Refusal :=
  slot (.sld sd sa width off) (loadBody sd sa off (loadBytes width) (loadExt width)) s

/-- SST: a uniform store (R169). -/
def execSst (sd sa : SReg) (width : Width) (off : Word) (s : State) : Host.Outcome State Fault Refusal :=
  slot (.sst sd sa width off) (storeBody sd sa off (widthBytes width)) s

/-- SLR: word n of the task's launch record (R170); a control core reads 0 (R405). -/
def execSlr (sd : SReg) (n : BitVec 10) (s : State) : Host.Outcome State Fault Refusal :=
  writeSlot (.slr sd n) sd (fun s =>
    match issuer s with
    | some w => recWord w.task.words n.toNat
    | none => 0) s

/-- SLR.C: word n of the constant block, as committed before the grid's launch began (R170). -/
def execSlrC (sd : SReg) (n : BitVec 10) (s : State) : Host.Outcome State Fault Refusal :=
  slot (.slrC sd n) (fun s =>
    match s.actor with
    | .core _ => .done (uwrite s sd.toNat 0)
    | .split _ _ =>
      withWho s fun w =>
        let base := recCblk w.task.words
        match constWord s w.launch w.team.die base n.toNat with
        | .ok v => .done (uwrite s sd.toNat v)
        | .error (.hole pa) => .stop (.noSuchPhysicalAddress pa)
        | .error _ =>
          let va := (base + 4 * n.toNat) % 2 ^ 56
          .trap { cls := 8, cause := 1, d0 := word va, d1 := word (va / 2 ^ 32) }) s

/-- MODE: mode := s(sa), checked when it executes (R171). -/
def execMode (sa : SReg) (s : State) : Host.Outcome State Fault Refusal :=
  slot (.mode sa) (fun s =>
    let m := uread s sa.toNat
    if modeIllegal m then
      .trap { cls := 0, cause := 7, d0 := ((issuer s).bind fun w => w.sp.clause.map (·.hw)).getD 0 }
    else .ok { s := modeWrite s m, items := modeItem true }) s

/-- MODEG: sd := mode (R171). -/
def execModeg (sd : SReg) (s : State) : Host.Outcome State Fault Refusal :=
  slot (.modeg sd) (fun s => .ok { s := uwrite s sd.toNat (modeRead s &&& 0x7FFF), items := modeItem false }) s

/-- MODEI: mode := literal (R171). A value that the mode register refuses is ILLEGAL cause 7, checked before
the clause starts. -/
def execModei (imm : Word) (s : State) : Host.Outcome State Fault Refusal :=
  slot (.modei imm) (fun s =>
    if modeIllegal imm then .trap { cls := 0, cause := 7, stat := true }
    else .ok { s := modeWrite s imm, items := modeItem true }) s

/-! ### Mask operations (R101, R172) -/

/-- td := f(td, ta). -/
def maskSlot (i : Instr) (td : TReg) (f : State → Mask) (s : State) : Host.Outcome State Fault Refusal :=
  slot i (fun s => .done (tripleWrite s td.toNat (f s))) s

/-- The lowest and the highest set lane, or 0xFFFF_FFFF. -/
def firstLane (m : Mask) : Word :=
  match (List.range 96).find? fun l => m.getLsbD l with | some l => word l | none => 0xFFFFFFFF
def lastLane (m : Mask) : Word :=
  match (List.range 96).find? fun i => m.getLsbD (95 - i) with | some i => word (95 - i) | none => 0xFFFFFFFF

/-- MPOP: count of set bits. -/
def execMpop (sd : SReg) (ta : TReg) (s : State) : Host.Outcome State Fault Refusal :=
  writeSlot (.mpop sd ta) sd (fun s => word (lanesOf (tripleRead s ta.toNat)).length) s

/-- MFIRST: lowest set lane. -/
def execMfirst (sd : SReg) (ta : TReg) (s : State) : Host.Outcome State Fault Refusal :=
  writeSlot (.mfirst sd ta) sd (fun s => firstLane (tripleRead s ta.toNat)) s

/-- MLAST: highest set lane. -/
def execMlast (sd : SReg) (ta : TReg) (s : State) : Host.Outcome State Fault Refusal :=
  writeSlot (.mlast sd ta) sd (fun s => lastLane (tripleRead s ta.toNat)) s

/-- MNOT: td := NOT ta. -/
def execMnot (td ta : TReg) (s : State) : Host.Outcome State Fault Refusal :=
  maskSlot (.mnot td ta) td (fun s => ~~~ tripleRead s ta.toNat) s

/-- MAND: td := td AND ta. -/
def execMand (td ta : TReg) (s : State) : Host.Outcome State Fault Refusal :=
  maskSlot (.mand td ta) td (fun s => tripleRead s td.toNat &&& tripleRead s ta.toNat) s

/-- MOR: td := td OR ta. -/
def execMor (td ta : TReg) (s : State) : Host.Outcome State Fault Refusal :=
  maskSlot (.mor td ta) td (fun s => tripleRead s td.toNat ||| tripleRead s ta.toNat) s

/-- MXOR: td := td XOR ta. -/
def execMxor (td ta : TReg) (s : State) : Host.Outcome State Fault Refusal :=
  maskSlot (.mxor td ta) td (fun s => tripleRead s td.toNat ^^^ tripleRead s ta.toNat) s

/-- MANDN: td := td ANDN ta. -/
def execMandn (td ta : TReg) (s : State) : Host.Outcome State Fault Refusal :=
  maskSlot (.mandn td ta) td (fun s => tripleRead s td.toNat &&& ~~~ tripleRead s ta.toNat) s

/-- MCLR: td := 0. -/
def execMclr (td : TReg) (s : State) : Host.Outcome State Fault Refusal :=
  maskSlot (.mclr td) td (fun _ => 0) s

/-- MALL: td := lanes 0-95 set. -/
def execMall (td : TReg) (s : State) : Host.Outcome State Fault Refusal :=
  maskSlot (.mall td) td (fun _ => ~~~ 0) s

end Sys2Proof.Machine
end

