-- ==== Sys2Proof/Machine/Barrier.lean ====
section
/-!
DEFINITION. The team barrier instructions (05_lane_engine R227-R230), and the order in which a wait fixes the
logical times of commands (01_engines R40) and makes another agent's writes visible (07_copy_engine R251).
-/

namespace Sys2Proof.Machine

/-- The group takes part in a barrier, else BOUNDS barrier participation (R230). -/
def takesPart (w : Who) (b : Nat) (f : Bar → Res) : Res :=
  let k := barOf w.team b
  if bit k.cfg w.grp.gidx then f k else .trap { cls := 4, cause := 12, d0 := word b }

/-- Effects and commands of the agent's line whose logical time is fixed are visible by phase `p` of barrier
`b` (R251). -/
def publish (s : State) (w : Who) (b p : Nat) : State :=
  let mine (g x : Nat) : Bool := g = w.g && w.sp.line.contains x
  { s with
    effects := s.effects.map fun e =>
      if mine e.group e.split && e.time.isSome then { e with pub := e.pub ++ [(b, p)] } else e
    cmds := s.cmds.map fun (n, c) =>
      if mine c.group c.split && c.time.isSome then (n, { c with pub := c.pub ++ [(b, p)] }) else (n, c) }

/-- The checks of an arrival: a configuration that waits for b0 forbids it (R228), and two phases ahead of the
completed count it stalls (R230). (DEDUCED, log 116). -/
def arriving (s : State) (w : Who) (b reason : Nat) (f : Bar → Nat → Res) : Res :=
  takesPart w b fun k =>
    let p := pairGet w.sp.arr b + 1
    match k.next with
    | some v =>
      if b = 0 then (if k.done + 1 < p then .barrier reason else f k p)
      else .trap { barCfgTrap v with target := groupZero s w.grp.team }
    | none => if k.done + 1 < p then .barrier reason else f k p

/-- Records the arrival for phase `p` at the clock after the instruction (R42). -/
def arrive (s : State) (w : Who) (b p : Nat) : State :=
  let s := updSplit s w.g w.x fun sp => { sp with arr := Table.put sp.arr b p }
  let s := updBar s w.grp.team b fun k =>
    { k with clocks := pairMaxSet k.clocks p (w.sp.clock + 1), touched := true, arrived := max k.arrived p }
  publish s w b p

/-- The commands that arrive at barrier `b` take their logical time from the wait (R40 item 2). -/
def fixBar (s : State) (w : Who) (b : Nat) : State :=
  fixTimes s w fun c => match c.bar with | some (k, _) => k = b | none => false

/-- The line has waited for phase `p` of barrier `b` (R251). -/
def seePhase (s : State) (w : Who) (b p : Nat) : State :=
  updSplit s w.g w.x fun sp => { sp with seen := pairMaxSet sp.seen b p }

/-- BARA: records the next arrival and continues. -/
def execBara (b : BitVec 4) (s : State) : Host.Outcome State Fault Refusal :=
  slot (.bara b) (fun s => withWho s fun w =>
    arriving s w b.toNat 15 fun _ p =>
      .ok { s := arrive s w b.toNat p, post := fun s => barSettle 4 s w.grp.team b.toNat }) s

/-- BARW: waits for every phase that the split has arrived for. -/
def execBarw (b : BitVec 4) (s : State) : Host.Outcome State Fault Refusal :=
  slot (.barw b) (fun s => withWho s fun w =>
    takesPart w b.toNat fun k =>
      let p := pairGet w.sp.arr b.toNat
      let s := fixBar s w b.toNat
      if p = 0 then .done s
      else
        let s := seePhase s w b.toNat p
        if p ≤ k.done then
          .ok { s, post := fun s => updSplit s w.g w.x fun sp => { sp with clock := max sp.clock (barClock k p) } }
        else .ok { s, flow := .wait (.bar b.toNat p) }) s

/-- BAR: arrives and waits. -/
def execBar (b : BitVec 4) (s : State) : Host.Outcome State Fault Refusal :=
  slot (.bar b) (fun s => withWho s fun w =>
    arriving s w b.toNat 9 fun _ p =>
      let s := arrive (fixBar s w b.toNat) w b.toNat p
      .ok { s := seePhase s w b.toNat p, flow := .wait (.bar b.toNat p)
            post := fun s => barSettle 4 s w.grp.team b.toNat }) s

/-- A configuration word that R228 refuses whatever the barrier's state. -/
def barCfgBad (w : Who) (b : Nat) (v : Word) : Bool :=
  let all := 2 ^ w.team.groups.length - 1
  let part := bits v 15 0
  w.grp.gidx ≠ 0 || bits v 31 17 ≠ 0 || part = 0 || decide (all < part) || (b = 0 && part ≠ all)

/-- BARCFG: the word takes effect at the next completion of b0 (R228). -/
def execBarcfg (b : BitVec 4) (sd : SReg) (s : State) : Host.Outcome State Fault Refusal :=
  slot (.barcfg b sd) (fun s => withWho s fun w =>
    let v := uread s sd.toNat
    if barCfgBad w b.toNat v || (b ≠ 0 && (barOf w.team b.toNat).touched) then .trap (barCfgTrap v)
    else
      .ok { s := updBar s w.grp.team b.toNat fun k => { k with next := some v }
            items := [⟨4, b.toNat, true⟩] }) s

/-- A command may name a barrier only when it counts copies and the issuing group takes part (R229). -/
def barAdmits (w : Who) (b : Nat) : Bool :=
  let k := barOf w.team b
  bit k.cfg 16 && bit k.cfg w.grp.gidx

end Sys2Proof.Machine
end

