-- ==== Sys2Proof/Machine/Control.lean ====
section
/-!
DEFINITION. Control flow and splits (04_issue_engine R173-R176, R178, R180, R183-R185; 05_lane_engine R226):
branches, calls, the division of a split, merging at `RECON`, and the user handler's return (13_control_core
R424).
-/

namespace Sys2Proof.Machine

/-! ### Branches and calls -/

/-- A taken branch writes a trace record when PBCTL asks for it (R443, R451). -/
def traceJump (s : State) (t : Nat) : State :=
  match issuer s with
  | some w => trace s w 1 2 (splitPc w.sp) (word t)
  | none => s

/-- BR: the whole split continues at the target when the condition holds (R174). -/
def execBr (sc : SReg) (cc : BrCond) (target : Word) (s : State) : Host.Outcome State Fault Refusal :=
  slot (.br sc cc target) (fun s =>
    if brHolds cc (uread s sc.toNat) then
      .ok { s := traceJump s target.toNat, flow := .jump target.toNat }
    else .done s) s

/-- The call stack of the issuer. -/
def callsOf (s : State) : List Word :=
  match s.actor with
  | .split g x => ((whoOf s g x).map (·.sp.calls)).getD []
  | .core d => (coreOf s d).calls

/-- Replaces the call stack of the issuer. -/
def setCalls (s : State) (l : List Word) : State :=
  match s.actor with
  | .split g x => updSplit s g x fun sp => { sp with calls := l }
  | .core d => updCore s d fun c => { c with calls := l }

/-- The offset of the clause after the issuer's clause. -/
def nextClause (s : State) : Nat :=
  let c := match s.actor with
    | .split g x => (whoOf s g x).bind (·.sp.clause)
    | .core d => (coreOf s d).clause
  (c.map Clause.nextOff).getD 0

/-- CALL: pushes the offset of the next clause and continues at the target (R176). -/
def execCall (target : Word) (s : State) : Host.Outcome State Fault Refusal :=
  slot (.call target) (fun s =>
    if 32 ≤ (callsOf s).length then .trap { cls := 4, cause := 5, d0 := word (callsOf s).length, d1 := 32 }
    else
      .ok { s := traceJump (setCalls s (word (nextClause s) :: callsOf s)) target.toNat
            flow := .jump target.toNat }) s

/-- RET: pops the top frame and continues at its offset (R176). -/
def execRet (s : State) : Host.Outcome State Fault Refusal :=
  slot .ret (fun s =>
    match callsOf s with
    | [] => .trap { cls := 4, cause := 6 }
    | r :: rest => .ok { s := traceJump (setCalls s rest) r.toNat, flow := .jump r.toNat }) s

/-- TRAPU: raises USER with its code; a control core enters its vector 13 (R178, R405). -/
def execTrapu (code : BitVec 10) (s : State) : Host.Outcome State Fault Refusal :=
  slot (.trapu code) (fun _ => .trap { cls := 13, cause := 1, d0 := code.setWidth 32, rpcNext := true }) s

/-- BKPT: DEBUG cause 4 on a compute core, in every mode (R439, R442). -/
def execBkpt (code : BitVec 10) (s : State) : Host.Outcome State Fault Refusal :=
  slot (.bkpt code) (fun _ => .trap { cls := 12, cause := 4, d0 := code.setWidth 32, rpcNext := true }) s

/-! ### Division (R180) -/

/-- A child of a division: its lanes, its mask, where it continues. -/
def childOf (sp : Split) (id rec : Nat) (lanes mask : Mask) (pc : Nat) (entry : Option Nat) : Split :=
  { sp with
    lanes, mask, pc, entry
    clause := none
    last := none
    step := false
    klane := lowLane mask
    recs := rec :: sp.recs
    line := sp.line ++ [id] }

/-- Commands whose results go to split `x` go to the splits `ys` instead (R234, R257). -/
def passResults (s : State) (g x : Nat) (ys : List Nat) : State :=
  { s with cmds := s.cmds.map fun (n, c) =>
      if c.group = g && c.into.contains x then (n, { c with into := (c.into.filter (· != x)) ++ ys }) else (n, c) }

/-- The trap that split `x` is handling is handled by split `y` instead (R423). (DEDUCED, log 25). -/
def passTraps (s : State) (t g x y : Nat) : State :=
  updTeam s t fun tm =>
    { tm with traps := tm.traps.map fun h => if h.group = g && h.split = x then { h with split := y } else h }

/-- The trap that split `x` is handling is handled by split `y` as well, under a number of its own.
(DEDUCED, log 25). -/
def shareTraps (s : State) (t g x y : Nat) : State :=
  match Table.find s.teams t with
  | none => s
  | some tm =>
    (tm.traps.filter fun h => h.group = g && h.split = x).foldl (fun s h =>
      updTeam { s with fresh := s.fresh + 1 } t fun tm => { tm with traps := tm.traps ++ [{ h with split := y, id := s.fresh }] }) s

/-- The retired `BRV` at offset `pc` of split `x` divides it: the taken lanes continue at the target, the others after the
clause. (DEDUCED, log 25). -/
def divide (g x : Nat) (take : Mask) (pc target next : Nat) (s : State) : State :=
  match whoOf s g x with
  | none => s
  | some w =>
    let sp := w.sp
    let a := w.grp.nextSplit
    let b := a + 1
    let d := w.grp.nextRec
    let stay := sp.mask &&& ~~~ take
    let aLow := decide (lowLane take < lowLane stay)
    let ca := childOf sp a d take take target (if aLow then sp.entry else none)
    let cb := childOf sp b d (sp.lanes &&& ~~~ take) stay next (if aLow then none else sp.entry)
    let s := updGroup s g fun grp =>
      { grp with
        splits := Table.put (Table.put (Table.del grp.splits x) a ca) b cb
        nextSplit := b + 1
        recs := Table.put grp.recs d sp.lanes
        nextRec := d + 1 }
    let s := passTraps (shareTraps s w.grp.team g x b) w.grp.team g x a
    trace (passResults s g x [a, b]) w 2 3 pc (word (lowLane take))

/-- BRV: divides lanes by a mask (R175). -/
def execBrv (u f : Bool) (tm : TReg) (target : Word) (s : State) : Host.Outcome State Fault Refusal :=
  slot (.brv u f tm target) (fun s =>
    withWho s fun w =>
      let t := tripleRead s tm.toNat
      let sel := if f then ~~~ t else t
      let take := w.sp.mask &&& sel
      let stay := w.sp.mask &&& ~~~ take
      if take = 0 then .done s
      else if stay = 0 then .ok { s := traceJump s target.toNat, flow := .jump target.toNat }
      else if u then .trap { cls := 1, cause := 1, lanes := some take }
      else .ok { s, post := divide w.g w.x take (splitPc w.sp) target.toNat (nextClause s) }) s

/-! ### Merging (R183, R184, R226) -/

/-- The `RECON` a split waits at. -/
def Split.reconAt (sp : Split) : Option Clause :=
  match sp.mode with
  | .recon c => some c
  | _ => match sp.saved with | some (.recon c) => some c | _ => none

/-- Its innermost record. -/
def Split.inner (sp : Split) : Option Nat := sp.recs.head?

/-- The live splits that hold lanes of a lane set. -/
def holders (grp : Group) (m : Mask) : List (Nat × Split) :=
  grp.splits.filter fun e => (e.2.lanes &&& m) ≠ 0

/-- The splits that would merge for record `d`: every live lane of its lane set waits with `d` innermost. -/
def mergeable (grp : Group) (d : Nat) : Option (List (Nat × Split)) :=
  match Table.find grp.recs d with
  | none => none
  | some m =>
    let hs := holders grp m
    if !hs.isEmpty && hs.all fun e => e.2.reconAt.isSome && e.2.inner = some d then some hs else none

/-- The larger of two per-key counts. (DEDUCED, log 41). -/
def pairMerge (a b : List (Nat × Nat)) : List (Nat × Nat) :=
  b.foldl (fun l e => pairMaxSet l e.1 e.2) a

/-- Two waiting splits as one (R183, R139, R234): lane sets, masks and flags join, the larger clock stands.
(DEDUCED, log 114). -/
def joinSplit (a b : Split) : Split :=
  { a with
    lanes := a.lanes ||| b.lanes
    mask := a.mask ||| b.mask
    clock := max a.clock b.clock
    fps := a.fps ||| b.fps
    pend := a.pend ++ b.pend.filter fun p => !a.pend.contains p
    line := a.line ++ b.line.filter fun n => !a.line.contains n
    arr := pairMerge a.arr b.arr
    karr := pairMerge a.karr b.karr
    seen := pairMerge a.seen b.seen
    ordN := if a.ordQ = b.ordQ then max a.ordN b.ordN else if a.ordQ < b.ordQ then b.ordN else a.ordN
    ordQ := max a.ordQ b.ordQ
    base := max a.base b.base
    due := a.due ++ b.due }

/-- The UNIFORM cause that keeps splits from merging: offsets, call stacks, spill depths (R184, R226).
(DEDUCED, log 32). -/
def mergeCause (hs : List (Nat × Split)) : Option Nat :=
  match hs with
  | [] => none
  | (_, a) :: rest =>
    let off (sp : Split) : Nat := (sp.reconAt.map Clause.slotOff).getD 0
    if rest.any fun e => off e.2 ≠ off a then some 2
    else if rest.any fun e => e.2.calls ≠ a.calls then some 3
    else if rest.any fun e => e.2.spill ≠ a.spill then some 4
    else none

/-- UNIFORM in the waiting split with the lowest key, which stands at its `RECON` again. (DEDUCED, log 32). -/
def mergeTrap (s : State) (g : Nat) (d : Nat) (hs : List (Nat × Split)) (cause : Nat) : State :=
  match leastBy (fun a b : Nat × Split => decide (a.2.klane < b.2.klane)) hs with
  | none => s
  | some (x, sp) =>
    let off (sp : Split) : Nat := (sp.reconAt.map Clause.slotOff).getD 0
    let others := (hs.map fun e => off e.2).filter (· != off sp)
    let d0 := if cause = 2 then word (others.foldl min (others.headD 0)) else 0
    let lanes := (Table.find s.groups g).bind fun grp => Table.find grp.recs d
    let s := updSplit s g x fun sp =>
      { sp with clause := sp.reconAt, mode := .ready, saved := none }
    raise s g x { cls := 1, cause, lanes, d0 }

/-- Merges the splits of record `d` into one new agent, which stands at the `RECON`. -/
def mergeRecord (grp : Group) (d : Nat) (hs : List (Nat × Split)) : Group × Nat :=
  let n := grp.nextSplit
  match hs with
  | [] => (grp, n)
  | (_, a) :: rest =>
    let m := rest.foldl (fun m e => joinSplit m e.2) a
    let sp := { m with
      klane := lowLane m.lanes
      recs := m.recs.drop 1
      line := m.line ++ [n]
      step := false
      mode := .recon ((a.reconAt).getD ⟨0, 0, [], 0, 0⟩)
      saved := none
      entry := none }
    let keep := grp.splits.filter fun e => !(hs.any fun h => h.1 = e.1)
    ({ grp with splits := Table.put keep n sp, nextSplit := n + 1, recs := Table.del grp.recs d }, n)

/-- The merged agent continues after its `RECON`. -/
def leaveRecon (grp : Group) (x : Nat) : Group :=
  { grp with splits := Table.upd grp.splits x fun sp => { sp with mode := .ready } }

/-- The outer record that a merged agent merges at once: every other lane of it has exited or waits at the same
`RECON` with it innermost. -/
def outerMerge (grp : Group) (n : Nat) : Option Nat :=
  match (Table.find grp.splits n).bind Split.inner with
  | none => none
  | some e =>
    match mergeable grp e with
    | some hs => if mergeCause hs = some 2 then none else some e
    | none => none

/-- Merges record `d` when it can, then its outer records at the same `RECON` (R183). The trace record of a merge names the
entry that the merged agent takes (R181, R451). -/
def mergeFrom : Nat → State → Nat → Nat → State
  | 0, s, _, _ => s
  | fuel + 1, s, g, d =>
    match Table.find s.groups g with
    | none => s
    | some grp =>
      match mergeable grp d with
      | none => s
      | some hs =>
        match mergeCause hs with
        | some c => mergeTrap s g d hs c
        | none =>
          let (grp', n) := mergeRecord grp d hs
          let s := updGroup s g fun _ => grp'
          let s := hs.foldl (fun s e => passTraps (passResults s g e.1 [n]) grp.team g e.1 n) s
          let s := { s with cmds := s.cmds.map fun (k, c) => (k, { c with into := c.into.eraseDups }) }
          let seat := ((Table.find (reseat (leaveRecon grp' n)).splits n).bind (·.entry))
          let s := match whoOf s g n with
            | some w =>
              trace s { w with sp := { w.sp with entry := seat } } 2 4
                ((w.sp.reconAt.map Clause.slotOff).getD (splitPc w.sp)) (word w.sp.clock)
            | none => s
          match outerMerge grp' n with
          | some e => mergeFrom fuel s g e
          | none => updGroup s g fun grp => leaveRecon grp n

/-- Tries every record of a group after a split has begun to wait or has exited. -/
def mergeAll (s : State) (g : Nat) : State :=
  match Table.find s.groups g with
  | none => s
  | some grp =>
    let ds := (grp.splits.filterMap fun e => if e.2.reconAt.isSome then e.2.inner else none).eraseDups
    let s := ds.foldl (fun s d => mergeFrom 100 s g d) s
    match Table.find s.groups g with
    | some grp => barSettleAll (updGroup s g reseat) grp.team
    | none => s

/-- RECON: retires, and waits when the split has a divergence record; a merge follows as soon as it can
(R183). -/
def execRecon (s : State) : Host.Outcome State Fault Refusal :=
  slot .recon (fun s =>
    withWho s fun w =>
      match w.sp.recs, w.sp.clause with
      | _ :: _, some c => .ok { s, flow := .wait (.recon c), post := fun s => mergeAll s w.g }
      | _, _ => .done s) s

/-! ### The user handler's end (R424) -/

/-- The trap whose user handler a split runs. -/
def handledBy (g x : Nat) (h : HeldTrap) : Bool := h.user && h.group = g && h.split = x

/-- TRET: the frame is restored, the split continues at s994 and the team's halt is released. -/
def execTret (s : State) : Host.Outcome State Fault Refusal :=
  slot .tret (fun s =>
    withWho s fun w =>
      if w.sp.frame.isNone then
        .trap { cls := 0, cause := 18, d0 := (w.sp.clause.map (·.hw)).getD 0 }
      else
        let r := (uread s 994).toNat / 4 * 4
        .ok { s, post := fun s => endTrap (leaveHandler s w.g w.x r) w.grp.team (handledBy w.g w.x) }) s

/-- TESC: the side buffer as written at entry, with esc set, joins the supervisor's trap queue, and the team
stays halted. -/
def execTesc (s : State) : Host.Outcome State Fault Refusal :=
  slot .tesc (fun s =>
    withWho s fun w =>
      if w.sp.frame.isNone then
        .trap { cls := 0, cause := 18, d0 := (w.sp.clause.map (·.hw)).getD 0 }
      else
        .ok { s, post := fun s =>
          match (Table.find s.teams w.grp.team).bind fun tm => tm.traps.find? (handledBy w.g w.x) with
          | none => s
          | some h =>
            let ws := word ((h.words.getD 0 0).toNat ||| 2 ^ 17) :: h.words.drop 1
            let s := dropTrap s w.grp.team fun r => handledBy w.g w.x r && r.id ≠ h.id
            let s := updTeam s w.grp.team fun tm =>
              { tm with traps := tm.traps.map fun r =>
                  if r.id = h.id then { r with user := false, words := ws } else r }
            let s := updGroup s w.g fun grp => { grp with side := ws }
            queueTrap s w.team.die { team := w.grp.team, group := w.g, split := w.x, words := ws, trap := h.id } }) s

end Sys2Proof.Machine
end

