-- ==== Sys2Proof/Machine/Lifecycle.lean ====
section
/-!
DEFINITION. The end of splits, groups, teams and tasks (04_issue_engine R177; 01_engines R47; 11 R359), cluster
barriers (09_task_engine R319), aborts and tillers (R303, R310), the held events of unrooted tasks (R302), and the
termination of a team (07_copy_engine R261).
-/

namespace Sys2Proof.Machine

/-! ### Cluster barriers (R319, R42) -/

/-- Commits of a domain so far. -/
def domNext (s : State) (d : Nat) : Nat := ((Table.find s.doms d).map (·.next)).getD 0

/-- A team's arrivals at cluster barrier `k`: none once it has no live group. -/
def teamArrivals (s : State) (t k : Nat) : Option Nat :=
  let xs := (teamSplits s t).map fun (_, _, sp) => pairGet sp.karr k
  match xs with
  | [] => none
  | n :: ns => some (ns.foldl min n)

/-- The writes of commands whose logical time is still open, as accesses of the epoch that begins: each counts in every
epoch up to the one that holds its time (R66, R72). (DEDUCED, log 44). -/
def openWrites (s : State) (n : Nat) : List WinAcc :=
  (s.cmds.filter fun (_, c) => c.task = n && c.time.isNone).flatMap fun (_, c) =>
    match Table.find s.teams c.team, Table.find s.groups c.group with
    | some tm, some grp =>
      let acc (t : Nat) (window : Bool) (off len : Nat) : List WinAcc :=
        (stripesOf off len).map fun k => ⟨t, k, tm.tidx, grp.gidx, window, true, tm.epoch + 1⟩
      (c.writes.flatMap fun r => acc tm.tidx false r.1 r.2) ++ c.wins.flatMap fun r => acc r.1 true r.2.1 r.2.2
    | _, _ => []

/-- What a cluster barrier's completion does: epochs advance and the waiters are released at (P+1)Q, which the
domain may still have to commit. -/
def kbarComplete (s : State) (n : Nat) (k p q : Nat) : State :=
  match Table.find s.tasks n with
  | none => s
  | some task =>
    match Table.find s.launches task.launch with
    | none => s
    | some l =>
      let t := (q + 1) * recQ l.words
      let done := match Table.find s.doms l.dom with | some d => decide (q < d.next) | none => false
      let s := updTask s n fun task => { task with kdone := Table.put task.kdone k p, win := (openWrites s n).eraseDups }
      let s := { s with teams := s.teams.map fun (i, tm) =>
        if tm.task = n then (i, { tm with epoch := tm.epoch + 1, epochSize := lastSize s tm, before := [] }) else (i, tm) }
      let hit (m : Mode) : Bool := match m with | .kbar j p' => j = k && decide (p' ≤ p) | _ => false
      if done then releaseWhere s (fun grp => grp.task = n) hit t
      else { s with groups := s.groups.map fun (g, grp) =>
        if grp.task = n then
          (g, { grp with splits := grp.splits.map fun (x, sp) =>
            (x, if sp.waits hit then
                { sp with
                  clock := max sp.clock t
                  mode := if hit sp.mode then .commit q else sp.mode
                  saved := if sp.saved.any hit then some (.commit q) else sp.saved }
              else sp) })
        else (g, grp) }

/-- Completes the phases of a cluster barrier that can complete. -/
def kbarSettle : Nat → State → Nat → Nat → State
  | 0, s, _, _ => s
  | fuel + 1, s, n, k =>
    match Table.find s.tasks n with
    | none => s
    | some task =>
      let p := pairGet task.kdone k + 1
      match Table.find task.kquant (4 * p + k) with
      | none => s
      | some q =>
        if task.teams.all fun t => match teamArrivals s t k with | some m => decide (p ≤ m) | none => true then
          kbarSettle fuel (kbarComplete s n k p q) n k
        else s

/-- The order of agent keys within a task. -/
def keyLt (s : State) (a b : Nat × Nat × Split) : Bool :=
  let k (e : Nat × Nat × Split) : Nat := match whoOf s e.1 e.2.1 with | some w => agentKey w | none => 0
  decide (k a < k b)

/-- Every live agent of a task waits at cluster barriers that cannot complete: BOUNDS cluster barrier deadlock in
the agent with the lowest key, whose wait ends. -/
def kbarDeadlock (s : State) (n : Nat) : State :=
  let xs := taskSplits s n
  let at' (sp : Split) : Option Nat := match sp.mode with | .kbar k _ => some k | _ => none
  if xs.any fun e => (at' e.2.2).isNone then s
  else
    match leastBy (keyLt s) xs with
    | none => s
    | some (g, x, sp) =>
      -- what remains of the `KBAR` is its wait for the commit of the quantum that it closed (R38)
      let rest : Mode := match whoOf s g x with
        | some w => if domNext s w.launch.dom < quantum w then .commit (quantum w - 1) else .ready
        | none => .ready
      let s := updSplit s g x fun sp => { sp with mode := rest }
      raise s g x
        { cls := 4, cause := 13, d0 := word ((at' sp).getD 0), insn := some (word (0xC7000000 + 16 * (at' sp).getD 0)) }

/-- Every cluster barrier of a task after a change of its agents. -/
def kbarSettleAll (s : State) (n : Nat) : State :=
  kbarDeadlock ((List.range 4).foldl (fun s k => kbarSettle 4 s n k) s) n

/-- KBAR: arrives and waits, closing the quantum. -/
def execKbar (k : BitVec 2) (s : State) : Host.Outcome State Fault Refusal :=
  slot (.kbar k) (fun s => withWho s fun w =>
    let p := pairGet w.sp.karr k.toNat + 1
    let q := quantum w
    let s := updSplit s w.g w.x fun sp => { sp with karr := Table.put sp.karr k.toNat p }
    let s := updTask s w.grp.task fun t => { t with kquant := pairMaxSet t.kquant (4 * p + k.toNat) q }
    .ok { s, flow := .close, post := fun s =>
      kbarSettleAll (updSplit s w.g w.x fun sp => { sp with mode := .kbar k.toNat p }) w.grp.task }) s

/-! ### The end of a task (R47, R359) -/

/-- Phasers of which (kind, id) is a party. -/
def partyOf (s : State) (kind id : Nat) : List Nat :=
  s.phasers.filterMap fun (n, ph) => if ph.parties.any fun p => p.kind = kind && p.id = id then some n else none

/-- The phaser at which an effect registers a party. -/
def regOf (kind id : Nat) (e : Effect) : Option Nat :=
  match e.body with
  | .phreg ph k p _ _ _ => if k = kind && p = id then some ph else none
  | _ => none

/-- A party whose registration waits for a joined domain's first common commit is dropped there too (R359, R473). -/
def lateDrops (s : State) (kind id time : Nat) : State :=
  { s with
    prog := s.prog + 1
    doms := s.doms.map fun (i, (dom : Domain)) =>
      (i, { dom with late := dom.late ++ dom.late.filterMap fun (n, e) =>
        (regOf kind id e).map fun ph => (n, { e with prog := s.prog, time := some time, body := .phdrop ph kind id none }) }) }

/-- Drops of the party of a team (kind 1), or of group `g` of it (kind 0), as `PHDROP` would make them (R359): they apply
under the task's key with the group's index. (DEDUCED, log 77). -/
def emitDrops (s : State) (t : Nat) (tm : Team) (time kind g : Nat) : State :=
  match Table.find s.tasks tm.task with
  | none => s
  | some task =>
    match Table.find s.launches task.launch with
    | none => s
    | some l =>
      let id := if kind = 0 then g else t
      let index := match Table.find s.groups g with | some grp => groupIndex tm grp | none => tm.tidx * tm.groups.length
      (partyOf s kind id).foldl (fun s ph =>
        { s with
          prog := s.prog + 1
          effects := s.effects ++
            [{ dom := l.dom, launch := task.launch, task := tm.task, team := t, group := g, split := 0
               key := taskKey task * 2 ^ 32 + index * 2 ^ 16, prog := s.prog, time := some time
               body := .phdrop ph kind id none }] }) (lateDrops s kind id time)

/-- A task whose teams have all ended retires in the quantum of the largest EXIT clock. -/
def taskCheck (s : State) (n : Nat) : State :=
  match Table.find s.tasks n with
  | none => s
  | some task =>
    let tms := task.teams.filterMap (Table.find s.teams)
    if task.retired.isSome || tms.isEmpty || tms.any (fun t => !t.exited) then s
    else
      match Table.find s.launches task.launch with
      | none => s
      | some l =>
        let last := tms.foldl (fun m t => max m t.lastExit) 0
        updTask s n fun task => { task with retired := some (max (last / recQ l.words) (domNext s l.dom)) }

/-- The block record of a team that exits (R452). -/
def blockRecord (s : State) (t : Nat) : State :=
  match Table.find s.teams t with
  | none => s
  | some tm =>
    match Table.find s.tasks tm.task with
    | none => s
    | some task =>
      match Table.find s.launches task.launch with
      | none => s
      | some l =>
        if !bit (Sparse.get 0 (coreOf s tm.die).sys 586) 4 then s
        else
          let head (kind slot : Nat) : Word :=
            word (kind + l.ctx * 2 ^ 4 + tm.die * 2 ^ 8 + tm.core * 2 ^ 10 + slot * 2 ^ 17)
          let key := taskKey task
          let cyc := Config.cycles s.ticks
          let s := profRecord s tm.die l.ctx
            [head 6 0, word tm.exitOff, word key, word (key / 2 ^ 32), word (key / 2 ^ 64),
              word (tm.tidx + (tm.groups.length - 1) * 2 ^ 16), cyc.extractLsb' 0 32, cyc.extractLsb' 32 32]
          tm.groups.foldl (fun s g =>
            match Table.find s.groups g with
            | none => s
            | some grp =>
              [0, 1, 2].foldl (fun s part =>
                profRecord s tm.die l.ctx
                  ([head 7 grp.slot, word (grp.gidx + part * 2 ^ 16)] ++
                    (List.range 6).map fun i =>
                      if 6 * part + i < 16 then Sparse.get 0 grp.stalls (6 * part + i) else 0)) s) s

/-- The last group of team `t` has ended: the team's party leaves at the largest `EXIT` clock (R47, R359). -/
def endTeam (s : State) (t : Nat) (tm : Team) : State :=
  let s := updTeam s t fun tm => { tm with exited := true, halted := false }
  let s := emitDrops s t tm tm.lastExit 1 (tm.groups.headD 0)
  taskCheck (blockRecord s t) tm.task

/-- The last split of group `g` of team `t` has ended: the group's party leaves at its largest `EXIT` clock. -/
def endGroup (s : State) (t g : Nat) : State :=
  match Table.find s.teams t, Table.find s.groups g with
  | some tm, some grp =>
    let s := updGroup s g fun grp => { grp with exited := true, parked := false }
    let s := emitDrops s t tm grp.lastExit 0 g
    if tm.groups.all fun g => match Table.find s.groups g with | some grp => grp.exited | none => true then endTeam s t tm
    else s
  | _, _ => s

/-- Gives up every trap that a split holds. -/
def dropTraps (s : State) (t g x : Nat) : State :=
  let mine (h : HeldTrap) : Bool := h.group = g && h.split = x
  if (Table.find s.teams t).any fun tm => tm.traps.any mine then endTrap s t mine else s

/-- The end of a split at its clock (R177): engine writes take their logical time, register results are
discarded, waits that depended on the split are judged again. (DEDUCED, log 77). -/
def exitSplit (s : State) (g x : Nat) : State :=
  match whoOf s g x with
  | none => s
  | some w =>
    let c := w.sp.clock
    let s := fixTimes s w fun _ => true
    let s := passResults s g x []
    let s := dropTraps s w.grp.team g x
    let s := pruneCmds (updGroup s g fun grp =>
      let grp := { grp.giveBack x w.sp with splits := Table.del grp.splits x, lastExit := max grp.lastExit c }
      grp.sibExit x w.sp)
    let s := updTeam s w.grp.team fun tm =>
      { tm with lastExit := max tm.lastExit c, exitOff := if tm.lastExit ≤ c then splitPc w.sp else tm.exitOff }
    let gone := match Table.find s.groups g with | some grp => grp.splits.isEmpty | none => true
    let s := if gone then endGroup s w.grp.team g else mergeAll s g
    kbarSettleAll (barSettleAll s w.grp.team) w.grp.task

/-- A control core stops until its die is reset (R410). -/
def haltCore (s : State) (d : Nat) : State := updCore s d fun c => { c with halted := true }

/-- EXIT (R177); on a control core it acts as `HALTC` (R405). -/
def execExit (s : State) : Host.Outcome State Fault Refusal :=
  slot .exit (fun s =>
    match s.actor with
    | .core d => .ok { s := haltCore s d, flow := .gone }
    | .split g x => .ok { s, flow := .gone, post := fun s => exitSplit s g x }) s

/-! ### Termination of a team (R261, R426) -/

/-- A report to a port at the domain's next commit. -/
def addReport (s : State) (d : Nat) (m : Msg) : State :=
  updDom s d fun dom => { dom with reports := dom.reports ++ [m] }

/-- Ends a team: groups, commands, continuations, traps and every uncommitted effect; its phaser parties leave at the first
commit that begins afterwards, at which the fault port hears of it. A team that has exited loses what is left of it.
(DEDUCED, log 93). -/
def terminateTeam (s : State) (t : Nat) (w0 w1 : Word) (tag : Nat) : State :=
  match Table.find s.teams t with
  | none => s
  | some tm =>
    if tm.terminated then s
    else
      let last : Nat := (teamSplits s t).foldl (fun m e => max m e.2.2.clock) tm.lastExit
      let s := { s with
        effects := s.effects.filter fun e => e.team ≠ t
        doms := s.doms.map fun (n, (d : Domain)) => (n, { d with late := d.late.filter fun e => e.2.team ≠ t })
        cmds := s.cmds.filter fun (_, c) => c.team ≠ t
        conts := s.conts.filter fun (_, c) => !tm.groups.contains c.group }
      let s := match (Table.find s.tasks tm.task).bind fun k => Table.find s.launches k.launch with
        | none => s
        | some l =>
          let time := domNext s l.dom * recQ l.words
          let s := tm.groups.foldl (fun s g => emitDrops s t tm time 0 g) s
          let s := emitDrops s t tm time 1 (tm.groups.headD 0)
          match recPort l.words 26 with
          | some p => addReport s l.dom { ctx := l.ctx, port := p, w0, w1, tag }
          | none => s
      let s := { s with groups := s.groups.map fun (g, grp) =>
        if grp.team = t then
          (g, { grp with splits := [], exited := true, halted := false, parked := false, sibRaces := [], ended := [] })
        else (g, grp) }
      let s := updTeam s t fun tm =>
        { tm with terminated := true, exited := true, halted := false, traps := [], lastExit := last
                  conflict := none }
      wakeStalled (kbarSettleAll (taskCheck s tm.task) tm.task)

/-! ### Aborts and tillers (R303, R310) -/

/-- Takes a task back to the state before its placement; it is ready again from now on (R297). Copy-fault records of its
commands stay queued, and an answer to one has no effect (R261). -/
def abortTask (s : State) (n : Nat) : State :=
  match Table.find s.tasks n with
  | none => s
  | some task =>
    let gs := s.groups.filter fun (_, grp) => grp.task = n
    let others (l : List Record) : List Record := l.filter fun r => !task.teams.contains r.team
    let place := s.fresh
    let s := { s with
      fresh := place + 1
      cores := s.cores.map fun (d, c) => (d, { c with
        trapQ := others c.trapQ, debugQ := others c.debugQ })
      effects := s.effects.filter fun e => e.task ≠ n
      cmds := s.cmds.filter fun (_, c) => c.task ≠ n
      conts := s.conts.filter fun (_, c) => !(gs.any fun g => g.1 = c.group)
      groups := s.groups.filter fun (_, grp) => grp.task ≠ n
      teams := s.teams.filter fun (i, _) => !task.teams.contains i }
    updTask s n fun task =>
      { task with ready := place, placed := false, teams := [], rooted := none, wset := [], sig := [], kdone := [], kquant := []
                  win := [], retired := none }

/-- Grains of a task in dimension `d`. -/
def extent (task : Task) (d : Nat) : Nat :=
  let n := task.hi.getD d 0 - task.lo.getD d 0
  let g := (recWord task.words (12 + d)).toNat
  if g = 0 then 0 else (n.toNat + g - 1) / g

/-- The position of a split path's stop bit (R26). -/
def stopBit (path : Nat) : Nat := ((List.range 16).find? fun i => path / 2 ^ i % 2 = 1).getD 0

/-- The reason why a task cannot split (R304). -/
def cannotSplit (task : Task) : Option Nat :=
  if [0, 1, 2].all fun d => decide (extent task d ≤ 1) then some 1
  else if stopBit task.path = 0 then some 2
  else none

/-- The cut dimension and the cut. (DEDUCED, log 62). -/
def cutOf (task : Task) : Nat × Int :=
  let d := if extent task 1 ≤ extent task 0 ∧ extent task 2 ≤ extent task 0 then 0
    else if extent task 2 ≤ extent task 1 then 1 else 2
  (d, task.lo.getD d 0 + ((extent task d / 2 * (recWord task.words (12 + d)).toNat : Nat) : Int))

/-- The two tillers of a task. -/
def tillersOf (task : Task) : Task × Task :=
  let (d, cut) := cutOf task
  let p := stopBit task.path
  ({ task with hi := task.hi.set d cut, path := task.path - 2 ^ p + 2 ^ (p - 1) },
    { task with lo := task.lo.set d cut, path := task.path + 2 ^ (p - 1) })

/-- An aborted task is reborn as two tillers, which count as live at once. (DEDUCED, log 62). -/
def splitTask (s : State) (n : Nat) : State :=
  let s := abortTask s n
  match Table.find s.tasks n with
  | none => s
  | some task =>
    let (a, b) := tillersOf task
    let i := s.fresh
    let s := { s with
      fresh := i + 2
      tasks := Table.put (Table.put (Table.del s.tasks n) i a) (i + 1) b }
    let s := updLaunch s task.launch fun l =>
      { l with liveTasks := l.liveTasks + 1
               families := Table.upd l.families task.family fun f => { f with live := f.live + 1 } }
    match Table.find s.launches task.launch with
    | some l => updCtx s l.ctx fun c => { c with live := c.live + 1 }
    | none => s

/-! ### The logical order of an unrooted task's events (R302) -/

/-- A split that does not stand in the way of an event of `w`'s at (clock, key): it is above it or waits (R302), or it is a
sibling or in another group of the team that the split's own handler keeps halted. -/
def outOfTheWay (w : Who) (v : Who) : Bool :=
  clearOf (w.sp.clock, agentKey w) v || (w.sp.frame.isSome && v.grp.team = w.grp.team)

/-- The event of a split may take effect. -/
def itsTurn (s : State) (w : Who) : Bool :=
  (taskSplits s w.grp.task).all fun (g, x, _) =>
    (g = w.g && x = w.x) || (match whoOf s g x with | some v => outOfTheWay w v | none => true)

/-- R308: every task of the domain with a smaller key has retired or rooted, for a commit in its quantum or an earlier
one. (DEDUCED, log 61). -/
def earlierDone (s : State) (dom : Nat) (task : Task) (commit : Option Nat) : Bool :=
  let by' (q : Option Nat) : Bool := q.any fun q => match commit with | some n => decide (q ≤ n) | none => true
  task.ts = 0 ||
    s.tasks.all fun (_, k) =>
      by' k.rooted || by' k.retired || decide (taskKey task ≤ taskKey k) ||
        (match Table.find s.launches k.launch with | some l => l.dom ≠ dom | none => true)

/-- A held event can take effect now; once its task has rooted, at once. (DEDUCED, log 61). -/
def heldReady (s : State) (w : Who) (ev : Held) : Bool :=
  w.task.rooted.isSome || itsTurn s w && (match ev with | .root => earlierDone s w.launch.dom w.task none | _ => true)

/-- UNROOTED_EVENT_TAKES_EFFECT: the event that split `b` of group `a` holds. -/
def execUnrootedEventTakesEffect (s : State) : Host.Outcome State Fault Refusal :=
  match whoOf s s.arg.a s.arg.b with
  | none => .next s
  | some w =>
    match w.sp.mode with
    | .held ev =>
      if !heldReady s w ev then .next s
      else
        let s := updSplit s w.g w.x fun sp => { sp with mode := .ready }
        match ev with
        | .trap t => .next (takeTrap s w.g w.x t)
        | .turn => .next s
        | .root =>
          .next (updTask s w.grp.task fun k => { k with rooted := some (k.rooted.getD (quantum w)), sig := [] })
        | .split => if w.task.rooted.isSome then .next s else .next (splitTask s w.grp.task)
        | .exhaust k =>
          let reason := if k = 5 ∨ k = 6 then some 3
            else if w.task.rooted.isSome then some 0 else cannotSplit w.task
          match reason with
          | some r => .next (takeTrap (endStep s w 0x106) w.g w.x { cls := 6, cause := k, d0 := word r })
          | none => .next (splitTask s w.grp.task)
    | _ => .next s

end Sys2Proof.Machine
end

