-- ==== Sys2Proof/Machine/Ports.lean ====
section
/-!
DEFINITION. Ports and patterns (10_join_engine R320-R324), the status of configuration changes (R329-R332), delivery
and firing at step 4 of commit (R334-R341), the reply ring (R347, R348; 15_device R455).
-/

namespace Sys2Proof.Machine

/-! ### Spaces (R320, R407) -/

/-- The physical entry of a context's port: 16384 × die + entry. -/
def physPort (s : State) (ctx num : Nat) : Option Nat :=
  let die := num / 16384
  let w := Sparse.get 0 (ctxOf s ctx).pspace die
  if (dies s).contains die && decide (num % 16384 < bits w 29 16) then
    some (16384 * die + (bits w 13 0 + num % 16384) % 16384)
  else none

/-- The physical entry of a context's pattern: 4096 × die + entry. -/
def physPattern (s : State) (ctx num : Nat) : Option Nat :=
  let die := num / 16384
  let w := Sparse.get 0 (ctxOf s ctx).tspace die
  if (dies s).contains die && decide (num % 16384 < bits w 27 16) then
    some (4096 * die + (bits w 11 0 + num % 16384) % 4096)
  else none

/-- A port of a context, when it is inside its space. -/
def portAt (s : State) (ctx num : Nat) : Option Port :=
  (physPort s ctx num).map fun k => (Table.find s.ports k).getD {}

/-- An entry at reset: one port, number 0 (R324). -/
def noPattern : Pattern :=
  { ports := [0], prio := 0, en := false, act := 0, arg0 := 0, arg1 := 0, fired := 0, owner := 0 }

/-- A pattern of a context, when it is inside its space. -/
def patternAt (s : State) (ctx num : Nat) : Option Pattern :=
  (physPattern s ctx num).map fun k => (Table.find s.patterns k).getD noPattern

/-- Changes a port. -/
def updPort (s : State) (ctx num : Nat) (f : Port → Port) : State :=
  match physPort s ctx num with
  | some k => { s with ports := Table.put s.ports k (f ((Table.find s.ports k).getD {})) }
  | none => s

/-- Changes a pattern. -/
def updPattern (s : State) (ctx num : Nat) (f : Pattern → Pattern) : State :=
  match physPattern s ctx num with
  | some k => { s with patterns := Table.put s.patterns k (f ((Table.find s.patterns k).getD noPattern)) }
  | none => s

/-- The port numbers of a context on a die. -/
def portNumbers (s : State) (ctx die : Nat) : List Nat :=
  let w := Sparse.get 0 (ctxOf s ctx).pspace die
  (Table.keys s.ports).filterMap fun k =>
    let n := (k % 16384 + 16384 - bits w 13 0) % 16384
    if k / 16384 = die && decide (n < bits w 29 16) then some (16384 * die + n) else none

/-- The pattern numbers of a context on a die. -/
def patternNumbers (s : State) (ctx die : Nat) : List Nat :=
  let w := Sparse.get 0 (ctxOf s ctx).tspace die
  (Table.keys s.patterns).filterMap fun k =>
    let n := (k % 4096 + 4096 - bits w 11 0) % 4096
    if k / 4096 = die && decide (n < bits w 27 16) then some (16384 * die + n) else none

/-- The live launch of a context with a number: its identifier (R322 owner). (DESIGN CHOICE, log 70). -/
def launchNum (s : State) (ctx num : Nat) : Option (Nat × Launch) :=
  s.launches.find? fun (_, l) => l.ctx = ctx && l.num = num && !l.ended

/-! ### Configuration status (R329-R331) -/

/-- The status of a `PORTCFG` block. A continuation that waits on the port counts as an enabled pattern that names it: R342
makes it one. (DEDUCED, log 127). -/
def portcfgStatus (s : State) (ctx : Nat) (ws : List Word) : Nat :=
  let pw := ws.getD 0 0
  let cfg := ws.getD 1 0
  let ow := ws.getD 2 0
  let num := pw.toNat % 65536
  let die := num / 16384
  let depth := bits cfg 6 0
  let kind := bits cfg 9 8
  let opens := bit cfg 10
  let ovfv := bit cfg 12
  let ovf := 16384 * die + bits ow 13 0
  if bits pw 31 16 ≠ 0 || bit cfg 7 || bits cfg 31 13 ≠ 0 || bits ow 31 14 ≠ 0 || (!ovfv && ow ≠ 0) ||
      (opens && depth = 0) || decide (64 < depth) || (ovfv && ovf = num) then 1
  else
    match portAt s ctx num, portAt s ctx ovf with
    | none, _ => 2
    | some p, o =>
      match ovfv, o with
      | true, none => 2
      | _, o =>
        let okind := match o with | some o => o.kind | none => 0
        let named := (patternNumbers s ctx die).any fun n =>
          match patternAt s ctx n with | some t => t.en && t.ports.contains num | none => false
        let waited := s.conts.any fun (_, c) =>
          c.rank.isSome && c.fired.isNone && c.port = num &&
            (match Table.find s.groups c.group with
             | some g => (match (Table.find s.tasks g.task).bind fun t => Table.find s.launches t.launch with
               | some l => l.ctx = ctx | none => false)
             | none => false)
        let share := (Sparse.get 0 (ctxOf s ctx).mshare die).toNat % 2 ^ 17
        let others := ((portNumbers s ctx die).filter (· ≠ num)).foldl (fun n k =>
          match portAt s ctx k with | some q => if q.isOpen then n + q.depth else n | none => n) 0
        if ovfv && okind ≠ 0 then 1
        else if kind ≠ p.kind && (named || waited) then 3
        else if opens && (!p.isOpen || decide (p.depth < depth)) && decide (share < others + depth) then 4
        else 0

/-- The port numbers of a pattern block. -/
def patPorts (ws : List Word) : List Nat :=
  (List.range (bits (ws.getD 5 0) 2 0 + 1)).map fun i =>
    bits (ws.getD (1 + i / 2) 0) (16 * (i % 2) + 15) (16 * (i % 2))

/-- The status of a `PATCFG` block. -/
def patcfgStatus (s : State) (ctx : Nat) (ws : List Word) : Nat :=
  let pw := ws.getD 0 0
  let w5 := ws.getD 5 0
  let a0 := ws.getD 6 0
  let a1 := ws.getD 7 0
  let num := pw.toNat % 65536
  let ps := patPorts ws
  let act := bits w5 11 9
  let high := (List.range 8).any fun i =>
    decide (ps.length ≤ i) && bits (ws.getD (1 + i / 2) 0) (16 * (i % 2) + 15) (16 * (i % 2)) ≠ 0
  if bits pw 31 16 ≠ 0 || bits pw 13 12 ≠ 0 || bit w5 3 || bits w5 31 12 ≠ 0 || high || decide (2 < act) ||
      ps.eraseDups.length ≠ ps.length || (act = 0 && (bits a0 7 0 ≠ 0 || bits a1 31 24 ≠ 0)) ||
      (act = 1 && (bits a0 31 16 ≠ 0 || a1 ≠ 0)) || (act = 2 && (bits a0 31 20 ≠ 0 || a1 ≠ 0)) then 1
  else if (patternAt s ctx num).isNone || (ps.any fun p => (portAt s ctx p).isNone || p / 16384 ≠ num / 16384) ||
      (act = 1 && (portAt s ctx a0.toNat).isNone) then 2
  else if ps.any fun p => match portAt s ctx p with | some q => !q.isOpen || q.kind ≠ 0 | none => true then 3
  else 0

/-- The status of a `PATSET` block. -/
def patsetStatus (s : State) (ctx : Nat) (ws : List Word) : Nat :=
  let g (i : Nat) : Word := ws.getD i 0
  let op := (g 0).toNat
  let num := (g 1).toNat % 65536
  if 3 < op || bits (g 1) 31 16 ≠ 0 || (op < 2 && bits (g 1) 13 12 ≠ 0) ||
      (op ≠ 2 && (g 2 ≠ 0 || g 3 ≠ 0 || g 4 ≠ 0 || g 5 ≠ 0)) ||
      (op = 2 && (bits (g 3) 31 1 ≠ 0 || (g 3 = 0 && bits (g 4) 31 16 ≠ 0) || (g 3 = 1 && bits (g 4) 31 20 ≠ 0)))
  then 1
  else if op < 2 then
    match patternAt s ctx num with
    | none => 2
    | some t =>
      if op = 0 && (t.ports.any fun p =>
          match portAt s ctx p with | some q => !q.isOpen || q.kind ≠ 0 | none => true) then 3
      else 0
  else
    match portAt s ctx num with
    | none => 2
    | some p =>
      if op = 2 && g 3 = 0 && (portAt s ctx (g 4).toNat).isNone then 2
      else if p.kind ≠ 2 then 3
      else if op = 2 && 8 ≤ p.armed.length then 4
      else 0

/-- The status of a configuration change: kind 0 `PORTCFG`, 1 `PATCFG`, 2 `PATSET`. (DEDUCED, log 66).
(DEDUCED, log 86). -/
def cfgStatus (s : State) (ctx kind : Nat) (ws : List Word) : Nat :=
  match kind with
  | 0 => portcfgStatus s ctx ws
  | 1 => patcfgStatus s ctx ws
  | 2 => patsetStatus s ctx ws
  | _ => 0

/-- A message as the words of a `RECV` take. -/
def takeWords (m : Word × Word × Nat) : List Word :=
  [m.1, m.2.1, word m.2.2, word (m.2.2 / 2 ^ 32), word (m.2.2 / 2 ^ 64), word (m.2.2 / 2 ^ 96)]

/-- Makes a change whose conditions hold. (DEDUCED, log 66). -/
def cfgApply (s : State) (ctx num task gidx key : Nat) (kind : Nat) (ws : List Word) : State :=
  let g (i : Nat) : Word := ws.getD i 0
  let target := (g 0).toNat % 65536
  match kind with
  | 0 =>
    let cfg := g 1
    updPort s ctx target fun p =>
      let fresh := !bit cfg 10 || bits cfg 9 8 ≠ p.kind
      { depth := bits cfg 6 0, kind := bits cfg 9 8, isOpen := bit cfg 10, trap := bit cfg 11, ovfv := bit cfg 12
        ovf := bits (g 2) 13 0, owner := num
        count := if fresh then 0 else p.count
        fifo := if fresh then [] else p.fifo
        armed := if fresh then [] else p.armed
        reader := if bits cfg 9 8 = 1 then some (task, gidx) else none }
  | 1 =>
    let w5 := g 5
    updPattern s ctx target fun _ =>
      { ports := patPorts ws, prio := bits w5 7 4, en := bit w5 8, act := bits w5 11 9, arg0 := g 6, arg1 := g 7
        fired := 0, owner := num }
  | 2 =>
    let n := (g 1).toNat % 65536
    match (g 0).toNat with
    | 0 => updPattern s ctx n fun t => { t with en := true }
    | 1 => updPattern s ctx n fun t => { t with en := false }
    | 2 => updPort s ctx n fun p => { p with armed := p.armed ++ [(g 2, g 3, g 4, g 5, key)] }
    | _ => updPort s ctx n fun p => { p with armed := [] }
  | _ =>
    updPort s ctx target fun p =>
      let (a, b) := (p.fifo.takeWhile fun m => takeWords m ≠ ws.drop 1, p.fifo.dropWhile fun m => takeWords m ≠ ws.drop 1)
      { p with fifo := a ++ b.drop 1 }

/-- The configuration changes and takes of an agent's line that no commit has applied, in program order. -/
def ownConfigs (s : State) (w : Who) : List Effect :=
  s.effects.filter fun e =>
    e.group = w.g && w.sp.line.contains e.split && (match e.body with | .config .. => true | _ => false)

/-- The state of ports and patterns in an agent's view (R326): as of the last commit, with its own changes to the entries,
and without what their application would set off. (DEDUCED, log 126). -/
def portView (s : State) (w : Who) : State :=
  (ownConfigs s w).foldl (fun v e =>
    match e.body with
    | .config k ws =>
      if cfgStatus v w.launch.ctx k ws = 0 then
        cfgApply v w.launch.ctx w.launch.num w.grp.task (groupIndex w.team w.grp) e.key k ws
      else v
    | _ => v) s

/-- A port is open in the issuer's view. -/
def portOpen (s : State) (w : Who) (num : Nat) : Option Port :=
  match portAt (portView s w) w.launch.ctx num with
  | some p => if p.isOpen then some p else none
  | none => none

/-! ### Reply rings (R347, R348, R455) -/

/-- A ring size in force. -/
def ringSize (w : Word) : Option Nat :=
  if (List.range 13).any fun i => w.toNat = 2 ^ (i + 4) then some w.toNat else none

/-- The function whose reply ring serves a context: the lowest-numbered one mapped to it whose link is up.
(DESIGN CHOICE, log 67). -/
def replyFn (s : State) (ctx : Nat) : Option (Nat × Fn) :=
  s.dev.fns.find? fun (f, fn) => fn.map = some ctx && !s.dev.hostDown.contains (f / 16)

/-- A host address of a port. (DESIGN CHOICE, log 7). -/
def hostAddr (fn a : Nat) : Nat := fn / 16 * 2 ^ 64 + a % 2 ^ 64

/-- Changes a host function. -/
def updFn (s : State) (f : Nat) (g : Fn → Fn) : State :=
  { s with dev := { s.dev with fns := Table.put s.dev.fns f (g ((Table.find s.dev.fns f).getD {})) } }

/-- The bytes of a reply entry (R347). -/
def replyBytes (dseq : Word) (r : Nat × Bool × Word × Word) : List Byte :=
  wordBytes dseq ++ leBytes 2 r.1 ++ leBytes 2 (if r.2.1 then 1 else 0) ++ wordBytes r.2.2.1 ++ wordBytes r.2.2.2

/-- Starts the writes of queued replies of a context while the reply ring has room. -/
def flushReplies : Nat → State → Nat → State
  | 0, s, _ => s
  | fuel + 1, s, ctx =>
    let c := ctxOf s ctx
    match c.replies, replyFn s ctx with
    | r :: rest, some (f, fn) =>
      match ringSize fn.rrsize with
      | none => s
      | some n =>
        if n ≤ (c.dsent + word c.flight.length - fn.dsack).toNat then s
        else
          let s := updFn s f fun fn => { fn with rrhead := (fn.rrhead + 1) % n }
          flushReplies fuel (updCtx s ctx fun c =>
            { c with replies := rest, flight := c.flight ++ [(f, fn.rrhead, r)] }) ctx
    | _, _ => s

/-- Queues a reply and starts the writes that the ring takes. (DESIGN CHOICE, log 67). -/
def reply (s : State) (ctx : Nat) (r : Nat × Bool × Word × Word) : State :=
  let s := updCtx s ctx fun c => { c with replies := c.replies ++ [r] }
  flushReplies ((ctxOf s ctx).replies.length) s ctx

/-! ### Reports (R341) -/

/-- A derived message of the next commit. -/
def addDerived (s : State) (d : Nat) (m : Msg) : State :=
  updDom s d fun dom => { dom with derived := dom.derived ++ [m] }

/-- A PORT report to a launch's fault port. -/
def portReport (s : State) (d : Nat) (l : Option Launch) (cause num : Nat) (w1 : Word) (tag : Nat) : State :=
  match l.bind fun l => (recPort l.words 26).map fun p => (l.ctx, p) with
  | some (c, p) => addDerived s d { ctx := c, port := p, w0 := word (9 + cause * 2 ^ 8 + num % 65536 * 2 ^ 16), w1, tag }
  | none => s

/-- The live launch that owns a port. -/
def portOwner (s : State) (ctx num : Nat) : Option (Nat × Launch) :=
  (portAt s ctx num).bind fun p => launchNum s ctx p.owner

/-- A launch's join party may signal a phaser. -/
def joinSignals (s : State) (l ph : Nat) : Bool :=
  match Table.find s.phasers ph with
  | some p => !p.freed && p.parties.any fun q => q.kind = 2 && q.id = l && (q.role = 1 || q.role = 3)
  | none => false

/-- A signal of a launch's join party at step 5, or the report of a missing one. (DEDUCED, log 65). -/
def joinSignal (s : State) (d : Nat) (l : Option (Nat × Launch)) (ph num tag : Nat) : State :=
  match l with
  | some (n, _) =>
    if joinSignals s n ph then updDom s d fun dom => { dom with joinSigs := dom.joinSigs ++ [(ph, n)] }
    else portReport s d (l.map (·.2)) 8 num 0x100 tag
  | none => s

/-- Armed operations of a count port whose thresholds are reached fire, in ascending threshold (R337).
(DEDUCED, log 65). -/
def countFire (s : State) (d ctx num : Nat) : State :=
  match portAt s ctx num with
  | none => s
  | some p =>
    let due := sortBy (fun a b => decide (a.1.toNat ≤ b.1.toNat)) (p.armed.filter fun a => decide (a.1.toNat ≤ p.count.toNat))
    let s := updPort s ctx num fun p => { p with armed := p.armed.filter fun a => decide (p.count.toNat < a.1.toNat) }
    due.foldl (fun s (_, act, tgt, pay, tag) =>
      if act = 0 then addDerived s d { ctx, port := tgt.toNat % 65536, w0 := pay, w1 := p.count, tag }
      else joinSignal s d (portOwner s ctx num) (bits tgt 19 0) num tag) s

/-! ### Delivery and firing (R323, R325, R334, R340) -/

/-- Delivers a message (`hseq` of a host message): its status for the sender, and whether a PORT trap follows. -/
def deliverMsg (s : State) (d : Nat) (m : Msg) (hseq : Word) : State × Nat × Option Nat :=
  let num := m.port
  let ctx := m.ctx
  match portAt s ctx num with
  | none => (s, 3, some 2)
  | some p =>
    let owner := (launchNum s ctx p.owner).map (·.2)
    let drop (st cause : Nat) (trap : Option Nat) : State × Nat × Option Nat :=
      (portReport s d owner cause num hseq m.tag, st, trap)
    if !p.isOpen then drop 3 2 (some 2)
    else
      match p.kind with
      | 2 =>
        let s := updPort s ctx num fun p => { p with count := word (min 0xFFFFFFFF (p.count.toNat + m.w0.toNat)) }
        (countFire s d ctx num, 0, none)
      | 3 => (reply s ctx (num, false, m.w0, m.w1), 0, none)
      | _ =>
        let add (k : Nat) : State := updPort s ctx k fun p => { p with fifo := p.fifo ++ [(m.w0, m.w1, m.tag)] }
        if p.fifo.length < p.depth then (add num, 0, none)
        else
          let ov := num / 16384 * 16384 + p.ovf
          match p.ovfv, portAt s ctx ov with
          | true, some o =>
            if o.isOpen && o.kind = 0 && decide (o.fifo.length < o.depth) then
              (portReport (add ov) d owner 1 num hseq m.tag, 1, if p.trap then some 1 else none)
            else drop 2 2 (some 2)
          | _, _ => drop 2 2 (some 2)

/-- A candidate of a firing: a table pattern (context, number) or a continuation. -/
inductive Fire where
  | pat (ctx num : Nat) (t : Pattern)
  | cont (ctx id : Nat) (c : Cont)

/-- The launch of a continuation's group. -/
def contLaunch (s : State) (c : Cont) : Option (Nat × Launch) :=
  (Table.find s.groups c.group).bind fun g =>
    (Table.find s.tasks g.task).bind fun t => (Table.find s.launches t.launch).map fun l => (t.launch, l)

/-- A port holds a message. -/
def portHolds (s : State) (ctx num : Nat) : Bool :=
  match portAt s ctx num with | some p => !p.fifo.isEmpty | none => false

/-- The pattern that fires next among those of the given contexts: lowest (priority, rank), the dies' and the contexts'
patterns in one order. (DEDUCED, log 123). -/
def nextFire (s : State) (ctxs : List Nat) : Option Fire :=
  let pats := ctxs.flatMap fun c => (dies s).flatMap fun d => (patternNumbers s c d).filterMap fun n =>
    (patternAt s c n).bind fun t =>
      if t.en && t.ports.all (portHolds s c) then some ((t.prio, 0, n), Fire.pat c n t) else none
  let conts := s.conts.filterMap fun (i, c) =>
    match contLaunch s c, c.rank, c.fired with
    | some (_, l), some r, none =>
      if ctxs.contains l.ctx && portHolds s l.ctx c.port then some ((c.prio, 1, r), Fire.cont l.ctx i c) else none
    | _, _, _ => none
  let lt (a b : (Nat × Nat × Nat) × Fire) : Bool :=
    decide (a.1.1 < b.1.1) || (a.1.1 = b.1.1 && (decide (a.1.2.1 < b.1.2.1) ||
      (a.1.2.1 = b.1.2.1 && decide (a.1.2.2 < b.1.2.2))))
  (leastBy lt (pats ++ conts)).map (·.2)

/-- Takes the head message of a port. (DEDUCED, log 72). -/
def takeHead (s : State) (ctx num : Nat) : State × (Word × Word × Nat) :=
  match portAt s ctx num with
  | some p => (updPort s ctx num fun p => { p with fifo := p.fifo.drop 1 }, p.fifo.headD (0, 0, 0))
  | none => (s, (0, 0, 0))

/-- Takes the sheaf of a pattern in position order. (DEDUCED, log 72). -/
def takeSheaf (s : State) (ctx : Nat) (ports : List Nat) : State × List (Word × Word × Nat) :=
  ports.foldl (fun (p : State × List (Word × Word × Nat)) n =>
    let r := takeHead p.1 ctx n
    (r.1, p.2 ++ [r.2])) (s, [])

/-- A continuation resumes with two words once commit(q) releases it. -/
def contFire (s : State) (id : Nat) (w0 w1 : Word) (clock : Nat) : State :=
  { s with conts := Table.upd s.conts id fun c => { c with fired := some (w0, w1, clock) } }

/-- A `TASK` action's record as committed before the commit began, in whose first state `was`, read on the pattern's die: its
words or a code. -/
def firingRecord (was : State) (ctx die va : Nat) : Except Nat (List Word) :=
  match vaRead was ctx die false [] va 256 with
  | .ok bs => .ok (bytesWords 64 bs)
  | .error _ => .error 11

/-- One firing's action (R325). `check` judges a record, beside the quantum length it must declare (R294). -/
def fireAct (check : State → List Word → Option Nat → Nat) (s : State) (d q qlen : Nat) (was : State) (f : Fire) : State :=
  match f with
  | .cont ctx id c =>
    let (s, m) := takeHead s ctx c.port
    contFire s id m.1 m.2.1 ((q + 1) * qlen)
  | .pat ctx num t =>
    let owner := portOwner s ctx (t.ports.headD 0)
    let (s, sheaf) := takeSheaf s ctx t.ports
    let s := updPattern s ctx num fun t => { t with fired := t.fired + 1 }
    let tag := (sheaf.headD (0, 0, 0)).2.2
    match t.act with
    | 0 =>
      let refuse (code : Nat) : State := portReport s d (owner.map (·.2)) 8 num (word code) tag
      match firingRecord was ctx (num / 16384) (t.arg0.toNat + bits t.arg1 23 0 * 2 ^ 32) with
      | .error c => refuse c
      | .ok ws =>
        match owner with
        | none => s
        | some (l, ow) =>
          let code := check s ws (some (recQ ow.words))
          if code ≠ 0 then refuse code
          else
            let regs := sheaf.flatMap fun m => [m.1, m.2.1]
            updDom s d fun dom => { dom with firings := dom.firings ++ [(ws, l, regs)] }
    | 1 =>
      let m := sheaf.headD (0, 0, 0)
      addDerived s d { ctx, port := t.arg0.toNat % 65536, w0 := m.1, w1 := m.2.1, tag := m.2.2 }
    | _ => joinSignal s d owner (bits t.arg0 19 0) num tag

/-- Fires patterns until none can (R334); `fuel` bounds the firings by the messages held. (DESIGN CHOICE, log 64). -/
def fireAll (check : State → List Word → Option Nat → Nat) (d q qlen : Nat) (was : State) (ctxs : List Nat) :
    Nat → State → State
  | 0, s => s
  | fuel + 1, s =>
    match nextFire s ctxs with
    | none => s
    | some f => fireAll check d q qlen was ctxs fuel (fireAct check s d q qlen was f)

/-- Messages held by all ports. -/
def heldCount (s : State) : Nat := s.ports.foldl (fun n e => n + e.2.fifo.length) 0

/-- Continuations whose port is closed, in registration order, resume with the words of R346. -/
def closedConts (s : State) (q qlen : Nat) : State :=
  let hit := s.conts.filter fun (_, c) =>
    c.rank.isSome && c.fired.isNone &&
      (match contLaunch s c with
       | some (_, l) => (match portAt s l.ctx c.port with | some p => !p.isOpen | none => true)
       | none => false)
  hit.foldl (fun s e => contFire s e.1 0xFFFFFFFF 3 ((q + 1) * qlen)) s

end Sys2Proof.Machine
end

