-- ==== Sys2Proof/Machine/Global.lean ====
section
/-!
DEFINITION. Global memory as agents see it: the write set in an agent's view (R251, R44, R67), page tags and joins of commit domains (R53,
R473), read signatures (09_task_engine R309) and the write-set total (R301).
-/

namespace Sys2Proof.Machine

/-! ### The write set in an agent's view -/

/-- A unit of the issuer's own line made it (R251). -/
def ownLine (w : Who) (g x : Nat) : Bool := g = w.g && w.sp.line.contains x

/-- Another agent's work that the issuer has waited for at a team barrier (R251). -/
def published (w : Who) (pub : List (Nat × Nat)) : Bool :=
  pub.any fun (b, p) => decide (p ≤ (barOf w.team b).done) && decide (p ≤ pairGet w.sp.seen b)

/-- An effect is visible to the issuer (R251). -/
def visible (w : Who) (e : Effect) : Bool :=
  e.task = w.grp.task && (ownLine w e.group e.split || (e.team = w.grp.team && published w e.pub))

/-- The place of an effect among those of a view: the quantum of its time, the agent key. -/
def effectRank (q : Nat) (e : Effect) : Nat × Nat := (match e.time with | some t => t / q + 1 | none => 2 ^ 64, e.key)

/-- The order in which effects apply: quantum of the time, agent key, program order. -/
def effectLe (q : Nat) (a b : Effect) : Bool :=
  pairLt (effectRank q a) (effectRank q b) || (effectRank q a = effectRank q b && decide (a.prog ≤ b.prog))

/-- An ordered atomic of the issuer's own line (R389). -/
def ownAtom (w : Who) (e : Effect) : Bool :=
  ownLine w e.group e.split && (match e.body with | .atom _ _ none => true | _ => false)

/-- Effects of one line in program order, each ranked no lower than those before it (R56). -/
def lineRanks (q : Nat) : Nat × Nat → List Effect → List ((Nat × Nat) × Effect)
  | _, [] => []
  | r, e :: es => let r := pairMax r (effectRank q e); (r, e) :: lineRanks q r es

/-- The global writes that a view adds, in order; while the task is unrooted, with its line's atomics. The issuer's line
keeps its program order. (DEDUCED, log 45). -/
def viewWrites (s : State) (w : Who) : List Effect :=
  let q := recQ w.launch.words
  let seen := s.effects.filter fun e =>
    match e.body with
    | .write .. => visible w e
    | .atom .. => w.task.rooted.isNone && ownAtom w e
    | _ => false
  let (own, others) := seen.partition fun e => ownLine w e.group e.split
  let ranked := lineRanks q (0, 0) (sortBy (fun a b => decide (a.prog ≤ b.prog)) own) ++
    others.map fun e => (effectRank q e, e)
  (sortBy (fun a b => pairLt a.1 b.1 || (a.1 = b.1 && decide (a.2.prog ≤ b.2.prog))) ranked).map (·.2)

/-- Lays bytes at `b` over bytes at `a`. -/
def patch (a : Nat) (bs : List Byte) (b : Nat) (cs : List Byte) : List Byte :=
  if decide (b + cs.length ≤ a) || decide (a + bs.length ≤ b) then bs
  else (List.range bs.length).map fun i =>
    if decide (b ≤ a + i) && decide (a + i < b + cs.length) then cs.getD (a + i - b) 0 else bs.getD i 0

/-- Bytes from `pa` with the accumulators of their pending words. -/
abbrev View := List Byte × List (Nat × Exact)

/-- A write laid over a view. -/
def viewWrite (pa : Nat) (v : View) (q : Nat) (cs : List Byte) : View :=
  (patch pa v.1 q cs, v.2.filter fun a => decide (a.1 + 4 ≤ q) || decide (q + cs.length ≤ a.1))

/-- One lane of an atomic applied to a view. -/
def viewAtom (pa : Nat) (v : View) (op q : Nat) (x y : Word) : View :=
  let n := atomBytes op
  if decide (q < pa) || decide (pa + v.1.length < q + n) then v
  else
    let r := atomStep op ((v.1.drop (q - pa)).take n) (Table.find v.2 q) x y
    let v := viewWrite pa v q r.1
    match r.2 with | some e => (v.1, v.2 ++ [(q, e)]) | none => v

/-- Bytes at a physical address as a view sees them; the range holds whole pairs. -/
def patchWrites (es : List Effect) (pa : Nat) (bs : List Byte) : List Byte :=
  (es.foldl (fun (v : View) e =>
    match e.body with
    | .write _ ps => ps.foldl (fun v (q, _, cs) => viewWrite pa v q cs) v
    | .atom op ls _ => ls.foldl (fun v (_, q, _, x, y, _) => viewAtom pa v op q x y) v
    | _ => v) (bs, [])).1

/-- What a read of a range comes to. -/
inductive Got where
  | ok (bs : List Byte)
  | none
  | hole (pa : Nat)

/-- A range is translated for reading and holds no uncorrectable line. -/
def readable (s : State) (ctx die va n : Nat) : List Piece :=
  (partsOf va n).map fun p =>
    match translate s ctx die false false p with
    | .ok pa key k => .ok pa key k
    | e => e

/-- A global read in the issuer's view. (DEDUCED, log 45). -/
def globalRead (s : State) (w : Who) (es : List Effect) (va n : Nat) : Got :=
  (readable s w.launch.ctx w.team.die va n).foldl (fun g p =>
    match g, p with
    | .ok bs, .ok pa key k =>
      if (badLine s pa k).isSome then .none
      else if es.isEmpty then .ok (bs ++ physRead s key pa k)
      else
        let lo := pa / 8 * 8
        .ok (bs ++ ((patchWrites es lo (physRead s key lo ((pa + k + 7) / 8 * 8 - lo))).drop (pa - lo)).take k)
    | .ok _, .hole pa => .hole pa
    | .ok _, _ => .none
    | g, _ => g) (.ok [])

/-- The committed state that a read issued now sees is complete: commit(q−1) is done (R67; R44). -/
def readReady (s : State) (w : Who) : Bool :=
  w.task.rooted.isNone || decide (quantum w ≤ domNext s w.launch.dom)

/-- The direction bits of a copy command's block. -/
def blockDir (ws : List Word) : Nat := bits (ws.getD 0 0) 2 0

/-- The global ranges that a copy command writes. -/
def Cmd.globalDst (c : Cmd) : List (Nat × Nat) :=
  match c.body with
  | .copy _ ws rows _ _ _ _ none => if blockDir ws = 1 || blockDir ws = 2 then rows.map fun r => (r.dst, r.len) else []
  | _ => []

/-- The commands in flight, of the issuer's line or published to it, that have still to write bytes of a virtual range
(R251). -/
def writers (s : State) (w : Who) (va n : Nat) : List Nat :=
  Table.keys (s.cmds.filter fun (_, c) =>
    (ownLine w c.group c.split || (c.team = w.grp.team && published w c.pub)) && !c.finished &&
      c.globalDst.any fun r => overlap va n r.1 r.2)

/-- There is such a command. -/
def inFlight (s : State) (w : Who) (va n : Nat) : Bool := !(writers s w va n).isEmpty

/-- The physical bytes whose value a rooted reader's line has left to its uncommitted atomics: a read of them waits for
their commit, unless a later write of the line covers them (R389). -/
def atomPending (s : State) (w : Who) : List Nat :=
  if w.task.rooted.isNone then []
  else
    (sortBy (fun a b => decide (a.prog ≤ b.prog)) (s.effects.filter fun e => ownLine w e.group e.split)).foldl
      (fun (l : List Nat) e =>
        match e.body with
        | .atom op ls none => (l ++ ls.flatMap fun a => (List.range (atomBytes op)).map (· + a.2.1)).eraseDups
        | .write _ ps => l.filter fun b => !(ps.any fun p => decide (p.1 ≤ b) && decide (b < p.1 + p.2.2.length))
        | _ => l) []

/-- Where those bytes lie in a virtual range: offset, physical address, key, one byte each. -/
def lateParts (s : State) (w : Who) (va n : Nat) : List (Nat × Nat × Nat × Nat) :=
  let wait := atomPending s w
  if wait.isEmpty then []
  else
    ((readable s w.launch.ctx w.team.die va n).foldl (fun (r : List (Nat × Nat × Nat × Nat) × Nat) p =>
      match p with
      | .ok pa key k =>
        (r.1 ++ (wait.filter fun b => decide (pa ≤ b) && decide (b < pa + k)).map fun b => (r.2 + (b - pa), b, key, 1), r.2 + k)
      | .invalid a | .denied a => (r.1, r.2 + ((pageParts 2 a (n - r.2)).headD (0, 0)).2)
      | .hole _ => r) ([], 0)).1

/-- A rooted reader's range holds a word that waits for the commit of its line's atomics (R389). -/
def awaitsAtoms (s : State) (w : Who) (va n : Nat) : Bool := !(lateParts s w va n).isEmpty

/-- A copy read merges the pending words of its range, but for those that it has still to read (R380). -/
def mergeRead (s : State) (w : Who) (va n : Nat) : State :=
  if s.accs.isEmpty then s
  else
    let wait := atomPending s w
    let keep := s.accs.filter fun a => wait.any fun b => decide (a.1 ≤ b) && decide (b < a.1 + 4)
    let s := (readable s w.launch.ctx w.team.die va n).foldl
      (fun s p => match p with | .ok pa _ k => mergeWords s pa k | _ => s) { s with accs := s.accs.filter fun a => !keep.contains a }
    { s with accs := s.accs ++ keep }

/-- Bytes laid into a map. -/
def putBytes (m : Sparse Byte) (a : Nat) (bs : List Byte) : Sparse Byte :=
  m.filter (fun x => decide (x.1 < a)) ++ ((List.range bs.length).zip bs).map (fun (i, b) => (a + i, b)) ++
    m.filter (fun x => decide (a + bs.length ≤ x.1))

/-- An effect laid over the uncommitted bytes of a view by virtual address, with the accumulators of pending words. -/
def overlayStep (s : State) (v : Sparse Byte × List (Nat × Exact)) (e : Effect) : Sparse Byte × List (Nat × Exact) :=
  match e.body with
  | .write va ps =>
    let bs := ps.flatMap fun p => p.2.2
    (putBytes v.1 va bs, v.2.filter fun a => decide (a.1 + 4 ≤ va) || decide (va + bs.length ≤ a.1))
  | .atom op ls _ => ls.foldl (fun v (_, pa, key, x, y, va) =>
      let n := atomBytes op
      let now := physRead s key pa n
      let old := (List.range n).map fun i => (Table.find v.1 (va + i)).getD (now.getD i 0)
      let r := atomStep op old (Table.find v.2 va) x y
      (putBytes v.1 va r.1, (v.2.filter fun a => a.1 ≠ va) ++ (match r.2 with | some e => [(va, e)] | none => []))) v
  | _ => v

/-- The uncommitted bytes of the issuer's view over virtual ranges. -/
def viewOverlay (s : State) (w : Who) (ranges : List (Nat × Nat)) : Sparse Byte :=
  if ranges.isEmpty then []
  else ((viewWrites s w).foldl (overlayStep s) ([], [])).1.filter fun b => ranges.any fun r =>
    decide (r.1 ≤ b.1) && decide (b.1 < r.1 + r.2)

/-! ### Page tags (R53) -/

/-- A domain has a launch that has not ended. -/
def domLive (s : State) (d : Nat) : Bool := s.launches.any fun (_, l) => l.dom = d && !l.ended

/-- The 4 KiB pages of pieces. -/
def piecePages (ps : List Piece) : List Nat :=
  (ps.flatMap fun p => match p with
    | .ok pa _ k => (List.range ((pa + k - 1) / 4096 - pa / 4096 + 1)).map (· + pa / 4096)
    | _ => []).eraseDups

/-- A page is tagged by another live domain that this one does not join. -/
def foreignPage (s : State) (d : Nat) (pages : List Nat) : Bool :=
  s.doms.any fun (n, dom) =>
    n ≠ d && domLive s n && !(dom.join.any fun j => j.1 = d) && pages.any fun p => dom.pages.contains p

/-- Tags pages with a domain. -/
def tagPages (s : State) (d : Nat) (pages : List Nat) : State :=
  updDom s d fun dom => { dom with pages := pages.foldl (fun l p => if l.contains p then l else l ++ [p]) dom.pages }

/-- GLOBAL cause cross-domain for an address. (DEDUCED, log 46). -/
def crossTrap (va : Nat) : Trap := { cls := 8, cause := 2, d0 := word va, d1 := word (va / 2 ^ 32) }

/-! ### Joins (R473) -/

/-- One domain out of two that have reached their first common commit. -/
def mergeDomains (s : State) (a b : Nat) : State :=
  match Table.find s.doms a, Table.find s.doms b with
  | some x, some y =>
    let js := ((x.join ++ y.join).filter fun j => j.1 ≠ a && j.1 ≠ b).eraseDups
    let z : Domain := { x with
      join := js
      derived := x.derived ++ y.derived
      reports := x.reports ++ y.reports
      began := min x.began y.began
      groups := if x.began ≤ y.began then x.groups else y.groups
      trees := if x.began ≤ y.began then x.trees else y.trees
      late := x.late ++ y.late
      joinSigs := x.joinSigs ++ y.joinSigs
      pages := x.pages ++ y.pages.filter fun p => !x.pages.contains p }
    let doms := (Table.put (Table.del s.doms b) a z).map fun (n, d) =>
      (n, { d with join := (d.join.map fun j => if j.1 = b then (a, j.2) else j).eraseDups })
    { s with
      doms
      launches := s.launches.map fun (n, l) => if l.dom = b then (n, { l with dom := a }) else (n, l)
      effects := s.effects.map fun e => if e.dom = b then { e with dom := a } else e }
  | _, _ => s

/-- Merges a domain with every other that has reached the same first common commit. -/
def settleJoins (s : State) (d : Nat) : State :=
  match Table.find s.doms d with
  | none => s
  | some dom =>
    dom.join.foldl (fun s (o, qc) =>
      if dom.next = qc && domNext s o = qc && (Table.find s.doms o).isSome then mergeDomains s d o else s) s

/-- Two domains are to be one from commit `qc` on, or from the earlier one that a join of theirs has named.
(DEDUCED, log 46). -/
def joinAt (s : State) (d1 d2 qc : Nat) : State :=
  let from' (o : Nat) (dom : Domain) : Domain :=
    if dom.join.any fun j => j.1 = o then { dom with join := dom.join.map fun j => if j.1 = o then (o, min j.2 qc) else j }
    else { dom with join := dom.join ++ [(o, qc)] }
  updDom (updDom s d1 (from' d2)) d2 (from' d1)

/-- The issuer's domain joins another's at issue, from its own quantum on or, where the other has committed that, from the
other's next commit; the two are one at once when both stand at their first common commit. (DEDUCED, log 46). -/
def joinDomains (s : State) (w : Who) (d2 : Nat) : State :=
  let d1 := w.launch.dom
  if d1 = d2 then s else settleJoins (joinAt s d1 d2 (max (quantum w) (domNext s d2))) d1

/-- The live launch of a context, other than launch `me`, that owns a port. -/
def otherOwner (s : State) (me ctx : Nat) (p : Port) : Option Launch :=
  ((launchNum s ctx p.owner).filter fun o => o.1 ≠ me).map (·.2)

/-- The live launches other than `me` that a port of a context acts for, as a view has it: its owner, the owners of the first ports of
the patterns that wait there, and those with a continuation registered there (R53, R325). -/
def actsFor (s v : State) (me ctx num : Nat) : List Launch :=
  let owner (n : Nat) : List Launch := ((portAt v ctx n).bind (otherOwner s me ctx)).toList
  let pats := (patternNumbers v ctx (num / 16384)).filterMap fun n =>
    (patternAt v ctx n).filter fun t => t.en && t.ports.contains num
  owner num ++ (pats.flatMap fun t => owner (t.ports.headD 0)) ++ s.conts.filterMap fun (_, c) =>
    (contLaunch s c).bind fun o =>
      if c.port = num && c.rank.isSome && c.fired.isNone && o.1 ≠ me && o.2.ctx = ctx && !o.2.ended
      then some o.2 else none

/-- The other live launches that a port of the issuer's context acts for in its view. -/
def portLaunches (s : State) (w : Who) (num : Nat) : List Launch := actsFor s (portView s w) w.task.launch w.launch.ctx num

/-- A launch that a port acts for declares another quantum length (R53). -/
def portClash (s : State) (w : Who) (num : Nat) : Bool :=
  (portLaunches s w num).any fun o => recQ o.words ≠ recQ w.launch.words

/-- The issuer's domain joins those of launches. One with another quantum length is not joined, where no rule refuses the
message. (DEDUCED, log 46). -/
def joinLaunches (s : State) (w : Who) (ls : List Launch) : State :=
  ls.foldl (fun s o => if recQ o.words = recQ w.launch.words then joinDomains s w o.dom else s) s

/-- A message to a port joins the launches that the port acts for (R53). -/
def joinPort (s : State) (w : Who) (num : Nat) : State := joinLaunches s w (portLaunches s w num)

/-! ### Read signatures and write-set totals -/

/-- The two signature bits of a line (R309). (DEDUCED, log 84). -/
def signatureBits (va : Nat) : List Nat :=
  let l := va / 256
  let x (a b c d : Nat) : Nat := ((l / 2 ^ a) ^^^ (l / 2 ^ b) ^^^ (l / 2 ^ c) ^^^ (l / 2 ^ d)) % 2048
  [x 0 11 22 33, x 5 17 29 41]

/-- Lines of a virtual range. -/
def linesOf (va n : Nat) : List Nat :=
  if n = 0 then [] else (List.range ((va + n - 1) / 256 - va / 256 + 1)).map fun i => 256 * (va / 256 + i)

/-- Adds the lines read to the signature of an unrooted timestamped task. -/
def signReads (s : State) (w : Who) (ranges : List (Nat × Nat)) : State :=
  if w.task.ts = 0 || w.task.rooted.isSome || ranges.isEmpty then s
  else
    let bs := ranges.flatMap fun (a, n) => (linesOf a n).flatMap signatureBits
    updTask s w.grp.task fun k => { k with sig := bs.foldl (fun l b => if l.contains b then l else l ++ [b]) k.sig }

/-- The write-set total that `n` more bytes bring (R301): of the task while unrooted, else of the quantum. -/
def writeTotal (w : Who) (n : Nat) : Nat :=
  n + (if w.task.rooted.isNone then w.task.wset.foldl (fun t e => t + e.2) 0 else Sparse.get 0 w.task.wset (quantum w))

/-- Counts bytes directed at global memory: in logical order while the task is unrooted, in the order of issue once it is
rooted, exhausting past the quota. (DEDUCED, log 124). -/
def countWrites (s : State) (w : Who) (n : Nat) (f : State → Res) : Res :=
  if n = 0 then f s
  else if w.task.rooted.isNone && !itsTurn s w then .turn .turn
  else if (recWord w.task.words 17).toNat < writeTotal w n then .exhaust 3
  else
    let q := quantum w
    f (updTask s w.grp.task fun k => { k with wset := Sparse.set 0 k.wset q (Sparse.get 0 k.wset q + n) })

end Sys2Proof.Machine
end

