-- ==== Sys2Proof/Machine/Copy.lean ====
section
/-!
DEFINITION. The copy engine (07_copy_engine R244-R265): descriptor blocks and their checks, rows, issue, completion,
faults and replay, static schedules.
-/

namespace Sys2Proof.Machine

/-! ### Descriptor blocks (R245-R249) -/

/-- A command's block with its opcode and the group it is checked for. -/
structure Desc where
  opc : Nat
  ws : List Word
  sd : Nat
  /-- A schedule entry: its index (R264). -/
  entry : Option Nat := none
  deriving DecidableEq, Repr

/-- Word `i` of a block. -/
def Desc.w (d : Desc) (i : Nat) : Word := d.ws.getD i 0

/-- The control word's fields. -/
def Desc.dir (d : Desc) : Nat := bits (d.w 0) 2 0
def Desc.cmode (d : Desc) : Nat := bits (d.w 0) 4 3
def Desc.bar (d : Desc) : Nat := bits (d.w 0) 8 5
def Desc.tomb (d : Desc) : Bool := bit (d.w 0) 9

/-- Sides. -/
def Desc.srcLocal (d : Desc) : Bool := d.dir = 1 || d.dir = 3
def Desc.dstLocal (d : Desc) : Bool := d.dir = 0 || d.dir = 3
def Desc.srcGlobal (d : Desc) : Bool := d.dir = 0 || d.dir = 2
def Desc.dstGlobal (d : Desc) : Bool := d.dir = 1 || d.dir = 2

/-- `GATH` and `SCAT`. -/
def Desc.indexed (d : Desc) : Bool := d.opc = 0xA2 || d.opc = 0xA3

/-- The 56-bit base of a side. -/
def Desc.src (d : Desc) : Nat := (d.w 1).toNat + (d.w 2).toNat * 2 ^ 32
def Desc.dst (d : Desc) : Nat := (d.w 3).toNat + (d.w 4).toNat * 2 ^ 32

/-- A COPY trap: cause and the offset of the failing word. (DEDUCED, log 30). -/
def copyTrap (cause off : Nat) (lanes : Option Mask := none) : Trap := { cls := 7, cause, aux := off, lanes }

/-- BOUNDS copy local range. (DEDUCED, log 29). -/
def copyRange (lanes : Mask) (a limit : Nat) : Trap :=
  { cls := 4, cause := 14, lanes := some lanes, d0 := word a, d1 := word limit }

/-- Checks 1-4 of R249: (cause, word) of the first that fails. -/
def Desc.formBad (d : Desc) : Option (Nat × Nat) :=
  let ctl := d.w 0
  let ctgt := d.w 5
  let tgtBad := match d.cmode with
    | 2 => bits ctgt 31 16 ≠ 0
    | 3 => bits ctgt 31 20 ≠ 0
    | _ => ctgt ≠ 0
  let zero : List (Nat × Bool) :=
    [(0, bits ctl 31 11 ≠ 0 || (d.cmode ≠ 1 && d.bar ≠ 0)),
     (2, bits (d.w 2) 31 24 ≠ 0 || (d.srcLocal && d.w 2 ≠ 0)),
     (4, bits (d.w 4) 31 24 ≠ 0 || (d.dstLocal && d.w 4 ≠ 0)),
     (5, tgtBad), (6, d.cmode ≠ 2 && d.w 6 ≠ 0),
     (9, d.indexed && !bit (d.w 9) 31 && bits (d.w 9) 30 7 ≠ 0)]
  let dirBad := match d.opc with
    | 0xA2 => d.dir ≠ 0
    | 0xA3 => d.dir ≠ 1
    | _ => decide (3 < d.dir)
  let out (i lo hi : Nat) : Nat × Bool := (i, decide ((d.w i).toNat < lo) || decide (hi < (d.w i).toNat))
  let range : List (Nat × Bool) := match d.opc with
    | 0xA0 => [out 7 4 0xFFFFFFFC]
    | 0xA1 => [out 7 4 65536, out 8 1 65536]
    | _ => [out 7 4 65536, out 8 1 96]
  let odd (i : Nat) : Nat × Bool := (i, (d.w i).toNat % 4 ≠ 0)
  let align : List (Nat × Bool) := [odd 1, odd 3, odd 7] ++
    (match d.opc with
     | 0xA0 => []
     | 0xA1 => [odd 9, odd 10]
     | _ => [(9, bit (d.w 9) 31 && (d.w 9).toNat % 4 ≠ 0), odd 10, odd 11])
  let first (cause : Nat) (l : List (Nat × Bool)) : Option (Nat × Nat) := (l.find? (·.2)).map fun x => (cause, x.1)
  (first 1 zero).orElse fun _ =>
    (if dirBad || (d.tomb && d.opc ≠ 0xA2) then some (2, 0) else none).orElse fun _ =>
      (first 3 range).orElse fun _ => first 4 align

/-- The index list in scratchpad, when the block names one: address and bytes. -/
def Desc.list (d : Desc) : Option (Nat × Nat) :=
  if d.indexed && bit (d.w 9) 31 then some ((d.w 9).toNat % 2 ^ 31, 4 * (d.w 8).toNat) else none

/-- The vector register that holds the indices, when the block names one. -/
def Desc.vreg (d : Desc) : Option Nat :=
  if d.indexed && !bit (d.w 9) 31 then some (bits (d.w 9) 6 0) else none

/-- A row before its addresses are judged: position, source, destination, bytes. -/
abbrev RawRow := Nat × Int × Int × Nat

/-- The rows of a block with the indices `xs` (none: a skipped position), global addresses without wrap (R247). -/
def Desc.rows (d : Desc) (xs : List (Option Nat)) : List RawRow :=
  let n := (d.w 7).toNat
  let loc (a : Int) : Int := a % 2 ^ 32
  let s : Int := d.src
  let t : Int := d.dst
  let side (isLocal : Bool) (a : Int) : Int := if isLocal then loc a else a
  match d.opc with
  | 0xA0 => [(0, s, t, n)]
  | 0xA1 =>
    (List.range (d.w 8).toNat).map fun i =>
      (i, side d.srcLocal (s + i * (d.w 9).toInt), side d.dstLocal (t + i * (d.w 10).toInt), n)
  | _ =>
    let g : Int := (d.w 10).toNat
    let l : Int := (d.w 11).toInt
    (List.range xs.length).filterMap fun j =>
      match xs.getD j none with
      | none => none
      | some x =>
        if d.opc = 0xA2 then some (j, s + x * g, loc (t + j * l), n) else some (j, loc (s + j * l), t + x * g, n)

/-- A set of positions as a lane mask. -/
def posMask (ps : List Nat) : Mask := maskFrom fun l => ps.contains l

/-- A checked command: rows, local ranges read and written (own offsets), accesses, what comparators see. -/
structure Plan where
  rows : List Row
  accs : List Acc
  looks : List Look
  items : List Item
  deriving DecidableEq, Repr

/-- Where a place of the window form lies: team index and offset. -/
def placeOf (a : Nat) : Nat × Nat := ((a - 0x1000000) / 0x100000, a % 0x100000)

/-- The window form of a place. -/
def windowForm (t off : Nat) : Nat := 0x1000000 + t * 0x100000 + off

/-- The indices of a block, or the BOUNDS of an index list (R247, R249), which is of no position: its lane mask is 0. A
vector register is read for the active lanes. (DEDUCED, log 29). -/
def Desc.indices (d : Desc) (s : State) (w : Who) : Except Trap (List (Option Nat) × List Acc) :=
  let n := (d.w 8).toNat
  let mark (x : Word) : Option Nat := if x = 0xFFFFFFFF then none else some x.toNat
  if !d.indexed then .ok ([], [])
  else
    match d.list with
    | some (a, len) =>
      match locate s w a len with
      | .out limit => .error (copyRange 0 a limit)
      | .at t off => .ok ((bytesWords n (spadRead s w t off len)).map mark, [⟨t, off, len, 0⟩])
    | none =>
      let v := vecRead w.grp (bits (d.w 9) 6 0)
      .ok ((List.range n).map fun j => if w.sp.mask.getLsbD j then mark (v.getD j 0) else none, [])

/-- The index list still waits for an earlier command's bytes (R252). -/
def Desc.listWaits (d : Desc) (s : State) (w : Who) : Bool :=
  d.formBad.isNone &&
    (match d.list with
     | some (a, len) =>
       match locate s w a len with
       | .at t off => heldAccess s w [⟨t, off, len, 0⟩]
       | .out _ => false
     | none => false)

/-- The rest of R249, and the plan of a command that passes. A pending index register is met after order 4;
order 5 takes the indices that a register beyond the quota holds, which order 6 then refuses. (DEDUCED, log 29).
(DEDUCED, log 128). -/
def Desc.plan (d : Desc) (s : State) (w : Who) : Except Trap Plan :=
  match d.formBad with
  | some (c, off) => .error (copyTrap c off)
  | none =>
    match d.vreg.bind fun v => hazardIn w.sp.pend 1 [v] with
    | some t => .error t
    | none =>
      match d.indices s w with
      | .error t => .error t
      | .ok (xs, listAccs) =>
        let raw := d.rows xs
        let past (a : Int) (n : Nat) : Bool := decide (a < 0) || decide ((2 ^ 56 : Int) < a + n)
        let far := raw.filter fun (_, a, b, n) => (d.srcGlobal && past a n) || (d.dstGlobal && past b n)
        let place (isLocal : Bool) (a : Int) (n : Nat) : Option Nat :=
          if isLocal then
            match locate s w a.toNat n with | .at t off => some (windowForm t off) | .out _ => none
          else some a.toNat
        let rows := raw.map fun (p, a, b, n) => (p, place d.srcLocal a n, place d.dstLocal b n, n)
        let out := rows.filter fun r => r.2.1.isNone || r.2.2.1.isNone
        -- the local addresses that break R55, source before destination: address and limit
        let beyond := raw.flatMap fun (_, a, b, n) =>
          let past (isLocal : Bool) (x : Int) : List (Nat × Nat) :=
            if isLocal then (match locate s w x.toNat n with | .out k => [(x.toNat, k)] | .at .. => []) else []
          past d.srcLocal a ++ past d.dstLocal b
        let low := (leastBy (fun a b => decide (a.1 < b.1)) beyond).getD (0, 0)
        if !far.isEmpty then
          .error (copyTrap 5 (if d.srcGlobal && far.any fun r => past r.2.1 r.2.2.2 then 1 else 3)
            (some (posMask (far.map (·.1)))))
        else if match d.vreg with | some v => decide (w.grp.vcount ≤ v) | none => false then .error (copyTrap 6 9)
        else if d.tomb && !(decide (4 ≤ d.sd) && decide (d.sd ≤ 1004)) then .error (copyTrap 7 0)
        else if !out.isEmpty then .error (copyRange (posMask (out.map (·.1))) low.1 low.2)
        else
          let rs : List Row := rows.map fun (p, a, b, n) => { pos := p, src := a.getD 0, dst := b.getD 0, len := n }
          let acc (a how n : Nat) : Acc := let p := placeOf a; ⟨p.1, p.2, n, how⟩
          let look (r : RawRow) : List Look :=
            let pos := if d.indexed then r.1 else rowPos r.1
            [⟨d.srcGlobal, r.2.1.toNat, r.2.2.2, true, false, pos⟩, ⟨d.dstGlobal, r.2.2.1.toNat, r.2.2.2, false, true, pos⟩]
          .ok
            { rows := rs
              accs := listAccs ++ rs.flatMap fun r =>
                (if d.srcLocal then [acc r.src 0 r.len] else []) ++ (if d.dstLocal then [acc r.dst 1 r.len] else [])
              looks := (match d.list with | some (a, n) => [⟨false, a, n, true, false, listPos⟩] | none => []) ++ raw.flatMap look
              items := match d.vreg with
                | some v => laneItems v (List.range (d.w 8).toNat) false
                | none => [] }

/-! ### Refusals (R255) -/

/-- The team's copy party signals a phaser in its current phase. -/
def copyPartySignals (s : State) (team ph : Nat) : Bool :=
  match Table.find s.phasers ph with
  | some p => !p.freed && p.parties.any fun q => q.kind = 1 && q.id = team && (q.role = 1 || q.role = 3)
  | none => false

/-- The code a command is refused with. -/
def Desc.refusal (d : Desc) (s : State) (w : Who) : Option Nat :=
  match d.cmode with
  | 1 => if barAdmits w d.bar then none else some 1
  | 2 => if (portOpen s w (bits (d.w 5) 15 0)).isSome then none else some 2
  | 3 => if copyPartySignals s w.grp.team (bits (d.w 5) 19 0) then none else some 3
  | _ => none

/-! ### Issue (R248, R250) -/

/-- The header of a row names a deleted node (R253). -/
def delHeader (tomb : Bool) (bs : List Byte) : Bool := tomb && bit (bytesWord (bs.take 4)) 31

/-- Global ranges of a command's sources, of a deleted node the header alone, and of its destinations. -/
def srcRanges (d : Desc) (rows : List Row) : List (Nat × Nat) :=
  if d.srcGlobal then
    rows.map fun r => (r.src, if (r.data.map (delHeader d.tomb)).getD false then 4 else r.len)
  else []
def dstRanges (d : Desc) (rows : List Row) : List (Nat × Nat) :=
  if d.dstGlobal then rows.map fun r => (r.dst, r.len) else []

/-- The bytes that a command writes to global memory. -/
def globalBytes (d : Desc) (rows : List Row) : Nat :=
  if d.dstGlobal then rows.foldl (fun n r => n + r.len) 0 else 0

/-- A command is judged by the view of a port or phaser, which commit(q−1) must have fixed (R255, R326, R364).
(DEDUCED, log 48). -/
def viewWaits (s : State) (w : Who) (d : Desc) : Bool := decide (2 ≤ d.cmode) && !readReady s w

/-- The access of a row's local source. -/
def rowAcc (r : Row) : Acc := let p := placeOf r.src; ⟨p.1, p.2, r.len, 0⟩

/-- What keeps a command from issuing now: the commit its reads wait for, and bytes still to come of another team's command
whose time is past. (DEDUCED, log 48). -/
def copyWaits (s : State) (w : Who) (d : Desc) (p : Plan) : Option Nat :=
  if d.srcGlobal && !readReady s w then some 8
  else if heldAccess s w (p.accs.filter fun a => a.team ≠ w.team.tidx && a.how = 0) then some 7
  else none

/-- The commands in flight whose bytes a row's source has still to wait for (R251, R252). -/
def rowBehind (s : State) (w : Who) (d : Desc) (r : Row) : List Nat :=
  if d.srcLocal then heldBy s w [rowAcc r] else writers s w r.src r.len

/-- The page that another domain's tag forbids (R53). -/
def copyForeign (s : State) (w : Who) (d : Desc) (rows : List Row) : Option Nat :=
  ((srcRanges d rows ++ dstRanges d rows).find? fun (a, n) =>
    foreignPage s w.launch.dom (piecePages (readable s w.launch.ctx w.team.die a n))).map (·.1)

/-- Reads a global row as of issue: of a deleted node the header alone; what cannot be read now, and what an earlier command
has still to write, waits (R251, R253, R389). (DEDUCED, log 48). -/
def readRow (s : State) (w : Who) (tomb : Bool) (es : List Effect) (r : Row) : Except Nat Row :=
  let late := lateParts s w r.src r.len
  if inFlight s w r.src r.len then .ok { r with late }
  else
  let head : Option (List Byte) :=
    if tomb && !awaitsAtoms s w r.src 4 then
      match globalRead s w es r.src 4 with | .ok bs => some bs | _ => none
    else none
  match head.filter (delHeader tomb) with
  | some bs => .ok { r with data := some (bs ++ List.replicate (r.len - 4) 0) }
  | none =>
    match globalRead s w es r.src r.len with
    | .ok bs => .ok { r with data := some bs, late }
    | .none => .ok { r with late }
    | .hole pa => .error pa

/-- Reads the sources as of issue; local bytes that an earlier command has still to write wait for them (R252).
(DEDUCED, log 48). -/
def readRows (s : State) (w : Who) (d : Desc) (rows : List Row) : Except Nat (List Row) :=
  if d.srcLocal then
    .ok (rows.map fun r =>
      let a := rowAcc r
      if heldAccess s w [a] then r else { r with data := some (spadRead s w a.team a.off r.len) })
  else
    let es := viewWrites s w
    rows.foldr (fun r acc =>
      match acc, readRow s w d.tomb es r with
      | .ok rs, .ok r => .ok (r :: rs)
      | .error e, _ => .error e
      | _, .error e => .error e) (.ok [])

/-- Ranges of the team's own allocation among the accesses. -/
def ownRanges (w : Who) (accs : List Acc) (write : Bool) : List (Nat × Nat) :=
  accs.filterMap fun a =>
    if a.team = w.team.tidx && ((a.how ≠ 0) == write) then some (a.off, a.len) else none

/-- Ranges of other teams' allocations that the accesses write. -/
def windowRanges (w : Who) (accs : List Acc) : List (Nat × Nat × Nat) :=
  accs.filterMap fun a => if a.team ≠ w.team.tidx && a.how ≠ 0 then some (a.team, a.off, a.len) else none

/-- Starts a checked command for the issuer: its number, with the flag of its slot. -/
def startCopy (s : State) (w : Who) (d : Desc) (p : Plan) (rows : List Row) (flag serial : Nat) : Nat × State :=
  let refused := (d.refusal s w).map word
  let named := d.cmode = 1 && refused.isNone
  let c : Cmd :=
    { group := w.g, split := w.x, team := w.grp.team, task := w.grp.task, flag, sd := d.sd, into := [w.x]
      key := agentKey w, clock := w.sp.clock, prog := s.prog, line := w.sp.line
      reads := if refused.isSome then [] else ownRanges w p.accs false
      writes := if refused.isSome then [] else ownRanges w p.accs true
      wins := if refused.isSome then [] else windowRanges w p.accs
      bar := if named then some (d.bar, cmdPhase w.grp d.bar) else none
      interval := w.team.interval
      ovl := viewOverlay s w ((rows.filter fun r => r.data.isNone).map fun r => (r.src, r.len))
      behind := if refused.isSome then [] else (rows.flatMap (rowBehind s w d)).eraseDups
      after := if rows.any fun r => !r.late.isEmpty then some (quantum w) else none
      body := .copy d.opc d.ws (if refused.isSome then [] else rows) serial (quantum w) none d.entry refused }
  let (id, s) := newCmd { s with prog := s.prog + 1 } c
  (id, if named then barAddCmd s w d.bar id else s)

/-- A group's next command takes the next serial (R248, R255). -/
def nextSerial (s : State) (g : Nat) : State :=
  updGroup s g fun grp => { grp with cserial := (grp.cserial + 1) % 2 ^ 32 }

/-- What the reads and the message of commands that start mean to other domains and tasks: read signatures, merges of
pending words, page tags, the joins of a port (R309, R380, R53). -/
def copyMarks (s : State) (w : Who) (started : List (Desc × List Row)) : State :=
  let srcs := started.flatMap fun (d, rows) => srcRanges d rows
  let dsts := started.flatMap fun (d, rows) => dstRanges d rows
  let s := srcs.foldl (fun s r => mergeRead s w r.1 r.2) (signReads s w srcs)
  let s := tagPages s w.launch.dom (piecePages ((srcs ++ dsts).flatMap fun (a, n) => readable s w.launch.ctx w.team.die a n))
  (started.filter fun e => e.1.cmode = 2).foldl (fun s e => joinPort s w (bits (e.1.w 5) 15 0)) s

/-- The destinations that a copy leaves pending (R79, R253). -/
def Desc.pends (d : Desc) : List (Nat × Nat) :=
  (0, d.sd) :: (if d.tomb then (List.range 3).map fun k => (0, d.sd + 1 + k) else [])

/-- A checked command is accepted: it starts, and takes the group's serial. -/
def acceptCopy (w : Who) (d : Desc) (p : Plan) (rows : List Row) (s : State) : State :=
  nextSerial (startCopy s w d p rows ((w.sp.clause.map Clause.flag).getD 15) w.grp.cserial).2 w.g

/-- The issue of a command that is not refused. -/
def startsCopy (s : State) (w : Who) (d : Desc) (p : Plan) : Res :=
  match copyForeign s w d p.rows with
  | some va => .trap (crossTrap va)
  | none =>
    match copyWaits s w d p with
    | some k => .stall k
    | none =>
      countWrites s w (globalBytes d p.rows) fun s =>
        match readRows s w d p.rows with
        | .error pa => .stop (.noSuchPhysicalAddress pa)
        | .ok rows =>
          .ok { s := copyMarks (acceptCopy w d p rows s) w [(d, rows)]
                accs := p.accs, items := p.items, looks := p.looks, pends := some d.pends }

/-- The read of a plan's index list, which is made at issue also for a command that is then refused (R247). -/
def Desc.listAccs (d : Desc) (p : Plan) : List Acc := if d.list.isSome then p.accs.take 1 else []
def Desc.listLooks (d : Desc) (p : Plan) : List Look := if d.list.isSome then p.looks.take 1 else []

/-- The issue of `CPY`, `CPY2`, `GATH` and `SCAT`. A refused command retires and moves nothing but its index list (R255). -/
def copySlot (i : Instr) (opc words : Nat) (sd sa : SReg) (s : State) : Host.Outcome State Fault Refusal :=
  slot i (fun s => withWho s fun w =>
    let d : Desc := { opc, ws := block s sa words, sd := sd.toNat }
    if d.listWaits s w then .stall 7
    else
      .bind (d.plan s w) fun p =>
        if viewWaits s w d then .stall 8
        else if (d.refusal s w).isSome then
          .ok { s := acceptCopy w d p p.rows s, accs := d.listAccs p, items := p.items, looks := d.listLooks p
                pends := some d.pends }
        else startsCopy s w d p) s

/-- CPY (R248). -/
def execCpy (sd sa : SReg) (s : State) : Host.Outcome State Fault Refusal := copySlot (.cpy sd sa) 0xA0 8 sd sa s

/-- CPY2 (R248). -/
def execCpy2 (sd sa : SReg) (s : State) : Host.Outcome State Fault Refusal := copySlot (.cpy2 sd sa) 0xA1 11 sd sa s

/-- GATH (R248, R253). -/
def execGath (sd sa : SReg) (s : State) : Host.Outcome State Fault Refusal := copySlot (.gath sd sa) 0xA2 12 sd sa s

/-- SCAT (R248). -/
def execScat (sd sa : SReg) (s : State) : Host.Outcome State Fault Refusal := copySlot (.scat sd sa) 0xA3 12 sd sa s

/-! ### Chunks and faults (R258-R260) -/

/-- The chunks of a row: (offset, bytes). -/
def chunksOf (n : Nat) : List (Nat × Nat) := (List.range ((n + 4095) / 4096)).map fun i => (4096 * i, min 4096 (n - 4096 * i))

/-- What keeps a global chunk from being read or written: the cause, or a physical hole. (DEDUCED, log 49). -/
def chunkFault (s : State) (ctx die : Nat) (wr : Bool) (va n : Nat) : Option (Except Nat Nat) :=
  (partsOf va n).findSome? fun p =>
    match translate s ctx die false wr p with
    | .ok pa _ k => if !wr && (badLine s pa k).isSome then some (.ok 3) else none
    | .invalid _ => some (.ok 1)
    | .denied _ => some (.ok 2)
    | .hole pa => some (.error pa)

/-- The launch of a command. (DEDUCED, log 51). -/
def cmdLaunch (s : State) (c : Cmd) : Option Launch :=
  (Table.find s.tasks c.task).bind fun k => Table.find s.launches k.launch

/-- The die on which a command runs. -/
def cmdDie (s : State) (c : Cmd) : Nat := ((Table.find s.teams c.team).map (·.die)).getD 0

/-- Bytes of a range that a command reads late, as they stood at issue (R251). -/
def lateBytes (s : State) (ctx : Nat) (c : Cmd) (va n : Nat) : List Byte :=
  let bs := match vaRead s ctx (cmdDie s c) false c.old va n with | .ok bs => bs | .error _ => []
  (List.range n).map fun i => (Table.find c.ovl (va + i)).getD (bs.getD i 0)

/-- The source row belongs to a deleted node (R253). -/
def rowVoid (s : State) (ctx : Nat) (c : Cmd) (tomb : Bool) (r : Row) : Bool :=
  tomb && delHeader tomb ((r.data.map (·.take 4)).getD (lateBytes s ctx c r.src 4))

/-- The command's source lies in scratchpad. -/
def Cmd.srcLocal (c : Cmd) : Bool :=
  match c.body with | .copy _ ws _ _ _ _ _ _ => blockDir ws = 1 || blockDir ws = 3 | _ => false

/-- Bytes of the own allocation that a command reads once the commands before it have written them, as its group sees
them. -/
def landedBytes (s : State) (c : Cmd) (off n : Nat) : List Byte :=
  match Table.find s.teams c.team with
  | some tm => Sparse.read 0 (tm.seenBy (((Table.find tm.bars 0).map (·.done)).getD 0 + 1) (indexOf s c.group)) off n
  | none => []

/-- The bytes `[o, o + n)` that a row delivers: a void row's header and zeros, or the source's (R253). -/
def rowPart (s : State) (ctx : Nat) (c : Cmd) (tomb : Bool) (r : Row) (o n : Nat) : List Byte :=
  if rowVoid s ctx c tomb r then ((wordBytes 0xC0000000 ++ List.replicate (r.len - 4) 0).drop o).take n
  else
    match r.data with
    | some bs => (bs.drop o).take n
    | none => if c.srcLocal then landedBytes s c ((placeOf r.src).2 + o) n else lateBytes s ctx c (r.src + o) n

/-- What keeps a row's chunk from being read: nothing once its bytes are known, of a deleted node the header alone. -/
def sourceFault (s : State) (ctx : Nat) (c : Cmd) (tomb : Bool) (r : Row) (o n : Nat) : Option (Except Nat Nat) :=
  if r.data.isSome || c.srcLocal then none
  else
    ((if tomb && o = 0 && (Table.find c.ovl r.src).isNone then chunkFault s ctx (cmdDie s c) false r.src 4 else none)).orElse fun _ =>
      if rowVoid s ctx c tomb r then none else chunkFault s ctx (cmdDie s c) false (r.src + o) n

/-- The first chunk of a command at or above its cursor that faults: cause, row position, offset, write.
(DEDUCED, log 49). -/
def firstFault (s : State) (ctx : Nat) (c : Cmd) (ws : List Word) (rows : List Row) :
    Option (Except Nat (Nat × Nat × Nat × Bool)) :=
  let dstG := blockDir ws = 1 || blockDir ws = 2
  let tomb := bit (ws.getD 0 0) 9
  rows.findSome? fun r =>
    ((chunksOf r.len).filter fun k => !pairLt (r.pos, k.1) c.cursor).findSome? fun (o, n) =>
      let tag (wr : Bool) (x : Except Nat Nat) : Except Nat (Nat × Nat × Nat × Bool) := x.map fun c => (c, r.pos, o, wr)
      ((sourceFault s ctx c tomb r o n).map (tag false)).orElse fun _ =>
        (if dstG then chunkFault s ctx (cmdDie s c) true (r.dst + o) n else none).map (tag true)

/-- The 16 words of a copy-fault record (R260). (DEDUCED, log 51). -/
def faultWords (s : State) (c : Cmd) (f : Nat × Nat × Nat × Bool) : List Word :=
  match c.body, Table.find s.tasks c.task, Table.find s.teams c.team, Table.find s.groups c.group with
  | .copy opc _ rows serial _ _ entry _, some k, some tm, some grp =>
    let (cause, row, off, wr) := f
    let va := match rows.find? fun r => r.pos = row with | some r => (if wr then r.dst else r.src) + off | none => 0
    let ctx := ((Table.find s.launches k.launch).map (·.ctx)).getD 0
    let key := taskKey k
    [word (cause + (if entry.isSome then 0xA5 else opc) * 2 ^ 8 + (if wr then 2 ^ 16 else 0) + ctx * 2 ^ 20),
      word serial, word va, word (va / 2 ^ 32), word row, word off,
      word (tm.tidx + grp.gidx * 2 ^ 16), word (entry.getD 0xFF), word key, word (key / 2 ^ 32),
      word (key / 2 ^ 64), word (c.key % 2 ^ 16), 0, 0, 0, 0]
  | _, _, _, _ => []

/-- Writes a local place of a command's team, or posts a window write with the command's time (R65). -/
def landLocal (s : State) (id : Nat) (c : Cmd) (l : Launch) (a : Nat) (bs : List Byte) : State :=
  let (t, off) := placeOf a
  match Table.find s.teams c.team, Table.find s.tasks c.task with
  | some tm, some k =>
    if t = tm.tidx then landOwn s c.team (indexOf s c.group) off bs
    else match k.teams[t]? with
      | some n =>
        { s with effects := s.effects ++
          [{ dom := l.dom, launch := k.launch, task := c.task, team := c.team, group := c.group, split := c.split
             key := c.key, prog := c.prog, cmd := id, line := c.line, time := c.time, pub := c.pub, body := .window n off bs }] }
      | none => s
  | _, _ => s

/-- An effect of a command, at its logical time. -/
def cmdEffect (s : State) (id : Nat) (c : Cmd) (l : Launch) (body : EffBody) : State :=
  match Table.find s.tasks c.task with
  | some k =>
    { s with effects := s.effects ++
      [{ dom := l.dom, launch := k.launch, task := c.task, team := c.team, group := c.group, split := c.split
         key := c.key, prog := c.prog, cmd := id, line := c.line, time := c.time, pub := c.pub, body }] }
  | none => s

/-- The pieces of a global write, when every page takes it. -/
def writePieces (s : State) (ctx die va : Nat) (bs : List Byte) : List (Nat × Nat × List Byte) :=
  ((partsOf va bs.length).foldl (fun (acc : List (Nat × Nat × List Byte) × List Byte) p =>
    match translate s ctx die false true p with
    | .ok pa key k => (acc.1 ++ [(pa, key, acc.2.take k)], acc.2.drop k)
    | _ => (acc.1, acc.2.drop p.2)) ([], bs)).1

/-- An effect that a commit has still to make is translated again as the tables stand; what they do not map keeps its place
(R411, R434). (DEDUCED, log 119). -/
def rewalk (s : State) (e : Effect) : Effect :=
  match Table.find s.launches e.launch with
  | none => e
  | some l =>
    let die := ((Table.find s.teams e.team).map (·.die)).getD 0
    match e.body with
    | .write va ps =>
      let bs := ps.flatMap fun p => p.2.2
      let ps' := writePieces s l.ctx die va bs
      if (ps'.flatMap fun p => p.2.2).length = bs.length then { e with body := .write va ps' } else e
    | .atom op ls ret =>
      { e with body := .atom op (ls.map fun (i, pa, key, x, y, va) =>
          match translate s l.ctx die false true (va, atomBytes op) with
          | .ok pa' key' _ => (i, pa', key', x, y, va)
          | _ => (i, pa, key, x, y, va)) ret }
    | _ => e

/-- Translates again every effect that `p` names. -/
def rewalkWhere (s : State) (p : Effect → Bool) : State :=
  let f (e : Effect) : Effect := if p e then rewalk s e else e
  { s with
    effects := s.effects.map f
    doms := s.doms.map fun (n, d) => (n, { d with late := d.late.map fun (q, e) => (q, f e) }) }

/-- A late read merges the pending words that no commit has changed since its issue (R380). (DEDUCED, log 48). -/
def mergeLate (s : State) (ctx : Nat) (c : Cmd) (va n : Nat) : State :=
  if s.accs.isEmpty then s
  else (readable s ctx (cmdDie s c) va n).foldl (fun s p =>
    match p with
    | .ok pa _ k =>
      let kept (a : Nat) : Bool :=
        decide (a + 4 ≤ pa) || decide (pa + k ≤ a) || (List.range 4).any fun i => (Table.find c.old (a + i)).isSome
      { s with accs := s.accs.filter fun a => kept a.1 }
    | _ => s) s

/-- The bytes of a row between two cursors: offset and length. -/
def rowSpan (from' to' : Nat × Nat) (r : Row) : Nat × Nat :=
  let below (c : Nat × Nat) : Nat := if r.pos < c.1 then r.len else if r.pos = c.1 then min c.2 r.len else 0
  (below from', below to' - below from')

/-- The global bytes that a command writes belong to the views of the commands that have waited for them (R251). -/
def feedBehind (s : State) (id va : Nat) (bs : List Byte) : State :=
  { s with cmds := s.cmds.map fun (n, c) =>
      (n, if c.behind.contains id then { c with ovl := putBytes c.ovl va bs } else c) }

/-- Writes the bytes of a command's rows between two cursors, and merges the pending words that it reads late. -/
def landRows (s : State) (id : Nat) (c : Cmd) (l : Launch) (ws : List Word) (rows : List Row) (to' : Nat × Nat) : State :=
  let tomb := bit (ws.getD 0 0) 9
  rows.foldl (fun v r =>
    let (o, n) := rowSpan c.cursor to' r
    if n = 0 then v
    else
      let bs := rowPart s l.ctx c tomb r o n
      let v := if r.data.isSome || c.srcLocal then v else mergeLate v l.ctx c (r.src + o) (if rowVoid s l.ctx c tomb r then 4 else n)
      if blockDir ws = 1 || blockDir ws = 2 then
        feedBehind (cmdEffect v id c l (.write (r.dst + o) (writePieces s l.ctx (cmdDie s c) (r.dst + o) bs))) id (r.dst + o) bs
      else landLocal v id c l (r.dst + o) bs) s

/-- The headers that a command has read late up to its cursor, kept with the bytes of its view. -/
def keepHeaders (s : State) (ctx : Nat) (c : Cmd) (rows : List Row) (to' : Nat × Nat) : Sparse Byte :=
  rows.foldl (fun m r =>
    if r.data.isNone && pairLt (r.pos, 0) to' then putBytes m r.src (lateBytes s ctx c r.src 4) else m) c.ovl

/-- Two lists of ranges meet. -/
def rangesMeet (l m : List (Nat × Nat)) : Bool := l.any fun a => m.any fun b => overlap a.1 a.2 b.1 b.2

/-- A command writes its bytes after those of an earlier one of its group, and after an earlier one has read its own; at
global addresses after those of its line (R56, R252). -/
def awaitsEarlier (s : State) (c : Cmd) : Bool :=
  s.cmds.any fun (_, k) =>
    k.group = c.group && !k.finished && decide (k.prog < c.prog) &&
      (rangesMeet c.writes k.writes || (k.reading && rangesMeet c.writes k.reads) ||
        (c.line.contains k.split && rangesMeet c.globalDst k.globalDst))

/-- The commands whose bytes a command waits for have written them. -/
def behindDone (s : State) (c : Cmd) : Bool :=
  c.behind.all fun i => match Table.find s.cmds i with | some k => k.finished | none => true

/-- A command may move its bytes: reads that wait for a commit (R389) and for earlier commands are made, earlier commands'
bytes stand. (DEDUCED, log 48). -/
def movesNow (s : State) (c : Cmd) : Bool := !c.finished && c.after.isNone && behindDone s c && !awaitsEarlier s c

/-- A command is suspended at a chunk: every chunk below it is done, and the record is queued (R259, R260).
(DEDUCED, log 50). -/
def suspend (s : State) (id : Nat) (c : Cmd) (l : Launch) (ws : List Word) (rows : List Row)
    (f : Nat × Nat × Nat × Bool) (body : CmdBody) : State :=
  let to' := (f.2.1, f.2.2.1)
  let ovl := if bit (ws.getD 0 0) 9 then keepHeaders s l.ctx c rows to' else c.ovl
  let s := landRows s id c l ws rows to'
  let s := updCmd s id fun c => { c with body, ovl, cursor := to' }
  updCore s (cmdDie s c) fun k => { k with faultQ := k.faultQ ++ [(id, faultWords s c f)] }

/-- COPY_FAULT: command `a` meets a chunk that faults, is suspended and queues its record (R259). -/
def execCopyFault (s : State) : Host.Outcome State Fault Refusal :=
  let id := s.arg.a
  match Table.find s.cmds id with
  | some c =>
    match c.body, cmdLaunch s c with
    | .copy opc ws rows serial q none entry refused, some l =>
      if refused.isSome || !movesNow s c then .next s
      else
        match firstFault s l.ctx c ws rows with
        | some (.ok f) => .next (suspend s id c l ws rows f (.copy opc ws rows serial q (some f) entry refused))
        | some (.error pa) => .fault (.noSuchPhysicalAddress pa)
        | none => .next s
    | _, _ => .next s
  | none => .next s

/-! ### Completion (R253, R254, R256) -/

/-- Ends a copy: flag, status registers, barrier. The command of a schedule entry has neither flag nor register, and the
absent mask of its `GATH` is not kept. (DESIGN CHOICE, log 53). -/
def finishCopy (s : State) (id : Nat) (c : Cmd) (entry : Bool) (regs : List Word) : State :=
  let s :=
    if entry then wakeStalled (pruneCmds (updCmd s id fun c => { c with finished := true }))
    else finishCmd s id c (uniformOuts c.sd regs)
  barEndCmd s c.team id

/-- A command that has moved all its bytes finishes: rows, signal, status and absent mask. -/
def completeCopy (s : State) (id : Nat) (c : Cmd) (l : Launch) (opc : Nat) (ws : List Word) (rows : List Row)
    (entry : Bool) : State :=
  let tomb := bit (ws.getD 0 0) 9
  let voids := (rows.filter (rowVoid s l.ctx c tomb)).map Row.pos
  let absent := posMask voids
  let status := if opc = 0xA2 then word (voids.length * 2 ^ 8 + (if voids.isEmpty then 0 else 2 ^ 16)) else 0
  let s := landRows s id c l ws rows (2 ^ 32, 0)
  let s := match bits (ws.getD 0 0) 4 3 with
    | 2 => cmdEffect s id c l (.message (bits (ws.getD 5 0) 15 0) (ws.getD 6 0) status none)
    | 3 => cmdEffect s id c l (.phsig (bits (ws.getD 5 0) 19 0) 1 c.team none false none)
    | _ => s
  finishCopy s id c entry (status :: (if tomb then [maskWord absent 0, maskWord absent 1, maskWord absent 2] else []))

/-- COPY_COMMAND_COMPLETE: command `a` finishes. -/
def execCopyCommandComplete (s : State) : Host.Outcome State Fault Refusal :=
  let id := s.arg.a
  match Table.find s.cmds id with
  | none => .next s
  | some c =>
    if c.finished then .next s
    else
      match c.body, cmdLaunch s c with
      | .copy _ ws _ _ _ _ entry (some code), _ =>
        .next (finishCopy s id c entry.isSome (code :: (if bit (ws.getD 0 0) 9 then [0, 0, 0] else [])))
      | .copy opc ws rows _ _ none entry none, some l =>
        if movesNow s c && (firstFault s l.ctx c ws rows).isNone then .next (completeCopy s id c l opc ws rows entry.isSome)
        else .next s
      | .stage ids status, _ =>
        if ids.any fun i => match Table.find s.cmds i with | some k => !k.finished | none => false then .next s
        else .next (finishCmd s id c (uniformOuts c.sd [status]))
      | .done status, _ => .next (finishCmd s id c (uniformOuts c.sd [status]))
      | _, _ => .next s

/-! ### Schedules (R262-R265) -/

/-- The schedule state as an item of a group that owns it (R265). -/
def schedItem (w : Who) (write : Bool) : List Item :=
  if (w.team.sched.map (·.owner)) = some w.g then [⟨4, 35, write⟩] else []

/-- A command that completes at once with a status. -/
def doneCmd (s : State) (w : Who) (sd : Nat) (body : CmdBody) : State :=
  (newCmd s
    { group := w.g, split := w.x, team := w.grp.team, task := w.grp.task
      flag := (w.sp.clause.map Clause.flag).getD 15, sd, into := [w.x], key := agentKey w, clock := w.sp.clock
      prog := s.prog, line := w.sp.line, body }).2

/-- The words of a command of each schedule op. -/
def opWords (op : Nat) : Nat := match op with | 0 => 8 | 1 => 11 | _ => 12

/-- A schedule entry is invalid on its own (R262). (DEDUCED, log 52). -/
def schedEntryBad (e : List Word) : Bool :=
  let g (i : Nat) : Word := e.getD i 0
  let op := (g 12).toNat
  decide (3 < op) || ((List.range 12).any fun i => decide (opWords op ≤ i) && g i ≠ 0) || bits (g 13) 31 6 ≠ 0 ||
    (decide (2 ≤ op) && !bit (g 9) 31) || (g 14).toNat % 4 ≠ 0 || (g 15).toNat % 4 ≠ 0

/-- The first selected entry out of stage order. (DEDUCED, log 52). -/
def stageBreak : Nat → Option Nat → List (Nat × List Word) → Option Nat
  | 0, _, _ => none
  | _ + 1, _, [] => none
  | fuel + 1, prev, (n, e) :: rest =>
    let st := bits (e.getD 13 0) 5 0
    let good : Bool := match prev with | none => decide (st = 0) | some p => st = p || st = p + 1
    if good then stageBreak fuel (some st) rest else some n

/-- CPSCH (R263). -/
def execCpsch (sd sa : SReg) (s : State) : Host.Outcome State Fault Refusal :=
  slot (.cpsch sd sa) (fun s => withWho s fun w =>
    let b := block s sa 5
    let g (i : Nat) : Word := b.getD i 0
    let sel := g 4
    let first := bits sel 5 0
    let count := bits sel 13 8 + 1
    let ncs := bits (recWord w.task.words 30) 6 0
    let csch := (recWord w.task.words 28).toNat + bits (recWord w.task.words 29) 23 0 * 2 ^ 32
    let status (code n : Nat) : Word := word (code + n * 2 ^ 8)
    let done (s : State) (v : Word) (items : List Item) : Res := .ok { s := doneCmd s w sd.toNat (.done v), items }
    -- a refused command advances the serial (R255)
    let refuse (v : Word) : Res := done (nextSerial s w.g) v (schedItem w true)
    if bits (g 2) 31 24 ≠ 0 then .trap (copyTrap 1 2)
    else if bits sel 7 6 ≠ 0 || bits sel 31 14 ≠ 0 then .trap (copyTrap 1 4)
    else if (g 3).toNat = 0 || decide (65536 < (g 3).toNat) then .trap (copyTrap 3 3)
    else if ncs < first + count then .trap (copyTrap 3 4)
    else if (g 0).toNat % 4 ≠ 0 then .trap (copyTrap 4 0)
    else if (g 1).toNat % 4 ≠ 0 then .trap (copyTrap 4 1)
    else if match w.team.sched with | some c => c.active | none => false then refuse (status 4 0)
    else
      match vaRead s w.launch.ctx w.team.die false w.launch.old ((csch + 64 * first) % 2 ^ 56) (64 * count) with
      | .error (.hole pa) => .stop (.noSuchPhysicalAddress pa)
      | .error p =>
        let va := match p with | .invalid a => a | .denied a => a | _ => csch
        .trap { cls := 8, cause := 1, d0 := word va, d1 := word (va / 2 ^ 32) }
      | .ok bs =>
        let es := (List.range count).map fun i => (first + i, bytesWords 16 (bs.drop (64 * i)))
        match es.find? fun e => schedEntryBad e.2 with
        | some e => refuse (status 6 e.1)
        | none =>
          match stageBreak 65 none es with
          | some n => refuse (status 6 n)
          | none =>
            let stages := (es.foldl (fun m e => max m (bits (e.2.getD 13 0) 5 0)) 0) + 1
            let view := match w.team.sched with | some c => c.view | none => [0, 0, 0, 0]
            let c : Sched :=
              { owner := w.g, lbase := g 0, gbase := (g 1).toNat + (g 2).toNat * 2 ^ 32, rounds := (g 3).toNat
                sel := es.map (·.1), entries := es.map (·.2), round := 0, stage := 0, stages, released := 0
                active := true, view }
            done (updTeam s w.grp.team fun tm => { tm with sched := some c }) (status 0 0) [⟨4, 35, true⟩]) s

/-- The descriptor of an entry in a round (R264): local and global addresses moved, the address of an index list within its
31 bits. (DEDUCED, log 129). -/
def entryDesc (c : Sched) (sd : Nat) (n : Nat) (e : List Word) : Desc :=
  let g (i : Nat) : Word := e.getD i 0
  let d : Desc := { opc := 0xA0 + (g 12).toNat, ws := e.take 12, sd, entry := some n }
  let lstep : Int := (c.lbase.toNat : Int) + c.round * (g 14).toInt
  let gstep : Int := (c.gbase : Int) + c.round * (g 15).toInt
  let move (isLocal : Bool) (lo hi : Word) : Word × Word :=
    if isLocal then (BitVec.ofInt 32 (lo.toNat + lstep), hi)
    else
      let v := ((lo.toNat + hi.toNat * 2 ^ 32 : Nat) : Int) + gstep
      (BitVec.ofInt 32 v, BitVec.ofInt 32 (v / 2 ^ 32))
  let (s0, s1) := move d.srcLocal (g 1) (g 2)
  let (t0, t1) := move d.dstLocal (g 3) (g 4)
  let isrc := if d.indexed then word (((g 9).toNat + lstep) % 2 ^ 31 |>.toNat) ||| 0x80000000 else g 9
  { d with ws := ((((d.ws.set 1 s0).set 2 s1).set 3 t0).set 4 t1).set 9 isrc }

/-- The schedule after the release of its next stage. (DESIGN CHOICE, log 53). -/
def schedNext (c : Sched) : Sched :=
  let last := c.stage + 1 = c.stages
  let r := if last then c.round + 1 else c.round
  { c with stage := if last then 0 else c.stage + 1, round := r, released := c.released + 1
           active := decide (r < c.rounds) }

/-- Starts the entries of a stage in order, each reading its sources behind those before it (R251, R252).
(DESIGN CHOICE, log 53). -/
def startEntries (w : Who) (flag serial : Nat) : List (Desc × Plan) → State → List (Nat × Desc × List Row) →
    List (Nat × Desc × List Row) × State
  | [], s, done => (done, s)
  | (d, p) :: rest, s, done =>
    let rows := match readRows s w d p.rows with | .ok rows => rows | .error _ => p.rows
    let (id, s) := startCopy s w d p rows flag serial
    startEntries w flag serial rest s (done ++ [(id, d, rows)])

/-- What judging the entries of a stage comes to: the commands with their rows, an entry that fails R249, or a wait. -/
inductive Staged where
  | go (l : List (Desc × Plan))
  | bad (n : Nat)
  | stall (k : Nat)
  | hole (pa : Nat)

/-- A state as a later command of a stage reads it: this command has moved its bytes. (DESIGN CHOICE, log 53). -/
def landedCopy (s : State) (w : Who) (d : Desc) (p : Plan) (rows : List Row) : State :=
  let (id, v) := startCopy s w d p rows 15 w.grp.cserial
  match Table.find v.cmds id with
  | some c => let v := landRows v id c w.launch d.ws rows (2 ^ 32, 0); { v with cmds := Table.del v.cmds id }
  | none => s

/-- Judges the entries of a stage in order, each with the index list as the bytes of those before it leave it; bytes that
one of those has still to learn count as they stand. (DESIGN CHOICE, log 53). -/
def stageRead (w : Who) : List Desc → State → List (Desc × Plan) → Staged
  | [], _, acc => .go acc
  | d :: ds, v, acc =>
    if d.listWaits v w then .stall 7
    else
      match d.plan v w with
      | .error _ => .bad (d.entry.getD 0)
      | .ok p =>
        if viewWaits v w d then .stall 8
        else if (d.refusal v w).isSome then stageRead w ds v (acc ++ [(d, p)])
        else
          match copyWaits v w d p with
          | some k => .stall k
          | none =>
            match readRows v w d p.rows with
            | .error pa => .hole pa
            | .ok rows =>
              let known := rows.all fun r => r.data.isSome && r.late.isEmpty
              stageRead w ds (if known then landedCopy v w d p rows else v) (acc ++ [(d, p)])

/-- A stage of a team released and not yet complete (R264). -/
def outstandingStages (s : State) (team : Nat) : Nat :=
  (s.cmds.filter fun (_, k) =>
    k.team = team && !k.finished && (match k.body with | .stage .. => true | _ => false)).length

/-- The release of a stage whose entries all pass: one serial for all of them. (DEDUCED, log 52). -/
def releaseStage (s : State) (w : Who) (sd : Nat) (go : List (Desc × Plan)) : Res :=
  let (live, out) := go.partition fun (d, _) => (d.refusal s w).isNone
  match live.findSome? fun (d, p) => copyForeign s w d p.rows with
  | some va => .trap (crossTrap va)
  | none =>
    if 8 ≤ outstandingStages s w.grp.team then .stall 6
    else
      countWrites s w (live.foldl (fun n (d, p) => n + globalBytes d p.rows) 0) fun s =>
        let was := s
        let (started, s) := startEntries w ((w.sp.clause.map Clause.flag).getD 15) w.grp.cserial go s []
        let s := nextSerial (doneCmd s w sd (.stage (started.map (·.1)) (word (go.length * 2 ^ 8)))) w.g
        .ok { s := copyMarks s w ((started.map (·.2)).filter fun e => (e.1.refusal was w).isNone)
              accs := (live.flatMap fun (_, p) => p.accs) ++ out.flatMap fun (d, p) => d.listAccs p
              looks := (live.flatMap fun (_, p) => p.looks) ++ out.flatMap fun (d, p) => d.listLooks p
              items := schedItem w true }

/-- CPSTG (R264). -/
def execCpstg (sd : SReg) (s : State) : Host.Outcome State Fault Refusal :=
  slot (.cpstg sd) (fun s => withWho s fun w =>
    let refuse (s : State) (v : Nat) : Res :=
      .ok { s := doneCmd (nextSerial s w.g) w sd.toNat (.done (word v)), items := schedItem w true }
    match w.team.sched with
    | none => refuse s 4
    | some c =>
      if !c.active then refuse s 4
      else if c.owner ≠ w.g then refuse s 5
      else
        let es := (c.sel.zip c.entries).filter fun e => bits (e.2.getD 13 0) 5 0 = c.stage
        let s' := updTeam s w.grp.team fun tm => { tm with sched := some (schedNext c) }
        match stageRead w (es.map fun e => entryDesc c sd.toNat e.1 e.2) s [] with
        | .bad n => refuse s' (6 + n * 2 ^ 8)
        | .stall k => .stall k
        | .hole pa => .stop (.noSuchPhysicalAddress pa)
        | .go l => releaseStage s' w sd.toNat l) s

/-- CPCUR (R265). -/
def execCpcur (sd sa : SReg) (s : State) : Host.Outcome State Fault Refusal :=
  slot (.cpcur sd sa) (fun s => withWho s fun w =>
    if uread s sa.toNat ≠ 0 then .trap (copyTrap 1 0)
    else
      let vs := match w.team.sched with
        | none => [0, 0, 0, 0]
        | some c => if c.owner = w.g then [word c.released, word c.round, word c.stage, flagWord c.active] else c.view
      .ok { s := uwrites s sd.toNat vs, items := schedItem w false }) s

end Sys2Proof.Machine
end

