-- ==== Sys2Proof/Machine/Task.lean ====
section
/-!
DEFINITION. The task engine (09_task_engine R293-R318): the checks of a launch record, creation, placement and
dispatch, what a task starts with, the instructions that create tasks, set quotas, root and split; and the resumption
of a continuation (10_join_engine R343-R345).
-/

namespace Sys2Proof.Machine

/-! ### The checks of a launch record (R294) -/

/-- The live phaser that an id names: the generation of an id of a freed one is never current (R352). -/
def phaserOf (s : State) (id : Nat) : Option Phaser := (Table.find s.phasers id).filter fun p => !p.freed

/-- The must-be-zero bits of each word (R293). (DEDUCED, log 54). -/
def recordZeros : List (Nat × Nat) :=
  [(1, 0xFF000000), (3, 0xFFF0E00C), (4, 0xFFFF00FC), (15, 0xFFFFFF00), (20, 0xFFFFFFFC), (22, 0xFF000000),
    (26, 0xFFFE0000), (27, 0xFFFE0000), (29, 0xFF000000), (30, 0xFFFFFF80), (32, 0xFF000000),
    (33, 0xFFFF0000), (50, 0xFFFFFFF0)] ++
    (List.range 8).map (fun i => (51 + i, 0xFFF00000)) ++ (List.range 5).map (fun i => (59 + i, 0xFFFFFFFF))

/-- Dimensions of the domain. -/
def recDims (ws : List Word) : Nat := bits (recWord ws 3) 1 0

/-- Code 1: a must-be-zero field, a reserved value, or a field that its selector leaves unused. -/
def recordCode1 (ws : List Word) : Bool :=
  (recordZeros.any fun (i, m) => recWord ws i &&& word m ≠ 0) || recDims ws = 0 ||
    bits (recWord ws 20) 1 0 = 3 ||
    (bits (recWord ws 20) 1 0 ≠ 1 && [21, 22, 23, 24, 25].any fun i => recWord ws i ≠ 0) ||
    (List.range 8).any fun i => decide (bits (recWord ws 50) 3 0 ≤ i) && recWord ws (51 + i) ≠ 0

/-- Code 3: bounds out of order, or an unused dimension that is not [0, 1) with grain 1. -/
def recordCode3 (ws : List Word) : Bool :=
  (List.range 3).any fun d =>
    let lo := (recWord ws (6 + 2 * d)).toInt
    let hi := (recWord ws (7 + 2 * d)).toInt
    if d < recDims ws then decide (hi < lo)
    else !(lo = 0 && hi = 1 && recWord ws (12 + d) = 1)

/-- Code 4: an empty domain or a grain of 0. -/
def recordCode4 (ws : List Word) : Bool :=
  (List.range (recDims ws)).any fun d =>
    recWord ws (6 + 2 * d) = recWord ws (7 + 2 * d) || recWord ws (12 + d) = 0

/-- Code 5: width, lq or weight out of range. -/
def recordCode5 (ws : List Word) : Bool :=
  let lq := bits (recWord ws 3) 19 16
  recWidth ws = 0 || decide (24 < recWidth ws) || decide (lq < 10) || bits (recWord ws 4) 15 8 = 0

/-- The quotas. -/
def recVq (ws : List Word) : Nat := bits (recWord ws 15) 7 0
def recSq (ws : List Word) : Nat := (recWord ws 16).toNat
def recWq (ws : List Word) : Nat := (recWord ws 17).toNat

/-- Code 6: a quota out of range. -/
def recordCode6 (ws : List Word) : Bool :=
  let vq := recVq ws
  decide (vq < 8) || decide (128 < vq) || vq % 8 ≠ 0 || recSq ws % 4096 ≠ 0 || decide (0x100000 < recSq ws) ||
    decide (0x4000000 < recWq ws) || decide (recTq ws < 2 ^ 16) || decide (2 ^ 63 ≤ recTq ws)

/-- Code 7: the footprint or the vector budget (R212, R19). -/
def recordCode7 (ws : List Word) : Bool :=
  decide (0x100000 < recSq ws + 8192 * recTeam ws) || decide (512 < (recTeam ws + 3) / 4 * recVq ws)

/-- Code 8: ncs, nph, or an alignment. -/
def recordCode8 (ws : List Word) : Bool :=
  decide (64 < bits (recWord ws 30) 6 0) || decide (8 < bits (recWord ws 50) 3 0) ||
    (recWord ws 28).toNat % 64 ≠ 0 || (recWord ws 31).toNat % 4 ≠ 0

/-- The dies of the die-scope phasers that a record lists. -/
def recordDies (s : State) (ws : List Word) : List Nat :=
  ((recPhasers ws).filterMap fun id => (phaserOf s id).bind fun p =>
    if p.scope = 0 then some p.die else none).eraseDups

/-- The first code that a record fails by, 0 when it passes; `q` is the quantum length it must declare (R294). Code 11
is judged by the readers of records. (DEDUCED, log 54). (DEDUCED, log 55). -/
def checkRecord (s : State) (ws : List Word) (q : Option Nat) : Nat :=
  if recordCode1 ws then 1
  else if (recWord ws 0).toNat % 256 ≠ 0 || (recWord ws 2).toNat % 4 ≠ 0 then 2
  else if recordCode3 ws then 3
  else if recordCode4 ws then 4
  else if recordCode5 ws then 5
  else if recordCode6 ws then 6
  else if recordCode7 ws then 7
  else if recordCode8 ws then 8
  else if recFeat ws / 32 ≠ 0 then 9
  else if q.any fun q => recQ ws ≠ q then 10
  else if 2 ≤ (recordDies s ws).length then 12
  else 0

/-! ### Creation (R27, R33, R296, R314) -/

/-- The domain of a record. -/
def recLo (ws : List Word) : List Int := [6, 8, 10].map fun i => (recWord ws i).toInt
def recHi (ws : List Word) : List Int := [7, 9, 11].map fun i => (recWord ws i).toInt

/-- Creates a task of launch `l` with its family. -/
def createTask (s : State) (l : Nat) (ws : List Word) (seq start : Nat) (root : Bool) (sheaf : List Word) : State :=
  let f := s.fresh
  let ts := (recWord ws 5).toNat
  let task : Task :=
    { launch := l, ts, seq, path := 0x8000, lo := recLo ws, hi := recHi ws, words := ws, start, ready := f, family := f, sheaf }
  let s := { s with fresh := f + 2, tasks := Table.put s.tasks (f + 1) task }
  let s := updLaunch s l fun l =>
    { l with liveTasks := l.liveTasks + 1, families := Table.put l.families f ⟨root, ts, seq, ws, 1⟩ }
  match Table.find s.launches l with
  | some l => updCtx s l.ctx fun c => { c with live := c.live + 1 }
  | none => s

/-- A creation at step 7 of commit (R27, R299): the next seq, or the report of a creation that the context's limit
drops. `issuer` is the seq of the creating task, `tag` the creating agent's key and the place of the creation in its program order,
none for a pattern action. -/
def spawnTask (s : State) (l : Nat) (ws : List Word) (start issuer : Nat) (tag : Option (Nat × Nat)) (sheaf : List Word) :
    State :=
  match Table.find s.launches l with
  | none => s
  | some la =>
    if 2 ^ 24 ≤ (ctxOf s la.ctx).live then
      match recPort la.words 26 with
      | some p =>
        addReport s la.dom
          { ctx := la.ctx, port := p, w0 := word (6 + 7 * 2 ^ 8), w1 := word issuer, tag := (tag.map (·.1)).getD 0
            byTask := tag.isNone, place := (tag.map (·.2)).getD (2 ^ 64) }
      | none => s
    else
      let s := updLaunch s l fun l => { l with nextSeq := l.nextSeq + 1 }
      createTask s l ws la.nextSeq start false sheaf

/-! ### Placement (R19, R22, R295, R297) -/

/-- The home slice of a virtual address (R378). -/
def homeSlice (s : State) (va : Nat) : Nat :=
  let h := [12, 18, 24, 30, 36, 42, 48, 54].foldl (fun h i => h ^^^ (va / 2 ^ i % 64)) 0
  if s.chip then h % 16 else h

/-- The preferred cluster of a task: die and cluster (R295). -/
def preferred (s : State) (task : Task) : Option (Nat × Nat) :=
  let ws := task.words
  let c (d : Nat) : Int :=
    (task.lo.getD d 0 - (recLo ws).getD d 0) / (recWord ws (12 + d)).toNat
  match bits (recWord ws 20) 1 0 with
  | 0 =>
    let h := (c 0 + c 1 + c 2) % (if s.chip then 4 else 16)
    some (h.toNat / 4, h.toNat % 4)
  | 1 =>
    let base : Int := (recWord ws 21).toNat + bits (recWord ws 22) 23 0 * 2 ^ 32
    let va := (base + c 0 * (recWord ws 23).toInt + c 1 * (recWord ws 24).toInt + c 2 * (recWord ws 25).toInt) % 2 ^ 56
    let h := homeSlice s va.toNat
    some (h / 16, h % 16 / 4)
  | _ => none

/-- Resident teams of a core. -/
def coreTeams (s : State) (die core : Nat) : List (Nat × Team) :=
  s.teams.filter fun (_, tm) => tm.die = die && tm.core = core && !tm.exited

/-- The scratchpad that a team holds: its reservation, and its spill regions (R212, R315). -/
def teamHolds (s : State) (tm : Team) : Nat :=
  let sq := match Table.find s.tasks tm.task with | some k => recSq k.words | none => 0
  (if lastSize s tm = 0 then 0 else sq) + 8192 * tm.groups.length

/-- The scratchpad that the teams of a core hold. -/
def coreHolds (s : State) (die core : Nat) : Nat := (coreTeams s die core).foldl (fun t e => t + teamHolds s e.2) 0

/-- Resident groups of a quadrant of a core: not ended and not parked (R19, R190). -/
def quadGroups (s : State) (die core quad : Nat) : List (Nat × Group) :=
  s.groups.filter fun (_, grp) =>
    !grp.exited && !grp.parked && grp.slot / 16 = quad &&
      (match Table.find s.teams grp.team with | some tm => tm.die = die && tm.core = core | none => false)

/-- `n` more groups with `v` vector registers each fit into a quadrant. -/
def quadFits (s : State) (die core quad n v : Nat) : Bool :=
  let gs := quadGroups s die core quad
  decide (gs.length + n ≤ 16) && decide ((gs.foldl (fun t e => t + e.2.budget) 0) + n * v ≤ 512)

/-- A group of a core waits for space in a slot that `p` names: no new team is placed there (R315, R316).
(DESIGN CHOICE, log 58). -/
def spaceClaimed (s : State) (die core : Nat) (p : Group → Instr → Bool) : Bool :=
  s.groups.any fun (_, grp) =>
    !grp.exited && ((coreTeams s die core).any fun e => e.1 = grp.team) &&
      grp.splits.any fun (_, sp) => sp.claims && (sp.clause.bind slotInstr).any (p grp)

/-- An `ALLOC` waits for the core's scratchpad; a `VGROW` for the budget of a quadrant. -/
def allocWaits (s : State) (die core : Nat) : Bool :=
  spaceClaimed s die core fun _ i => match i with | .alloc .. => true | _ => false
def vgrowWaits (s : State) (die core quad : Nat) : Bool :=
  spaceClaimed s die core fun grp i => match i with | .vgrow .. => grp.slot / 16 = quad | _ => false

/-- A team takes one of its core's 16 places (R6): it has scratchpad, or a group that is not parked. A team of size 0 whose
groups are all parked takes none. (DEDUCED, log 120). -/
def takesPlace (s : State) (tm : Team) : Bool :=
  lastSize s tm ≠ 0 ||
    tm.groups.any fun g => match Table.find s.groups g with | some grp => !grp.exited && !grp.parked | none => false

/-- A core has a place for one more team. (DEDUCED, log 120). -/
def hasPlace (s : State) (die core : Nat) : Bool :=
  decide (((coreTeams s die core).filter fun e => takesPlace s e.2).length < 16)

/-- A core has room for a team of a record. -/
def coreFits (s : State) (ws : List Word) (die core : Nat) : Bool :=
  let n := recTeam ws
  hasPlace s die core && !allocWaits s die core &&
    decide (coreHolds s die core + recSq ws + 8192 * n ≤ 2 ^ 20) &&
    (List.range 4).all fun q =>
      let k := (n + 3 - q) / 4
      quadFits s die core q k (recVq ws) && !(decide (0 < k) && vgrowWaits s die core q)

/-- The columns of the rectangle of a task of width `w`, and its rows (R22). -/
def rectangle (w : Nat) : Nat × Nat :=
  let h := (w + 5) / 6
  ((w + h - 1) / h, h)

/-- The core of team `t` in a rectangle of `cols` columns whose first core is (col, row). -/
def rectCore (cluster cols col row t : Nat) : Nat := 24 * cluster + 6 * (row + t / cols) + (col + t % cols)

/-- The first rectangle of a cluster with room for a record's teams: the column and row of its first core. -/
def clusterPlace (s : State) (ws : List Word) (die cluster : Nat) : Option (Nat × Nat) :=
  let w := recWidth ws
  let (cols, rows) := rectangle w
  let firsts := (List.range 4).flatMap fun r => (List.range 6).filterMap fun c =>
    if r + rows ≤ 4 ∧ c + cols ≤ 6 then some (c, r) else none
  firsts.find? fun (c, r) => (List.range w).all fun t => coreFits s ws die (rectCore cluster cols c r t)

/-- The write-set reservation of an unrooted task fits the shadow areas, whose dies all hold the same (R306). -/
def shadowFits (s : State) (ws : List Word) : Bool :=
  decide ((s.tasks.foldl (fun n e =>
    if e.2.placed && e.2.rooted.isNone && e.2.retired.isNone then n + recWq e.2.words else n) 0) + recWq ws ≤ 2 ^ 32)

/-- The clusters in the order they are tried: the preferred one, its die, the other dies. -/
def clusterOrder (s : State) (task : Task) : List (Nat × Nat) :=
  let all := (dies s).flatMap fun d => (List.range 4).map fun c => (d, c)
  let l := match preferred s task with
    | none => all
    | some p => [p] ++ (all.filter fun q => q.1 = p.1 && q ≠ p) ++ all.filter fun q => q.1 ≠ p.1
  match recordDies s task.words with
  | d :: _ => l.filter fun q => q.1 = d
  | [] => l

/-- A task is ready: created or requeued, and not placed. -/
def isReady (task : Task) : Bool := !task.placed && task.retired.isNone

/-- Where a task can be placed now, claims apart: die, cluster, column, row. (DEDUCED, log 60). -/
def fitPlace (s : State) (task : Task) (taken : List (Nat × Nat)) : Option (Nat × Nat × Nat × Nat) :=
  if !shadowFits s task.words then none
  else (clusterOrder s task).findSome? fun (d, c) =>
    if taken.contains (d, c) then none else (clusterPlace s task.words d c).map fun p => (d, c, p.1, p.2)

/-- The context runs: ready tasks of another are not dispatched (R430). -/
def taskRuns (s : State) (task : Task) : Bool :=
  match Table.find s.launches task.launch with
  | some l => (ctxOf s l.ctx).st = 1 && !l.waiting
  | none => false

/-- The clusters that tasks which became ready before task `n` claim (R297). (DEDUCED, log 60). -/
def claims (s : State) (n : Nat) (task : Task) : List (Nat × Nat) :=
  s.tasks.filterMap fun (m, t) =>
    if pairLt (t.ready, m) (task.ready, n) && isReady t && taskRuns s t && (fitPlace s t []).isNone then preferred s t
    else none

/-- Where task `n` can be placed now. -/
def placeFor (s : State) (n : Nat) (task : Task) : Option (Nat × Nat × Nat × Nat) := fitPlace s task (claims s n task)

/-- The state that a group starts with (R88, R296). (DESIGN CHOICE, log 8). -/
def startGroup (task : Task) (n team gidx slot : Nat) : Group :=
  let ws := task.words
  let all : Mask := BitVec.allOnes 96
  { task := n, team, gidx, slot, vcount := recVq ws, size := recSq ws
    u := Sparse.write 0 (Sparse.write 0 [] 16 ((List.range 16).map fun i => recWord ws (34 + i))) 32 task.sheaf
    splits := [(0, { lanes := all, mask := all, pc := (recWord ws 2).toNat, clock := task.start, klane := 0
                     line := [0], base := task.start })] }

/-- The lowest free group slot of a quadrant. -/
def freeSlot (s : State) (die core quad : Nat) : Nat :=
  let used := (quadGroups s die core quad).map fun e => e.2.slot
  ((List.range 16).find? fun i => !used.contains (16 * quad + i)).getD 0 + 16 * quad

/-- Places team `t` of a task on a core, its group g in quadrant g mod 4. (DEDUCED, log 60). -/
def placeTeam (s : State) (n : Nat) (task : Task) (t die core : Nat) : State :=
  let ws := task.words
  let k := recTeam ws
  let id := s.fresh
  let team : Team :=
    { task := n, tidx := t, die, core, groups := (List.range k).map (id + 1 + ·), size := recSq ws
      epochSize := recSq ws }
  let s := { s with fresh := id + 1 + k, teams := Table.put s.teams id team }
  let s := (List.range k).foldl (fun s g =>
    { s with groups := Table.put s.groups (id + 1 + g) (startGroup task n id g (freeSlot s die core (g % 4))) }) s
  updTask s n fun task => { task with teams := task.teams ++ [id] }

/-- Places a task in a cluster. -/
def placeTask (s : State) (n : Nat) (task : Task) (die cluster col row : Nat) : State :=
  let cols := (rectangle (recWidth task.words)).1
  let s := updTask s n fun task => { task with placed := true, teams := [] }
  (List.range (recWidth task.words)).foldl (fun s t =>
    placeTeam s n task t die (rectCore cluster cols col row t)) s

/-- Priority, context and weight of a task, as the record that it was created from gives them (R298).
(DEDUCED, log 122). -/
def dispatchOf (s : State) (task : Task) : Nat × Nat × Nat × Nat :=
  let ctx := match Table.find s.launches task.launch with | some l => l.ctx | none => 0
  let order := match Table.find s.launches task.launch with | some l => l.order | none => 0
  (bits (recWord task.words 4) 1 0, ctx, bits (recWord task.words 4) 15 8, order)

/-- The tasks that can be placed on a die now. -/
def placeable (s : State) (die : Nat) : List (Nat × Task) :=
  s.tasks.filter fun (n, t) => isReady t && taskRuns s t && ((placeFor s n t).map (·.1)) = some die

/-- The task that the engine of a die dispatches next, and the dispatch counts of the round (R298).
(DEDUCED, log 60). -/
def dispatchNext (s : State) (die : Nat) : Option (Nat × Sparse Nat) :=
  let ready := placeable s die
  match leastBy (fun a b => decide (a < b)) (ready.map fun e => (dispatchOf s e.2).1) with
  | none => none
  | some prio =>
    let at' := ready.filter fun e => (dispatchOf s e.2).1 = prio
    let weight (c : Nat) : Nat :=
      (at'.filter fun e => (dispatchOf s e.2).2.1 = c).foldl (fun m e => max m (dispatchOf s e.2).2.2.1) 0
    let ctxs := (at'.map fun e => (dispatchOf s e.2).2.1).eraseDups
    let place (c : Nat) : Nat := 256 * die + 16 * prio + c
    let due := ctxs.filter fun c => decide (Sparse.get 0 s.rounds (place c) < weight c)
    let (due, rounds) :=
      if due.isEmpty then (ctxs, (s.rounds.filter fun e => e.1 / 16 ≠ place 0 / 16)) else (due, s.rounds)
    match leastBy (fun a b => decide (a < b)) due with
    | none => none
    | some c =>
      let key (e : Nat × Task) : Nat × Nat := ((dispatchOf s e.2).2.2.2, taskKey e.2)
      (leastBy (fun a b => pairLt (key a) (key b)) (at'.filter fun e => (dispatchOf s e.2).2.1 = c)).map fun e =>
        (e.1, Sparse.set 0 rounds (place c) (Sparse.get 0 rounds (place c) + 1))

/-- TASK_PLACEMENT: task `a`, the next in its die's order, is placed where there is room for it. -/
def execTaskPlacement (s : State) : Host.Outcome State Fault Refusal :=
  match Table.find s.tasks s.arg.a with
  | none => .next s
  | some task =>
    if !isReady task || !taskRuns s task then .next s
    else
      match placeFor s s.arg.a task with
      | none => .next s
      | some (d, c, col, row) =>
        match dispatchNext s d with
        | some (n, rounds) => if n = s.arg.a then .next (placeTask { s with rounds } n task d c col row) else .next s
        | none => .next s

/-! ### Resumption of a continuation (R343, R345) -/

/-- A resuming group fits a quadrant of a core. -/
def resumeQuad (s : State) (die core v : Nat) : Option Nat :=
  (List.range 4).find? fun q => quadFits s die core q 1 v

/-- Where the group of a continuation resumes: its team's core when it is anchored or another group of the team is
resident, otherwise any core of the cluster that has a place for the team and room for its spill regions (R6, R212). -/
def resumePlace (s : State) (tm : Team) (v : Nat) : Option (Nat × Nat) :=
  let resident := tm.groups.any fun g =>
    match Table.find s.groups g with | some grp => !grp.exited && !grp.parked | none => false
  let cores := if lastSize s tm ≠ 0 || resident then [tm.core]
    else (tm.core :: (List.range 24).map fun i => tm.core / 24 * 24 + i).filter fun c =>
      hasPlace s tm.die c && (c = tm.core || decide (coreHolds s tm.die c + teamHolds s tm ≤ 2 ^ 20))
  cores.findSome? fun c => (resumeQuad s tm.die c v).map fun q => (c, q)

/-- The registers a group resumes with: s16-s63 with the sheaf's words in s32 and s33, the rest 0. -/
def resumeUniform (c : Cont) (w0 w1 : Word) : Sparse Word :=
  Sparse.write 0 (c.u.filter fun e => decide (16 ≤ e.1) && decide (e.1 < 64)) 32 [w0, w1]

/-- The split of a resumed group. -/
def resumeSplit (c : Cont) (release : Nat) (sp : Split) : Split :=
  { sp with
    lanes := c.lanes, mask := c.mask, pc := c.pc, clause := none, last := none, clock := max c.clock release
    fps := c.fps, klane := c.klane, calls := [], spill := 0, recs := [], pend := [], mode := .ready, saved := none
    entry := none }

/-- CONTINUATION_RESUME: the group of continuation `a`, which has fired, resumes. -/
def execContinuationResume (s : State) : Host.Outcome State Fault Refusal :=
  match Table.find s.conts s.arg.a with
  | none => .next s
  | some c =>
    match c.fired, Table.find s.groups c.group with
    | some (w0, w1, release), some grp =>
      let runs := match Table.find s.tasks grp.task with | some k => taskRuns s k | none => false
      match Table.find s.teams grp.team with
      | none => .next s
      | some tm =>
        match if runs then resumePlace s tm c.vcount else none with
        | none => .next s
        | some (core, quad) =>
          let s := updTeam s grp.team fun tm => { tm with core }
          let slot := freeSlot s tm.die core quad
          let s := { s with conts := Table.del s.conts s.arg.a }
          .next (updGroup s c.group fun grp => reseat
            { grp with
              slot, parked := false, mode := c.mode, vcount := c.vcount, vnext := none, u := resumeUniform c w0 w1, v := c.v
              flags := [], spills := [], recs := [], stack := [], kept := []
              splits := grp.splits.map fun (x, sp) => (x, resumeSplit c release sp) })
    | _, _ => .next s

/-! ### TASK (R313) -/

/-- A block that breaks a must-be-zero bit or an alignment: status 1. (DEDUCED, log 56). -/
def taskBlockBad (b : List Word) : Bool :=
  let g (i : Nat) : Word := b.getD i 0
  bits (g 0) 31 3 ≠ 0 || bits (g 2) 31 24 ≠ 0 || (g 1).toNat % 256 ≠ 0 || (!bit (g 0) 1 && g 3 ≠ 0) ||
    (!bit (g 0) 0 && [4, 5, 6, 7, 8, 9].any fun i => g i ≠ 0) || (!bit (g 0) 2 && g 10 ≠ 0) ||
    (g 10).toNat % 4 ≠ 0 || g 11 ≠ 0

/-- A record with the domain, the timestamp and the parameters that the block replaces. (DEDUCED, log 56). -/
def taskRecord (b ws params : List Word) : List Word :=
  let g (i : Nat) : Word := b.getD i 0
  let ws := if bit (g 0) 0 then (List.range 6).foldl (fun ws i => ws.set (6 + i) (g (4 + i))) ws else ws
  let ws := if bit (g 0) 1 then ws.set 5 (g 3) else ws
  if bit (g 0) 2 then (List.range 16).foldl (fun ws i => ws.set (34 + i) (params.getD i 0)) ws else ws

/-- TASK (R313). -/
def execTask (sd sa : SReg) (s : State) : Host.Outcome State Fault Refusal :=
  slot (.task sd sa) (fun s => withWho s fun w =>
    let b := block s sa 12
    let g (i : Nat) : Word := b.getD i 0
    let done (s : State) (v : Nat) : State := uwrite s sd.toNat (word v)
    if taskBlockBad b then .done (done s 1)
    else
      let va := (g 1).toNat + bits (g 2) 23 0 * 2 ^ 32
      let ps := readable s w.launch.ctx w.team.die va 256
      let got := globalRead s w (viewWrites s w) va 256
      match got with
      | .hole pa => .stop (.noSuchPhysicalAddress pa)
      | .none => .trap { cls := 8, cause := 1, d0 := word va, d1 := word (va / 2 ^ 32) }
      | .ok bs =>
        if foreignPage s w.launch.dom (piecePages ps) then .trap (crossTrap va)
        else
          let ploc := (g 10).toNat
          let prm := bit (g 0) 2
          match if prm then locate s w ploc 64 else .at w.team.tidx 0 with
          | .out limit => .trap { cls := 4, cause := 1, d0 := word ploc, d1 := word limit }
          | .at t off =>
            let accs : List Acc := if prm then [⟨t, off, 64, 0⟩] else []
            if !readReady s w then .stall 8
            else if awaitsAtoms s w va 256 then .stall 8
            else if inFlight s w va 256 then .stall 6
            else if heldAccess s w accs then .stall 7
            else
              let params := if prm then bytesWords 16 (spadRead s w t off 64) else []
              let ws := taskRecord b (bytesWords 64 bs) params
              let s := mergeRead s w va 256
              let s := tagPages (signReads s w [(va, 256)]) w.launch.dom (piecePages ps)
              let code := checkRecord s ws (some (recQ w.launch.words))
              let s := if code = 0 then emit s w (some w.sp.clock) 0 (.spawn ws) else s
              .ok { s := done s code, accs }) s

/-! ### ALLOC and FREE (R315) -/

/-- The size change counts as a write of stripe item 0xFFFE. -/
def sizeAcc (w : Who) : Acc := ⟨w.team.tidx, 0xFFFE * 256, 256, 1⟩

/-- The status word of a size. -/
def sizeStatus (size code : Nat) : Word := word (size / 4096 * 4096 + code)

/-- ALLOC and FREE write their status without a change. -/
def sizeDone (s : State) (w : Who) (sd : SReg) (code : Nat) : Res :=
  .ok { s := uwrite s sd.toNat (sizeStatus w.grp.size code), items := [⟨4, 33, false⟩] }

/-- The size becomes `n`: the issuing group sees it at once. -/
def setSize (s : State) (w : Who) (sd : SReg) (n : Nat) (accs : List Acc) : Res :=
  let s := updGroup s w.g fun grp => { grp with size := n }
  let s := updTeam s w.grp.team fun tm =>
    let tm := (tm.mem.filter fun e => decide (n ≤ e.1)).foldl (fun tm e => tm.store (b0Span w.sp).2 w.grp.gidx e.1 [0]) tm
    { tm with
      mx := if n = 0 then {} else tm.mx }
  let s := { s with conts := s.conts.map fun (i, (c : Cont)) =>
    if w.team.groups.contains c.group then (i, { c with anch := n ≠ 0 }) else (i, c) }
  .ok { s := uwrite s sd.toNat (sizeStatus n 0), accs := sizeAcc w :: accs, items := [⟨4, 33, true⟩] }

/-- A size that neither instruction takes. -/
def sizeBad (n : Nat) : Bool := n % 4096 ≠ 0 || decide (0x100000 < n)

/-- ALLOC (R315). -/
def execAlloc (sd sa : SReg) (s : State) : Host.Outcome State Fault Refusal :=
  slot (.alloc sd sa) (fun s => withWho s fun w =>
    let n := (uread s sa.toNat).toNat
    if sizeBad n then sizeDone s w sd 1
    else if recSq w.task.words < n then .exhaust 2
    else if n ≤ w.grp.size then sizeDone s w sd 0
    else
      if lastSize s w.team = 0 && decide (2 ^ 20 < coreHolds s w.team.die w.team.core + recSq w.task.words) then .claim
      else setSize s w sd n []) s

/-- A command in flight holds a local range of the team between `lo` and `hi`, or, when nothing is left, is a matrix
command. -/
def freeHeld (s : State) (w : Who) (lo hi : Nat) : Bool :=
  s.cmds.any fun (_, c) =>
    c.team = w.grp.team && !c.finished &&
      ((lo = 0 && (match c.body with | .matrix .. => true | _ => false)) ||
        (c.reads ++ c.writes).any fun r => overlap lo (hi - lo) r.1 r.2)

/-- FREE (R315). -/
def execFree (sd sa : SReg) (s : State) : Host.Outcome State Fault Refusal :=
  slot (.free sd sa) (fun s => withWho s fun w =>
    let n := (uread s sa.toNat).toNat
    if sizeBad n then sizeDone s w sd 1
    else if w.grp.size < n then sizeDone s w sd 2
    else if n = w.grp.size then sizeDone s w sd 0
    else if freeHeld s w n w.grp.size then .stall 7
    else setSize s w sd n [⟨w.team.tidx, n, w.grp.size - n, 1⟩]) s

/-! ### VGROW and VSHRK (R316) -/

/-- Sets the count that governs the clauses to come. A smaller one has the end of the clause discard the registers from it
on, so that those a larger one regains read 0. (DEDUCED, log 57). -/
def setVcount (s : State) (w : Who) (sd : SReg) (n : Nat) : Res :=
  let keep := (w.grp.vnext.map (·.2)).getD 128
  let s := updGroup s w.g fun grp => { grp with vnext := some (n, if n < w.grp.count then min n keep else keep) }
  .ok { s := uwrite s sd.toNat 0, items := [⟨4, 34, true⟩] }

/-- The common checks of both. -/
def vcountCheck (s : State) (w : Who) (sd : SReg) (n : Nat) (f : Res) : Res :=
  if 2 ≤ w.grp.splits.length then .trap { cls := 1, cause := 5 }
  else if n % 8 ≠ 0 || decide (n < 8) || decide (128 < n) then .done (uwrite s sd.toNat 1)
  else f

/-- VGROW (R316). -/
def execVgrow (sd sa : SReg) (s : State) : Host.Outcome State Fault Refusal :=
  slot (.vgrow sd sa) (fun s => withWho s fun w =>
    let n := (uread s sa.toNat).toNat
    vcountCheck s w sd n (
      if recVq w.task.words < n then .exhaust 1
      else if n < w.grp.count then .done (uwrite s sd.toNat 2)
      else
        let quad := quadGroups s w.team.die w.team.core (w.grp.slot / 16)
        let others := (quad.filter fun e => e.1 ≠ w.g).foldl (fun t e => t + e.2.budget) 0
        if 512 < others + n then .claim else setVcount s w sd n)) s

/-- VSHRK (R316). -/
def execVshrk (sd sa : SReg) (s : State) : Host.Outcome State Fault Refusal :=
  slot (.vshrk sd sa) (fun s => withWho s fun w =>
    let n := (uread s sa.toNat).toNat
    vcountCheck s w sd n (
      if w.grp.count < n then .done (uwrite s sd.toNat 2)
      else
        match hazardIn w.sp.pend 1 ((List.range (128 - n)).map (n + ·)) with
        | some t => .trap t
        | none => setVcount s w sd n)) s

/-! ### ROOT and SPLIT -/

/-- ROOT (R317): closes the quantum, which roots the task. -/
def execRoot (s : State) : Host.Outcome State Fault Refusal :=
  slot .root (fun s => .ok { s, flow := .close }) s

/-- SPLIT (R318). -/
def execSplit (s : State) : Host.Outcome State Fault Refusal :=
  slot .split (fun s => withWho s fun w =>
    if w.task.rooted.isSome then .exhaust 5
    else if (cannotSplit w.task).isNone then .turn .split
    else if itsTurn s w then .done s
    else .turn .turn) s

end Sys2Proof.Machine
end

