-- ==== Sys2Proof/Machine/Home.lean ====
section
/-!
DEFINITION. Global atomics (12_home_fabric R383-R389): the block, the checks at issue, the forms with return, ordered
and reduction, and the application of one at a commit.
-/

namespace Sys2Proof.Machine

/-! ### The block and its checks (R384, R388) -/

/-- The fields of word 0 of an atomic block. -/
structure AtomBlock where
  vop : Nat
  uni : Bool
  vaux : Nat
  vret : Nat
  voff : Nat
  base : Nat
  bad : Bool
  deriving DecidableEq, Repr

/-- A block as laid out. `bad` holds where a must-be-zero bit is set. -/
def atomBlock (b : List Word) : AtomBlock :=
  let w := b.getD 0 0
  let hi := b.getD 2 0
  { vop := bits w 6 0, uni := bit w 7, vaux := bits w 14 8, vret := bits w 22 16, voff := bits w 30 24
    base := (b.getD 1 0).toNat + bits hi 23 0 * 2 ^ 32
    bad := bit w 15 || bit w 23 || bit w 31 || bits hi 31 24 ≠ 0 }

/-- The operation takes a second operand: CAS and FMAXI32. -/
def takesAux (op : Nat) : Bool := op = 9 || op % 16 = 12

/-- The vector registers that a block names for its operation: operands, and results of the form with return. -/
def atomReads (op : Nat) (k : AtomBlock) : List Nat :=
  [k.vop] ++ (if takesAux op then [k.vaux] else []) ++ (if k.uni then [] else [k.voff])
def atomWrites (op : Nat) (k : AtomBlock) (ret : Bool) : List Nat :=
  if !ret then [] else if op % 16 = 12 then [k.vret, k.vret + 1] else [k.vret]

/-- Row 1 of R388. -/
def atomForm (op : Nat) (k : AtomBlock) (ret : Bool) : Bool :=
  k.bad || (k.uni && k.voff ≠ 0) || (!takesAux op && k.vaux ≠ 0) || (!ret && k.vret ≠ 0)

/-- A GLOBAL trap at the lowest of some lanes. -/
def laneTrap (cause : Nat) (named : Bool) (bad : List (Nat × Nat)) : Trap :=
  let va := (bad.headD (0, 0)).2
  { cls := 8, cause, d0 := word va, d1 := word (va / 2 ^ 32 % 2 ^ 24)
    lanes := if named then some (maskFrom fun l => bad.any fun b => b.1 = l) else none }

/-- One lane of a checked atomic: lane, virtual address, physical address, key. -/
abbrev AtomLane := Nat × Nat × Nat × Nat

/-- The checks at issue after the block's own, in order, and the lanes' translated addresses. The error is a trap or an
address where there is no memory. -/
def atomLanes (s : State) (w : Who) (n : Nat) (vas : List (Nat × Nat)) : Except (Trap ⊕ Nat) (List AtomLane) :=
  let far := vas.filter fun e => decide (2 ^ 56 < e.2 + n)
  let odd := vas.filter fun e => e.2 % n ≠ 0
  let tr := vas.map fun e => (e, translate s w.launch.ctx w.team.die false true (e.2, n))
  let invalid := (tr.filter fun e => match e.2 with | .invalid _ => true | _ => false).map (·.1)
  let denied := (tr.filter fun e => match e.2 with | .denied _ => true | _ => false).map (·.1)
  let hole := tr.findSome? fun e => match e.2 with | .hole pa => some pa | _ => none
  if !far.isEmpty then .error (.inl (laneTrap 7 true far))
  else if !odd.isEmpty then .error (.inl (laneTrap 4 true odd))
  else if !invalid.isEmpty then .error (.inl (laneTrap 5 false invalid))
  else if !denied.isEmpty then .error (.inl (laneTrap 6 false denied))
  else
    match hole with
    | some pa => .error (.inr pa)
    | none =>
      let ls := tr.filterMap fun e => match e.2 with | .ok pa key _ => some (e.1.1, e.1.2, pa, key) | _ => none
      match ls.find? fun l => foreignPage s w.launch.dom [l.2.2.1 / 4096] with
      | some l => .error (.inl (crossTrap l.2.1))
      | none => .ok ls

/-! ### Issue (R387) -/

/-- The lanes as an effect holds them: lane, physical address, key, operand, second operand, virtual address. -/
def atomOperands (w : Who) (op : Nat) (k : AtomBlock) (ls : List AtomLane) : List (Nat × Nat × Nat × Word × Word × Nat) :=
  ls.map fun l =>
    (l.1, l.2.2.1, l.2.2.2, laneRead w.grp k.vop l.1, if takesAux op then laneRead w.grp k.vaux l.1 else 0, l.2.1)

/-- What comparators and the sharing rules see of an atomic. -/
def atomOut (s : State) (w : Who) (op : Nat) (k : AtomBlock) (ret : Bool) (ls : List AtomLane) : Out :=
  let lanes := ls.map (·.1)
  { s
    looks := ls.map fun l => ⟨true, l.2.1, atomBytes op, true, true, l.1⟩
    items := ((atomReads op k).flatMap fun v => laneItems v lanes false) ++
      (atomWrites op k ret).flatMap fun v => laneItems v (lanesOf (writing s w)) true }

/-- The form with return: a command that its commit completes (R387). -/
def atomReturn (s : State) (w : Who) (op : Nat) (k : AtomBlock) (sd : SReg) (ls : List AtomLane) : Res :=
  let c : Cmd :=
    { group := w.g, split := w.x, team := w.grp.team, task := w.grp.task
      flag := (w.sp.clause.map Clause.flag).getD 15, sd := sd.toNat, into := [w.x], key := agentKey w
      clock := w.sp.clock, prog := s.prog, time := some w.sp.clock, body := .waits }
  let (id, s') := newCmd s c
  let s' := emit s' w (some w.sp.clock) id (.atom op (atomOperands w op k ls) (some (k.vret, sd.toNat)))
  .ok { atomOut s w op k true ls with
    s := s', flow := .close
    pends := some ((0, sd.toNat) :: (atomWrites op k true).map fun v => (1, v)) }

/-- The forms without return: at most 64 for each agent of a rooted task and quantum, counted from the quantum in which the
task roots (R39). -/
def atomOrder (s : State) (w : Who) (op : Nat) (k : AtomBlock) (ls : List AtomLane) : Res :=
  let q := quantum w
  let n := if w.sp.ordQ = q then w.sp.ordN else 0
  if w.task.rooted.isSome && decide (64 ≤ n) then .closeFirst
  else
    countWrites s w (atomBytes op * ls.length) fun s =>
      let s := emit s w (some w.sp.clock) 0 (.atom op (atomOperands w op k ls) none)
      let s := updSplit s w.g w.x fun sp => { sp with ordQ := q, ordN := n + 1 }
      .ok (atomOut s w op k false ls)

/-- The issue of an atomic; `sd` is the destination of the form with return. -/
def atomSlot (i : Instr) (op : Nat) (sa : SReg) (sd : Option SReg) (s : State) : Host.Outcome State Fault Refusal :=
  slot i (fun s => withWho s fun w =>
    let k := atomBlock (block s sa 3)
    let ret := sd.isSome
    let regs := atomReads op k ++ atomWrites op k ret
    if atomForm op k ret || regs.any fun v => decide (w.grp.vcount ≤ v) then .trap { cls := 8, cause := 3 }
    else
      match hazardIn w.sp.pend 1 regs with
      | some t => .trap t
      | none =>
        let vas := (lanesOf (writing s w)).map fun l =>
          (l, if k.uni then k.base else k.base + (laneRead w.grp k.voff l).toNat)
        match atomLanes s w (atomBytes op) vas with
        | .error (.inl t) => .trap t
        | .error (.inr pa) => .stop (.noSuchPhysicalAddress pa)
        | .ok ls =>
          let s := tagPages s w.launch.dom ((ls.map fun l => l.2.2.1 / 4096).eraseDups)
          match sd with
          | some d => atomReturn s w op k d ls
          | none => atomOrder s w op k ls) s

/-- GATOM with return (R383). -/
def execGatom (op : AtomOp) (sd sa : SReg) (s : State) : Host.Outcome State Fault Refusal :=
  atomSlot (.gatom op sd sa) op.ctorIdx sa (some sd) s

/-- GATOM to s0, an ordered atomic (R39, R383). -/
def execGatomOrdered (op : AtomOp) (sa : SReg) (s : State) : Host.Outcome State Fault Refusal :=
  atomSlot (.gatomOrdered op sa) op.ctorIdx sa none s

/-- GRED (R383). -/
def execGred (op : RedAtomOp) (sa : SReg) (s : State) : Host.Outcome State Fault Refusal :=
  atomSlot (.gred op sa) (16 + op.ctorIdx) sa none s

/-! ### Application at a commit (R380, R387) -/

/-- The machine fault of an atomic that meets an uncorrectable line (R421). -/
def lineTrap (line : Nat) : Trap :=
  { cls := 15, cause := 3, d0 := word (256 * line), d1 := word (256 * line / 2 ^ 32) }

/-- One lane applied to package memory, with the old word or pair. -/
def applyLane (s : State) (op pa key : Nat) (v x : Word) : State × List Byte :=
  let n := atomBytes op
  let old := physRead s key pa n
  let acc := (s.accs.find? fun a => a.1 = pa).map (·.2)
  let r := atomStep op old acc v x
  let s := storeGlobal s key pa r.1
  (match r.2 with | some e => { s with accs := s.accs ++ [(pa, e)] } | none => s, old)

/-- Delivers the old values and the lane count of a form with return, and ends its command. -/
def returnAtom (s : State) (e : Effect) (op vret sd : Nat) (olds : List (Nat × List Byte)) : State :=
  match Table.find s.cmds e.cmd with
  | none => s
  | some c =>
    let get (off : Nat) (l : Nat) : Word :=
      match Table.find olds l with | some bs => bytesWord ((bs.drop off).take 4) | none => 0
    let words (off : Nat) : List (Nat × Word) := olds.map fun o => (o.1, get off o.1)
    let vs := if atomBytes op = 8 then laneOuts vret (words 4) ++ laneOuts (vret + 1) (words 0) else laneOuts vret (words 0)
    finishCmd s e.cmd c (uniformOuts sd [word olds.length] ++ vs)

/-- Applies an atomic in ascending lane order. A lane whose line holds an uncorrectable error changes nothing and stops
the issuing team. -/
def applyAtom (s : State) (e : Effect) (op : Nat) (ls : List (Nat × Nat × Nat × Word × Word × Nat)) (ret : Option (Nat × Nat)) :
    State :=
  let (s, olds, bad) := ls.foldl (fun (r : State × List (Nat × List Byte) × Option Nat) (l, pa, key, v, x, _) =>
    match badLine r.1 pa (atomBytes op) with
    | some line => (r.1, r.2.1, some line)
    | none =>
      let (s, old) := applyLane r.1 op pa key v x
      (s, r.2.1 ++ [(l, old)], r.2.2)) (s, [], none)
  let s := match ret with
    | some (vret, sd) => returnAtom s e op vret sd olds
    | none => s
  match bad with
  | some line => takeTrap s e.group e.split (lineTrap line)
  | none => s

end Sys2Proof.Machine
end

