-- ==== Sys2Proof/Machine/Join.lean ====
section
/-!
DEFINITION. The join engine's instructions (10_join_engine R326-R333): `SEND`, `RECV`, `YIELD` and the three
configuration instructions. Delivery and firing are in `Machine/Ports`.
-/

namespace Sys2Proof.Machine

/-- A PORT trap for a port number. (DEDUCED, log 59). -/
def portTrap (cause : Nat) (pw : Word) : Trap := { cls := 9, cause, d0 := pw }

/-- The port that a block names, as the issuer's view has it open: causes 3 and 4 (R341). -/
def openPort (s : State) (w : Who) (pw : Word) (f : Port → Res) : Res :=
  if bits pw 31 16 ≠ 0 then .trap (portTrap 3 pw)
  else if !readReady s w then .stall 8
  else match portOpen s w pw.toNat with
    | none => .trap (portTrap 4 pw)
    | some p => f p

/-- The port's owner declares another quantum length (R53). -/
def ownerClash (s : State) (w : Who) (p : Port) : Bool :=
  (otherOwner s w.task.launch w.launch.ctx p).any fun o => recQ o.words ≠ recQ w.launch.words

/-! ### SEND and RECV -/

/-- SEND (R327): one message at step 4 of the commit of its quantum. -/
def execSend (sd sa : SReg) (s : State) : Host.Outcome State Fault Refusal :=
  slot (.send sd sa) (fun s => withWho s fun w =>
    let b := block s sa 3
    let pw := b.getD 0 0
    openPort s w pw fun _ =>
      if portClash s w pw.toNat then .trap (portTrap 6 pw)
      else
        let s := joinPort s w pw.toNat
        .ok { s := emit s w (some w.sp.clock) 0 (.message pw.toNat (b.getD 1 0) (b.getD 2 0) (some sd.toNat))
              flow := .close }) s

/-- RECV (R328). -/
def execRecv (sd sa : SReg) (s : State) : Host.Outcome State Fault Refusal :=
  slot (.recv sd sa) (fun s => withWho s fun w =>
    let pw := uread s sa.toNat
    openPort s w pw fun p =>
      match p.kind with
      | 2 => .done (uwrites s sd.toNat [2, p.count, 0, 0, 0, 0, 0])
      | 1 =>
        if p.reader ≠ some (w.grp.task, groupIndex w.team w.grp) then .trap (portTrap 5 pw)
        else
          let item : List Item := [⟨4, 1000 + pw.toNat, true⟩]
          match p.fifo with
          | [] => .ok { s := uwrites s sd.toNat [1, 0, 0, 0, 0, 0, 0], items := item }
          | m :: rest =>
            let ws := takeWords m
            let s := emit s w (some w.sp.clock) 0 (.config 3 (pw :: ws))
            .ok { s := uwrites s sd.toNat (word (rest.length * 2 ^ 8) :: ws), items := item }
      | _ => .trap (portTrap 5 pw)) s

/-! ### Configuration -/

/-- A configuration instruction: its status from the view, and, when that is 0, its change at the commit (R332). -/
def configSlot (i : Instr) (kind words : Nat) (sd sa : SReg) (s : State) : Host.Outcome State Fault Refusal :=
  slot i (fun s => withWho s fun w =>
    let ws := block s sa words
    if !readReady s w then .stall 8
    else
      let st := cfgStatus (portView s w) w.launch.ctx kind ws
      let s := if st = 0 then emit s w (some w.sp.clock) 0 (.config kind ws) else s
      .done (uwrite s sd.toNat (word st))) s

/-- PORTCFG (R329). -/
def execPortcfg (sd sa : SReg) (s : State) : Host.Outcome State Fault Refusal := configSlot (.portcfg sd sa) 0 3 sd sa s

/-- PATCFG (R330). -/
def execPatcfg (sd sa : SReg) (s : State) : Host.Outcome State Fault Refusal := configSlot (.patcfg sd sa) 1 8 sd sa s

/-- PATSET (R331). -/
def execPatset (sd sa : SReg) (s : State) : Host.Outcome State Fault Refusal := configSlot (.patset sd sa) 2 6 sd sa s

/-! ### YIELD (R333) -/

/-- The live mask of a `YIELD` block. -/
def liveMask (b : List Word) : BitVec 128 := b.getD 5 0 ++ b.getD 4 0 ++ b.getD 3 0 ++ b.getD 2 0

/-- The vector registers of a live mask. -/
def liveRegs (m : BitVec 128) : List Nat := (List.range 128).filter fun i => m.getLsbD i

/-- A block that PORT cause 3 refuses. -/
def yieldBad (w : Who) (b : List Word) : Bool :=
  let regs := liveRegs (liveMask b)
  bits (b.getD 0 0) 31 16 ≠ 0 || (b.getD 1 0).toNat % 4 ≠ 0 || bits (b.getD 6 0) 31 4 ≠ 0 ||
    decide (16 < regs.length) || regs.any fun v => decide (w.grp.vcount ≤ v)

/-- The continuation of a `YIELD`: its record is completed when it registers. -/
def yieldCont (s : State) (w : Who) (b : List Word) : Cont :=
  let q := quantum w
  { group := w.g, port := bits (b.getD 0 0) 15 0, prio := bits (b.getD 6 0) 3 0, live := liveMask b
    pc := (b.getD 1 0).toNat, mode := w.grp.mode, mask := w.sp.mask, lanes := w.sp.lanes, fps := 0
    vcount := w.grp.count, klane := w.sp.klane, clock := (q + 1) * recQ w.launch.words
    anch := lastSize s w.team ≠ 0, u := [], v := [] }

/-- The context of a group and the die of its team. -/
def groupCtx (s : State) (g : Nat) : Option (Nat × Nat) := do
  let grp ← Table.find s.groups g
  let task ← Table.find s.tasks grp.task
  let launch ← Table.find s.launches task.launch
  let team ← Table.find s.teams grp.team
  pure (launch.ctx, team.die)

/-- The bytes of a continuation record with a live mask (R342). -/
def contBytes (live : BitVec 128) : Nat := 288 + 384 * (liveRegs live).length

/-- The bytes of the continuation records and of the replay records of a context on a die (R342, R52). -/
def contUse (s : State) (n die : Nat) : Nat :=
  ((s.conts.filter fun e => groupCtx s e.2.group = some (n, die)).map fun e => contBytes e.2.live).sum +
    16 * ((ctxOf s n).replay.filter fun r => bits (r.getD 1 0) 15 14 = die).length

/-- The bytes of a context's region on a die, whose size CAREA.hi gives in MiB (R428). -/
def regionBytes (s : State) (n die : Nat) : Nat := Sparse.get 0 (ctxOf s n).carea die / 2 ^ 48 % 2 ^ 16 * 2 ^ 20

/-- The record of one more continuation fits the region that holds the context's records. No rule gives the shares of the
areas in it. (DESIGN CHOICE, log 100). -/
def areaFits (s : State) (n die : Nat) (live : BitVec 128) : Bool :=
  decide (contUse s n die + contBytes live ≤ regionBytes s n die)

/-- How many more replay records fit the region of a die. (DESIGN CHOICE, log 100). -/
def replayRoom (s : State) (n die : Nat) : Nat := (regionBytes s n die - contUse s n die) / 16

/-- The group leaves the issue choice: its commands take their time here (R40). -/
def park (w : Who) (id : Nat) (c : Cont) (s : State) : State :=
  let s := fixTimes s w fun _ => true
  let s := { s with conts := Table.put s.conts id c }
  let s := if (ctxOf s w.launch.ctx).full.contains w.team.die then
      updCtx s w.launch.ctx fun k => { k with full := k.full.filter (· ≠ w.team.die) } else s
  let s := updSplit s w.g w.x fun sp => { sp with mode := .parked }
  updGroup s w.g fun grp => { grp with parked := true }

/-- YIELD (R333). A continuation on a port of another live launch joins that launch's domain. -/
def execYield (sa : SReg) (s : State) : Host.Outcome State Fault Refusal :=
  slot (.yield sa) (fun s => withWho s fun w =>
    let b := block s sa 7
    let pw := b.getD 0 0
    if 2 ≤ w.grp.splits.length then .trap { cls := 1, cause := 6 }
    else if w.sp.calls ≠ [] then .trap { cls := 4, cause := 10, d0 := word w.sp.calls.length, d1 := 32 }
    else if w.sp.spill ≠ 0 then .trap { cls := 4, cause := 9, d0 := word w.sp.spill, d1 := 16 }
    else if yieldBad w b then .trap (portTrap 3 pw)
    else
      openPort s w pw fun p =>
        if p.kind ≠ 0 then .trap (portTrap 5 pw)
        else if ownerClash s w p then .trap (portTrap 6 pw)
        else if !areaFits s w.launch.ctx w.team.die (liveMask b) then .full
        else
          let s := joinLaunches s w (otherOwner s w.task.launch w.launch.ctx p).toList
          let id := s.fresh
          let s := emit { s with fresh := id + 1 } w (some w.sp.clock) 0 (.yield id)
          .ok { s, flow := .close, post := park w id (yieldCont s w b) }) s

/-- The record of a continuation as it registers at step 4 (R342): the group's registers and flags once every operation
of the group has completed; `rank` is its place in the registration order. -/
def registerCont (s : State) (id rank : Nat) : State :=
  match Table.find s.conts id with
  | none => s
  | some c =>
    match Table.find s.groups c.group with
    | none => s
    | some grp =>
      let fps := match grp.splits with | (_, sp) :: _ => sp.fps | [] => 0
      let c := { c with
        rank := some rank, fps
        u := grp.u.filter fun e => decide (16 ≤ e.1) && decide (e.1 < 64)
        v := grp.takeCount.v.filter fun e => c.live.getLsbD e.1 }
      updGroup { s with conts := Table.put s.conts id c } c.group fun grp => { grp with u := [], v := c.v, flags := [] }

/-- The first 96 bytes of a continuation record as a number (R342). -/
def Cont.header (c : Cont) (gidx key : Nat) : Nat :=
  c.pc % 2 ^ 32 + c.mode.toNat * 2 ^ 32 + c.mask.toNat * 2 ^ 64 + c.lanes.toNat * 2 ^ 160 + c.fps.toNat % 2 ^ 6 * 2 ^ 256 +
    c.vcount % 2 ^ 8 * 2 ^ 264 + c.port % 2 ^ 16 * 2 ^ 288 + c.prio % 2 ^ 4 * 2 ^ 304 + c.live.toNat * 2 ^ 320 +
    gidx % 2 ^ 16 * 2 ^ 448 + c.klane % 2 ^ 16 * 2 ^ 464 + key % 2 ^ 96 * 2 ^ 480 + c.clock % 2 ^ 64 * 2 ^ 576 +
    if c.anch then 2 ^ 640 else 0

/-- A continuation record as it lies in the context's area (R342): the header, s16-s63, and the live vector registers with
their lanes. -/
def contRecord (s : State) (c : Cont) : List Byte :=
  let grp := Table.find s.groups c.group
  let gidx := (grp.bind fun g => (Table.find s.teams g.team).map fun tm => groupIndex tm g).getD 0
  let key := (grp.bind fun g => (Table.find s.tasks g.task).map taskKey).getD 0
  leBytes 96 (c.header gidx key) ++ (List.range 48).flatMap (fun i => wordBytes (Sparse.get 0 c.u (16 + i))) ++
    (liveRegs c.live).flatMap fun v => (List.range 96).flatMap fun l => wordBytes ((Sparse.get [] c.v v).getD l 0)

end Sys2Proof.Machine
end

