-- ==== Sys2Proof/Machine/Phaser.lean ====
section
/-!
DEFINITION. Phasers (11_panicle_network R351-R377): parties, changes, signals, boundaries, step 5 of commit, and the
eight phaser instructions.
-/

namespace Sys2Proof.Machine

/-! ### Phases and parties (R357, R358) -/

/-- Phase `a` is at or after phase `b`. -/
def phaseAtOrAfter (a b : Nat) : Bool := decide ((a + 2 ^ 32 - b) % 2 ^ 32 < 2 ^ 31)

/-- Phase `a` is before phase `b`. -/
def phaseBefore (a b : Nat) : Bool := !phaseAtOrAfter a b

/-- The phase after. -/
def phaseNext (p : Nat) : Nat := (p + 1) % 2 ^ 32

/-- A role signals, waits. -/
def roleSignals (r : Nat) : Bool := r % 2 = 1
def roleWaits (r : Nat) : Bool := r / 2 % 2 = 1

/-- The party of a kind and owner. -/
def findParty (p : Phaser) (kind id : Nat) : Option Party := p.parties.find? fun q => q.kind = kind && q.id = id

/-- A phaser is idle when no signaller is in force. (DEDUCED, log 76). -/
def phaserIdle (p : Phaser) : Bool := !(p.parties.any fun q => roleSignals q.role)

/-- Changes a party. -/
def updParty (p : Phaser) (kind id : Nat) (f : Party → Party) : Phaser :=
  { p with parties := p.parties.map fun q => if q.kind = kind && q.id = id then f q else q }

/-- Removes a party. -/
def delParty (p : Phaser) (kind id : Nat) : Phaser :=
  { p with parties := p.parties.filter fun q => !(q.kind = kind && q.id = id) }

/-- A role and rank that take effect as phase `p` opens (R358). (DEDUCED, log 74). -/
def takeRole (p role rank : Nat) (q : Party) : Party :=
  { q with
    sphase := if roleSignals role && !roleSignals q.role then p else q.sphase
    wphase := if roleWaits role && !roleWaits q.role then p else q.wphase
    role, rank, next := none, nrank := 0 }

/-- A registration, at the leaf of a die, or a role change; `idle` is judged as step 5 began. The second part is the
status; the rank plays no part on an ALL phaser (R366). (DEDUCED, log 74). -/
def applyReg (p : Phaser) (idle : Bool) (die kind id role rank : Nat) : Phaser × Nat :=
  match findParty p kind id with
  | none =>
    let n := phaseNext p.phase
    let q : Party := if idle then { kind, id, rank, role, sphase := p.phase, wphase := p.phase, die }
      else { kind, id, rank, role := 0, next := some role, nrank := rank, sphase := n, wphase := n, die }
    ({ p with parties := p.parties ++ [q] }, 0)
  | some q =>
    if q.role = role && (q.rank = rank || !p.any) && q.next.isNone && !q.leaving then (p, 1)
    else if idle then (updParty p kind id (takeRole p.phase role rank), 0)
    else (updParty p kind id fun q => { q with next := some role, nrank := rank, leaving := false }, 0)

/-- A drop (R358, R367): none where the party is not registered. -/
def applyDrop (p : Phaser) (idle : Bool) (kind id : Nat) : Phaser × Option Nat :=
  match findParty p kind id with
  | none => (p, none)
  | some q =>
    if q.leaving then (p, some 1)
    else if idle || q.role = 0 then (delParty p kind id, some 0)
    else
      let arrives := roleSignals q.role && q.sphase = p.phase
      (updParty p kind id fun q =>
        { q with
          next := none, leaving := true, arrived := q.arrived || arrives
          sphase := if arrives then phaseNext p.phase else q.sphase }, some 0)

/-- The status of a drop of a party together with the copy party: 0 where a drop is made, 1 where one was leaving (R367).
(DESIGN CHOICE, log 75). -/
def dropsStatus (a b : Option Nat) : Option Nat := if a = some 0 ∨ b = some 0 then some 0 else a.orElse fun _ => b

/-- A signal of a party that is in force (R368, R369): the candidate is a time and a payload. The second part is the
status. -/
def applySignal (p : Phaser) (kind id : Nat) (cand : Option (Nat × Word)) : Phaser × Nat :=
  match findParty p kind id with
  | none => (p, 3)
  | some q =>
    if !roleSignals q.role then (p, 3)
    else if q.sphase = p.phase then
      let p := updParty p kind id fun q => { q with sphase := phaseNext q.sphase, arrived := true }
      (match cand with | some (t, pay) => { p with cand := p.cand ++ [(t, q.rank, pay)] } | none => p, 0)
    else if q.sphase = phaseNext p.phase then
      let p := updParty p kind id fun q => { q with sphase := phaseNext q.sphase, ahead := true }
      (match cand with | some (t, pay) => { p with candNext := p.candNext ++ [(t, q.rank, pay)] } | none => p, 0)
    else (p, 2)

/-- The order of candidates (R374). -/
def candLt (a b : Nat × Nat × Word) : Bool :=
  decide (a.1 < b.1) || (a.1 = b.1 && (decide (a.2.1 < b.2.1) || (a.2.1 = b.2.1 && decide (a.2.2.toNat < b.2.2.toNat))))

/-- A phase boundary (R360). -/
def boundary (p : Phaser) : Phaser :=
  let best := leastBy candLt p.cand
  let n := phaseNext p.phase
  let parties := (p.parties.filter fun q => !q.leaving).map fun q =>
    let q := match q.next with | some r => takeRole n r q.nrank q | none => q
    { q with
      arrived := q.ahead, ahead := false
      sphase := if roleSignals q.role && phaseBefore q.sphase n then n else q.sphase }
  { p with
    phase := n, parties, cand := p.candNext, candNext := []
    result := some (p.phase, (best.map (·.2.2)).getD 0, (best.map (·.2.1)).getD 0) }

/-- The open phase of an ALL phaser is complete: there are signallers, and all have arrived. -/
def allArrived (p : Phaser) : Bool :=
  !p.any && !phaserIdle p && p.parties.all fun q => !roleSignals q.role || q.arrived

/-- Makes the boundaries of an ALL phaser whose open phase is complete. A party can be one phase ahead. -/
def settlePhaser : Nat → Phaser → Phaser
  | 0, p => p
  | fuel + 1, p => if allArrived p then settlePhaser fuel (boundary p) else p

/-- Makes the boundaries of an ANY phaser that holds candidates (R375). -/
def settleAny : Nat → Phaser → Phaser
  | 0, p => p
  | fuel + 1, p => if p.any && !p.cand.isEmpty then settleAny fuel (boundary p) else p

/-! ### Changes of the state -/

/-- Changes the phaser of an id, if it names one. -/
def updPhaser (s : State) (id : Nat) (f : Phaser → Phaser) : State :=
  if (phaserOf s id).isSome then { s with phasers := Table.upd s.phasers id f } else s

/-- Writes the status of a phaser instruction after its commit. (DESIGN CHOICE, log 75). -/
def phaserStatus (s : State) (e : Effect) (sd : Option Nat) (v : Word) : State :=
  match sd with
  | some n => if (whoOf s e.group e.split).isSome then groupWrite s e.group e.split n v else s
  | none => s

/-! ### Step 5 (R372) -/

/-- Phasers that are idle as step 5 begins. (DEDUCED, log 76). -/
def idlePhasers (s : State) : List Nat := s.phasers.filterMap fun (n, p) => if phaserIdle p then some n else none

/-- One `PHREG` or `PHDROP` of the quantum. -/
def stepChange (idle : List Nat) (s : State) (e : Effect) : State :=
  match e.body with
  | .phreg ph kind party role rank sd =>
    match phaserOf s ph with
    | none => phaserStatus s e sd 0
    | some p =>
      let idle := idle.contains ph
      let die := ((Table.find s.teams e.team).map (·.die)).getD 0
      let (p', st) := applyReg p idle die kind party (role % 4) rank
      -- the copy party that CFG bit 4 also registers, unless it is registered already, is a change made (R366)
      let (p', st) := if role / 16 % 2 = 1 && (findParty p' 1 e.team).isNone then
          ((applyReg p' idle die 1 e.team 1 0).1, 0) else (p', st)
      phaserStatus (updPhaser s ph fun _ => p') e sd (word st)
  | .phdrop ph kind party sd =>
    let drop (s : State) (n : Nat) : State × Word :=
      match Table.find s.phasers n with
      | none => (s, 0)
      | some p =>
        let idle := idle.contains n
        let (p', st) := applyDrop p idle (kind % 4) party
        let (p', st) := if kind / 16 % 2 = 1 then
            let r := applyDrop p' idle 1 e.team
            (r.1, dropsStatus st r.2)
          else (p', st)
        ({ s with phasers := Table.upd s.phasers n fun _ => p' },
          match st with | some k => word k | none => Config.dropStatus n (kind % 4))
    -- a drop made by an exit returns nothing
    match sd with
    | none => (drop s ph).1
    | some _ =>
      if (phaserOf s ph).isSome then
        let (s, st) := drop s ph
        phaserStatus s e sd st
      else phaserStatus s e sd 0
  | _ => s

/-- One signal of the quantum, and the boundaries that follow it. -/
def stepSignal (s : State) (ph kind party : Nat) (cand : Option (Nat × Word)) : State × Nat :=
  match phaserOf s ph with
  | none => (s, 3)
  | some p =>
    let (p', st) := applySignal p kind party cand
    (updPhaser s ph fun _ => settlePhaser 4 p', st)

/-- A trap that waits until the commit is complete, before the split's next slot (R340, R377). (DEDUCED, log 63). -/
def dueTrap (s : State) (e : Effect) (tr : Trap) : State :=
  let t : Trap := { tr with insn := some e.insn }
  updSplit s e.group e.split fun sp => { sp with due := sp.due ++ [t] }

/-- The signal of an effect. -/
def stepSignalEffect (s : State) (e : Effect) : State :=
  match e.body with
  | .phsig ph kind party cand _ sd =>
    let (s, st) := stepSignal s ph kind party cand
    let s := phaserStatus s e sd (word st)
    if st = 2 && sd.isSome then dueTrap s e { cls := 10, cause := 7, d0 := word ph } else s
  | _ => s

/-- Every phaser that can complete a phase does. -/
def settlePhasers (s : State) : State :=
  { s with phasers := s.phasers.map fun (n, p) => (n, if p.freed then p else settlePhaser 4 p) }

/-- Step 5: changes, completion, signals in order, join-party signals, ANY phasers. `es` are the effects of the commit in
order. -/
def commitPhasers (s : State) (d : Nat) (es : List Effect) : State :=
  let idle := idlePhasers s
  let s := settlePhasers (es.foldl (stepChange idle) s)
  let s := es.foldl stepSignalEffect s
  let js := match Table.find s.doms d with | some dom => dom.joinSigs | none => []
  let s := js.foldl (fun s (ph, l) => (stepSignal s ph 2 l none).1) s
  let s := updDom s d fun dom => { dom with joinSigs := [] }
  { s with phasers := s.phasers.map fun (n, p) => (n, if p.freed then p else settleAny 4 p) }

/-! ### Step 8: waiters (R370) -/

/-- Gives a `PHWAIT` its result and releases it at `t`. (DESIGN CHOICE, log 75). -/
def releaseWaiter (s : State) (g x sd : Nat) (vs : List Word) (t : Nat) : State :=
  let s := ((List.range 4).zip vs).foldl (fun s (i, v) => groupWrite s g x (sd + i) v) s
  updSplit s g x (relSplit (fun m => match m with | .phaser .. => true | _ => false) t)

/-- A waiter of phaser `ph` whose phase `w` has completed, or whose phaser has been freed, is released at `t`, also one whose
party has left at the boundary out of `w` (R358). -/
def settleWaiter (s : State) (g x ph sd w t : Nat) : State :=
  -- no phase has completed: R370 gives status 3 only
  let bare : List Word := 3 :: (List.range 3).map (Config.noResult ph)
  match Table.find s.phasers ph with
  | none => releaseWaiter s g x sd bare t
  | some p =>
    let res (st : Word) : List Word :=
      match p.result with
      | some (l, pay, rank) => [st, word l, pay, word rank]
      | none => st :: bare.drop 1
    if p.freed then releaseWaiter s g x sd (res 3) t
    else if phaseBefore w p.phase then
      let last := (p.phase + 2 ^ 32 - 1) % 2 ^ 32
      let s := { s with phasers := Table.upd s.phasers ph fun p => updParty p 0 g fun q => { q with wphase := p.phase } }
      releaseWaiter s g x sd (res (if last = w then 0 else 1)) t
    else s

/-- The wait a split stands in or keeps while it is halted. -/
def Split.phaserWait (sp : Split) : Option (Nat × Nat × Nat) :=
  let f (m : Mode) : Option (Nat × Nat × Nat) := match m with | .phaser ph sd w => some (ph, sd, w) | _ => none
  (f sp.mode).orElse fun _ => sp.saved.bind f

/-- Waiters of a domain are judged at step 8. -/
def settleWaiters (s : State) (d t : Nat) : State :=
  let ws := s.groups.flatMap fun (g, grp) =>
    match (Table.find s.tasks grp.task).bind fun k => Table.find s.launches k.launch with
    | some l => if l.dom = d then grp.splits.filterMap fun (x, sp) => sp.phaserWait.map fun w => (g, x, w) else []
    | none => []
  let s := ws.foldl (fun s (g, x, ph, sd, w) => settleWaiter s g x ph sd w t) s
  { s with groups := s.groups.map fun (g, grp) => if ws.any fun w => w.1 = g then (g, reseat grp) else (g, grp) }

/-- A `PHWAIT` of the quantum begins to wait once its commit is made. -/
def beginWait (s : State) (e : Effect) : State :=
  match e.body with
  | .phwait ph sd w =>
    updSplit s e.group e.split fun sp =>
      let f (m : Mode) : Mode := match m with | .commit _ => .phaser ph sd w | m => m
      { sp with mode := f sp.mode, saved := sp.saved.map f }
  | _ => s

/-! ### Instructions (R363-R371, R377) -/

/-- A PHASER trap. -/
def phaserTrap (cause kind : Nat) (ph : Word) : Trap := { cls := 10, cause, aux := kind, d0 := ph }

/-- The owner of a party of a kind. -/
def partyId (w : Who) (kind : Nat) : Nat :=
  match kind with | 0 => w.g | 1 => w.grp.team | _ => w.task.launch

/-- A launch uses a phaser: its record lists it, or that of a task of it (R354). -/
def usesPhaser (s : State) (n : Nat) (l : Launch) (ph : Nat) : Bool :=
  (recPhasers l.words).contains ph || s.tasks.any fun (_, k) => k.launch = n && (recPhasers k.words).contains ph

/-- Other live launches that use a phaser, of other domains, which a gathering did not leave out (R53, R354, R355). -/
def phaserSharers (s : State) (w : Who) (ph : Nat) : List Launch :=
  (s.launches.filter fun (n, l) =>
    !l.ended && !l.waiting && l.ctx = w.launch.ctx && l.dom ≠ w.launch.dom && usesPhaser s n l ph &&
      !l.alone.contains ph).map (·.2)

/-- The checks common to all: one live split, cause 1 (`bad`), the view, cause 2. -/
def withPhaser (s : State) (w : Who) (ph : Word) (kind : Nat) (bad : Bool) (f : Phaser → Res) : Res :=
  if 2 ≤ w.grp.splits.length then .trap { cls := 1, cause := 7 }
  else if bits ph 31 20 ≠ 0 || bad then .trap (phaserTrap 1 kind ph)
  else if !readReady s w then .stall 8
  else
    match phaserOf s ph.toNat with
    | none => .trap (phaserTrap 2 kind ph)
    | some p =>
      if p.ctx ≠ w.launch.ctx || !(recPhasers w.task.words).contains ph.toNat || decide (4032 ≤ ph.toNat % 4096) then
        .trap (phaserTrap 2 kind ph)
      else f p

/-- A CFG word (R366): must-be-zero bits, a reserved kind, cpy with another kind than group. -/
def cfgBad (cfg : Word) : Bool := bits cfg 15 5 ≠ 0 || bits cfg 3 2 = 3
def cpyBad (cfg : Word) : Bool := bit cfg 4 && bits cfg 3 2 ≠ 0

/-- PHREG (R366). -/
def execPhreg (sd sa : SReg) (s : State) : Host.Outcome State Fault Refusal :=
  slot (.phreg sd sa) (fun s => withWho s fun w =>
    let b := block s sa 2
    let ph := b.getD 0 0
    let cfg := b.getD 1 0
    let kind := bits cfg 3 2
    let role := bits cfg 1 0
    withPhaser s w ph kind (cfgBad cfg || cpyBad cfg || role = 0 || (kind ≠ 0 && role ≠ 1)) fun p =>
      let others := phaserSharers s w ph.toNat
      if w.launch.alone.contains ph.toNat || others.any fun l => recQ l.words ≠ recQ w.launch.words then .trap (phaserTrap 3 kind ph)
      else if p.any && (kind ≠ 0 || bit cfg 4) then .trap (phaserTrap 5 kind ph)
      else
        let s := others.foldl (fun s l => joinDomains s w l.dom) s
        let mark := role + if bit cfg 4 then 16 else 0
        .ok { s := emit s w (some w.sp.clock) 0
                (.phreg ph.toNat kind (partyId w kind) mark (bits cfg 31 16) (some sd.toNat))
              flow := .close }) s

/-- PHDROP (R367). -/
def execPhdrop (sd sa : SReg) (s : State) : Host.Outcome State Fault Refusal :=
  slot (.phdrop sd sa) (fun s => withWho s fun w =>
    let b := block s sa 2
    let ph := b.getD 0 0
    let cfg := b.getD 1 0
    let kind := bits cfg 3 2
    withPhaser s w ph kind (cfgBad cfg || cpyBad cfg) fun p =>
      if p.any && (kind ≠ 0 || bit cfg 4) then .trap (phaserTrap 5 kind ph)
      else
        .ok { s := emit s w (some w.sp.clock) 0
                (.phdrop ph.toNat (kind + if bit cfg 4 then 16 else 0) (partyId w kind) (some sd.toNat))
              flow := .close }) s

/-- A signal of the issuing group's party (R368, R369): `isAny` for `PHANY` and `PHANYB`, `bound` for the forms that wait
for the issuer's engine writes. -/
def signalSlot (i : Instr) (isAny bound : Bool) (sd sa : SReg) (s : State) : Host.Outcome State Fault Refusal :=
  slot i (fun s => withWho s fun w =>
    let b := block s sa (if isAny then 2 else 1)
    let ph := b.getD 0 0
    withPhaser s w ph 0 false fun p =>
      if !((findParty p 0 w.g).any fun q => roleSignals q.role) then .trap (phaserTrap 4 0 ph)
      else if p.any != isAny then .trap (phaserTrap 5 0 ph)
      else if isAny && decide (2 ^ 48 ≤ w.sp.clock) then .trap (phaserTrap 8 0 ph)
      else
        let s := emit s w (some w.sp.clock) 0
          (.phsig ph.toNat 0 w.g (if isAny then some (w.sp.clock, b.getD 1 0) else none) bound (some sd.toNat))
        .ok { s, flow := .close
              post := fun s => if bound then fixTimes s w fun _ => true else s }) s

/-- PHSIG, PHSIGB, PHANY, PHANYB (R368). -/
def execPhsig (sd sa : SReg) (s : State) : Host.Outcome State Fault Refusal :=
  signalSlot (.phsig sd sa) false false sd sa s
def execPhsigb (sd sa : SReg) (s : State) : Host.Outcome State Fault Refusal :=
  signalSlot (.phsigb sd sa) false true sd sa s
def execPhany (sd sa : SReg) (s : State) : Host.Outcome State Fault Refusal :=
  signalSlot (.phany sd sa) true false sd sa s
def execPhanyb (sd sa : SReg) (s : State) : Host.Outcome State Fault Refusal :=
  signalSlot (.phanyb sd sa) true true sd sa s

/-- PHWAIT (R370). -/
def execPhwait (sd sa : SReg) (s : State) : Host.Outcome State Fault Refusal :=
  slot (.phwait sd sa) (fun s => withWho s fun w =>
    let ph := uread s sa.toNat
    withPhaser s w ph 0 false fun p =>
      match findParty p 0 w.g with
      | none => .trap (phaserTrap 4 0 ph)
      | some q =>
        if !roleWaits q.role then .trap (phaserTrap 4 0 ph)
        else if !p.any && q.role = 3 && !phaseBefore q.wphase q.sphase then .trap (phaserTrap 9 0 ph)
        else .ok { s := emit s w (some w.sp.clock) 0 (.phwait ph.toNat sd.toNat q.wphase), flow := .close }) s

/-- The five words of `PHSTAT` (R371). -/
def statWords (p : Phaser) (q : Option Party) : List Word :=
  let now := (q.map (·.role)).getD 0
  let next := match q with
    | some q => if q.leaving then 0 else q.next.getD q.role
    | none => 0
  [word (now + next * 4 + if q.isSome then 16 else 0), word p.phase, word ((q.map (·.sphase)).getD 0),
    word ((q.map (·.wphase)).getD 0),
    word ((if p.any then 1 else 0) + p.scope * 2 + if phaserIdle p then 8 else 0)]

/-- PHSTAT (R371). -/
def execPhstat (sd sa : SReg) (s : State) : Host.Outcome State Fault Refusal :=
  slot (.phstat sd sa) (fun s => withWho s fun w =>
    let b := block s sa 2
    let ph := b.getD 0 0
    let cfg := b.getD 1 0
    let kind := bits cfg 3 2
    withPhaser s w ph kind (cfgBad cfg) fun p =>
      if p.any && kind ≠ 0 then .trap (phaserTrap 5 kind ph)
      else .done (uwrites s sd.toNat (statWords p (findParty p kind (partyId w kind))))) s

end Sys2Proof.Machine
end

