-- ==== Sys2Proof/Machine/Fabric.lean ====
section
/-!
DEFINITION. The pod fabric (12_home_fabric R390-R403): group and receive tables, `MCST`, `COLL` and `GSYNC`, and what
their commits do. The other packages of the pod are outside the model: Config names what they answer.
-/

namespace Sys2Proof.Machine

/-! ### Views and blocks -/

/-- The issuing package's peer number (R390). -/
def ownPeer : Nat := Config.peer.toNat

/-- The members of a group in a domain's view (R391, R392). -/
def groupMembers (dom : Domain) (g : Nat) : List Nat :=
  (List.range 512).filter fun p => bit (Sparse.get 0 dom.groups (16 * g + p / 32)) (p % 32)

/-- The members of a tree in a domain's view, the root first (R397). -/
def treeOf (dom : Domain) (t : Nat) : Option (Nat × List Nat) := Table.find dom.trees t

/-- A bitmap over the peers, 64 bytes. -/
def peerBitmap (ps : List Nat) : List Byte :=
  (List.range 64).map fun i => BitVec.ofNat 8 (((List.range 8).filter fun b => ps.contains (8 * i + b)).foldl
    (fun n b => n + 2 ^ b) 0)

/-- A FABRIC trap and the offset of its block word (R403). -/
def fabricTrap (cause off : Nat) : Trap := { cls := 11, cause, aux := off }

/-- The first bad word of a block. -/
def firstBad (l : List (Nat × Bool)) : Option Nat := (l.find? (·.2)).map (·.1)

/-- Places local ranges (address, bytes), else BOUNDS fabric local range. -/
def fabricPlaces (s : State) (w : Who) (l : List (Nat × Nat)) : Except Trap (List (Nat × Nat)) :=
  l.foldr (fun (a, n) acc =>
    match locate s w a n, acc with
    | .out limit, _ => .error { cls := 4, cause := 16, d0 := word a, d1 := word limit }
    | .at t off, .ok ps => .ok ((t, off) :: ps)
    | _, e => e) (.ok [])

/-- The domain of the issuer. -/
def ownDomain (s : State) (w : Who) : Domain := (Table.find s.doms w.launch.dom).getD { q := recQ w.launch.words }

/-- A command that its commit completes. -/
def waitingCmd (s : State) (w : Who) (sd : SReg) (writes : List (Nat × Nat)) (wins : List (Nat × Nat × Nat)) : Nat × State :=
  newCmd s
    { group := w.g, split := w.x, team := w.grp.team, task := w.grp.task
      flag := (w.sp.clause.map Clause.flag).getD 15, sd := sd.toNat, into := [w.x], key := agentKey w
      clock := w.sp.clock, prog := s.prog, line := w.sp.line, time := some w.sp.clock, writes, wins, body := .waits }

/-- Own ranges among places. -/
def ownPlaces (w : Who) (l : List (Nat × Nat)) (n : Nat) : List (Nat × Nat) :=
  l.filterMap fun (t, off) => if t = w.team.tidx then some (off, n) else none

/-- Ranges of other teams' allocations among places. -/
def windowPlaces (w : Who) (l : List (Nat × Nat)) (n : Nat) : List (Nat × Nat × Nat) :=
  l.filterMap fun (t, off) => if t = w.team.tidx then none else some (t, off, n)

/-- The last quantum before a task's window epoch: the largest one closed by an arrival to a completed phase of its cluster
barriers (R63, R42). -/
def epochQuantum (k : Task) : Option Nat :=
  k.kdone.foldl (fun m e => match Table.find k.kquant (4 * e.2 + e.1) with | some q => some (max q (m.getD 0)) | none => m) none

/-- A write of quantum `n` by a task into the allocation of one of its teams. One made in the current epoch leaves what
window reads of that epoch see (R64). (DEDUCED, log 44). -/
def windowLand (s : State) (task t n off : Nat) (bs : List Byte) : State :=
  updTeam s t fun tm =>
    let bs := bs.take (lastSize s tm - off)
    let past := match (Table.find s.tasks task).bind epochQuantum with | some q => decide (n ≤ q) | none => false
    { tm with
      mem := Sparse.write 0 tm.mem off bs
      before := if past then tm.before else overlayAdd tm.before off (teamBytes tm off bs.length) }

/-- A write at a commit of quantum `n` by an agent of group `g` into the allocation of the task's team `t`: its own team's,
or a window (R222, R66). -/
def teamWrite (s : State) (task g t n off : Nat) (bs : List Byte) : State :=
  match (Table.find s.tasks task).bind fun k => k.teams[t]? with
  | some m =>
    if (Table.find s.groups g).any fun grp => grp.team = m then landOwn s m (indexOf s g) off bs
    else windowLand s task m n off bs
  | none => s

/-! ### MCST (R394-R396) -/

/-- The receive entry of a group (R393): valid, context, port, window VA, window size. (DEDUCED, log 82). -/
def receiveEntry (s : State) (g : Nat) : Bool × Nat × Nat × Nat × Nat :=
  let r (i : Nat) : Word := Sparse.get 0 s.rtab (4 * g + i)
  (bit (r 0) 0, bits (r 0) 4 1, bits (r 0) 23 8, (r 1).toNat + bits (r 2) 23 0 * 2 ^ 32, (r 3).toNat)

/-- The live launch that owns the receive port of a group on this package. (DEDUCED, log 82). -/
def receiver (s : State) (g : Nat) : Option Launch :=
  let (valid, ctx, port, _, _) := receiveEntry s g
  if !valid then none
  else match portAt s ctx port with
    | some p => if p.isOpen then (launchNum s ctx p.owner).map (·.2) else none
    | none => none

/-- The response of this package, before the message: the cause, or what delivery decides (R395). -/
def ownResponse (s : State) (q group off : Nat) : Option Nat :=
  let (valid, ctx, port, _, size) := receiveEntry s group
  let isOpen := match portAt s ctx port with | some p => p.isOpen | none => false
  if !valid || !isOpen then some 1
  else match receiver s group with
    | none => some 2
    | some l =>
      if size < off + 256 then some 3
      else if recQ l.words ≠ q then some 6
      else none

/-- The launches that a line's message on this package joins: those that its port acts for, where a member takes the line
(R395, R53). -/
def lineLaunches (s : State) (w : Who) (group off : Nat) : List Launch :=
  let (_, ctx, port, _, _) := receiveEntry s group
  if (groupMembers (ownDomain s w) group).contains ownPeer && (ownResponse s (recQ w.launch.words) group off).isNone then
    actsFor s s w.task.launch ctx port
  else []

/-- MCST (R394, R395). -/
def execMcst (sd sa : SReg) (s : State) : Host.Outcome State Fault Refusal :=
  slot (.mcst sd sa) (fun s => withWho s fun w =>
    let b := block s sa 7
    let g (i : Nat) : Word := b.getD i 0
    let cm := bits (g 0) 1 0
    let odd (i n : Nat) : Nat × Bool := (i, (g i).toNat % n ≠ 0)
    match firstBad [(0, bits (g 0) 31 2 ≠ 0 || cm = 1 || cm = 3), (1, bits (g 1) 31 12 ≠ 0), odd 2 4, odd 3 256, odd 4 4,
        (5, (cm ≠ 2 && g 5 ≠ 0) || bits (g 5) 31 16 ≠ 0), (6, cm ≠ 2 && g 6 ≠ 0)] with
    | some i => .trap (fabricTrap 1 i)
    | none =>
      .bind (fabricPlaces s w [((g 2).toNat, 256), ((g 4).toNat, 320)]) fun ps =>
        let src := ps.getD 0 (0, 0)
        let ack := ps.getD 1 (0, 0)
        let accs : List Acc := [⟨src.1, src.2, 256, 0⟩, ⟨ack.1, ack.2, 320, 1⟩]
        if heldAccess s w accs then .stall 7
        else
          let line := spadRead s w src.1 src.2 256
          let s := joinLaunches s w (lineLaunches s w (g 1).toNat (g 3).toNat)
          let (id, s) := waitingCmd s w sd (ownPlaces w [ack] 320) (windowPlaces w [ack] 320)
          let words := b ++ [word ack.1, word ack.2]
          .ok { s := emit s w (some w.sp.clock) id (.mcst words line 0 sd.toNat), accs, flow := .close
                looks := [localLook (g 2).toNat 256 noLane true false, localLook (g 4).toNat 320 noLane false true] }) s

/-- The write of a line into this package's window (R395): the pieces that the receiving context's tables take. -/
def lineWrite (s : State) (group off : Nat) (line : List Byte) : Nat × List (Nat × Nat × List Byte) :=
  let (_, ctx, _, base, _) := receiveEntry s group
  let va := (base + off) % 2 ^ 56
  (va, writePieces s ctx 0 va line)

/-- The acknowledgement record of the responses (peer, cause). -/
def ackRecord (rs : List (Nat × Nat)) : List Byte :=
  let nib (p : Nat) : Nat := (Table.find rs p).getD 0
  peerBitmap ((rs.filter fun r => r.2 = 0).map (·.1)) ++
    (List.range 256).map fun i => BitVec.ofNat 8 (nib (2 * i) + 16 * nib (2 * i + 1))

/-- The status word of the responses (R396). -/
def ackStatus (rs : List (Nat × Nat)) : Word :=
  let pos := (rs.filter fun r => r.2 = 0).length
  let neg := rs.length - pos
  word ((if rs.isEmpty then 2 else if neg = 0 then 0 else 1) + pos * 2 ^ 8 + neg * 2 ^ 18)

/-- A message of an effect's agent in the commit after. -/
def laterMessage (s : State) (e : Effect) (time port : Nat) (w0 w1 : Word) : State :=
  { s with
    prog := s.prog + 1
    effects := s.effects ++
      [{ e with prog := s.prog, cmd := 0, time := some time, body := .message port w0 w1 none }] }

/-- The quantum of an effect's logical time. -/
def effectQuantum (s : State) (e : Effect) : Nat :=
  (e.time.getD 0) / ((Table.find s.doms e.dom).map (·.q)).getD 1

/-- What follows a commit for `MCST`: `own` is this package's response when it is a member. -/
def finishMcst (s : State) (e : Effect) (ws : List Word) (own : Option Nat) (members : List Nat) (next : Nat) : State :=
  let g (i : Nat) : Word := ws.getD i 0
  let rs := members.map fun p =>
    (p, if p = ownPeer then own.getD 1 else Config.memberResponse s.ticks p % 7)
  let st := ackStatus rs
  let s := teamWrite s e.task e.group (g 7).toNat (effectQuantum s e) (g 8).toNat (ackRecord rs)
  let s := match Table.find s.cmds e.cmd with
    | some c => finishCmd s e.cmd c (uniformOuts c.sd [st])
    | none => s
  if bits (g 0) 1 0 = 2 then laterMessage s e next (g 5).toNat (g 6) st else s

/-! ### GSYNC (R402) -/

/-- GSYNC. -/
def execGsync (sd sa : SReg) (s : State) : Host.Outcome State Fault Refusal :=
  slot (.gsync sd sa) (fun s => withWho s fun w =>
    let b := block s sa 5
    let g (i : Nat) : Word := b.getD i 0
    let cm := bits (g 0) 2 1
    match firstBad [(0, bits (g 0) 31 3 ≠ 0 || cm = 1 || cm = 3), (2, (g 2).toNat % 4 ≠ 0),
        (3, (cm ≠ 2 && g 3 ≠ 0) || bits (g 3) 31 16 ≠ 0), (4, cm ≠ 2 && g 4 ≠ 0)] with
    | some i => .trap (fabricTrap 1 i)
    | none =>
      let dom := ownDomain s w
      let id := (g 1).toNat
      let ms := if bit (g 0) 0 then (treeOf dom id).map (·.2)
        else if id < 4096 then some (groupMembers dom id) else none
      match ms with
      | none => .trap (fabricTrap 2 1)
      | some ms =>
        if bit (g 0) 0 && !ms.contains ownPeer then .trap (fabricTrap 2 1)
        else
          .bind (fabricPlaces s w [((g 2).toNat, 64)]) fun ps =>
            let dst := ps.getD 0 (0, 0)
            let accs : List Acc := [⟨dst.1, dst.2, 64, 1⟩]
            if heldAccess s w accs then .stall 7
            else
              let (c, s) := waitingCmd s w sd (ownPlaces w [dst] 64) (windowPlaces w [dst] 64)
              let words := b ++ [word dst.1, word dst.2] ++ bytesWords 16 (peerBitmap ms)
              .ok { s := emit s w (some w.sp.clock) c (.gsync words 0 sd.toNat), accs, flow := .close
                    looks := [localLook (g 2).toNat 64 noLane false true] }) s

/-- What follows a commit for `GSYNC`. -/
def finishGsync (s : State) (e : Effect) (ws : List Word) (next : Nat) : State :=
  let g (i : Nat) : Word := ws.getD i 0
  let map := (ws.drop 7).flatMap wordBytes
  let n := (ws.drop 7).foldl (fun n v => n + ((List.range 32).filter fun i => bit v i).length) 0
  let st := word (n + ownPeer * 2 ^ 16)
  let s := teamWrite s e.task e.group (g 5).toNat (effectQuantum s e) (g 6).toNat map
  let s := match Table.find s.cmds e.cmd with
    | some c => finishCmd s e.cmd c (uniformOuts c.sd [st])
    | none => s
  if bits (g 0) 2 1 = 2 then laterMessage s e next (g 3).toNat (g 4) st else s

/-! ### COLL (R398-R401) -/

/-- The part of a team in a collective that a further issue by a group belongs to. -/
def collFor (tm : Team) (g : Nat) : Option Coll :=
  tm.colls.find? fun c => !c.finished && c.quantum.isNone && !(c.issues.any fun i => i.group = g)

/-- The last issue in (clock, group index) order. -/
def lastIssue (c : Coll) : Option CollIssue :=
  c.issues.foldl (fun m i =>
    match m with
    | none => some i
    | some j => if pairLt (j.clock, j.gidx) (i.clock, i.gidx) then some i else some j) none

/-- Every live group of a team has issued. -/
def collFull (s : State) (tm : Team) (c : Coll) : Bool :=
  tm.groups.all fun g =>
    match Table.find s.groups g with
    | some grp => grp.exited || c.issues.any fun i => i.group = g
    | none => true

/-- A placed local address as a block word: an offset of the own allocation, or the address in another team's window (R54,
R55). -/
def placedWord (w : Who) (a : Nat) (p : Nat × Nat) : Word := word (if p.1 = w.team.tidx then p.2 else a)

/-- The block of a collective with SRC, DST and REC as they are placed. -/
def placedBlock (w : Who) (b : List Word) (ps : List (Nat × Nat)) : List Word :=
  let at' (i k : Nat) (b : List Word) : List Word :=
    match ps[k]? with | some p => b.set i (placedWord w (b.getD i 0).toNat p) | none => b
  at' 5 2 (at' 3 1 (at' 2 0 b))

/-- The team index and the offset of a placed block word of team `t`. -/
def wordPlace (t : Nat) (v : Word) : Nat × Nat := if v.toNat < 0x100000 then (t, v.toNat) else placeOf v.toNat

/-- Records one group's issue with its placed block; the first of a collective names the barrier. -/
def joinColl (s : State) (w : Who) (raw b : List Word) (data : List Byte) : State :=
  let i : CollIssue := ⟨w.g, w.grp.gidx, w.sp.clock, agentKey w, data, b0Span w.sp⟩
  match collFor w.team w.g with
  | some _ =>
    updTeam s w.grp.team fun tm =>
      let rec add : List Coll → List Coll
        | [] => []
        | c :: cs =>
          if !c.finished && c.quantum.isNone && !(c.issues.any fun j => j.group = w.g) then
            { c with issues := c.issues ++ [i] } :: cs
          else c :: add cs
      { tm with colls := add tm.colls }
  | none =>
    let bar := bits (b.getD 0 0) 11 8
    let id := s.fresh
    let c : Coll := { block := b, phase := cmdPhase w.grp bar, cmd := id, issues := [i] }
    let s := barAddCmd { s with fresh := id + 1 } w bar id
    updTeam s w.grp.team fun tm =>
      let old := tm.colls.filter fun c => !c.finished ||
        (teamSplits s w.grp.team).any fun (_, _, sp) =>
          decide (pairGet sp.seen (bits (c.block.getD 0 0) 11 8) < c.phase)
      let first := match tm.collFirst with | some f => if f.1 = tm.interval then some f else none | none => none
      { tm with colls := old ++ [c], collFirst := some (first.getD (tm.interval, raw)) }

/-- The read of SRC counts for the group of the last issue (R399). -/
def collRead (s : State) (w : Who) (b : List Word) : List Acc × State :=
  match Table.find s.teams w.grp.team with
  | none => ([], s)
  | some tm =>
    match tm.colls.find? fun c => c.block = b && collFull s tm c && c.quantum.isNone && c.issues.any fun i => i.group = w.g with
    | none => ([], s)
    | some c =>
      match lastIssue c with
      | none => ([], s)
      | some i =>
        let p := wordPlace w.team.tidx (b.getD 2 0)
        let acc : Acc := ⟨p.1, p.2, collBytes b, 0⟩
        if i.group = w.g then ([acc], s)
        else
          let uses := stripeUses [acc] w.team.tidx
          let wins := (windowUses w [acc]).map fun u => { u with group := i.gidx }
          let s := updTask s w.grp.task fun k => { k with win := k.win ++ wins.filter fun u => !k.win.contains u }
          ([], updTeam s w.grp.team fun tm =>
            match stripeConflict tm i.gidx i.clock i.span i.group 0 uses with
            | some k => { tm with conflict := some (lowerStripe tm.conflict k) }
            | none => { tm with stripes := recordStripes tm.stripes i.gidx i.clock i.span uses })

/-- COLL (R398, R399). -/
def execColl (sd sa : SReg) (s : State) : Host.Outcome State Fault Refusal :=
  slot (.coll sd sa) (fun s => withWho s fun w =>
    let b := block s sa 6
    let g (i : Nat) : Word := b.getD i 0
    let c := g 0
    let n := (g 4).toNat
    let odd (i : Nat) : Nat × Bool := (i, (g i).toNat % 4 ≠ 0)
    if 2 ≤ w.grp.splits.length then .trap { cls := 1, cause := 8 }
    else
      match firstBad [(0, decide (3 < bits c 3 0) || decide (3 < bits c 6 4) || bit c 7 || bits c 31 13 ≠ 0),
          (1, bits (g 1) 31 10 ≠ 0), odd 2, odd 3,
          (4, n = 0 || decide (16384 < n) || collBytes b % 4 ≠ 0 || decide (65536 < collBytes b)),
          (5, (!bit c 12 && g 5 ≠ 0) || (g 5).toNat % 4 ≠ 0)] with
      | some i => .trap (fabricTrap 1 i)
      | none =>
        let tree := treeOf (ownDomain s w) (g 1).toNat
        let differs := match w.team.collFirst with
          | some f => f.1 = w.team.interval && f.2 ≠ b
          | none => false
        if !(tree.any fun t => t.2.contains ownPeer) then .trap (fabricTrap 2 1)
        else if differs then .trap (fabricTrap 3 0)
        else if !barAdmits w (bits c 11 8) then .trap (fabricTrap 4 0)
        else
          .bind (fabricPlaces s w (((g 2).toNat, collBytes b) :: collWrites b)) fun ps =>
            let src := ps.getD 0 (0, 0)
            let reads : List Acc := [⟨src.1, src.2, collBytes b, 0⟩]
            if heldAccess s w reads then .stall 7
            else
              let placed := placedBlock w b ps
              let wins := (ps.drop 1).zip ((collWrites b).map (·.2)) |>.filterMap fun (p, n) =>
                if p.1 = w.team.tidx then none else some (⟨p.1, p.2, n, 1⟩ : Acc)
              let s := joinColl s w b placed (spadRead s w src.1 src.2 (collBytes b))
              let (accs, s) := collRead s w placed
              let (id, s) := waitingCmd s w sd [] []
              .ok { s := emit s w (some w.sp.clock) id (.status 0 sd.toNat 0), accs := accs ++ wins, flow := .close
                    looks := localLook (g 2).toNat (collBytes b) noLane true false ::
                  (collWrites b).map fun r => localLook r.1 r.2 noLane false true }) s

/-- The elements of a contribution. -/
def collElems (fmt : Nat) (bs : List Byte) (n : Nat) : List Nat :=
  let k := collSize fmt
  (List.range n).map fun i => leNat ((bs.drop (k * i)).take k)

/-- The float format of a format code. -/
def collFmt (fmt : Nat) : Fmt := match fmt with | 1 => fmtF32 | 2 => fmtF16 | _ => fmtBF16

/-- MAX or MIN of two elements (R400): signed for I32, by R386 for floats. -/
def collBest (fmt : Nat) (isMax : Bool) (a b : Nat) : Nat :=
  if fmt = 0 then (if isMax then (maxS (word a) (word b)).toNat else (minS (word a) (word b)).toNat)
  else
    let f := collFmt fmt
    match leastBy (fun a b => decide (a < b)) ([a, b].filter f.isNan) with
    | some n => f.quiet n
    | none => if valLess true (f.decode false a) (f.decode false b) == isMax then b else a

/-- Nodes form a tree over members: each node's children stand before it, one node is left, and every member has one
node. -/
def treeWf (ms : List Nat) (ns : List (Option Nat × Nat)) : Bool :=
  let left := ns.foldl (fun (d : Option Nat) e => d.bind fun d => if e.2 ≤ d then some (d - e.2 + 1) else none) (some 0)
  let ps := ns.filterMap (·.1)
  left = some 1 && ps.length = ms.length && ms.all fun p => ps.contains p

/-- The nodes of a tree over its members. (DESIGN CHOICE, log 79). -/
def treeShape (tree : Nat) (ms : List Nat) : List (Option Nat × Nat) :=
  let ns := Config.treeNodes tree ms
  if treeWf ms ns then ns else ms.map (fun p => (some p, 0)) ++ [(none, ms.length)]

/-- The value at every node of a tree, from that of its local member and those of its children in ascending port order. -/
def treeValues {α : Type} (f : Option Nat → List α → α) (ns : List (Option Nat × Nat)) : List α :=
  (ns.foldl (fun (r : List α × List α) (l, k) =>
    let v := f l (r.1.take k).reverse
    (v :: r.1.drop k, r.2 ++ [v])) ([], [])).2

/-- A float sum over a tree: each node rounds the exact sum of its member's element and its children's results once
(R152). -/
def treeSum (f : Fmt) (ns : List (Option Nat × Nat)) (elem : Nat → Nat) : Nat :=
  let at' (l : Option Nat) (kids : List Nat) : Nat :=
    let ts := (l.map elem).toList ++ kids
    (exactSum f 0 false false (ts.map fun x => (f, x)) (ts.map fun x => ⟨false, [(f, x)]⟩)).1
  (treeValues at' ns).getLastD 0

/-- The members below each node of a tree. -/
def treeMembers (ns : List (Option Nat × Nat)) : List (List Nat) := treeValues (fun l kids => l.toList ++ kids.flatten) ns

/-- The members whose subtree meets an abort before the result: whole subtrees, and this package where something that
aborts has happened here (R401). (DESIGN CHOICE, log 79). -/
def abortedMembers (tree n : Nat) (ns : List (Option Nat × Nat)) (own : Bool) : List Nat :=
  let groups := treeMembers ns
  let peers := ((List.range groups.length).zip groups).flatMap fun (i, g) => if Config.nodeAborts tree n i then g else []
  ((if own then [ownPeer] else []) ++ peers).eraseDups

/-- The result of a collective from the members' contributions, the root's first and then the others (R400). A maximum or
minimum that is a NaN is quiet, also with a single rank (R386). -/
def collResult (op fmt tree n : Nat) (ms : List (Nat × List Byte)) : List Byte :=
  let k := collSize fmt
  let quiet (x : Nat) : Nat := if fmt ≠ 0 && (collFmt fmt).isNan x then (collFmt fmt).quiet x else x
  let es := ms.map fun c => collElems fmt c.2 n
  let join (f : Nat → Nat → Nat) : List Byte :=
    match es with
    | [] => []
    | e :: r => (List.range n).flatMap fun i => leBytes k (r.foldl (fun a x => f a (x.getD i 0)) (e.getD i 0))
  let best (isMax : Bool) : List Byte :=
    match es with
    | [] => []
    | e :: r => (List.range n).flatMap fun i =>
      leBytes k (quiet (r.foldl (fun a x => collBest fmt isMax a (x.getD i 0)) (e.getD i 0)))
  match op with
  | 0 =>
    if fmt = 0 then join fun a b => (a + b) % 2 ^ 32
    else
      let ns := treeShape tree (ms.map (·.1))
      let at' (p i : Nat) : Nat := ((Table.find ((ms.map (·.1)).zip es) p).getD []).getD i 0
      (List.range n).flatMap fun i => leBytes k (treeSum (collFmt fmt) ns fun p => at' p i)
  | 1 => best true
  | 2 => best false
  | _ => (ms.map (·.2)).headD []

/-- Writes the result and the rank record of a collective and completes its phase at commit(p) (R400). A rank that is aborted
has outcome 1 whatever the other ranks' blocks hold (R401). -/
def finishColl (s : State) (t : Nat) (c : Coll) (root : Nat) (members : List Nat) (p time : Nat) : State :=
  match Table.find s.teams t, lastIssue c, c.number with
  | some tm, some i, some n =>
    let b := c.block
    let tree := (b.getD 1 0).toNat
    let op := bits (b.getD 0 0) 3 0
    let fmt := bits (b.getD 0 0) 6 4
    let others := members.filter (· ≠ ownPeer)
    let contribution (p : Nat) : List Byte := if p = ownPeer then i.data else Config.peerContribution tree n p
    let ms := root :: members.filter (· ≠ root)
    let mismatch := !others.isEmpty && Config.peerMismatch tree n
    let aborted := if others.isEmpty && !c.aborted then [] else abortedMembers tree n (treeShape tree ms) c.aborted
    let outcome := if aborted.contains ownPeer then 1 else if mismatch then 2 else if aborted.isEmpty then 0 else 1
    let bs := (collResult op fmt tree (b.getD 4 0).toNat (ms.map fun p => (p, contribution p))).take (collBytes b)
    let record := peerBitmap (members.filter fun p => !aborted.contains p) ++ peerBitmap aborted ++ leBytes 4 outcome
    let put (s : State) (a : Word) (bs : List Byte) : State :=
      let at' := wordPlace tm.tidx a
      teamWrite s tm.task i.group at'.1 p at'.2 bs
    let s := if outcome = 2 || aborted.contains ownPeer then s else put s (b.getD 3 0) bs
    let s := if bit (b.getD 0 0) 12 then put s (b.getD 5 0) record else s
    let s := updTeam s t fun tm =>
      { tm with colls := tm.colls.map fun d => if d.cmd = c.cmd then { d with finished := true } else d }
    let bar := bits (b.getD 0 0) 11 8
    let s := updBar s t bar fun k => { k with clocks := pairMaxSet k.clocks c.phase time }
    barEndCmd s t c.cmd
  | _, _, _ => s

/-- The teams of a domain. -/
def domTeams (s : State) (d : Nat) : List (Nat × Team) :=
  s.teams.filter fun (_, tm) =>
    !tm.exited && (match (Table.find s.tasks tm.task).bind fun k => Table.find s.launches k.launch with
      | some l => l.dom = d
      | none => false)

/-- The contributions that a commit takes, in key order: each receives the next number of its tree (R399). -/
def takeColls (s : State) (d q qlen : Nat) : State :=
  let due := (domTeams s d).flatMap fun (t, tm) => tm.colls.filterMap fun c =>
    if c.quantum.isSome || !collFull s tm c then none
    else match lastIssue c with
      | some i => if i.clock / qlen ≤ q then some (i.key, t, c) else none
      | none => none
  (sortBy (fun a b => decide (a.1 ≤ b.1)) due).foldl (fun s (_, t, c) =>
    let tree := (c.block.getD 1 0).toNat
    let n := Sparse.get 0 s.collN tree
    let s := { s with collN := Sparse.set 0 s.collN tree (n + 1) }
    updTeam s t fun tm =>
      { tm with colls := tm.colls.map fun k =>
          if k.cmd = c.cmd then { k with quantum := some q, number := some n } else k }) s

/-- The collectives of a domain after step 6 of commit(q): contributions are taken, and a collective completes once the
other ranks' contributions have come (R400). -/
def commitColls (s : State) (d q qlen : Nat) : State :=
  let s := takeColls s d q qlen
  match Table.find s.doms d with
  | none => s
  | some dom =>
    (domTeams s d).foldl (fun s (t, tm) =>
      tm.colls.foldl (fun s c =>
        match c.number, treeOf dom (c.block.getD 1 0).toNat with
        | some n, some (root, ms) =>
          let others := ms.filter (· ≠ ownPeer)
          if c.finished || !(others.isEmpty || c.aborted || decide (Config.peerQuantum (c.block.getD 1 0).toNat n ≤ q)) then s
          else finishColl s t c root ms q ((q + 1) * qlen)
        | _, _ => s) s) s

end Sys2Proof.Machine
end

