-- ==== Sys2Proof/Machine/Commit.lean ====
section
/-!
DEFINITION. Commit(q) of a domain (01_engines R41-R47): when it can begin, its eight steps, and what it ends. The steps'
own procedures are in `Machine/Home`, `Ports`, `Phaser`, `Fabric` and `Task`.
-/

namespace Sys2Proof.Machine

/-! ### Logical time (R41, R44) -/

/-- The quantum of whose commit a logical time is part: of a rooted task not before the quantum in which it rooted, of
an unrooted one that of its retirement, once no earlier task holds it (R44, R307, R308). -/
def timeQuantum (s : State) (d qlen task : Nat) (time : Option Nat) : Option Nat :=
  match time, Table.find s.tasks task with
  | none, _ => none
  | some t, none => some (t / qlen)
  | some t, some k =>
    match k.rooted, k.retired with
    | some r, _ => some (max (t / qlen) r)
    | none, some r => if earlierDone s d k (some (domNext s d)) then some r else none
    | none, none => none

/-- An effect is part of commit(q) or of an earlier one. -/
def effDue (s : State) (d q qlen : Nat) (e : Effect) : Bool :=
  e.dom = d && (match timeQuantum s d qlen e.task e.time with | some k => decide (k ≤ q) | none => false)

/-- The lower of two bounds, where one is named. -/
def minBound (a b : Option Nat) : Option Nat :=
  match a, b with
  | some x, some y => some (min x y)
  | some x, none => some x
  | none, b => b

/-- Where a split is counted in M: not while it waits for others (R41). -/
def splitBound (sp : Split) : Option Nat :=
  match sp.mode with
  | .recon _ | .bar .. | .kbar .. | .phaser .. | .parked => none
  | _ => some sp.clock

/-- The release clocks of a task's continuations that have fired and not resumed. -/
def firedBound (s : State) (n : Nat) : Option Nat :=
  s.conts.foldl (fun m (_, c) =>
    match c.fired, Table.find s.groups c.group with
    | some (_, _, t), some grp => if grp.task = n then minBound m (some (max c.clock t)) else m
    | _, _ => m) none

/-- Where a task is counted in M. -/
def taskBound (s : State) (n : Nat) (k : Task) : Option Nat :=
  if k.retired.isSome then none
  else if !k.placed || k.rooted.isNone then some k.start
  else (taskSplits s n).foldl (fun m (_, _, sp) => minBound m (splitBound sp)) (firedBound s n)

/-- The domain of a task. -/
def taskDom (s : State) (k : Task) : Option Nat := (Table.find s.launches k.launch).map (·.dom)

/-- The launch-wide minimum M of a domain; none when nothing is counted. -/
def domMinimum (s : State) (d : Nat) : Option Nat :=
  s.tasks.foldl (fun m (n, k) => if taskDom s k = some d then minBound m (taskBound s n k) else m) none

/-- Contexts with live launches of a domain. -/
def domCtxs (s : State) (d : Nat) : List Nat :=
  (s.launches.filterMap fun (_, l) => if l.dom = d && !l.ended then some l.ctx else none).eraseDups

/-- A host message enters a port at commits of the domain: that of the port's live owner, or any of its context when it
has none (R51). (DEDUCED, log 71). -/
def hostEnters (s : State) (d ctx port : Nat) : Bool :=
  match portOwner s ctx port with
  | some (_, l) => l.dom = d
  | none => true

/-- The port and the quantum of a replay record (R52). -/
def recordPort (r : List Word) : Nat := (r.getD 1 0).toNat % 65536
def recordQuantum (r : List Word) : Nat := (r.getD 2 0).toNat + (r.getD 3 0).toNat * 2 ^ 32

/-- The replay record of a message delivered at commit(q) (R52). -/
def replayRecord (ctx : Nat) (hseq : Word) (port q : Nat) : List Word :=
  [hseq, word (port % 65536 + ctx * 2 ^ 16), word q, word (q / 2 ^ 32)]

/-- The messages in a context's mailbox for ports of the domain. -/
def mailbox (s : State) (d c : Nat) : List (Word × Nat × Word × Word) :=
  (ctxOf s c).inbox.filter fun m => hostEnters s d c m.2.1

/-- The messages that a context's regions have room to record, on the die of their port (R428).
(DESIGN CHOICE, log 100). -/
def roomFor (s : State) (d c : Nat) : List (Word × Nat × Word × Word) :=
  (List.range 4).flatMap fun die => ((mailbox s d c).filter fun m => m.2.1 / 16384 = die).take (replayRoom s c die)

/-- Host messages that enter at the domain's next commit: context, hseq, port, words. While a replay runs, the recorded ones
of that quantum instead of the mailbox (R51); else as many as there is room to record (R428). (DEDUCED, log 71). -/
def hostMessages (s : State) (d : Nat) : List (Nat × Word × Nat × Word × Word) :=
  (domCtxs s d).flatMap fun c =>
    match (ctxOf s c).playback with
    | some rs =>
      (rs.filter fun r => hostEnters s d c (recordPort r.1) && decide (recordQuantum r.1 ≤ domNext s d)).map fun r =>
        (c, r.1.getD 0 0, recordPort r.1, r.2)
    | none => ((mailbox s d c).filter (roomFor s d c).contains).map fun m => (c, m)

/-- A replay still has messages for ports of the domain. -/
def replayWaits (s : State) (d : Nat) : Bool :=
  (domCtxs s d).any fun c => (ctxOf s c).playback.any fun rs => rs.any fun r => hostEnters s d c (recordPort r.1)

/-- A `PHWAIT` whose phaser has been freed waits for the next commit (R370). -/
def freedWait (s : State) (d : Nat) : Bool :=
  s.groups.any fun (_, grp) =>
    ((Table.find s.tasks grp.task).bind (taskDom s)) = some d &&
      grp.splits.any fun (_, sp) =>
        match sp.phaserWait with
        | some (ph, _) => (match Table.find s.phasers ph with | some p => p.freed | none => true)
        | none => false

/-- Tasks that retire in commit(q). -/
def retiring (s : State) (d q : Nat) : List (Nat × Task) :=
  s.tasks.filter fun (_, k) =>
    taskDom s k = some d &&
      (match k.retired with | some r => decide (r ≤ q) && (k.rooted.isSome || earlierDone s d k (some q)) | none => false)

/-- A domain in which nothing is counted has work that needs a commit. (DEDUCED, log 83). -/
def workWaits (s : State) (d : Nat) (dom : Domain) : Bool :=
  !dom.join.isEmpty || !dom.derived.isEmpty || !dom.reports.isEmpty || !dom.late.isEmpty ||
    (s.effects.any fun e => e.dom = d && (timeQuantum s d dom.q e.task e.time).isSome) ||
    (s.tasks.any fun (_, k) => taskDom s k = some d && k.retired.isSome && (k.rooted.isSome || earlierDone s d k (some dom.next))) ||
    !(hostMessages s d).isEmpty || replayWaits s d || freedWait s d ||
    (domTeams s d).any fun (_, tm) => tm.colls.any fun c => c.quantum.isSome && !c.finished

/-- Replies of a context of the domain wait for space in a reply ring: step 4 waits for it (R348).
(DEDUCED, log 68). -/
def ringFull (s : State) (d : Nat) : Bool :=
  (domCtxs s d).any fun c =>
    !(ctxOf s c).replies.isEmpty &&
      (match replyFn s c with | some (_, fn) => (ringSize fn.rrsize).isSome | none => false)

/-- Commit(q) can begin for `q` the domain's next (R45): M has passed it, engines have made their writes of it, and no
other domain has to be joined first. (DEDUCED, log 68). (DEDUCED, log 83). -/
def commitReady (s : State) (d : Nat) : Bool :=
  match Table.find s.doms d with
  | none => false
  | some dom =>
    let q := dom.next
    let passed := match domMinimum s d with
      | some m => decide ((q + 1) * dom.q ≤ m)
      | none => workWaits s d dom
    let busy := s.cmds.any fun (_, c) =>
      !c.finished && (match c.body with | .waits => false | _ => true) &&
        ((Table.find s.tasks c.task).bind (taskDom s)) = some d &&
        (match timeQuantum s d dom.q c.task c.time with | some k => decide (k ≤ q) | none => false)
    passed && !busy && !ringFull s d && !(dom.join.any fun j => decide (j.2 ≤ q))

/-- The order of effects within a step (R46, R47). -/
def effOrder (a b : Effect) : Bool := decide (a.key < b.key) || (a.key = b.key && decide (a.prog ≤ b.prog))

/-! ### Step 1 -/

/-- A timestamped task that an applied write of a smaller key meets in its read signature is aborted and starts again at
the commit's boundary (R309). (DEDUCED, log 84). -/
def abortReaders (s : State) (d key start va n : Nat) : State :=
  let ls := (linesOf va n).map signatureBits
  let hit := s.tasks.filter fun (_, k) =>
    k.ts ≠ 0 && k.rooted.isNone && k.placed && taskDom s k = some d && decide (key / 2 ^ 32 < taskKey k) &&
      ls.any fun bs => bs.all fun b => k.sig.contains b
  hit.foldl (fun s (m, _) => updTask (abortTask s m) m fun k => { k with start }) s

/-- Stores the pieces of a global write. -/
def storePieces (s : State) (ps : List (Nat × Nat × List Byte)) : State :=
  ps.foldl (fun s (pa, key, bs) => storeGlobal s key pa bs) s

/-- An effect of a task that retires unrooted, whose whole write set applies at step 1 (R46, R307). -/
def unrootedEffect (s : State) (e : Effect) : Bool := (Table.find s.tasks e.task).any fun k => k.rooted.isNone

/-- The bytes of a write's pieces that no piece of `cuts` covers, as runs: virtual address, physical address, key, bytes. -/
def uncovered (cuts : List (Nat × Nat)) (va : Nat) (ps : List (Nat × Nat × List Byte)) : List (Nat × Nat × Nat × List Byte) :=
  let bytes := (ps.foldl (fun (r : List (Nat × Nat × Nat × Byte) × Nat) p =>
    (r.1 ++ ((List.range p.2.2.length).zip p.2.2).map fun (i, b) => (r.2 + i, p.1 + i, p.2.1, b), r.2 + p.2.2.length)) ([], va)).1
  let left := bytes.filter fun b => !(cuts.any fun c => decide (c.1 ≤ b.2.1) && decide (b.2.1 < c.1 + c.2))
  (left.foldl (fun (runs : List (Nat × Nat × Nat × List Byte)) b =>
    match runs with
    | r :: rs =>
      if r.1 + r.2.2.2.length = b.1 && r.2.1 + r.2.2.2.length = b.2.1 && r.2.2.1 = b.2.2.1
      then (r.1, r.2.1, r.2.2.1, r.2.2.2 ++ [b.2.2.2]) :: rs
      else (b.1, b.2.1, b.2.2.1, [b.2.2.2]) :: runs
    | [] => [(b.1, b.2.1, b.2.2.1, [b.2.2.2])]) []).reverse

/-- The physical ranges of the writes among `es` that come later in the program order of an effect's issuer. -/
def laterWrites (es : List Effect) (f : Effect) : List (Nat × Nat) :=
  (es.filter fun e => e.group = f.group && e.line.contains f.split && decide (f.prog < e.prog)).flatMap fun e =>
    match e.body with | .write _ ps => ps.map fun p => (p.1, p.2.2.length) | _ => []

/-- Where a commit applies a write, the bytes of earlier writes of its line that it covers are past, also those whose own
commit is still to come: accesses of one agent take effect in program order (R56). (DEDUCED, log 45). -/
def dropCovered (s : State) (es : List Effect) : State :=
  { s with effects := s.effects.flatMap fun f =>
      match f.body with
      | .write va ps =>
        let cuts := laterWrites es f
        if ps.any fun p => cuts.any fun c => decide (c.1 < p.1 + p.2.2.length) && decide (p.1 < c.1 + c.2)
        then (uncovered cuts va ps).map fun r => { f with body := .write r.1 [(r.2.1, r.2.2.1, r.2.2.2)] }
        else [f]
      | _ => [f] }

/-- One write of step 1, or an atomic in the write set of an unrooted task (R307). `lines` are the multicast lines that this
package takes. An effect of a task that an earlier write has aborted is gone. -/
def stepWrite (d q qlen : Nat) (lines : List Nat) (s : State) (e : Effect) : State :=
  if !(s.effects.any fun f => f.prog = e.prog) || !effDue s d q qlen e then s
  else
    match e.body with
    | .write va ps =>
      abortReaders (storePieces s ps) d e.key ((q + 1) * qlen) va ((ps.map fun p => p.2.2.length).sum)
    | .mcst ws line _ _ =>
      if lines.contains e.prog then
        let (va, ps) := lineWrite s (ws.getD 1 0).toNat (ws.getD 3 0).toNat line
        abortReaders (storePieces s ps) d e.key ((q + 1) * qlen) va 256
      else s
    | .atom op ls none =>
      if unrootedEffect s e then
        ls.foldl (fun s l => abortReaders s d e.key ((q + 1) * qlen) l.2.2.2.2.2 (atomBytes op)) (applyAtom s e op ls none)
      else s
    | _ => s

/-- The effects of commit(q), in order. -/
def dueEffects (s : State) (d q qlen : Nat) : List Effect := sortBy effOrder (s.effects.filter (effDue s d q qlen))

/-! ### Retirement -/

/-- A task leaves its family, its launch and its context's count. -/
def retireTask (s : State) (k : Task) : State :=
  let s := updLaunch s k.launch fun l =>
    { l with liveTasks := l.liveTasks - 1
             families := Table.upd l.families k.family fun f => { f with live := f.live - 1 } }
  match Table.find s.launches k.launch with
  | some l => updCtx s l.ctx fun c => { c with live := c.live - 1 }
  | none => s

/-- The message to the done port of a family whose last member has retired (R314). -/
def doneMessage (s : State) (es : List Effect) (k : Task) : Option Msg :=
  match Table.find s.launches k.launch with
  | none => none
  | some l =>
    match Table.find l.families k.family with
    | none => none
    | some f =>
      let more := es.any fun e => e.launch = k.launch && (match e.body with | .spawn _ => true | _ => false)
      if f.live ≠ 0 then none
      else (recPort f.words 27).map fun p =>
        { ctx := l.ctx, port := p, w0 := word f.seq
          w1 := word ((if f.root then 1 else 0) + if l.liveTasks = 0 && !more then 2 else 0)
          tag := (f.ts * 2 ^ 64 + f.seq * 2 ^ 16 + 0x8000) * 2 ^ 32, byTask := true }

/-- The done messages of the tasks that retire, one for each family. -/
def doneMessages (s : State) (es : List Effect) (ks : List Task) : List Msg :=
  let firsts := ks.foldl (fun l k => if l.any fun (j : Task) => j.launch = k.launch && j.family = k.family then l else l ++ [k]) []
  firsts.filterMap (doneMessage s es)

/-! ### Steps 2 and 3 -/

/-- One atomic of step 2 (`ret` false) or step 3, but for those that step 1 has applied. -/
def stepAtom (ret : Bool) (s : State) (e : Effect) : State :=
  match e.body with
  | .atom op ls r => if r.isSome == ret && (ret || !unrootedEffect s e) then applyAtom s e op ls r else s
  | _ => s

/-! ### Step 4 (R332, R334, R335) -/

/-- What the firing of patterns is given at every point of a step 4. -/
structure Firing where
  d : Nat
  q : Nat
  qlen : Nat
  was : State
  ctxs : List Nat

/-- Fires until no pattern can. -/
def fire (f : Firing) (s : State) : State := fireAll checkRecord f.d f.q f.qlen f.was f.ctxs (heldCount s + 1) s

/-- The entry that a configuration block names. -/
def configEntry (kind : Nat) (ws : List Word) : Nat := (ws.getD (if kind = 2 then 1 else 0) 0).toNat % 65536

/-- The port whose owner hears of a dropped change: the configured port, or a pattern's first one (R341). -/
def configPort (s : State) (ctx kind : Nat) (ws : List Word) : Nat :=
  let num := configEntry kind ws
  if kind = 1 then (patPorts ws).headD 0
  else if kind = 2 && decide ((ws.getD 0 0).toNat < 2) then
    match patternAt s ctx num with | some t => t.ports.headD 0 | none => 0
  else num

/-- The launch that hears of a dropped change: the port's owner, or, where none lives, the configuring agent's.
(DESIGN CHOICE, log 64). -/
def configOwner (s : State) (l : Launch) (kind : Nat) (ws : List Word) : Launch :=
  ((portOwner s l.ctx (configPort s l.ctx kind ws)).map (·.2)).getD l

/-- The physical entry of a port or a pattern lies in another context's space too (R408). -/
def foreignEntry (s : State) (ctx kind num : Nat) : Bool :=
  let die := num / 16384
  let size := if kind = 0 then 16384 else 4096
  let entry := (if kind = 0 then physPort s ctx num else physPattern s ctx num).map (· % size)
  s.ctxs.any fun (c, x) =>
    let (first, n) :=
      if kind = 0 then (bits (Sparse.get 0 x.pspace die) 13 0, bits (Sparse.get 0 x.pspace die) 29 16)
      else (bits (Sparse.get 0 x.tspace die) 11 0, bits (Sparse.get 0 x.tspace die) 27 16)
    c ≠ ctx && entry.any fun e => decide ((e + size - first) % size < n)

/-- The status that a configuration change has when it applies (R332, R408). -/
def applyStatus (s : State) (ctx kind : Nat) (ws : List Word) : Nat :=
  let st := cfgStatus s ctx kind ws
  if st = 0 && decide (kind < 2) && foreignEntry s ctx kind (configEntry kind ws) then 2 else st

/-- One configuration change of commit(q). A continuation whose port it closes resumes (R346). (DEDUCED, log 86). -/
def stepConfig (d q qlen : Nat) (s : State) (e : Effect) : State :=
  match e.body, Table.find s.launches e.launch with
  | .config kind ws, some l =>
    if 3 ≤ kind then s
    else
      let num := configEntry kind ws
      let st := applyStatus s l.ctx kind ws
      if st ≠ 0 then portReport s d (some (configOwner s l kind ws)) 9 num (word st) e.key
      else
        -- the reader group of a poll port is the configuring group (R323)
        let gidx := e.key / 2 ^ 16 % 2 ^ 16
        let s := cfgApply s l.ctx l.num e.task gidx e.key kind ws
        if kind = 2 && ws.getD 0 0 = 2 then countFire s d l.ctx num else closedConts s q qlen
  | _, _ => s

/-- One `RECV` take of step 4. -/
def stepTake (s : State) (e : Effect) : State :=
  match e.body, Table.find s.launches e.launch with
  | .config 3 ws, some l => cfgApply s l.ctx l.num e.task 0 e.key 3 ws
  | _, _ => s

/-- One registration of a continuation. -/
def stepYield (s : State) (e : Effect) : State :=
  match e.body with
  | .yield id => registerCont { s with prog := s.prog + 1 } id s.prog
  | _ => s

/-- This package is a member of a group in a domain's view (R391). -/
def memberHere (s : State) (d g : Nat) : Bool :=
  (Table.find s.doms d).any fun dom => (groupMembers dom g).contains ownPeer

/-- The multicast lines that this package takes (R395): judged with the ports as the commit's configuration changes leave
them. -/
def takenLines (s : State) (d q qlen : Nat) : List Nat :=
  let es := dueEffects s d q qlen
  let v := es.foldl (stepConfig d q qlen) s
  es.filterMap fun e =>
    match e.body with
    | .mcst ws _ _ _ =>
      let g := (ws.getD 1 0).toNat
      if memberHere s d g && (ownResponse v qlen g (ws.getD 3 0).toNat).isNone then some e.prog else none
    | _ => none

/-- A launch that a message's port acts for is in a domain whose first common commit with this one comes after commit(q): the
number of the last such commit (R473). -/
def lateFor (s : State) (d q me ctx port : Nat) : Option Nat :=
  match Table.find s.doms d with
  | none => none
  | some dom =>
    (actsFor s s me ctx port).foldl (fun m l =>
      match dom.join.find? fun j => j.1 = l.dom && decide (q < j.2) with
      | some j => some (max j.2 (m.getD 0))
      | none => m) none

/-- A message that meets, at its commit(q), launches of domains that its issue has not joined joins them from their next
commit on (R395, R473). One with another quantum length is not joined. (DEDUCED, log 46). -/
def joinMet (s : State) (d q qlen me ctx port : Nat) : State :=
  (actsFor s s me ctx port).foldl (fun s l =>
    let known := (Table.find s.doms d).any fun dom => dom.join.any fun j => j.1 = l.dom
    if l.dom = d || known || recQ l.words ≠ qlen then s else joinAt s d l.dom (max (q + 1) (domNext s l.dom))) s

/-- Keeps a joining effect for the first common commit. -/
def keepLate (s : State) (d qc : Nat) (e : Effect) : State :=
  updDom s d fun dom => { dom with late := dom.late ++ [(qc, e)] }

/-- A message of step 4: from an agent's effect, or of the engines. -/
inductive Post where
  | send (e : Effect)
  | report (m : Msg)

/-- Tag and program order. -/
def Post.order : Post → Nat × Nat
  | .send e => (e.key, e.prog)
  | .report m => (m.tag, m.place)

/-- The context and port that an effect's message goes to, and its words. -/
def postOf (s : State) (e : Effect) : Option Msg :=
  match e.body with
  | .message port w0 w1 _ =>
    (Table.find s.launches e.launch).map fun l => { ctx := l.ctx, port, w0, w1, tag := e.key }
  | .mcst ws _ _ _ =>
    let r := receiveEntry s (ws.getD 1 0).toNat
    some { ctx := r.2.1, port := r.2.2.1, w0 := word ownPeer, w1 := ws.getD 3 0, tag := e.key }
  | _ => none

/-- Delivers an effect's message; the second part collects this package's responses to multicast lines. -/
def postEffect (f : Firing) (r : State × List (Nat × Nat)) (e : Effect) : State × List (Nat × Nat) :=
  let s := r.1
  match postOf s e with
  | none => r
  | some m =>
    match e.body with
    | .mcst ws _ _ _ =>
      if !memberHere s f.d (ws.getD 1 0).toNat then r
      else
      match ownResponse s f.qlen (ws.getD 1 0).toNat (ws.getD 3 0).toNat with
      | some c => (s, r.2 ++ [(e.prog, c)])
      | none =>
        let s := joinMet s f.d f.q f.qlen e.launch m.ctx m.port
        match lateFor s f.d f.q e.launch m.ctx m.port with
        -- the line is written; whether the port will be full is not known yet
        | some qc => (keepLate s f.d qc e, r.2 ++ [(e.prog, if bit (Config.lateStatus s.ticks) 0 then 4 else 0)])
        | none =>
          let (s, st, _) := deliverMsg s f.d m 0
          (fire f s, r.2 ++ [(e.prog, if st = 2 then 4 else 0)])
    | .message port _ _ sd =>
      let s := joinMet s f.d f.q f.qlen e.launch m.ctx port
      match lateFor s f.d f.q e.launch m.ctx port with
      | some qc => (keepLate (phaserStatus s e sd (Config.lateStatus s.ticks)) f.d qc e, r.2)
      | none =>
        let (s, st, trap) := deliverMsg s f.d m 0
        let s := phaserStatus s e sd (word st)
        let s := match sd, trap with
          | some _, some c => dueTrap s e (portTrap c (word port))
          | _, _ => s
        (fire f s, r.2)
    | _ => r

/-- Delivers one message of the engines. -/
def postReport (f : Firing) (s : State) (m : Msg) : State := fire f (deliverMsg s f.d m 0).1

/-- Delivers the messages tagged with agent keys, in order. -/
def postAll (f : Firing) (r : State × List (Nat × Nat)) (l : List Post) : State × List (Nat × Nat) :=
  l.foldl (fun r p =>
    match p with
    | .send e => postEffect f r e
    | .report m => (postReport f r.1 m, r.2)) r

/-- A message of a joining effect that reaches the other domain now. (DEDUCED, log 47). -/
def postLate (f : Firing) (s : State) (e : Effect) : State :=
  match postOf s e with
  | some m => postReport f s m
  | none => s

/-- One host message: accepted and recorded for replay when it names an open port that takes messages (R348, R52). A
replayed one is recorded already (R51). (DEDUCED, log 71). -/
def postHost (f : Firing) (s : State) (h : Nat × Word × Nat × Word × Word) : State :=
  let (ctx, hseq, port, w0, w1) := h
  let replayed := (ctxOf s ctx).playback.isSome
  let s := updCtx s ctx fun c =>
    match c.playback with
    | some rs => { c with playback := some (rs.filter fun r => r.1.getD 0 0 ≠ hseq) }
    | none => { c with inbox := c.inbox.filter fun m => m.1 ≠ hseq }
  let takes := match portAt s ctx port with | some p => p.isOpen && p.kind ≠ 3 | none => false
  if takes then
    let s := if replayed then s
      else updCtx s ctx fun c => { c with replay := c.replay ++ [replayRecord ctx hseq port f.q] }
    fire f (deliverMsg s f.d { ctx, port, w0, w1, tag := 0 } hseq).1
  else portReport s f.d ((portOwner s ctx port).map (·.2)) 2 port hseq 0

/-- A context whose mailbox holds more messages than its areas have room to record waits, and the control core hears of it
(R428, R429). (DESIGN CHOICE, log 100). -/
def hostsWait (f : Firing) (s : State) (c : Nat) : State :=
  if (ctxOf f.was c).playback.isSome then s
  else ((mailbox f.was f.d c).filter fun m => !(roomFor f.was f.d c).contains m).foldl
    (fun s m => areaFull s c (m.2.1 / 16384)) s

/-- Step 4: this package's responses to multicast lines beside the state. -/
def step4 (f : Firing) (s : State) (es : List Effect) (done : List Msg) : State × List (Nat × Nat) :=
  match Table.find s.doms f.d with
  | none => (s, [])
  | some dom =>
    let hosts := hostMessages f.was f.d
    let lates := (dom.late.filter fun l => decide (l.1 ≤ f.q)).map (·.2)
    let s := updDom s f.d fun dom => { dom with derived := [], reports := [] }
    let s := es.foldl (stepConfig f.d f.q f.qlen) s
    let s := es.foldl stepTake s
    let s := es.foldl stepYield s
    let s := fire f (closedConts s f.q f.qlen)
    let s := dom.derived.foldl (postReport f) s
    let keyed := (es.map Post.send) ++ ((dom.reports.filter fun m => !m.byTask).map Post.report)
    let r := postAll f (s, []) (sortBy (fun a b => !pairLt b.order a.order) keyed)
    let tasks := sortBy (fun (a b : Msg) => decide (a.tag ≤ b.tag)) ((dom.reports.filter (·.byTask)) ++ done)
    let s := tasks.foldl (postReport f) r.1
    let s := lates.foldl (postLate f) s
    (f.ctxs.foldl (hostsWait f) (hosts.foldl (postHost f) s), r.2)

/-! ### Step 5 -/

/-- The first common commit of a domain that shares a phaser with this one and is not joined yet at commit(q).
(DEDUCED, log 47). -/
def lateReg (s : State) (d q : Nat) (e : Effect) (ph : Nat) : Option Nat :=
  match Table.find s.doms d, Table.find s.launches e.launch with
  | some dom, some l =>
    (dom.join.find? fun j => decide (q < j.2) &&
      s.launches.any fun (n, m) =>
        !m.ended && !m.waiting && m.ctx = l.ctx && m.dom = j.1 && usesPhaser s n m ph).map (·.2)
  | _, _ => none

/-- A registration that joins domains waits for their first common commit; its issuer goes on. -/
def splitLate (d q : Nat) (r : State × List Effect) (e : Effect) : State × List Effect :=
  match e.body with
  | .phreg ph kind party role rank sd =>
    match lateReg r.1 d q e ph with
    | some qc =>
      let s := phaserStatus r.1 e sd (Config.lateStatus r.1.ticks)
      (keepLate s d qc { e with body := .phreg ph kind party role rank none }, r.2)
    | none => (r.1, r.2 ++ [e])
  | _ => (r.1, r.2 ++ [e])

/-- A bound candidate that a hold has kept back takes the time of the commit that applies it (R369). -/
def boundTime (q qlen : Nat) (e : Effect) : Effect :=
  match e.body with
  | .phsig ph kind party (some (t, pay)) true sd =>
    if t / qlen < q then { e with body := .phsig ph kind party (some (q * qlen, pay)) true sd } else e
  | _ => e

/-- A join party's drop when its launch's last task has retired (R359). -/
def joinDrop (d q qlen l ph : Nat) : Effect :=
  { dom := d, launch := l, task := 0, team := 0, group := 0, split := 0, key := 0, prog := 0, time := some (q * qlen)
    body := .phdrop ph 2 l none }

/-- The launches of a domain that have no task left, nor one about to be created. -/
def finishedLaunches (s : State) (d : Nat) (es : List Effect) : List Nat :=
  let firings := match Table.find s.doms d with | some dom => dom.firings | none => []
  s.launches.filterMap fun (n, l) =>
    let more := (es.any fun e => e.launch = n && (match e.body with | .spawn _ => true | _ => false)) ||
      firings.any fun f => f.2.1 = n
    if l.dom = d && !l.ended && !l.waiting && l.liveTasks = 0 && !more then some n else none

/-- Step 5. -/
def step5 (s : State) (d q qlen : Nat) (es late : List Effect) : State :=
  let (s, es') := es.foldl (splitLate d q) (s, [])
  let late := late.filter fun e => match e.body with | .phreg .. | .phdrop .. => true | _ => false
  let ended := finishedLaunches s d es
  let drops := ended.flatMap fun l =>
    ((partyOf s 2 l ++ (late ++ es').filterMap (regOf 2 l)).eraseDups).map (joinDrop d q qlen l)
  let s := ended.foldl (fun s l => lateDrops s 2 l (q * qlen)) s
  commitPhasers s d (sortBy effOrder (late ++ es'.map (boundTime q qlen)) ++ drops)

/-! ### Steps 6 and 7 -/

/-- One posted window write (R65): dropped when its team has ended before it applies. One made in the current epoch leaves
what reads of that epoch see (R64). -/
def stepWindow (qlen : Nat) (s : State) (e : Effect) : State :=
  match e.body with
  | .window t off bs =>
    match Table.find s.teams t with
    | none => s
    | some tm =>
      let bound := ((e.time.getD 0) / qlen + 1) * qlen
      if tm.exited && decide (tm.lastExit < bound) then s
      else
        windowLand s e.task t ((e.time.getD 0) / qlen) off bs
  | _ => s

/-- One creation by `TASK`. -/
def stepSpawn (start : Nat) (s : State) (e : Effect) : State :=
  match e.body with
  | .spawn ws =>
    let seq := match Table.find s.tasks e.task with | some k => k.seq | none => e.key / 2 ^ 48 % 2 ^ 48
    spawnTask s e.launch ws start seq (some (e.key, e.prog)) []
  | _ => s

/-- Step 7: creations of step 1, then firings of step 4. -/
def step7 (s : State) (d start : Nat) (es : List Effect) : State :=
  let s := es.foldl (stepSpawn start) s
  let firings := match Table.find s.doms d with | some dom => dom.firings | none => []
  let s := updDom s d fun dom => { dom with firings := [] }
  firings.foldl (fun s (ws, l, sheaf) => spawnTask s l ws start 0 none sheaf) s

/-! ### Step 8 -/

/-- What an effect leaves to do once its commit is made: results and statuses of fabric commands. -/
def stepAfter (own : List (Nat × Nat)) (dom : Domain) (next : Nat) (s : State) (e : Effect) : State :=
  match e.body with
  | .status _ sd v =>
    match Table.find s.cmds e.cmd with
    | some c => finishCmd s e.cmd c (uniformOuts sd [v])
    | none => s
  | .mcst ws _ _ _ => finishMcst s e ws (Table.find own e.prog) (groupMembers dom (ws.getD 1 0).toNat) next
  | .gsync ws _ _ => finishGsync s e ws next
  | _ => s

/-- The tasks that have retired are gone with their teams and groups. -/
def removeTasks (s : State) (ns : List Nat) : State :=
  let gs := (s.groups.filter fun (_, grp) => ns.contains grp.task).map (·.1)
  { s with
    tasks := s.tasks.filter fun (n, _) => !ns.contains n
    teams := s.teams.filter fun (_, tm) => !ns.contains tm.task
    groups := s.groups.filter fun (_, grp) => !ns.contains grp.task
    conts := s.conts.filter fun (_, c) => !gs.contains c.group
    cmds := s.cmds.filter fun (_, c) => !ns.contains c.task }

/-- Contexts that run without a live launch are free again. (DESIGN CHOICE, log 95). -/
def freeContexts (s : State) : State :=
  { s with ctxs := s.ctxs.map fun (n, c) =>
      if c.st = 1 && !(s.launches.any fun (_, l) => l.ctx = n && !l.ended) then (n, { c with st := 0 }) else (n, c) }

/-- Launches without tasks have ended. -/
def endLaunches (s : State) (d : Nat) : State :=
  freeContexts { s with launches := s.launches.map fun (n, l) =>
      if l.dom = d && !l.waiting && l.liveTasks = 0 then (n, { l with ended := true, old := [] }) else (n, l) }

/-- Raises the traps that waited for the commit, each before its split's next slot. (DEDUCED, log 63). -/
def raiseDue (s : State) (d : Nat) : State :=
  let ws := s.groups.flatMap fun (g, grp) =>
    if ((Table.find s.tasks grp.task).bind (taskDom s)) = some d then
      grp.splits.filterMap fun (x, sp) => if sp.due.isEmpty then none else some (g, x, sp.due)
    else []
  ws.foldl (fun s (g, x, ts) =>
    ts.foldl (fun s t => raise s g x t) (updSplit s g x fun sp => { sp with due := [] })) s

/-- A task of the domain. -/
def inDomain (s : State) (d n : Nat) : Bool := ((Table.find s.tasks n).bind (taskDom s)) = some d

/-- A row whose bytes that waited for a commit are read, and the bytes that its whole read, still to be made, takes from
them by virtual address. -/
def Row.readLate (s : State) (r : Row) (ovl : Sparse Byte) : Row × Sparse Byte :=
  r.late.foldl (fun (r, m) (o, pa, key, n) =>
    let bs := physRead s key pa n
    match r.data with
    | some old => ({ r with data := some (patch 0 old o bs), late := [] }, m)
    | none => ({ r with late := [] }, putBytes m (r.src + o) bs)) (r, ovl)

/-- A command makes the reads that waited for a commit; a read still to be made is of the state at issue. -/
def Cmd.readLate (s : State) (c : Cmd) : Cmd :=
  match c.body with
  | .copy opc ws rows serial q f entry refused =>
    let r := rows.foldl (fun (r : List Row × Sparse Byte) row =>
      let x := row.readLate s r.2
      (r.1 ++ [x.1], x.2)) ([], c.ovl)
    { c with
      after := none, ovl := r.2, old := if r.1.all fun r => r.data.isSome then [] else c.old
      body := .copy opc ws r.1 serial q f entry refused }
  | _ => { c with after := none }

/-- The words that a command's rows have waited for. -/
def Cmd.lateWords (c : Cmd) : List (Nat × Nat) :=
  match c.body with
  | .copy _ _ rows _ _ _ _ _ => rows.flatMap fun r => r.late.map fun l => (l.2.1, l.2.2.2)
  | _ => []

/-- Reads that waited for this commit are made, of memory as it stands now, and merge what they meet (R389, R380). -/
def releaseReads (s : State) (d q : Nat) : State :=
  let due (c : Cmd) : Bool := c.after.any fun k => decide (k ≤ q) && inDomain s d c.task
  let ws := (s.cmds.filter fun e => due e.2).flatMap fun e => e.2.lateWords
  ws.foldl (fun s e => mergeWords s e.1 e.2)
    { s with cmds := s.cmds.map fun (n, c) => if due c then (n, c.readLate s) else (n, c) }

/-- Step 8: waits begin and end, results are given, what has ended leaves. -/
def step8 (s : State) (d q qlen : Nat) (es : List Effect) (own : List (Nat × Nat)) (gone : List Nat) : State :=
  let t := (q + 1) * qlen
  let s := updDom s d fun dom =>
    { dom with next := q + 1, late := dom.late.filter fun l => decide (q < l.1) }
  let s := es.foldl beginWait s
  let s := releaseWhere s (fun grp => inDomain s d grp.task)
    (fun m => match m with | .commit k => decide (k ≤ q) | _ => false) t
  let s := settleWaiters s d t
  let s := match Table.find s.doms d with | some dom => es.foldl (stepAfter own dom t) s | none => s
  let s := releaseReads s d q
  let s := raiseDue s d
  let s := endLaunches (removeTasks s gone) d
  settleJoins (wakeStalled s) d

/-! ### The commit -/

/-- Commit(q) of a domain whose next commit it is. -/
def commitDomain (s : State) (d : Nat) : State :=
  match Table.find s.doms d with
  | none => s
  | some dom =>
    let q := dom.next
    let qlen := dom.q
    let f : Firing := ⟨d, q, qlen, s, domCtxs s d⟩
    let late := (dom.late.filter fun l => decide (l.1 ≤ q)).map (·.2)
    let lines := takenLines s d q qlen
    let s := dropCovered s (dueEffects s d q qlen)
    let s := (dueEffects s d q qlen).foldl (stepWrite d q qlen lines) s
    let es := dueEffects s d q qlen
    let s := { s with effects := s.effects.filter fun e => !(es.any fun f => f.prog = e.prog) }
    let gone := retiring s d q
    let s := gone.foldl (fun s k => retireTask s k.2) s
    let done := doneMessages s es (gone.map (·.2))
    let s := es.foldl (stepAtom false) s
    let s := es.foldl (stepAtom true) s
    let (s, own) := step4 f s es done
    let s := step5 s d q qlen es late
    let s := commitColls (es.foldl (stepWindow qlen) s) d q qlen
    let s := step7 s d ((q + 1) * qlen) es
    step8 s d q qlen es own (gone.map (·.1))

/-- COMMIT: the next commit of domain `a`, when it can begin. -/
def execCommit (s : State) : Host.Outcome State Fault Refusal :=
  if commitReady s s.arg.a then .next (commitDomain s s.arg.a) else .next s

end Sys2Proof.Machine
end

