-- ==== Sys2Proof/Machine/Debug.lean ====
section
/-!
DEFINITION. The debug unit (14_debug_unit R435-R453): the comparator registers, halts and dispositions, steps, the access
window and the profile samples.
-/

namespace Sys2Proof.Machine

/-- System register `n` of a die, where it is a plain one. -/
def sysGet (s : State) (d n : Nat) : Word := Sparse.get 0 (coreOf s d).sys n

/-- Sets a plain system register. -/
def sysSet (s : State) (d n : Nat) (v : Word) : State :=
  updCore s d fun c => { c with sys := Sparse.set 0 c.sys n v }

/-- The group that is resident in a slot of a core: neither ended nor parked. -/
def residentGroup (s : State) (die core slot : Nat) : Option (Nat × Group) :=
  s.groups.find? fun (_, grp) =>
    !grp.exited && !grp.parked && grp.slot = slot &&
      (match Table.find s.teams grp.team with | some tm => tm.die = die && tm.core = core | none => false)

/-- The split in table entry `e`, or at position e − 4 of the split stack. -/
def entrySplit (grp : Group) (e : Nat) : Option (Nat × Split) :=
  if e < 4 then grp.splits.find? fun p => p.2.entry = some e
  else (grp.stack[e - 4]?).bind fun x => (Table.find grp.splits x).map fun sp => (x, sp)

/-- The table split with the lowest key, or the lowest of all where the table is empty. (DEDUCED, log 104). -/
def tableSplit (grp : Group) : Option (Nat × Split) :=
  (leastBy (fun (a b : Nat × Split) => decide (a.2.klane < b.2.klane)) (grp.splits.filter fun p => p.2.entry.isSome)).orElse
    fun _ => lowestSplit grp

/-! ### Comparator registers (R435, R443) -/

/-- The words of a comparator of each kind, and how many there are of it in a core. -/
def compShape (kind : Nat) : Nat × Nat :=
  match kind with | 0 => (2, 8) | 1 => (5, 4) | 2 => (3, 16) | _ => (0, 0)

/-- The comparators of a kind. -/
def Comparators.set (c : Comparators) (kind : Nat) : Sparse (List Word) :=
  match kind with | 0 => c.pc | 1 => c.global | _ => c.loc

/-- Word `k` of the comparator that DCSEL selects. -/
def compRead (s : State) (d k : Nat) : Word :=
  let sel := sysGet s d 560
  let (words, count) := compShape (bits sel 9 8)
  if decide (k < words) && decide (bits sel 14 10 < count) && decide (bits sel 6 0 < 96) then
    (Sparse.get [] ((compsOf s d (bits sel 6 0)).set (bits sel 9 8)) (bits sel 14 10)).getD k 0
  else 0

/-- Writes word `k` of the selected comparator. -/
def compWrite (s : State) (d k : Nat) (v : Word) : State :=
  let sel := sysGet s d 560
  let kind := bits sel 9 8
  let n := bits sel 14 10
  let (words, count) := compShape kind
  if decide (k < words) && decide (n < count) && decide (bits sel 6 0 < 96) then
    let c := compsOf s d (bits sel 6 0)
    let old := Sparse.get [] (c.set kind) n
    let new := ((List.range words).map fun i => old.getD i 0).set k v
    let put (m : Sparse (List Word)) : Sparse (List Word) := Sparse.set [] m n new
    let c := match kind with
      | 0 => { c with pc := put c.pc }
      | 1 => { c with global := put c.global }
      | _ => { c with loc := put c.loc }
    { s with comps := Table.put s.comps (d * 128 + bits sel 6 0) c }
  else s

/-! ### Halts and dispositions (R440, R441, R444-R447) -/

/-- A halt request for the team that holds a group slot (R446). -/
def haltRequest (s : State) (die core slot : Nat) : State :=
  match residentGroup s die core slot with
  | none => s
  | some (_, grp) =>
    let xs := (teamSplits s grp.team).filter fun (g, _, _) =>
      match Table.find s.groups g with | some h => !h.parked | none => false
    let key (e : Nat × Nat × Split) : Nat × Nat :=
      (e.2.2.clock, (((Table.find s.groups e.1).map (·.gidx)).getD 0) * 96 + e.2.2.klane)
    match leastBy (fun a b => pairLt (key a) (key b)) xs with
    | none => s
    | some (g, x, _) => takeTrap s g x { cls := 12, cause := 6 }

/-- The agent key that a record names (R417). -/
def recordKey (ws : List Word) : Nat :=
  let g (i : Nat) : Nat := (ws.getD i 0).toNat
  (g 11 + g 12 * 2 ^ 32 + g 13 * 2 ^ 64) * 2 ^ 32 + g 14 % 2 ^ 16 * 2 ^ 16 + g 14 / 2 ^ 16

/-- Terminates the team of a record (R426): the fault port hears class, cause and %tidx, and the pc.
(DEDUCED, log 93). -/
def terminateRecord (s : State) (r : Record) : State :=
  let w := r.words.getD 0 0
  terminateTeam s r.team (word (bits w 15 0 + bits (r.words.getD 15 0) 15 0 * 2 ^ 16)) (r.words.getD 1 0)
    (recordKey r.words)

/-- A record's team still holds its trap. -/
def recordLive (s : State) (r : Record) : Bool :=
  match Table.find s.teams r.team with
  | some tm => !tm.exited && tm.traps.any fun h => h.id = r.trap
  | none => false

/-- Where the split of a debug record goes on: at the record's rpc, or where it stands once the debugger has written its pc
(R450). -/
def debugPc (s : State) (r : Record) : Option Nat :=
  match heldTrap s r.team r.trap with
  | some h => if h.moved then none else some (r.words.getD 2 0).toNat
  | none => none

/-- Gives up the trap of a record without releasing the team: its split takes up the wait that the trap met.
(DEDUCED, log 102). -/
def giveUp (s : State) (r : Record) : State :=
  dropTrap (updSplit s r.group r.split fun sp =>
    if sp.mode = .ready then { sp with mode := sp.saved.getD .ready, saved := none } else sp) r.team fun h => h.id = r.trap

/-- Holds a team: the record is gone, and the next debug record of the team is queued (R445). (DEDUCED, log 102). -/
def holdTrap (s : State) (r : Record) : State :=
  let s := giveUp s r
  match Table.find s.teams r.team with
  | none => s
  | some tm => if (nextTrap s tm).any fun h => h.trap.cls = 12 then serveTraps s r.team else s

/-- Answers a debug record with resume: a user handler that the stop met runs on once no other DEBUG stop of the team is
left, and the stopped slot's next issue skips the comparators that stopped it, unless the debugger has moved the split
elsewhere (R441). (DEDUCED, log 26). (DEDUCED, log 102). -/
def resumeDebug (s : State) (r : Record) : State :=
  let cause := bits (r.words.getD 0 0) 15 8
  let s := updTeam s r.team fun tm =>
    { tm with stopped := tm.stopped && tm.traps.any fun h => h.trap.cls = 12 && h.id ≠ r.trap }
  updSplit (resumeTrap s r.team r.trap (debugPc s r)) r.group r.split fun sp =>
    if splitPc sp = (r.words.getD 2 0).toNat then
      { sp with skipPc := sp.skipPc || cause = 1, skipWatch := sp.skipWatch || cause = 2 || cause = 3 }
    else sp

/-- Answers a debug record with a step of the split in an entry of a group slot of the held team (R447). The stopped split
itself goes on at its rpc. One that waits queues its record at once. -/
def stepDebug (s : State) (r : Record) (slot entry : Nat) : State :=
  let hit := s.groups.find? fun (_, grp) => grp.team = r.team && !grp.exited && !grp.parked && grp.slot = slot
  match hit.bind fun (g, grp) => (grp.splits.find? fun p => p.2.entry = some entry).map fun p => (g, p.1) with
  | none => holdTrap s r
  | some (g, x) =>
    let held := giveUp s r
    let s := match if g = r.group && x = r.split then debugPc s r else none with
      | some pc => updSplit held g x fun sp => continueAt sp sp.clause pc
      | none => held
    match whoOf s g x with
    | none => s
    | some w =>
      if w.sp.mode.lasting then takeTrap s g x { cls := 12, cause := 5, d0 := 1 }
      else updSplit s g x fun sp => { sp with step := true }

/-- Applies a disposition of DQACT to a record (R445). -/
def debugAct (s : State) (r : Record) (v : Word) : State :=
  if !recordLive s r then s
  else
    match bits v 2 0 with
    | 0 => resumeDebug s r
    | 1 => stepDebug s r (bits v 13 8) (bits v 17 16)
    | 2 => terminateRecord s r
    | _ => holdTrap s r

/-- A write to DQACT: applied at once when the records are held for the debug port, otherwise at `ERET`. -/
def dqactWrite (s : State) (d : Nat) (v : Word) : State :=
  match (coreOf s d).debugQ with
  | [] => s
  | r :: rest =>
    if 4 ≤ bits v 2 0 then s
    else if bit (sysGet s d 531) 0 then
      debugAct (updCore s d fun c => { c with debugQ := rest }) r v
    else updCore s d fun c => { c with debugQ := { r with act := some v } :: rest }

/-! ### The access window (R448, R449) -/

/-- A split's state code: a slot that waits for a commit or for an earlier barrier phase waits as one that has retired does
(R190, R230). -/
def splitState (grp : Group) (sp : Split) : Nat :=
  match if sp.mode = .ready then sp.saved.getD .ready else sp.mode with
  | .recon _ => 2
  | .commit _ | .stalled 8 => 3
  | .bar .. | .kbar .. | .phaser .. | .parked | .stalled 9 | .stalled 10 => 4
  | _ => if sp.atBarrier then 4 else if grp.halted then 5 else 1

/-- Word `k` of a split's item. -/
def splitWord (grp : Group) (sp : Split) (k : Nat) : Word :=
  match k with
  | 0 => word (splitPc sp)
  | 1 | 2 | 3 => maskWord sp.mask (k - 1)
  | 4 | 5 | 6 => maskWord sp.lanes (k - 4)
  | 7 => word sp.clock
  | 8 => word (sp.clock / 2 ^ 32)
  | 9 => sp.fps
  | 10 => word sp.calls.length
  | 11 => word sp.spill
  | 12 => word sp.klane
  | 13 => word (splitState grp sp)
  | _ => 0

/-- The atomic operation that a stripe's word names: its kinds of operands share a code (R448). -/
def stripeOp (how : Nat) : Nat := let k := how - 2; if k < 4 then k else if k < 7 then 4 else 5

/-- The stripe tracker's word for a stripe (R221): the records that may belong to the current b0 interval. -/
def stripeWord (tm : Team) (n : Nat) : Word :=
  let cur := (barOf tm 0).done + 1
  let rs := tm.stripes.filter fun r => r.stripe = n && r.meets (cur, cur)
  let owner := (rs.find? fun r => r.how = 1).map (·.group)
  let op := if owner.isSome then none else (rs.find? fun r => decide (2 ≤ r.how)).map (·.how)
  word (owner.getD 0xFFFF + (if op.isSome then 2 ^ 16 else 0) + (op.map stripeOp).getD 0 * 2 ^ 17 +
    (if rs.any fun r => r.how = 0 && owner ≠ some r.group then 2 ^ 20 else 0))

/-- A register of some split of the group is pending. -/
def groupPending (grp : Group) (kind reg : Nat) : Bool := grp.splits.any fun p => (pendOf p.2.pend kind reg).isSome

/-- The register of a split's item that may be pending: t0's words and %fps. -/
def splitReg (k : Nat) : Nat := if k = 9 then 1023 else if k ≤ 3 then k else 0

/-- An item of a group: none when it is reserved or the index is out of range; the flag says that its register is
pending. (DEDUCED, log 103). -/
def itemRead (s : State) (g : Nat) (grp : Group) (tm : Team) (item idx : Nat) : Option (Word × Bool) :=
  match item with
  | 0 => if 96 * 128 ≤ idx then none else some (laneRead grp (idx / 96) (idx % 96), groupPending grp 1 (idx / 96))
  | 1 =>
    if 1024 ≤ idx then none
    else
      let x := (tableSplit grp).map (·.1)
      -- s1-s3 and %fps are a split's own (R160)
      let own := idx ≤ 3 || idx = 1023
      let pends := if own then (tableSplit grp).any fun p => (pendOf p.2.pend 0 idx).isSome else groupPending grp 0 idx
      some (((x.bind fun x => whoOf s g x).map fun w => groupRead w idx).getD 0, idx ≠ 0 && pends)
  | 2 => if idx = 0 then some (grp.mode, false) else none
  | 3 =>
    match entrySplit grp (idx / 16) with
    | some (_, sp) =>
      some (splitWord grp sp (idx % 16), splitReg (idx % 16) ≠ 0 && (pendOf sp.pend 0 (splitReg (idx % 16))).isSome)
    | none => if idx / 16 < 4 then some (0, false) else none
  | 4 => if idx < 12 then some (word (flagOf grp idx), false) else none
  | 5 =>
    if 48 ≤ idx then none
    else
      let b := barOf tm (idx / 3)
      some (match idx % 3 with | 0 => b.cfg | 1 => word b.done | _ => word (groupArrivals grp (idx / 3)), false)
  | 6 => if idx < 4096 then some (stripeWord tm idx, false) else none
  | 7 => if idx < 16 then some (grp.side.getD idx 0, false) else none
  | 8 =>
    match entrySplit grp (idx / 32) with
    | some (_, sp) => (sp.calls.reverse[idx % 32]?).map fun v => (v, false)
    | none => none
  | _ => none

/-- Writes an item: the state and the status code. (DEDUCED, log 103). -/
def itemWrite (s : State) (g : Nat) (grp : Group) (tm : Team) (item idx : Nat) (v : Word) : State × Nat :=
  match itemRead s g grp tm item idx, item with
  | none, _ => (s, 3)
  | some (_, pending), 0 =>
    if grp.vcount ≤ idx / 96 then (s, 3)
    else if pending then (s, 1)
    else (updGroup s g fun grp => vecWrite grp (idx / 96) (fun l => l = idx % 96) fun _ => v, 0)
  | some (_, pending), 1 =>
    if decide (4 ≤ idx) && decide (idx ≤ 1007) || idx = 1023 then
      if pending then (s, 1)
      else match tableSplit grp with | some (x, _) => (groupWrite s g x idx v, 0) | none => (s, 3)
    else (s, 5)
  | some _, 2 => if modeIllegal v then (s, 3) else (updGroup s g fun grp => { grp with mode := v }, 0)
  | some (_, pending), 3 =>
    let k := idx % 16
    match entrySplit grp (idx / 16) with
    | none => (s, 3)
    | some (x, _) =>
      if k = 0 then
        if v.toNat % 4 ≠ 0 then (s, 3)
        else
          let s := updTeam s grp.team fun tm => { tm with traps := tm.traps.map fun (h : HeldTrap) =>
            if h.group = g && h.split = x then { h with moved := true } else h }
          (updSplit s g x fun sp => continueAt sp sp.clause v.toNat, 0)
      else if k ≤ 3 || k = 9 then
        if pending then (s, 1) else (groupWrite s g x (splitReg k) v, 0)
      else (s, 5)
  | some _, _ => (s, 5)

/-- An access of the window of a die: a read, or a write of a value. The status goes to DWSTAT. -/
def windowAccess (s : State) (d : Nat) (wr : Option Word) : State × Word :=
  let sel := sysGet s d 540
  match (residentGroup s d (bits sel 6 0) (bits sel 12 7)).filter fun e => e.2.halted with
  | none => (sysSet s d 542 2, 0)
  | some (g, grp) =>
    match Table.find s.teams grp.team with
    | none => (sysSet s d 542 2, 0)
    | some tm =>
      match wr with
      | none =>
        match itemRead s g grp tm (bits sel 16 13) (bits sel 31 17) with
        | none => (sysSet s d 542 3, 0)
        | some (v, pending) => (sysSet s d 542 (if pending then 4 else 0), v)
      | some v =>
        let r := itemWrite s g grp tm (bits sel 16 13) (bits sel 31 17) v
        (sysSet r.1 d 542 (word r.2), 0)

/-! ### Profile samples (R451) -/

/-- A sample of the next resident group of a core. (DEDUCED, log 104). -/
def takeSample (s : State) (die core : Nat) : State :=
  if !bit (sysGet s die 586) 0 then s
  else
    let gs := s.groups.filter fun (_, grp) =>
      !grp.exited && !grp.parked &&
        (match Table.find s.teams grp.team with | some tm => tm.die = die && tm.core = core | none => false)
    let from' := Sparse.get 0 (coreOf s die).sampled core
    let low (l : List (Nat × Group)) := leastBy (fun (a b : Nat × Group) => decide (a.2.slot < b.2.slot)) l
    match (low (gs.filter fun e => decide (from' ≤ e.2.slot))).orElse fun _ => low gs with
    | none => s
    | some (g, grp) =>
      let s := updCore s die fun c => { c with sampled := Sparse.set 0 c.sampled core (grp.slot + 1) }
      match (tableSplit grp).bind fun p => whoOf s g p.1 with
      | none => s
      | some w => profRecord s die w.launch.ctx (traceWords s w 1 (splitPc w.sp) (word (splitState grp w.sp)))

/-! ### The events of the unit -/

/-- PROFILE_SAMPLE: core `b` of die `a`. -/
def execProfileSample (s : State) : Host.Outcome State Fault Refusal := .next (takeSample s s.arg.a s.arg.b)

/-- DQACT_RESUME, on die `a`. -/
def execDqactResume (s : State) : Host.Outcome State Fault Refusal := .next (dqactWrite s s.arg.a 0)

/-- DQACT_STEP, on die `a`: group slot `b`, table entry `c`. -/
def execDqactStep (s : State) : Host.Outcome State Fault Refusal :=
  .next (dqactWrite s s.arg.a (word (1 + s.arg.b % 64 * 2 ^ 8 + s.arg.c % 4 * 2 ^ 16)))

/-- DQACT_TERMINATE, on die `a`. -/
def execDqactTerminate (s : State) : Host.Outcome State Fault Refusal := .next (dqactWrite s s.arg.a 2)

/-- DQACT_HOLD, on die `a`. -/
def execDqactHold (s : State) : Host.Outcome State Fault Refusal := .next (dqactWrite s s.arg.a 3)

/-- HALTREQ, on die `a`: core `b`, group slot `c`. -/
def execHaltreq (s : State) : Host.Outcome State Fault Refusal := .next (haltRequest s s.arg.a s.arg.b s.arg.c)

/-- DWDATA_ACCESS, on die `a`: a read, or a write of `value`. -/
def execDwdataAccess (s : State) : Host.Outcome State Fault Refusal := .next (windowAccess s s.arg.a s.arg.value).1

end Sys2Proof.Machine
end

