-- ==== Sys2Proof/Machine/Device.lean ====
section
/-!
DEFINITION. The device units (15_device R457-R472): events, reset and firmware, measurements, attestation, debug unlock,
checkpoint, links, power and lifetime counters; MACHINE faults (13_control_core R421).
-/

namespace Sys2Proof.Machine

/-- Changes the device units. -/
def updDev (s : State) (f : Device → Device) : State := { s with dev := f s.dev }

/-- Every context is free. -/
def allFree (s : State) : Bool := s.ctxs.all fun (_, c) => c.st = 0

/-! ### Lifecycle, identity, measurements (R461-R466) -/

/-- The lifecycle state in force. -/
def lifecycle (s : State) : Nat := if s.dev.debug then 3 else Config.fusedState.toNat

/-- LCSTATE. (DEDUCED, log 106). -/
def lcState (s : State) : Word := word (lifecycle s + 8 * Config.fusedState.toNat)

/-- No context and no key: BLANK and RETIRED. -/
def withoutKeys (s : State) : Bool := lifecycle s = 0 || lifecycle s = 4

/-- Contexts may run: in every state that has keys, in DEBUG once a new key stands in a slot (R466).
(DEDUCED, log 106). -/
def contextsAllowed (s : State) : Bool := !withoutKeys s && (!s.dev.debug || !s.dev.keys.isEmpty)

/-- FWSVN. -/
def fwSvn (s : State) : Nat := max Config.fwsvn.toNat s.dev.svn

/-- A measurement slot. -/
def msRead (s : State) (n : Nat) : List Byte := Sparse.get (List.replicate 32 0) s.dev.ms n

/-- Extends a measurement slot by a digest (R464). -/
def msExtend (s : State) (n : Nat) (d : List Byte) : State :=
  updDev s fun v => { v with ms := Sparse.set (List.replicate 32 0) v.ms n (sha256 (msRead s n ++ d)) }

/-- A write to MSSEL on a die: the slot is selected, and with extend set it is extended by the digest staged there, except
that such a write for ms0, ms1 or ms7 is ignored. -/
def msselWrite (s : State) (d : Nat) (v : Word) : State :=
  let n := bits v 2 0
  if !bit v 3 then sysSet s d 610 (word n)
  else if n < 2 || n = 7 then s
  else msExtend (sysSet s d 610 (word n)) n ((List.range 8).flatMap fun i => wordBytes (sysGet s d (611 + i)))

/-- DEVSTAT and the state that FSTAT shows (R460). -/
def haltedDies (s : State) : List Nat := (dies s).filter fun d => (coreOf s d).halted
def deviceState (s : State) : Nat := if (haltedDies s).isEmpty then s.dev.st else 4
def devStat (s : State) : Word :=
  word (deviceState s + 2 ^ 8 * ((haltedDies s).foldl (fun n d => n + 2 ^ d) 0))

/-- NONCE. -/
def nonceOf (s : State) : Word := s.dev.nonces.headD 0

/-- A value drawn for NONCE, unlike every earlier one, so that no token serves twice (R462, R468).
(DESIGN CHOICE, log 10). -/
def drawNonce (used : List Word) : Word :=
  (((List.range (used.length + 1)).map fun k => Config.nonce used.length + word k).find? fun n => !used.contains n).getD 0

/-! ### Attestation (R465) -/

/-- A write to ATTCMD. (DEDUCED, log 106). -/
def attestStart (s : State) : State :=
  let pa := (sysGet s 0 636).toNat + (sysGet s 0 637).toNat * 2 ^ 32
  let count := Config.signatureStart + s.dev.sigs
  let code (n : Nat) : State := updDev s fun v => { v with attstat := n }
  if Config.signatureKeys ≤ count then code 3
  else if memSize s < pa + 8192 then code 4
  else if withoutKeys s then code 5
  else if s.dev.quote.isSome then code 6
  else
    let covered := wordBytes 1 ++ wordBytes (lcState s) ++ leBytes 4 (fwSvn s) ++ leBytes 4 count ++
      leBytes 8 Config.devid.toNat ++ physRead s 0 pa 32 ++ (List.range 8).flatMap (msRead s)
    updDev s fun v => { v with attstat := 1, quote := some (covered, pa) }

/-- A signature as 5,076 bytes. -/
def signatureBytes (bs : List Byte) : List Byte := (bs ++ List.replicate 5076 0).take 5076

/-- The running quote is signed: the counter is persisted, the layout is written from buffer byte 64.
(DESIGN CHOICE, log 13). -/
def attestDone (s : State) : State :=
  match s.dev.quote with
  | none => s
  | some (covered, pa) =>
    let sig := signatureBytes (Config.identitySignature (Config.signatureStart + s.dev.sigs) covered)
    let s := storeCore s 0 (pa + 64) (covered ++ leBytes 4 5076 ++ sig)
    updDev s fun v => { v with quote := none, sigs := v.sigs + 1, attstat := 2 }

/-! ### Debug unlock and keys (R467, R468) -/

/-- The verdict on a token: its code. (DESIGN CHOICE, log 13). -/
def tokenCode (s : State) (token : List Byte) : Nat :=
  let w (i : Nat) : Word := bytesWord ((token.drop (4 * i)).take 4)
  let fused := Config.fusedState.toNat
  let keeps := (w 5).toNat % 2 = 0 && decide ((w 5).toNat < 8)
  if w 0 ≠ 1 || w 1 ≠ 3 || !keeps || w 7 ≠ 0 || token.length ≠ 32 + (w 6).toNat then 3
  else if !Config.authorityVerifies (token.take 32) (token.drop 32) then 4
  else if leNat ((token.drop 8).take 8) ≠ Config.devid.toNat then 5
  else if w 4 ≠ nonceOf s then 6
  else if !((fused = 1 || fused = 2) && bit (w 5) fused) then 7
  else 2

/-- UNLKCMD 1: verification starts on the token as it stands; one that leaves package memory is cut there. -/
def unlockVerify (s : State) (d : Nat) : State :=
  let pa := (sysGet s d 604).toNat + (sysGet s d 605).toNat * 2 ^ 32
  let n (k : Nat) : Nat := min k (memSize s - pa)
  let siglen := leNat (physRead s 0 (pa + 24) (n 28 - n 24))
  updDev s fun v => { v with unlkstat := 1, token := physRead s 0 pa (n (32 + siglen)) }

/-- The verification ends. -/
def unlockVerified (s : State) : State :=
  if s.dev.unlkstat = 1 then updDev s fun v => { v with unlkstat := tokenCode s v.token } else s

/-- UNLKCMD 2: DEBUG is entered, or a code says why not. -/
def unlockCommit (s : State) : State :=
  let code (n : Nat) : State := updDev s fun v => { v with unlkstat := n, token := [] }
  if s.dev.unlkstat ≠ 2 then code 11
  else if !allFree s then code 8
  else if !s.dev.keys.isEmpty then code 10
  else
    let s := msExtend s 7 (sha256 (s.dev.token.take 32))
    updDev s fun v => { v with unlkstat := 9, token := [], debug := true, nonces := drawNonce v.nonces :: v.nonces }

/-- UNLKCMD. -/
def unlkcmdWrite (s : State) (d : Nat) (v : Word) : State :=
  if v = 1 then unlockVerify s d else if v = 2 then unlockCommit s else s

/-- KWIPE. (DESIGN CHOICE, log 15). -/
def wipeKeys (s : State) : State :=
  if !allFree s then s
  else
    let s := updDev s fun v => { v with keys := [], keyGen := v.keyGen + 1 }
    { s with ctxs := s.ctxs.map fun (n, c) => (n, { c with kslot := c.kslot.filterMap fun e => if e.2 &&& 0xF = 0 then none else some (e.1, e.2 &&& 0xF) }) }

/-- KSLOT of a context on die `d`: a valid slot holds a key from then on, unless the lifecycle state allows none.
(DESIGN CHOICE, log 15). -/
def kslotWrite (s : State) (d ctx : Nat) (v : Word) : State :=
  let v := if withoutKeys s then v &&& 0xF else v &&& 0x1F
  let s := updCtx s ctx fun c => { c with kslot := Sparse.set 0 c.kslot d v }
  if bit v 4 && !s.dev.keys.contains (bits v 3 0) then
    updDev s fun u => { u with keys := u.keys ++ [bits v 3 0] }
  else s

/-! ### Checkpoint (R470) -/

/-- Package memory is lost: every byte is a free value. (DEDUCED, log 105). -/
def loseMemory (s : State) : State := { s with mem := [], enc := [], lost := s.lost + 1 }

/-- Bytes of half `n` of package memory. -/
def halfBytes (s : State) (n : Nat) : Nat := min (memSize s) ((n + 1) * 2 ^ 37) - min (memSize s) (n * 2 ^ 37)

/-- A write to CKPTCMD: a save, or a restore. (DESIGN CHOICE, log 107). -/
def checkpointStart (s : State) (d : Nat) (restore : Bool) : State :=
  if s.dev.ckptOp.isSome then s
  else if s.ctxs.any fun (_, c) => c.st = 1 || c.st = 2 then updDev s fun v => { v with ckptstat := 3 }
  else
    let at' (n : Nat) : Nat := (sysGet s d n).toNat + (sysGet s d (n + 1)).toNat * 2 ^ 32
    updDev s fun v => { v with ckptstat := 1, ckptOp := some (restore, at' 626, at' 628) }

/-- A host address over port `p`. -/
def portAddr (p a : Nat) : Nat := p * 2 ^ 64 + a % 2 ^ 64

/-- The host ports, and the number of Sweli ports (R3, R454). -/
def hostPorts (s : State) : List Nat := if s.chip then [0] else [0, 1]
def fabricPorts (s : State) : Nat := if s.chip then 12 else 48

/-- The halves that a checkpoint copies, each over the host port of its number: an SW9-C has one of both.
(DESIGN CHOICE, log 107). -/
def halves (s : State) : List Nat := hostPorts s

/-- Package memory goes to the host regions, each followed by its trailer. (DESIGN CHOICE, log 107). -/
def saveMemory (s : State) (dst : Nat → Nat) : State :=
  let half (n : Nat) : List Byte := physRead s 0 (n * 2 ^ 37) (halfBytes s n)
  let trailer := sha256 (half 0) ++ sha256 (half 1)
  (halves s).foldl (fun t n =>
    let h := Sparse.write 0 t.host (portAddr n (dst n)) (half n)
    { t with host := Sparse.write 0 h (portAddr n (dst n + 2 ^ 37)) trailer }) s

/-- Package memory comes back from the host regions; none when a digest does not match. (DESIGN CHOICE, log 107). -/
def restoreMemory (s : State) (src : Nat → Nat) : Option State :=
  let half (n : Nat) : List Byte := Sparse.read 0 s.host (portAddr n (src n)) (halfBytes s n)
  let trailer (n : Nat) : List Byte := Sparse.read 0 s.host (portAddr n (src n + 2 ^ 37)) 64
  let want := sha256 (half 0) ++ sha256 (half 1)
  if (halves s).all fun n => decide (trailer n = want) then
    some (memWrite (memWrite { s with enc := [] } 0 (half 0)) (2 ^ 37) (half 1))
  else none

/-- The checkpoint or the restore ends; it fails with a link that is down or `failed`. (DESIGN CHOICE, log 107). -/
def checkpointDone (s : State) (failed : Bool) : State :=
  match s.dev.ckptOp with
  | none => s
  | some (restore, a, b) =>
    let place (n : Nat) : Nat := if n = 0 then a else b
    let (s, code) :=
      if failed || (halves s).any s.dev.hostDown.contains then (if restore then loseMemory s else s, 4)
      else if restore then
        match restoreMemory s place with | some t => (t, 2) | none => (loseMemory s, 5)
      else (saveMemory s place, 2)
    queueEvent (updDev s fun v => { v with ckptOp := none, ckptstat := code }) 0 8 0 code

/-! ### Lifetime counters (R472) -/

/-- Counters of a kind. -/
def lifeKinds (kind : Nat) : Nat :=
  match kind with | 0 | 1 => 16 | 2 | 3 => 1024 | 4 => 48 | 5 => 2 | 6 => 1 | _ => 0

/-- A lifetime counter; a reserved kind or index reads 0. -/
def lifeRead (s : State) (kind idx : Nat) : Word :=
  if idx < lifeKinds kind then Sparse.get 0 s.dev.life (2 ^ 20 * kind + idx) else 0

/-- The counters are persisted. -/
def lifePersist (s : State) : State := updDev s fun v => { v with lifeKept := v.life, unkept := 0 }

/-- Counts once, saturating. -/
def lifeCount (s : State) (kind idx : Nat) : State :=
  if idx < lifeKinds kind then
    let k := 2 ^ 20 * kind + idx
    let n := word (min 0xFFFFFFFF ((Sparse.get 0 s.dev.life k).toNat + 1))
    updDev s fun v => { v with life := Sparse.set 0 v.life k n }
  else s

/-! ### Links (R390, R457) -/

/-- The die of a host port. (DEDUCED, log 108). -/
def portDie (port : Nat) : Nat := if port = 0 then 0 else 2

/-- Starts the writes of queued replies of every context. -/
def flushAll (s : State) : State :=
  (Table.keys s.ctxs).foldl (fun s c => flushReplies (ctxOf s c).replies.length s c) s

/-- Replies of a context in flight, from the first one on a function that `p` names, count as not written: they wait
again, and the rings' heads go back. -/
def unsend (p : Nat → Bool) (s : State) (ctx : Nat) : State :=
  let c := ctxOf s ctx
  let back := c.flight.dropWhile fun r => !p r.1
  let keep := c.flight.takeWhile fun r => !p r.1
  let s := back.foldr (fun r s => updFn s r.1 fun fn => { fn with rrhead := r.2.1 }) s
  updCtx s ctx fun c => { c with flight := keep, replies := back.map (·.2.2) ++ c.replies }

/-- A host link is lost: a reply in flight on it is not visible. (DEDUCED, log 108). -/
def hostLost (s : State) (port : Nat) : State :=
  let s := updDev s fun v => { v with hostDown := if v.hostDown.contains port then v.hostDown else v.hostDown ++ [port] }
  let s := (Table.keys s.ctxs).foldl (unsend fun f => f / 16 = port) s
  let s := queueEvent (flushAll s) (portDie port) 7 0 port
  -- a checkpoint over the link ends at once (R470)
  if (halves s).contains port then checkpointDone s true else s

/-- A Sweli link is taken down (R421 cause 4): an event, and no team is halted. Collectives in progress on trees that it
carries are aborted (R401). -/
def fabricLost (s : State) (port : Nat) : State :=
  let hit (c : Coll) : Bool := !c.finished && Config.treeLink (c.block.getD 1 0).toNat port
  let abort (t : Table Team) : Table Team := t.map fun (n, (tm : Team)) =>
    (n, { tm with colls := tm.colls.map fun c => if hit c then { c with aborted := true } else c })
  let s := { s with teams := abort s.teams, saved := s.saved.map fun v => { v with teams := abort v.teams } }
  let s := updDev s fun v => { v with linkDown := if v.linkDown.contains port then v.linkDown else v.linkDown ++ [port] }
  queueEvent s (if s.chip then 0 else port / 12 % 4) 4 0 port

/-! ### Uncorrectable errors (R421) -/

/-- A MACHINE fault of a team, in its split with the lowest group index and key lane. (DEDUCED, log 94). -/
def machineFault (s : State) (t cause : Nat) (addr : Nat) (only : Option Nat) : State :=
  let xs := (teamSplits s t).filter fun (g, _, _) => match only with | some k => g = k | none => true
  let key (e : Nat × Nat × Split) : Nat × Nat := (((Table.find s.groups e.1).map (·.gidx)).getD 0, e.2.2.klane)
  match leastBy (fun a b => pairLt (key a) (key b)) xs with
  | some (g, x, _) =>
    takeTrap s g x { cls := 15, cause, d0 := word addr, d1 := word (addr / 2 ^ 32) }
  | none => s

/-- An uncorrectable error. A global line's is met by what reads the line. (DEDUCED, log 94). -/
def machineError (s : State) (e : MachineError) (bank : Nat) : State :=
  let count (die : Nat) (s : State) : State := lifeCount s 3 (256 * die + bank)
  let dieOf (t : Nat) : Nat := ((Table.find s.teams t).map (·.die)).getD 0
  match e with
  | .scratchpad t a => count (dieOf t) (machineFault s t 1 a none)
  | .registerFile g =>
    match Table.find s.groups g with
    | some grp => count (dieOf grp.team) (machineFault s grp.team 2 0 (some g))
    | none => s
  | .globalLine pa =>
    count (pa / 2 ^ 36 % 4) (if s.bad.contains (pa / 256) then s else { s with bad := s.bad ++ [pa / 256] })
  | .link p => if p.toNat < fabricPorts s then fabricLost s p.toNat else s
  | .internal d =>
    (Table.keys (s.teams.filter fun (_, tm) => tm.die = d.toNat && !tm.exited)).foldl
      (fun s t => machineFault s t 5 0 none) s

/-! ### Reset and firmware (R458-R461) -/

/-- An image is accepted. (DESIGN CHOICE, log 12). -/
def imageAccepted (s : State) (image : List Byte) : Bool :=
  let h := Config.firmwareHeader (image.take 64)
  let payload := (image.drop 64).take h.length
  h.fmt = 1 && h.digest = sha256 payload &&
    Config.firmwareVerifies (image.take (64 + h.length)) (image.drop (64 + h.length)) &&
    decide (fwSvn s ≤ h.svn) && decide (h.svn < 64) && (lifecycle s ≠ 0 || Config.factorySigned image)

/-- Boots an accepted image from step 3 on. (DESIGN CHOICE, log 12). -/
def bootImage (s : State) (image : List Byte) : State :=
  let h := Config.firmwareHeader (image.take 64)
  let payload := (image.drop 64).take h.length
  let (off, len) := Config.supervisorPart payload
  let local' : Sparse Byte := Sparse.write 0 [] 0 (((payload.drop off).take len).take 0x40000)
  let s := msExtend (msExtend s 0 h.digest) 1 Config.configurationDigest
  let s := updDev s fun v => { v with st := 2, svn := if h.raises then max v.svn h.svn else v.svn }
  (dies s).foldl (fun s d => updCore s d fun c => { c with mem := local', running := true }) s

/-- Checks an image and boots it, or enters recovery. -/
def tryImage (s : State) (image : List Byte) : State :=
  if imageAccepted s image then bootImage s image else updDev s fun v => { v with st := 3 }

/-- Step 1 of a package reset: the boot ROM then runs, in state 1. What stands outside the package (host memory, flash,
switches), the fuses and the memory that no power loss clears stay; DRAM holds free values. (DEDUCED, log 105). -/
def resetState (s : State) : State :=
  let v := s.dev
  { script := s.script, actor := s.actor, arg := s.arg, ticks := s.ticks, fresh := s.fresh, prog := s.prog
    lost := s.lost + 1, chip := s.chip, host := s.host, flash := s.flash, gtab := s.gtab, trees := s.trees
    collN := s.collN, saved := s.saved
    dev :=
      { st := 1, sigs := v.sigs, nonces := drawNonce v.nonces :: v.nonces, svn := v.svn, keyGen := v.keyGen + 1, cap := v.cap
        life := v.lifeKept, lifeKept := v.lifeKept, hostDown := v.hostDown, linkDown := v.linkDown } }

/-! ### The events -/

/-- PACKAGE_RESET; with `a` not 0, the end of the boot ROM's check in state 1, which steps 2 to 5 of R458 follow.
(DEDUCED, log 105). -/
def execPackageReset (s : State) : Host.Outcome State Fault Refusal :=
  if s.arg.a = 0 then .next (resetState s)
  else if s.dev.st = 1 then .next (tryImage s s.flash)
  else .next s

/-- RECOVERY_IMAGE_SUBMIT: the bytes that the host has written to the recovery window. -/
def execRecoveryImageSubmit (s : State) : Host.Outcome State Fault Refusal :=
  if s.dev.st ≠ 3 then .next s
  else
    let image := s.arg.bytes
    let toFlash := imageAccepted s image && (Config.firmwareHeader (image.take 64)).toFlash
    .next (tryImage (if toFlash then { s with flash := image } else s) image)

/-- MEASUREMENT_EXTEND: a write of `value` to MSSEL of die `a` with extend set. -/
def execMeasurementExtend (s : State) : Host.Outcome State Fault Refusal :=
  .next (msselWrite s s.arg.a (s.arg.value.getD 0 ||| 8))

/-- ATTESTATION_QUOTE. -/
def execAttestationQuote (s : State) : Host.Outcome State Fault Refusal := .next (attestStart s)

/-- ATTESTATION_QUOTE_COMPLETE. -/
def execAttestationQuoteComplete (s : State) : Host.Outcome State Fault Refusal := .next (attestDone s)

/-- UNLOCK_VERIFY, from die `a`. -/
def execUnlockVerify (s : State) : Host.Outcome State Fault Refusal := .next (unlockVerify s s.arg.a)

/-- UNLOCK_VERIFY_COMPLETE. -/
def execUnlockVerifyComplete (s : State) : Host.Outcome State Fault Refusal := .next (unlockVerified s)

/-- UNLOCK_COMMIT. -/
def execUnlockCommit (s : State) : Host.Outcome State Fault Refusal := .next (unlockCommit s)

/-- KWIPE. -/
def execKwipe (s : State) : Host.Outcome State Fault Refusal := .next (wipeKeys s)

/-- CHECKPOINT_SAVE, from die `a`. -/
def execCheckpointSave (s : State) : Host.Outcome State Fault Refusal := .next (checkpointStart s s.arg.a false)

/-- CHECKPOINT_RESTORE, from die `a`. -/
def execCheckpointRestore (s : State) : Host.Outcome State Fault Refusal := .next (checkpointStart s s.arg.a true)

/-- CHECKPOINT_COMPLETE: `a` is not 0 when a link failed. -/
def execCheckpointComplete (s : State) : Host.Outcome State Fault Refusal := .next (checkpointDone s (s.arg.a ≠ 0))

/-- HOST_LINK_DOWN: port `a`. -/
def execHostLinkDown (s : State) : Host.Outcome State Fault Refusal :=
  if (hostPorts s).contains s.arg.a then .next (hostLost s s.arg.a) else .next s

/-- HOST_LINK_RETRAIN: port `a` retrains and is up; kind 5 counts it. -/
def execHostLinkRetrain (s : State) : Host.Outcome State Fault Refusal :=
  if (hostPorts s).contains s.arg.a then
    .next (flushAll (lifeCount (updDev s fun v => { v with hostDown := v.hostDown.filter (· ≠ s.arg.a) }) 5 s.arg.a))
  else .next s

/-- LINK_DOWN: Sweli port `a`. -/
def execLinkDown (s : State) : Host.Outcome State Fault Refusal :=
  if s.arg.a < fabricPorts s then .next (fabricLost s s.arg.a) else .next s

/-- SWELI_LINK_RETRAIN: Sweli port `a` has retrained; kind 4 counts it. -/
def execSweliLinkRetrain (s : State) : Host.Outcome State Fault Refusal :=
  if s.arg.a < fabricPorts s then .next (lifeCount s 4 s.arg.a) else .next s

/-- UNCORRECTABLE_ERROR: `err`, and the bank `b` that counts it. -/
def execUncorrectableError (s : State) : Host.Outcome State Fault Refusal := .next (machineError s s.arg.err s.arg.b)

/-- CORRECTED_ECC_EVENT: bank `b` of die `a`. -/
def execCorrectedEccEvent (s : State) : Host.Outcome State Fault Refusal :=
  .next (if (dies s).contains s.arg.a && s.arg.b < 256 then lifeCount s 2 (256 * s.arg.a + s.arg.b) else s)

/-- SUPPLY_DROOP on die `a`: DROOPCNT counts it (R471). (DEDUCED, log 109). -/
def execSupplyDroop (s : State) : Host.Outcome State Fault Refusal :=
  .next (sysSet s s.arg.a 632 (sysGet s s.arg.a 632 + 1))

/-- MANAGEMENT_CONTROLLER_CAP: `value` watts (R471). -/
def execManagementControllerCap (s : State) : Host.Outcome State Fault Refusal :=
  .next (updDev s fun v => { v with cap := s.arg.value })

/-- LIFETIME_SECOND_TICK: hottest junction `a` in thousandths of a degree, core rail `b` in millivolts. The counters are
persisted at least every 60 seconds. -/
def execLifetimeSecondTick (s : State) : Host.Outcome State Fault Refusal :=
  let s' := lifeCount (lifeCount s 0 (min 15 ((s.arg.a - 20000) / 8000))) 1 (min 15 ((s.arg.b - 600) / 25))
  let n := s.dev.seconds + 1
  let s' := updDev (if n = 3600 then lifeCount s' 6 0 else s') fun v => { v with seconds := n % 3600 }
  .next (if s.dev.unkept + 1 < 60 then updDev s' fun v => { v with unkept := v.unkept + 1 } else lifePersist s')

/-- LIFETIME_COUNTER_PERSIST. -/
def execLifetimeCounterPersist (s : State) : Host.Outcome State Fault Refusal :=
  .next (lifePersist s)

end Sys2Proof.Machine
end

