-- ==== Sys2Proof/Machine/Context.lean ====
section
/-!
DEFINITION. Contexts as units (13_control_core R428-R431): pre-emption, the end of a drain, the forced reset, and what
leaves the machine with a context.
-/

namespace Sys2Proof.Machine

/-- Tasks, teams and groups of a context. -/
def ctxTasks (s : State) (c : Nat) : Table Task :=
  s.tasks.filter fun (_, k) => ((Table.find s.launches k.launch).map (·.ctx)) = some c
def ctxTeams (s : State) (c : Nat) : Table Team :=
  let ks := Table.keys (ctxTasks s c)
  s.teams.filter fun (_, tm) => ks.contains tm.task
def ctxGroups (s : State) (c : Nat) : Table Group :=
  let ks := Table.keys (ctxTasks s c)
  s.groups.filter fun (_, grp) => ks.contains grp.task
def ctxCmds (s : State) (c : Nat) : Table Cmd :=
  let ks := Table.keys (ctxTasks s c)
  s.cmds.filter fun (_, k) => ks.contains k.task

/-- Live launches of a context. -/
def ctxLaunches (s : State) (c : Nat) : Table Launch := s.launches.filter fun (_, l) => l.ctx = c && !l.ended

/-- The teams, groups and launches of a context as parties: (kind, id). -/
def ctxParty (s : State) (c : Nat) (q : Party) : Bool :=
  match q.kind with
  | 0 => (Table.find (ctxGroups s c) q.id).isSome
  | 1 => (Table.find (ctxTeams s c) q.id).isSome
  | _ => (Table.find (ctxLaunches s c) q.id).isSome

/-- Records of a context's teams in a queue. -/
def ctxRecords (s : State) (c : Nat) (q : List Record) : List Record :=
  let ts := Table.keys (ctxTeams s c)
  q.filter fun r => ts.contains r.team

/-- What commits of a domain still keep for a context. -/
def dropFromDomain (s : State) (c : Nat) (dom : Domain) : Domain :=
  let ls := Table.keys (ctxLaunches s c)
  { dom with
    derived := dom.derived.filter fun m => m.ctx ≠ c
    reports := dom.reports.filter fun m => m.ctx ≠ c
    late := dom.late.filter fun e => !ls.contains e.2.launch
    firings := dom.firings.filter fun f => !ls.contains f.2.1
    joinSigs := dom.joinSigs.filter fun j => !ls.contains j.2 }

/-- Every resource of a context on every die is released. Commits already made stay. -/
def dropContext (s : State) (c : Nat) : State :=
  let ks := Table.keys (ctxTasks s c)
  let ts := Table.keys (ctxTeams s c)
  let gs := Table.keys (ctxGroups s c)
  let cs := Table.keys (ctxCmds s c)
  let ls := Table.keys (ctxLaunches s c)
  let ps := (dies s).flatMap fun d => (portNumbers s c d).filterMap (physPort s c)
  let pats := (dies s).flatMap fun d => (patternNumbers s c d).filterMap (physPattern s c)
  let dead := Table.keys (s.doms.filter fun (d, _) =>
    (s.launches.any fun (_, l) => l.dom = d && l.ctx = c && !l.ended) &&
      !(s.launches.any fun (_, l) => l.dom = d && l.ctx ≠ c && !l.ended))
  let joins (dom : Domain) : Domain := { dom with join := dom.join.filter fun j => !dead.contains j.1 }
  let doms := (s.doms.filter fun e => !dead.contains e.1).map fun (d, dom) => (d, joins (dropFromDomain s c dom))
  let phaser (p : Phaser) : Phaser :=
    if p.ctx = c then
      { p with parties := p.parties.filter (fun q => !ctxParty s c q), cand := [], candNext := []
               waiting := p.waiting.filter fun l => !ls.contains l }
    else p
  let core (k : Core) : Core :=
    { k with trapQ := k.trapQ.filter (fun r => !ts.contains r.team)
             debugQ := k.debugQ.filter (fun r => !ts.contains r.team)
             faultQ := k.faultQ.filter fun f => !cs.contains f.1 }
  { s with
    doms
    launches := s.launches.filter fun (_, l) => l.ctx ≠ c
    tasks := s.tasks.filter fun (n, _) => !ks.contains n
    teams := s.teams.filter fun (n, _) => !ts.contains n
    groups := s.groups.filter fun (n, _) => !gs.contains n
    cmds := s.cmds.filter fun (n, _) => !cs.contains n
    effects := s.effects.filter fun e => !ks.contains e.task && !ls.contains e.launch
    conts := s.conts.filter fun (_, k) => !gs.contains k.group
    ports := s.ports.filter fun (n, _) => !ps.contains n
    patterns := s.patterns.filter fun (n, _) => !pats.contains n
    phasers := s.phasers.map fun (n, p) => (n, phaser p)
    cores := s.cores.map fun (n, k) => (n, core k) }

/-! ### Pre-emption (R430) -/

/-- Where a split of a rooted task stops: at once when it waits, otherwise at the next multiple of Q above its clock.
(DEDUCED, log 97). -/
def stopPoint (q : Nat) (sp : Split) : Nat :=
  if sp.mode.lasting || sp.saved.isSome then 0 else (sp.clock / q + 1) * q

/-- Steps 1 and 2 of a pre-emption, and the stop points of step 3, from die `d`. (DEDUCED, log 97). -/
def preemptStart (s : State) (d c : Nat) : State :=
  if (ctxOf s c).st ≠ 1 then s
  else
    let s := updCtx s c fun k => { k with st := 2, die := d }
    let s := (ctxTasks s c).foldl (fun s (n, k) =>
      if k.placed && k.rooted.isNone && k.retired.isNone then abortTask s n else s) s
    let gs := Table.keys (ctxGroups s c)
    let stop (grp : Group) : Group :=
      match (Table.find s.tasks grp.task).bind fun k => Table.find s.launches k.launch with
      | some l =>
        { grp with splits := grp.splits.map fun (x, sp) => (x, { sp with stopAt := some (stopPoint (recQ l.words) sp) }) }
      | none => grp
    { s with groups := s.groups.map fun (g, grp) => if gs.contains g then (g, stop grp) else (g, grp) }

/-- A split issues although its team is halted: it is stepped, or it runs the user handler of the trap it holds, which a
DEBUG stop of the team halts as well (R440, R446). (DEDUCED, log 24). -/
def runsHalted (tm : Team) (g x : Nat) (sp : Split) : Bool :=
  sp.step || (!tm.stopped && match tm.traps.reverse.find? fun h => h.group = g && h.split = x with | some h => h.user | none => false)

/-- A split stands below the lowest stripe conflict of its team and the lowest conflict of siblings of its group, if there is
one (R223, R187). -/
def belowConflict (w : Who) : Bool :=
  (match w.team.conflict with
   | some c => pairLt (w.sp.clock, w.grp.gidx) (c.clock, c.gidx)
   | none => true) &&
    (match w.grp.sibRace with
     | some c => pairLt (w.sp.clock, w.sp.klane) (c.clock, c.klane)
     | none => true)

/-- A split of a draining context has not reached its stop point (R430). -/
def belowStop (sp : Split) : Bool :=
  match sp.stopAt with
  | some t => decide (sp.clock < t)
  | none => true

/-- A split can issue: it waits for nothing, stands in the split table, its team is not halted, or it may run although
it is. -/
def splitRuns (w : Who) : Bool :=
  decide (w.sp.mode = .ready) && (w.sp.entry.isSome || w.sp.step) && !w.grp.exited && !w.grp.parked &&
    (!w.team.halted || runsHalted w.team w.g w.x w.sp) && belowConflict w && belowStop w.sp

/-- An agent of a draining context has stopped: it stands at its stop point, waits, or is kept from issuing (R430 step
3). -/
def agentStopped (s : State) (g x : Nat) : Bool :=
  match whoOf s g x with
  | some w => !splitRuns w
  | none => true

/-- A copy that waits for the supervisor, or for a commit that comes before its late reads. -/
def copyHeld (c : Cmd) : Bool :=
  c.after.isSome || (match c.body with | .copy _ _ _ _ _ fault _ _ => fault.isSome | _ => false)

/-- A command of a draining context needs no more physical work. -/
def cmdDrained (s : State) (c : Cmd) : Bool :=
  c.finished || copyHeld c ||
    (match c.body with
     | .waits => true
     | .stage ids _ => ids.any fun i => match Table.find s.cmds i with | some k => copyHeld k | none => false
     | _ => false)

/-- Every agent of a draining context has stopped, and steps 3 and 4 are done. -/
def drained (s : State) (c : Nat) : Bool :=
  (ctxOf s c).st = 2 &&
    ((ctxTeams s c).all fun (t, _) => (teamSplits s t).all fun (g, x, _) => agentStopped s g x) &&
    ((ctxCmds s c).all fun (_, k) => cmdDrained s k) &&
    ((Table.keys s.doms).all fun d => !((domCtxs s d).contains c && commitReady s d))

/-- 4 KiB pages of area `a` of the n-th record image (R432): of the last one by the number of saved teams alone. -/
def areaPages (n a teams : Nat) : Nat :=
  if a < 6 then Config.recordPages n a % 2 ^ 16 else Config.backPages teams % 2 ^ 16

/-- 4 KiB pages of a whole record. -/
def imagePages (n teams : Nat) : Nat := 1 + ((List.range 7).map fun a => areaPages n a teams).sum

/-- An event of a context: queued on the die that pre-empted it, and kept in CEVT. -/
def contextEvent (s : State) (c code : Nat) : State :=
  queueEvent (updCtx s c fun k => { k with cevt := word code }) (ctxOf s c).die code c 0

/-- Every split of a context keeps to its place until the context is loaded again. -/
def stayPut (s : State) (c : Nat) : State :=
  let gs := Table.keys (ctxGroups s c)
  let stay (grp : Group) : Group :=
    { grp with splits := grp.splits.map fun (x, sp) => (x, { sp with stopAt := some 0 }) }
  { s with groups := s.groups.map fun (g, grp) => if gs.contains g then (g, stay grp) else (g, grp) }

/-- DRAIN_COMPLETE: step 5, for context `a`. -/
def execDrainComplete (s : State) : Host.Outcome State Fault Refusal :=
  let c := s.arg.a
  if !drained s c then .next s
  else
    let pages := imagePages s.ticks (ctxTeams s c).length
    .next (contextEvent (updCtx (stayPut s c) c fun k => { k with st := 3, csize := word pages, image := s.ticks }) c 2)

/-- What a context's mailboxes hold is lost. -/
def Ctx.emptied (c : Ctx) : Ctx :=
  { c with inbox := [], requests := [], replay := [], playback := none, replies := [], flight := [], live := 0, full := [] }

/-- DRAIN_DEADLINE_EXPIRY: context `a` is force-reset (R431): it resets in state 4, and the next event ends that.
(DEDUCED, log 97). -/
def execDrainDeadlineExpiry (s : State) : Host.Outcome State Fault Refusal :=
  let c := s.arg.a
  if (ctxOf s c).st = 2 then .next (updCtx (dropContext s c) c fun k => { k.emptied with st := 4 })
  else if (ctxOf s c).st = 4 then .next (contextEvent (updCtx s c fun k => { k with st := 0 }) c 3)
  else .next s

/-- PREEMPT: context `a`, from the control core of die `b`. It waits while a checkpoint runs (R470). -/
def execPreempt (s : State) : Host.Outcome State Fault Refusal :=
  if s.dev.ckptOp.isSome then .next s else .next (preemptStart s s.arg.b s.arg.a)

end Sys2Proof.Machine
end

