-- ==== Sys2Proof/Machine/Sysreg.lean ====
section
/-!
DEFINITION. The system registers of the control cores (13_control_core R407, R408; 14_debug_unit R443; 15_device
R456-R472): what a read answers, what a write does. `RDSR`, `WRSR` and the debug window call them.
-/

namespace Sys2Proof.Machine

/-! ### Panicle node entries (R361) -/

/-- The die of a party that a leaf counts; none for a join party, which the package node counts (R356). -/
def partyDie (q : Party) : Option Nat := if q.kind = 2 then none else some q.die

/-- Signallers, arrivals and arrivals ahead among parties. (DEDUCED, log 78). -/
def nodeCounts (ps : List Party) : Nat × Nat × Nat :=
  let sigs := ps.filter fun q => roleSignals q.role
  (sigs.length, (sigs.filter (·.arrived)).length, (sigs.filter (·.ahead)).length)

/-- A node's children: those that hold a signaller, those complete for the open phase, those complete for the next. -/
def childCounts (ks : List (Nat × Nat × Nat)) : Nat × Nat × Nat :=
  let sig := ks.filter fun k => k.1 ≠ 0
  (sig.length, (sig.filter fun k => k.1 = k.2.1).length, (sig.filter fun k => k.1 = k.2.2).length)

/-- The live phaser whose slot is used at a node: of die scope at its own leaf, of a wider scope at every node.
(DEDUCED, log 73). -/
def nodePhaser (s : State) (slot level die : Nat) : Option Phaser :=
  (s.phasers.find? fun (id, p) =>
    id % 4096 = slot && !p.freed && decide (level ≤ p.scope) && (p.scope ≠ 0 || p.die = die)).map (·.2)

/-- Words 0-7 of a node slot entry. The nodes above the package are given as this package makes them.
(DEDUCED, log 78). -/
def nodeEntry (s : State) (slot level die : Nat) : List Word :=
  match nodePhaser s slot level die with
  | none => [0, 0, 0, word (2 ^ 11), 0, 0, 0, 0]
  | some p =>
    let leaf (d : Nat) : List Party := p.parties.filter fun q => partyDie q = some d
    let top := p.parties.filter fun q => (partyDie q).isNone
    let own : Nat × Nat × Nat :=
      if level = 0 then nodeCounts (leaf die ++ (if s.chip then top else []))
      else if level = 1 then nodeCounts top
      else (0, 0, 0)
    let all := nodeCounts p.parties
    let kids : Nat × Nat × Nat :=
      if level = 0 then (0, 0, 0)
      else if level = 1 then childCounts ((dies s).map fun d => nodeCounts (leaf d))
      else childCounts [all]
    let idle : Bool := if level = 0 then own.1 = 0 else all.1 = 0
    let best := leastBy candLt p.cand
    let (time, rank, pay) := best.getD (0, 0, 0)
    [word p.phase, word (own.1 + own.2.1 * 2 ^ 16), word (own.2.2 + kids.1 * 2 ^ 16 + kids.2.1 * 2 ^ 24),
      word (kids.2.2 + p.scope * 2 ^ 8 + (if p.any then 2 ^ 10 else 0) + (if idle then 2 ^ 11 else 0)),
      word time, word (time / 2 ^ 32 % 2 ^ 16 + rank * 2 ^ 16), pay, flagWord best.isSome]

/-- A word of a clock-service slot: at its reset value while no domain lives, else the hardware's own, with the bits that
R361 reserves zero (R376). (DEDUCED, log 78). -/
def clockWord (s : State) (level slot w : Nat) : Word :=
  if !(s.doms.any fun (d, _) => domLive s d) then (if w = 3 then word (2 ^ 11) else 0)
  else
    let mask : Nat := match w with | 2 => 0x7F7FFFFF | 3 => 0xF7F | 7 => 1 | _ => 0xFFFFFFFF
    Config.clockSlot level slot w &&& word mask

/-- PHNDATA. -/
def nodeRead (s : State) (d : Nat) : Word :=
  let sel := sysGet s d 330
  let slot := bits sel 11 0
  let node := bits sel 15 12
  -- on SW9-C the leaf is also the package node (R3)
  let level := if s.chip && node = 1 then 0 else node
  let w := bits sel 19 16
  if 4 ≤ level || 8 ≤ w then 0
  else if 4032 ≤ slot then clockWord s level slot w
  else (nodeEntry s slot level d).getD w 0

/-! ### Reads -/

/-- Register 64 + 16c + k of a context. (DEDUCED, log 96). -/
def contextRead (s : State) (d c k : Nat) : Word :=
  let x := ctxOf s c
  match k with
  | 0 => word x.st
  | 1 => word x.ttb
  | 2 => word (x.ttb / 2 ^ 32)
  | 3 => Sparse.get 0 x.kslot d
  | 4 => Sparse.get 0 x.pspace d
  | 5 => Sparse.get 0 x.tspace d
  | 6 => Sparse.get 0 x.mshare d
  | 7 => word (Sparse.get 0 x.carea d)
  | 8 => word (Sparse.get 0 x.carea d / 2 ^ 32)
  | 9 => Sparse.get 2000 x.drain d
  | 10 => x.csize
  | 11 => x.cevt
  | _ => 0

/-- FNMAP of a function: the context field, and the valid bit of one that is mapped (R456). -/
def fnmapOf (fn : Fn) : Word :=
  match fn.map with
  | some c => word (c + 16)
  | none => word fn.field

/-- The mapping of the selected function. -/
def fnmapRead (s : State) (d : Nat) : Word := fnmapOf ((Table.find s.dev.fns (sysGet s d 621).toNat).getD {})

/-- Registers of chapter 15. -/
def deviceRead (s : State) (d n : Nat) : Word :=
  match n with
  | 600 => lcState s
  | 601 => Config.devid.extractLsb' 0 32
  | 602 => Config.devid.extractLsb' 32 32
  | 603 => nonceOf s
  | 606 | 608 | 624 | 638 => 0
  | 607 => word s.dev.unlkstat
  | 611 | 612 | 613 | 614 | 615 | 616 | 617 | 618 =>
    bytesWord (((msRead s (sysGet s d 610).toNat).drop (4 * (n - 611))).take 4)
  | 620 => word (fwSvn s)
  | 622 => fnmapRead s d
  | 623 => devStat s
  | 625 => word s.dev.ckptstat
  | 630 => s.dev.pcap
  | 631 => Config.power s.ticks
  | 635 => lifeRead s (bits (sysGet s d 634) 3 0) (bits (sysGet s d 634) 19 4)
  | 639 => if d = 0 then word s.dev.attstat else 0
  | _ => sysGet s d n

/-- Registers of the debug unit, the window apart. -/
def debugRead (s : State) (d n : Nat) : Word :=
  let c := coreOf s d
  if n = 513 then
    word (min c.debugQ.length 0xFFFF + (if bit (sysGet s d 531) 0 && !c.debugQ.isEmpty then 2 ^ 16 else 0))
  else if 515 ≤ n && n ≤ 530 then ((c.debugQ.head?.map (·.words)).getD []).getD (n - 515) 0
  else if 561 ≤ n && n ≤ 566 then compRead s d (n - 561)
  else if n = 514 || n = 546 then 0
  else sysGet s d n

/-- The other registers. -/
def coreRegRead (s : State) (d n : Nat) : Word :=
  let c := coreOf s d
  if 16 ≤ n && n < 32 then ((c.trapQ.head?.map (·.words)).getD []).getD (n - 16) 0
  else if 48 ≤ n && n < 64 then ((c.faultQ.head?.map (·.2)).getD []).getD (n - 48) 0
  else if 64 ≤ n && n < 320 then contextRead s d ((n - 64) / 16) ((n - 64) % 16)
  else
    match n with
    | 0 => word (d + Config.peer.toNat * 4)
    | 1 => word ((if c.ie then 1 else 0) + (if c.inh then 2 else 0) + (if c.dbl then 4 else 0))
    | 4 => c.ecause
    | 6 => word (min c.trapQ.length 0xFFFF)
    | 7 | 33 | 320 => 0
    | 32 => word (min c.faultQ.length 0xFFFF)
    | 323 => word (24 + 24 * 2 ^ 8 + 2 ^ 13)
    | 325 => Sparse.get 0 s.gtab (16 * bits (sysGet s d 324) 11 0 + bits (sysGet s d 324) 19 16)
    | 327 => Sparse.get 0 s.rtab (4 * bits (sysGet s d 326) 11 0 + bits (sysGet s d 326) 17 16)
    | 328 => flagWord Config.fabricManager
    | 331 => nodeRead s d
    | _ => sysGet s d n

/-- A read of system register `n` on die `d`: EVT pops its head, DWDATA makes the window access. (DEDUCED, log 9).
(DEDUCED, log 110). -/
def sysRead (s : State) (d n : Nat) : State × Word :=
  if n = 321 then
    match (coreOf s d).events with
    | e :: rest => (updCore s d fun c => { c with events := rest }, e)
    | [] => (s, 0)
  else if n = 541 then windowAccess s d none
  else if 512 ≤ n && n ≤ 586 then (s, debugRead s d n)
  else if 600 ≤ n && n ≤ 639 then (s, deviceRead s d n)
  else if n < 332 then (s, coreRegRead s d n)
  else (s, 0)

/-! ### Writes -/

/-- Writable bits of the plain registers: a field that no row names reads 0 and ignores writes (R11).
(DEDUCED, log 9). -/
def plainMask (d n : Nat) : Option Word :=
  match n with
  | 2 => some 0x3F000
  | 3 | 8 => some 0xFFFFFFFF
  | 5 => some 0xFFFF
  | 322 => some 3
  | 324 => some 0xF0FFF
  | 326 => some 0x30FFF
  | 330 => some 0xFFFFF
  | 512 => some 0x3FF80
  | 540 => some 0xFFFFFFFF
  | 560 => some 0x7F7F
  | 584 => some 0xFFFFFFFF
  | 604 => some 0xFFFFFFC0
  | 605 => some 0xFF
  | 611 | 612 | 613 | 614 | 615 | 616 | 617 | 618 => some 0xFFFFFFFF
  | 621 => some 0x1F
  | 626 | 627 | 628 | 629 => some 0xFFFFFFFF
  | 634 => some 0xFFFFF
  | 636 => if d = 0 then some 0xFFFFF000 else none
  | 637 => if d = 0 then some 0xFF else none
  | _ => none

/-- A write to a space register of a context, which takes effect only while the context is free (R408). -/
def spaceWrite (s : State) (d c k : Nat) (v : Word) : State :=
  if (ctxOf s c).st ≠ 0 then s
  else updCtx s c fun x =>
    match k with
    | 4 => { x with pspace := Sparse.set 0 x.pspace d (v &&& 0x3FFF3FFF) }
    | 5 => { x with tspace := Sparse.set 0 x.tspace d (v &&& 0x0FFF0FFF) }
    | _ => { x with mshare := Sparse.set 0 x.mshare d (v &&& 0x1FFFF) }

/-- A number with its low or its high word replaced. -/
def withLow (n : Nat) (v : Word) : Nat := n / 2 ^ 32 * 2 ^ 32 + v.toNat
def withHigh (n : Nat) (v : Word) : Nat := n % 2 ^ 32 + v.toNat * 2 ^ 32

/-- A write to CAREA of die `d`: groups that wait for space go on (R428). -/
def careaWrite (s : State) (d c k : Nat) (v : Word) : State :=
  wakeStalled (updCtx s c fun x =>
    let old := Sparse.get 0 x.carea d
    let new := if k = 7 then withLow old (v &&& 0xFFFFF000) else withHigh old (v &&& 0xFFFF00FF)
    { x with carea := Sparse.set 0 x.carea d new, full := x.full.filter (· ≠ d) })

/-- A write to register 64 + 16c + k. (DEDUCED, log 96). (DEDUCED, log 112). -/
def contextWrite (s : State) (d c k : Nat) (v : Word) : State :=
  match k with
  | 1 => updCtx s c fun x => { x with ttb := withLow x.ttb (v &&& 0xFFFE0000) }
  | 2 => updCtx s c fun x => { x with ttb := withHigh x.ttb (v &&& 0xFF) }
  | 3 => kslotWrite s d c v
  | 4 | 5 | 6 => spaceWrite s d c k v
  | 7 | 8 => careaWrite s d c k v
  | 9 => updCtx s c fun x => { x with drain := Sparse.set 2000 x.drain d (word (max 50 (min 100000 v.toNat))) }
  | _ => s

/-- A write to TQACT (R426): the head record's disposition; 3 is ignored. -/
def tqactWrite (s : State) (d : Nat) (v : Word) : State :=
  if bits v 1 0 = 3 then s
  else updCore s d fun c =>
    match c.trapQ with
    | r :: rest => { c with trapQ := { r with act := some v } :: rest }
    | [] => c

/-- The copy engine resumes a suspended command from its cursor (R261). (DEDUCED, log 50). -/
def copyReplay (s : State) (id : Nat) : State :=
  updCmd s id fun c =>
    match c.body with
    | .copy opc ws rows serial q _ entry refused => { c with body := .copy opc ws rows serial q none entry refused }
    | _ => c

/-- A command is in flight and suspended. -/
def suspended (s : State) (id : Nat) : Option Cmd :=
  (Table.find s.cmds id).filter fun c => match c.body with | .copy _ _ _ _ _ f _ _ => f.isSome | _ => false

/-- A write to CFQACT (R407, R261): the head record is answered at once. An answer to a record whose command has been
cancelled has no effect. -/
def cfqactWrite (s : State) (d : Nat) (v : Word) : State :=
  match (coreOf s d).faultQ with
  | [] => s
  | (id, ws) :: rest =>
    if 2 ≤ v.toNat then s
    else
      let s := updCore s d fun c => { c with faultQ := rest }
      match suspended s id with
      | none => s
      | some c =>
        if v = 0 then copyReplay s id
        else terminateTeam s c.team (word (7 + bits (ws.getD 0 0) 7 0 * 2 ^ 8 + bits (ws.getD 6 0) 15 0 * 2 ^ 16))
          (ws.getD 1 0) c.key

/-- A write to RTDATA (R407): ignored unless the context of the entry is free. A context that has been saved is free.
(DEDUCED, log 111). -/
def rtdataWrite (s : State) (d : Nat) (v : Word) : State :=
  let sel := sysGet s d 326
  let g := bits sel 11 0
  let k := bits sel 17 16
  if (ctxOf s (bits (Sparse.get 0 s.rtab (4 * g)) 4 1)).st ≠ 0 then s
  else
    let mask : Word := match k with | 0 => 0x00FFFF1F | 1 => 0xFFFFFF00 | 2 => 0x00FFFFFF | _ => 0xFFFFFF00
    { s with rtab := Sparse.set 0 s.rtab (4 * g + k) (v &&& mask) }

/-- A write to FNMAP (R456): ignored when it would map a second function of one port to a context, and for a function of a
port that an SW9-C lacks. -/
def fnmapWrite (s : State) (d : Nat) (v : Word) : State :=
  let f := (sysGet s d 621).toNat
  let c := bits v 3 0
  let taken := s.dev.fns.any fun (g, fn) => g ≠ f && g / 16 = f / 16 && fn.map = some c
  if !(hostPorts s).contains (f / 16) then s
  else if bit v 4 then
    if taken then s else flushAll (updFn s f fun fn => { fn with map := some c, field := c })
  else updFn s f fun fn => { fn with map := none, field := c }

/-- A write to PBBASE or PBSIZE moves the profiling buffer: head and tail go to 0 (R443). No translation is cached in the
model, so none is dropped. -/
def profileMove (s : State) (d n : Nat) (v : Word) : State :=
  let mask : Word := match n with | 580 => 0xFFFFF000 | 581 => 0xFF | _ => 0xFFFFFFFF
  sysSet (sysSet (sysSet s d n (v &&& mask)) d 583 0) d 584 0

/-- A write to PBCTL (R443): a period outside 10-24 becomes 10. -/
def pbctlWrite (s : State) (d : Nat) (v : Word) : State :=
  let p := bits v 12 8
  let p := if decide (10 ≤ p) && decide (p ≤ 24) then p else 10
  sysSet s d 586 ((v &&& 0xFFFF001F) ||| word (p * 2 ^ 8))

/-- A write to HALTREQ. -/
def haltreqWrite (s : State) (d : Nat) (v : Word) : State :=
  if bit v 13 then haltRequest s d (bits v 6 0) (bits v 12 7) else s

/-- A write to CKPTCMD. -/
def ckptcmdWrite (s : State) (d : Nat) (v : Word) : State :=
  if bit v 0 then checkpointStart s d false else if bit v 1 then checkpointStart s d true else s

/-- A write that waits: PREEMPT while a checkpoint runs (R470). -/
def sysWriteWaits (s : State) (n : Nat) : Bool := n = 320 && s.dev.ckptOp.isSome

/-- A write of system register `n` on die `d`. Registers that are read-only or not assigned ignore it.
(DEDUCED, log 111). -/
def sysWrite (s : State) (d n : Nat) (v : Word) : State :=
  match plainMask d n with
  | some m => sysSet s d n (v &&& m)
  | none =>
    if 64 ≤ n && n < 320 then contextWrite s d ((n - 64) / 16) ((n - 64) % 16) v
    else if 561 ≤ n && n ≤ 566 then compWrite s d (n - 561) v
    else
      match n with
      | 1 => updCore s d fun c => { c with ie := bit v 0, dbl := c.dbl && !bit v 2 }
      | 7 => tqactWrite s d v
      | 33 => cfqactWrite s d v
      | 320 => if bit v 4 then preemptStart s d (bits v 3 0) else s
      | 325 => { s with gtab := Sparse.set 0 s.gtab (16 * bits (sysGet s d 324) 11 0 + bits (sysGet s d 324) 19 16) v }
      | 327 => rtdataWrite s d v
      | 514 => dqactWrite s d v
      | 531 => if s.dev.debug then sysSet s d 531 (v &&& 1) else s
      | 541 => (windowAccess s d (some v)).1
      | 546 => haltreqWrite s d v
      | 580 | 581 | 582 => profileMove s d n v
      | 586 => pbctlWrite s d v
      | 606 => unlkcmdWrite s d v
      | 608 => if bit v 0 then wipeKeys s else s
      | 610 => msselWrite s d v
      | 622 => fnmapWrite s d v
      | 624 => ckptcmdWrite s d v
      | 630 => updDev s fun u => { u with pcap := word (max 400 (min 2800 v.toNat)) }
      | 638 => if d = 0 && bit v 0 then attestStart s else s
      | _ => s

/-! ### The events of single registers -/

/-- A number as an event gives it: the value written. -/
def argValue (s : State) : Word := s.arg.value.getD 0

/-- EVT_READ on die `a`. -/
def execEvtRead (s : State) : Host.Outcome State Fault Refusal := .next (sysRead s s.arg.a 321).1

/-- TQACT_RESUME on die `a`. -/
def execTqactResume (s : State) : Host.Outcome State Fault Refusal := .next (tqactWrite s s.arg.a 0)

/-- TQACT_TERMINATE on die `a`. -/
def execTqactTerminate (s : State) : Host.Outcome State Fault Refusal := .next (tqactWrite s s.arg.a 1)

/-- TQACT_RESUME_AT_TQRPC on die `a`. -/
def execTqactResumeAtTqrpc (s : State) : Host.Outcome State Fault Refusal := .next (tqactWrite s s.arg.a 2)

/-- CFQACT_REPLAY on die `a`. -/
def execCfqactReplay (s : State) : Host.Outcome State Fault Refusal := .next (cfqactWrite s s.arg.a 0)

/-- CFQACT_DECLINE on die `a`. -/
def execCfqactDecline (s : State) : Host.Outcome State Fault Refusal := .next (cfqactWrite s s.arg.a 1)

/-- CONTEXT_SPACE_WRITE: register `b` of die `a`, PSPACE, TSPACE or MSHARE of a context. -/
def execContextSpaceWrite (s : State) : Host.Outcome State Fault Refusal :=
  let k := (s.arg.b - 64) % 16
  if 64 ≤ s.arg.b && s.arg.b < 320 && 4 ≤ k && k ≤ 6 then
    .next (spaceWrite s s.arg.a ((s.arg.b - 64) / 16) k (argValue s))
  else .next s

/-- PROFILING_BUFFER_MOVE: register `b` of die `a`, PBBASE or PBSIZE. -/
def execProfilingBufferMove (s : State) : Host.Outcome State Fault Refusal :=
  if 580 ≤ s.arg.b && s.arg.b ≤ 582 then .next (profileMove s s.arg.a s.arg.b (argValue s)) else .next s

/-- CAREA_WRITE: register `b` of die `a`, CAREA.lo or CAREA.hi of a context. -/
def execCareaWrite (s : State) : Host.Outcome State Fault Refusal :=
  let k := (s.arg.b - 64) % 16
  if 64 ≤ s.arg.b && s.arg.b < 320 && 7 ≤ k && k ≤ 8 then
    .next (careaWrite s s.arg.a ((s.arg.b - 64) / 16) k (argValue s))
  else .next s

/-- RECEIVE_TABLE_WRITE: a write to RTDATA of die `a`. -/
def execReceiveTableWrite (s : State) : Host.Outcome State Fault Refusal := .next (rtdataWrite s s.arg.a (argValue s))

/-- FNMAP_WRITE: a write to FNMAP of die `a`. -/
def execFnmapWrite (s : State) : Host.Outcome State Fault Refusal := .next (fnmapWrite s s.arg.a (argValue s))

/-! ### The debug window (R469) -/

/-- A host access of the debug window at offset `off`: the state, and the word that a read answers. -/
def debugWindow (s : State) (off : Nat) (wr : Option Word) : State × Word :=
  let k := (off - 0x100) / 4
  let reg := decide (0x100 ≤ off) && off % 4 = 0 && decide (k ≤ 74)
  let held := (dies s).foldl (fun n d => if (coreOf s d).debugQ.isEmpty then n else n + 2 ^ (4 + d)) 0
  if off = 4 then (s, word (lifecycle s + (if s.dev.debug then 8 else 0) + held))
  else if off = 8 then (s, s.dev.dperr)
  else if off = 0 || reg then
    if !s.dev.debug then
      match wr with
      | some _ => (updDev s fun v => { v with dperr := word (min 0xFFFFFFFF (v.dperr.toNat + 1)) }, 0)
      | none => (s, 0)
    else if off = 0 then
      match wr with
      | some v => (updDev s fun u => { u with dpsel := if s.chip then 0 else v &&& 3 }, 0)
      | none => (s, s.dev.dpsel)
    else
      match wr with
      | some v => (sysWrite s s.dev.dpsel.toNat (512 + k) v, 0)
      | none => sysRead s s.dev.dpsel.toNat (512 + k)
  else (s, 0)

/-- DEBUG_WINDOW_ACCESS: the host on port `a` reads, or writes `value`, at offset `b`. -/
def execDebugWindowAccess (s : State) : Host.Outcome State Fault Refusal :=
  if (hostPorts s).contains s.arg.a then .next (debugWindow s s.arg.b s.arg.value).1 else .next s

end Sys2Proof.Machine
end

