-- ==== Sys2Proof/Machine/ControlCore.lean ====
section
/-!
DEFINITION. The control core's own instructions and entries (13_control_core R409-R416, R426): system registers, waiting
and stopping, translation, phasers and trees, supervisor entries and the dispositions that `ERET` applies.
-/

namespace Sys2Proof.Machine

/-- The body of an instruction that only a control core issues. -/
def withCore (s : State) (f : Nat → Res) : Res :=
  match s.actor with
  | .core d => f d
  | .split _ _ => .done s

/-! ### System registers (R410) -/

/-- RDSR. -/
def execRdsr (sd : SReg) (n : BitVec 10) (s : State) : Host.Outcome State Fault Refusal :=
  slot (.rdsr sd n) (fun s => withCore s fun d =>
    let r := sysRead s d n.toNat
    .done (uwrite r.1 sd.toNat r.2)) s

/-- WRSR. -/
def execWrsr (n : BitVec 10) (sa : SReg) (s : State) : Host.Outcome State Fault Refusal :=
  slot (.wrsr n sa) (fun s => withCore s fun d =>
    if sysWriteWaits s n.toNat then .stall 15 else .done (sysWrite s d n.toNat (uread s sa.toNat))) s

/-! ### Waiting and stopping (R410) -/

/-- A supervisor entry other than an event is pending on a die (R416, R444). (DEDUCED, log 90). -/
def entryPending (s : State) (d : Nat) : Bool :=
  let c := coreOf s d
  !c.trapQ.isEmpty || !c.faultQ.isEmpty || (!c.debugQ.isEmpty && !bit (sysGet s d 531) 0)

/-- WFI. -/
def execWfi (s : State) : Host.Outcome State Fault Refusal :=
  slot .wfi (fun s => withCore s fun d =>
    if ((coreOf s d).ie && entryPending s d) || !(coreOf s d).events.isEmpty then .done s else .stall 15) s

/-- HALTC. -/
def execHaltc (s : State) : Host.Outcome State Fault Refusal :=
  slot .haltc (fun s => withCore s fun d => .ok { s := haltCore s d, flow := .gone }) s

/-! ### Dispositions (R426, R445) -/

/-- Applies a disposition of TQACT to a trap record: only termination where R421 allows nothing else.
(DEDUCED, log 92). -/
def trapAct (s : State) (d : Nat) (r : Record) (v : Word) : State :=
  if !recordLive s r then s
  else
    match if bits (r.words.getD 0 0) 7 0 = 15 then 1 else bits v 1 0 with
    | 0 => resumeTrap s r.team r.trap (some (r.words.getD 2 0).toNat)
    | 1 => terminateRecord s r
    | _ => resumeTrap s r.team r.trap (some ((sysGet s d 8).toNat / 4 * 4))

/-- Removes the answered records of both queues and applies their answers. (DEDUCED, log 92). -/
def applyAnswers (s : State) (d : Nat) : State :=
  let c := coreOf s d
  let s := updCore s d fun c =>
    { c with trapQ := c.trapQ.filter (fun r => r.act.isNone), debugQ := c.debugQ.filter fun r => r.act.isNone }
  let s := c.trapQ.foldl (fun s r => match r.act with | some v => trapAct s d r v | none => s) s
  c.debugQ.foldl (fun s r => match r.act with | some v => debugAct s r v | none => s) s

/-- ERET (R410). -/
def execEret (s : State) : Host.Outcome State Fault Refusal :=
  slot .eret (fun s => withCore s fun d =>
    if !(coreOf s d).inh then .ok { s, flow := .jump (nextClause s) }
    else
      let epc := (sysGet s d 3).toNat
      let s := updCore s d fun c => { c with inh := false }
      .ok { s := applyAnswers s d, flow := .jump epc }) s

/-! ### Supervisor entries (R416, R444) -/

/-- The queue with its first MACHINE record in front. (DEDUCED, log 90). -/
def machineFirst (q : List Record) : List Record :=
  match q.find? fun r => bits (r.words.getD 0 0) 7 0 = 15 with
  | some r => r :: q.erase r
  | none => q

/-- SUPERVISOR_ENTRY: the control core of die `a` enters between two clauses, with ie set and no handler running. -/
def execSupervisorEntry (s : State) : Host.Outcome State Fault Refusal :=
  let d := s.arg.a
  let c := coreOf s d
  let base := (sysGet s d 2).toNat
  let cls (r : Record) : Nat := bits (r.words.getD 0 0) 7 0
  let q := machineFirst c.trapQ
  let front : State := updCore s d fun c => { c with trapQ := q }
  let onTrap (r : Record) := coreEnter front d (base + 128 * cls r) c.pc (word (cls r * 2 ^ 8))
  let onDebug (b : Record) := coreEnter front d (sysGet s d 512).toNat c.pc (word (3 + cls b * 2 ^ 8))
  if !c.running || c.halted || !c.ie || c.inh || c.clause.isSome then .next s
  else
    match q.head?, if bit (sysGet s d 531) 0 then none else c.debugQ.head? with
    | some r, none => .next (onTrap r)
    | some r, some b => if cls r = 15 then .next (onTrap r) else .next (onDebug b)
    | none, some b => .next (onDebug b)
    | none, none =>
      if !c.faultQ.isEmpty then .next (coreEnter s d (base + 128 * 16) c.pc 1)
      else if !c.events.isEmpty then .next (coreEnter s d (base + 128 * 17) c.pc 2)
      else .next s

/-! ### Translation, phasers, trees (R411-R413) -/

/-- A block of TLBINV is without effect: a reserved scope, or a must-be-zero bit set. -/
def tlbBad (b : List Word) : Bool :=
  bits (b.getD 0 0) 1 0 = 3 || b.getD 0 0 &&& 0xFFFFFF0C ≠ 0 || b.getD 1 0 &&& 0xFFFF ≠ 0 || b.getD 2 0 &&& 0xFF000000 ≠ 0

/-- A translation of `va` to `pa` in a context went through an entry that a block of TLBINV drops: one of scope 0 maps the
64 KiB around the address, or the 512 MiB around it, where the two addresses agree within such a page.
(DEDUCED, log 119). -/
def tlbDrops (b : List Word) (ctx va pa : Nat) : Bool :=
  let at' := (b.getD 1 0).toNat + (b.getD 2 0).toNat * 2 ^ 32
  let scope := bits (b.getD 0 0) 1 0
  let here : Bool := bits (b.getD 0 0) 7 4 = ctx
  scope = 2 || (here && (scope = 1 || va / 2 ^ 16 = at' / 2 ^ 16 ||
    (va / 2 ^ 29 = at' / 2 ^ 29 && pa % 2 ^ 29 = va % 2 ^ 29)))

/-- An effect that a commit has still to make was translated through a dropped entry. -/
def Effect.dropped (s : State) (b : List Word) (e : Effect) : Bool :=
  match Table.find s.launches e.launch with
  | none => false
  | some l =>
    match e.body with
    | .write va ps =>
      (ps.foldl (fun (r : Bool × Nat) p => (r.1 || tlbDrops b l.ctx r.2 p.1, r.2 + p.2.2.length)) (false, va)).1
    | .atom _ ls _ => ls.any fun x => tlbDrops b l.ctx x.2.2.2.2.2 x.2.1
    | _ => false

/-- An access that TLBINV waits for: an atomic of a context that runs. A copy is past each chunk that has landed, and the
commits of a drained context begin only after it is loaded (R411, R430). (DEDUCED, log 119). -/
def tlbAwaits (s : State) (b : List Word) : Bool :=
  (s.effects ++ s.doms.flatMap fun d => d.2.late.map (·.2)).any fun e =>
    (match e.body with | .atom .. => true | _ => false) && e.dropped s b &&
      (match Table.find s.launches e.launch with | some l => decide ((ctxOf s l.ctx).st < 3) | none => false)

/-- TLBINV. The model's translations are made by walks of the tables as they stand, so there is no entry to drop; the
atomics that were translated before and are still to be made are waited for, and what else a commit has still to make walks
the tables again. -/
def execTlbinv (sa : SReg) (s : State) : Host.Outcome State Fault Refusal :=
  slot (.tlbinv sa) (fun s => withCore s fun _ =>
    let b := block s sa 3
    if tlbBad b then .done s
    else if tlbAwaits s b then .stall 15
    else .done (rewalkWhere s (Effect.dropped s b))) s

/-- A slot that a phaser of a scope above die `d` can take: no live phaser uses it at a node they share. -/
def slotFree (s : State) (scope d n : Nat) : Bool :=
  !(s.phasers.any fun (id, p) => id % 4096 = n && !p.freed && (p.scope ≠ 0 || scope ≠ 0 || p.die = d))

/-- PHALLOC. -/
def execPhalloc (sd sa : SReg) (s : State) : Host.Outcome State Fault Refusal :=
  slot (.phalloc sd sa) (fun s => withCore s fun d =>
    let b := block s sa 2
    let ctl := b.getD 0 0
    let ctx := b.getD 1 0
    if ctl &&& 0xFE00FFF8 ≠ 0 || 16 ≤ ctx.toNat then .done (uwrite s sd.toNat 0x80000001)
    else
      match (List.range 4032).find? fun n => slotFree s (bits ctl 2 1) d n with
      | none => .done (uwrite s sd.toNat 0x80000002)
      | some n =>
        let gen := (Sparse.get 0 s.gens n + 1) % 256
        let p : Phaser := { any := bit ctl 0, scope := bits ctl 2 1, gather := bits ctl 24 16 + 1, ctx := ctx.toNat, die := d }
        let id := n + 4096 * gen
        let s := { s with gens := Sparse.set 0 s.gens n gen, phasers := Table.put s.phasers id p }
        .done (uwrite s sd.toNat (word id))) s

/-- PHFREE. -/
def execPhfree (sd sa : SReg) (s : State) : Host.Outcome State Fault Refusal :=
  slot (.phfree sd sa) (fun s => withCore s fun _ =>
    let id := ((block s sa 1).getD 0 0).toNat
    match phaserOf s id with
    | none => .done (uwrite s sd.toNat 1)
    | some _ => .done (uwrite (updPhaser s id fun p => { p with freed := true }) sd.toNat 0)) s

/-- The members of a bitmap. (DEDUCED, log 80). -/
def bitmapMembers (bs : List Byte) : List Nat :=
  (List.range 512).filter fun p => (bs.getD (p / 8) 0).getLsbD (p % 8)

/-- The switch of a new tree that has no free slot: each tree takes one of a switch's 1,024 slots, so that a switch is full
when there are as many trees and all cross it (R397). Without members there is no tree to cross one.
(DEDUCED, log 80). -/
def fullSwitch (s : State) (root : Nat) (members : List Nat) : Option (BitVec 16) :=
  if decide (1024 ≤ s.trees.length) && !members.isEmpty then Config.fullSwitch root members else none

/-- The status of a tree's creation (R397). (DEDUCED, log 80). -/
def treeStatus (s : State) (id root : Nat) (members : List Nat) : Word :=
  match fullSwitch s root members with
  | some sw => word (1 + sw.toNat * 2 ^ 16)
  | none =>
  if members.isEmpty || members.any (fun p => !Config.inPod p) then 2
  else if !members.contains root then 3
  else if (Table.find s.trees id).isSome then 4
  else 0

/-- TREEREQ. -/
def execTreereq (sd sa : SReg) (s : State) : Host.Outcome State Fault Refusal :=
  slot (.treereq sd sa) (fun s => withCore s fun d =>
    let b := block s sa 3
    let id := bits (b.getD 0 0) 9 0
    let root := bits (b.getD 1 0) 8 0
    let at' := (b.getD 2 0).toNat
    let done (s : State) (v : Word) : Res := .done (uwrite s sd.toNat v)
    if !Config.fabricManager then done s 6
    else if bit (b.getD 0 0) 16 then
      if (Table.find s.trees id).isSome then done { s with trees := Table.del s.trees id } 0 else done s 5
    else if at' % 4 ≠ 0 then .trap { cls := 4, cause := 2, d0 := word at' }
    else if 0x40000 < at' + 64 then .trap { cls := 4, cause := 1, d0 := word at' }
    else
      let members := bitmapMembers (Sparse.read 0 (coreOf s d).mem at' 64)
      let st := treeStatus s id root members
      if st = 0 then done { s with trees := Table.put s.trees id (root, members) } 0 else done s st) s

/-! ### Registers written from outside -/

/-- A plain mailbox register of a function (R455), by its offset in BAR 0. -/
def mailboxWrite (s : State) (f off : Nat) (v : Word) : State :=
  match off with
  | 0x00 => updFn s f fun fn => { fn with srbase := withLow fn.srbase (v &&& 0xFFFFF000) }
  | 0x04 => updFn s f fun fn => { fn with srbase := withHigh fn.srbase v }
  | 0x08 => updFn s f fun fn => { fn with srsize := v }
  | 0x10 => updFn s f fun fn => { fn with rrbase := withLow fn.rrbase (v &&& 0xFFFFF000) }
  | 0x14 => updFn s f fun fn => { fn with rrbase := withHigh fn.rrbase v }
  | 0x18 => flushAll (updFn s f fun fn => { fn with rrsize := v })
  | _ => s

/-- A mailbox register of a function (R455), by its offset in BAR 0; HACC and DSENT are those of the context that it is
mapped to. (DEDUCED, log 9). -/
def mailboxRead (s : State) (f off : Nat) : Word :=
  let fn := (Table.find s.dev.fns f).getD {}
  match off with
  | 0x00 => word fn.srbase
  | 0x04 => word (fn.srbase / 2 ^ 32)
  | 0x08 => fn.srsize
  | 0x0C => fn.srtail
  | 0x10 => word fn.rrbase
  | 0x14 => word (fn.rrbase / 2 ^ 32)
  | 0x18 => fn.rrsize
  | 0x1C => word fn.rrhead
  | 0x20 => (fn.map.map fun c => (ctxOf s c).hacc).getD 0
  | 0x24 => (fn.map.map fun c => (ctxOf s c).dsent).getD 0
  | 0x28 => fn.dsack
  | 0x2C => fn.ferr
  | 0x30 => word (bits (fnmapOf fn) 4 4 + 2 * bits (fnmapOf fn) 3 0 + 32 * deviceState s)
  | _ => 0

/-- REGISTER_WRITE: register `b` of die `a` takes `value`; from 65,536 on, `b` is an offset in BAR 0 of function `a`. -/
def execRegisterWrite (s : State) : Host.Outcome State Fault Refusal :=
  if 0x10000 ≤ s.arg.b then
    .next (if (hostPorts s).contains (s.arg.a / 16) then mailboxWrite s s.arg.a (s.arg.b - 0x10000) (argValue s) else s)
  else if sysWriteWaits s s.arg.b then .next s
  else .next (sysWrite s s.arg.a s.arg.b (argValue s))

/-- STALL_REASON_COUNT: group `a` counts one cycle in which it issues nothing. -/
def execStallReasonCount (s : State) : Host.Outcome State Fault Refusal :=
  match Table.find s.groups s.arg.a with
  | none => .next s
  | some grp =>
    if grp.exited || grp.parked then .next s
    else
      let k := idleReason s s.arg.a grp
      let n := word (min 0xFFFFFFFF ((Sparse.get 0 grp.stalls k).toNat + 1))
      .next (updGroup s s.arg.a fun grp => { grp with stalls := Sparse.set 0 grp.stalls k n })

end Sys2Proof.Machine
end

