-- ==== Sys2Proof/Machine/Saving.lean ====
section
/-!
DEFINITION. Saving and restoring a context (13_control_core R432-R434): the record's header and areas, the release of the
context, the checks of a load, placement on physical clusters, and the numbers that a loaded context's units take.
-/

namespace Sys2Proof.Machine

/-! ### What a record holds -/

/-- The contents of a context's areas. Replies still on their way count as not sent. -/
def collectCtx (s : State) (c : Nat) : SavedCtx :=
  let s := unsend (fun _ => true) s c
  let ls := ctxLaunches s c
  let ks := Table.keys (ctxTasks s c)
  let gs := Table.keys (ctxGroups s c)
  let cs := Table.keys (ctxCmds s c)
  let dead (dom : Domain) : Domain :=
    { dom with
      derived := dom.derived.filter fun m => m.ctx = c
      reports := dom.reports.filter fun m => m.ctx = c
      late := dom.late.filter fun e => (Table.find ls e.2.launch).isSome
      firings := dom.firings.filter fun f => (Table.find ls f.2.1).isSome
      joinSigs := dom.joinSigs.filter fun j => (Table.find ls j.2).isSome }
  let ports := (dies s).flatMap fun d => (portNumbers s c d).filterMap fun n => (portAt s c n).map fun p => (n, p)
  let patterns := (dies s).flatMap fun d => (patternNumbers s c d).filterMap fun n => (patternAt s c n).map fun p => (n, p)
  let queues (f : Core → List Record) : List Record := s.cores.flatMap fun (_, k) => ctxRecords s c (f k)
  { bytes := [], num := c, ctx := ctxOf s c
    doms := (s.doms.filter fun (d, _) => ls.any fun e => e.2.dom = d).map fun (d, dom) => (d, dead dom)
    launches := ls, tasks := ctxTasks s c, teams := ctxTeams s c, groups := ctxGroups s c, cmds := ctxCmds s c
    effects := s.effects.filter fun e => ks.contains e.task || (Table.find ls e.launch).isSome
    conts := s.conts.filter fun (_, k) => gs.contains k.group
    ports, patterns
    phasers := s.phasers.filter fun (_, p) => p.ctx = c
    traps := queues (·.trapQ), debugs := queues (·.debugQ)
    faults := s.cores.flatMap fun (_, k) => k.faultQ.filter fun f => cs.contains f.1 }

/-- Live teams of a record. -/
def SavedCtx.live (v : SavedCtx) : Table Team := v.teams.filter fun (_, tm) => !tm.exited

/-- The logical cluster and core of a team: 4 × die + cluster, core of the cluster. -/
def teamCluster (tm : Team) : Nat := 4 * tm.die + tm.core / 24
def teamCore (tm : Team) : Nat := tm.core % 24

/-- The logical cores that a record's teams use in a logical cluster. -/
def SavedCtx.cores (v : SavedCtx) (l : Nat) : List Nat :=
  (v.live.filterMap fun (_, tm) => if teamCluster tm = l then some (teamCore tm) else none).eraseDups

/-- Header bytes 0-223 of a record at `pa` (R432). -/
def recordHeader (v : SavedCtx) (c pa : Nat) : List Byte :=
  let teams := v.teams.length
  let feat := v.launches.foldl (fun n e => n ||| recFeat e.2.words) 0
  let place (a : Nat) : Nat := pa + 4096 * (1 + ((List.range a).map fun i => areaPages v.ctx.image i teams).sum)
  let head := leBytes 4 1 ++ leBytes 4 (c % 16 + (if v.traps.isEmpty then 0 else 16)) ++ leBytes 4 (feat % 2 ^ 16) ++
    leBytes 4 teams ++ wordBytes v.ctx.hacc ++ wordBytes v.ctx.dsent ++ leBytes 8 v.ctx.replay.length ++
    ((List.range 16).flatMap fun l => leBytes 1 (v.cores l).length) ++ ((List.range 7).flatMap fun a => leBytes 8 (place a))
  head ++ List.replicate (224 - head.length) 0

/-- The bytes of area `a` of a record written at step `t`. -/
def areaBytes (v : SavedCtx) (t a : Nat) : List Byte :=
  let n := 4096 * areaPages v.ctx.image a v.teams.length
  (Config.recordBytes t a ++ List.replicate n 0).take n

/-- A record: header, digest, the rest of the header's page, areas. (DESIGN CHOICE, log 98). -/
def recordImage (v : SavedCtx) (t c pa : Nat) : List Byte :=
  let h := recordHeader v c pa
  let areas := (List.range 7).flatMap (areaBytes v t)
  h ++ sha256 (h ++ areas) ++ List.replicate 3840 0 ++ areas

/-- The block of both instructions: context, PA; a must-be-zero bit or a misaligned PA makes it bad. -/
def saveBlock (b : List Word) : Nat × Nat × Bool :=
  let g (i : Nat) : Word := b.getD i 0
  (bits (g 0) 3 0, (g 1).toNat + (g 2).toNat * 2 ^ 32,
    decide (16 ≤ (g 0).toNat) || decide (256 ≤ (g 2).toNat) || (g 1).toNat % 4096 ≠ 0)

/-- The mailbox of a context that has been saved is fresh; what the supervisor has written stays. -/
def releasedCtx (c : Ctx) : Ctx :=
  { c.emptied with st := 0, hacc := 0, dsent := 0, nextLaunch := 0, csize := 0 }

/-- CTXSAV (R433). -/
def execCtxsav (sd sa : SReg) (s : State) : Host.Outcome State Fault Refusal :=
  slot (.ctxsav sd sa) (fun s => withCore s fun _ =>
    let b := block s sa 4
    let (c, pa, bad) := saveBlock b
    let x := ctxOf s c
    let done (s : State) (v : Word) : Res := .done (uwrite s sd.toNat v)
    if bad then done s 1
    else if x.st ≠ 3 then done s 2
    else if (b.getD 3 0).toNat < x.csize.toNat then done s 3
    else
      let s := unsend (fun _ => true) s c
      let v := collectCtx s c
      let bs := recordImage v s.ticks c pa
      if memSize s < pa + bs.length then .stop (.noSuchPhysicalAddress pa)
      else
        let s := storeCore s 0 pa bs
        let s := updCtx (dropContext s c) c releasedCtx
        done { s with saved := s.saved ++ [{ v with bytes := bs }] } 0) s

/-! ### New numbers for a loaded context's units -/

/-- How numbers move: units by `ids`, program order by `prog`, the context's number from `was` to `now`. -/
structure Shift where
  ids : Nat
  prog : Nat
  was : Nat
  now : Nat
  deriving DecidableEq, Repr

/-- A unit's number; 0 names none. -/
def Shift.num (h : Shift) (n : Nat) : Nat := if n = 0 then 0 else n + h.ids

/-- A table's numbers and entries. -/
def Shift.table {α : Type} (h : Shift) (f : α → α) (t : Table α) : Table α := t.map fun (n, v) => (h.num n, f v)

/-- A context nibble at bit `at'` of a record's word. -/
def Shift.nibble (h : Shift) (i at' : Nat) (ws : List Word) : List Word :=
  let w := ws.getD i 0
  ws.set i (word (w.toNat - bits w (at' + 3) at' * 2 ^ at' + h.now % 16 * 2 ^ at'))

def Shift.trap (h : Shift) (t : Trap) : Trap := { t with target := t.target.map fun (g, x) => (h.num g, x) }

def Shift.mode (h : Shift) (m : Mode) : Mode :=
  match m with
  | .held (.trap t) => .held (.trap (h.trap t))
  | m => m

def Shift.split (h : Shift) (sp : Split) : Split :=
  { sp with mode := h.mode sp.mode, due := sp.due.map h.trap, stopAt := none }

def Shift.group (h : Shift) (g : Group) : Group :=
  { g with task := h.num g.task, team := h.num g.team, splits := g.splits.map fun (x, sp) => (x, h.split sp) }

def Shift.bar (h : Shift) (b : Bar) : Bar := { b with cmds := b.cmds.map fun (p, c) => (p, h.num c) }

def Shift.heldTrap (h : Shift) (t : HeldTrap) : HeldTrap :=
  { t with group := h.num t.group, trap := h.trap t.trap, words := h.nibble 15 16 t.words, id := h.num t.id }

def Shift.coll (h : Shift) (c : Coll) : Coll :=
  { c with cmd := h.num c.cmd, issues := c.issues.map fun i => { i with group := h.num i.group } }

def Shift.team (h : Shift) (t : Team) : Team :=
  { t with
    task := h.num t.task, groups := t.groups.map h.num, bars := t.bars.map fun (n, b) => (n, h.bar b)
    conflict := t.conflict.map fun c => { c with group := h.num c.group }
    sched := t.sched.map fun c => { c with owner := h.num c.owner }
    colls := t.colls.map h.coll, traps := t.traps.map h.heldTrap }

def Shift.task (h : Shift) (t : Task) : Task :=
  { t with launch := h.num t.launch, ready := h.num t.ready, teams := t.teams.map h.num, family := h.num t.family }

def Shift.launch (h : Shift) (l : Launch) : Launch :=
  { l with ctx := h.now, dom := h.num l.dom, families := h.table id l.families }

def Shift.cmd (h : Shift) (c : Cmd) : Cmd :=
  { c with
    group := h.num c.group, team := h.num c.team, task := h.num c.task, prog := c.prog + h.prog
    behind := c.behind.map h.num
    body := match c.body with | .stage ids st => .stage (ids.map h.num) st | b => b }

def Shift.body (h : Shift) (b : EffBody) : EffBody :=
  match b with
  | .yield c => .yield (h.num c)
  | .phreg ph kind party role rank sd => .phreg ph kind (h.num party) role rank sd
  | .phdrop ph kind party sd => .phdrop ph kind (h.num party) sd
  | .phsig ph kind party cand bound sd => .phsig ph kind (h.num party) cand bound sd
  | .window team a bs => .window (h.num team) a bs
  | b => b

def Shift.effect (h : Shift) (e : Effect) : Effect :=
  { e with
    dom := h.num e.dom, launch := h.num e.launch, task := h.num e.task, team := h.num e.team, group := h.num e.group
    prog := e.prog + h.prog, cmd := h.num e.cmd, body := h.body e.body }

def Shift.cont (h : Shift) (c : Cont) : Cont := { c with group := h.num c.group, rank := c.rank.map (· + h.prog) }

def Shift.port (h : Shift) (p : Port) : Port := { p with reader := p.reader.map fun (t, g) => (h.num t, g) }

def Shift.phaser (h : Shift) (p : Phaser) : Phaser :=
  { p with ctx := h.now, parties := p.parties.map (fun q => { q with id := h.num q.id }), waiting := p.waiting.map h.num }

def Shift.msg (h : Shift) (m : Msg) : Msg :=
  { m with ctx := h.now, place := if m.place = 2 ^ 64 then m.place else m.place + h.prog }

def Shift.domain (h : Shift) (doms : List Nat) (d : Domain) : Domain :=
  { d with
    began := h.num d.began
    join := (d.join.filter fun j => doms.contains j.1).map fun j => (h.num j.1, j.2)
    derived := d.derived.map h.msg, reports := d.reports.map h.msg
    late := d.late.map fun (n, e) => (n, h.effect e)
    firings := d.firings.map fun (ws, l, sh) => (ws, h.num l, sh)
    joinSigs := d.joinSigs.map fun (ph, l) => (ph, h.num l) }

def Shift.record (h : Shift) (r : Record) : Record :=
  { r with team := h.num r.team, group := h.num r.group, words := h.nibble 15 16 r.words, act := none
           trap := h.num r.trap }

def Shift.saved (h : Shift) (v : SavedCtx) : SavedCtx :=
  { v with
    num := h.now
    doms := h.table (h.domain (Table.keys v.doms)) v.doms
    launches := h.table h.launch v.launches, tasks := h.table h.task v.tasks, teams := h.table h.team v.teams
    groups := h.table h.group v.groups, cmds := h.table h.cmd v.cmds, effects := v.effects.map h.effect
    conts := h.table h.cont v.conts
    ports := v.ports.map fun (n, p) => (n, h.port p)
    phasers := v.phasers.map fun (n, p) => (n, h.phaser p)
    traps := v.traps.map h.record, debugs := v.debugs.map h.record
    faults := v.faults.map fun (c, ws) => (h.num c, h.nibble 0 20 ws) }

/-! ### Capacity and placement (R434) -/

/-- Saved teams of a logical core of a cluster. -/
def SavedCtx.coreTeams (v : SavedCtx) (l core : Nat) : Table Team :=
  v.live.filter fun (_, tm) => teamCluster tm = l && teamCore tm = core

/-- A physical core has room for the saved teams of a logical one (R6, R19), group g in quadrant g mod 4.
(DEDUCED, log 99). -/
def savedFits (s : State) (v : SavedCtx) (l core die phys : Nat) : Bool :=
  let ts := v.coreTeams l core
  let w := { s with teams := v.teams, groups := v.groups, tasks := v.tasks }
  let need := ts.foldl (fun n e => n + teamHolds w e.2) 0
  let have' := (coreTeams s die phys).foldl (fun n e => n + teamHolds s e.2) 0
  let places := ((coreTeams s die phys).filter fun e => takesPlace s e.2).length +
    (ts.filter fun e => takesPlace w e.2).length
  decide (places ≤ 16) && decide (have' + need ≤ 2 ^ 20) && (List.range 4).all fun q =>
    let gs := v.groups.filter fun (_, g) =>
      !g.exited && !g.parked && g.gidx % 4 = q && (ts.any fun e => e.1 = g.team)
    let here := quadGroups s die phys q
    decide (here.length + gs.length ≤ 16) &&
      decide ((here ++ gs).foldl (fun n (e : Nat × Group) => n + e.2.budget) 0 ≤ 512)

/-- The first assignment of distinct physical numbers below `n` to logical ones, as `fits` allows. -/
def assign {α : Type} (n : Nat) (fits : Nat → Nat → Option α) : List Nat → List Nat → Option (List (Nat × Nat × α))
  | [], _ => some []
  | c :: cs, taken =>
    (List.range n).findSome? fun p =>
      if taken.contains p then none
      else (fits c p).bind fun a => (assign n fits cs (p :: taken)).map fun r => (c, p, a) :: r

/-- Physical cores of a cluster for the logical cores of a saved cluster. -/
def assignCores (s : State) (v : SavedCtx) (l phys : Nat) : Option (List (Nat × Nat × Unit)) :=
  assign 24 (fun core p =>
    if savedFits s v l core (phys / 4) (24 * (phys % 4) + p) then some () else none) (v.cores l) []

/-- Physical clusters for the saved ones, in ascending logical order. -/
def assignClusters (s : State) (v : SavedCtx) : Option (List (Nat × Nat × List (Nat × Nat × Unit))) :=
  assign (4 * (dies s).length) (assignCores s v) ((List.range 16).filter fun l => !(v.cores l).isEmpty) []

/-- Where a saved team resumes: die and core. -/
def placeSaved (m : List (Nat × Nat × List (Nat × Nat × Unit))) (tm : Team) : Team :=
  match m.find? fun e => e.1 = teamCluster tm with
  | some (_, p, cs) =>
    match cs.find? fun c => c.1 = teamCore tm with
    | some (_, core, _) => { tm with die := p / 4, core := 24 * (p % 4) + core }
    | none => tm
  | none => tm

/-- Gives a loaded group a slot of the quadrant g mod 4 of its core. -/
def seatSaved (s : State) (e : Nat × Group) : State :=
  match Table.find s.teams e.2.team with
  | some tm =>
    let grp := if e.2.exited || e.2.parked then e.2 else { e.2 with slot := freeSlot s tm.die tm.core (e.2.gidx % 4) }
    { s with groups := Table.put s.groups e.1 grp }
  | none => { s with groups := Table.put s.groups e.1 e.2 }

/-- Two tables, the second one's entries in place. -/
def putAll {α : Type} (a b : Table α) : Table α := b.foldl (fun t e => Table.put t e.1 e.2) a

/-- The team of a party that is a group or a team. -/
def partyTeam (v : SavedCtx) (q : Party) : Option Nat :=
  match q.kind with
  | 0 => (Table.find v.groups q.id).map (·.team)
  | 1 => some q.id
  | _ => none

/-- The context of a record takes its place under number `c`; its pending commits walk the tables that the supervisor has
set. (DEDUCED, log 99). (DEDUCED, log 119). -/
def restoreCtx (s : State) (c : Nat) (v : SavedCtx) (m : List (Nat × Nat × List (Nat × Nat × Unit))) : State :=
  let w := ({ ids := s.fresh, prog := s.prog, was := v.num, now := c } : Shift).saved v
  let top := (Table.keys w.doms ++ Table.keys w.launches ++ Table.keys w.tasks ++ Table.keys w.teams ++
    Table.keys w.groups ++ Table.keys w.cmds ++ Table.keys w.conts ++
    w.launches.flatMap fun e => Table.keys e.2.families).foldl max (2 * s.fresh)
  let last := (w.effects.map (·.prog) ++ w.cmds.map (·.2.prog)).foldl max (2 * s.prog)
  let teams := w.teams.map fun (n, tm) => (n, placeSaved m tm)
  let leaf (q : Party) : Party := { q with die := (partyTeam w q).elim q.die fun t => ((Table.find teams t).map (·.die)).getD q.die }
  let s := { s with
    fresh := top + 1, prog := last + 1
    doms := putAll s.doms w.doms, launches := putAll s.launches w.launches, tasks := putAll s.tasks w.tasks
    teams := putAll s.teams teams, cmds := putAll s.cmds w.cmds, effects := s.effects ++ w.effects
    conts := putAll s.conts w.conts
    phasers := w.phasers.foldl (fun t (n, p) =>
      let freed := match Table.find t n with | some q => q.freed | none => true
      Table.put t n { p with freed := p.freed || freed, parties := p.parties.map leaf }) s.phasers }
  let s := w.groups.foldl seatSaved s
  let s := w.ports.foldl (fun s (n, p) => updPort s c n fun _ => p) s
  let s := w.patterns.foldl (fun s (n, p) => updPattern s c n fun _ => p) s
  let dieOf (t : Nat) : Nat := ((Table.find s.teams t).map (·.die)).getD 0
  let s := w.traps.foldl (fun s r => queueTrap s (dieOf r.team) r) s
  let s := w.debugs.foldl (fun s r => updCore s (dieOf r.team) fun k => { k with debugQ := k.debugQ ++ [r] }) s
  let s := w.faults.foldl (fun s f =>
    let die := ((Table.find s.cmds f.1).map fun k => dieOf k.team).getD 0
    updCore s die fun k => { k with faultQ := k.faultQ ++ [f] }) s
  let s := updCtx s c fun x =>
    { x with
      st := 1, hacc := v.ctx.hacc, dsent := v.ctx.dsent, inbox := v.ctx.inbox, requests := v.ctx.requests
      replay := v.ctx.replay, playback := v.ctx.playback, replies := v.ctx.replies, flight := [], nextLaunch := v.ctx.nextLaunch, live := v.ctx.live
      full := [] }
  let s := rewalkWhere s fun e => (Table.keys w.launches).contains e.launch
  wakeStalled (flushReplies v.ctx.replies.length s c)

/-! ### Reading a record -/

/-- The contents of a record that this model has not written: the hardware's own layout. -/
opaque Config.foreignRecord : List Byte → SavedCtx

/-- The header of a record in memory: its first 256 bytes; its pointers. -/
def headerPointer (h : List Byte) (a : Nat) : Nat := leNat ((h.drop (48 + 8 * a)).take 8)

/-- The bytes of a record in memory by its header: the areas' extents follow from the pointers. -/
def recordExtent (h : List Byte) : List (Nat × Nat) :=
  let teams := leNat ((h.drop 12).take 4)
  (List.range 7).map fun a =>
    (headerPointer h a,
      if a < 6 then headerPointer h (a + 1) - headerPointer h a else 4096 * (Config.backPages teams % 2 ^ 16))

/-- The record at `pa`, when fmt is 1 and its digest matches. A pointer that leaves package memory matches none.
(DESIGN CHOICE, log 98). -/
def readRecord (s : State) (pa : Nat) : Option SavedCtx :=
  if memSize s < pa + 4096 then none
  else
    let h := physRead s 0 pa 256
    let ext := recordExtent h
    if leNat (h.take 4) ≠ 1 || ext.any fun e => decide (memSize s < e.1 + e.2) then none
    else
      let areas := ext.flatMap fun e => physRead s 0 e.1 e.2
      if sha256 (h.take 224 ++ areas) ≠ h.drop 224 then none
      else
        let bs := h ++ areas
        some ((s.saved.reverse.find? fun v => v.bytes.take 256 ++ v.bytes.drop 4096 = bs).getD (Config.foreignRecord bs))

/-- CTXLD (R434). It waits while a checkpoint runs (R470). A load that a free context fails ends with its forced reset, which
event 6 reports (R429). (DEDUCED, log 99). -/
def execCtxld (sd sa : SReg) (s : State) : Host.Outcome State Fault Refusal :=
  slot (.ctxld sd sa) (fun s => withCore s fun d =>
    let (c, pa, bad) := saveBlock (block s sa 3)
    let x := ctxOf s c
    let done (s : State) (v : Word) : Res := .done (uwrite s sd.toNat v)
    let fail (v : Nat) : Res := done (queueEvent (updCtx s c fun k => { k with cevt := 6 }) d 6 c v) (word v)
    if s.dev.ckptOp.isSome then .stall 15
    else if bad then done s 1
    else if x.st ≠ 0 then done s 2
    else
      match readRecord s pa with
      | none => fail 3
      | some v =>
        if v.launches.any fun e => recFeat e.2.words &&& Config.features ≠ recFeat e.2.words then fail 4
        else
          match assignClusters s v with
          | none => fail 5
          | some m => if !bit (Sparse.get 0 x.kslot d) 4 then fail 6 else done (restoreCtx s c v m) 0) s

end Sys2Proof.Machine
end

