-- ==== Sys2Proof/Machine/HostLink.lean ====
section
/-!
DEFINITION. The host side of the join engine (10_join_engine R347-R350, R355; 15_device R455-R457): doorbells, submission
entries, launch requests, gatherings, replies that become visible.
-/

namespace Sys2Proof.Machine

/-! ### Mailbox registers -/

/-- One more skipped entry or ignored doorbell of a function; the count saturates (R455). -/
def countSkip (s : State) (f : Nat) : State :=
  updFn s f fun fn => { fn with ferr := if fn.ferr = BitVec.allOnes 32 then fn.ferr else fn.ferr + 1 }

/-- SRTAIL_DOORBELL: function `a`, the value. A doorbell on an unmapped function is ignored and counted (R456). -/
def execSrtailDoorbell (s : State) : Host.Outcome State Fault Refusal :=
  if !(hostPorts s).contains (s.arg.a / 16) then .next s
  else match ((Table.find s.dev.fns s.arg.a).getD {}).map with
  | none => .next (countSkip s s.arg.a)
  | some _ => .next (updFn s s.arg.a fun fn => { fn with srtail := s.arg.value.getD 0 })

/-- SVDB_DOORBELL: only a physical function has it (R455). -/
def execSvdbDoorbell (s : State) : Host.Outcome State Fault Refusal :=
  if s.arg.a % 16 = 0 && (hostPorts s).contains (s.arg.a / 16) then .next (queueEvent s 0 1 0 s.arg.a) else .next s

/-- DSACK_WRITE: function `a`, the value; step 4 may have waited for the room (R348). -/
def execDsackWrite (s : State) : Host.Outcome State Fault Refusal :=
  if !(hostPorts s).contains (s.arg.a / 16) then .next s
  else .next (flushAll (updFn s s.arg.a fun fn => { fn with dsack := s.arg.value.getD 0 }))

/-! ### Submission entries (R347, R348) -/

/-- Where the next submission entry of a function stands in host memory, when there is one and its link is up. -/
def nextEntry (s : State) (f : Nat) : Option (Nat × Nat) :=
  match Table.find s.dev.fns f with
  | none => none
  | some fn =>
    match fn.map, ringSize fn.srsize with
    | some ctx, some n =>
      if s.dev.hostDown.contains (f / 16) || fn.srhead = fn.srtail.toNat % n then none
      else some (ctx, hostAddr f (fn.srbase + 16 * fn.srhead))
    | _, _ => none

/-- Takes an entry that is next by its number: a launch request or a message for its context. (DEDUCED, log 69). -/
def acceptEntry (s : State) (ctx : Nat) (hseq port w0 w1 : Word) : State :=
  updCtx s ctx fun c =>
    if bit port 16 then
      { c with hacc := hseq, requests := c.requests ++ [(hseq, w0.toNat + bits w1 23 0 * 2 ^ 32)] }
    else { c with hacc := hseq, inbox := c.inbox ++ [(hseq, bits port 15 0, w0, w1)] }

/-- HOST_SUBMISSION_ENTRY: the next entry of function `a` is read; one whose number does not follow is skipped. -/
def execHostSubmissionEntry (s : State) : Host.Outcome State Fault Refusal :=
  match nextEntry s s.arg.a with
  | none => .next s
  | some (ctx, at') =>
    let ws := bytesWords 4 (Sparse.read 0 s.host at' 16)
    let g (i : Nat) : Word := ws.getD i 0
    let s := updFn s s.arg.a fun fn => { fn with srhead := (fn.srhead + 1) % (ringSize fn.srsize).getD 1 }
    if g 0 ≠ (ctxOf s ctx).hacc + 1 then .next (countSkip s s.arg.a)
    else .next (acceptEntry s ctx (g 0) (g 1) (g 2) (g 3))

/-! ### Launches (R349) -/

/-- A new commit domain: the views of the group table and of the trees as they stand (R391). -/
def newDomain (s : State) (qlen : Nat) : State × Nat :=
  ({ s with fresh := s.fresh + 1
            doms := Table.put s.doms s.fresh { q := qlen, began := s.fresh, groups := s.gtab, trees := s.trees } }, s.fresh)

/-- A launch takes the next number of its context; it waits, without a domain, until it starts.
(DESIGN CHOICE, log 95). -/
def newLaunch (s : State) (ctx : Nat) (ws : List Word) : State × Nat :=
  let id := s.fresh
  let l : Launch :=
    { ctx, num := (ctxOf s ctx).nextLaunch, dom := 0, words := ws, waiting := true, order := id }
  let s := { s with fresh := id + 1, launches := Table.put s.launches id l }
  (updCtx s ctx fun c => { c with st := 1, nextLaunch := c.nextLaunch + 1 }, id)

/-- Launches start as one domain, each with its root task at clock 0; the limit of live tasks, which R299 sets for creations
at step 7, does not keep a root task from being made. (DEDUCED, log 121). -/
def startLaunches (s : State) (ids : List Nat) : State :=
  match ids.head?.bind fun l => Table.find s.launches l with
  | none => s
  | some first =>
    let (s, d) := newDomain s (recQ first.words)
    ids.foldl (fun s id =>
      match Table.find s.launches id with
      | none => s
      | some l =>
        let s := updLaunch s id fun l => { l with dom := d, waiting := false }
        createTask s id l.words 0 0 true []) s

/-- The phasers with a gathering that a record lists (R355). -/
def gatherings (s : State) (ws : List Word) : List Nat :=
  ((recPhasers ws).filter fun id =>
    match phaserOf s id with | some p => decide (2 ≤ p.gather) | none => false).eraseDups

/-- The members of the gathering that launch `l` is in at a phaser, and whether it is full. -/
def gathering (p : Phaser) (l : Nat) : List Nat × Bool :=
  let i := (p.waiting.findIdx? fun x => x = l).getD 0 / p.gather * p.gather
  let ms := (p.waiting.drop i).take p.gather
  (ms, ms.length = p.gather)

/-- The launches that start together with `ls`, and whether all of their gatherings are full. -/
def together (s : State) : Nat → List Nat → List Nat × Bool
  | 0, ls => (ls, true)
  | fuel + 1, ls =>
    let gs := ls.flatMap fun l => s.phasers.filterMap fun (_, p) =>
      if p.waiting.contains l then some (gathering p l) else none
    let all := (ls ++ gs.flatMap (·.1)).eraseDups
    let (more, full) := together s fuel all
    (more, full && gs.all (·.2))

/-- The launches that the `n`-th gathering of a phaser starts, when all of their gatherings are full. -/
def fullGathering (s : State) (ph n : Nat) : Option (List Nat) :=
  match phaserOf s ph with
  | none => none
  | some p =>
    match p.waiting[n * p.gather]? with
    | none => none
    | some l =>
      let (ls, full) := together s (s.launches.length + 1) [l]
      if full then some ls else none

/-- A launch joins the gatherings that its record lists, or starts alone when its quantum differs from the first's
(R355). -/
def gatherLaunch (s : State) (id : Nat) (ws : List Word) : State :=
  let gs := gatherings s ws
  let alone := gs.filter fun ph =>
    match phaserOf s ph with
    | some p =>
      match p.waiting[p.waiting.length / p.gather * p.gather]? with
      | some l => (match Table.find s.launches l with | some l => recQ l.words ≠ recQ ws | none => false)
      | none => false
    | none => false
  if gs.isEmpty || !alone.isEmpty then startLaunches (updLaunch s id fun l => { l with alone }) [id]
  else { s with phasers := gs.foldl (fun t ph => Table.upd t ph fun p => { p with waiting := p.waiting ++ [id] }) s.phasers }

/-- Domains that hold a slot of the clock service (R376). -/
def liveDomains (s : State) : Nat :=
  (s.doms.filter fun (d, _) => s.launches.any fun (_, l) => l.dom = d && !l.ended).length

/-- A launch request of the context can be handled. (DEDUCED, log 69). -/
def canLaunch (s : State) (ctx : Nat) : Bool :=
  let c := ctxOf s ctx
  s.dev.st = 2 && contextsAllowed s && !c.requests.isEmpty && decide (c.st ≤ 1) && decide (liveDomains s < 64)

/-- HOST_LAUNCH_REQUEST: the oldest request of context `a`: its record is read and checked (R294, R349). -/
def execHostLaunchRequest (s : State) : Host.Outcome State Fault Refusal :=
  let ctx := s.arg.a
  match canLaunch s ctx, (ctxOf s ctx).requests with
  | true, (_, va) :: rest =>
    let s := updCtx s ctx fun c => { c with requests := rest }
    -- which number the reply to a refused request gives is not stated
    let refuse (code : Nat) : State := reply s ctx (0, true, Config.refusedLaunch s.ticks, word code)
    match vaRead s ctx 0 false [] va 256 with
    | .error (.hole pa) => .fault (.noSuchPhysicalAddress pa)
    | .error _ => .next (refuse 11)
    | .ok bs =>
      let ws := bytesWords 64 bs
      let code := checkRecord s ws none
      if code ≠ 0 then .next (refuse code)
      else
        let num := (ctxOf s ctx).nextLaunch
        let (s, id) := newLaunch s ctx ws
        .next (reply (gatherLaunch s id ws) ctx (0, true, word num, 0))
  | _, _ => .next s

/-- GATHERED_LAUNCH_START: gathering `b` of phaser `a` is full, and so are all that its launches wait for (R355); its
domain needs a slot of the clock service (R376). -/
def execGatheredLaunchStart (s : State) : Host.Outcome State Fault Refusal :=
  match fullGathering s s.arg.a s.arg.b with
  | none => .next s
  | some ls =>
    if 64 ≤ liveDomains s then .next s
    else
    let leave (p : Phaser) : Phaser := { p with waiting := p.waiting.filter fun l => !ls.contains l }
    .next (startLaunches { s with phasers := s.phasers.map fun (n, p) => (n, leave p) } ls)

/-! ### Replies (R348) -/

/-- The context whose oldest reply in flight is on function `f`. -/
def nextReply (s : State) (f : Nat) : Option (Nat × Nat × (Nat × Bool × Word × Word)) :=
  s.ctxs.findSome? fun (c, x) =>
    match x.flight with
    | r :: _ => if r.1 = f then some (c, r.2.1, r.2.2) else none
    | [] => none

/-- REPLY_ENTRY_VISIBLE: the oldest reply on its way through function `a` stands in host memory, and DSENT covers it. -/
def execReplyEntryVisible (s : State) : Host.Outcome State Fault Refusal :=
  match nextReply s s.arg.a with
  | none => .next s
  | some (ctx, place, r) =>
    let dseq := (ctxOf s ctx).dsent + 1
    let base := ((Table.find s.dev.fns s.arg.a).getD {}).rrbase
    let s := { s with host := Sparse.write 0 s.host (hostAddr s.arg.a (base + 16 * place)) (replyBytes dseq r) }
    let s := updCtx s ctx fun c => { c with dsent := dseq, flight := c.flight.drop 1 }
    .next (flushReplies (ctxOf s ctx).replies.length s ctx)

end Sys2Proof.Machine
end

