-- ==== Sys2Proof/Machine/LaneInt.lean ====
section
/-!
DEFINITION. Integer, bitwise, compare, move, lane-exchange, reduction and scan instructions of the lane engine
(05_lane_engine R193-R199, R205-R210).
-/

namespace Sys2Proof.Machine

/-! ### Shapes -/

/-- The second operand of a vector instruction: a vector register or a uniform register for every lane. -/
inductive Opnd where
  | v (r : VReg)
  | u (r : SReg)

/-- The operand's value for each lane. -/
def Opnd.lanes (s : State) (w : Who) : Opnd → List Word
  | .v r => vecRead w.grp r.toNat
  | .u r => List.replicate 96 (uread s r.toNat)

/-- vd[l] := f(a[l], b[l]) on whole lanes, without flags. -/
def laneSlot (i : Instr) (vd va : VReg) (b : Opnd) (f : Word → Word → Word) (s : State) :
    Host.Outcome State Fault Refusal :=
  slot i (fun s => vecOp s vd fun w =>
    let x := vecRead w.grp va.toNat
    let y := b.lanes s w
    fun l => (f (x.getD l 0) (y.getD l 0), 0)) s

/-- vd[l] := f(a, b, c) on each element of the mode's etype, c being the old vd (R191, R193). -/
def elemSlot (i : Instr) (vd va : VReg) (b : Opnd) (f : Word → Etype → Nat → Nat → Nat → Nat × Word) (s : State) :
    Host.Outcome State Fault Refusal :=
  slot i (fun s => vecOp s vd fun w =>
    let m := w.grp.mode
    let e := modeEtype m
    let n := etypeWidth e
    let x := vecRead w.grp va.toNat
    let y := b.lanes s w
    let z := vecRead w.grp vd.toNat
    fun l => mapElems e fun k =>
      f m e (element (x.getD l 0) n k) (element (y.getD l 0) n k) (element (z.getD l 0) n k)) s

/-- An element as the etype's signedness reads it. -/
def elemVal (e : Etype) (x : Nat) : Int := elemInt (etypeWidth e) (etypeSigned e) x

/-- Fits an exact result by the etype and mode.sat (R124). -/
def fitElem (m : Word) (e : Etype) (v : Int) : Nat × Word := fitInt (etypeWidth e) (etypeSigned e) (modeSat m) v

/-! ### Element functions (R193, R195) -/

def elAdd (m : Word) (e : Etype) (a b _ : Nat) : Nat × Word := fitElem m e (elemVal e a + elemVal e b)
def elSub (m : Word) (e : Etype) (a b _ : Nat) : Nat × Word := fitElem m e (elemVal e a - elemVal e b)
def elMul (m : Word) (e : Etype) (a b _ : Nat) : Nat × Word := fitElem m e (elemVal e a * elemVal e b)
def elMad (m : Word) (e : Etype) (a b c : Nat) : Nat × Word :=
  fitElem m e (elemVal e c + elemVal e a * elemVal e b)
/-- High w bits of the 2w-bit product of signed elements. -/
def elMulhs (_ : Word) (e : Etype) (a b _ : Nat) : Nat × Word :=
  let w := etypeWidth e
  (wrapInt w (elemInt w true a * elemInt w true b / 2 ^ w), 0)
/-- High w bits of the 2w-bit product of unsigned elements. -/
def elMulhu (_ : Word) (e : Etype) (a b _ : Nat) : Nat × Word := (a * b / 2 ^ etypeWidth e, 0)
def elShl (_ : Word) (e : Etype) (a b _ : Nat) : Nat × Word :=
  let w := etypeWidth e
  (if b < w then a * 2 ^ b % 2 ^ w else 0, 0)
def elShr (_ : Word) (e : Etype) (a b _ : Nat) : Nat × Word := (if b < etypeWidth e then a / 2 ^ b else 0, 0)
def elSra (_ : Word) (e : Etype) (a b _ : Nat) : Nat × Word :=
  let w := etypeWidth e
  (wrapInt w (elemInt w true a / 2 ^ min b (w - 1)), 0)
def elMin (_ : Word) (e : Etype) (a b _ : Nat) : Nat × Word := (if elemVal e a ≤ elemVal e b then a else b, 0)
def elMax (_ : Word) (e : Etype) (a b _ : Nat) : Nat × Word := (if elemVal e b ≤ elemVal e a then a else b, 0)
def elMinu (_ : Word) (_ : Etype) (a b _ : Nat) : Nat × Word := (min a b, 0)
def elMaxu (_ : Word) (_ : Etype) (a b _ : Nat) : Nat × Word := (max a b, 0)
/-- 0 − a, fitted: the most negative element keeps itself or saturates, an unsigned one gives 0 under sat. -/
def elNeg (m : Word) (e : Etype) (a _ _ : Nat) : Nat × Word := fitElem m e (-(elemVal e a))
/-- The magnitude of a signed element by the rule of `VNEG`; an unsigned one is kept. -/
def elAbs (m : Word) (e : Etype) (a _ _ : Nat) : Nat × Word :=
  if elemVal e a < 0 then fitElem m e (-(elemVal e a)) else (a, 0)

/-! ### Arithmetic and bitwise instructions (R193, R194) -/

/-- VADD (R193). -/
def execVadd (vd va vb : VReg) (s : State) : Host.Outcome State Fault Refusal :=
  elemSlot (.vadd vd va vb) vd va (.v vb) elAdd s

/-- VSUB (R193). -/
def execVsub (vd va vb : VReg) (s : State) : Host.Outcome State Fault Refusal :=
  elemSlot (.vsub vd va vb) vd va (.v vb) elSub s

/-- VMUL (R193). -/
def execVmul (vd va vb : VReg) (s : State) : Host.Outcome State Fault Refusal :=
  elemSlot (.vmul vd va vb) vd va (.v vb) elMul s

/-- VMULHS (R193). -/
def execVmulhs (vd va vb : VReg) (s : State) : Host.Outcome State Fault Refusal :=
  elemSlot (.vmulhs vd va vb) vd va (.v vb) elMulhs s

/-- VMULHU (R193). -/
def execVmulhu (vd va vb : VReg) (s : State) : Host.Outcome State Fault Refusal :=
  elemSlot (.vmulhu vd va vb) vd va (.v vb) elMulhu s

/-- VAND, on the 32-bit lane (R193). -/
def execVand (vd va vb : VReg) (s : State) : Host.Outcome State Fault Refusal :=
  laneSlot (.vand vd va vb) vd va (.v vb) (fun a b => a &&& b) s

/-- VOR, on the 32-bit lane (R193). -/
def execVor (vd va vb : VReg) (s : State) : Host.Outcome State Fault Refusal :=
  laneSlot (.vor vd va vb) vd va (.v vb) (fun a b => a ||| b) s

/-- VXOR, on the 32-bit lane (R193). -/
def execVxor (vd va vb : VReg) (s : State) : Host.Outcome State Fault Refusal :=
  laneSlot (.vxor vd va vb) vd va (.v vb) (fun a b => a ^^^ b) s

/-- VANDN, on the 32-bit lane (R193). -/
def execVandn (vd va vb : VReg) (s : State) : Host.Outcome State Fault Refusal :=
  laneSlot (.vandn vd va vb) vd va (.v vb) (fun a b => a &&& ~~~ b) s

/-- VSHL (R193). -/
def execVshl (vd va vb : VReg) (s : State) : Host.Outcome State Fault Refusal :=
  elemSlot (.vshl vd va vb) vd va (.v vb) elShl s

/-- VSHR (R193). -/
def execVshr (vd va vb : VReg) (s : State) : Host.Outcome State Fault Refusal :=
  elemSlot (.vshr vd va vb) vd va (.v vb) elShr s

/-- VSRA (R193). -/
def execVsra (vd va vb : VReg) (s : State) : Host.Outcome State Fault Refusal :=
  elemSlot (.vsra vd va vb) vd va (.v vb) elSra s

/-- VMIN (R193). -/
def execVmin (vd va vb : VReg) (s : State) : Host.Outcome State Fault Refusal :=
  elemSlot (.vmin vd va vb) vd va (.v vb) elMin s

/-- VMAX (R193). -/
def execVmax (vd va vb : VReg) (s : State) : Host.Outcome State Fault Refusal :=
  elemSlot (.vmax vd va vb) vd va (.v vb) elMax s

/-- VMINU (R193). -/
def execVminu (vd va vb : VReg) (s : State) : Host.Outcome State Fault Refusal :=
  elemSlot (.vminu vd va vb) vd va (.v vb) elMinu s

/-- VMAXU (R193). -/
def execVmaxu (vd va vb : VReg) (s : State) : Host.Outcome State Fault Refusal :=
  elemSlot (.vmaxu vd va vb) vd va (.v vb) elMaxu s

/-- VMAD (R193). -/
def execVmad (vd va vb : VReg) (s : State) : Host.Outcome State Fault Refusal :=
  elemSlot (.vmad vd va vb) vd va (.v vb) elMad s

/-- VADDS: as VADD with s(sb) in every lane (R194). -/
def execVadds (vd va : VReg) (sb : SReg) (s : State) : Host.Outcome State Fault Refusal :=
  elemSlot (.vadds vd va sb) vd va (.u sb) elAdd s

/-- VSUBS: as VSUB with s(sb) in every lane (R194). -/
def execVsubs (vd va : VReg) (sb : SReg) (s : State) : Host.Outcome State Fault Refusal :=
  elemSlot (.vsubs vd va sb) vd va (.u sb) elSub s

/-- VMULS: as VMUL with s(sb) in every lane (R194). -/
def execVmuls (vd va : VReg) (sb : SReg) (s : State) : Host.Outcome State Fault Refusal :=
  elemSlot (.vmuls vd va sb) vd va (.u sb) elMul s

/-- VSHLS: as VSHL with s(sb) in every lane (R194). -/
def execVshls (vd va : VReg) (sb : SReg) (s : State) : Host.Outcome State Fault Refusal :=
  elemSlot (.vshls vd va sb) vd va (.u sb) elShl s

/-- VSHRS: as VSHR with s(sb) in every lane (R194). -/
def execVshrs (vd va : VReg) (sb : SReg) (s : State) : Host.Outcome State Fault Refusal :=
  elemSlot (.vshrs vd va sb) vd va (.u sb) elShr s

/-- VSRAS: as VSRA with s(sb) in every lane (R194). -/
def execVsras (vd va : VReg) (sb : SReg) (s : State) : Host.Outcome State Fault Refusal :=
  elemSlot (.vsras vd va sb) vd va (.u sb) elSra s

/-- VMINS: as VMIN with s(sb) in every lane (R194). -/
def execVmins (vd va : VReg) (sb : SReg) (s : State) : Host.Outcome State Fault Refusal :=
  elemSlot (.vmins vd va sb) vd va (.u sb) elMin s

/-- VMAXS: as VMAX with s(sb) in every lane (R194). -/
def execVmaxs (vd va : VReg) (sb : SReg) (s : State) : Host.Outcome State Fault Refusal :=
  elemSlot (.vmaxs vd va sb) vd va (.u sb) elMax s

/-- VANDS: as VAND with s(sb) in every lane (R194). -/
def execVands (vd va : VReg) (sb : SReg) (s : State) : Host.Outcome State Fault Refusal :=
  laneSlot (.vands vd va sb) vd va (.u sb) (fun a b => a &&& b) s

/-! ### Unary instructions (R195) -/

/-- VNOT, per lane (R195, R198). -/
def execVnot (vd va : VReg) (s : State) : Host.Outcome State Fault Refusal :=
  laneSlot (.vnot vd va) vd va (.v va) (fun a _ => ~~~ a) s

/-- VCLZ, per lane (R195, R198). -/
def execVclz (vd va : VReg) (s : State) : Host.Outcome State Fault Refusal :=
  laneSlot (.vclz vd va) vd va (.v va) (fun a _ => word (leadingZeros a)) s

/-- VPOP, per lane (R195, R198). -/
def execVpop (vd va : VReg) (s : State) : Host.Outcome State Fault Refusal :=
  laneSlot (.vpop vd va) vd va (.v va) (fun a _ => word (setBits a)) s

/-- VBREV, per lane (R195, R198). -/
def execVbrev (vd va : VReg) (s : State) : Host.Outcome State Fault Refusal :=
  laneSlot (.vbrev vd va) vd va (.v va) (fun a _ => bitReverse a) s

/-- VSEXT8, per lane (R195, R198). -/
def execVsext8 (vd va : VReg) (s : State) : Host.Outcome State Fault Refusal :=
  laneSlot (.vsext8 vd va) vd va (.v va) (fun a _ => signExt 8 a) s

/-- VSEXT16, per lane (R195, R198). -/
def execVsext16 (vd va : VReg) (s : State) : Host.Outcome State Fault Refusal :=
  laneSlot (.vsext16 vd va) vd va (.v va) (fun a _ => signExt 16 a) s

/-- VMOV, per lane (R195, R198). -/
def execVmov (vd va : VReg) (s : State) : Host.Outcome State Fault Refusal :=
  laneSlot (.vmov vd va) vd va (.v va) (fun a _ => a) s

/-- VNEG, per element (R195). -/
def execVneg (vd va : VReg) (s : State) : Host.Outcome State Fault Refusal :=
  elemSlot (.vneg vd va) vd va (.v va) elNeg s

/-- VABS, per element (R195). -/
def execVabs (vd va : VReg) (s : State) : Host.Outcome State Fault Refusal :=
  elemSlot (.vabs vd va) vd va (.v va) elAbs s

/-! ### Compares (R196) -/

/-- Writes the bits of the writing lanes into a triple (R196, R87). -/
def maskResult (s : State) (w : Who) (td : Nat) (p : Nat → Bool) : State :=
  let m := writing s w
  tripleWrite s td ((tripleRead s td &&& ~~~ m) ||| maskFrom fun l => m.getLsbD l && p l)

/-- A compare under the mode's etype: every element must meet the condition, and for NE any (R196). -/
def compareSlot (i : Instr) (td : Nat) (va : VReg) (b : Opnd) (c : Cond) (s : State) :
    Host.Outcome State Fault Refusal :=
  slot i (fun s => withWho s fun w =>
    let e := modeEtype w.grp.mode
    let n := etypeWidth e
    let x := vecRead w.grp va.toNat
    let y := b.lanes s w
    .done (maskResult s w td fun l =>
      let t := (List.range (etypeCount e)).map fun k =>
        condHolds c n (element (x.getD l 0) n k) (element (y.getD l 0) n k)
      if c = .ne then t.any id else t.all id)) s

/-- The conditions of 0x51 by sub value (R103). -/
def condA (c : BitVec 3) : Cond := [Cond.eq, .ne, .lt, .le, .gt, .ge, .ltu, .leu].getD c.toNat .eq

/-- VCMP, conditions EQ to LEU (R196). -/
def execVcmpA (cc : BitVec 3) (td : TReg) (va vb : VReg) (s : State) : Host.Outcome State Fault Refusal :=
  compareSlot (.vcmpA cc td va vb) td.toNat va (.v vb) (condA cc) s

/-- VCMP, GTU and GEU (R196). -/
def execVcmpB (geu : Bool) (td : TReg) (va vb : VReg) (s : State) : Host.Outcome State Fault Refusal :=
  compareSlot (.vcmpB geu td va vb) td.toNat va (.v vb) (if geu then .geu else .gtu) s

/-- VCMPS: compares with s(sb) in every lane (R196). -/
def execVcmps (cc : Cond) (td : BitVec 3) (va : VReg) (sb : SReg) (s : State) : Host.Outcome State Fault Refusal :=
  compareSlot (.vcmps cc td va sb) td.toNat va (.u sb) cc s

/-! ### Moves and single lanes (R198, R199) -/

/-- VSEL: va where the triple's bit is set, vb elsewhere. -/
def execVsel (vd va vb : VReg) (tn : BitVec 3) (s : State) : Host.Outcome State Fault Refusal :=
  slot (.vsel vd va vb tn) (fun s => vecOp s vd fun w =>
    let t := tripleRead s tn.toNat
    let x := vecRead w.grp va.toNat
    let y := vecRead w.grp vb.toNat
    fun l => (if t.getLsbD l then x.getD l 0 else y.getD l 0, 0)) s

/-- VLANE: the lane number. -/
def execVlane (vd : VReg) (s : State) : Host.Outcome State Fault Refusal :=
  slot (.vlane vd) (fun s => vecOp s vd fun _ l => (word l, 0)) s

/-- VBCS: s(sb) in every writing lane. -/
def execVbcs (vd : VReg) (sb : SReg) (s : State) : Host.Outcome State Fault Refusal :=
  slot (.vbcs vd sb) (fun s => vecOp s vd fun _ _ => (uread s sb.toNat, 0)) s

/-- BOUNDS cause lane index. -/
def laneIndexTrap (i : Word) : Trap := { cls := 4, cause := 3, d0 := i, d1 := 96 }

/-- VGET: sd := va[s(sd)], whether or not the lane is active. -/
def execVget (sd : SReg) (va : VReg) (s : State) : Host.Outcome State Fault Refusal :=
  slot (.vget sd va) (fun s => withWho s fun w =>
    let i := uread s sd.toNat
    if 96 ≤ i.toNat then .trap (laneIndexTrap i)
    else
      .ok { s := uwrite s sd.toNat (laneRead w.grp va.toNat i.toNat)
            items := laneItems va.toNat [i.toNat] false }) s

/-- VPUT: vd[s(sb+1)] := s(sb), only when that lane is a writing lane. -/
def execVput (vd : VReg) (sb : SReg) (s : State) : Host.Outcome State Fault Refusal :=
  slot (.vput vd sb) (fun s => withWho s fun w =>
    let v := uread s sb.toNat
    let i := uread s (sb.toNat + 1)
    if 96 ≤ i.toNat then .trap (laneIndexTrap i)
    else if (writing s w).getLsbD i.toNat then
      .ok { s := updGroup s w.g fun grp => vecWrite grp vd.toNat (fun l => l = i.toNat) fun _ => v
            items := laneItems vd.toNat [i.toNat] true }
    else .done s) s

/-! ### Integer dot products (R205) -/

/-- c plus the element products, fitted once. -/
def dotInt (m : Word) (w : Nat) (signed : Bool) (a b c : Word) : Word × Word :=
  let n := 32 / w
  let v := (List.range n).foldl (fun acc k =>
    acc + elemInt w signed (element a w k) * elemInt w signed (element b w k)) (elemInt 32 signed c.toNat)
  let (r, fl) := fitInt 32 signed (modeSat m) v
  (BitVec.ofNat 32 r, fl)

/-- A dot product into vd. -/
def dotSlot (i : Instr) (vd va vb : VReg) (f : Word → Word → Word → Word → Word × Word) (s : State) :
    Host.Outcome State Fault Refusal :=
  slot i (fun s => vecOp s vd fun w =>
    let x := vecRead w.grp va.toNat
    let y := vecRead w.grp vb.toNat
    let z := vecRead w.grp vd.toNat
    fun l => f w.grp.mode (x.getD l 0) (y.getD l 0) (z.getD l 0)) s

/-- VDOT4I8: four I8 products into I32. -/
def execVdot4i8 (vd va vb : VReg) (s : State) : Host.Outcome State Fault Refusal :=
  dotSlot (.vdot4i8 vd va vb) vd va vb (fun m => dotInt m 8 true) s

/-- VDOT4U8: four U8 products into U32. -/
def execVdot4u8 (vd va vb : VReg) (s : State) : Host.Outcome State Fault Refusal :=
  dotSlot (.vdot4u8 vd va vb) vd va vb (fun m => dotInt m 8 false) s

/-- VDOT8I4: eight I4 products into I32. -/
def execVdot8i4 (vd va vb : VReg) (s : State) : Host.Outcome State Fault Refusal :=
  dotSlot (.vdot8i4 vd va vb) vd va vb (fun m => dotInt m 4 true) s

/-! ### Lane exchange (R206-R208) -/

/-- vd[l] := a[src l], every source lane that an active lane names counting as read, whether or not the guard lets its
value through. (DEDUCED, log 34). -/
def crossSlot (i : Instr) (vd va : VReg) (src : State → Who → Nat → Option Nat) (other : List Word → Nat → Word)
    (s : State) : Host.Outcome State Fault Refusal :=
  slot i (fun s => withWho s fun w =>
    let x := vecRead w.grp va.toNat
    let o := laneResults s w vd.toNat fun l =>
      (match src s w l with | some k => x.getD k 0 | none => other x l, 0)
    .ok { o with
      items := laneItems va.toNat ((lanesOf w.sp.mask).map fun l => (src s w l).getD l).eraseDups false ++ o.items }) s

/-- A source lane inside 0-95. -/
def inLanes (k : Int) : Option Nat := if 0 ≤ k ∧ k < 96 then some k.toNat else none

/-- VPERM: vd[l] := va[vb[l]], 0 when the index is 96 or more. -/
def execVperm (vd va vb : VReg) (s : State) : Host.Outcome State Fault Refusal :=
  slot (.vperm vd va vb) (fun s => withWho s fun w =>
    let x := vecRead w.grp va.toNat
    let y := vecRead w.grp vb.toNat
    let o := laneResults s w vd.toNat fun l =>
      let k := (y.getD l 0).toNat
      (if k < 96 then x.getD k 0 else 0, 0)
    let srcs := ((lanesOf w.sp.mask).map fun l => (y.getD l 0).toNat).filter fun k => k < 96
    .ok { o with items := laneItems va.toNat srcs.eraseDups false ++ o.items }) s

/-- VSHX: vd[l] := va[l XOR d], and va[l] when that leaves 0-95. -/
def execVshx (vd va : VReg) (sb : SReg) (s : State) : Host.Outcome State Fault Refusal :=
  crossSlot (.vshx vd va sb) vd va (fun s _ l => inLanes (Nat.xor l (uread s sb.toNat).toNat : Nat)) (fun x l => x.getD l 0) s

/-- VSHU: vd[l] := va[l − d], and va[l] when that leaves 0-95. -/
def execVshu (vd va : VReg) (sb : SReg) (s : State) : Host.Outcome State Fault Refusal :=
  crossSlot (.vshu vd va sb) vd va (fun s _ l => inLanes ((l : Int) - (uread s sb.toNat).toNat)) (fun x l => x.getD l 0) s

/-- VSHD: vd[l] := va[l + d], and va[l] when that leaves 0-95. -/
def execVshd (vd va : VReg) (sb : SReg) (s : State) : Host.Outcome State Fault Refusal :=
  crossSlot (.vshd vd va sb) vd va (fun s _ l => inLanes ((l : Int) + (uread s sb.toNat).toNat)) (fun x l => x.getD l 0) s

/-! ### Reductions and scans (R209, R210, R146) -/

/-- The identity of a minimum or a maximum of integer elements. -/
def intIdentity (e : Etype) (isMax : Bool) : Nat :=
  let w := etypeWidth e
  wrapInt w (if isMax then intLow w (etypeSigned e) else intHigh w (etypeSigned e))

/-- A fold of one element position over lanes, from an identity. -/
def foldElems (xs : List Nat) (id : Nat) (f : Nat → Nat → Nat) : Nat :=
  match xs with
  | [] => id
  | x :: rest => rest.foldl f x

/-- The better of two ranked integer candidates (R144). -/
def intRankBetter (e : Etype) (isMax : Bool) (a b : Nat × Nat) : Bool :=
  let x := elemVal e a.1
  let y := elemVal e b.1
  if x = y then decide (a.2 < b.2) else if isMax then decide (y < x) else decide (x < y)

/-- The winner of ranked candidates. -/
def rankBest (better : Nat × Nat → Nat × Nat → Bool) : List (Nat × Nat) → Option (Nat × Nat)
  | [] => none
  | c :: cs => some (cs.foldl (fun b x => if better x b then x else b) c)

/-- Elements of position `k` over active lanes. -/
def columnOf (x : List Word) (lanes : List Nat) (w k : Nat) : List Nat := lanes.map fun l => element (x.getD l 0) w k

/-- Candidates (element, index) of the index forms: index l × k + e. -/
def candidates (x : List Word) (lanes : List Nat) (e : Etype) : List (Nat × Nat) :=
  lanes.flatMap fun l =>
    (List.range (etypeCount e)).map fun k => (element (x.getD l 0) (etypeWidth e) k, l * etypeCount e + k)

/-- One element position reduced by an operation that is no index form, with flags. -/
def reduceElem (m : Word) (e : Etype) (op : RedOp) (xs : List Nat) : Nat × Word :=
  let w := etypeWidth e
  let ones := 2 ^ w - 1
  let r := modeRnd m
  match op with
  | .add => fitElem m e (xs.foldl (fun a x => a + elemVal e x) 0)
  | .and => (foldElems xs ones (fun a b => Nat.land a b), 0)
  | .or => (foldElems xs 0 (fun a b => Nat.lor a b), 0)
  | .xor => (foldElems xs 0 (fun a b => Nat.xor a b), 0)
  | .min => (foldElems xs (intIdentity e false) fun a b => (elMin m e a b 0).1, 0)
  | .max => (foldElems xs (intIdentity e true) fun a b => (elMax m e a b 0).1, 0)
  | .minu => (foldElems xs ones min, 0)
  | .maxu => (foldElems xs 0 max, 0)
  | _ =>
    match etypeFmt e with
    | none => (0, 0)
    | some f =>
      match op with
      | .fadd => exactSum f r.rm r.ftz r.daz (xs.map fun x => (f, x)) (xs.map fun x => ⟨false, [(f, x)]⟩)
      | .fmin => f.flush r.ftz (xs.foldl (fun a x => let b := fPick f r.daz false a.1 x; (b.1, a.2 ||| b.2)) ((f.inf false).1, 0))
      | .fmax => f.flush r.ftz (xs.foldl (fun a x => let b := fPick f r.daz true a.1 x; (b.1, a.2 ||| b.2)) ((f.inf true).1, 0))
      | _ => (0, 0)

/-- An index form: the winning value and index, with flags (R144, R146). -/
def reduceIndex (e : Etype) (op : RedOp) (cs : List (Nat × Nat)) : Nat × Nat × Word :=
  match op with
  | .maxi | .mini =>
    match rankBest (intRankBetter e (op = .maxi)) cs with
    | some b => (b.1, b.2, 0)
    | none => (intIdentity e (op = .maxi), 0xFFFFFFFF, 0)
  | _ =>
    match etypeFmt e with
    | none => (0, 0, 0)
    | some f =>
      let fl := flagIf (cs.any fun c => f.isSnan c.1) fNV
      match rankBest (fRankBetter f (op = .fmaxi)) cs with
      | some b => (if f.isNan b.1 then f.quiet b.1 else b.1, b.2, fl)
      | none => ((f.inf (op = .fmaxi)).1, 0xFFFFFFFF, 0)

/-- VRED: reduces over the active lanes, guard ignored. -/
def execVred (op : RedOp) (sd : SReg) (va : VReg) (s : State) : Host.Outcome State Fault Refusal :=
  slot (.vred op sd va) (fun s => withWho s fun w =>
    let m := w.grp.mode
    let e := if op = .and ∨ op = .or ∨ op = .xor then Etype.u32 else modeEtype m
    let x := vecRead w.grp va.toNat
    let ls := lanesOf w.sp.mask
    if RedOp.isIndex op then
      let (v, i, fl) := reduceIndex e op (candidates x ls e)
      .done (raiseFlags (uwrite (uwrite s sd.toNat (word v)) (sd.toNat + 1) (word i)) w fl)
    else
      let (v, fl) := mapElems e fun k => reduceElem m e op (columnOf x ls (etypeWidth e) k)
      .done (raiseFlags (uwrite s sd.toNat v) w fl)) s

/-- The reduction that a scan prefixes: MAX and MIN by the kind of the etype. -/
def scanRed (op : ScanOp) (e : Etype) : RedOp :=
  match op with
  | .add => .add
  | .fadd => .fadd
  | .max => if (etypeFmt e).isSome then .fmax else .max
  | .min => if (etypeFmt e).isSome then .fmin else .min

/-- VSCAN: a prefix over the active lanes to each writing lane. -/
def execVscan (op : ScanOp) (excl : Bool) (vd va : VReg) (s : State) : Host.Outcome State Fault Refusal :=
  slot (.vscan op excl vd va) (fun s => vecOp s vd fun w =>
    let m := w.grp.mode
    let e := modeEtype m
    let x := vecRead w.grp va.toNat
    let ls := lanesOf w.sp.mask
    fun l =>
      let js := ls.filter fun j => if excl then decide (j < l) else decide (j ≤ l)
      mapElems e fun k => reduceElem m e (scanRed op e) (columnOf x js (etypeWidth e) k)) s

end Sys2Proof.Machine
end

