-- ==== Sys2Proof/Machine/LaneMem.lean ====
section
/-!
DEFINITION. The lane engine's scratchpad instructions (05_lane_engine R212-R225): contiguous and per-lane loads
and stores, scratchpad atomics, the spill stack.
-/

namespace Sys2Proof.Machine

/-! ### Loads and stores -/

/-- The writing lanes with the addresses of a contiguous access (R214). -/
def runAddrs (s : State) (w : Who) (sb : SReg) (off : Word) (n : Nat) : List (Nat × Nat) :=
  (lanesOf (writing s w)).map fun l => (l, (uread s sb.toNat + off + word (n * l)).toNat)

/-- The base of a contiguous access. -/
def runBase (s : State) (sb : SReg) (off : Word) : Nat := (uread s sb.toNat + off).toNat

/-- The writing lanes with the addresses that their lanes of va hold (R215). -/
def gatherAddrs (s : State) (w : Who) (va : VReg) : List (Nat × Nat) :=
  let a := vecRead w.grp va.toNat
  (lanesOf (writing s w)).map fun l => (l, (a.getD l 0).toNat)

/-- The accesses of lanes, for the sharing rules. -/
def laneAccs (places : List (Nat × Nat × Nat)) (n how : Nat) : List Acc :=
  places.map fun (_, t, off) => ⟨t, off, n, how⟩

/-- What the local comparators see of lanes. -/
def laneLooks (addrs : List (Nat × Nat)) (n : Nat) (rd wr : Bool) : List Look :=
  addrs.map fun (l, a) => localLook a n l rd wr

/-- A load of `n` bytes for each accessing lane, zero-extended (R214-R216). -/
def laneLoad (s : State) (w : Who) (vd : VReg) (n : Nat) (base : Option Nat) (addrs : List (Nat × Nat)) : Res :=
  .bind (placeLanes s w false n base addrs) fun places =>
    let accs := laneAccs places n 0
    if heldAccess s w accs then .stall 7
    else
      let vals := places.map fun (l, t, off) => (l, bytesWord (spadRead s w t off n))
      let has (l : Nat) : Bool := places.any fun p => p.1 = l
      .ok
        { s := if places.isEmpty then s
            else updGroup s w.g fun grp => vecWrite grp vd.toNat has fun l => (Table.find vals l).getD 0
          accs, items := laneItems vd.toNat (places.map (·.1)) true, looks := laneLooks addrs n true false }

/-- A store of the low `n` bytes of each accessing lane (R214-R217). -/
def laneStore (s : State) (w : Who) (vd : VReg) (n : Nat) (base : Option Nat) (addrs : List (Nat × Nat)) : Res :=
  .bind (placeLanes s w false n base addrs) fun places =>
    let accs := laneAccs places n 1
    if heldAccess s w accs then .stall 7
    else
      let v := vecRead w.grp vd.toNat
      .ok
        { s := spadWrites s w (places.map fun (l, t, off) => (t, off, leBytes n (v.getD l 0).toNat))
          accs, looks := laneLooks addrs n false true }

/-- VLD (R214). -/
def execVld (vd : VReg) (sb : SReg) (off : Word) (s : State) : Host.Outcome State Fault Refusal :=
  slot (.vld vd sb off) (fun s => withWho s fun w =>
    laneLoad s w vd 4 (some (runBase s sb off)) (runAddrs s w sb off 4)) s

/-- VLDH (R214). -/
def execVldh (vd : VReg) (sb : SReg) (off : Word) (s : State) : Host.Outcome State Fault Refusal :=
  slot (.vldh vd sb off) (fun s => withWho s fun w =>
    laneLoad s w vd 2 (some (runBase s sb off)) (runAddrs s w sb off 2)) s

/-- VLDB (R214). -/
def execVldb (vd : VReg) (sb : SReg) (off : Word) (s : State) : Host.Outcome State Fault Refusal :=
  slot (.vldb vd sb off) (fun s => withWho s fun w =>
    laneLoad s w vd 1 (some (runBase s sb off)) (runAddrs s w sb off 1)) s

/-- VST (R214). -/
def execVst (vd : VReg) (sb : SReg) (off : Word) (s : State) : Host.Outcome State Fault Refusal :=
  slot (.vst vd sb off) (fun s => withWho s fun w =>
    laneStore s w vd 4 (some (runBase s sb off)) (runAddrs s w sb off 4)) s

/-- VSTH (R214). -/
def execVsth (vd : VReg) (sb : SReg) (off : Word) (s : State) : Host.Outcome State Fault Refusal :=
  slot (.vsth vd sb off) (fun s => withWho s fun w =>
    laneStore s w vd 2 (some (runBase s sb off)) (runAddrs s w sb off 2)) s

/-- VSTB (R214). -/
def execVstb (vd : VReg) (sb : SReg) (off : Word) (s : State) : Host.Outcome State Fault Refusal :=
  slot (.vstb vd sb off) (fun s => withWho s fun w =>
    laneStore s w vd 1 (some (runBase s sb off)) (runAddrs s w sb off 1)) s

/-- VLDC: per-lane addresses (R215). -/
def execVldc (width : Width) (vd va : VReg) (s : State) : Host.Outcome State Fault Refusal :=
  slot (.vldc width vd va) (fun s => withWho s fun w =>
    laneLoad s w vd (widthBytes width) none (gatherAddrs s w va)) s

/-- VSTC: per-lane addresses (R215). -/
def execVstc (width : Width) (vd va : VReg) (s : State) : Host.Outcome State Fault Refusal :=
  slot (.vstc width vd va) (fun s => withWho s fun w =>
    laneStore s w vd (widthBytes width) none (gatherAddrs s w va)) s

/-! ### Atomics (R219, R220) -/

/-- F32 minimum and maximum of an atomic: the smaller pattern among quieted NaNs when there is one. -/
def atomicFloat (isMax : Bool) (a b : Word) : Word × Word :=
  let f := fmtF32
  let nans := [a.toNat, b.toNat].filter f.isNan
  match nans with
  | [] => (word (fPick f false isMax a.toNat b.toNat).1, 0)
  | n :: ns =>
    (word (ns.foldl (fun m x => min m (f.quiet x)) (f.quiet n)), flagIf (nans.any f.isSnan) fNV)

/-- The result of a minimum or maximum by kind, with flags. -/
def atomicMinMax (k : AtKind) (isMax : Bool) (a b : Word) : Word × Word :=
  match k with
  | .i32 => (if isMax then maxS a b else minS a b, 0)
  | .u32 => (if isMax then maxU a b else minU a b, 0)
  | .f32 => atomicFloat isMax a b

/-- One lane of an atomic: memory, the old values in order, the flags. -/
def atomicLane (op : Word → Word → Word × Word) (mem : Sparse Byte) (off : Nat) (b : Word) :
    Sparse Byte × Word × Word :=
  let old := bytesWord (Sparse.read 0 mem off 4)
  let r := op old b
  (Sparse.write 0 mem off (wordBytes r.1), old, r.2)

/-- All lanes of an atomic in ascending order: memory, (lane, old value), flags. -/
def atomicLanes (op : Word → Word → Word × Word) (b : List Word) :
    List (Nat × Nat × Nat) → Sparse Byte → List (Nat × Word) → Word → Sparse Byte × List (Nat × Word) × Word
  | [], mem, olds, fl => (mem, olds.reverse, fl)
  | (l, _, off) :: rest, mem, olds, fl =>
    let r := atomicLane op mem off (b.getD l 0)
    atomicLanes op b rest r.1 ((l, r.2.1) :: olds) (fl ||| r.2.2)

/-- The allocation after the atomics of an instruction, which has left `mem` as the issuer's group sees it: what the groups
have changed together takes each of their operations (R61, R224). -/
def Team.atomics (tm : Team) (w : Who) (op : Word → Word → Word × Word) (b : List Word) (places : List (Nat × Nat × Nat))
    (mem : Sparse Byte) : Team :=
  let all := (atomicLanes op b places tm.mem [] 0).1
  let n := (b0Span w.sp).2
  places.foldl (fun tm p =>
    (tm.store n w.grp.gidx p.2.2 (Sparse.read 0 all p.2.2 4)).veil n w.grp.gidx mem p.2.2 4) tm

/-- A scratchpad atomic: code `k` tells the operations and kinds apart for commutative stripes (R221). -/
def atomicSlot (i : Instr) (k : Nat) (ret : Bool) (vd va vb : VReg) (op : Word → Word → Word × Word) (s : State) :
    Host.Outcome State Fault Refusal :=
  slot i (fun s => withWho s fun w =>
    let addrs := gatherAddrs s w va
    .bind (placeLanes s w true 4 none addrs) fun places =>
      let accs := laneAccs places 4 (if ret then 1 else 2 + k)
      if heldAccess s w accs then .stall 7
      else
        let (mem, olds, fl) := atomicLanes op (vecRead w.grp vb.toNat) places (ownSpad w w.team) [] 0
        let s := raiseFlags s w fl
        let s := if places.isEmpty then s
          else updTeam s w.grp.team fun tm => tm.atomics w op (vecRead w.grp vb.toNat) places mem
        let s := if ret && !places.isEmpty then
            updGroup s w.g fun grp =>
              vecWrite grp vd.toNat (fun l => (Table.find olds l).isSome) fun l => (Table.find olds l).getD 0
          else s
        .ok { s, accs, items := if ret then laneItems vd.toNat (places.map (·.1)) true else []
              looks := laneLooks addrs 4 true true }) s

/-- The number of an atomic's kind. -/
def atKindCode : AtKind → Nat
  | .i32 => 0 | .u32 => 1 | .f32 => 2

/-- VATADD (R219). -/
def execVatadd (ret : Bool) (vd va vb : VReg) (s : State) : Host.Outcome State Fault Refusal :=
  atomicSlot (.vatadd ret vd va vb) 0 ret vd va vb (fun a b => (a + b, 0)) s

/-- VATAND (R219). -/
def execVatand (ret : Bool) (vd va vb : VReg) (s : State) : Host.Outcome State Fault Refusal :=
  atomicSlot (.vatand ret vd va vb) 1 ret vd va vb (fun a b => (a &&& b, 0)) s

/-- VATOR (R219). -/
def execVator (ret : Bool) (vd va vb : VReg) (s : State) : Host.Outcome State Fault Refusal :=
  atomicSlot (.vator ret vd va vb) 2 ret vd va vb (fun a b => (a ||| b, 0)) s

/-- VATXOR (R219). -/
def execVatxor (ret : Bool) (vd va vb : VReg) (s : State) : Host.Outcome State Fault Refusal :=
  atomicSlot (.vatxor ret vd va vb) 3 ret vd va vb (fun a b => (a ^^^ b, 0)) s

/-- VATMIN (R219, R220). -/
def execVatmin (kind : AtKind) (ret : Bool) (vd va vb : VReg) (s : State) : Host.Outcome State Fault Refusal :=
  atomicSlot (.vatmin kind ret vd va vb) (4 + atKindCode kind) ret vd va vb (atomicMinMax kind false) s

/-- VATMAX (R219, R220). -/
def execVatmax (kind : AtKind) (ret : Bool) (vd va vb : VReg) (s : State) : Host.Outcome State Fault Refusal :=
  atomicSlot (.vatmax kind ret vd va vb) (7 + atKindCode kind) ret vd va vb (atomicMinMax kind true) s

/-- VATXCHG (R219). -/
def execVatxchg (vd va vb : VReg) (s : State) : Host.Outcome State Fault Refusal :=
  atomicSlot (.vatxchg vd va vb) 10 true vd va vb (fun _ b => (b, 0)) s

/-! ### The spill stack (R225) -/

/-- VSPILL: pushes the lanes of the split's lane set. -/
def execVspill (va : VReg) (s : State) : Host.Outcome State Fault Refusal :=
  slot (.vspill va) (fun s => withWho s fun w =>
    let n := w.sp.spill
    if n = 16 then .trap { cls := 4, cause := 7, d0 := 16, d1 := 16 }
    else
      let a := vecRead w.grp va.toNat
      let old := Sparse.get zeroVec w.grp.spills n
      let new := (List.range 96).map fun l => if w.sp.lanes.getLsbD l then a.getD l 0 else old.getD l 0
      .done (updSplit (updGroup s w.g fun grp => { grp with spills := Sparse.set zeroVec grp.spills n new }) w.g w.x
        fun sp => { sp with spill := n + 1 })) s

/-- VFILL: pops into the lanes of the split's lane set. -/
def execVfill (vd : VReg) (s : State) : Host.Outcome State Fault Refusal :=
  slot (.vfill vd) (fun s => withWho s fun w =>
    if w.sp.spill = 0 then .trap { cls := 4, cause := 8, d0 := 0, d1 := 16 }
    else
      let n := w.sp.spill - 1
      let slotv := Sparse.get zeroVec w.grp.spills n
      let s := updGroup s w.g fun grp =>
        vecWrite grp vd.toNat (fun l => w.sp.lanes.getLsbD l) fun l => slotv.getD l 0
      .ok { s := updSplit s w.g w.x fun sp => { sp with spill := n }
            items := laneItems vd.toNat (lanesOf w.sp.lanes) true }) s

end Sys2Proof.Machine
end

