-- ==== Sys2Proof/Machine/LaneFloat.lean ====
section
/-!
DEFINITION. Floating-point, conversion and packing instructions of the lane engine (05_lane_engine R200-R205).
-/

namespace Sys2Proof.Machine

/-- vd[l] := f(a, b, c) on each element of the mode's float etype. -/
def floatSlot (i : Instr) (vd va : VReg) (b : Opnd) (f : Fmt → Rnd → Nat → Nat → Nat → Nat × Word) (s : State) :
    Host.Outcome State Fault Refusal :=
  elemSlot i vd va b (fun m e x y z =>
    match etypeFmt e with
    | some t => f t (modeRnd m) x y z
    | none => (0, 0)) s

/-! ### Arithmetic (R200) -/

/-- VFADD (R200). -/
def execVfadd (vd va vb : VReg) (s : State) : Host.Outcome State Fault Refusal :=
  floatSlot (.vfadd vd va vb) vd va (.v vb) (fun t r a b _ => fAdd t r false a b) s

/-- VFSUB (R200). -/
def execVfsub (vd va vb : VReg) (s : State) : Host.Outcome State Fault Refusal :=
  floatSlot (.vfsub vd va vb) vd va (.v vb) (fun t r a b _ => fAdd t r true a b) s

/-- VFMUL (R200). -/
def execVfmul (vd va vb : VReg) (s : State) : Host.Outcome State Fault Refusal :=
  floatSlot (.vfmul vd va vb) vd va (.v vb) (fun t r a b _ => fMul t r a b) s

/-- VFMIN (R200). -/
def execVfmin (vd va vb : VReg) (s : State) : Host.Outcome State Fault Refusal :=
  floatSlot (.vfmin vd va vb) vd va (.v vb) (fun t r a b _ => fMinMax t r false a b) s

/-- VFMAX (R200). -/
def execVfmax (vd va vb : VReg) (s : State) : Host.Outcome State Fault Refusal :=
  floatSlot (.vfmax vd va vb) vd va (.v vb) (fun t r a b _ => fMinMax t r true a b) s

/-- VFCPYS (R200). -/
def execVfcpys (vd va vb : VReg) (s : State) : Host.Outcome State Fault Refusal :=
  floatSlot (.vfcpys vd va vb) vd va (.v vb) (fun t _ a b _ => (fCopySign t a b, 0)) s

/-- VFMA (R200). -/
def execVfma (vd va vb : VReg) (s : State) : Host.Outcome State Fault Refusal :=
  floatSlot (.vfma vd va vb) vd va (.v vb) (fun t r a b c => fFma t r false false a b c) s

/-- VFMS (R200). -/
def execVfms (vd va vb : VReg) (s : State) : Host.Outcome State Fault Refusal :=
  floatSlot (.vfms vd va vb) vd va (.v vb) (fun t r a b c => fFma t r false true a b c) s

/-- VFNMA (R200). -/
def execVfnma (vd va vb : VReg) (s : State) : Host.Outcome State Fault Refusal :=
  floatSlot (.vfnma vd va vb) vd va (.v vb) (fun t r a b c => fFma t r true false a b c) s

/-- VFNMS (R200). -/
def execVfnms (vd va vb : VReg) (s : State) : Host.Outcome State Fault Refusal :=
  floatSlot (.vfnms vd va vb) vd va (.v vb) (fun t r a b c => fFma t r true true a b c) s

/-- VFADDS, with s(sb) in every lane (R200). -/
def execVfadds (vd va : VReg) (sb : SReg) (s : State) : Host.Outcome State Fault Refusal :=
  floatSlot (.vfadds vd va sb) vd va (.u sb) (fun t r a b _ => fAdd t r false a b) s

/-- VFMULS, with s(sb) in every lane (R200). -/
def execVfmuls (vd va : VReg) (sb : SReg) (s : State) : Host.Outcome State Fault Refusal :=
  floatSlot (.vfmuls vd va sb) vd va (.u sb) (fun t r a b _ => fMul t r a b) s

/-- VFMAS, with s(sb) in every lane (R200). -/
def execVfmas (vd va : VReg) (sb : SReg) (s : State) : Host.Outcome State Fault Refusal :=
  floatSlot (.vfmas vd va sb) vd va (.u sb) (fun t r a b c => fFma t r false false a b c) s

/-! ### Unary (R201) -/

/-- VFABS (R201). -/
def execVfabs (vd va : VReg) (s : State) : Host.Outcome State Fault Refusal :=
  floatSlot (.vfabs vd va) vd va (.v va) (fun t _ a _ _ => (fAbs t a, 0)) s

/-- VFNEG (R201). -/
def execVfneg (vd va : VReg) (s : State) : Host.Outcome State Fault Refusal :=
  floatSlot (.vfneg vd va) vd va (.v va) (fun t _ a _ _ => (fNeg t a, 0)) s

/-- VFRINT (R201). -/
def execVfrint (vd va : VReg) (s : State) : Host.Outcome State Fault Refusal :=
  floatSlot (.vfrint vd va) vd va (.v va) (fun t r a _ _ => fIntegral t r none a) s

/-- VFTRUNC (R201). -/
def execVftrunc (vd va : VReg) (s : State) : Host.Outcome State Fault Refusal :=
  floatSlot (.vftrunc vd va) vd va (.v va) (fun t r a _ _ => fIntegral t r (some 1) a) s

/-- VFFLOOR (R201). -/
def execVffloor (vd va : VReg) (s : State) : Host.Outcome State Fault Refusal :=
  floatSlot (.vffloor vd va) vd va (.v va) (fun t r a _ _ => fIntegral t r (some 2) a) s

/-- VFCEIL (R201). -/
def execVfceil (vd va : VReg) (s : State) : Host.Outcome State Fault Refusal :=
  floatSlot (.vfceil vd va) vd va (.v va) (fun t r a _ _ => fIntegral t r (some 3) a) s

/-- VFCLASS (R201). -/
def execVfclass (vd va : VReg) (s : State) : Host.Outcome State Fault Refusal :=
  floatSlot (.vfclass vd va) vd va (.v va) (fun t _ a _ _ => (fClass t a, 0)) s

/-- VFCMP: compares float elements into a triple (R197). -/
def execVfcmp (cc : FCond) (td : TReg) (va vb : VReg) (s : State) : Host.Outcome State Fault Refusal :=
  slot (.vfcmp cc td va vb) (fun s => withWho s fun w =>
    let m := w.grp.mode
    let e := modeEtype m
    match etypeFmt e with
    | none => .done s
    | some t =>
      let n := etypeWidth e
      let x := vecRead w.grp va.toNat
      let y := vecRead w.grp vb.toNat
      let res (l : Nat) : List (Bool × Word) := (List.range (etypeCount e)).map fun k =>
        fCond t (modeDaz m) cc (element (x.getD l 0) n k) (element (y.getD l 0) n k)
      let fl := (lanesOf (writing s w)).foldl (fun a l => (res l).foldl (fun a r => a ||| r.2) a) 0
      let s := maskResult s w td.toNat fun l =>
        if cc = .ne then (res l).any (·.1) else (res l).all (·.1)
      .done (raiseFlags s w fl)) s

/-! ### Conversion and packing (R202-R204) -/

/-- One element converted from source etype `se` to `de`. -/
def convertElem (m : Word) (se de : Etype) (x : Nat) : Nat × Word :=
  let r := modeRnd m
  match etypeFmt se, etypeFmt de with
  | some f, some g => cvtFF f g r x
  | some f, none => cvtFI f (etypeWidth de) (etypeSigned de) r x
  | none, some g => cvtIF g r (elemVal se x)
  | none, none => fitElem m de (elemVal se x)

/-- Element e of the source becomes element e of the result; the others are 0. -/
def convertLane (m : Word) (se : Etype) (x : Word) : Word × Word :=
  mapElems (modeEtype m) fun k =>
    if k < etypeCount se then convertElem m se (modeEtype m) (element x (etypeWidth se) k) else (0, 0)

/-- A conversion from a source etype. -/
def convertSlot (i : Instr) (vd va : VReg) (se : Etype) (s : State) : Host.Outcome State Fault Refusal :=
  slot i (fun s => vecOp s vd fun w =>
    let x := vecRead w.grp va.toNat
    fun l => convertLane w.grp.mode se (x.getD l 0)) s

/-- VCVT from source etypes 0-7. -/
def execVcvtLow (vd va : VReg) (src : BitVec 3) (s : State) : Host.Outcome State Fault Refusal :=
  convertSlot (.vcvtLow vd va src) vd va (etypeOf src.toNat) s

/-- VCVT from source etypes 8-11. -/
def execVcvtHigh (vd va : VReg) (src : BitVec 3) (s : State) : Host.Outcome State Fault Refusal :=
  convertSlot (.vcvtHigh vd va src) vd va (etypeOf (8 + src.toNat)) s

/-- MODE raised by an instruction that is neutral: aux names the kind of the etype in force. (DEDUCED, log 31). -/
def etypeTrap (m : Word) : Trap := { cls := 3, cause := 1, aux := if floatEtype m then 1 else 0, d0 := m }

/-- A 32-bit lane value narrowed to the element width (R203). -/
def narrow (m : Word) (e : Etype) (x : Word) : Nat × Word :=
  match etypeFmt e with
  | some f => cvtFF fmtF32 f (modeRnd m) x.toNat
  | none => fitElem m e (elemInt 32 (etypeSigned e) x.toNat)

/-- VPACK: two narrowed values below the old contents shifted up. -/
def execVpack (vd va vb : VReg) (s : State) : Host.Outcome State Fault Refusal :=
  slot (.vpack vd va vb) (fun s => withWho s fun w =>
    let m := w.grp.mode
    let e := modeEtype m
    let n := etypeWidth e
    if n = 32 then .trap (etypeTrap m)
    else vecOp s vd fun w =>
      let x := vecRead w.grp va.toNat
      let y := vecRead w.grp vb.toNat
      let z := vecRead w.grp vd.toNat
      fun l =>
        let (a, f1) := narrow m e (x.getD l 0)
        let (b, f2) := narrow m e (y.getD l 0)
        (BitVec.ofNat 32 ((z.getD l 0).toNat * 2 ^ (2 * n) + b * 2 ^ n + a), f1 ||| f2)) s

/-- VUNPK: element p widened to 32 bits. -/
def execVunpk (vd va : VReg) (part : BitVec 3) (s : State) : Host.Outcome State Fault Refusal :=
  slot (.vunpk vd va part) (fun s => withWho s fun w =>
    let m := w.grp.mode
    let e := modeEtype m
    let n := etypeWidth e
    if n = 32 || etypeCount e ≤ part.toNat then .trap (etypeTrap m)
    else vecOp s vd fun w =>
      let x := vecRead w.grp va.toNat
      fun l =>
        let v := element (x.getD l 0) n part.toNat
        match etypeFmt e with
        | some f =>
          let (r, fl) := cvtFF f fmtF32 { modeRnd m with ftz := false } v
          (BitVec.ofNat 32 r, fl)
        | none => (BitVec.ofInt 32 (elemVal e v), 0)) s

/-! ### Float dot products (R205) -/

/-- The element products and the F32 accumulator as one exact sum; a NaN is chosen from va, vb, then vd. -/
def dotFloat (f : Fmt) (m a b c : Word) : Word × Word :=
  let r := modeRnd m
  let ks := List.range (32 / f.width)
  let xs := ks.map fun k => (f, element a f.width k)
  let ys := ks.map fun k => (f, element b f.width k)
  let ts : List Term := (List.zip xs ys).map fun p => ⟨false, [p.1, p.2]⟩
  let (v, fl) := exactSum fmtF32 r.rm r.ftz r.daz (xs ++ ys ++ [(fmtF32, c.toNat)])
    (ts ++ [⟨false, [(fmtF32, c.toNat)]⟩])
  (BitVec.ofNat 32 v, fl)

/-- VDOT4F8A, rounded once into F32. -/
def execVdot4f8a (vd va vb : VReg) (s : State) : Host.Outcome State Fault Refusal :=
  dotSlot (.vdot4f8a vd va vb) vd va vb (dotFloat fmtF8A) s

/-- VDOT4F8B, rounded once into F32. -/
def execVdot4f8b (vd va vb : VReg) (s : State) : Host.Outcome State Fault Refusal :=
  dotSlot (.vdot4f8b vd va vb) vd va vb (dotFloat fmtF8B) s

/-- VDOT2F16, rounded once into F32. -/
def execVdot2f16 (vd va vb : VReg) (s : State) : Host.Outcome State Fault Refusal :=
  dotSlot (.vdot2f16 vd va vb) vd va vb (dotFloat fmtF16) s

/-- VDOT2BF16, rounded once into F32. -/
def execVdot2bf16 (vd va vb : VReg) (s : State) : Host.Outcome State Fault Refusal :=
  dotSlot (.vdot2bf16 vd va vb) vd va vb (dotFloat fmtBF16) s

end Sys2Proof.Machine
end

