-- ==== Sys2Proof/Machine/Log.lean ====
section
/-!
DEFINITION. The log engine (06_log_engine R231-R243) over L32 (03_numbers R153-R155). Results that are no dyadic
numbers are bounded by fixed-point intervals whose ends are narrowed until both round alike.
-/

namespace Sys2Proof.Machine

/-! ### L32 words -/

/-- An L32 value: NaN (`rsv` for a reserved code), infinity, zero, or a sign and a log in units of 2^-21. -/
inductive LVal where
  | nan (rsv : Bool)
  | inf (neg : Bool)
  | zero (neg : Bool)
  | num (neg : Bool) (lg : Int)
  deriving DecidableEq, Repr

/-- The value of a word (R153, R154). -/
def lDecode (w : Word) : LVal :=
  let neg := bit w 31
  let lg := bits w 29 0
  if bit w 30 then
    match lg with
    | 0 => .zero neg
    | 1 => .inf neg
    | 2 => .nan false
    | _ => .nan true
  else .num neg (elemInt 30 true lg)

/-- Special words. -/
def lNan : Word := 0x40000002
def lZero (neg : Bool) : Word := if neg then 0xC0000000 else 0x40000000
def lInf (neg : Bool) : Word := if neg then 0xC0000001 else 0x40000001

/-- A finite word. -/
def lNum (neg : Bool) (lg : Int) : Word :=
  BitVec.ofNat 32 ((lg % 2 ^ 30).toNat + (if neg then 2 ^ 31 else 0))

/-- NV for a reserved operand (R154). -/
def lReserved (v : LVal) : Word := flagIf (v = .nan true) fNV

/-- R155: the log v / 2^p (with `sticky`: and less than one unit more) rounded for a value of sign `neg`. -/
def lRound (rm : Nat) (neg : Bool) (v : Int) (p : Nat) (sticky : Bool) : Word × Word :=
  let d : Int := 2 ^ p
  let n := v / d
  let r := (v % d).toNat
  let ix := r ≠ 0 || sticky
  let up := match rm with
    | 0 => decide (2 ^ p < 2 * r) || (2 * r = 2 ^ p && (sticky || n % 2 ≠ 0))
    | 1 => false
    | 2 => neg && ix
    | _ => !neg && ix
  let n := if up then n + 1 else n
  let away := (rm = 2 && neg) || (rm = 3 && !neg)
  if 2 ^ 29 ≤ n then (if rm = 0 || away then lInf neg else lNum neg (2 ^ 29 - 1), fOF ||| fNX)
  else if n < -(2 ^ 29) then (if away then lNum neg (-(2 ^ 29)) else lZero neg, fUF ||| fNX)
  else (lNum neg n, flagIf ix fNX)

/-! ### Bounds of powers and logarithms -/

/-- The integer square root, from bit `n` down. -/
def rootBits (x : Nat) : Nat → Nat → Nat
  | 0, r => r
  | n + 1, r => let c := r + 2 ^ n; rootBits x n (if c * c ≤ x then c else r)

/-- Bounds of 2^(f / 2^k), scaled by 2^p, strict when f is not 0: the factors 2^(1/2), 2^(1/4), … for the set bits
of f from the highest of its `k` bits down. -/
def powBounds (p : Nat) : Nat → Nat → Nat × Nat → Nat × Nat → Nat × Nat
  | 0, _, _, acc => acc
  | k + 1, f, root, acc =>
    let lo := rootBits (root.1 * 2 ^ p) (p + 1) 0
    let hi := rootBits (root.2 * 2 ^ p) (p + 1) 0 + 1
    let acc := if f / 2 ^ k % 2 = 1 then (acc.1 * lo / 2 ^ p, acc.2 * hi / 2 ^ p + 1) else acc
    powBounds p k f (lo, hi) acc

/-- Bounds of 2^(f / 2^21) in [1, 2), scaled by 2^p. -/
def pow2 (p f : Nat) : Nat × Nat := powBounds p 21 f (2 * 2 ^ p, 2 * 2 ^ p) (2 ^ p, 2 ^ p)

/-- The next `n` bits of log2 of a number in [1, 2] given by its bounds scaled by 2^p; none when the bounds do not
decide a bit. -/
def logBits (p : Nat) : Nat → Nat × Nat → Nat → Option Nat
  | 0, _, acc => some acc
  | n + 1, (lo, hi), acc =>
    let lo := lo * lo / 2 ^ p
    let hi := hi * hi / 2 ^ p + 1
    if 2 * 2 ^ p ≤ lo then logBits p n (lo / 2, hi / 2 + 1) (2 * acc + 1)
    else if hi ≤ 2 * 2 ^ p then logBits p n (lo, hi) (2 * acc)
    else none

/-- 2^22 × log2 of a number that lies strictly between bounds scaled by 2^p, rounded down; the number's logarithm
is irrational. -/
def logFloor (p lo hi : Nat) : Option Int :=
  if lo = 0 then none
  else
    let k : Int := (highBit lo : Int) - p
    let n (x : Nat) : Nat := if 0 ≤ k then x / 2 ^ k.toNat else x * 2 ^ (-k).toNat
    let hi' := n hi + (if 0 ≤ k then 1 else 0)
    if 2 * 2 ^ p < n hi then none
    else (logBits p 22 (n lo, hi') 0).map fun b => k * 2 ^ 22 + b

/-- The precisions tried, up to 2^36 bits. The numbers compared, a power or a root of 2 and a bound between two results,
are algebraic of degree at most 2^22 and differ, so that they differ by more than 2^-(2^35): the last one decides.
(DEDUCED, log 16). -/
def precisions : List Nat := (List.range 31).map fun i => 64 * 2 ^ i

/-- The result of the first precision at which both bounds round alike. (DEDUCED, log 16). -/
def decideAmong (f : Nat → (Word × Word) × (Word × Word)) : List Nat → Word × Word
  | [] => (0, 0)
  | p :: ps => let r := f p; if r.1 = r.2 || ps.isEmpty then r.1 else decideAmong f ps

/-- The result that a precision decides. (DEDUCED, log 16). -/
def decideBy (f : Nat → (Word × Word) × (Word × Word)) : Word × Word := decideAmong f precisions

/-- Rounding of c × 2^(lg / 2^21), an irrational log in units of 2^-21 for c ≠ 0 and lg no multiple of 2^21, or an
exact one otherwise. -/
def roundPower (rm : Nat) (neg : Bool) (c lg : Int) : Word × Word :=
  let k := lg / 2 ^ 21
  let f := (lg % 2 ^ 21).toNat
  let m : Int := if 0 ≤ k then 2 ^ k.toNat else 1
  let sh := (-k).toNat
  if c = 0 then lRound rm neg 0 0 false
  else if f = 0 then lRound rm neg (c * m) sh false
  else
    decideBy fun p =>
      let (lo, hi) := pow2 p f
      let (a, b) : Int × Int := if 0 ≤ c then (c * lo, c * hi) else (c * hi, c * lo)
      (lRound rm neg (a * m) (p + sh) true, lRound rm neg (b * m - 1) (p + sh) true)

/-! ### The operations (R237-R243) -/

/-- F32 to L32 (R237). -/
def lFromF32 (r : Rnd) (a : Word) : Word × Word :=
  match fmtF32.decode r.daz a.toNat with
  | .nan _ => (lNan, flagIf (fmtF32.isSnan a.toNat) fNV)
  | .inf n => (lInf n, 0)
  | .zero n => (lZero n, 0)
  | .fin n m e =>
    let h := highBit m
    if m = 2 ^ h then lRound r.rm n ((e + h) * 2 ^ 21) 0 false
    else
      decideBy fun p =>
        match logFloor p (m * 2 ^ p) (m * 2 ^ p + 1) with
        | some v => let x := lRound r.rm n (e * 2 ^ 22 + v) 1 true; (x, x)
        | none => ((0, 0), (0, 1))

/-- L32 to F32 (R237). -/
def lToF32 (r : Rnd) (a : Word) : Word × Word :=
  let w (x : Nat × Word) : Word × Word := (word x.1, x.2)
  match lDecode a with
  | .nan rsv => (0x7FC00000, flagIf rsv fNV)
  | .inf n => (word (fmtF32.inf n).1, 0)
  | .zero n => (word (fmtF32.zero n), 0)
  | .num n lg =>
    let k := lg / 2 ^ 21
    let f := (lg % 2 ^ 21).toNat
    if f = 0 then w (fmtF32.round r.rm r.ftz n 1 k false)
    else
      decideBy fun p =>
        let (lo, hi) := pow2 p f
        (w (fmtF32.round r.rm r.ftz n lo (k - p) true), w (fmtF32.round r.rm r.ftz n (hi - 1) (k - p) true))

/-- LEXP (R240). -/
def lExp (rm : Nat) (a : Word) : Word × Word :=
  match lDecode a with
  | .nan rsv => (lNan, flagIf rsv fNV)
  | .zero _ => (0, 0)
  | .inf n => (if n then lZero false else lInf false, 0)
  | .num n lg => roundPower rm false (if n then -(2 ^ 21) else 2 ^ 21) lg

/-- LMUL (R238). -/
def lMul (rm : Nat) (a b : Word) : Word × Word :=
  let s := xor (bit a 31) (bit b 31)
  match lDecode a, lDecode b with
  | .nan p, y => (lNan, flagIf p fNV ||| lReserved y)
  | _, .nan q => (lNan, flagIf q fNV)
  | .zero _, .inf _ | .inf _, .zero _ => (lNan, fNV)
  | .zero _, _ | _, .zero _ => (lZero s, 0)
  | .inf _, _ | _, .inf _ => (lInf s, 0)
  | .num _ x, .num _ y => lRound rm s (x + y) 0 false

/-- LDIV (R238). -/
def lDiv (rm : Nat) (a b : Word) : Word × Word :=
  let s := xor (bit a 31) (bit b 31)
  match lDecode a, lDecode b with
  | .nan p, y => (lNan, flagIf p fNV ||| lReserved y)
  | _, .nan q => (lNan, flagIf q fNV)
  | .zero _, .zero _ | .inf _, .inf _ => (lNan, 0)
  | .zero _, _ => (lZero s, 0)
  | .num .., .zero _ => (lInf s, fDZ)
  | .inf _, _ => (lInf s, 0)
  | _, .inf _ => (lZero s, 0)
  | .num _ x, .num _ y => lRound rm s (x - y) 0 false

/-- LSQRT (R239). -/
def lSqrt (rm : Nat) (a : Word) : Word × Word :=
  match lDecode a with
  | .nan rsv => (lNan, flagIf rsv fNV)
  | .zero n => (lZero n, 0)
  | .inf n => (if n then lNan else lInf false, 0)
  | .num n lg => if n then (lNan, 0) else lRound rm false lg 1 false

/-- LRSQ (R239). -/
def lRsq (rm : Nat) (a : Word) : Word × Word :=
  match lDecode a with
  | .nan rsv => (lNan, flagIf rsv fNV)
  | .zero n => (lInf n, fDZ)
  | .inf n => (if n then lNan else lZero false, 0)
  | .num n lg => if n then (lNan, 0) else lRound rm false (-lg) 1 false

/-- LRCP (R239). -/
def lRcp (rm : Nat) (a : Word) : Word × Word :=
  match lDecode a with
  | .nan rsv => (lNan, flagIf rsv fNV)
  | .zero n => (lInf n, fDZ)
  | .inf n => (lZero n, 0)
  | .num n lg => lRound rm n (-lg) 0 false

/-- LPOW (R241), rows top down. A finite non-zero b is an integer exactly when its log is a whole number of
binary places from 0 on, and odd only when |b| is 1. -/
def lPow (rm : Nat) (a b : Word) : Word × Word :=
  let x := lDecode a
  let y := lDecode b
  let nv := lReserved x ||| lReserved y
  let zeroB := match y with | .zero _ => true | _ => false
  if zeroB || a = 0 then (0, nv)
  else
    match x, y with
    | .nan _, _ | _, .nan _ => (lNan, nv)
    | x, .inf n =>
      let large := match x with | .inf _ => true | .num _ lg => decide (0 < lg) | _ => false
      if a = 0x80000000 then (0, 0)
      else (if large != n then lInf false else lZero false, 0)
    | .zero s, .num n lg => let neg := s && lg = 0; (if n then lInf neg else lZero neg, 0)
    | .inf s, .num n lg => let neg := s && lg = 0; (if n then lZero neg else lInf neg, 0)
    | .num s la, .num n lb =>
      if s && !(decide (0 ≤ lb) && lb % 2 ^ 21 = 0) then (lNan, 0)
      else roundPower rm (s && lb = 0) (if n then -la else la) lb
    | _, .zero _ => (0, nv)

/-- LADD (R242). -/
def lAdd (rm : Nat) (a b : Word) : Word × Word :=
  match lDecode a, lDecode b with
  | .nan p, y => (lNan, flagIf p fNV ||| lReserved y)
  | _, .nan q => (lNan, flagIf q fNV)
  | .inf s, .inf t => if s = t then (lInf s, 0) else (lNan, fNV)
  | .inf s, _ | _, .inf s => (lInf s, 0)
  | .zero s, .zero t => (lZero ((s && t) || rm = 2), 0)
  | .zero _, .num t y => (lNum t y, 0)
  | .num s x, .zero _ => (lNum s x, 0)
  | .num s x, .num t y =>
    let (sg, hi, sub, d) := if x < y then (t, y, xor s t, y - x) else (s, x, xor s t, x - y)
    if d = 0 then (if sub then (lZero (rm = 2), 0) else lRound rm sg (hi + 2 ^ 21) 0 false)
    else if sub && d = 2 ^ 21 then lRound rm sg (hi - 2 ^ 21) 0 false
    else
      let k := -(-d / 2 ^ 21)
      let f := ((-d) % 2 ^ 21).toNat
      decideBy fun p =>
        -- bounds of 2^(-d / 2^21), scaled by 2^p
        let (tl, th) := let q := pow2 p f; (q.1 / 2 ^ k.toNat, q.2 / 2 ^ k.toNat + 1)
        let (lo, hi') := if sub then (2 ^ p - th, 2 ^ p - tl) else (2 ^ p + tl, 2 ^ p + th)
        match logFloor p lo hi' with
        | some v => let r := lRound rm sg (2 * hi + v) 1 true; (r, r)
        | none => ((0, 0), (0, 1))

/-- LFIX (R243). -/
def lFix (a : Word) : Word × Word :=
  match lDecode a with
  | .nan _ => (0, fNV)
  | .inf _ => (0x7FFFFFFF, 0)
  | .zero _ => (0x80000000, 0)
  | .num _ lg => (BitVec.ofInt 32 lg, 0)

/-- LFLT (R243). -/
def lFlt (rm : Nat) (a : Word) : Word × Word :=
  if a = 0x80000000 then (lZero false, 0) else lRound rm false a.toInt 0 false

/-! ### The engine (R231-R235) -/

/-- A log operation: every writing lane's result and flags are computed from the operands at issue and arrive at
completion. -/
def logSlot (i : Instr) (vd va : VReg) (vb : Option VReg) (f : Rnd → Word → Word → Word × Word) (s : State) :
    Host.Outcome State Fault Refusal :=
  slot i (fun s => withWho s fun w =>
    let a := vecRead w.grp va.toNat
    let b := match vb with | some v => vecRead w.grp v.toNat | none => zeroVec
    let r := modeRnd w.grp.mode
    let ls := lanesOf (writing s w)
    let c : Cmd :=
      { group := w.g, split := w.x, team := w.grp.team, task := w.grp.task
        flag := (w.sp.clause.map Clause.flag).getD 15, sd := vd.toNat, into := [w.x], key := agentKey w
        clock := w.sp.clock, prog := s.prog
        body := .log (ls.map fun l => (l, f r (a.getD l 0) (b.getD l 0))) }
    .ok { s := (newCmd s c).2, items := laneItems vd.toNat ls true }) s

/-- LCVT_L (R237). -/
def execLcvtL (vd va : VReg) (s : State) : Host.Outcome State Fault Refusal :=
  logSlot (.lcvtL vd va) vd va none (fun r a _ => lFromF32 r a) s

/-- LCVT_F (R237). -/
def execLcvtF (vd va : VReg) (s : State) : Host.Outcome State Fault Refusal :=
  logSlot (.lcvtF vd va) vd va none (fun r a _ => lToF32 r a) s

/-- LEXP (R240). -/
def execLexp (vd va : VReg) (s : State) : Host.Outcome State Fault Refusal :=
  logSlot (.lexp vd va) vd va none (fun r a _ => lExp r.rm a) s

/-- LMUL (R238). -/
def execLmul (vd va vb : VReg) (s : State) : Host.Outcome State Fault Refusal :=
  logSlot (.lmul vd va vb) vd va (some vb) (fun r a b => lMul r.rm a b) s

/-- LDIV (R238). -/
def execLdiv (vd va vb : VReg) (s : State) : Host.Outcome State Fault Refusal :=
  logSlot (.ldiv vd va vb) vd va (some vb) (fun r a b => lDiv r.rm a b) s

/-- LSQRT (R239). -/
def execLsqrt (vd va : VReg) (s : State) : Host.Outcome State Fault Refusal :=
  logSlot (.lsqrt vd va) vd va none (fun r a _ => lSqrt r.rm a) s

/-- LRSQ (R239). -/
def execLrsq (vd va : VReg) (s : State) : Host.Outcome State Fault Refusal :=
  logSlot (.lrsq vd va) vd va none (fun r a _ => lRsq r.rm a) s

/-- LRCP (R239). -/
def execLrcp (vd va : VReg) (s : State) : Host.Outcome State Fault Refusal :=
  logSlot (.lrcp vd va) vd va none (fun r a _ => lRcp r.rm a) s

/-- LPOW (R241). -/
def execLpow (vd va vb : VReg) (s : State) : Host.Outcome State Fault Refusal :=
  logSlot (.lpow vd va vb) vd va (some vb) (fun r a b => lPow r.rm a b) s

/-- LADD (R242). -/
def execLadd (vd va vb : VReg) (s : State) : Host.Outcome State Fault Refusal :=
  logSlot (.ladd vd va vb) vd va (some vb) (fun r a b => lAdd r.rm a b) s

/-- LSUB: LADD with the sign of b inverted (R242). -/
def execLsub (vd va vb : VReg) (s : State) : Host.Outcome State Fault Refusal :=
  logSlot (.lsub vd va vb) vd va (some vb) (fun r a b => lAdd r.rm a (b ^^^ 0x80000000)) s

/-- LFIX (R243). -/
def execLfix (vd va : VReg) (s : State) : Host.Outcome State Fault Refusal :=
  logSlot (.lfix vd va) vd va none (fun _ a _ => lFix a) s

/-- LFLT (R243). -/
def execLflt (vd va : VReg) (s : State) : Host.Outcome State Fault Refusal :=
  logSlot (.lflt vd va) vd va none (fun r a _ => lFlt r.rm a) s

/-- The results of a log operation: a value and flags for each lane (R233). -/
def logOuts (v : Nat) (rs : List (Nat × Word × Word)) : List (Nat × Nat × Nat × Word) :=
  laneOuts v (rs.map fun r => (r.1, r.2.1)) ++ rs.map fun r => (2, 0, r.1, r.2.2)

/-- LOG_OPERATION_COMPLETE: command `a` delivers its results. -/
def execLogOperationComplete (s : State) : Host.Outcome State Fault Refusal :=
  match Table.find s.cmds s.arg.a with
  | some c =>
    match c.body with
    | .log rs => .next (finishCmd s s.arg.a c (logOuts c.sd rs))
    | _ => .next s
  | none => .next s

end Sys2Proof.Machine
end

