-- ==== Sys2Proof/Machine/Matrix.lean ====
section
/-!
DEFINITION. The matrix engine (08_matrix_engine R266-R291; 03_numbers R142, R149, R150): formats and tiles, the exact
K-step, the activation table and the fused chain, and the seven instructions. A command takes its operands and acts on
the team's matrix state in issue order (R269); what it gives to registers, scratchpad and ports comes at its completion.
-/

namespace Sys2Proof.Machine

/-! ### Formats (R272, R273) -/

/-- Bits of an element of a format code. -/
def mxWidth (fmt : Nat) : Nat := match fmt with | 1 => 4 | 4 => 16 | 5 => 16 | _ => 8

/-- Tile depth K of a format code. -/
def mxDepth (fmt : Nat) : Nat := 1024 / mxWidth fmt

/-- The float format of a format code. -/
def mxFmt (fmt : Nat) : Fmt :=
  match fmt with | 2 => fmtF8A | 3 => fmtF8B | 4 => fmtF16 | _ => fmtBF16

/-- Integer formats. -/
def mxInt (fmt : Nat) : Bool := decide (fmt < 2)

/-- The elements of packed bytes, element 0 lowest. -/
def packedElems (w : Nat) : List Byte → List Nat
  | [] => []
  | [b] => if w = 4 then [b.toNat % 16, b.toNat / 16] else [b.toNat]
  | b :: c :: bs =>
    if w = 16 then (b.toNat + 256 * c.toNat) :: packedElems w bs
    else if w = 4 then b.toNat % 16 :: b.toNat / 16 :: packedElems w (c :: bs)
    else b.toNat :: packedElems w (c :: bs)

/-- Row `k` of a weight tile: 64 elements. -/
def tileRow (t : Tile) (k : Nat) : List Nat :=
  let n := 8 * mxWidth t.fmt
  packedElems (mxWidth t.fmt) (Sparse.read 0 t.bytes (n * k) n)

/-- A list of rows as columns of `n` elements. -/
def columnsOf {α : Type} (n : Nat) : List (List α) → List (List α)
  | [] => List.replicate n []
  | r :: rs => List.zipWith List.cons r (columnsOf n rs)

/-- The 64 columns of a tile, of depth K. -/
def tileColumns (t : Tile) : List (List Nat) := columnsOf 64 ((List.range (mxDepth t.fmt)).map (tileRow t))

/-! ### NaN causes (R142) -/

/-- The quiet NaN of the matrix path with a cause mask. -/
def mxNan (m : Nat) : Nat := 0x7FC00000 + m % 16

/-- The causes that an accumulator word that is a NaN contributes. -/
def accCauses (code : Nat) : Nat := if code / 16 * 16 = 0x7FC00000 then code % 16 else 1

/-- The status bits of a cause mask. -/
def causeBits (m : Nat) : Word := word (m % 16 * 2 ^ 8)

/-! ### K-steps (R279, R148-R150) -/

/-- A special value is a NaN, or a signalling one. -/
def FVal.isNan : FVal → Bool | .nan _ => true | _ => false
def FVal.signals : FVal → Bool | .nan s => s | _ => false
def FVal.isInf : FVal → Bool | .inf _ => true | _ => false
def FVal.isZero : FVal → Bool | .zero _ => true | _ => false
def FVal.negative : FVal → Bool | .inf n => n | .zero n => n | .fin n _ _ => n | .nan _ => false

/-- One product of a K-step with its scales: its value, its causes, and whether it is an invalid operation.
(DEDUCED, log 117). -/
def mxProduct (a b s t : FVal) : TermVal × Nat × Bool :=
  let fs := [a, b, s, t]
  let el := a.isNan || b.isNan
  let sc := s.isNan || t.isNan
  let zi := fs.any FVal.isZero && fs.any FVal.isInf
  let sign := fs.foldl (fun n f => xor n f.negative) false
  let causes := (if el then 1 else 0) + (if sc then 2 else 0) + if zi then 8 else 0
  let v : TermVal :=
    if el || sc || zi then .nan
    else if fs.any FVal.isInf then .inf sign
    else if fs.any FVal.isZero then .zero sign
    else
      let p := fs.foldl (fun (p : Nat × Int) f => match f with | .fin _ m e => (p.1 * m, p.2 + e) | _ => p) (1, 0)
      .fin (if sign then -(p.1 : Int) else p.1) p.2
  (v, causes, zi || fs.any FVal.signals)

/-- Bits of two cause masks. -/
def orCauses (a b : Nat) : Nat := a ||| b

/-- BF16 products are truncated to a window of 64 bits below the largest (R150). -/
def mxTruncate (ts : List TermVal) : List TermVal :=
  let leads := ts.filterMap fun t => match t with | .fin v e => some ((v.natAbs.log2 : Int) + e) | _ => none
  match leads with
  | [] => ts
  | l :: ls =>
    let lo := ls.foldl max l - 63
    ts.map fun t =>
      match t with
      | .fin v e =>
        if lo ≤ e then t
        else
          let m := v.natAbs / 2 ^ (lo - e).toNat
          if m = 0 then .zero (decide (v < 0)) else .fin (if v < 0 then -(m : Int) else m) lo
      | _ => t

/-- One K-step of one element: the new accumulator word and status bits. -/
def mxStep (rm : Nat) (ftz bf : Bool) (ps : List (TermVal × Nat × Bool)) (acc : Nat) : Nat × Word :=
  let a := fmtF32.decode false acc
  let causes := ps.foldl (fun c p => orCauses c p.2.1) (if a.isNan then accCauses acc else 0)
  let invalid := ps.any (fun p => p.2.2) || a.signals
  let products := ps.map (·.1)
  let own : TermVal :=
    match a with
    | .nan _ => .nan
    | .inf n => .inf n
    | .zero n => .zero n
    | .fin n m e => .fin (if n then -(m : Int) else m) e
  let vs := (if bf then mxTruncate products else products) ++ [own]
  let clash := vs.contains (.inf false) && vs.contains (.inf true)
  let causes := if clash then orCauses causes 4 else causes
  if clash || vs.contains .nan then (mxNan causes, flagIf (invalid || clash) fNV ||| causeBits causes)
  else if vs.contains (.inf false) then ((fmtF32.inf false).1, 0)
  else if vs.contains (.inf true) then ((fmtF32.inf true).1, 0)
  else
    let (v, e) := sumFinite vs
    fmtF32.ofDyadic rm ftz v e (vs.all (fun t => t = .zero true) || rm = 2)

/-- One integer K-step of one element (R125). -/
def mxIntStep (sat : Bool) (w : Nat) (row col : List Nat) (acc : Word) : Nat × Word :=
  fitInt 32 true sat ((List.zipWith (fun a b => elemInt w true a * elemInt w true b) row col).foldl (· + ·) acc.toInt)

/-- The rounding context that a command captures. -/
structure MxMode where
  rm : Nat
  ftz : Bool
  sat : Bool

/-- One K-step of a row of 64 accumulator words with the columns of a tile: new words and status bits. -/
def mxRowStep (m : MxMode) (fmt wfmt : Nat) (cols : List (List Nat)) (scales : List Word) (ascl : Word) (row : List Nat)
    (acc : List Word) : List Word × Word :=
  let one (n : Nat) : Nat × Word :=
    let col := cols.getD n []
    let a := acc.getD n 0
    if mxInt fmt then mxIntStep m.sat (mxWidth fmt) row col a
    else
      let s := fmtF32.decode false (scales.getD n 0).toNat
      let t := fmtF32.decode false ascl.toNat
      mxStep m.rm m.ftz (fmt = 5)
        (List.zipWith (fun x y => mxProduct ((mxFmt fmt).decode false x) ((mxFmt wfmt).decode false y) s t) row col) a.toNat
  let rs := (List.range 64).map one
  (rs.map fun r => word r.1, rs.foldl (fun f r => f ||| r.2) 0)

/-! ### Exact values of the fused chain (R284) -/

/-- A value of the chain: a fraction that is not zero, or a special value with its NaN causes. -/
inductive CVal where
  | nan (causes : Nat)
  | inf (neg : Bool)
  | zero (neg : Bool)
  | frac (n : Int) (d : Nat)
  deriving DecidableEq, Repr

/-- Fractions: numerator over a positive denominator. -/
abbrev Frac := Int × Nat

def fracAdd (a b : Frac) : Frac := (a.1 * b.2 + b.1 * a.2, a.2 * b.2)
def fracMul (a b : Frac) : Frac := (a.1 * b.1, a.2 * b.2)
def fracNeg (a : Frac) : Frac := (-a.1, a.2)
def fracLt (a b : Frac) : Bool := decide (a.1 * b.2 < b.1 * a.2)

/-- a / b for b above 0. -/
def fracDiv (a b : Frac) : Frac := (a.1 * b.2, a.2 * b.1.toNat)

/-- A value that is no NaN and no infinity, as a fraction. -/
def CVal.frac' : CVal → Frac
  | .frac n d => (n, d)
  | _ => (0, 1)

/-- A fraction as a value; an exact zero is −0 under RDN (R148). -/
def cvalOf (rm : Nat) (q : Frac) : CVal := if q.1 = 0 then .zero (rm = 2) else .frac q.1 q.2

/-- An F32 word as a value. A NaN carries the cause `m`, or that of an accumulator word. -/
def cvalWord (m : Option Nat) (code : Nat) : CVal :=
  match fmtF32.decode false code with
  | .nan _ => .nan (m.getD (accCauses code))
  | .inf n => .inf n
  | .zero n => .zero n
  | .fin n x e =>
    let v : Int := if n then -(x : Int) else x
    if 0 ≤ e then .frac (v * 2 ^ e.toNat) 1 else .frac v (2 ^ (-e).toNat)

/-- The sum of two values, and whether it is invalid. -/
def cvalAdd (rm : Nat) (x y : CVal) : CVal × Bool :=
  match x, y with
  | .nan a, .nan b => (.nan (orCauses a b), false)
  | .nan a, _ => (.nan a, false)
  | _, .nan b => (.nan b, false)
  | .inf a, .inf b => if a = b then (.inf a, false) else (.nan 4, true)
  | .inf a, _ => (.inf a, false)
  | _, .inf b => (.inf b, false)
  | .zero a, .zero b => (.zero ((a && b) || rm = 2), false)
  | x, y => (cvalOf rm (fracAdd x.frac' y.frac'), false)

/-- Negative. -/
def CVal.negative : CVal → Bool
  | .inf n => n
  | .zero n => n
  | .frac n _ => decide (n < 0)
  | .nan _ => false

/-- The product of two values, and whether it is invalid. -/
def cvalMul (x y : CVal) : CVal × Bool :=
  let sign := xor x.negative y.negative
  match x, y with
  | .nan a, .nan b => (.nan (orCauses a b), false)
  | .nan a, _ => (.nan a, false)
  | _, .nan b => (.nan b, false)
  | .inf _, .zero _ | .zero _, .inf _ => (.nan 8, true)
  | .inf _, _ | _, .inf _ => (.inf sign, false)
  | .zero _, _ | _, .zero _ => (.zero sign, false)
  | .frac a b, .frac c d => (.frac (a * c) (b * d), false)

/-- A fraction that is not zero rounded into a format. -/
def Fmt.ofFrac (f : Fmt) (rm : Nat) (ftz : Bool) (n : Int) (d : Nat) : Nat × Word :=
  let k := 96 + d.log2
  let m := n.natAbs * 2 ^ k
  f.round rm ftz (decide (n < 0)) (m / d) (-(k : Int)) (m % d ≠ 0)

/-- A value rounded into F32; a NaN carries its causes. -/
def cvalRound (rm : Nat) (ftz : Bool) (v : CVal) : Nat × Word :=
  match v with
  | .nan m => (mxNan m, 0)
  | .inf n => fmtF32.inf n
  | .zero n => (fmtF32.zero n, 0)
  | .frac n d => fmtF32.ofFrac rm ftz n d

/-- The output formats of `MST`. -/
def outFmt (o : Nat) : Fmt :=
  match o with | 0 => fmtF32 | 1 => fmtF16 | 2 => fmtBF16 | 3 => fmtF8A | _ => fmtF8B

/-- Bytes of an output element. -/
def outSize (o : Nat) : Nat := match o with | 0 => 4 | 1 => 2 | 2 => 2 | _ => 1

/-- fit (R285): one rounding into an output format, with status bits. -/
def mxFit (o rm : Nat) (ftz : Bool) (v : CVal) : Nat × Word :=
  if 5 ≤ o then
    let signed := o = 5
    let bound (neg : Bool) : Nat × Word := (wrapInt 8 (if neg then intLow 8 signed else intHigh 8 signed), fNV ||| fSAT)
    match v with
    | .nan m => (0, fNV ||| causeBits m)
    | .inf n => bound n
    | .zero _ => (0, 0)
    | .frac n d =>
      let k := n.natAbs / d
      let r := n.natAbs % d
      let k := if roundsUp rm (decide (n < 0)) k r d false then k + 1 else k
      let x : Int := if n < 0 then -(k : Int) else k
      if x < intLow 8 signed then bound true
      else if intHigh 8 signed < x then bound false
      else (wrapInt 8 x, flagIf (r ≠ 0) fNX)
  else
    let f := outFmt o
    match v with
    | .nan m => (if o = 0 then mxNan m else f.nan, flagIf (!f.ieee) fNV ||| causeBits m)
    | .inf n => f.inf n
    | .zero n => (f.zero n, 0)
    | .frac n d => f.ofFrac rm ftz n d

/-! ### The activation table (R281, R282) -/

/-- An activation table as `MST` reads it. -/
structure Activation where
  entries : List Word
  lo : Frac
  hi : Frac
  ext : Bool

/-- The table that a team holds. -/
def activation (t : List Word × List Word) : Activation :=
  { entries := t.1, lo := (cvalWord none (t.2.getD 0 0).toNat).frac', hi := (cvalWord none (t.2.getD 1 0).toNat).frac'
    ext := t.2.getD 2 0 ≠ 0 }

/-- Entry `j`; a NaN entry has cause bit 0. -/
def Activation.entry (t : Activation) (j : Nat) : CVal := cvalWord (some 1) (t.entries.getD j 0).toNat

/-- e[a] + f × (e[b] − e[a]). (DEDUCED, log 88). -/
def Activation.between (t : Activation) (rm a b : Nat) (f : Frac) : CVal :=
  match t.entry a, t.entry b with
  | .nan m, _ | _, .nan m => .nan m
  | .zero x, .zero y => .zero (x && y)
  | x, y =>
    if f.1 = 0 then x
    else cvalOf rm (fracAdd x.frac' (fracMul f (fracAdd y.frac' (fracNeg x.frac'))))

/-- The table's exact value of an input. (DEDUCED, log 88). -/
def Activation.value (t : Activation) (rm : Nat) (x : CVal) : CVal :=
  let far (a b : Nat) : CVal :=       -- the end a, with its neighbour b
    if !t.ext then t.entry a
    else match t.entry a, t.entry b with
      | .nan m, _ | _, .nan m => .nan m
      | p, q =>
        if fracLt p.frac' q.frac' then .inf true else if fracLt q.frac' p.frac' then .inf false else p
  match x with
  | .nan m => .nan m
  | .inf true => far 0 1
  | .inf false => far 256 255
  | x =>
    let h := fracDiv (fracAdd t.hi (fracNeg t.lo)) (256, 1)
    let u := fracDiv (fracAdd x.frac' (fracNeg t.lo)) h
    if fracLt x.frac' t.lo then (if t.ext then t.between rm 0 1 u else t.entry 0)
    else if !fracLt x.frac' t.hi then (if t.ext then t.between rm 255 256 (fracAdd u (-255, 1)) else t.entry 256)
    else
      let j := (u.1 / u.2).toNat
      t.between rm j (j + 1) (fracAdd u (-(j : Int), 1))

/-! ### The fused chain (R284) -/

/-- What one `MST` applies. -/
structure Chain where
  isInt : Bool
  bias : Option (List Word)
  table : Option Activation
  scale : Option (List Word)
  out : Nat
  rm : Nat
  ftz : Bool

/-- An F32 word that is a signalling NaN. -/
def signals (w : Word) : Bool := fmtF32.isSnan w.toNat

/-- The chain for one accumulator word of column `n`: the output code and status bits. -/
def Chain.apply (c : Chain) (n : Nat) (acc : Word) : Nat × Word :=
  let a := if c.isInt then (if acc = 0 then .zero false else .frac acc.toInt 1) else cvalWord none acc.toNat
  let f0 := flagIf (!c.isInt && signals acc) fNV
  let (a, f1) := match c.bias with
    | some b =>
      let r := cvalAdd c.rm a (cvalWord (some 1) (b.getD n 0).toNat)
      (r.1, flagIf (r.2 || signals (b.getD n 0)) fNV)
    | none => (a, 0)
  let (a, f2) := match c.table with
    | some t =>
      let (y, f) := if c.bias.isSome || c.isInt then
          let r := cvalRound c.rm c.ftz a
          (cvalWord none r.1, r.2)
        else (a, 0)
      let z := cvalRound c.rm c.ftz (t.value c.rm y)
      (cvalWord none z.1, f ||| z.2)
    | none => (a, 0)
  let (a, f3) := match c.scale with
    | some q =>
      let r := cvalMul a (cvalWord (some 2) (q.getD n 0).toNat)
      (r.1, flagIf (r.2 || signals (q.getD n 0)) fNV)
    | none => (a, 0)
  let r := mxFit c.out c.rm c.ftz a
  (r.1, f0 ||| f1 ||| f2 ||| f3 ||| r.2)

/-- The bytes of one output row, with status bits. -/
def Chain.row (c : Chain) (acc : List Word) : List Byte × Word :=
  let rs := (List.range 64).map fun n => c.apply n (acc.getD n 0)
  (rs.flatMap fun r => leBytes (outSize c.out) r.1, rs.foldl (fun f r => f ||| r.2) 0)

/-! ### Matrix state -/

/-- An accumulator bank, by 64 × row + column. -/
def Matrix.bank (m : Matrix) (b : Bool) : Sparse Word := if b then m.a1 else m.a0

/-- Replaces an accumulator bank. -/
def Matrix.setBank (m : Matrix) (b : Bool) (a : Sparse Word) : Matrix := if b then { m with a1 := a } else { m with a0 := a }

/-- A weight buffer. -/
def Matrix.weights (m : Matrix) (b : Bool) : Option Tile := if b then m.w1 else m.w0

/-- Replaces a weight buffer. -/
def Matrix.setWeights (m : Matrix) (b : Bool) (t : Tile) : Matrix :=
  if b then { m with w1 := some t } else { m with w0 := some t }

/-- One row of a bank. -/
def bankRow (a : Sparse Word) (r : Nat) : List Word := Sparse.read 0 a (64 * r) 64

/-- A tile from its 8 KiB. -/
def makeTile (bs : List Byte) (fmt : Nat) (scales : List Word) (base : Nat) : Tile :=
  { bytes := Sparse.write 0 [] 0 bs, fmt, scales, base }

/-! ### Checks and issue (R268, R269, R290) -/

/-- A MATRIX trap and the offset of its descriptor word. (DEDUCED, log 30). -/
def matrixTrap (cause off : Nat) : Trap := { cls := 14, cause, aux := off }

/-- The first failing row: (cause, offset, fails). (DEDUCED, log 89). -/
def matrixBad (l : List (Nat × Nat × Bool)) : Option Trap :=
  (l.find? fun r => r.2.2).map fun r => matrixTrap r.1 r.2.1

/-- Local ranges of a command: address, bytes, index position. -/
abbrev MxRange := Nat × Nat × Option Nat

/-- BOUNDS matrix local range, of the own allocation alone. (DEDUCED, log 89). -/
def matrixRange (w : Who) (rs : List MxRange) (indexed : Bool) : Option Trap :=
  let bad := rs.filter fun r => decide (w.grp.size < r.1 + r.2.1)
  let lanes := bad.filterMap fun r => r.2.2
  let low := leastBy (fun (a b : MxRange) => decide (a.2.2.getD noLane < b.2.2.getD noLane)) bad
  low.map fun r =>
    { cls := 4, cause := 15, d0 := word r.1, d1 := word w.grp.size
      lanes := if indexed then some (maskFrom fun l => lanes.contains l) else none }

/-- The last checks of R290 and the vector register that the block names. -/
def matrixPlace (w : Who) (reg : Option Nat) (rs : List MxRange) (indexed : Bool) : Option Trap :=
  (reg.bind fun v => hazardIn w.sp.pend 1 [v]).orElse fun _ =>
    if w.grp.size = 0 then some (matrixTrap 8 0) else matrixRange w rs indexed

/-- The accesses of a command: its ranges, and the matrix state as item 0xFFFF (R222, R268). -/
def matrixAccs (w : Who) (reads writes : List MxRange) : List Acc :=
  let acc (how : Nat) (r : MxRange) : Acc := ⟨w.team.tidx, r.1, r.2.1, how⟩
  ⟨w.team.tidx, 0xFFFF * 256, 256, 1⟩ :: (reads.map (acc 0) ++ writes.map (acc 1)).eraseDups

/-- The matrix state as a shared item of the group (R268). -/
def matrixItem : List Item := [⟨4, 32, true⟩]

/-- Matrix commands of the team in flight. (DEDUCED, log 87). -/
def matrixInFlight (s : State) (w : Who) : Nat :=
  (s.cmds.filter fun (_, c) =>
    c.team = w.grp.team && !c.finished && (match c.body with | .matrix .. => true | _ => false)).length

/-- What a checked command does. -/
structure MxPlan where
  reads : List MxRange := []
  writes : List MxRange := []
  items : List Item := []
  mx : Matrix
  rows : List (Nat × List Byte) := []
  col : Option (Nat × Mask × List Word) := none
  msg : Option (Nat × Word) := none
  status : Word := 0

/-- Starts a matrix command; its message joins the launches that its port acts for (R53). (DEDUCED, log 87). -/
def matrixStart (s : State) (w : Who) (sd : SReg) (p : MxPlan) : Res :=
  let accs := matrixAccs w p.reads p.writes
  if 8 ≤ matrixInFlight s w then .stall 6
  else if heldAccess s w accs then .stall 7
  else
    let c : Cmd :=
      { group := w.g, split := w.x, team := w.grp.team, task := w.grp.task
        flag := (w.sp.clause.map Clause.flag).getD 15, sd := sd.toNat, into := [w.x], key := agentKey w
        clock := w.sp.clock, prog := s.prog, line := w.sp.line, interval := w.team.interval
        reads := (p.reads.map fun r => (r.1, r.2.1)).eraseDups, writes := (p.writes.map fun r => (r.1, r.2.1)).eraseDups
        body := .matrix p.rows p.col p.msg p.status }
    let s := (newCmd { s with prog := s.prog + 1 } c).2
    let s := updTeam s w.grp.team fun tm => { tm with mx := p.mx }
    let s := match p.msg with | some (port, _) => joinPort s w port | none => s
    .ok { s, accs, items := matrixItem ++ p.items
          looks := (p.reads.map fun r => localLook r.1 r.2.1 (r.2.2.getD noLane) true false) ++
            p.writes.map fun r => localLook r.1 r.2.1 noLane false true
          pends := some ((0, sd.toNat) :: (match p.col with | some (v, _) => [(1, v)] | none => [])) }

/-- A refused command completes at once with status 2 (R289). -/
def matrixRefused (s : State) (w : Who) (sd : SReg) : Res :=
  .ok { s := doneCmd s w sd.toNat (.done 2), accs := matrixAccs w [] [], items := matrixItem }

/-- A port message that the issuer's view refuses, or that waits for the view. -/
def matrixPort (s : State) (w : Who) (sd : SReg) (cmode : Nat) (ctgt : Word) (f : Res) : Res :=
  if cmode ≠ 2 then f
  else if !readReady s w then .stall 8
  else if (portOpen s w (bits ctgt 15 0)).isNone then matrixRefused s w sd
  else f

/-- I4 without MX4 in the task's required features. -/
def noMx4 (w : Who) (fmt : Nat) : Bool := fmt = 1 && recFeat w.task.words / 2 % 2 = 0

/-- The mode that a command captures. -/
def mxMode (w : Who) : MxMode := ⟨modeRm w.grp.mode, modeFtz w.grp.mode, modeSat w.grp.mode⟩

/-! ### MWLD and MTBL -/

/-- MWLD (R274). -/
def execMwld (sd sa : SReg) (s : State) : Host.Outcome State Fault Refusal :=
  slot (.mwld sd sa) (fun s => withWho s fun w =>
    let b := block s sa 3
    let ctl := b.getD 0 0
    let wa := (b.getD 1 0).toNat
    let sc := (b.getD 2 0).toNat
    let fmt := bits ctl 2 0
    let scl := bit ctl 4
    let rs : List MxRange := (wa, 8192, none) :: if scl then [(sc, 256, none)] else []
    let bad := (matrixBad
      [(1, 0, bits ctl 31 5 ≠ 0), (1, 2, !scl && sc ≠ 0), (2, 0, decide (5 < fmt) || (scl && mxInt fmt) || noMx4 w fmt),
        (4, 1, wa % 64 ≠ 0), (4, 2, sc % 4 ≠ 0)]).orElse fun _ => matrixPlace w none rs false
    match bad with
    | some t => .trap t
    | none =>
      let scales := if scl then bytesWords 64 (teamBytes w.team sc 256) else List.replicate 64 0x3F800000
      let tile := makeTile (teamBytes w.team wa 8192) fmt scales wa
      matrixStart s w sd { reads := rs, mx := w.team.mx.setWeights (bit ctl 3) tile }) s

/-- An entry or a bound that is no finite number. -/
def notFinite (w : Word) : Bool :=
  match fmtF32.decode false w.toNat with | .nan _ => true | .inf _ => true | _ => false

/-- MTBL (R281). -/
def execMtbl (sd sa : SReg) (s : State) : Host.Outcome State Fault Refusal :=
  slot (.mtbl sd sa) (fun s => withWho s fun w =>
    let b := block s sa 4
    let ctl := b.getD 0 0
    let lo := b.getD 1 0
    let hi := b.getD 2 0
    let ta := (b.getD 3 0).toNat
    let frac (v : Word) : Frac := (cvalWord none v.toNat).frac'
    let bad := (matrixBad
      [(1, 0, bits ctl 31 1 ≠ 0), (4, 3, ta % 4 ≠ 0), (6, 1, notFinite lo),
        (6, 2, notFinite hi || !fracLt (frac lo) (frac hi))]).orElse fun _ => matrixPlace w none [(ta, 1028, none)] false
    match bad with
    | some t => .trap t
    | none =>
      let es := bytesWords 257 (teamBytes w.team ta 1028)
      if es.any fun e => (fmtF32.decode false e.toNat).isInf then .trap (matrixTrap 6 3)
      else matrixStart s w sd
        { reads := [(ta, 1028, none)], mx := { w.team.mx with tbl := some (es, [lo, hi, flagWord (bit ctl 0)]) } }) s

/-! ### MLOOP -/

/-- The formats of a loop and of its weight buffer match. -/
def fmtMatch (a b : Nat) : Bool := a = b || ((a = 2 || a = 3) && (b = 2 || b = 3))

/-- An address modulo 2^32. -/
def addr32 (a : Int) : Nat := (a % 2 ^ 32).toNat

/-- One K-step over the used rows (R277): `rows` gives position and bytes. -/
def loopStep (m : MxMode) (fmt : Nat) (bank : Bool) (ascl : Word) (tile : Tile) (rows : List (Nat × List Byte))
    (mx : Matrix) : Matrix :=
  let cols := tileColumns tile
  rows.foldl (fun mx (i, bs) =>
    let a := mx.bank bank
    let r := mxRowStep m fmt tile.fmt cols tile.scales ascl (packedElems (mxWidth fmt) bs) (bankRow a i)
    { mx.setBank bank (Sparse.write 0 a (64 * i) r.1) with status := mx.status ||| r.2 }) mx

/-- The rows read by K-step `k` of an `MLOOP` block: address, bytes, position. -/
def loopRows (b : List Word) (used : List (Nat × Word)) (k : Nat) : List MxRange :=
  let g (i : Nat) : Word := b.getD i 0
  used.map fun (i, x) => (addr32 ((g 1).toNat + x.toNat * (g 2).toNat + k * (g 3).toInt), 128, some i)

/-- The tile that K-step `k` ≥ 1 streams. -/
def loopTile (b : List Word) (base k : Nat) : MxRange := (addr32 (base + k * (b.getD 4 0).toInt), 8192, none)

/-- The K-steps of a loop in ascending K (R277, R278). -/
def loopRun (w : Who) (b : List Word) (used : List (Nat × Word)) (tile : Tile) (mx : Matrix) : Matrix :=
  let g (i : Nat) : Word := b.getD i 0
  let bank := bit (g 0) 3
  let mx := if bit (g 0) 5 then
      mx.setBank bank (used.foldl (fun a (i, _) => Sparse.write 0 a (64 * i) (List.replicate 64 0)) (mx.bank bank))
    else mx
  (List.range (g 5).toNat).foldl (fun mx k =>
    let t := if k = 0 then tile
      else
        let a := (loopTile b tile.base k).1
        makeTile (teamBytes w.team a 8192) tile.fmt tile.scales a
    let rows := (loopRows b used k).map fun r => (r.2.2.getD 0, teamBytes w.team r.1 128)
    let mx := loopStep (mxMode w) (bits (g 0) 2 0) bank (g 8) t rows mx
    if k = 0 then mx else mx.setWeights (xor (bit (g 0) 4) (k % 2 = 1)) t) mx

/-- MLOOP (R275-R278). -/
def execMloop (sd sa : SReg) (s : State) : Host.Outcome State Fault Refusal :=
  slot (.mloop sd sa) (fun s => withWho s fun w =>
    let b := block s sa 11
    let g (i : Nat) : Word := b.getD i 0
    let fmt := bits (g 0) 2 0
    let cm := bits (g 0) 7 6
    let tile := w.team.mx.weights (bit (g 0) 4)
    let unmatched := match tile with | some t => decide (fmt < 6) && !fmtMatch fmt t.fmt | none => false
    let ks := (g 5).toNat
    let nr := (g 7).toNat
    let idx := (g 6).toNat
    let form := matrixBad
      [(1, 0, bits (g 0) 31 8 ≠ 0), (1, 6, bits (g 6) 31 7 ≠ 0), (1, 8, mxInt fmt && g 8 ≠ 0),
        (1, 9, (cm ≠ 2 && g 9 ≠ 0) || bits (g 9) 31 16 ≠ 0), (1, 10, cm ≠ 2 && g 10 ≠ 0),
        (2, 0, decide (5 < fmt) || cm = 1 || cm = 3 || unmatched || noMx4 w fmt),
        (3, 5, ks = 0 || decide (65536 < ks)), (3, 7, nr = 0 || decide (96 < nr)),
        (4, 1, (g 1).toNat % 4 ≠ 0), (4, 2, (g 2).toNat % 4 ≠ 0), (4, 3, (g 3).toNat % 4 ≠ 0),
        (4, 4, (g 4).toNat % 64 ≠ 0), (5, 6, decide (w.grp.vcount ≤ idx)), (7, 0, tile.isNone)]
    match form, tile with
    | some t, _ => .trap t
    | none, none => .trap (matrixTrap 7 0)
    | none, some tile =>
      let v := vecRead w.grp idx
      let used := (List.range nr).filterMap fun i =>
        let x := v.getD i 0
        if w.sp.mask.getLsbD i && x ≠ 0xFFFFFFFF then some (i, x) else none
      let tiles := (List.range (ks - 1)).map fun k => loopTile b tile.base (k + 1)
      let rs := tiles ++ (List.range ks).flatMap (loopRows b used)
      match matrixPlace w (some idx) rs true with
      | some t => .trap t
      | none =>
        matrixPort s w sd cm (g 9) (
          matrixStart s w sd
            { reads := rs, items := laneItems idx (List.range nr) false, mx := loopRun w b used tile w.team.mx
              msg := if cm = 2 then some (bits (g 9) 15 0, g 10) else none
              status := word ((nr - used.length) * 2 ^ 8) })) s

/-! ### MST -/

/-- The output rows of a block: address and bytes. -/
def storeRows (b : List Word) (size : Nat) : List MxRange :=
  (List.range (b.getD 4 0).toNat).map fun (i : Nat) => (addr32 ((b.getD 1 0).toNat + (i : Int) * (b.getD 2 0).toInt), 64 * size, none)

/-- MST (R283-R285). -/
def execMst (sd sa : SReg) (s : State) : Host.Outcome State Fault Refusal :=
  slot (.mst sd sa) (fun s => withWho s fun w =>
    let b := block s sa 9
    let g (i : Nat) : Word := b.getD i 0
    let n (i : Nat) : Nat := (g i).toNat
    let c := g 0
    let cm := bits c 9 8
    let out := bits c 4 2
    let form := matrixBad
      [(1, 0, bits c 31 10 ≠ 0), (1, 5, !bit c 5 && g 5 ≠ 0), (1, 6, !bit c 7 && g 6 ≠ 0),
        (1, 7, (cm ≠ 2 && g 7 ≠ 0) || bits (g 7) 31 16 ≠ 0), (1, 8, cm ≠ 2 && g 8 ≠ 0),
        (2, 0, out = 7 || cm = 1 || cm = 3), (3, 3, decide (95 < n 3)),
        (3, 4, n 4 = 0 || decide (96 < n 4) || decide (96 < n 3 + n 4)),
        (4, 1, n 1 % 4 ≠ 0), (4, 2, n 2 % 4 ≠ 0), (4, 5, n 5 % 4 ≠ 0), (4, 6, n 6 % 4 ≠ 0),
        (7, 0, bit c 6 && w.team.mx.tbl.isNone)]
    let outs := storeRows b (outSize out)
    let reads : List MxRange := (if bit c 5 then [(n 5, 256, none)] else []) ++ if bit c 7 then [(n 6, 256, none)] else []
    match form.orElse fun _ => matrixPlace w none (outs ++ reads) false with
    | some t => .trap t
    | none =>
      matrixPort s w sd cm (g 7) (
        let m := mxMode w
        let words (on : Bool) (a : Nat) : Option (List Word) :=
          if on then some (bytesWords 64 (teamBytes w.team a 256)) else none
        let chain : Chain :=
          { isInt := bit c 1, bias := words (bit c 5) (n 5), scale := words (bit c 7) (n 6), out
            table := if bit c 6 then w.team.mx.tbl.map activation else none, rm := m.rm, ftz := m.ftz }
        let a := w.team.mx.bank (bit c 0)
        let rs := (List.range (n 4)).map fun i => chain.row (bankRow a (n 3 + i))
        matrixStart s w sd
          { reads, writes := outs
            mx := { w.team.mx with status := rs.foldl (fun f r => f ||| r.2) w.team.mx.status }
            rows := List.zipWith (fun o r => (o.1, r.1)) outs rs
            msg := if cm = 2 then some (bits (g 7) 15 0, g 8) else none })) s

/-! ### MRD, MCLR and MSTAT -/

/-- MRD (R286). -/
def execMrd (sd sa : SReg) (s : State) : Host.Outcome State Fault Refusal :=
  slot (.mrd sd sa) (fun s => withWho s fun w =>
    let b := block s sa 3
    let g (i : Nat) : Word := b.getD i 0
    let col := (g 1).toNat
    let v := (g 2).toNat
    let bad := (matrixBad
      [(1, 0, bits (g 0) 31 1 ≠ 0), (1, 2, bits (g 2) 31 7 ≠ 0), (3, 1, decide (63 < col)),
        (5, 2, decide (w.grp.vcount ≤ v))]).orElse fun _ => matrixPlace w (some v) [] false
    match bad with
    | some t => .trap t
    | none =>
      let a := w.team.mx.bank (bit (g 0) 0)
      let lanes := writing s w
      matrixStart s w sd
        { mx := w.team.mx, items := laneItems v (lanesOf lanes) true
          col := some (v, lanes, (List.range 96).map fun l => Sparse.get 0 a (64 * l + col)) }) s

/-- MCLR of the matrix engine (R287). -/
def execMclrMatrix (sd sa : SReg) (s : State) : Host.Outcome State Fault Refusal :=
  slot (.mclrMatrix sd sa) (fun s => withWho s fun w =>
    let c := (block s sa 1).getD 0 0
    let sel := bits c 1 0
    match (matrixBad [(1, 0, bits c 31 2 ≠ 0), (2, 0, sel = 3)]).orElse fun _ => matrixPlace w none [] false with
    | some t => .trap t
    | none =>
      let mx := w.team.mx
      matrixStart s w sd { mx := { mx with a0 := if sel = 1 then mx.a0 else [], a1 := if sel = 0 then mx.a1 else [] } }) s

/-- MSTAT (R288). -/
def execMstat (sd sa : SReg) (s : State) : Host.Outcome State Fault Refusal :=
  slot (.mstat sd sa) (fun s => withWho s fun w =>
    let c := (block s sa 1).getD 0 0
    match (matrixBad [(1, 0, bits c 31 1 ≠ 0)]).orElse fun _ => matrixPlace w none [] false with
    | some t => .trap t
    | none =>
      if 0 < matrixInFlight s w then .stall 15
      else
        let s := uwrite s sd.toNat w.team.mx.status
        let s := if bit c 0 then updTeam s w.grp.team fun tm => { tm with mx := { tm.mx with status := 0 } } else s
        .ok { s, accs := matrixAccs w [] [], items := matrixItem }) s

/-! ### Completion (R289, R291) -/

/-- The results of a column: the lanes that wrote. -/
def columnOuts (col : Option (Nat × Mask × List Word)) : List (Nat × Nat × Nat × Word) :=
  match col with
  | some (v, lanes, ws) => laneOuts v ((lanesOf lanes).map fun l => (l, ws.getD l 0))
  | none => []

/-- Writes output rows of a group's command to the team's allocation in order, a later one standing. -/
def landOutputs (s : State) (t gidx : Nat) (rows : List (Nat × List Byte)) : State :=
  rows.foldl (fun s (a, bs) => landOwn s t gidx a bs) s

/-- MATRIX_COMMAND_COMPLETE: command `a` completes, in its team's order. -/
def execMatrixCommandComplete (s : State) : Host.Outcome State Fault Refusal :=
  let id := s.arg.a
  match Table.find s.cmds id with
  | none => .next s
  | some c =>
    let before := s.cmds.any fun (i, d) =>
      decide (i < id) && d.team = c.team && !d.finished && (match d.body with | .matrix .. => true | _ => false)
    match c.body, cmdLaunch s c with
    | .matrix rows col msg status, some l =>
      if c.finished || before then .next s
      else
        let s := landOutputs s c.team (indexOf s c.group) rows
        let s := match msg with | some (port, w0) => cmdEffect s id c l (.message port w0 status none) | none => s
        .next (finishCmd s id c (uniformOuts c.sd [status] ++ columnOuts col))
    | .done status, _ => .next (finishCmd s id c (uniformOuts c.sd [status]))
    | _, _ => .next s

end Sys2Proof.Machine
end

