-- ==== Sys2Proof/Machine/Dispatch.lean ====
section
/-!
DEFINITION. The meaning of every instruction: one arm per row of the opcode table, each a call of its meaning.
-/

namespace Sys2Proof.Machine

/-- What one instruction, or one event, does. The issuer and what an event acts on stand in the state. -/
def exec (i : Instr) (s : State) : Host.Outcome State Fault Refusal :=
  match i with
  | .smov sd sa => Sys2Proof.Machine.execSmov sd sa s
  | .slit sd imm => Sys2Proof.Machine.execSlit sd imm s
  | .sadd sd sa => Sys2Proof.Machine.execSadd sd sa s
  | .ssub sd sa => Sys2Proof.Machine.execSsub sd sa s
  | .smul sd sa => Sys2Proof.Machine.execSmul sd sa s
  | .smulhs sd sa => Sys2Proof.Machine.execSmulhs sd sa s
  | .smulhu sd sa => Sys2Proof.Machine.execSmulhu sd sa s
  | .sand sd sa => Sys2Proof.Machine.execSand sd sa s
  | .sor sd sa => Sys2Proof.Machine.execSor sd sa s
  | .sxor sd sa => Sys2Proof.Machine.execSxor sd sa s
  | .sandn sd sa => Sys2Proof.Machine.execSandn sd sa s
  | .sshl sd sa => Sys2Proof.Machine.execSshl sd sa s
  | .sshr sd sa => Sys2Proof.Machine.execSshr sd sa s
  | .ssra sd sa => Sys2Proof.Machine.execSsra sd sa s
  | .smin sd sa => Sys2Proof.Machine.execSmin sd sa s
  | .smax sd sa => Sys2Proof.Machine.execSmax sd sa s
  | .sminu sd sa => Sys2Proof.Machine.execSminu sd sa s
  | .smaxu sd sa => Sys2Proof.Machine.execSmaxu sd sa s
  | .saddLit sd imm => Sys2Proof.Machine.execSaddLit sd imm s
  | .ssubLit sd imm => Sys2Proof.Machine.execSsubLit sd imm s
  | .smulLit sd imm => Sys2Proof.Machine.execSmulLit sd imm s
  | .smulhsLit sd imm => Sys2Proof.Machine.execSmulhsLit sd imm s
  | .smulhuLit sd imm => Sys2Proof.Machine.execSmulhuLit sd imm s
  | .sandLit sd imm => Sys2Proof.Machine.execSandLit sd imm s
  | .sorLit sd imm => Sys2Proof.Machine.execSorLit sd imm s
  | .sxorLit sd imm => Sys2Proof.Machine.execSxorLit sd imm s
  | .sandnLit sd imm => Sys2Proof.Machine.execSandnLit sd imm s
  | .sshlLit sd imm => Sys2Proof.Machine.execSshlLit sd imm s
  | .sshrLit sd imm => Sys2Proof.Machine.execSshrLit sd imm s
  | .ssraLit sd imm => Sys2Proof.Machine.execSsraLit sd imm s
  | .sminLit sd imm => Sys2Proof.Machine.execSminLit sd imm s
  | .smaxLit sd imm => Sys2Proof.Machine.execSmaxLit sd imm s
  | .sminuLit sd imm => Sys2Proof.Machine.execSminuLit sd imm s
  | .smaxuLit sd imm => Sys2Proof.Machine.execSmaxuLit sd imm s
  | .scmp sd sa cc => Sys2Proof.Machine.execScmp sd sa cc s
  | .scmpLit sd cc imm => Sys2Proof.Machine.execScmpLit sd cc imm s
  | .snot sd sa => Sys2Proof.Machine.execSnot sd sa s
  | .sneg sd sa => Sys2Proof.Machine.execSneg sd sa s
  | .sabs sd sa => Sys2Proof.Machine.execSabs sd sa s
  | .sclz sd sa => Sys2Proof.Machine.execSclz sd sa s
  | .sctz sd sa => Sys2Proof.Machine.execSctz sd sa s
  | .spop sd sa => Sys2Proof.Machine.execSpop sd sa s
  | .sbrev sd sa => Sys2Proof.Machine.execSbrev sd sa s
  | .ssext8 sd sa => Sys2Proof.Machine.execSsext8 sd sa s
  | .ssext16 sd sa => Sys2Proof.Machine.execSsext16 sd sa s
  | .szext8 sd sa => Sys2Proof.Machine.execSzext8 sd sa s
  | .szext16 sd sa => Sys2Proof.Machine.execSzext16 sd sa s
  | .sdiv sd sa => Sys2Proof.Machine.execSdiv sd sa s
  | .sdivu sd sa => Sys2Proof.Machine.execSdivu sd sa s
  | .srem sd sa => Sys2Proof.Machine.execSrem sd sa s
  | .sremu sd sa => Sys2Proof.Machine.execSremu sd sa s
  | .sbfxu sd sa => Sys2Proof.Machine.execSbfxu sd sa s
  | .sbfxs sd sa => Sys2Proof.Machine.execSbfxs sd sa s
  | .sbfi sd sa ctl => Sys2Proof.Machine.execSbfi sd sa ctl s
  | .sld sd sa width off => Sys2Proof.Machine.execSld sd sa width off s
  | .sst sd sa width off => Sys2Proof.Machine.execSst sd sa width off s
  | .slr sd n => Sys2Proof.Machine.execSlr sd n s
  | .slrC sd n => Sys2Proof.Machine.execSlrC sd n s
  | .mode sa => Sys2Proof.Machine.execMode sa s
  | .modeg sd => Sys2Proof.Machine.execModeg sd s
  | .modei imm => Sys2Proof.Machine.execModei imm s
  | .mpop sd ta => Sys2Proof.Machine.execMpop sd ta s
  | .mfirst sd ta => Sys2Proof.Machine.execMfirst sd ta s
  | .mlast sd ta => Sys2Proof.Machine.execMlast sd ta s
  | .mnot td ta => Sys2Proof.Machine.execMnot td ta s
  | .mand td ta => Sys2Proof.Machine.execMand td ta s
  | .mor td ta => Sys2Proof.Machine.execMor td ta s
  | .mxor td ta => Sys2Proof.Machine.execMxor td ta s
  | .mandn td ta => Sys2Proof.Machine.execMandn td ta s
  | .mclr td => Sys2Proof.Machine.execMclr td s
  | .mall td => Sys2Proof.Machine.execMall td s
  | .br sc cc target => Sys2Proof.Machine.execBr sc cc target s
  | .brv u f tm target => Sys2Proof.Machine.execBrv u f tm target s
  | .call target => Sys2Proof.Machine.execCall target s
  | .trapu code => Sys2Proof.Machine.execTrapu code s
  | .vadd vd va vb => Sys2Proof.Machine.execVadd vd va vb s
  | .vsub vd va vb => Sys2Proof.Machine.execVsub vd va vb s
  | .vmul vd va vb => Sys2Proof.Machine.execVmul vd va vb s
  | .vmulhs vd va vb => Sys2Proof.Machine.execVmulhs vd va vb s
  | .vmulhu vd va vb => Sys2Proof.Machine.execVmulhu vd va vb s
  | .vand vd va vb => Sys2Proof.Machine.execVand vd va vb s
  | .vor vd va vb => Sys2Proof.Machine.execVor vd va vb s
  | .vxor vd va vb => Sys2Proof.Machine.execVxor vd va vb s
  | .vandn vd va vb => Sys2Proof.Machine.execVandn vd va vb s
  | .vshl vd va vb => Sys2Proof.Machine.execVshl vd va vb s
  | .vshr vd va vb => Sys2Proof.Machine.execVshr vd va vb s
  | .vsra vd va vb => Sys2Proof.Machine.execVsra vd va vb s
  | .vmin vd va vb => Sys2Proof.Machine.execVmin vd va vb s
  | .vmax vd va vb => Sys2Proof.Machine.execVmax vd va vb s
  | .vminu vd va vb => Sys2Proof.Machine.execVminu vd va vb s
  | .vmaxu vd va vb => Sys2Proof.Machine.execVmaxu vd va vb s
  | .vmad vd va vb => Sys2Proof.Machine.execVmad vd va vb s
  | .vadds vd va sb => Sys2Proof.Machine.execVadds vd va sb s
  | .vsubs vd va sb => Sys2Proof.Machine.execVsubs vd va sb s
  | .vmuls vd va sb => Sys2Proof.Machine.execVmuls vd va sb s
  | .vands vd va sb => Sys2Proof.Machine.execVands vd va sb s
  | .vshls vd va sb => Sys2Proof.Machine.execVshls vd va sb s
  | .vshrs vd va sb => Sys2Proof.Machine.execVshrs vd va sb s
  | .vsras vd va sb => Sys2Proof.Machine.execVsras vd va sb s
  | .vmins vd va sb => Sys2Proof.Machine.execVmins vd va sb s
  | .vmaxs vd va sb => Sys2Proof.Machine.execVmaxs vd va sb s
  | .vfadds vd va sb => Sys2Proof.Machine.execVfadds vd va sb s
  | .vfmuls vd va sb => Sys2Proof.Machine.execVfmuls vd va sb s
  | .vfmas vd va sb => Sys2Proof.Machine.execVfmas vd va sb s
  | .vcmps cc td va sb => Sys2Proof.Machine.execVcmps cc td va sb s
  | .vnot vd va => Sys2Proof.Machine.execVnot vd va s
  | .vneg vd va => Sys2Proof.Machine.execVneg vd va s
  | .vabs vd va => Sys2Proof.Machine.execVabs vd va s
  | .vclz vd va => Sys2Proof.Machine.execVclz vd va s
  | .vpop vd va => Sys2Proof.Machine.execVpop vd va s
  | .vbrev vd va => Sys2Proof.Machine.execVbrev vd va s
  | .vsext8 vd va => Sys2Proof.Machine.execVsext8 vd va s
  | .vsext16 vd va => Sys2Proof.Machine.execVsext16 vd va s
  | .vcmpA cc td va vb => Sys2Proof.Machine.execVcmpA cc td va vb s
  | .vcmpB geu td va vb => Sys2Proof.Machine.execVcmpB geu td va vb s
  | .vsel vd va vb tn => Sys2Proof.Machine.execVsel vd va vb tn s
  | .vmov vd va => Sys2Proof.Machine.execVmov vd va s
  | .vlane vd => Sys2Proof.Machine.execVlane vd s
  | .vbcs vd sb => Sys2Proof.Machine.execVbcs vd sb s
  | .vget sd va => Sys2Proof.Machine.execVget sd va s
  | .vput vd sb => Sys2Proof.Machine.execVput vd sb s
  | .vfadd vd va vb => Sys2Proof.Machine.execVfadd vd va vb s
  | .vfsub vd va vb => Sys2Proof.Machine.execVfsub vd va vb s
  | .vfmul vd va vb => Sys2Proof.Machine.execVfmul vd va vb s
  | .vfmin vd va vb => Sys2Proof.Machine.execVfmin vd va vb s
  | .vfmax vd va vb => Sys2Proof.Machine.execVfmax vd va vb s
  | .vfcpys vd va vb => Sys2Proof.Machine.execVfcpys vd va vb s
  | .vfma vd va vb => Sys2Proof.Machine.execVfma vd va vb s
  | .vfms vd va vb => Sys2Proof.Machine.execVfms vd va vb s
  | .vfnma vd va vb => Sys2Proof.Machine.execVfnma vd va vb s
  | .vfnms vd va vb => Sys2Proof.Machine.execVfnms vd va vb s
  | .vfabs vd va => Sys2Proof.Machine.execVfabs vd va s
  | .vfneg vd va => Sys2Proof.Machine.execVfneg vd va s
  | .vfrint vd va => Sys2Proof.Machine.execVfrint vd va s
  | .vftrunc vd va => Sys2Proof.Machine.execVftrunc vd va s
  | .vffloor vd va => Sys2Proof.Machine.execVffloor vd va s
  | .vfceil vd va => Sys2Proof.Machine.execVfceil vd va s
  | .vfclass vd va => Sys2Proof.Machine.execVfclass vd va s
  | .vfcmp cc td va vb => Sys2Proof.Machine.execVfcmp cc td va vb s
  | .vcvtLow vd va src => Sys2Proof.Machine.execVcvtLow vd va src s
  | .vcvtHigh vd va src => Sys2Proof.Machine.execVcvtHigh vd va src s
  | .vpack vd va vb => Sys2Proof.Machine.execVpack vd va vb s
  | .vunpk vd va part => Sys2Proof.Machine.execVunpk vd va part s
  | .vdot4i8 vd va vb => Sys2Proof.Machine.execVdot4i8 vd va vb s
  | .vdot4u8 vd va vb => Sys2Proof.Machine.execVdot4u8 vd va vb s
  | .vdot4f8a vd va vb => Sys2Proof.Machine.execVdot4f8a vd va vb s
  | .vdot4f8b vd va vb => Sys2Proof.Machine.execVdot4f8b vd va vb s
  | .vdot8i4 vd va vb => Sys2Proof.Machine.execVdot8i4 vd va vb s
  | .vdot2f16 vd va vb => Sys2Proof.Machine.execVdot2f16 vd va vb s
  | .vdot2bf16 vd va vb => Sys2Proof.Machine.execVdot2bf16 vd va vb s
  | .vperm vd va vb => Sys2Proof.Machine.execVperm vd va vb s
  | .vshx vd va sb => Sys2Proof.Machine.execVshx vd va sb s
  | .vshu vd va sb => Sys2Proof.Machine.execVshu vd va sb s
  | .vshd vd va sb => Sys2Proof.Machine.execVshd vd va sb s
  | .vred op sd va => Sys2Proof.Machine.execVred op sd va s
  | .vscan op excl vd va => Sys2Proof.Machine.execVscan op excl vd va s
  | .vld vd sb off => Sys2Proof.Machine.execVld vd sb off s
  | .vldh vd sb off => Sys2Proof.Machine.execVldh vd sb off s
  | .vldb vd sb off => Sys2Proof.Machine.execVldb vd sb off s
  | .vst vd sb off => Sys2Proof.Machine.execVst vd sb off s
  | .vsth vd sb off => Sys2Proof.Machine.execVsth vd sb off s
  | .vstb vd sb off => Sys2Proof.Machine.execVstb vd sb off s
  | .vldc width vd va => Sys2Proof.Machine.execVldc width vd va s
  | .vstc width vd va => Sys2Proof.Machine.execVstc width vd va s
  | .vatadd ret vd va vb => Sys2Proof.Machine.execVatadd ret vd va vb s
  | .vatand ret vd va vb => Sys2Proof.Machine.execVatand ret vd va vb s
  | .vator ret vd va vb => Sys2Proof.Machine.execVator ret vd va vb s
  | .vatxor ret vd va vb => Sys2Proof.Machine.execVatxor ret vd va vb s
  | .vatmin kind ret vd va vb => Sys2Proof.Machine.execVatmin kind ret vd va vb s
  | .vatmax kind ret vd va vb => Sys2Proof.Machine.execVatmax kind ret vd va vb s
  | .vatxchg vd va vb => Sys2Proof.Machine.execVatxchg vd va vb s
  | .vspill va => Sys2Proof.Machine.execVspill va s
  | .vfill vd => Sys2Proof.Machine.execVfill vd s
  | .bara b => Sys2Proof.Machine.execBara b s
  | .barw b => Sys2Proof.Machine.execBarw b s
  | .bar b => Sys2Proof.Machine.execBar b s
  | .barcfg b sd => Sys2Proof.Machine.execBarcfg b sd s
  | .lcvtL vd va => Sys2Proof.Machine.execLcvtL vd va s
  | .lcvtF vd va => Sys2Proof.Machine.execLcvtF vd va s
  | .lexp vd va => Sys2Proof.Machine.execLexp vd va s
  | .lmul vd va vb => Sys2Proof.Machine.execLmul vd va vb s
  | .ldiv vd va vb => Sys2Proof.Machine.execLdiv vd va vb s
  | .lsqrt vd va => Sys2Proof.Machine.execLsqrt vd va s
  | .lrsq vd va => Sys2Proof.Machine.execLrsq vd va s
  | .lrcp vd va => Sys2Proof.Machine.execLrcp vd va s
  | .lpow vd va vb => Sys2Proof.Machine.execLpow vd va vb s
  | .ladd vd va vb => Sys2Proof.Machine.execLadd vd va vb s
  | .lsub vd va vb => Sys2Proof.Machine.execLsub vd va vb s
  | .lfix vd va => Sys2Proof.Machine.execLfix vd va s
  | .lflt vd va => Sys2Proof.Machine.execLflt vd va s
  | .cpy sd sa => Sys2Proof.Machine.execCpy sd sa s
  | .cpy2 sd sa => Sys2Proof.Machine.execCpy2 sd sa s
  | .gath sd sa => Sys2Proof.Machine.execGath sd sa s
  | .scat sd sa => Sys2Proof.Machine.execScat sd sa s
  | .cpsch sd sa => Sys2Proof.Machine.execCpsch sd sa s
  | .cpstg sd => Sys2Proof.Machine.execCpstg sd s
  | .cpcur sd sa => Sys2Proof.Machine.execCpcur sd sa s
  | .mwld sd sa => Sys2Proof.Machine.execMwld sd sa s
  | .mtbl sd sa => Sys2Proof.Machine.execMtbl sd sa s
  | .mloop sd sa => Sys2Proof.Machine.execMloop sd sa s
  | .mrd sd sa => Sys2Proof.Machine.execMrd sd sa s
  | .mst sd sa => Sys2Proof.Machine.execMst sd sa s
  | .mclrMatrix sd sa => Sys2Proof.Machine.execMclrMatrix sd sa s
  | .mstat sd sa => Sys2Proof.Machine.execMstat sd sa s
  | .task sd sa => Sys2Proof.Machine.execTask sd sa s
  | .alloc sd sa => Sys2Proof.Machine.execAlloc sd sa s
  | .free sd sa => Sys2Proof.Machine.execFree sd sa s
  | .vgrow sd sa => Sys2Proof.Machine.execVgrow sd sa s
  | .vshrk sd sa => Sys2Proof.Machine.execVshrk sd sa s
  | .kbar k => Sys2Proof.Machine.execKbar k s
  | .send sd sa => Sys2Proof.Machine.execSend sd sa s
  | .recv sd sa => Sys2Proof.Machine.execRecv sd sa s
  | .yield sa => Sys2Proof.Machine.execYield sa s
  | .portcfg sd sa => Sys2Proof.Machine.execPortcfg sd sa s
  | .patcfg sd sa => Sys2Proof.Machine.execPatcfg sd sa s
  | .patset sd sa => Sys2Proof.Machine.execPatset sd sa s
  | .phreg sd sa => Sys2Proof.Machine.execPhreg sd sa s
  | .phdrop sd sa => Sys2Proof.Machine.execPhdrop sd sa s
  | .phsig sd sa => Sys2Proof.Machine.execPhsig sd sa s
  | .phsigb sd sa => Sys2Proof.Machine.execPhsigb sd sa s
  | .phany sd sa => Sys2Proof.Machine.execPhany sd sa s
  | .phanyb sd sa => Sys2Proof.Machine.execPhanyb sd sa s
  | .phwait sd sa => Sys2Proof.Machine.execPhwait sd sa s
  | .phstat sd sa => Sys2Proof.Machine.execPhstat sd sa s
  | .gatom op sd sa => Sys2Proof.Machine.execGatom op sd sa s
  | .gatomOrdered op sa => Sys2Proof.Machine.execGatomOrdered op sa s
  | .gred op sa => Sys2Proof.Machine.execGred op sa s
  | .mcst sd sa => Sys2Proof.Machine.execMcst sd sa s
  | .coll sd sa => Sys2Proof.Machine.execColl sd sa s
  | .gsync sd sa => Sys2Proof.Machine.execGsync sd sa s
  | .rdsr sd n => Sys2Proof.Machine.execRdsr sd n s
  | .wrsr n sa => Sys2Proof.Machine.execWrsr n sa s
  | .tlbinv sa => Sys2Proof.Machine.execTlbinv sa s
  | .phalloc sd sa => Sys2Proof.Machine.execPhalloc sd sa s
  | .phfree sd sa => Sys2Proof.Machine.execPhfree sd sa s
  | .treereq sd sa => Sys2Proof.Machine.execTreereq sd sa s
  | .ctxsav sd sa => Sys2Proof.Machine.execCtxsav sd sa s
  | .ctxld sd sa => Sys2Proof.Machine.execCtxld sd sa s
  | .bkpt code => Sys2Proof.Machine.execBkpt code s
  | .nop => Sys2Proof.Machine.execNop s
  | .ret => Sys2Proof.Machine.execRet s
  | .recon => Sys2Proof.Machine.execRecon s
  | .exit => Sys2Proof.Machine.execExit s
  | .root => Sys2Proof.Machine.execRoot s
  | .split => Sys2Proof.Machine.execSplit s
  | .eret => Sys2Proof.Machine.execEret s
  | .wfi => Sys2Proof.Machine.execWfi s
  | .haltc => Sys2Proof.Machine.execHaltc s
  | .tret => Sys2Proof.Machine.execTret s
  | .tesc => Sys2Proof.Machine.execTesc s
  | .divisionComplete => Sys2Proof.Machine.execDivisionComplete s
  | .clauseStart => Sys2Proof.Machine.execClauseStart s
  | .logOperationComplete => Sys2Proof.Machine.execLogOperationComplete s
  | .copyCommandComplete => Sys2Proof.Machine.execCopyCommandComplete s
  | .copyFault => Sys2Proof.Machine.execCopyFault s
  | .matrixCommandComplete => Sys2Proof.Machine.execMatrixCommandComplete s
  | .unrootedEventTakesEffect => Sys2Proof.Machine.execUnrootedEventTakesEffect s
  | .taskPlacement => Sys2Proof.Machine.execTaskPlacement s
  | .continuationResume => Sys2Proof.Machine.execContinuationResume s
  | .commit => Sys2Proof.Machine.execCommit s
  | .gatheredLaunchStart => Sys2Proof.Machine.execGatheredLaunchStart s
  | .hostSubmissionEntry => Sys2Proof.Machine.execHostSubmissionEntry s
  | .hostLaunchRequest => Sys2Proof.Machine.execHostLaunchRequest s
  | .srtailDoorbell => Sys2Proof.Machine.execSrtailDoorbell s
  | .svdbDoorbell => Sys2Proof.Machine.execSvdbDoorbell s
  | .fnmapWrite => Sys2Proof.Machine.execFnmapWrite s
  | .supervisorEntry => Sys2Proof.Machine.execSupervisorEntry s
  | .evtRead => Sys2Proof.Machine.execEvtRead s
  | .tqactResume => Sys2Proof.Machine.execTqactResume s
  | .tqactTerminate => Sys2Proof.Machine.execTqactTerminate s
  | .tqactResumeAtTqrpc => Sys2Proof.Machine.execTqactResumeAtTqrpc s
  | .cfqactReplay => Sys2Proof.Machine.execCfqactReplay s
  | .cfqactDecline => Sys2Proof.Machine.execCfqactDecline s
  | .preempt => Sys2Proof.Machine.execPreempt s
  | .drainComplete => Sys2Proof.Machine.execDrainComplete s
  | .drainDeadlineExpiry => Sys2Proof.Machine.execDrainDeadlineExpiry s
  | .contextSpaceWrite => Sys2Proof.Machine.execContextSpaceWrite s
  | .profilingBufferMove => Sys2Proof.Machine.execProfilingBufferMove s
  | .profileSample => Sys2Proof.Machine.execProfileSample s
  | .dqactResume => Sys2Proof.Machine.execDqactResume s
  | .dqactStep => Sys2Proof.Machine.execDqactStep s
  | .dqactTerminate => Sys2Proof.Machine.execDqactTerminate s
  | .dqactHold => Sys2Proof.Machine.execDqactHold s
  | .haltreq => Sys2Proof.Machine.execHaltreq s
  | .dwdataAccess => Sys2Proof.Machine.execDwdataAccess s
  | .debugWindowAccess => Sys2Proof.Machine.execDebugWindowAccess s
  | .measurementExtend => Sys2Proof.Machine.execMeasurementExtend s
  | .attestationQuote => Sys2Proof.Machine.execAttestationQuote s
  | .attestationQuoteComplete => Sys2Proof.Machine.execAttestationQuoteComplete s
  | .unlockVerify => Sys2Proof.Machine.execUnlockVerify s
  | .unlockVerifyComplete => Sys2Proof.Machine.execUnlockVerifyComplete s
  | .unlockCommit => Sys2Proof.Machine.execUnlockCommit s
  | .kwipe => Sys2Proof.Machine.execKwipe s
  | .checkpointSave => Sys2Proof.Machine.execCheckpointSave s
  | .checkpointRestore => Sys2Proof.Machine.execCheckpointRestore s
  | .checkpointComplete => Sys2Proof.Machine.execCheckpointComplete s
  | .packageReset => Sys2Proof.Machine.execPackageReset s
  | .recoveryImageSubmit => Sys2Proof.Machine.execRecoveryImageSubmit s
  | .hostLinkDown => Sys2Proof.Machine.execHostLinkDown s
  | .linkDown => Sys2Proof.Machine.execLinkDown s
  | .uncorrectableError => Sys2Proof.Machine.execUncorrectableError s
  | .supplyDroop => Sys2Proof.Machine.execSupplyDroop s
  | .lifetimeSecondTick => Sys2Proof.Machine.execLifetimeSecondTick s
  | .lifetimeCounterPersist => Sys2Proof.Machine.execLifetimeCounterPersist s
  | .registerWrite => Sys2Proof.Machine.execRegisterWrite s
  | .stallReasonCount => Sys2Proof.Machine.execStallReasonCount s
  | .sweliLinkRetrain => Sys2Proof.Machine.execSweliLinkRetrain s
  | .hostLinkRetrain => Sys2Proof.Machine.execHostLinkRetrain s
  | .correctedEccEvent => Sys2Proof.Machine.execCorrectedEccEvent s
  | .managementControllerCap => Sys2Proof.Machine.execManagementControllerCap s
  | .receiveTableWrite => Sys2Proof.Machine.execReceiveTableWrite s
  | .dsackWrite => Sys2Proof.Machine.execDsackWrite s
  | .careaWrite => Sys2Proof.Machine.execCareaWrite s
  | .replyEntryVisible => Sys2Proof.Machine.execReplyEntryVisible s

end Sys2Proof.Machine
end

