-- ==== Sys2Proof/Machine/Choose.lean ====
section
/-!
DEFINITION. What happens next. Which agent issues, and when engines and the outside act, is physical (01_engines R48,
R49: no result depends on it); the model lets `State.script` name it and otherwise takes the order written here.
-/

namespace Sys2Proof.Machine

/-! ### Issuing -/

/-- An actor can issue. -/
def canIssue (s : State) (who : Actor) : Bool :=
  match who with
  | .split g x => match whoOf s g x with | some w => splitRuns w | none => false
  | .core d => (coreOf s d).running && !(coreOf s d).halted

/-- The started clause of an actor. -/
def startedClause (s : State) (who : Actor) : Option Clause :=
  match who with
  | .split g x => (whoOf s g x).bind (·.sp.clause)
  | .core d => (coreOf s d).clause

/-- What an actor issues: the start of its next clause, or the instruction in the next slot of the started one. -/
def nextIssue (s : State) (who : Actor) : Option Instr :=
  match startedClause s who with
  | none => some .clauseStart
  | some c => slotInstr c

/-- An actor issues, when it can. -/
def issue (who : Actor) (s : State) : Host.Outcome State Fault Refusal :=
  let s := { s with actor := who }
  if !canIssue s who then .next s
  else
    match nextIssue s who with
    | some i => exec i s
    | none => .next s

/-- An event happens. A row that is encoded, or the start of a clause, happens only by being issued. -/
def happen (i : Instr) (a : EventArg) (s : State) : Host.Outcome State Fault Refusal :=
  let s := { s with arg := a }
  if !(encode i).isEmpty || i = .clauseStart then .next s else exec i s

/-- One turn. -/
def take (t : Turn) (s : State) : Host.Outcome State Fault Refusal :=
  match t with
  | .issue who => issue who s
  | .event i a => happen i a s

/-! ### The order taken when the script names nothing -/

/-- A turn changes more than who acts. -/
def changes (s : State) (t : Turn) : Bool :=
  match take t s with
  | .next u => decide ({ u with actor := s.actor, arg := s.arg } ≠ s)
  | _ => true

/-- An event with one operand. -/
def event (i : Instr) (a : Nat) (b : Nat := 0) : Turn := .event i { a, b }

/-- What the engines can finish, in the order of the commands. -/
def engineTurns (s : State) : List Turn :=
  (s.cmds.flatMap fun (n, c) =>
    match c.body with
    | .div _ => [event .divisionComplete n]
    | .log _ => [event .logOperationComplete n]
    | .copy .. => [event .copyCommandComplete n, event .copyFault n]
    | .stage .. => [event .copyCommandComplete n]
    | .done _ => [event .copyCommandComplete n]
    | .matrix .. => [event .matrixCommandComplete n]
    | .waits => []) ++
    s.cores.filterMap fun (d, c) => if c.divs.isEmpty then none else some (event .divisionComplete 0 (d + 1))

/-- What the units of chapter 15 and the host's rings have ready. -/
def unitTurns (s : State) : List Turn :=
  (if s.dev.quote.isSome then [event .attestationQuoteComplete 0] else []) ++
    (if s.dev.ckptOp.isSome then [event .checkpointComplete 0] else []) ++
    [event .unlockVerifyComplete 0] ++
    (s.dev.fns.flatMap fun (f, _) => [event .replyEntryVisible f, event .hostSubmissionEntry f]) ++
    (s.ctxs.map fun (c, _) => event .hostLaunchRequest c) ++
    (s.phasers.flatMap fun (n, p) => (List.range p.waiting.length).map fun i => event .gatheredLaunchStart n i)

/-- What the task engine, the join engine and the domains have ready. -/
def taskTurns (s : State) : List Turn :=
  (s.conts.map fun (n, _) => event .continuationResume n) ++
    ((dies s).filterMap fun d => (dispatchNext s d).map fun p => event .taskPlacement p.1) ++
    (s.groups.flatMap fun (g, grp) => grp.splits.filterMap fun (x, sp) =>
      match sp.mode with | .held _ => some (event .unrootedEventTakesEffect g x) | _ => none) ++
    (s.ctxs.map fun (c, _) => event .drainComplete c) ++
    (s.ctxs.filterMap fun (c, x) => if x.st = 4 then some (event .drainDeadlineExpiry c) else none) ++
    ((dies s).map fun d => event .supervisorEntry d) ++
    s.doms.map fun (d, _) => event .commit d

/-- The splits that can issue, by lowest clock and key. -/
def splitTurns (s : State) : List Turn :=
  let ws := s.groups.flatMap fun (g, grp) => grp.splits.filterMap fun (x, _) =>
    (whoOf s g x).bind fun w => if splitRuns w then some w else none
  match leastBy (fun a b => pairLt (a.sp.clock, agentKey a) (b.sp.clock, agentKey b)) ws with
  | some w => [.issue (.split w.g w.x)]
  | none => []

/-- The control cores. -/
def coreTurns (s : State) : List Turn :=
  ((dies s).filter fun d => canIssue s (.core d)).map fun d => .issue (.core d)

/-- The next turn: a package in reset boots; then engines, units, tasks and commits; then an agent or a control core,
which take turns. (DEDUCED, log 2). -/
def choose (s : State) : Option Turn :=
  if s.dev.st ≤ 1 then some (event .packageReset s.dev.st)
  else
    let agents := if s.ticks % 2 = 0 then splitTurns s ++ coreTurns s else coreTurns s ++ splitTurns s
    (engineTurns s ++ unitTurns s ++ taskTurns s ++ agents).find? (changes s)

/-- When nothing else happens, everything that waits for physical work tries again. -/
def wake (s : State) : State := wakeStalled ((Table.keys s.teams).foldl settleRace s)

/-- The turn that the script names, or else the next one in order; the state without it. (DEDUCED, log 2). -/
def nextTurn (s : State) : State × Option Turn :=
  match s.script with
  | t :: rest => ({ s with script := rest }, some t)
  | [] =>
    match choose s with
    | some t => (s, some t)
    | none => (wake s, none)

end Sys2Proof.Machine
end

