-- ==== Sys2Proof/Machine/FirstSlot.lean ====
section
/-!
DEFINITION. An instruction placed where the next step issues it: in the started clause of a group of a launch of its
own, or of the control core of die 0 for the opcodes that only a control core runs (02_encoding R73, R76; 04_issue_engine
R156). Clauses latch their words when they start, so this is where a step fetches its instruction.
-/

namespace Sys2Proof.Machine

/-- A launch record that passes R294: one group of one team, quantum 2^15, 16 KiB of scratchpad, no code of its own. -/
def placedRecord : List Word :=
  [0, 0, 0, 0x000F0101, 0x00000100, 0, 0, 1, 0, 1, 0, 1, 1, 1, 1, 128, 0x4000, 0x4000000, 0, 0x7FFFFFFF] ++
    List.replicate 44 0

/-- A started clause whose first slots hold the words: flags f0 and f1 for long-latency slots. -/
def placedClause (words : List Word) : Clause :=
  { off := 0, hw := 0x00001000#32 ||| BitVec.ofNat 32 (512 * (words.length - 1)), words, idx := 0, ll := 0 }

/-- The context's areas: as the supervisor set them, or 64 MiB. -/
def placedArea (c : Ctx) : Sparse Nat := if Sparse.get 0 c.carea 0 / 2 ^ 48 = 0 then Sparse.set 0 c.carea 0 (2 ^ 54) else c.carea

/-- One group of a rooted task of a running context, about to issue the first slot of a clause. -/
def placeOnGroup (s : State) (words : List Word) : State :=
  let n := s.fresh
  let all : Mask := BitVec.allOnes 96
  let sp : Split :=
    { lanes := all, mask := all, pc := 0, clause := some (placedClause words), clock := 0, klane := 0, line := [0]
      base := 0 }
  let grp : Group :=
    { task := n + 2, team := n + 3, gidx := 0, slot := 0, vcount := 128, size := 0x4000, splits := [(0, sp)] }
  let team : Team :=
    { task := n + 2, tidx := 0, die := 0, core := 0, groups := [n + 4], size := 0x4000, epochSize := 0x4000 }
  let task : Task :=
    { launch := n + 1, ts := 0, seq := 0, path := 0x8000, lo := [0, 0, 0], hi := [1, 1, 1], words := placedRecord
      start := 0, placed := true, teams := [n + 3], rooted := some 0, family := n + 5 }
  let launch : Launch :=
    { ctx := 0, num := 0, dom := n, words := placedRecord, families := [(n + 5, ⟨true, 0, 0, placedRecord, 1⟩)]
      liveTasks := 1, order := n + 1 }
  { s with
    script := [.issue (.split (n + 4) 0)]
    fresh := n + 6
    dev := { s.dev with st := 2 }
    ctxs := Table.put s.ctxs 0 { ctxOf s 0 with st := 1, carea := placedArea (ctxOf s 0), live := (ctxOf s 0).live + 1 }
    doms := Table.put s.doms n { q := 2 ^ 15 }
    launches := Table.put s.launches (n + 1) launch
    tasks := Table.put s.tasks (n + 2) task
    teams := Table.put s.teams (n + 3) team
    groups := Table.put s.groups (n + 4) grp }

/-- The control core of die 0, running, about to issue the first slot of a clause. -/
def placeOnCore (s : State) (words : List Word) : State :=
  { s with
    script := [.issue (.core 0)]
    dev := { s.dev with st := 2 }
    cores := Table.put s.cores 0
      { coreOf s 0 with running := true, halted := false, clause := some (placedClause words), pend := [] } }

/-- The words stand where the next step takes its instruction: opcodes 0xE0-0xEA on a control core (R110).
(DESIGN CHOICE, log 4). -/
def placeWords (s : State) (words : List Word) : State :=
  let opc := ((words.headD 0).extractLsb' 24 8).toNat
  if 0xE0 ≤ opc && opc ≤ 0xEA then placeOnCore s words else placeOnGroup s words

end Sys2Proof.Machine
end

