-- ==== Sys2Proof/Machine/Step.lean ====
section
/-!
DEFINITION. One step: the next turn, taken. Every step advances the counter that free values are drawn by.
-/

namespace Sys2Proof.Machine

/-- One step of the package: a slot issued by a group or a control core, or an event of an engine, a unit, the host or a
link. Without a turn only what waits for physical work tries again. -/
def step (s : State) : Host.Outcome State Fault Refusal :=
  let r := nextTurn s
  let u := { r.1 with ticks := s.ticks + 1 }
  match r.2 with
  | some t => take t u
  | none => .next u

/-- `s` with an instruction stored where `step` takes its next one: a slot word, and a literal word of zeros when `nbits`
does not reach to it. (DESIGN CHOICE, log 4). -/
def State.withFetchWord (s : State) (nbits w : Nat) : State :=
  placeWords s [BitVec.ofNat 32 w, BitVec.ofNat 32 (if nbits ≤ 32 then 0 else w / 2 ^ 32)]

end Sys2Proof.Machine
end

