-- ==== Sys2Proof/Safety.lean ====
section
/-!
DEFINITION. What counts as a good state and as a safe step, and when a slot issues and retires, in the terms that
statements use.
-/

namespace Sys2Proof.Machine

/-- A step that does not stop the machine. -/
def goesOn (s : State) : Prop := ∃ t, step s = .next t

/-- Package memory and host memory stand in their canonical form. -/
def memoryGood (s : State) : Prop := Memory.wf s = true ∧ Sparse.wf 0 s.host = true

/-- Split `w.x` of group `w.g` is the issuer and stands at a slot of its started clause `c`, and no check that R438 puts
before the instruction's own stops `i` there: no PC comparator matches (R436), `i` is not privileged (R111), logical
time is left (R35, R300), no register it names is pending (R79), and the mode admits its kind (R94). -/
def issues (s : State) (w : Who) (c : Clause) (i : Instr) : Prop :=
  s.actor = .split w.g w.x ∧ whoOf s w.g w.x = some w ∧ w.sp.clause = some c ∧ pcHit s w c = none ∧
    isPrivileged i = false ∧ timeUp w = none ∧ hazardOf w i = none ∧
    kindBad i w.grp.mode = false

/-- No check that follows the instruction's own stops its retirement with the effects `o`: no access lies in a range that
a collective writes (R399), no watch comparator matches (R437), a long-latency slot finds its flag below 15 (R76), a
slot that closes its quantum belongs to a rooted task (R301) whose quantum ends below 2^63 (R35), no stripe (R221), window
(R66) or sibling (R186) rule is broken, and a split that exits leaves no pending conflict without its pair. -/
def clears (s : State) (w : Who) (c : Clause) (i : Instr) (o : Out) : Prop :=
  collTouched w o.accs = none ∧ watchHit s w o.looks = none ∧
    (longLatency i = true → flagOf w.grp c.flag < 15) ∧
    (o.flow.closes = true → w.task.rooted.isSome = true ∧ closeFits w = true) ∧
    stripeConflict w.team w.grp.gidx w.sp.clock (b0Span w.sp) w.g w.x (o.stripes w) = none ∧
    windowRace w (o.windows w) = none ∧ sibConflicts w (o.shared w i) = [] ∧ (i = .exit → keepsPair s w = false)

/-- Where a split issues `i` and nothing that follows stops it, the slot retires with the effects `o`. -/
def runsOnSplit (s : State) (w : Who) (c : Clause) (i : Instr) (o : Out) : Prop :=
  issues s w c i → clears s w c i o → exec i s = .next (slotDone w c i o)

/-- Where a split issues `i`, it traps with `t` (R414-R418). -/
def trapsOnSplit (s : State) (w : Who) (c : Clause) (i : Instr) (t : Trap) : Prop :=
  issues s w c i → exec i s = settle s w (.trap t)

/-- The control core of die `d` is the issuer and stands at a slot of its started clause `c`, `i` belongs to its set
(R111), and no register that `i` names is pending (R79). -/
def coreIssues (s : State) (d : Nat) (c : Clause) (i : Instr) : Prop :=
  s.actor = .core d ∧ (coreOf s d).clause = some c ∧ onControlCore i = true ∧
    hazardIn (coreOf s d).pend 0 (uReads i ++ uWrites i) = none ∧
    (longLatency i = true → Sparse.get 0 (coreOf s d).flags c.flag < 15)

/-- Where a control core issues `i`, the slot retires with the effects `o`. -/
def runsOnCore (s : State) (d : Nat) (c : Clause) (i : Instr) (o : Out) : Prop :=
  coreIssues s d c i → exec i s = .next (coreDone d c i o)

/-- Where a control core issues `i`, it traps with that class and cause (R416). -/
def trapsOnCore (s : State) (d : Nat) (c : Clause) (i : Instr) (cls cause : Nat) : Prop :=
  coreIssues s d c i → exec i s = .next (coreTrap s d cls cause)

/-- Where a split issues `i`, the slot waits for physical work with that stall reason (R190). -/
def waitsOnSplit (s : State) (w : Who) (c : Clause) (i : Instr) (reason : Nat) : Prop :=
  issues s w c i → exec i s = settle s w (.stall reason)

/-- Neither the issuer's team nor a group of it has a conflict that waits for its report (R187, R223). -/
def noConflicts (s : State) (w : Who) : Prop :=
  w.team.conflict = none ∧ ∀ e ∈ s.groups, e.2.team = w.grp.team → e.2.sibRaces = []

/-- Where a split issues `i`, the slot does not retire, and the split waits, traps or exhausts as `r` says. -/
def stopsOnSplit (s : State) (w : Who) (c : Clause) (i : Instr) (r : Res) : Prop :=
  issues s w c i → exec i s = settle s w r

/-- State `t` holds one new command in flight, numbered `s.fresh`, under the flag of clause `c`'s position (R76), with
destination `sd`, and `p` holds of it. -/
def leavesCommand (s : State) (w : Who) (c : Clause) (sd : SReg) (t : State) (p : Cmd → Prop) : Prop :=
  ∃ k, Table.find t.cmds s.fresh = some k ∧ k.group = w.g ∧ k.split = w.x ∧
    k.team = w.grp.team ∧ k.flag = c.flag ∧ k.sd = sd.toNat ∧ k.finished = false ∧ p k

/-- Whoever issues `i`, the slot retires with the effects `o` where nothing stops it. -/
def runs (s : State) (i : Instr) (o : Out) : Prop :=
  (∀ w c, runsOnSplit s w c i o) ∧ ∀ d c, runsOnCore s d c i o

/-- Applies `f` under the mode's element type to the elements of three lanes: of va, of the second operand and of the old
vd (R92, R123, R191). -/
def byElement (w : Who) (f : Nat → Nat → Nat → Nat × Word) (a b d : Word) : Word × Word :=
  let e := modeEtype w.grp.mode
  let n := etypeWidth e
  mapElems e fun k => f (element a n k) (element b n k) (element d n k)

/-- A vector instruction that computes lane `l` of vd from lane `l` of va, of the second operand and of the old vd. -/
def runsOnLanes (s : State) (w : Who) (i : Instr) (vd va : VReg) (b : Nat → Word)
    (f : Word → Word → Word → Word × Word) : Prop :=
  ∀ c, runsOnSplit s w c i
    (vecOut s w vd.toNat fun l => f (laneRead w.grp va.toNat l) (b l) (laneRead w.grp vd.toNat l))

end Sys2Proof.Machine
end

