-- ==== Sys2Proof/Certificates/Slice0/Obligations.lean ====
section
/-!
DEFINITION. What is to be proved of the model: one definition for each statement. Results are written out here from the
spec's rules, apart from the operations that the meanings call.
-/

section

open Sys2Proof Sys2Proof.Machine

/-- R163, R164: `NOP`, `SMOV`, `SLIT`, and the register and literal forms of the sixteen operations, on a split and on a
control core: sd takes the result, and nothing else than the slot's retirement changes; a `NOP` with any field set, and a
literal form with a non-zero sa, are ILLEGAL cause 3. -/
def Obligations.UniformArithmeticWritesResult : Prop :=
  (∀ (w : Word) (n : Option Word), (w.toNat / 2 ^ 24 = 0 → w ≠ 0 → decode w n = .error .mustBeZero) ∧
    (w.toNat / 2 ^ 24 = 2 ∨ w.toNat / 2 ^ 24 = 4 → w.toNat / 2 ^ 4 % 2 ^ 10 ≠ 0 → decode w n = .error .mustBeZero)) ∧
  ∀ (s : State) (sd sa : SReg) (n : Word),
    let a := uread s sd.toNat
    let b := uread s sa.toNat
    let ops (x y : Word) : List Word :=
      [x + y, x - y, x * y, BitVec.ofInt 32 (x.toInt * y.toInt / 2 ^ 32), BitVec.ofNat 32 (x.toNat * y.toNat / 2 ^ 32),
        x &&& y, x ||| y, x ^^^ y, x &&& ~~~ y, BitVec.ofNat 32 (x.toNat * 2 ^ y.toNat),
        BitVec.ofNat 32 (x.toNat / 2 ^ y.toNat), BitVec.ofInt 32 (x.toInt / 2 ^ y.toNat),
        BitVec.ofInt 32 (min x.toInt y.toInt), BitVec.ofInt 32 (max x.toInt y.toInt),
        BitVec.ofNat 32 (min x.toNat y.toNat), BitVec.ofNat 32 (max x.toNat y.toNat)]
    let regs : List Instr :=
      [.sadd sd sa, .ssub sd sa, .smul sd sa, .smulhs sd sa, .smulhu sd sa, .sand sd sa, .sor sd sa, .sxor sd sa,
        .sandn sd sa, .sshl sd sa, .sshr sd sa, .ssra sd sa, .smin sd sa, .smax sd sa, .sminu sd sa, .smaxu sd sa]
    let lits : List Instr :=
      [.saddLit sd n, .ssubLit sd n, .smulLit sd n, .smulhsLit sd n, .smulhuLit sd n, .sandLit sd n, .sorLit sd n,
        .sxorLit sd n, .sandnLit sd n, .sshlLit sd n, .sshrLit sd n, .ssraLit sd n, .sminLit sd n, .smaxLit sd n,
        .sminuLit sd n, .smaxuLit sd n]
    runs s .nop { s } ∧ ∀ e ∈ (.smov sd sa, b) :: (.slit sd n, n) :: (regs.zip (ops a b) ++ lits.zip (ops a n)),
      runs s e.1 { s := uwrite s sd.toNat e.2 }


/-- R165, R166, R168: the compares, the unary operations and the bit-field operations, on a split and on a control core. -/
def Obligations.UniformCompareUnaryAndFieldResults : Prop :=
  ∀ (s : State) (sd sa : SReg) (n : Word),
    let a := uread s sd.toNat
    let b := uread s sa.toNat
    let pos (ctl : Word) : Nat := ctl.toNat % 32
    let wid (ctl : Word) : Nat := min (ctl.toNat / 256 % 32 + 1) (32 - pos ctl)
    let conds (x y : Word) : List (Cond × Bool) :=
      [(.eq, x == y), (.ne, x != y), (.lt, decide (x.toInt < y.toInt)), (.le, decide (x.toInt ≤ y.toInt)),
        (.gt, decide (x.toInt > y.toInt)), (.ge, decide (x.toInt ≥ y.toInt)), (.ltu, decide (x.toNat < y.toNat)),
        (.leu, decide (x.toNat ≤ y.toNat)), (.gtu, decide (x.toNat > y.toNat)), (.geu, decide (x.toNat ≥ y.toNat))]
    (∀ e ∈ conds a b, runs s (.scmp sd sa e.1) { s := uwrite s sd.toNat (if e.2 then 1 else 0) }) ∧
    (∀ e ∈ conds a n, runs s (.scmpLit sd e.1 n) { s := uwrite s sd.toNat (if e.2 then 1 else 0) }) ∧
    (∀ e ∈ ([(.snot sd sa, ~~~ b), (.sneg sd sa, 0 - b), (.sabs sd sa, if 0 ≤ b.toInt then b else 0 - b),
        (.sclz sd sa, b.clz), (.sctz sd sa, b.ctz), (.spop sd sa, b.cpop), (.sbrev sd sa, b.reverse),
        (.ssext8 sd sa, (b.extractLsb' 0 8).signExtend 32), (.ssext16 sd sa, (b.extractLsb' 0 16).signExtend 32),
        (.szext8 sd sa, (b.extractLsb' 0 8).setWidth 32), (.szext16 sd sa, (b.extractLsb' 0 16).setWidth 32)] :
        List (Instr × Word)),
      runs s e.1 { s := uwrite s sd.toNat e.2 }) ∧
    (∀ r : Word, (∀ k < 32, r.getLsbD k = (decide (k < wid b) && a.getLsbD (pos b + k))) →
      runs s (.sbfxu sd sa) { s := uwrite s sd.toNat r }) ∧
    (∀ r : Word, (∀ k < 32, r.getLsbD k = a.getLsbD (pos b + min k (wid b - 1))) →
      runs s (.sbfxs sd sa) { s := uwrite s sd.toNat r }) ∧
    (∀ r : Word, (∀ k < 32, r.getLsbD k =
        if pos n ≤ k ∧ k < pos n + wid n then b.getLsbD (k - pos n) else a.getLsbD k) →
      runs s (.sbfi sd sa n) { s := uwrite s sd.toNat r })

/-- R193-R195: the element-wise integer arithmetic of the lane engine, with a vector or a uniform second operand: each
element of each writing lane takes the fitted result, and its SAT flag is gathered. -/
def Obligations.VectorElementArithmetic : Prop :=
  ∀ (s : State) (w : Who) (vd va vb : VReg) (sb : SReg),
    let e := modeEtype w.grp.mode
    let n := etypeWidth e
    let val (x : Nat) : Int := elemInt n (etypeSigned e) x
    let sgn (x : Nat) : Int := elemInt n true x
    let fit (v : Int) : Nat × Word := fitInt n (etypeSigned e) (w.grp.mode.getLsbD 8) v
    let ops : List (Nat → Nat → Nat → Nat × Word) :=
      [fun a b _ => fit (val a + val b), fun a b _ => fit (val a - val b), fun a b _ => fit (val a * val b),
        fun a b _ => (a * 2 ^ b % 2 ^ n, 0), fun a b _ => (a / 2 ^ b, 0), fun a b _ => (wrapInt n (sgn a / 2 ^ b), 0),
        fun a b _ => (if val a ≤ val b then a else b, 0), fun a b _ => (if val a ≤ val b then b else a, 0),
        fun a b _ => (wrapInt n (sgn a * sgn b / 2 ^ n), 0), fun a b _ => (a * b / 2 ^ n, 0),
        fun a b _ => (min a b, 0), fun a b _ => (max a b, 0), fun a b c => fit (val c + val a * val b)]
    let regs : List Instr :=
      [.vadd vd va vb, .vsub vd va vb, .vmul vd va vb, .vshl vd va vb, .vshr vd va vb, .vsra vd va vb, .vmin vd va vb,
        .vmax vd va vb, .vmulhs vd va vb, .vmulhu vd va vb, .vminu vd va vb, .vmaxu vd va vb, .vmad vd va vb]
    let unis : List Instr :=
      [.vadds vd va sb, .vsubs vd va sb, .vmuls vd va sb, .vshls vd va sb, .vshrs vd va sb, .vsras vd va sb,
        .vmins vd va sb, .vmaxs vd va sb]
    (∀ r ∈ regs.zip ops, runsOnLanes s w r.1 vd va (laneRead w.grp vb.toNat) (byElement w r.2)) ∧
    (∀ r ∈ unis.zip ops, runsOnLanes s w r.1 vd va (fun _ => uread s sb.toNat) (byElement w r.2)) ∧
    runsOnLanes s w (.vneg vd va) vd va (fun _ => 0) (byElement w fun a _ _ => fit (-(val a))) ∧
    runsOnLanes s w (.vabs vd va) vd va (fun _ => 0)
      (byElement w fun a _ _ => if 0 ≤ val a then (a, 0) else fit (-(val a)))

/-- R193-R195, R198: the operations on whole lanes, and the moves.
R199, R419: one lane read into a uniform register, and one lane written from it when it is a writing lane; an index of 96
or more is BOUNDS cause 3, with the index and the limit.
Where the spec leaves a point open the clauses take the model's choice: log entry 29. -/
def Obligations.VectorLaneOperationsAndSingleLanes : Prop :=
  (
    ∀ (s : State) (w : Who) (vd va vb : VReg) (sb : SReg) (t : BitVec 3),
      (∀ r ∈ ([(.vand vd va vb, fun a b => a &&& b), (.vor vd va vb, fun a b => a ||| b),
          (.vxor vd va vb, fun a b => a ^^^ b), (.vandn vd va vb, fun a b => a &&& ~~~ b),
          (.vnot vd va, fun a _ => ~~~ a), (.vclz vd va, fun a _ => a.clz), (.vpop vd va, fun a _ => a.cpop),
          (.vbrev vd va, fun a _ => a.reverse), (.vsext8 vd va, fun a _ => (a.extractLsb' 0 8).signExtend 32),
          (.vsext16 vd va, fun a _ => (a.extractLsb' 0 16).signExtend 32), (.vmov vd va, fun a _ => a)] :
          List (Instr × (Word → Word → Word))),
        runsOnLanes s w r.1 vd va (laneRead w.grp vb.toNat) fun a b _ => (r.2 a b, 0)) ∧
      runsOnLanes s w (.vands vd va sb) vd va (fun _ => uread s sb.toNat) (fun a b _ => (a &&& b, 0)) ∧
      (∀ c, runsOnSplit s w c (.vsel vd va vb t) (vecOut s w vd.toNat fun l =>
        (laneRead w.grp (if (tripleRead s t.toNat).getLsbD l then va.toNat else vb.toNat) l, 0))) ∧
      (∀ c, runsOnSplit s w c (.vlane vd) (vecOut s w vd.toNat fun l => (BitVec.ofNat 32 l, 0))) ∧
      (∀ c, runsOnSplit s w c (.vbcs vd sb) (vecOut s w vd.toNat fun _ => (uread s sb.toNat, 0)))) ∧
  (
    ∀ (s : State) (w : Who) (c : Clause) (sd sb : SReg) (v : VReg),
      let i := (uread s sd.toNat).toNat
      let j := (uread s (sb.toNat + 1)).toNat
      (i < 96 → runsOnSplit s w c (.vget sd v)
        { s := uwrite s sd.toNat (laneRead w.grp v.toNat i), items := [⟨2, v.toNat * 128 + i, false⟩] }) ∧
      (96 ≤ i → trapsOnSplit s w c (.vget sd v) { cls := 4, cause := 3, d0 := BitVec.ofNat 32 i, d1 := 96 }) ∧
      (j < 96 → (writing s w).getLsbD j = true → runsOnSplit s w c (.vput v sb)
        { s := updGroup s w.g fun grp => vecWrite grp v.toNat (fun l => l = j) fun _ => uread s sb.toNat
          items := [⟨2, v.toNat * 128 + j, true⟩] }) ∧
      (j < 96 → (writing s w).getLsbD j = false → runsOnSplit s w c (.vput v sb) { s }) ∧
      (96 ≤ j → trapsOnSplit s w c (.vput v sb) { cls := 4, cause := 3, d0 := BitVec.ofNat 32 j, d1 := 96 }))

/-- R196, R197: a compare sets the triple's bit of a writing lane when every element meets the condition, for NE when one
does, and keeps the bits of other lanes; a float compare gathers its flags. -/
def Obligations.VectorComparesWriteTriple : Prop :=
  ∀ (s : State) (w : Who) (c : Clause) (td : TReg) (t3 : BitVec 3) (va vb : VReg) (sb : SReg) (m : Mask),
    let e := modeEtype w.grp.mode
    let n := etypeWidth e
    let el (v : VReg) (l k : Nat) : Nat := element (laneRead w.grp v.toNat l) n k
    let uni (k : Nat) : Nat := element (uread s sb.toNat) n k
    let sgn (x : Nat) : Int := elemInt n true x
    let all (p : Nat → Bool) : Bool := (List.range (etypeCount e)).all p
    let rel (y : Nat → Nat → Nat) : List (Cond × (Nat → Bool)) :=
      [(.eq, fun l => all fun k => el va l k == y l k), (.ne, fun l => !all fun k => el va l k == y l k),
        (.lt, fun l => all fun k => decide (sgn (el va l k) < sgn (y l k))),
        (.le, fun l => all fun k => decide (sgn (el va l k) ≤ sgn (y l k))),
        (.gt, fun l => all fun k => decide (sgn (el va l k) > sgn (y l k))),
        (.ge, fun l => all fun k => decide (sgn (el va l k) ≥ sgn (y l k))),
        (.ltu, fun l => all fun k => decide (el va l k < y l k)), (.leu, fun l => all fun k => decide (el va l k ≤ y l k)),
        (.gtu, fun l => all fun k => decide (el va l k > y l k)), (.geu, fun l => all fun k => decide (el va l k ≥ y l k))]
    let sets (t : Nat) (p : Nat → Bool) : Prop :=
      ∀ l < 96, m.getLsbD l = if (writing s w).getLsbD l then p l else (tripleRead s t).getLsbD l
    (∀ r ∈ rel fun l k => el vb l k, ∀ i ∈ (Cond.eq, Instr.vcmpA 0 td va vb) :: (.ne, .vcmpA 1 td va vb) ::
        (.lt, .vcmpA 2 td va vb) :: (.le, .vcmpA 3 td va vb) :: (.gt, .vcmpA 4 td va vb) :: (.ge, .vcmpA 5 td va vb) ::
        (.ltu, .vcmpA 6 td va vb) :: (.leu, .vcmpA 7 td va vb) :: (.gtu, .vcmpB false td va vb) ::
        (.geu, .vcmpB true td va vb) :: [],
      i.1 = r.1 → sets td.toNat r.2 → runsOnSplit s w c i.2 { s := tripleWrite s td.toNat m }) ∧
    (∀ r ∈ rel fun _ k => uni k, sets t3.toNat r.2 →
      runsOnSplit s w c (.vcmps r.1 t3 va sb) { s := tripleWrite s t3.toNat m }) ∧
    (∀ (f : Fmt) (fc : FCond) (fl : Word), etypeFmt e = some f →
      let one (l k : Nat) : Bool × Word := fCond f (modeDaz w.grp.mode) fc (el va l k) (el vb l k)
      sets td.toNat (fun l => if fc = .ne then !all fun k => !(one l k).1 else all fun k => (one l k).1) →
      (∀ b < 32, fl.getLsbD b = true ↔
        ∃ l < 96, (writing s w).getLsbD l = true ∧ ∃ k < etypeCount e, (one l k).2.getLsbD b = true) →
      runsOnSplit s w c (.vfcmp fc td va vb) { s := raiseFlags (tripleWrite s td.toNat m) w fl })


/-- R200, R201: the float arithmetic and unary operations on each element of the mode's float type, with the rounding, daz
and ftz of the mode as captured.
Where the spec leaves a point open the clauses take the model's choice: log entries 42 and 43. -/
def Obligations.VectorFloatArithmetic : Prop :=
  ∀ (s : State) (w : Who) (vd va vb : VReg) (sb : SReg) (f : Fmt), etypeFmt (modeEtype w.grp.mode) = some f →
    let r : Rnd := { rm := bits w.grp.mode 5 4, ftz := w.grp.mode.getLsbD 6, daz := w.grp.mode.getLsbD 7 }
    let ops : List (Nat → Nat → Nat → Nat × Word) :=
      [fun a b _ => fAdd f r false a b, fun a b _ => fMul f r a b,
        fun a b c => exactSum f r.rm r.ftz r.daz [(f, a), (f, b), (f, c)] [⟨false, [(f, a), (f, b)]⟩, ⟨false, [(f, c)]⟩],
        fun a b _ => fAdd f r true a b, fun a b _ => fMinMax f r false a b, fun a b _ => fMinMax f r true a b,
        fun a b _ => (fCopySign f a b, 0),
        fun a b c => exactSum f r.rm r.ftz r.daz [(f, a), (f, b), (f, c)] [⟨false, [(f, a), (f, b)]⟩, ⟨true, [(f, c)]⟩],
        fun a b c => exactSum f r.rm r.ftz r.daz [(f, a), (f, b), (f, c)] [⟨true, [(f, a), (f, b)]⟩, ⟨false, [(f, c)]⟩],
        fun a b c => exactSum f r.rm r.ftz r.daz [(f, a), (f, b), (f, c)] [⟨true, [(f, a), (f, b)]⟩, ⟨true, [(f, c)]⟩],
        fun a _ _ => (fAbs f a, 0), fun a _ _ => (fNeg f a, 0), fun a _ _ => fIntegral f r none a,
        fun a _ _ => fIntegral f r (some 1) a, fun a _ _ => fIntegral f r (some 2) a,
        fun a _ _ => fIntegral f r (some 3) a, fun a _ _ => (fClass f a, 0)]
    let regs : List Instr :=
      [.vfadd vd va vb, .vfmul vd va vb, .vfma vd va vb, .vfsub vd va vb, .vfmin vd va vb, .vfmax vd va vb,
        .vfcpys vd va vb, .vfms vd va vb, .vfnma vd va vb, .vfnms vd va vb, .vfabs vd va, .vfneg vd va, .vfrint vd va,
        .vftrunc vd va, .vffloor vd va, .vfceil vd va, .vfclass vd va]
    (∀ e ∈ regs.zip ops, runsOnLanes s w e.1 vd va (laneRead w.grp vb.toNat) (byElement w e.2)) ∧
    (∀ e ∈ [Instr.vfadds vd va sb, .vfmuls vd va sb, .vfmas vd va sb].zip ops,
      runsOnLanes s w e.1 vd va (fun _ => uread s sb.toNat) (byElement w e.2))

/-- R129: keeping a magnitude m × 2^e to a multiple of 2^q, RNE takes the nearest multiple and the even one of two, RTZ
the one below, RDN and RUP the one toward their infinity; the result is inexact when something was dropped. -/
def Obligations.RoundingTakesTheModesNeighbour : Prop :=
  ∀ (neg : Bool) (m : Nat) (e q : Int), e < q →
    let d := 2 ^ (q - e).toNat
    let up : Nat := if m % d = 0 then m / d else m / d + 1
    (∀ rm, (roundAt rm neg m e false q).2 = decide (m % d ≠ 0)) ∧
    (let n := (roundAt 0 neg m e false q).1
     2 * (n * d) ≤ 2 * m + d ∧ 2 * m ≤ 2 * (n * d) + d ∧ (2 * (m % d) = d → n % 2 = 0)) ∧
    (roundAt 1 neg m e false q).1 = m / d ∧
    (roundAt 2 neg m e false q).1 = (if neg then up else m / d) ∧
    (roundAt 3 neg m e false q).1 = (if neg then m / d else up)

/-- R202-R205: conversions into the mode's element type, `VPACK`, `VUNPK` and the dot products; packing and unpacking an
element type of 32 bits, or an element that the type has not, is MODE.
Where the spec leaves a point open the clauses take the model's choice: log entry 31. -/
def Obligations.VectorConversionPackingAndDotProducts : Prop :=
  ∀ (s : State) (w : Who) (vd va vb : VReg) (p : BitVec 3),
    let m := w.grp.mode
    let e := modeEtype m
    let n := etypeWidth e
    let badMode : Trap := { cls := 3, cause := 1, aux := if 7 ≤ bits m 3 0 then 1 else 0, d0 := m }
    let conv (se : Etype) (k : Nat) (x : Nat) : Nat × Word :=
      if etypeCount se ≤ k then (0, 0)
      else match etypeFmt se, etypeFmt e with
        | some f, some g => cvtFF f g (modeRnd m) x
        | some f, none => cvtFI f n (etypeSigned e) (modeRnd m) x
        | none, some g => cvtIF g (modeRnd m) (elemInt (etypeWidth se) (etypeSigned se) x)
        | none, none => fitInt n (etypeSigned e) (m.getLsbD 8) (elemInt (etypeWidth se) (etypeSigned se) x)
    let from' (se : Etype) (a : Word) : Word × Word := mapElems e fun k => conv se k (element a (etypeWidth se) k)
    let nar (x : Word) : Nat × Word :=
      match etypeFmt e with
      | some f => cvtFF fmtF32 f (modeRnd m) x.toNat
      | none => fitInt n (etypeSigned e) (m.getLsbD 8) (if etypeSigned e then x.toInt else x.toNat)
    let wide (x : Nat) : Word × Word :=
      match etypeFmt e with
      | some f => (BitVec.ofNat 32 (cvtFF f fmtF32 { modeRnd m with ftz := false } x).1,
          (cvtFF f fmtF32 { modeRnd m with ftz := false } x).2)
      | none => (BitVec.ofInt 32 (elemInt n (etypeSigned e) x), 0)
    let dotI (k : Nat) (sg : Bool) (a b c : Word) : Word × Word :=
      let v := ((List.range (32 / k)).map fun j =>
        elemInt k sg (element a k j) * elemInt k sg (element b k j)).sum + elemInt 32 sg c.toNat
      (BitVec.ofNat 32 (fitInt 32 sg (m.getLsbD 8) v).1, (fitInt 32 sg (m.getLsbD 8) v).2)
    (∀ r ∈ ([(.vcvtLow vd va p, etypeOf p.toNat), (.vcvtHigh vd va p, etypeOf (8 + p.toNat))] : List (Instr × Etype)),
      runsOnLanes s w r.1 vd va (fun _ => 0) fun a _ _ => from' r.2 a) ∧
    (n = 32 → ∀ c, trapsOnSplit s w c (.vpack vd va vb) badMode) ∧
    (n ≠ 32 → runsOnLanes s w (.vpack vd va vb) vd va (laneRead w.grp vb.toNat) fun a b c =>
      (BitVec.ofNat 32 (c.toNat * 2 ^ (2 * n) + (nar b).1 * 2 ^ n + (nar a).1), (nar a).2 ||| (nar b).2)) ∧
    (n = 32 ∨ etypeCount e ≤ p.toNat → ∀ c, trapsOnSplit s w c (.vunpk vd va p) badMode) ∧
    (n ≠ 32 → p.toNat < etypeCount e → runsOnLanes s w (.vunpk vd va p) vd va (fun _ => 0) fun a _ _ =>
      wide (element a n p.toNat)) ∧
    (∀ r ∈ ([(.vdot4i8 vd va vb, dotI 8 true), (.vdot4u8 vd va vb, dotI 8 false), (.vdot8i4 vd va vb, dotI 4 true),
        (.vdot4f8a vd va vb, dotFloat fmtF8A m), (.vdot4f8b vd va vb, dotFloat fmtF8B m),
        (.vdot2f16 vd va vb, dotFloat fmtF16 m), (.vdot2bf16 vd va vb, dotFloat fmtBF16 m)] :
        List (Instr × (Word → Word → Word → Word × Word))),
      runsOnLanes s w r.1 vd va (laneRead w.grp vb.toNat) r.2)

/-- R206-R208: a lane exchange gives each writing lane the lane that it names, active or not; an index of 96 or more gives
0 in `VPERM` and the lane itself in the others. The lanes that the active lanes name count as read, whether or not a lane
writes.
Where the spec leaves a point open the clauses take the model's choice: log entry 34. -/
def Obligations.LaneExchangeReadsNamedLanes : Prop :=
  ∀ (s : State) (w : Who) (c : Clause) (vd va vb : VReg) (sb : SReg),
    let d := (uread s sb.toNat).toNat
    let a (l : Nat) : Word := laneRead w.grp va.toNat l
    let ix (l : Nat) : Nat := (laneRead w.grp vb.toNat l).toNat
    let reads (src : Nat → Nat) : List Item :=
      ((lanesOf w.sp.mask).map src).eraseDups.map fun k => ⟨2, va.toNat * 128 + k, false⟩
    let out (f : Nat → Word) (rd : List Item) : Out :=
      let o := laneResults s w vd.toNat fun l => (f l, 0)
      { o with items := rd ++ o.items }
    let keep (src : Nat → Option Nat) (l : Nat) : Nat := match src l with | some k => if k < 96 then k else l | none => l
    let shx := keep fun l => some (l ^^^ d)
    let shu := keep fun l => if d ≤ l then some (l - d) else none
    let shd := keep fun l => some (l + d)
    runsOnSplit s w c (.vperm vd va vb) (out (fun l => if ix l < 96 then a (ix l) else 0)
      ((((lanesOf w.sp.mask).map ix).filter (· < 96)).eraseDups.map fun k => ⟨2, va.toNat * 128 + k, false⟩)) ∧
    runsOnSplit s w c (.vshx vd va sb) (out (fun l => a (shx l)) (reads shx)) ∧
    runsOnSplit s w c (.vshu vd va sb) (out (fun l => a (shu l)) (reads shu)) ∧
    runsOnSplit s w c (.vshd vd va sb) (out (fun l => a (shd l)) (reads shd))

/-- R209, R144, R146: a reduction folds each element position over the active lanes, whatever the guard, and writes the
packed results; an index form writes the winner and its index; without an active lane the identities stand.
R210: a scan gives each writing lane what `VRED` would make of the active lanes up to it, or before it in the
exclusive form.
Where the spec leaves a point open the clauses take the model's choice: log entry 43. -/
def Obligations.ReductionsAndScansFoldActiveLanes : Prop :=
  (
    ∀ (s : State) (w : Who) (c : Clause) (sd : SReg) (va : VReg),
      let m := w.grp.mode
      let e := modeEtype m
      let n := etypeWidth e
      let val (x : Nat) : Int := elemInt n (etypeSigned e) x
      let fit (v : Int) : Nat × Word := fitInt n (etypeSigned e) (m.getLsbD 8) v
      let act := lanesOf w.sp.mask
      let el (l k : Nat) : Nat := element (laneRead w.grp va.toNat l) n k
      let whole : List Nat := act.map fun l => (laneRead w.grp va.toNat l).toNat
      let ints : List (RedOp × (List Nat → Nat × Word)) :=
        [(.add, fun xs => fit (xs.map val).sum),
          (.min, fun xs => (xs.foldr (fun a b => if val a ≤ val b then a else b) (wrapInt n (intHigh n (etypeSigned e))), 0)),
          (.max, fun xs => (xs.foldr (fun a b => if val a ≤ val b then b else a) (wrapInt n (intLow n (etypeSigned e))), 0)),
          (.minu, fun xs => (xs.foldr min (2 ^ n - 1), 0)), (.maxu, fun xs => (xs.foldr max 0, 0))]
      let idx (l k : Nat) : Nat := l * etypeCount e + k
      let pair (v i : Nat) (fl : Word) : Out :=
        { s := raiseFlags (uwrite (uwrite s sd.toNat (word v)) (sd.toNat + 1) (word i)) w fl }
      (∀ r ∈ ints, let res := mapElems e fun k => r.2 (act.map fun l => el l k)
        runsOnSplit s w c (.vred r.1 sd va) { s := raiseFlags (uwrite s sd.toNat res.1) w res.2 }) ∧
      (∀ r ∈ ([(.and, whole.foldr (fun a b => a &&& b) (2 ^ 32 - 1)), (.or, whole.foldr (fun a b => a ||| b) 0),
          (.xor, whole.foldr (fun a b => a ^^^ b) 0)] : List (RedOp × Nat)),
        runsOnSplit s w c (.vred r.1 sd va) { s := uwrite s sd.toNat (BitVec.ofNat 32 r.2) }) ∧
      (∀ f, etypeFmt e = some f →
        (let res := mapElems e fun k => exactSum f (modeRm m) (modeFtz m) (modeDaz m) (act.map fun l => (f, el l k))
          (act.map fun l => ⟨false, [(f, el l k)]⟩)
         runsOnSplit s w c (.vred .fadd sd va) { s := raiseFlags (uwrite s sd.toNat res.1) w res.2 }) ∧
        (∀ r ∈ [(RedOp.fmin, false), (.fmax, true)],
          let res := mapElems e fun k => f.flush (modeFtz m) (act.foldl (fun (p : Nat × Word) l =>
            ((fPick f (modeDaz m) r.2 p.1 (el l k)).1, p.2 ||| (fPick f (modeDaz m) r.2 p.1 (el l k)).2))
            ((f.inf r.2).1, 0))
          runsOnSplit s w c (.vred r.1 sd va) { s := raiseFlags (uwrite s sd.toNat res.1) w res.2 }) ∧
        (∀ r ∈ [(RedOp.fmini, false), (.fmaxi, true)],
          let fl := flagIf (act.any fun l => (List.range (etypeCount e)).any fun k => f.isSnan (el l k)) fNV
          (act = [] → runsOnSplit s w c (.vred r.1 sd va) (pair (f.inf r.2).1 0xFFFFFFFF 0)) ∧
          ∀ l ∈ act, ∀ k < etypeCount e,
            (∀ l' ∈ act, ∀ k' < etypeCount e, idx l' k' ≠ idx l k →
              fRankBetter f r.2 (el l k, idx l k) (el l' k', idx l' k') = true) →
            runsOnSplit s w c (.vred r.1 sd va)
              (pair (if f.isNan (el l k) then f.quiet (el l k) else el l k) (idx l k) fl))) ∧
      (∀ r ∈ [(RedOp.mini, false), (.maxi, true)],
        (act = [] → runsOnSplit s w c (.vred r.1 sd va)
          (pair (wrapInt n (if r.2 then intLow n (etypeSigned e) else intHigh n (etypeSigned e))) 0xFFFFFFFF 0)) ∧
        ∀ l ∈ act, ∀ k < etypeCount e,
          (∀ l' ∈ act, ∀ k' < etypeCount e, idx l' k' ≠ idx l k →
            (if r.2 then val (el l' k') < val (el l k) else val (el l k) < val (el l' k')) ∨
              (val (el l' k') = val (el l k) ∧ idx l k < idx l' k')) →
          runsOnSplit s w c (.vred r.1 sd va) (pair (el l k) (idx l k) 0))) ∧
  (
    ∀ (s : State) (w : Who) (c : Clause) (vd va : VReg) (excl : Bool),
      let m := w.grp.mode
      let e := modeEtype m
      let isFloat := (etypeFmt e).isSome
      ∀ r ∈ [(ScanOp.add, RedOp.add), (.fadd, .fadd), (.max, if isFloat then .fmax else .max),
          (.min, if isFloat then .fmin else .min)],
        runsOnSplit s w c (.vscan r.1 excl vd va) (vecOut s w vd.toNat fun l =>
          mapElems e fun k => reduceElem m e r.2
            (((lanesOf w.sp.mask).filter fun j => if excl then decide (j < l) else decide (j ≤ l)).map fun j =>
              element (laneRead w.grp va.toNat j) (etypeWidth e) k)))


/-- R54, R55, R65, R169: a uniform load or store on a split accesses the bytes at s(sa) + literal in the own allocation or a
window; beyond the allocation it is BOUNDS cause 1, misaligned cause 2, and behind a command in flight it waits.
R406: a control core's loads and stores reach its local memory, and package memory through the window of its base
register; outside the map they are BOUNDS cause 1, misaligned cause 2.
Where the spec leaves a point open the clauses take the model's choice: log entries 40, 44 and 48. -/
def Obligations.UniformLoadsAndStores : Prop :=
  (
    ∀ (s : State) (w : Who) (c : Clause) (sd sa : SReg) (off : Word),
      let a := (uread s sa.toNat + off).toNat
      let x := uread s sd.toNat
      let ext16 (v : Word) : Word := (v.extractLsb' 0 16).signExtend 32
      let ext8 (v : Word) : Word := (v.extractLsb' 0 8).signExtend 32
      let loads : List (Instr × Nat × (Word → Word)) :=
        [(.sld sd sa .w off, 4, fun v => v), (.sld sd sa .h off, 2, fun v => v), (.sld sd sa .hs off, 2, ext16),
          (.sld sd sa .b off, 1, fun v => v), (.sld sd sa .bs off, 1, ext8)]
      let stores : List (Instr × Nat) := [(.sst sd sa .w off, 4), (.sst sd sa .h off, 2), (.sst sd sa .b off, 1)]
      (∀ r ∈ loads, ∀ t o, locate s w a r.2.1 = .at t o → a % r.2.1 = 0 →
        (heldAccess s w [⟨t, o, r.2.1, 0⟩] = true → waitsOnSplit s w c r.1 7) ∧
        (heldAccess s w [⟨t, o, r.2.1, 0⟩] = false → runsOnSplit s w c r.1
          { s := uwrite s sd.toNat (r.2.2 (bytesWord (spadRead s w t o r.2.1)))
            accs := [⟨t, o, r.2.1, 0⟩], looks := [⟨false, a, r.2.1, true, false, 96⟩] })) ∧
      (∀ r ∈ stores, ∀ t o, locate s w a r.2 = .at t o → a % r.2 = 0 →
        (heldAccess s w [⟨t, o, r.2, 1⟩] = true → waitsOnSplit s w c r.1 7) ∧
        (heldAccess s w [⟨t, o, r.2, 1⟩] = false → runsOnSplit s w c r.1
          { s := spadWrite s w t o ((List.range r.2).map fun k => x.extractLsb' (8 * k) 8)
            accs := [⟨t, o, r.2, 1⟩], looks := [⟨false, a, r.2, false, true, 96⟩] })) ∧
      (∀ r ∈ loads.map (fun r => (r.1, r.2.1)) ++ stores,
        (∀ limit, locate s w a r.2 = .out limit →
          trapsOnSplit s w c r.1 { cls := 4, cause := 1, d0 := word a, d1 := word limit }) ∧
        (∀ t o, locate s w a r.2 = .at t o → a % r.2 ≠ 0 →
          trapsOnSplit s w c r.1 { cls := 4, cause := 2, d0 := word a, d1 := word w.grp.size }))) ∧
  (
    ∀ (s : State) (d : Nat) (c : Clause) (sd sa : SReg) (off : Word),
      let a := (uread s sa.toNat + off).toNat
      let x := uread s sd.toNat
      let pa := bits (Sparse.get 0 (coreOf s d).sys 5) 15 0 * 2 ^ 24 + (a - 0x1000000)
      let ext16 (v : Word) : Word := (v.extractLsb' 0 16).signExtend 32
      let ext8 (v : Word) : Word := (v.extractLsb' 0 8).signExtend 32
      let bytes (n : Nat) : List Byte := (List.range n).map fun k => x.extractLsb' (8 * k) 8
      let loads : List (Instr × Nat × (Word → Word)) :=
        [(.sld sd sa .w off, 4, fun v => v), (.sld sd sa .h off, 2, fun v => v), (.sld sd sa .hs off, 2, ext16),
          (.sld sd sa .b off, 1, fun v => v), (.sld sd sa .bs off, 1, ext8)]
      let stores : List (Instr × Nat) := [(.sst sd sa .w off, 4), (.sst sd sa .h off, 2), (.sst sd sa .b off, 1)]
      (∀ r ∈ loads, a % r.2.1 = 0 →
        (a + r.2.1 ≤ 0x40000 → runsOnCore s d c r.1
          { s := uwrite s sd.toNat (r.2.2 (bytesWord (Sparse.read 0 (coreOf s d).mem a r.2.1))) }) ∧
        (0x1000000 ≤ a → a + r.2.1 ≤ 0x2000000 → pa + r.2.1 ≤ memSize s → runsOnCore s d c r.1
          { s := uwrite s sd.toNat (r.2.2 (bytesWord (physRead s 0 pa r.2.1))) })) ∧
      (∀ r ∈ stores, a % r.2 = 0 →
        (a + r.2 ≤ 0x40000 → runsOnCore s d c r.1
          { s := updCore s d fun k => { k with mem := Sparse.write 0 k.mem a (bytes r.2) } }) ∧
        (0x1000000 ≤ a → a + r.2 ≤ 0x2000000 → pa + r.2 ≤ memSize s →
          (storeCore s 0 pa (bytes r.2)).mem = (physWrite s 0 pa (bytes r.2)).mem ∧
          runsOnCore s d c r.1 { s := storeCore s 0 pa (bytes r.2) })) ∧
      (∀ r ∈ loads.map (fun r => (r.1, r.2.1)) ++ stores,
        (0x40000 < a + r.2 → a < 0x1000000 ∨ 0x2000000 < a + r.2 → trapsOnCore s d c r.1 4 1) ∧
        (a + r.2 ≤ 0x40000 ∨ (0x1000000 ≤ a ∧ a + r.2 ≤ 0x2000000) → a % r.2 ≠ 0 → trapsOnCore s d c r.1 4 2)))

/-- R54, R55, R65: `n` bytes at a local address lie in the own allocation, as the issuing group sees its size, or in the
window of a team of the task, as its size stood at the last commit point.
Where the spec leaves a point open the clauses take the model's choice: log entry 44. -/
def Obligations.LocalAddressesNameAllocations : Prop :=
  ∀ (s : State) (w : Who) (n t o : Nat),
    (o + n ≤ w.grp.size → o < 0x100000 → locate s w o n = .at w.team.tidx o) ∧
    (w.grp.size < o + n → o < 0x100000 → locate s w o n = .out w.grp.size) ∧
    (t < 24 → t < recWidth w.task.words → o < 0x100000 →
      (t = w.team.tidx → o + n ≤ w.grp.size → locate s w (0x1000000 + t * 0x100000 + o) n = .at t o) ∧
      (t ≠ w.team.tidx → ∀ i tm, teamAt s w t = some (i, tm) → o + n ≤ tm.epochSize →
        locate s w (0x1000000 + t * 0x100000 + o) n = .at t o) ∧
      (t = w.team.tidx → w.grp.size < o + n → locate s w (0x1000000 + t * 0x100000 + o) n = .out w.grp.size) ∧
      (t ≠ w.team.tidx → ∀ i tm, teamAt s w t = some (i, tm) → tm.epochSize < o + n →
        locate s w (0x1000000 + t * 0x100000 + o) n = .out tm.epochSize)) ∧
    (t < 24 → recWidth w.task.words ≤ t → o < 0x100000 →
      locate s w (0x1000000 + t * 0x100000 + o) n = .out (recWidth w.task.words)) ∧
    (∀ a, 0x100000 ≤ a → a < 0x1000000 ∨ 0x2800000 ≤ a → locate s w a n = .out w.grp.size)

/-- R170, R171, R405: launch words, constant words as committed before the launch began, and the mode register; a value
that the mode register refuses is ILLEGAL cause 7.
R101, R172: the mask operations on triples.
Where the spec leaves a point open the clauses take the model's choice: log entries 38 and 85. -/
def Obligations.LaunchWordsModeAndMasks : Prop :=
  (
    ∀ (s : State) (sd sa : SReg) (n : BitVec 10) (m : Word),
      let a := uread s sa.toNat
      let bad (v : Word) : Bool := decide (12 ≤ v.toNat % 16) || decide (2 ^ 15 ≤ v.toNat) ||
        (v.getLsbD 14 && decide (v.toNat / 512 % 32 = 0))
      (∀ w c, runsOnSplit s w c (.slr sd n) { s := uwrite s sd.toNat (w.task.words.getD n.toNat 0) }) ∧
      (∀ d c, runsOnCore s d c (.slr sd n) { s := uwrite s sd.toNat 0 }) ∧
      (∀ w c v, constWord s w.launch w.team.die (recCblk w.task.words) n.toNat = .ok v →
        runsOnSplit s w c (.slrC sd n) { s := uwrite s sd.toNat v }) ∧
      (∀ d c, runsOnCore s d c (.slrC sd n) { s := uwrite s sd.toNat 0 }) ∧
      (bad a = false →
        (∀ w c, runsOnSplit s w c (.mode sa) { s := updGroup s w.g fun g => { g with mode := a }, items := [⟨1, 0, true⟩] }) ∧
        (∀ d c, runsOnCore s d c (.mode sa) { s := updCore s d fun k => { k with mode := a }, items := [⟨1, 0, true⟩] })) ∧
      (bad a = true →
        (∀ w c, trapsOnSplit s w c (.mode sa) { cls := 0, cause := 7, d0 := c.hw }) ∧
        ∀ d c, trapsOnCore s d c (.mode sa) 0 7) ∧
      (bad m = false →
        (∀ w c, runsOnSplit s w c (.modei m) { s := updGroup s w.g fun g => { g with mode := m }, items := [⟨1, 0, true⟩] }) ∧
        (∀ d c, runsOnCore s d c (.modei m) { s := updCore s d fun k => { k with mode := m }, items := [⟨1, 0, true⟩] })) ∧
      (∀ w c, runsOnSplit s w c (.modeg sd)
        { s := uwrite s sd.toNat (w.grp.mode &&& 0x7FFF), items := [⟨1, 0, false⟩] }) ∧
      (∀ d c, runsOnCore s d c (.modeg sd)
        { s := uwrite s sd.toNat ((coreOf s d).mode &&& 0x7FFF), items := [⟨1, 0, false⟩] })) ∧
  (
    ∀ (s : State) (sd : SReg) (td ta : TReg),
      let d := tripleRead s td.toNat
      let a := tripleRead s ta.toNat
      let ones : Word := 0xFFFFFFFF
      (∀ r ∈ ([(.mpop sd ta, a.cpop.setWidth 32), (.mfirst sd ta, if a = 0 then ones else a.ctz.setWidth 32),
          (.mlast sd ta, if a = 0 then ones else (95 - a.clz).setWidth 32)] : List (Instr × Word)),
        runs s r.1 { s := uwrite s sd.toNat r.2 }) ∧
      (∀ r ∈ ([(.mnot td ta, ~~~ a), (.mand td ta, d &&& a), (.mor td ta, d ||| a), (.mxor td ta, d ^^^ a),
          (.mandn td ta, d &&& ~~~ a), (.mclr td, 0), (.mall td, BitVec.allOnes 96)] : List (Instr × Mask)),
        runs s r.1 { s := tripleWrite s td.toNat r.2 }))

/-- R173, R174, R176, R178, R405, R439, R442: a taken branch, a call and a return continue at a clause header, a branch that is not taken and
`NOP` with the next slot; a call stack holds 32 frames; `TRAPU` raises USER and `BKPT` DEBUG with their code, past the
instruction.
Where the spec leaves a point open the clauses take the model's choice: log entry 29. -/
def Obligations.BranchesCallsAndSoftwareTraps : Prop :=
  ∀ (s : State) (sc : SReg) (t : Word) (k : BitVec 10),
    let a := uread s sc.toNat
    let code := k.setWidth 32
    runs s .nop { s } ∧
    (∀ r ∈ [(BrCond.al, true), (.eqz, a == 0), (.nez, a != 0), (.ltz, decide (a.toInt < 0)), (.gez, decide (0 ≤ a.toInt))],
      (r.2 = true → runs s (.br sc r.1 t) { s := traceJump s t.toNat, flow := .jump t.toNat }) ∧
      (r.2 = false → runs s (.br sc r.1 t) { s })) ∧
    (∀ w c, (w.sp.calls.length < 32 → runsOnSplit s w c (.call t)
        { s := traceJump (updSplit s w.g w.x fun sp => { sp with calls := word c.nextOff :: w.sp.calls }) t.toNat
          flow := .jump t.toNat }) ∧
      (32 ≤ w.sp.calls.length →
        trapsOnSplit s w c (.call t) { cls := 4, cause := 5, d0 := word w.sp.calls.length, d1 := 32 }) ∧
      (∀ r l, w.sp.calls = r :: l → runsOnSplit s w c .ret
        { s := traceJump (updSplit s w.g w.x fun sp => { sp with calls := l }) r.toNat, flow := .jump r.toNat }) ∧
      (w.sp.calls = [] → trapsOnSplit s w c .ret { cls := 4, cause := 6 }) ∧
      trapsOnSplit s w c (.trapu k) { cls := 13, cause := 1, d0 := code, rpcNext := true } ∧
      trapsOnSplit s w c (.bkpt k) { cls := 12, cause := 4, d0 := code, rpcNext := true }) ∧
    (∀ d c, ((coreOf s d).calls.length < 32 → runsOnCore s d c (.call t)
        { s := updCore s d fun u => { u with calls := word c.nextOff :: (coreOf s d).calls }, flow := .jump t.toNat }) ∧
      (32 ≤ (coreOf s d).calls.length → trapsOnCore s d c (.call t) 4 5) ∧
      (∀ r l, (coreOf s d).calls = r :: l → runsOnCore s d c .ret
        { s := updCore s d fun u => { u with calls := l }, flow := .jump r.toNat }) ∧
      ((coreOf s d).calls = [] → trapsOnCore s d c .ret 4 6) ∧
      trapsOnCore s d c (.trapu k) 13 1 ∧ trapsOnCore s d c (.bkpt k) 12 4)

/-- R175, R180: `BRV` continues when no active lane is selected, jumps when all are, raises UNIFORM in its uniform form, and
otherwise divides the split: the selected lanes stand at the target, the others after the clause, with a new record of the
parent's lane set, and the parent is gone. -/
def Obligations.DivergentBranchesDivideSplits : Prop :=
  ∀ (s : State) (w : Who) (c : Clause) (u f : Bool) (tm : TReg) (t : Word),
    let sel := if f then ~~~ tripleRead s tm.toNat else tripleRead s tm.toNat
    let take := w.sp.mask &&& sel
    let stay := w.sp.mask &&& ~~~ sel
    (take = 0 → runsOnSplit s w c (.brv u f tm t) { s }) ∧
    (take ≠ 0 → stay = 0 →
      runsOnSplit s w c (.brv u f tm t) { s := traceJump s t.toNat, flow := .jump t.toNat }) ∧
    (take ≠ 0 → stay ≠ 0 → u = true →
      trapsOnSplit s w c (.brv u f tm t) { cls := 1, cause := 1, lanes := some take }) ∧
    (take ≠ 0 → stay ≠ 0 → u = false → runsOnSplit s w c (.brv u f tm t)
      { s, post := divide w.g w.x take (splitPc w.sp) t.toNat c.nextOff }) ∧
    (∀ (g x pc next : Nat) (v : Who), whoOf s g x = some v → x < v.grp.nextSplit →
      ∃ grp a b, Table.find (divide g x take pc t.toNat next s).groups g = some grp ∧
        Table.find grp.splits x = none ∧
        Table.find grp.splits v.grp.nextSplit = some a ∧ Table.find grp.splits (v.grp.nextSplit + 1) = some b ∧
        Table.find grp.recs v.grp.nextRec = some v.sp.lanes ∧
        a.lanes = take ∧ a.mask = take ∧ a.pc = t.toNat ∧ a.clause = none ∧ a.recs = v.grp.nextRec :: v.sp.recs ∧
        b.lanes = v.sp.lanes &&& ~~~ take ∧ b.mask = v.sp.mask &&& ~~~ take ∧ b.pc = next ∧ b.clause = none ∧
        b.recs = v.grp.nextRec :: v.sp.recs ∧
        a.clock = v.sp.clock ∧ b.clock = v.sp.clock ∧ a.fps = v.sp.fps ∧ b.fps = v.sp.fps ∧
        a.calls = v.sp.calls ∧ b.calls = v.sp.calls ∧ a.spill = v.sp.spill ∧ b.spill = v.sp.spill)

/-- R183, R177: `RECON` retires, and waits when the split has a divergence record; a merge joins the waiting splits'
lanes, masks and flags under the largest clock, and drops the record; `EXIT` retires and ends the split, and stops a
control core.
Where the spec leaves a point open the clauses take the model's choice: log entries 32, 41 and 114. -/
def Obligations.ReconvergenceAndExit : Prop :=
  ∀ (s : State) (w : Who) (c : Clause),
    (w.sp.recs = [] → runsOnSplit s w c .recon { s }) ∧
    (w.sp.recs ≠ [] → runsOnSplit s w c .recon { s, flow := .wait (.recon c), post := fun t => mergeAll t w.g }) ∧
    (∀ (grp : Group) (d : Nat) (a : Nat × Split) (hs : List (Nat × Split)),
      ∃ m, Table.find (mergeRecord grp d (a :: hs)).1.splits grp.nextSplit = some m ∧
        (mergeRecord grp d (a :: hs)).2 = grp.nextSplit ∧
        Table.find (mergeRecord grp d (a :: hs)).1.recs d = none ∧
        (∀ e ∈ a :: hs, Table.find (mergeRecord grp d (a :: hs)).1.splits e.1 = none ∨ e.1 = grp.nextSplit) ∧
        m.lanes = hs.foldl (fun l e => l ||| e.2.lanes) a.2.lanes ∧
        m.mask = hs.foldl (fun l e => l ||| e.2.mask) a.2.mask ∧
        m.fps = hs.foldl (fun l e => l ||| e.2.fps) a.2.fps ∧
        m.clock = hs.foldl (fun l e => max l e.2.clock) a.2.clock ∧
        m.calls = a.2.calls ∧ m.spill = a.2.spill ∧ m.recs = a.2.recs.drop 1) ∧
    runsOnSplit s w c .exit { s, flow := .gone, post := fun t => exitSplit t w.g w.x } ∧
    (∀ d k, runsOnCore s d k .exit { s := updCore s d fun u => { u with halted := true }, flow := .gone })

/-- R214-R217: the contiguous and the per-lane loads and stores access the bytes of every writing lane; where lanes of one
store write the same byte, the highest lane's stands. Where a lane's bytes lie outside the allocations it is BOUNDS cause
1 with the lanes that do, else where a lane or the base is misaligned cause 2 with the lanes that are; behind a command in
flight the slot waits.
Where the spec leaves a point open the clauses take the model's choice: log entries 29 and 40. -/
def Obligations.LaneLoadsAndStores : Prop :=
  ∀ (s : State) (w : Who) (c : Clause) (v va : VReg) (sb : SReg) (off : Word) (tm : Nat → Nat) (o : Nat → Nat),
    let base := uread s sb.toNat + off
    let lanes := lanesOf (writing s w)
    let own (l : Nat) : Nat := (laneRead w.grp va.toNat l).toNat
    let run (n l : Nat) : Nat := (base + BitVec.ofNat 32 (n * l)).toNat
    let fits (n : Nat) (at' : Nat → Nat) : Prop :=
      ∀ l ∈ lanes, locate s w (at' l) n = .at (tm l) (o l) ∧ at' l % n = 0
    let accs (n how : Nat) : List Acc := lanes.map fun l => ⟨tm l, o l, n, how⟩
    let looks (n : Nat) (at' : Nat → Nat) (rd : Bool) : List Look := lanes.map fun l => ⟨false, at' l, n, rd, !rd, l⟩
    let loaded (n : Nat) : State := if lanes = [] then s else updGroup s w.g fun grp =>
      vecWrite grp v.toNat (fun l => (writing s w).getLsbD l) fun l => bytesWord (spadRead s w (tm l) (o l) n)
    let stored (n : Nat) : State := spadWrites s w (lanes.map fun l =>
      (tm l, o l, (List.range n).map fun k => (laneRead w.grp v.toNat l).extractLsb' (8 * k) 8))
    let items : List Item := lanes.map fun l => ⟨2, v.toNat * 128 + l, true⟩
    let based (n : Nat) : Bool := base.toNat % n = 0
    let loads : List (Instr × Nat × (Nat → Nat) × Bool) :=
      [(.vld v sb off, 4, run 4, based 4), (.vldh v sb off, 2, run 2, based 2), (.vldb v sb off, 1, run 1, true),
        (.vldc .w v va, 4, own, true), (.vldc .h v va, 2, own, true), (.vldc .b v va, 1, own, true)]
    let stores : List (Instr × Nat × (Nat → Nat) × Bool) :=
      [(.vst v sb off, 4, run 4, based 4), (.vsth v sb off, 2, run 2, based 2), (.vstb v sb off, 1, run 1, true),
        (.vstc .w v va, 4, own, true), (.vstc .h v va, 2, own, true), (.vstc .b v va, 1, own, true)]
    let bounds (cause d0 d1 : Nat) (m : Mask) : Trap := { cls := 4, cause, d0 := word d0, d1 := word d1, lanes := some m }
    let isOut (n a : Nat) : Bool := match locate s w a n with | .out _ => true | .at .. => false
    (∀ r ∈ loads,
      fits r.2.1 r.2.2.1 → r.2.2.2 = true → heldAccess s w (accs r.2.1 0) = false →
      runsOnSplit s w c r.1 { s := loaded r.2.1, accs := accs r.2.1 0, items, looks := looks r.2.1 r.2.2.1 true }) ∧
    (∀ r ∈ stores,
      fits r.2.1 r.2.2.1 → r.2.2.2 = true → heldAccess s w (accs r.2.1 1) = false →
      runsOnSplit s w c r.1 { s := stored r.2.1, accs := accs r.2.1 1, looks := looks r.2.1 r.2.2.1 false }) ∧
    (∀ r ∈ (loads.map fun r => (r, 0)) ++ stores.map fun r => (r, 1),
      let n := r.1.2.1
      let at' := r.1.2.2.1
      (fits n at' → r.1.2.2.2 = true → heldAccess s w (accs n r.2) = true → waitsOnSplit s w c r.1.1 7) ∧
      (∀ l ∈ lanes, ∀ limit m, locate s w (at' l) n = .out limit → (∀ j ∈ lanes, j < l → isOut n (at' j) = false) →
        (∀ j < 96, m.getLsbD j = (decide (j ∈ lanes) && isOut n (at' j))) →
        trapsOnSplit s w c r.1.1 (bounds 1 (at' l) limit m)) ∧
      (∀ l ∈ lanes, ∀ m, (∀ j ∈ lanes, isOut n (at' j) = false) → at' l % n ≠ 0 →
        (∀ j ∈ lanes, j < l → at' j % n = 0) →
        (∀ j < 96, m.getLsbD j = (decide (j ∈ lanes) && decide (at' j % n ≠ 0))) →
        trapsOnSplit s w c r.1.1 (bounds 2 (at' l) w.grp.size m)) ∧
      (lanes = [] → r.1.2.2.2 = false → trapsOnSplit s w c r.1.1 (bounds 2 base.toNat w.grp.size 0))) ∧
    (∀ (l : List (Nat × Nat × List Byte)) (team : Team) (a : Nat),
      (∀ e ∈ l, e.1 = w.team.tidx) → Table.find s.teams w.grp.team = some team →
      ∃ team', Table.find (spadWrites s w l).teams w.grp.team = some team' ∧
        Sparse.get 0 team'.mem a =
          ((l.filter fun e => decide (e.2.1 ≤ a) && decide (a < e.2.1 + e.2.2.length)).getLast?.map fun e =>
            e.2.2.getD (a - e.2.1) 0).getD (Sparse.get 0 team.mem a))

/-- R219, R220, R216: an atomic applies its operation lane by lane in ascending order to words of the own allocation as the
group sees it, and in its returning form delivers the words as each lane found them. Where a lane's address is misaligned it is BOUNDS cause 2
with the lanes that are, else where one lies outside the own allocation cause 4 with the lanes that do, and nothing is
written; behind a command in flight the slot waits.
Where the spec leaves a point open the clauses take the model's choice: log entries 29 and 40. -/
def Obligations.LaneAtomicsApplyInLaneOrder : Prop :=
  ∀ (s : State) (w : Who) (c : Clause) (ret : Bool) (k : AtKind) (vd va vb : VReg),
    let lanes := lanesOf (writing s w)
    let at' (l : Nat) : Nat := (laneRead w.grp va.toNat l).toNat
    let ints : List (Word → Word → Word) :=
      [fun a b => BitVec.ofInt 32 (min a.toInt b.toInt), fun a b => BitVec.ofInt 32 (max a.toInt b.toInt)]
    let uns : List (Word → Word → Word) :=
      [fun a b => BitVec.ofNat 32 (min a.toNat b.toNat), fun a b => BitVec.ofNat 32 (max a.toNat b.toNat)]
    let kinds (hi : Nat) (a b : Word) : Word × Word :=
      if k = .i32 then ((ints.getD hi fun x _ => x) a b, 0) else if k = .u32 then ((uns.getD hi fun x _ => x) a b, 0)
      else atomicFloat (hi == 1) a b
    let table : List (Instr × Nat × Bool × (Word → Word → Word × Word)) :=
      [(.vatadd ret vd va vb, 0, ret, fun a b => (a + b, 0)), (.vatand ret vd va vb, 1, ret, fun a b => (a &&& b, 0)),
        (.vator ret vd va vb, 2, ret, fun a b => (a ||| b, 0)), (.vatxor ret vd va vb, 3, ret, fun a b => (a ^^^ b, 0)),
        (.vatmin k ret vd va vb, 4 + k.ctorIdx, ret, kinds 0), (.vatmax k ret vd va vb, 7 + k.ctorIdx, ret, kinds 1),
        (.vatxchg vd va vb, 10, true, fun _ b => (b, 0))]
    let inside (l : Nat) : Bool := decide (at' l + 4 ≤ w.grp.size) && decide (at' l < 0x100000)
    let limit (l : Nat) : Nat := match locate s w (at' l) 4 with | .out k => k | .at .. => w.grp.size
    (∀ r ∈ table, ∀ l ∈ lanes, ∀ m, at' l % 4 ≠ 0 → (∀ j ∈ lanes, j < l → at' j % 4 = 0) →
      (∀ j < 96, m.getLsbD j = (decide (j ∈ lanes) && decide (at' j % 4 ≠ 0))) →
      trapsOnSplit s w c r.1 { cls := 4, cause := 2, d0 := word (at' l), d1 := word (limit l), lanes := some m }) ∧
    (∀ r ∈ table, ∀ l ∈ lanes, ∀ m, (∀ j ∈ lanes, at' j % 4 = 0) → inside l = false → (∀ j ∈ lanes, j < l → inside j = true) →
      (∀ j < 96, m.getLsbD j = (decide (j ∈ lanes) && !inside j)) →
      trapsOnSplit s w c r.1 { cls := 4, cause := 4, d0 := word (at' l), d1 := word (limit l), lanes := some m }) ∧
    ((∀ l ∈ lanes, at' l % 4 = 0 ∧ inside l = true) →
    ∀ r ∈ table,
      let accs : List Acc := lanes.map fun l => ⟨w.team.tidx, at' l, 4, if r.2.2.1 then 1 else 2 + r.2.1⟩
      let run : Sparse Byte × List (Nat × Word) × Word := lanes.foldl (fun p l =>
        let old := bytesWord (Sparse.read 0 p.1 (at' l) 4)
        let new := r.2.2.2 old (laneRead w.grp vb.toNat l)
        (Sparse.write 0 p.1 (at' l) ((List.range 4).map fun j => new.1.extractLsb' (8 * j) 8), p.2.1 ++ [(l, old)],
          p.2.2 ||| new.2)) (ownSpad w w.team, [], 0)
      let s1 := raiseFlags s w run.2.2
      let s2 (tm : Team) : State := if lanes = [] then s1 else updTeam s1 w.grp.team fun _ => tm
      let s3 (tm : Team) : State := if r.2.2.1 = true ∧ lanes ≠ [] then updGroup (s2 tm) w.g fun grp =>
          vecWrite grp vd.toNat (fun l => (writing s w).getLsbD l) fun l => (Table.find run.2.1 l).getD 0
        else s2 tm
      (heldAccess s w accs = true → waitsOnSplit s w c r.1 7) ∧
      (heldAccess s w accs = false → ∃ tm : Team, tm = { w.team with mem := tm.mem, views := tm.views } ∧
        (w.team.views = [] → ∀ a, Sparse.get 0 tm.mem a = Sparse.get 0 run.1 a) ∧
        runsOnSplit s w c r.1
          { s := s3 tm, accs, items := if r.2.2.1 then lanes.map fun l => ⟨2, vd.toNat * 128 + l, true⟩ else []
            looks := lanes.map fun l => ⟨false, at' l, 4, true, true, l⟩ }))

/-- R225: the spill stack pushes and pops the lanes of the split's lane set; it overflows at 16 slots.
Where the spec leaves a point open the clauses take the model's choice: log entry 29. -/
def Obligations.SpillStackPushesAndPops : Prop :=
  ∀ (s : State) (w : Who) (c : Clause) (v : VReg),
    let lanes := w.sp.lanes
    let slotAt (n : Nat) : List Word := Sparse.get zeroVec w.grp.spills n
    (w.sp.spill < 16 → runsOnSplit s w c (.vspill v)
      { s := updSplit (updGroup s w.g fun grp =>
          { grp with spills := Sparse.set zeroVec grp.spills w.sp.spill ((List.range 96).map fun l =>
              if lanes.getLsbD l then laneRead w.grp v.toNat l else (slotAt w.sp.spill).getD l 0) })
          w.g w.x fun sp => { sp with spill := w.sp.spill + 1 } }) ∧
    (w.sp.spill = 16 → trapsOnSplit s w c (.vspill v) { cls := 4, cause := 7, d0 := 16, d1 := 16 }) ∧
    (∀ n, w.sp.spill = n + 1 → runsOnSplit s w c (.vfill v)
      { s := updSplit (updGroup s w.g fun grp =>
          vecWrite grp v.toNat (fun l => lanes.getLsbD l) fun l => (slotAt n).getD l 0)
          w.g w.x fun sp => { sp with spill := n }
        items := (lanesOf lanes).map fun l => ⟨2, v.toNat * 128 + l, true⟩ }) ∧
    (w.sp.spill = 0 → trapsOnSplit s w c (.vfill v) { cls := 4, cause := 8, d0 := 0, d1 := 16 })


/-- R167, R76, R79, R405: a division computes its result at issue and leaves it in flight under the flag of its clause
position; nothing is written yet. Quotients are truncated toward zero, division by zero and the one overflow have the
results that the rule states, and no division traps.
Where the spec leaves a point open the clauses take the model's choice: log entries 17 and 18. -/
def Obligations.DivisionsIssueIntoFlight : Prop :=
  ∀ (s : State) (sd sa : SReg),
    let a := uread s sd.toNat
    let b := uread s sa.toNat
    let quoS : Word := if b = 0 then 0xFFFFFFFF else BitVec.ofInt 32 (Int.tdiv a.toInt b.toInt)
    let remS : Word := if b = 0 then a else BitVec.ofInt 32 (a.toInt - b.toInt * Int.tdiv a.toInt b.toInt)
    let quoU : Word := if b = 0 then 0xFFFFFFFF else BitVec.ofNat 32 (a.toNat / b.toNat)
    let remU : Word := if b = 0 then a else BitVec.ofNat 32 (a.toNat % b.toNat)
    (∀ r ∈ ([(.sdiv sd sa, quoS), (.sdivu sd sa, quoU), (.srem sd sa, remS), (.sremu sd sa, remU)] : List (Instr × Word)),
      (∀ w c, runsOnSplit s w c r.1
        { s := { s with
            fresh := s.fresh + 1
            cmds := Table.put s.cmds s.fresh
              { group := w.g, split := w.x, team := w.grp.team, task := w.grp.task, flag := c.flag, sd := sd.toNat
                into := [w.x], key := agentKey w, clock := w.sp.clock, prog := s.prog, body := .div r.2 } } }) ∧
      ∀ d c, runsOnCore s d c r.1
        { s := updCore s d fun k => { k with divs := k.divs ++ [(c.flag, sd.toNat, r.2)] } }) ∧
    (a = 0x80000000 → b = 0xFFFFFFFF → quoS = 0x80000000 ∧ remS = 0)

/-- R231-R235: a log operation computes every writing lane's result and flags at issue and leaves them in flight; the
lanes' old values stay, and nothing is written yet.
Where the spec leaves a point open the clauses take the model's choice: log entries 16 and 17. -/
def Obligations.LogOperationsIssueIntoFlight : Prop :=
  ∀ (s : State) (w : Who) (c : Clause) (vd va vb : VReg),
    let r := modeRnd w.grp.mode
    let ls := lanesOf (writing s w)
    let a (l : Nat) : Word := laneRead w.grp va.toNat l
    let b (l : Nat) : Word := laneRead w.grp vb.toNat l
    ∀ e ∈ ([(.lcvtL vd va, fun l => lFromF32 r (a l)), (.lcvtF vd va, fun l => lToF32 r (a l)),
        (.lexp vd va, fun l => lExp r.rm (a l)), (.lmul vd va vb, fun l => lMul r.rm (a l) (b l)),
        (.ldiv vd va vb, fun l => lDiv r.rm (a l) (b l)), (.lsqrt vd va, fun l => lSqrt r.rm (a l)),
        (.lrsq vd va, fun l => lRsq r.rm (a l)), (.lrcp vd va, fun l => lRcp r.rm (a l)),
        (.lpow vd va vb, fun l => lPow r.rm (a l) (b l)), (.ladd vd va vb, fun l => lAdd r.rm (a l) (b l)),
        (.lsub vd va vb, fun l => lAdd r.rm (a l) (b l ^^^ 0x80000000)),
        (.lfix vd va, fun l => lFix (a l)), (.lflt vd va, fun l => lFlt r.rm (a l))] :
        List (Instr × (Nat → Word × Word))),
      runsOnSplit s w c e.1
        { s := { s with
            fresh := s.fresh + 1
            cmds := Table.put s.cmds s.fresh
              { group := w.g, split := w.x, team := w.grp.team, task := w.grp.task, flag := c.flag, sd := vd.toNat
                into := [w.x], key := agentKey w, clock := w.sp.clock, prog := s.prog
                body := .log (ls.map fun l => (l, e.2 l)) } }
          items := ls.map fun l => ⟨2, vd.toNat * 128 + l, true⟩ }

/-- R228-R230, R420: a group that takes part in a barrier arrives with `BARA`, waits with `BARW` for the phases it has arrived
for, and does both with `BAR`; two phases ahead it stalls; a group that takes no part is BOUNDS cause 12. `BARCFG` of
group 0 sets the word that the next b0 completion puts in force; a word or a group that R228 refuses is BOUNDS cause 11.
R319: `KBAR` arrives at its cluster barrier for the agent's next phase there, closes the quantum and waits for that phase.
Where the spec leaves a point open the clauses take the model's choice: log entries 29, 40, 41, 58 and 116. -/
def Obligations.TeamBarrierInstructions : Prop :=
  ∀ (s : State) (w : Who) (c : Clause) (b : BitVec 4) (kb : BitVec 2) (sd : SReg),
    let k := barOf w.team b.toNat
    let n := (Table.find w.sp.arr b.toNat).getD 0
    let v := uread s sd.toNat
    let groups := w.team.groups.length
    let t := w.grp.team
    let part := v.toNat % 2 ^ 16
    let badCfg : Bool := decide (w.grp.gidx ≠ 0) || decide (2 ^ 17 ≤ v.toNat) || decide (part = 0) ||
      decide (2 ^ groups ≤ part) || (decide (b = 0) && decide (part ≠ 2 ^ groups - 1))
    (k.cfg.getLsbD w.grp.gidx = false →
      ∀ i ∈ [Instr.bara b, .barw b, .bar b], trapsOnSplit s w c i { cls := 4, cause := 12, d0 := word b.toNat }) ∧
    (k.cfg.getLsbD w.grp.gidx = true → k.next = none ∨ b = 0 →
      (n ≤ k.done →
        runsOnSplit s w c (.bara b)
          { s := arrive s w b.toNat (n + 1), post := fun u => barSettle 4 u t b.toNat } ∧
        runsOnSplit s w c (.bar b)
          { s := seePhase (arrive (fixBar s w b.toNat) w b.toNat (n + 1)) w b.toNat (n + 1)
            flow := .wait (.bar b.toNat (n + 1)), post := fun u => barSettle 4 u t b.toNat }) ∧
      (k.done < n → stopsOnSplit s w c (.bara b) (.barrier 15) ∧ stopsOnSplit s w c (.bar b) (.barrier 9))) ∧
    (k.cfg.getLsbD w.grp.gidx = true → b ≠ 0 → ∀ x, k.next = some x → ∀ i ∈ [Instr.bara b, .bar b],
      trapsOnSplit s w c i { cls := 4, cause := 11, d0 := x, target := groupZero s t }) ∧
    (k.cfg.getLsbD w.grp.gidx = true →
      (n = 0 → runsOnSplit s w c (.barw b) { s := fixBar s w b.toNat }) ∧
      (0 < n → n ≤ k.done → runsOnSplit s w c (.barw b)
        { s := seePhase (fixBar s w b.toNat) w b.toNat n
          post := fun u => updSplit u w.g w.x fun sp =>
            { sp with clock := max sp.clock (((k.clocks.filter fun e => decide (e.1 ≤ n)).map (·.2)).foldl max 0) } }) ∧
      (0 < n → k.done < n → runsOnSplit s w c (.barw b)
        { s := seePhase (fixBar s w b.toNat) w b.toNat n, flow := .wait (.bar b.toNat n) })) ∧
    (badCfg = true ∨ (b ≠ 0 ∧ k.touched = true) →
      trapsOnSplit s w c (.barcfg b sd) { cls := 4, cause := 11, d0 := v }) ∧
    (badCfg = false → b = 0 ∨ k.touched = false → runsOnSplit s w c (.barcfg b sd)
      { s := updBar s t b.toNat fun k => { k with next := some v }, items := [⟨4, b.toNat, true⟩] }) ∧
    (let p := (Table.find w.sp.karr kb.toNat).getD 0 + 1
     let arrived := updSplit s w.g w.x fun sp => { sp with karr := Table.put sp.karr kb.toNat p }
     runsOnSplit s w c (.kbar kb)
      { s := updTask arrived w.grp.task fun k => { k with kquant := pairMaxSet k.kquant (4 * p + kb.toNat) (quantum w) }
        flow := .close
        post := fun u => kbarSettleAll (updSplit u w.g w.x fun sp => { sp with mode := .kbar kb.toNat p }) w.grp.task })

/-- R229, R230, R42: a barrier's open phase completes exactly when every live group that takes part has arrived for it and
no command that belongs to it is in flight; its waiters then resume, at the largest arrival clock of the phases up to it or
later.
Where the spec leaves a point open the clauses take the model's choice: log entry 41. -/
def Obligations.BarrierPhasesCompleteWhenAllArrived : Prop :=
  ∀ (s : State) (t b : Nat) (tm : Team), Table.find s.teams t = some tm →
    let k := barOf tm b
    let p := k.done + 1
    let ready : Bool := barReady s t b k
    (ready = true ↔
      (∀ e ∈ s.groups, e.2.team = t → e.2.exited = false → k.cfg.getLsbD e.2.gidx = true →
        ∀ x ∈ e.2.splits, p ≤ (Table.find x.2.arr b).getD 0) ∧
      (∀ e ∈ s.groups, e.2.team = t → e.2.exited = false → k.cfg.getLsbD e.2.gidx = true → e.2.splits ≠ []) ∧
      (∀ e ∈ k.cmds, e.1 ≠ p) ∧
      ((∃ e ∈ s.groups, e.2.team = t ∧ e.2.exited = false ∧ k.cfg.getLsbD e.2.gidx = true) ∨ ∃ e ∈ k.clocks, e.1 = p)) ∧
    (ready = false → barSettle 1 s t b = s) ∧
    (ready = true → b ≠ 0 →
      (∃ tm', Table.find (barSettle 1 s t b).teams t = some tm' ∧ (barOf tm' b).done = p) ∧
      ∀ g x w, whoOf s g x = some w → w.grp.team = t →
        ∃ w', whoOf (barSettle 1 s t b) g x = some w' ∧
          (∀ p', w.sp.mode = .bar b p' → p' ≤ p →
            w'.sp.mode = .ready ∧
            w'.sp.clock = max w.sp.clock (((k.clocks.filter fun e => decide (e.1 ≤ p)).map (·.2)).foldl max 0)) ∧
          (∀ b' p', w.sp.mode = .bar b' p' → w.sp.saved = none → b' ≠ b ∨ p < p' → w'.sp.mode = w.sp.mode ∧ w'.sp.clock = w.sp.clock))


/-- R245-R257: a copy instruction whose block breaks a check traps with the first that fails, in the order of R249: the form
of its words, global rows past the address space, the index register's quota, the destinations of a tombed gather, and
places outside the allocations, with the positions that fail. One that passes goes into flight under the flag of its
clause position, with its sources as they stand at issue, and has written nothing yet; a command that its barrier, port or
phaser refuses goes into flight with the refusal alone, and moves nothing. It waits while its index list or its ranges lie
in bytes of an earlier command, and while the commit that its reads or its port's view need is not done.
Where the spec leaves a point open the clauses take the model's choice: log entries 20, 29, 46, 48, 49 and 128. -/
def Obligations.CopyCommandsIssueIntoFlight : Prop :=
  ∀ (s : State) (w : Who) (c : Clause) (sd sa : SReg), whoOf s w.g w.x = some w → w.sp.clause = some c →
    ∀ r ∈ ([(.cpy sd sa, 0xA0, 8), (.cpy2 sd sa, 0xA1, 11), (.gath sd sa, 0xA2, 12), (.scat sd sa, 0xA3, 12)] :
        List (Instr × Nat × Nat)),
      let d : Desc := { opc := r.2.1, ws := block s sa r.2.2, sd := sd.toNat }
      -- the other teams' bytes that a command reads at issue
      let windows (p : Plan) : List Acc := p.accs.filter fun a => a.team ≠ w.team.tidx && a.how = 0
      let pends : List (Nat × Nat) := (0, sd.toNat) ::
        (if bit (d.w 0) 9 then [(0, sd.toNat + 1), (0, sd.toNat + 2), (0, sd.toNat + 3)] else [])
      let inFlight' (t : State) (rows : List Row) (refused : Option Word) : Prop :=
        ∃ cmd, Table.find t.cmds s.fresh = some cmd ∧ cmd.group = w.g ∧ cmd.split = w.x ∧ cmd.flag = c.flag ∧
          cmd.sd = sd.toNat ∧ cmd.finished = false ∧
          cmd.body = .copy r.2.1 d.ws rows w.grp.cserial (quantum w) none none refused ∧
          t.mem = s.mem ∧ t.effects.map (fun e => { e with dom := 0 }) = s.effects.map (fun e => { e with dom := 0 }) ∧
          t.groups = (nextSerial s w.g).groups ∧
          (∀ n tm, Table.find s.teams n = some tm → ∃ tm', Table.find t.teams n = some tm' ∧ tm'.mem = tm.mem)
      -- the words of the block and the checks of their form: cause, word
      let b (i : Nat) : Nat := (d.w i).toNat
      let dir := b 0 % 8
      let cm := b 0 / 8 % 4
      let two : Bool := r.2.1 = 0xA1
      let vec : Bool := 0xA2 ≤ r.2.1
      let listed : Bool := vec && (d.w 9).getLsbD 31
      let tomb := (d.w 0).getLsbD 9
      let form : List (Nat × Nat × Bool) :=
        [(1, 0, decide (2 ^ 11 ≤ b 0) || (decide (cm ≠ 1) && decide (b 0 / 2 ^ 5 % 16 ≠ 0))),
          (1, 2, decide (2 ^ 24 ≤ b 2) || (decide (dir = 1 ∨ dir = 3) && decide (b 2 ≠ 0))),
          (1, 4, decide (2 ^ 24 ≤ b 4) || (decide (dir = 0 ∨ dir = 3) && decide (b 4 ≠ 0))),
          (1, 5, if cm = 2 then decide (2 ^ 16 ≤ b 5) else if cm = 3 then decide (2 ^ 20 ≤ b 5) else decide (b 5 ≠ 0)),
          (1, 6, decide (cm ≠ 2) && decide (b 6 ≠ 0)), (1, 9, vec && !listed && decide (2 ^ 7 ≤ b 9)),
          (2, 0, (if vec then decide (dir ≠ r.2.1 - 0xA2) else decide (3 < dir)) || (tomb && decide (r.2.1 ≠ 0xA2))),
          (3, 7, decide (b 7 < 4) || (decide (r.2.1 = 0xA0) && decide (0xFFFFFFFC < b 7)) ||
            (decide (r.2.1 ≠ 0xA0) && decide (65536 < b 7))),
          (3, 8, (two && (decide (b 8 = 0) || decide (65536 < b 8))) || (vec && (decide (b 8 = 0) || decide (96 < b 8)))),
          (4, 1, decide (b 1 % 4 ≠ 0)), (4, 3, decide (b 3 % 4 ≠ 0)), (4, 7, decide (b 7 % 4 ≠ 0)),
          (4, 9, (two || listed) && decide (b 9 % 4 ≠ 0)), (4, 10, (two || vec) && decide (b 10 % 4 ≠ 0)),
          (4, 11, vec && decide (b 11 % 4 ≠ 0))]
      let good : Prop := form.all (fun e => !e.2.2) = true ∧ d.listWaits s w = false ∧
        ∀ p ∈ w.sp.pend, p.kind = 1 → vec = true → listed = true ∨ p.reg ≠ b 9
      (∀ e, form.find? (fun e => e.2.2) = some e → trapsOnSplit s w c r.1 { cls := 7, cause := e.1, aux := e.2.1 }) ∧
      (good → listed = true → ∀ lim, locate s w (b 9 % 2 ^ 31) (4 * b 8) = .out lim → trapsOnSplit s w c r.1
        { cls := 4, cause := 14, lanes := some 0, d0 := word (b 9 % 2 ^ 31), d1 := word lim }) ∧
      (good → ∀ xs accs, d.indices s w = .ok (xs, accs) →
        let raw := d.rows xs
        let past (a : Int) (n : Nat) : Prop := a < 0 ∨ 2 ^ 56 < a + n
        let farS (e : RawRow) : Prop := (dir = 0 ∨ dir = 2) ∧ past e.2.1 e.2.2.2
        let farT (e : RawRow) : Prop := (dir = 1 ∨ dir = 2) ∧ past e.2.2.1 e.2.2.2
        let outOf (a : Int) (n : Nat) : Prop := ∃ lim, locate s w a.toNat n = .out lim
        let outside (e : RawRow) : Prop :=
          ((dir = 1 ∨ dir = 3) ∧ outOf e.2.1 e.2.2.2) ∨ ((dir = 0 ∨ dir = 3) ∧ outOf e.2.2.1 e.2.2.2)
        let names (m : Mask) (p : RawRow → Prop) : Prop := ∀ j < 96, m.getLsbD j = true ↔ ∃ e ∈ raw, e.1 = j ∧ p e
        let register : Prop := vec = true ∧ listed = false ∧ w.grp.vcount ≤ b 9
        let room : Prop := tomb = true ∧ (sd.toNat < 4 ∨ 1004 < sd.toNat)
        ((∃ e ∈ raw, farS e ∨ farT e) → ∀ m, names m (fun e => farS e ∨ farT e) →
          ((∃ e ∈ raw, farS e) → trapsOnSplit s w c r.1 { cls := 7, cause := 5, aux := 1, lanes := some m }) ∧
          ((∀ e ∈ raw, ¬ farS e) → trapsOnSplit s w c r.1 { cls := 7, cause := 5, aux := 3, lanes := some m })) ∧
        ((∀ e ∈ raw, ¬ farS e ∧ ¬ farT e) →
          (register → trapsOnSplit s w c r.1 { cls := 7, cause := 6, aux := 9 }) ∧
          (¬ register → room → trapsOnSplit s w c r.1 { cls := 7, cause := 7 }) ∧
          (¬ register → ¬ room →
            ((∃ e ∈ raw, outside e) → ∃ t, trapsOnSplit s w c r.1 t ∧ t.cls = 4 ∧ t.cause = 14 ∧
              ∃ m, t.lanes = some m ∧ names m outside) ∧
            ((∀ e ∈ raw, ¬ outside e) → ∃ p, d.plan s w = .ok p ∧
              p.rows.map (fun r => (r.pos, r.len)) = raw.map fun e => (e.1, e.2.2.2))))) ∧
      (d.listWaits s w = true → waitsOnSplit s w c r.1 7) ∧
      (∀ t, d.listWaits s w = false → d.plan s w = .error t → trapsOnSplit s w c r.1 t) ∧
      (∀ p, d.listWaits s w = false → d.plan s w = .ok p →
        (2 ≤ d.cmode → readReady s w = false → waitsOnSplit s w c r.1 8) ∧
        ((2 ≤ d.cmode → readReady s w = true) →
          (∀ k, d.refusal s w = some k → ∃ t, inFlight' t [] (some (word k)) ∧
            runsOnSplit s w c r.1
              { s := t, accs := if d.list.isSome then p.accs.take 1 else [], items := p.items
                looks := if d.list.isSome then p.looks.take 1 else [], pends := some pends }) ∧
          (d.refusal s w = none →
            (∀ va, copyForeign s w d p.rows = some va →
              trapsOnSplit s w c r.1 { cls := 8, cause := 2, d0 := word va, d1 := word (va / 2 ^ 32) }) ∧
            (copyForeign s w d p.rows = none →
              let n := globalBytes d p.rows
              (d.srcGlobal = true → readReady s w = false → waitsOnSplit s w c r.1 8) ∧
              ((d.srcGlobal = true → readReady s w = true) →
                (heldAccess s w (windows p) = true → waitsOnSplit s w c r.1 7) ∧
                (heldAccess s w (windows p) = false →
                  (0 < n → w.task.rooted = none → itsTurn s w = false → stopsOnSplit s w c r.1 (.turn .turn)) ∧
                  (0 < n → w.task.rooted.isSome = true ∨ itsTurn s w = true →
                    (recWord w.task.words 17).toNat < writeTotal w n → stopsOnSplit s w c r.1 (.exhaust 3)) ∧
                  (n = 0 ∨ ((w.task.rooted.isSome = true ∨ itsTurn s w = true) ∧
                      writeTotal w n ≤ (recWord w.task.words 17).toNat) →
                    ∀ rows, readRows s w d p.rows = .ok rows → ∃ t, inFlight' t rows none ∧
                      runsOnSplit s w c r.1
                        { s := t, accs := p.accs, items := p.items, looks := p.looks, pends := some pends })))))))

/-- R262-R265: `CPSCH` installs a schedule of checked entries and answers its status, `CPSTG` releases the next stage of the
owner's schedule, starting a command for each of its entries, each judged after the bytes of those before it, and `CPCUR`
reads the schedule's position, which other groups see as it stood at the last b0 completion. A refused command and a
released stage each take one serial of the group.
Where the spec leaves a point open the clauses take the model's choice: log entries 46, 52, 53 and 129. -/
def Obligations.CopySchedulesInstallAndAdvance : Prop :=
  ∀ (s : State) (w : Who) (c : Clause) (sd sa : SReg), whoOf s w.g w.x = some w → w.sp.clause = some c →
    Table.find s.teams w.grp.team = some w.team →
    let g (i : Nat) : Word := uread s (sa.toNat + i)
    let first := bits (g 4) 5 0
    let count := bits (g 4) 13 8 + 1
    let table := (recWord w.task.words 28).toNat + bits (recWord w.task.words 29) 23 0 * 2 ^ 32
    let flight (t : State) (n : Nat) (body : CmdBody) : Prop :=
      ∃ cmd, Table.find t.cmds n = some cmd ∧ cmd.group = w.g ∧ cmd.flag = c.flag ∧ cmd.sd = sd.toNat ∧
        cmd.finished = false ∧ cmd.body = body
    let owned : List Item := if (w.team.sched.map (·.owner)) = some w.g then [⟨4, 35, true⟩] else []
    let refuses (i : Instr) (v : Word) (moved : Option Sched) : Prop :=
      ∃ t : State, flight t s.fresh (.done v) ∧ t.groups = (nextSerial s w.g).groups ∧ t.mem = s.mem ∧
        t.effects = s.effects ∧
        Table.find t.teams w.grp.team = some (match moved with | none => w.team | some k => { w.team with sched := some k }) ∧
        runsOnSplit s w c i { s := t, items := owned }
    let good : Prop := bits (g 2) 31 24 = 0 ∧ bits (g 4) 7 6 = 0 ∧ bits (g 4) 31 14 = 0 ∧ 0 < (g 3).toNat ∧
      (g 3).toNat ≤ 65536 ∧ first + count ≤ bits (recWord w.task.words 30) 6 0 ∧ (g 0).toNat % 4 = 0 ∧ (g 1).toNat % 4 = 0
    let moved (k : Sched) : Sched :=
      { k with
        released := k.released + 1, stage := if k.stage + 1 = k.stages then 0 else k.stage + 1
        round := if k.stage + 1 = k.stages then k.round + 1 else k.round
        active := decide ((if k.stage + 1 = k.stages then k.round + 1 else k.round) < k.rounds) }
    let stage (k : Sched) : List Desc :=
      ((k.sel.zip k.entries).filter fun e => bits (e.2.getD 13 0) 5 0 = k.stage).map fun e => entryDesc k sd.toNat e.1 e.2
    (good → (∀ k, w.team.sched = some k → k.active = false) → ∀ bs,
      vaRead s w.launch.ctx w.team.die false w.launch.old ((table + 64 * first) % 2 ^ 56) (64 * count) = .ok bs →
      let es := (List.range count).map fun i => (first + i, bytesWords 16 (bs.drop (64 * i)))
      (∀ e, es.find? (fun e => schedEntryBad e.2) = some e → refuses (.cpsch sd sa) (word (6 + e.1 * 2 ^ 8)) none) ∧
      ((∀ e ∈ es, schedEntryBad e.2 = false) → ∀ n, stageBreak 65 none es = some n →
        refuses (.cpsch sd sa) (word (6 + n * 2 ^ 8)) none) ∧
      ((∀ e ∈ es, schedEntryBad e.2 = false) → stageBreak 65 none es = none →
        ∃ (t : State) (k : Sched), flight t s.fresh (.done 0) ∧ t.groups = s.groups ∧ t.mem = s.mem ∧
          t.effects = s.effects ∧ Table.find t.teams w.grp.team = some { w.team with sched := some k } ∧
          k.owner = w.g ∧ k.active = true ∧ k.round = 0 ∧ k.stage = 0 ∧ k.released = 0 ∧ k.rounds = (g 3).toNat ∧
          k.sel = es.map (·.1) ∧ k.entries = es.map (·.2) ∧ (∀ e ∈ es, bits (e.2.getD 13 0) 5 0 < k.stages) ∧
          k.view = (match w.team.sched with | some k => k.view | none => [0, 0, 0, 0]) ∧
          runsOnSplit s w c (.cpsch sd sa) { s := t, items := [⟨4, 35, true⟩] })) ∧
    (good → ∀ k, w.team.sched = some k → k.active = true → refuses (.cpsch sd sa) 4 none) ∧
    ((∀ k, w.team.sched = some k → k.active = false) → refuses (.cpstg sd) 4 none) ∧
    (∀ k, w.team.sched = some k → k.active = true → k.owner ≠ w.g → refuses (.cpstg sd) 5 none) ∧
    (∀ k, w.team.sched = some k → k.active = true → k.owner = w.g →
      (∀ n, stageRead w (stage k) s [] = .bad n → refuses (.cpstg sd) (word (6 + n * 2 ^ 8)) (some (moved k))) ∧
      (∀ n, stageRead w (stage k) s [] = .stall n → waitsOnSplit s w c (.cpstg sd) n) ∧
      (∀ l, stageRead w (stage k) s [] = .go l → (∀ e ∈ l, e.1.refusal s w = none ∧ copyForeign s w e.1 e.2.rows = none) →
        w.task.rooted.isSome = true →
        let n := (l.map fun e => globalBytes e.1 e.2.rows).sum
        (8 ≤ outstandingStages s w.grp.team → waitsOnSplit s w c (.cpstg sd) 6) ∧
        (outstandingStages s w.grp.team < 8 → n = 0 ∨ writeTotal w n ≤ (recWord w.task.words 17).toNat →
          ∃ (t : State) (ids : List Nat) (tm : Team), ids.length = l.length ∧
            flight t (s.fresh + l.length) (.stage ids (word (l.length * 2 ^ 8))) ∧
            t.groups = (nextSerial s w.g).groups ∧ t.mem = s.mem ∧
            Table.find t.teams w.grp.team = some tm ∧ tm.sched = some (moved k) ∧ tm.mem = w.team.mem ∧
            runsOnSplit s w c (.cpstg sd)
              { s := t, accs := l.flatMap (fun e => e.2.accs), looks := l.flatMap (fun e => e.2.looks)
                items := owned }))) ∧
    (∀ (d : Desc) (ds : List Desc) (p : Plan) (rows : List Row) (l : List (Desc × Plan)), d.listWaits s w = false →
      d.plan s w = .ok p → (2 ≤ d.cmode → readReady s w = true) → d.refusal s w = none → copyWaits s w d p = none →
      readRows s w d p.rows = .ok rows → stageRead w [d] s l = .go (l ++ [(d, p)]) ∧
        ((∀ r ∈ rows, r.data.isSome = true ∧ r.late = []) →
          stageRead w (d :: ds) s l = stageRead w ds (landedCopy s w d p rows) (l ++ [(d, p)]))) ∧
    (∀ (d : Desc) (ds : List Desc) (t : Trap), d.listWaits s w = false → d.plan s w = .error t →
      stageRead w (d :: ds) s [] = .bad (d.entry.getD 0)) ∧
    (uread s sa.toNat ≠ 0 → trapsOnSplit s w c (.cpcur sd sa) { cls := 7, cause := 1 }) ∧
    (uread s sa.toNat = 0 →
      (w.team.sched = none → runsOnSplit s w c (.cpcur sd sa) { s := uwrites s sd.toNat [0, 0, 0, 0] }) ∧
      (∀ k, w.team.sched = some k → runsOnSplit s w c (.cpcur sd sa)
        { s := uwrites s sd.toNat (if k.owner = w.g then [word k.released, word k.round, word k.stage,
            if k.active then 1 else 0] else k.view)
          items := if k.owner = w.g then [⟨4, 35, false⟩] else [] }))

/-- R253, R256, R259, R65, R76: the completion of a copy lowers the flag of its group by one and delivers the bytes read at
issue, and no others: into the own scratchpad, a later row over an earlier one and nothing below the cursor of a replayed
row; to global memory as a write, and to another team's window as a posted write, at the command's key and time. Where a
chunk cannot be read or written, `COPY_FAULT` instead suspends the command at that chunk with the cause and queues one
record for the die.
Where the spec leaves a point open the clauses take the model's choice: log entries 49 and 50. -/
def Obligations.CopyCompletionDeliversItsBytes : Prop :=
  ∀ (s : State) (c : Cmd) (l : Launch) (grp : Group) (tm : Team) (task : Task) (opc : Nat) (ws : List Word) (rows : List Row)
    (serial q : Nat) (refused : Option Word),
    Table.find s.cmds s.arg.a = some c → c.finished = false →
    cmdLaunch s c = some l → Table.find s.groups c.group = some grp → Table.find s.teams c.team = some tm →
    Table.find s.tasks c.task = some task → c.body = .copy opc ws rows serial q none none refused →
    let ends (p : State → Prop) : Prop := ∃ t grp', exec .copyCommandComplete s = .next t ∧
      Table.find t.groups c.group = some grp' ∧ Sparse.get 0 grp'.flags c.flag = Sparse.get 0 grp.flags c.flag - 1 ∧ p t
    let moves : Prop := refused = none ∧ bit (ws.getD 0 0) 9 = false ∧ bits (ws.getD 0 0) 4 3 < 2 ∧ movesNow s c = true ∧
      firstFault s l.ctx c ws rows = none ∧ ∀ r ∈ rows, r.pos < 2 ^ 32 ∧ ∃ bs, r.data = some bs ∧ bs.length = r.len
    let dir := bits (ws.getD 0 0) 2 0
    let inside (off n a : Nat) : Bool := decide (off ≤ a) && decide (a < off + n)
    (moves → dir = 0 ∨ dir = 3 →
      (∀ (r : Row) (bs : List Byte) (off k : Nat), rows = [r] → r.data = some bs → c.cursor = (r.pos, k) → k ≤ r.len →
        placeOf r.dst = (tm.tidx, off) → off + r.len ≤ 2 ^ 20 → ends fun t => ∃ tm', Table.find t.teams c.team = some tm' ∧
          ∀ a, Sparse.get 0 tm'.mem a = if off + k ≤ a ∧ a < off + bs.length then bs.getD (a - off) 0 else Sparse.get 0 tm.mem a) ∧
      (c.cursor = (0, 0) → (∀ r ∈ rows, (placeOf r.dst).1 = tm.tidx) → ends fun t =>
        t.effects = s.effects ∧ ∃ tm', Table.find t.teams c.team = some tm' ∧
          ∀ a, Sparse.get 0 tm'.mem a =
            ((rows.filter fun r => inside (placeOf r.dst).2 r.len a).getLast?.bind fun r =>
              r.data.map fun bs => bs.getD (a - (placeOf r.dst).2) 0).getD (Sparse.get 0 tm.mem a)) ∧
      (∀ (r : Row) (n t' off : Nat), rows = [r] → c.cursor = (0, 0) → 0 < r.len → placeOf r.dst = (t', off) → t' ≠ tm.tidx →
        task.teams[t']? = some n → ends fun t => ∃ e, t.effects = s.effects ++ [e] ∧
          e.body = .window n off (r.data.getD []) ∧ e.key = c.key ∧ e.time = c.time ∧ e.cmd = s.arg.a)) ∧
    (moves → dir = 1 ∨ dir = 2 → ∀ r, rows = [r] → c.cursor = (0, 0) → 0 < r.len → ends fun t =>
      ∃ e, t.effects = s.effects ++ [e] ∧
        e.body = .write r.dst (writePieces s l.ctx (cmdDie s c) r.dst (r.data.getD [])) ∧ e.key = c.key ∧ e.time = c.time ∧
        e.cmd = s.arg.a) ∧
    (∀ code, refused = some code → ends fun t =>
      ∀ n k, Table.find s.teams n = some k → ∃ k', Table.find t.teams n = some k' ∧ k'.mem = k.mem) ∧
    (∀ cause pos o wr, refused = none → movesNow s c = true →
      firstFault s l.ctx c ws rows = some (.ok (cause, pos, o, wr)) →
      (∃ t c', exec .copyFault s = .next t ∧ Table.find t.cmds s.arg.a = some c' ∧ c'.finished = false ∧
        c'.body = .copy opc ws rows serial q (some (cause, pos, o, wr)) none refused ∧ c'.cursor = (pos, o) ∧
        (coreOf t tm.die).faultQ = (coreOf s tm.die).faultQ ++ [(s.arg.a, faultWords s c (cause, pos, o, wr))]) ∧
      exec .copyCommandComplete s = .next s)


/-- R268-R270, R274, R281, R287-R290: `MWLD` loads a weight buffer from the bytes at issue, `MTBL` the activation table,
`MCLR` clears accumulator banks, and each leaves its status in flight; `MSTAT` reads, and may clear, the engine's status.
The first check that fails is the MATRIX trap, with the offset of its word.
Where the spec leaves a point open the clauses take the model's choice: log entries 29, 58, 87 and 89. -/
def Obligations.MatrixStateCommands : Prop :=
  ∀ (s : State) (w : Who) (c : Clause) (sd sa : SReg), whoOf s w.g w.x = some w → w.sp.clause = some c →
    let g (i : Nat) : Word := uread s (sa.toNat + i)
    let ctl := g 0
    let wa := (g 1).toNat
    let sc := (g 2).toNat
    let ta := (g 3).toNat
    let fmt := ctl.toNat % 8
    let buf := ctl.getLsbD 3
    let scl := ctl.getLsbD 4
    let mx := w.team.mx
    let form (i : Instr) (l : List (Nat × Nat × Bool)) : Prop :=
      ∀ r, (l.find? fun r => r.2.2) = some r → trapsOnSplit s w c i { cls := 14, cause := r.1, aux := r.2.1 }
    let goes (i : Instr) (reads : List (Nat × Nat)) (p : Matrix → Prop) : Prop :=
      let accs := matrixAccs w (reads.map fun r => (r.1, r.2, none)) []
      0 < w.grp.size → (∀ r ∈ reads, r.1 + r.2 ≤ w.grp.size) →
      (8 ≤ matrixInFlight s w → waitsOnSplit s w c i 6) ∧
      (matrixInFlight s w < 8 → heldAccess s w accs = true → waitsOnSplit s w c i 7) ∧
      (matrixInFlight s w < 8 → heldAccess s w accs = false → ∃ (t : State) (tm : Team),
        leavesCommand s w c sd t (fun k => k.body = .matrix [] none none 0 ∧ k.reads = reads ∧ k.writes = []) ∧
        t.groups = s.groups ∧ t.mem = s.mem ∧ t.effects = s.effects ∧
        Table.find t.teams w.grp.team = some tm ∧ tm = { w.team with mx := tm.mx } ∧ p tm.mx ∧
        runsOnSplit s w c i
          { s := t, accs, items := [⟨4, 32, true⟩], looks := reads.map fun r => ⟨false, r.1, r.2, true, false, 96⟩
            pends := some [(0, sd.toNat)] })
    let notInt : Bool := decide (2 ≤ fmt)
    let wl := [(1, 0, decide (ctl.toNat / 2 ^ 5 ≠ 0)), (1, 2, !scl && decide (sc ≠ 0)),
      (2, 0, decide (5 < fmt) || (scl && !notInt) || (decide (fmt = 1) && !(recFeat w.task.words).testBit 1)),
      (4, 1, decide (wa % 64 ≠ 0)), (4, 2, decide (sc % 4 ≠ 0))]
    let cl := [(1, 0, decide (ctl.toNat / 2 ^ 2 ≠ 0)), (2, 0, decide (ctl.toNat % 4 = 3))]
    let st := [(1, 0, decide (ctl.toNat / 2 ≠ 0))]
    (form (.mwld sd sa) wl ∧ form (.mclrMatrix sd sa) cl ∧ form (.mstat sd sa) st) ∧
    (wl.all (fun r => !r.2.2) = true →
      goes (.mwld sd sa) ((wa, 8192) :: if scl then [(sc, 256)] else []) fun m =>
        ∃ t, m.weights buf = some t ∧ m = mx.setWeights buf t ∧ t.fmt = fmt ∧ t.base = wa ∧
          (∀ k < 8192, Sparse.get 0 t.bytes k = Sparse.get 0 w.team.mem (wa + k)) ∧
          t.scales = (List.range 64).map fun n =>
            if scl then bytesWord (Sparse.read 0 w.team.mem (sc + 4 * n) 4) else 0x3F800000) ∧
    (ctl.toNat < 2 → ta % 4 = 0 → notFinite (g 1) = false → notFinite (g 2) = false →
      fracLt (cvalWord none (g 1).toNat).frac' (cvalWord none (g 2).toNat).frac' = true →
      let es := (List.range 257).map fun n => bytesWord (Sparse.read 0 w.team.mem (ta + 4 * n) 4)
      (∀ e ∈ es, (fmtF32.decode false e.toNat).isInf = false) →
      goes (.mtbl sd sa) [(ta, 1028)] fun m =>
        m = { mx with tbl := some (es, [g 1, g 2, if ctl.getLsbD 0 then 1 else 0]) }) ∧
    (ctl.toNat < 3 → goes (.mclrMatrix sd sa) [] fun m =>
      m = { mx with a0 := if ctl = 1 then mx.a0 else [], a1 := if ctl = 0 then mx.a1 else [] }) ∧
    (ctl.toNat < 2 → 0 < w.grp.size →
      (0 < matrixInFlight s w → waitsOnSplit s w c (.mstat sd sa) 15) ∧
      (matrixInFlight s w = 0 → ∃ (t : State) (tm : Team),
        t.groups = (uwrite s sd.toNat mx.status).groups ∧ t.mem = s.mem ∧ t.effects = s.effects ∧
        Table.find t.teams w.grp.team = some tm ∧
        tm = { w.team with mx := { mx with status := if ctl.getLsbD 0 then 0 else mx.status } } ∧
        runsOnSplit s w c (.mstat sd sa) { s := t, accs := matrixAccs w [] [], items := [⟨4, 32, true⟩] })) ∧
    (w.grp.size = 0 → wl.all (fun r => !r.2.2) = true → trapsOnSplit s w c (.mwld sd sa) { cls := 14, cause := 8 }) ∧
    (0 < w.grp.size → wl.all (fun r => !r.2.2) = true → w.grp.size < wa + 8192 →
      trapsOnSplit s w c (.mwld sd sa) { cls := 4, cause := 15, d0 := word wa, d1 := word w.grp.size })

/-- R275-R278, R283, R286, R269, R289: `MLOOP` steps the rows that the indices name through the array, `MST` reads
accumulator rows into output rows that its completion lands, `MRD` reads a column for the writing lanes; each is in flight
until then, and a row or an element that the command does not name keeps its accumulators. A message to a port that the
issuer's view does not hold open refuses the command with status 2.
Where the spec leaves a point open the clauses take the model's choice: log entries 46, 87 and 88. -/
def Obligations.MatrixLoopStoreAndRead : Prop :=
  ∀ (s : State) (w : Who) (c : Clause) (sd sa : SReg), whoOf s w.g w.x = some w → w.sp.clause = some c →
    let g (i : Nat) : Word := uread s (sa.toNat + i)
    let n (i : Nat) : Nat := (g i).toNat
    let mx := w.team.mx
    let fmt := n 0 % 8
    let bank := (g 0).getLsbD 3
    let inside (l : List (Nat × Nat)) : Prop := 0 < w.grp.size ∧ ∀ r ∈ l, r.1 + r.2 ≤ w.grp.size
    let quiet (v : Nat) : Prop := ∀ p ∈ w.sp.pend, p.kind = 1 → p.reg ≠ v
    let used := (List.range (n 7)).filterMap fun i =>
      let x := laneRead w.grp (n 6) i
      if w.sp.mask.getLsbD i && x != 0xFFFFFFFF then some (i, x) else none
    let looked (l : List (Nat × Nat × Option Nat)) : List Look :=
      l.map fun r => ⟨false, r.1, r.2.1, true, false, r.2.2.getD 96⟩
    -- a message of mode `cm` to the port of `tgt`: what refuses or holds the command, and what it goes on with
    let posts (i : Instr) (cm : Nat) (tgt : Word) (goOn : Prop) : Prop :=
      (cm = 2 → readReady s w = false → waitsOnSplit s w c i 8) ∧
      (cm = 2 → readReady s w = true → portOpen s w (bits tgt 15 0) = none → ∃ t : State,
        leavesCommand s w c sd t (fun k => k.body = .done 2) ∧ t.groups = s.groups ∧ t.mem = s.mem ∧ t.teams = s.teams ∧
        runsOnSplit s w c i { s := t, accs := matrixAccs w [] [], items := [⟨4, 32, true⟩] }) ∧
      (cm = 0 ∨ (readReady s w = true ∧ (portOpen s w (bits tgt 15 0)).isSome = true) → goOn)
    let starts (i : Instr) (accs : List Acc) (goOn : Prop) : Prop :=
      (8 ≤ matrixInFlight s w → waitsOnSplit s w c i 6) ∧
      (matrixInFlight s w < 8 → heldAccess s w accs = true → waitsOnSplit s w c i 7) ∧
      (matrixInFlight s w < 8 → heldAccess s w accs = false → goOn)
    let b := block s sa 11
    (∀ tile, let cm := n 0 / 2 ^ 6
      n 0 < 2 ^ 8 → cm = 0 ∨ cm = 2 → n 6 < w.grp.vcount → n 6 < 128 → (cm = 0 → g 9 = 0 ∧ g 10 = 0) → n 9 < 2 ^ 16 →
      fmt ≤ 5 → (fmt < 2 → g 8 = 0) → (fmt = 1 → (recFeat w.task.words).testBit 1 = true) →
      mx.weights ((g 0).getLsbD 4) = some tile → fmtMatch fmt tile.fmt = true → 1 ≤ n 5 → n 5 ≤ 65536 → 1 ≤ n 7 →
      n 7 ≤ 96 → n 1 % 4 = 0 → n 2 % 4 = 0 → n 3 % 4 = 0 → n 4 % 64 = 0 → quiet (n 6) →
      let tiles := (List.range (n 5 - 1)).map fun k => (((tile.base : Int) + (k + 1) * (g 4).toInt) % 2 ^ 32 |>.toNat, 8192)
      let rows := (List.range (n 5)).flatMap fun k => used.map fun e =>
        (((n 1 : Int) + e.2.toNat * n 2 + k * (g 3).toInt) % 2 ^ 32 |>.toNat, 128)
      let ranges := (List.range (n 5 - 1)).map (fun k => loopTile b tile.base (k + 1)) ++
        (List.range (n 5)).flatMap (loopRows b used)
      let accs := matrixAccs w ranges []
      inside (tiles ++ rows) → ranges.map (fun r => (r.1, r.2.1)) = tiles ++ rows ∧
      posts (.mloop sd sa) cm (g 9) (starts (.mloop sd sa) accs (∃ (t : State) (tm : Team),
        leavesCommand s w c sd t (fun k =>
          k.body = .matrix [] none (if cm = 2 then some (n 9, g 10) else none) (word ((n 7 - used.length) * 2 ^ 8)) ∧
          (∀ r, r ∈ k.reads ↔ r ∈ tiles ++ rows) ∧ k.writes = []) ∧
        t.groups = s.groups ∧ t.mem = s.mem ∧ t.effects = s.effects ∧
        Table.find t.teams w.grp.team = some tm ∧ tm = { w.team with mx := tm.mx } ∧
        tm.mx.bank (!bank) = mx.bank (!bank) ∧ tm.mx.tbl = mx.tbl ∧ (n 5 = 1 → tm.mx.w0 = mx.w0 ∧ tm.mx.w1 = mx.w1) ∧
        (∀ i < 96, (∀ e ∈ used, e.1 ≠ i) → bankRow (tm.mx.bank bank) i = bankRow (mx.bank bank) i) ∧
        (∀ (i k : Nat) (x : Word) , n 5 = 1 → fmt = 0 → (i, x) ∈ used → k < 64 → tile.fmt = 0 → (w.grp.mode.getLsbD 8) = false →
          let el (v : Byte) : Int := v.toInt
          let row := Sparse.read 0 w.team.mem (((n 1 : Int) + x.toNat * n 2) % 2 ^ 32 |>.toNat) 128
          let acc := if (g 0).getLsbD 5 then 0 else Sparse.get 0 (mx.bank bank) (64 * i + k)
          Sparse.get 0 (tm.mx.bank bank) (64 * i + k) = acc + BitVec.ofInt 32
            ((List.range 128).map fun j => el (row.getD j 0) * el (Sparse.get 0 tile.bytes (64 * j + k))).sum) ∧
        runsOnSplit s w c (.mloop sd sa)
          { s := t, accs, items := ⟨4, 32, true⟩ :: laneItems (n 6) (List.range (n 7)) false, looks := looked ranges
            pends := some [(0, sd.toNat)] }))) ∧
    (let cm := n 0 / 2 ^ 8
      let flag (k : Nat) : Bool := (g 0).getLsbD k
      n 0 < 2 ^ 10 → cm = 0 ∨ cm = 2 → n 0 / 4 % 8 ≠ 7 → (flag 5 = false → g 5 = 0) → (flag 7 = false → g 6 = 0) →
      (flag 6 = true → mx.tbl ≠ none) → (cm = 0 → g 7 = 0 ∧ g 8 = 0) → n 7 < 2 ^ 16 → n 3 ≤ 95 → 1 ≤ n 4 →
      n 3 + n 4 ≤ 96 → n 1 % 4 = 0 → n 2 % 4 = 0 → n 5 % 4 = 0 → n 6 % 4 = 0 →
      let out := n 0 / 4 % 8
      let place (i : Nat) : Nat := ((n 1 : Int) + i * (g 2).toInt) % 2 ^ 32 |>.toNat
      let outs := (List.range (n 4)).map fun i => (place i, 64 * outSize out)
      let ins := (if flag 5 then [(n 5, 256)] else []) ++ if flag 7 then [(n 6, 256)] else []
      let whole (l : List (Nat × Nat)) : List (Nat × Nat × Option Nat) := l.map fun r => (r.1, r.2, none)
      let accs := matrixAccs w (whole ins) (whole outs)
      inside (outs ++ ins) →
      posts (.mst sd sa) cm (g 7) (starts (.mst sd sa) accs (∃ (t : State) (tm : Team) (rows : List (Nat × List Byte)),
        leavesCommand s w c sd t (fun k =>
          k.body = .matrix rows none (if cm = 2 then some (n 7, g 8) else none) 0 ∧ (∀ r, r ∈ k.reads ↔ r ∈ ins) ∧
          ∀ r, r ∈ k.writes ↔ r ∈ outs) ∧
        t.groups = s.groups ∧ t.mem = s.mem ∧ t.effects = s.effects ∧
        rows.map (fun r => (r.1, r.2.length)) = outs ∧
        (flag 1 = true → flag 5 = false → flag 6 = false → flag 7 = false →
          ∀ lim ∈ [(5, -128, 127), (6, 0, 255)], out = lim.1 → ∀ i < n 4, ∀ k < 64,
          let a := Sparse.get 0 (mx.bank (flag 0)) (64 * (n 3 + i) + k)
          (rows.getD i (0, [])).2.getD k 0 = BitVec.ofInt 8 (max lim.2.1 (min lim.2.2 a.toInt))) ∧
        Table.find t.teams w.grp.team = some tm ∧ tm = { w.team with mx := { mx with status := tm.mx.status } } ∧
        runsOnSplit s w c (.mst sd sa)
          { s := t, accs, items := [⟨4, 32, true⟩]
            looks := looked (whole ins) ++ outs.map fun r => ⟨false, r.1, r.2, false, true, 96⟩
            pends := some [(0, sd.toNat)] }))) ∧
    (n 0 < 2 → n 1 < 64 → n 2 < w.grp.vcount → n 2 < 128 → quiet (n 2) → 0 < w.grp.size →
      starts (.mrd sd sa) (matrixAccs w [] []) (∃ t : State,
        leavesCommand s w c sd t (fun k => k.body = .matrix [] (some (n 2, writing s w,
          (List.range 96).map fun l => Sparse.get 0 (mx.bank ((g 0).getLsbD 0)) (64 * l + n 1))) none 0) ∧
        t.groups = s.groups ∧ t.mem = s.mem ∧ t.effects = s.effects ∧
        Table.find t.teams w.grp.team = some w.team ∧
        runsOnSplit s w c (.mrd sd sa)
          { s := t, accs := matrixAccs w [] [], items := ⟨4, 32, true⟩ :: laneItems (n 2) (lanesOf (writing s w)) true
            pends := some [(0, sd.toNat), (1, n 2)] }))

/-- R269, R289, R291: a team's matrix commands complete in issue order; a completion lands the command's output rows in the
scratchpad, a later row over an earlier one, and nothing else there, sends its message, lowers the flag, and writes the
status and the column to the split that issued it.
Where the spec leaves a point open the clauses take the model's choice: log entries 17 and 87. -/
def Obligations.MatrixCompletionLandsRows : Prop :=
  ∀ (s : State) (c : Cmd) (l : Launch) (grp : Group) (tm : Team) (rows : List (Nat × List Byte))
    (col : Option (Nat × Mask × List Word)) (msg : Option (Nat × Word)) (status : Word),
    Table.find s.cmds s.arg.a = some c → c.finished = false → cmdLaunch s c = some l →
    Table.find s.groups c.group = some grp → Table.find s.teams c.team = some tm → c.body = .matrix rows col msg status →
    let isMatrix (d : Cmd) : Prop := ∃ r k m v, d.body = .matrix r k m v
    let earlier : Prop := ∃ e ∈ s.cmds, e.1 < s.arg.a ∧ e.2.team = c.team ∧ e.2.finished = false ∧ isMatrix e.2
    (earlier → exec .matrixCommandComplete s = .next s) ∧
    (¬ earlier →
      ∃ t grp' tm', exec .matrixCommandComplete s = .next t ∧ Table.find t.groups c.group = some grp' ∧
        Table.find t.teams c.team = some tm' ∧ t.mem = s.mem ∧
        Sparse.get 0 grp'.flags c.flag = Sparse.get 0 grp.flags c.flag - 1 ∧
        (∀ f, f ≠ c.flag → Sparse.get 0 grp'.flags f = Sparse.get 0 grp.flags f) ∧
        tm' = { tm with mem := tm'.mem, views := tm'.views } ∧
        (∀ a, Sparse.get 0 tm'.mem a =
          ((rows.filter fun r => decide (r.1 ≤ a) && decide (a < r.1 + r.2.length)).getLast?.map fun r =>
            r.2.getD (a - r.1) 0).getD (Sparse.get 0 tm.mem a)) ∧
        (msg = none → t.effects = s.effects) ∧
        (∀ port w0, msg = some (port, w0) → (Table.find s.tasks c.task).isSome = true → ∃ e, t.effects = s.effects ++ [e] ∧
          e.body = .message port w0 status none ∧ e.key = c.key ∧ e.dom = l.dom ∧ e.cmd = s.arg.a) ∧
        (∀ k, Table.find t.cmds s.arg.a = some k → k.finished = true) ∧
        (∀ x sp, takers s c = [(x, sp)] →
          (4 ≤ c.sd → c.sd < 1008 → Sparse.get 0 grp'.u c.sd = status) ∧
          ∀ v lanes ws, col = some (v, lanes, ws) → ∀ l < 96, laneRead grp' v l =
            if lanes.getLsbD l && sp.lanes.getLsbD l then ws.getD l 0 else laneRead grp v l))


/-- R293, R294, R313: `TASK` reads a launch record in the issuer's view, replaces its domain, timestamp and parameters as the
block selects, checks it, and gives the status of the check; a record that passes is created at the commit. A block that
breaks a must-be-zero bit or an alignment has status 1.
Where the spec leaves a point open the clauses take the model's choice: log entries 54, 55 and 56. -/
def Obligations.TaskCreatesFromRecords : Prop :=
  ∀ (s : State) (w : Who) (c : Clause) (sd sa : SReg),
    let g (i : Nat) : Word := uread s (sa.toNat + i)
    let own := (g 0).getLsbD 0
    let stamp := (g 0).getLsbD 1
    let prm := (g 0).getLsbD 2
    let va := (g 1).toNat + (g 2).toNat % 2 ^ 24 * 2 ^ 32
    let bad : Prop := 8 ≤ (g 0).toNat ∨ 2 ^ 24 ≤ (g 2).toNat ∨ (g 1).toNat % 256 ≠ 0 ∨ (stamp = false ∧ g 3 ≠ 0) ∨
      (own = false ∧ ∃ i, 4 ≤ i ∧ i < 10 ∧ g i ≠ 0) ∨ (prm = false ∧ g 10 ≠ 0) ∨ (g 10).toNat % 4 ≠ 0 ∨ g 11 ≠ 0
    let pages := piecePages (readable s w.launch.ctx w.team.die va 256)
    let seen := tagPages (signReads (mergeRead s w va 256) w [(va, 256)]) w.launch.dom pages
    (bad → runsOnSplit s w c (.task sd sa) { s := uwrite s sd.toNat 1 }) ∧
    (¬ bad →
      (globalRead s w (viewWrites s w) va 256 = .none →
        trapsOnSplit s w c (.task sd sa) { cls := 8, cause := 1, d0 := word va, d1 := word (va / 2 ^ 32) }) ∧
      ∀ bs, globalRead s w (viewWrites s w) va 256 = .ok bs →
        (foreignPage s w.launch.dom pages = true →
          trapsOnSplit s w c (.task sd sa) { cls := 8, cause := 2, d0 := word va, d1 := word (va / 2 ^ 32) }) ∧
        (foreignPage s w.launch.dom pages = false → prm = true → ∀ lim, locate s w (g 10).toNat 64 = .out lim →
          trapsOnSplit s w c (.task sd sa) { cls := 4, cause := 1, d0 := g 10, d1 := word lim }) ∧
        (foreignPage s w.launch.dom pages = false → ∀ t off, (prm = true → locate s w (g 10).toNat 64 = .at t off) →
          let accs : List Acc := if prm then [⟨t, off, 64, 0⟩] else []
          (readReady s w = false → waitsOnSplit s w c (.task sd sa) 8) ∧
          (readReady s w = true → awaitsAtoms s w va 256 = true → waitsOnSplit s w c (.task sd sa) 8) ∧
          (readReady s w = true → awaitsAtoms s w va 256 = false → inFlight s w va 256 = true →
            waitsOnSplit s w c (.task sd sa) 6) ∧
          (readReady s w = true → awaitsAtoms s w va 256 = false → inFlight s w va 256 = false →
            heldAccess s w accs = true → waitsOnSplit s w c (.task sd sa) 7) ∧
          (readReady s w = true → awaitsAtoms s w va 256 = false → inFlight s w va 256 = false →
            heldAccess s w accs = false →
            let ws := (List.range 64).map fun i =>
              if own ∧ 6 ≤ i ∧ i < 12 then g (i - 2)
              else if stamp ∧ i = 5 then g 3
              else if prm ∧ 34 ≤ i ∧ i < 50 then bytesWord ((((spadRead s w t off 64).drop (4 * (i - 34)))).take 4)
              else bytesWord ((bs.drop (4 * i)).take 4)
            let code := checkRecord seen ws (some (recQ w.launch.words))
            runsOnSplit s w c (.task sd sa)
              { s := uwrite (if code = 0 then emit seen w (some w.sp.clock) 0 (.spawn ws) else seen) sd.toNat (word code)
                accs })))

/-- R212, R315, R316, R317, R318: `ALLOC` and `FREE` set the team's scratchpad size in steps of 4 KiB and `VGROW` and
`VSHRK` the vector registers that the group's later clauses have in steps of 8, with their status in sd; beyond a quota
they exhaust, and without room they wait. `ROOT` closes the quantum; `SPLIT` exhausts a rooted task, and is the turn of an unrooted one that can split, and
without effect in its turn in one that cannot.
Where the spec leaves a point open the clauses take the model's choice: log entries 57, 58 and 62. -/
def Obligations.QuotaRootAndSplitInstructions : Prop :=
  ∀ (s : State) (w : Who) (c : Clause) (sd sa : SReg),
    let n := (uread s sa.toNat).toNat
    let size := w.grp.size
    let badSize : Prop := n % 4096 ≠ 0 ∨ 0x100000 < n
    let same (status : Nat) : Out := { s := uwrite s sd.toNat (word status), items := [⟨4, 33, false⟩] }
    let sized (u : State) (accs : List Acc) : Out :=
      { s := uwrite u sd.toNat (word n), accs := ⟨w.team.tidx, 0xFFFE * 256, 256, 1⟩ :: accs, items := [⟨4, 33, true⟩] }
    let room := ((coreTeams s w.team.die w.team.core).map fun e => teamHolds s e.2).foldl (fun a b => a + b) 0
    let exhausts (i : Instr) (k : Nat) : Prop := stopsOnSplit s w c i (.exhaust k)
    let anchor (u : State) : State := { u with conts := u.conts.map fun e =>
      (e.1, { e.2 with anch := if w.team.groups.contains e.2.group then decide (n ≠ 0) else e.2.anch }) }
    let oneSplit : Prop := w.grp.splits.length < 2
    let badCount : Prop := n % 8 ≠ 0 ∨ n < 8 ∨ 128 < n
    let others := (((quadGroups s w.team.die w.team.core (w.grp.slot / 16)).filter fun e => e.1 != w.g).map
      fun e => e.2.budget).foldl (fun a b => a + b) 0
    -- the count that governs the clauses to come, and how many registers the end of the clause keeps
    let cur := (w.grp.vnext.map (·.1)).getD w.grp.vcount
    let keep := (w.grp.vnext.map (·.2)).getD 128
    let counted : Out :=
      { s := uwrite (updGroup s w.g fun grp =>
          { grp with vnext := some (n, if n < cur then min n keep else keep) }) sd.toNat 0
        items := [⟨4, 34, true⟩] }
    (badSize → runsOnSplit s w c (.alloc sd sa) (same (size / 4096 * 4096 + 1)) ∧
      runsOnSplit s w c (.free sd sa) (same (size / 4096 * 4096 + 1))) ∧
    (¬ badSize → ∃ cut : Team,
      cut = { w.team with mem := cut.mem, views := cut.views, mx := if n = 0 then {} else w.team.mx } ∧
      (∀ a, Sparse.get 0 cut.mem a = if a < n then Sparse.get 0 w.team.mem a else 0) ∧
      (recSq w.task.words < n → exhausts (.alloc sd sa) 2) ∧
      (n ≤ recSq w.task.words → n ≤ size → runsOnSplit s w c (.alloc sd sa) (same (size / 4096 * 4096))) ∧
      (n ≤ recSq w.task.words → size < n → lastSize s w.team = 0 → 2 ^ 20 < room + recSq w.task.words →
        stopsOnSplit s w c (.alloc sd sa) .claim) ∧
      (n ≤ recSq w.task.words → size < n → lastSize s w.team ≠ 0 ∨ room + recSq w.task.words ≤ 2 ^ 20 →
        runsOnSplit s w c (.alloc sd sa)
          (sized (anchor (updTeam (updGroup s w.g fun grp => { grp with size := n }) w.grp.team fun _ => cut)) [])) ∧
      (size < n → runsOnSplit s w c (.free sd sa) (same (size / 4096 * 4096 + 2))) ∧
      (n = size → runsOnSplit s w c (.free sd sa) (same n)) ∧
      (n < size → freeHeld s w n size = true → waitsOnSplit s w c (.free sd sa) 7) ∧
      (n < size → freeHeld s w n size = false → runsOnSplit s w c (.free sd sa)
        (sized (anchor (updTeam (updGroup s w.g fun grp => { grp with size := n }) w.grp.team fun _ => cut))
          [⟨w.team.tidx, n, size - n, 1⟩]))) ∧
    (¬ oneSplit → ∀ i ∈ [Instr.vgrow sd sa, .vshrk sd sa], trapsOnSplit s w c i { cls := 1, cause := 5 }) ∧
    (oneSplit → badCount → ∀ i ∈ [Instr.vgrow sd sa, .vshrk sd sa], runsOnSplit s w c i { s := uwrite s sd.toNat 1 }) ∧
    (oneSplit → ¬ badCount →
      (recVq w.task.words < n → exhausts (.vgrow sd sa) 1) ∧
      (n ≤ recVq w.task.words → n < cur → runsOnSplit s w c (.vgrow sd sa) { s := uwrite s sd.toNat 2 }) ∧
      (n ≤ recVq w.task.words → cur ≤ n → 512 < others + n → stopsOnSplit s w c (.vgrow sd sa) .claim) ∧
      (n ≤ recVq w.task.words → cur ≤ n → others + n ≤ 512 → runsOnSplit s w c (.vgrow sd sa) counted) ∧
      (cur < n → runsOnSplit s w c (.vshrk sd sa) { s := uwrite s sd.toNat 2 }) ∧
      (n ≤ cur → (∀ p ∈ w.sp.pend, p.kind = 1 → p.reg < n ∨ 128 ≤ p.reg) →
        runsOnSplit s w c (.vshrk sd sa) counted)) ∧
    runsOnSplit s w c .root { s, flow := .close } ∧
    (w.task.rooted = none → closeFits w = true → stopsOnSplit s w c .root (.turn .root)) ∧
    (closeFits w = false → exhausts .root 6) ∧
    (w.task.rooted.isSome = true → exhausts .split 5) ∧
    (w.task.rooted = none →
      let stuck : Prop := (∀ d < 3, extent w.task d ≤ 1) ∨ w.task.path % 2 = 1 ∨ w.task.path % 2 ^ 16 = 0
      (stuck → itsTurn s w = true → runsOnSplit s w c .split { s }) ∧
      (stuck → itsTurn s w = false → stopsOnSplit s w c .split (.turn .turn)) ∧
      (¬ stuck → stopsOnSplit s w c .split (.turn .split)))

/-- R26, R301-R304: an unrooted task's event takes effect in its turn: a closing slot roots the task at its quantum, and
`SPLIT` or an exhausted quota divides its grains between two tillers, which start again where the task started.
Where the spec leaves a point open the clauses take the model's choice: log entries 61 and 62. -/
def Obligations.UnrootedEventsRootOrDivide : Prop :=
  ∀ (s : State) (w : Who) (ev : Held), whoOf s s.arg.a s.arg.b = some w → w.sp.mode = .held ev →
    (heldReady s w ev = false → exec .unrootedEventTakesEffect s = .next s) ∧
    (heldReady s w ev = true →
      (ev = .root → w.task.rooted = none → ∃ t k, exec .unrootedEventTakesEffect s = .next t ∧
        Table.find t.tasks w.grp.task = some k ∧ k = { w.task with rooted := some (quantum w), sig := [] } ∧
        t.mem = s.mem ∧ t.effects = s.effects ∧ ∃ v, whoOf t w.g w.x = some v ∧ v.sp = { w.sp with mode := .ready }) ∧
      (ev = .turn → ∃ t v, exec .unrootedEventTakesEffect s = .next t ∧ whoOf t w.g w.x = some v ∧
        v.sp = { w.sp with mode := .ready } ∧ t.tasks = s.tasks) ∧
      ((ev = .split ∨ ∃ k, ev = .exhaust k ∧ k < 5 ∧ cannotSplit w.task = none) → w.task.rooted = none →
        ∃ t a b, exec .unrootedEventTakesEffect s = .next t ∧
          Table.find t.tasks (s.fresh + 1) = some a ∧ Table.find t.tasks (s.fresh + 2) = some b ∧
          (∀ k ∈ [a, b], k.placed = false ∧ k.rooted = none ∧ k.teams = [] ∧ k.words = w.task.words ∧
            k.seq = w.task.seq ∧ k.launch = w.task.launch ∧ k.start = w.task.start) ∧
          (∃ d < 3,
            let cut := w.task.lo.getD d 0 + ((extent w.task d / 2 * (recWord w.task.words (12 + d)).toNat : Nat) : Int)
            a.lo = w.task.lo ∧ a.hi = w.task.hi.set d cut ∧ b.lo = w.task.lo.set d cut ∧ b.hi = w.task.hi ∧
              ∀ e < 3, extent w.task e ≤ extent w.task d) ∧
          (∀ e ∈ t.groups, e.2.task ≠ w.grp.task) ∧ (∀ e ∈ t.effects, e.task ≠ w.grp.task)))

/-- R296, R298, R33: a ready task whose context runs, and which its die's engine dispatches next, is placed where its teams
fit: each team gets its core, its groups one
slot each, and each group one split with all lanes active at the record's entry, s16-s31 with the parameters and every
other register 0.
Where the spec leaves a point open the clauses take the model's choice: log entry 60. -/
def Obligations.TaskPlacementStartsTeams : Prop :=
  ∀ (s : State) (task : Task) (d cl col row : Nat),
    Table.find s.tasks s.arg.a = some task →
    (∀ rounds, isReady task = true → taskRuns s task = true → placeFor s s.arg.a task = some (d, cl, col, row) →
      dispatchNext s d = some (s.arg.a, rounds) →
      ∃ t k, exec .taskPlacement s = .next t ∧ Table.find t.tasks s.arg.a = some k ∧ k.placed = true ∧ t.rounds = rounds ∧
        k.teams.length = recWidth task.words ∧ t.mem = s.mem ∧
        ∀ i < recWidth task.words, ∃ tm, Table.find t.teams (k.teams.getD i 0) = some tm ∧ tm.task = s.arg.a ∧ tm.tidx = i ∧
          tm.die = d ∧ tm.core = rectCore cl (rectangle (recWidth task.words)).1 col row i ∧ tm.mem = [] ∧
          tm.size = recSq task.words ∧ tm.groups.length = recTeam task.words ∧
          ∀ j < recTeam task.words, ∃ grp sp, Table.find t.groups (tm.groups.getD j 0) = some grp ∧ grp.gidx = j ∧
            grp.team = k.teams.getD i 0 ∧ grp.vcount = recVq task.words ∧ grp.splits = [(0, sp)] ∧
            sp.lanes = BitVec.allOnes 96 ∧ sp.mask = BitVec.allOnes 96 ∧ sp.pc = (recWord task.words 2).toNat ∧
            sp.clock = task.start ∧
            (∀ r, task.sheaf = [] → Sparse.get 0 grp.u r = if 16 ≤ r ∧ r < 32 then recWord task.words (18 + r) else 0)) ∧
    (isReady task = false ∨ taskRuns s task = false ∨ placeFor s s.arg.a task = none → exec .taskPlacement s = .next s) ∧
    (∀ n rounds, placeFor s s.arg.a task = some (d, cl, col, row) → dispatchNext s d = some (n, rounds) → n ≠ s.arg.a →
      exec .taskPlacement s = .next s)


/-- R326-R332: `SEND` queues its message for the commit of its quantum, `RECV` takes the head of a poll port or reads a
count port, and the three configuration instructions give the status that the issuer's view has for their block and queue
the change that passes. A malformed number is PORT cause 3, a closed port cause 4, a port of the wrong kind or of another
group cause 5, a launch that the port acts for with another quantum length cause 6; `SEND` joins the domains of those
launches.
Where the spec leaves a point open the clauses take the model's choice: log entries 46, 63, 66 and 86. -/
def Obligations.PortInstructions : Prop :=
  ∀ (s : State) (w : Who) (c : Clause) (sd sa : SReg),
    let g (i : Nat) : Word := uread s (sa.toNat + i)
    let pw := g 0
    let now := some w.sp.clock
    let traps (i : Instr) (cause : Nat) : Prop := trapsOnSplit s w c i { cls := 9, cause, d0 := pw }
    (∀ i ∈ [Instr.send sd sa, .recv sd sa],
      (2 ^ 16 ≤ pw.toNat → traps i 3) ∧
      (pw.toNat < 2 ^ 16 → readReady s w = false → waitsOnSplit s w c i 8) ∧
      (pw.toNat < 2 ^ 16 → readReady s w = true → portOpen s w pw.toNat = none → traps i 4)) ∧
    (∀ p, pw.toNat < 2 ^ 16 → readReady s w = true → portOpen s w pw.toNat = some p →
      ((∃ o ∈ portLaunches s w pw.toNat, recQ o.words ≠ recQ w.launch.words) → traps (.send sd sa) 6) ∧
      ((∀ o ∈ portLaunches s w pw.toNat, recQ o.words = recQ w.launch.words) →
        runsOnSplit s w c (.send sd sa)
          { s := emit ((portLaunches s w pw.toNat).foldl (fun u o => joinDomains u w o.dom) s) w now 0
              (.message pw.toNat (g 1) (g 2) (some sd.toNat))
            flow := .close }) ∧
      (p.kind = 0 ∨ 3 ≤ p.kind → traps (.recv sd sa) 5) ∧
      (p.kind = 2 → runsOnSplit s w c (.recv sd sa) { s := uwrites s sd.toNat [2, p.count, 0, 0, 0, 0, 0] }) ∧
      (p.kind = 1 → p.reader ≠ some (w.grp.task, groupIndex w.team w.grp) → traps (.recv sd sa) 5) ∧
      (p.kind = 1 → p.reader = some (w.grp.task, groupIndex w.team w.grp) →
        (p.fifo = [] → runsOnSplit s w c (.recv sd sa)
          { s := uwrites s sd.toNat [1, 0, 0, 0, 0, 0, 0], items := [⟨4, 1000 + pw.toNat, true⟩] }) ∧
        (∀ w0 w1 tag rest, p.fifo = (w0, w1, tag) :: rest →
          let ws := [w0, w1, word tag, word (tag / 2 ^ 32), word (tag / 2 ^ 64), word (tag / 2 ^ 96)]
          runsOnSplit s w c (.recv sd sa)
            { s := uwrites (emit s w now 0 (.config 3 (pw :: ws))) sd.toNat (word (rest.length * 2 ^ 8) :: ws)
              items := [⟨4, 1000 + pw.toNat, true⟩] }))) ∧
    (∀ r ∈ [(Instr.portcfg sd sa, 0, 3), (.patcfg sd sa, 1, 8), (.patset sd sa, 2, 6)],
      (readReady s w = false → waitsOnSplit s w c r.1 8) ∧
      (readReady s w = true →
        let ws := (List.range r.2.2).map g
        let st := cfgStatus (portView s w) w.launch.ctx r.2.1 ws
        runsOnSplit s w c r.1
          { s := uwrite (if st = 0 then emit s w now 0 (.config r.2.1 ws) else s) sd.toNat (word st) }))

/-- R333, R342, R343, R428: `YIELD` of a group with one split, an empty call stack and an empty spill stack leaves a continuation
at the port and parks the group; otherwise it is UNIFORM cause 6, BOUNDS cause 10 or 9, or PORT.
Where the context's areas have no room for the record, the group waits and the die's control core receives event 5. A
fired continuation resumes the group at its pc, with the message's words in s32 and s33 and the live vector registers kept.
Where the spec leaves a point open the clauses take the model's choice: log entries 29, 46, 72 and 100. -/
def Obligations.YieldParksAndContinuationsResume : Prop :=
  (∀ (s : State) (w : Who) (c : Clause) (sa : SReg),
    let g (i : Nat) : Word := uread s (sa.toNat + i)
    let live : BitVec 128 := g 5 ++ g 4 ++ g 3 ++ g 2
    let regs := (List.range 128).filter fun v => live.getLsbD v
    let bad : Prop := 2 ^ 16 ≤ (g 0).toNat ∨ (g 1).toNat % 4 ≠ 0 ∨ 16 ≤ (g 6).toNat ∨ 16 < regs.length ∨
      ∃ v ∈ regs, w.grp.vcount ≤ v
    -- the launch that owns the port is to share the issuer's domain
    let joined (p : Port) : State := joinLaunches s w (otherOwner s w.task.launch w.launch.ctx p).toList
    (2 ≤ w.grp.splits.length → trapsOnSplit s w c (.yield sa) { cls := 1, cause := 6 }) ∧
    (w.grp.splits.length < 2 →
      (w.sp.calls ≠ [] →
        trapsOnSplit s w c (.yield sa) { cls := 4, cause := 10, d0 := word w.sp.calls.length, d1 := 32 }) ∧
      (w.sp.calls = [] → w.sp.spill ≠ 0 →
        trapsOnSplit s w c (.yield sa) { cls := 4, cause := 9, d0 := word w.sp.spill, d1 := 16 }) ∧
      (w.sp.calls = [] → w.sp.spill = 0 → bad → trapsOnSplit s w c (.yield sa) { cls := 9, cause := 3, d0 := g 0 }) ∧
      (w.sp.calls = [] → w.sp.spill = 0 → ¬ bad → readReady s w = true → ∀ p, portOpen s w (g 0).toNat = some p →
        (p.kind ≠ 0 → trapsOnSplit s w c (.yield sa) { cls := 9, cause := 5, d0 := g 0 }) ∧
        (p.kind = 0 → ownerClash s w p = false → areaFits s w.launch.ctx w.team.die live = false →
          stopsOnSplit s w c (.yield sa) .full ∧
          (issues s w c (.yield sa) → noConflicts s w → w.team.die ∉ (ctxOf s w.launch.ctx).full → w.launch.ctx < 16 →
            ∃ t w', exec (.yield sa) s = .next t ∧ whoOf t w.g w.x = some w' ∧ w'.sp.mode = .stalled 15 ∧
              w'.sp.clause = some c ∧ (ctxOf t w.launch.ctx).cevt = 5 ∧
              (coreOf t w.team.die).events = (coreOf s w.team.die).events ++ [word (5 + 2 ^ 8 * w.launch.ctx)])) ∧
        (p.kind = 0 → ownerClash s w p = true → trapsOnSplit s w c (.yield sa) { cls := 9, cause := 6, d0 := g 0 }) ∧
        (p.kind = 0 → ownerClash s w p = false → areaFits s w.launch.ctx w.team.die live = true → ∃ k : Cont,
          k.group = w.g ∧ k.port = (g 0).toNat ∧ k.prio = (g 6).toNat ∧ k.pc = (g 1).toNat ∧ k.live = live ∧
          k.mask = w.sp.mask ∧ k.lanes = w.sp.lanes ∧ k.mode = w.grp.mode ∧ k.rank = none ∧ k.fired = none ∧
          (k.anch = true ↔ lastSize s w.team ≠ 0) ∧
          (∀ u v, whoOf u w.g w.x = some v → ∃ v', Table.find (park w s.fresh k u).conts s.fresh = some k ∧
            whoOf (park w s.fresh k u) w.g w.x = some v' ∧ v'.sp.mode = .parked ∧ v'.grp.parked = true) ∧
          runsOnSplit s w c (.yield sa)
            { s := emit { joined p with fresh := s.fresh + 1 } w (some w.sp.clock) 0 (.yield s.fresh), flow := .close
              post := park w s.fresh k })))) ∧
  (∀ (s : State) (k : Cont) (w0 w1 : Word) (release core quad : Nat) (grp : Group) (tm : Team) (task : Task),
    Table.find s.conts s.arg.a = some k → k.fired = some (w0, w1, release) → Table.find s.groups k.group = some grp →
    Table.find s.teams grp.team = some tm → Table.find s.tasks grp.task = some task → taskRuns s task = true →
    resumePlace s tm k.vcount = some (core, quad) →
    ∃ t grp', exec .continuationResume s = .next t ∧ Table.find t.groups k.group = some grp' ∧ grp'.parked = false ∧
      grp'.v = k.v ∧ grp'.vcount = k.vcount ∧ grp'.mode = k.mode ∧
      (∀ r, Sparse.get 0 grp'.u r = if r = 32 then w0 else if r = 33 then w1 else if 16 ≤ r ∧ r < 64 then Sparse.get 0 k.u r
        else 0) ∧
      (∀ e ∈ grp'.splits, e.2.pc = k.pc ∧ e.2.mask = k.mask ∧ e.2.lanes = k.lanes ∧ e.2.clock = max k.clock release ∧
        e.2.mode = .ready ∧ e.2.calls = [] ∧ e.2.pend = []) ∧
      t.mem = s.mem ∧ ∀ n, n ≠ k.group → Table.find t.groups n = Table.find s.groups n)

/-- R363-R371, R377: the phaser instructions. A group with two splits is UNIFORM cause 7; a malformed block is PHASER
cause 1; an id that names no live phaser of the context, one the launch does not list, or a clock slot is cause 2, one
that a launch with another quantum length uses cause 3, a party of the other kind on an ANY phaser cause 5. A
change, a signal or a wait is queued for the commit of its quantum, which it closes; `PHSTAT` reads.
Where the spec leaves a point open the clauses take the model's choice: log entries 73, 74 and 75. -/
def Obligations.PhaserInstructions : Prop :=
  ∀ (s : State) (w : Who) (c : Clause) (sd sa : SReg),
    let ph := uread s sa.toNat
    let cfg := uread s (sa.toNat + 1)
    let n := ph.toNat
    let role := cfg.toNat % 4
    let kind := cfg.toNat / 4 % 4
    let cpy := cfg.getLsbD 4
    let now := some w.sp.clock
    let owner (k : Nat) : Nat := if k = 0 then w.g else if k = 1 then w.grp.team else w.task.launch
    let cfgMalformed : Prop := cfg.toNat / 2 ^ 5 % 2 ^ 11 ≠ 0 ∨ kind = 3
    let known (p : Phaser) : Prop := phaserOf s n = some p ∧ p.ctx = w.launch.ctx ∧ n ∈ recPhasers w.task.words ∧ n % 4096 < 4032
    let member (p : Phaser) (f : Party → Prop) : Prop := ∃ q, findParty p 0 w.g = some q ∧ f q
    let traps (i : Instr) (cause aux : Nat) : Prop := trapsOnSplit s w c i { cls := 10, cause, aux, d0 := ph }
    let closesIn (u : State) (i : Instr) (b : EffBody) : Prop := runsOnSplit s w c i { s := emit u w now 0 b, flow := .close }
    let closes (i : Instr) (b : EffBody) : Prop := closesIn s i b
    let others := phaserSharers s w n
    let one : Prop := w.grp.splits.length < 2
    let signals : List (Instr × Bool × Bool) :=
      [(.phsig sd sa, false, false), (.phsigb sd sa, false, true), (.phany sd sa, true, false), (.phanyb sd sa, true, true)]
    let kinded : List Instr := [.phreg sd sa, .phdrop sd sa, .phstat sd sa]
    (¬ one → ∀ i ∈ Instr.phwait sd sa :: kinded ++ signals.map (·.1), trapsOnSplit s w c i { cls := 1, cause := 7 }) ∧
    (one → (∀ i ∈ kinded, 2 ^ 20 ≤ n ∨ cfgMalformed → traps i 1 kind) ∧
      (cpy = true → kind ≠ 0 → traps (.phreg sd sa) 1 kind ∧ traps (.phdrop sd sa) 1 kind) ∧
      (role = 0 ∨ (kind ≠ 0 ∧ role ≠ 1) → traps (.phreg sd sa) 1 kind) ∧
      (∀ i ∈ Instr.phwait sd sa :: signals.map (·.1), 2 ^ 20 ≤ n → traps i 1 0)) ∧
    (one → n < 2 ^ 20 → readReady s w = false →
      (∀ i ∈ Instr.phwait sd sa :: signals.map (·.1), waitsOnSplit s w c i 8) ∧
      (¬ cfgMalformed → waitsOnSplit s w c (.phstat sd sa) 8)) ∧
    (one → n < 2 ^ 20 → readReady s w = true → (¬ ∃ p, known p) →
      (∀ i ∈ Instr.phwait sd sa :: signals.map (·.1), traps i 2 0) ∧ (¬ cfgMalformed → traps (.phstat sd sa) 2 kind)) ∧
    (one → n < 2 ^ 20 → readReady s w = true → ∀ p, known p →
      (¬ cfgMalformed → ¬ (cpy = true ∧ kind ≠ 0) →
        (role ≠ 0 → kind = 0 ∨ role = 1 →
          (n ∈ w.launch.alone ∨ (∃ l ∈ others, recQ l.words ≠ recQ w.launch.words) → traps (.phreg sd sa) 3 kind) ∧
          (n ∉ w.launch.alone → (∀ l ∈ others, recQ l.words = recQ w.launch.words) →
            (p.any = true → kind ≠ 0 ∨ cpy = true → traps (.phreg sd sa) 5 kind) ∧
            (p.any = false ∨ (kind = 0 ∧ cpy = false) →
              closesIn (others.foldl (fun u l => joinDomains u w l.dom) s) (.phreg sd sa)
                (.phreg n kind (owner kind) (role + if cpy then 16 else 0) (cfg.toNat / 2 ^ 16) (some sd.toNat))))) ∧
        (p.any = true → kind ≠ 0 ∨ cpy = true → traps (.phdrop sd sa) 5 kind) ∧
        (p.any = false ∨ (kind = 0 ∧ cpy = false) →
          closes (.phdrop sd sa) (.phdrop n (kind + if cpy then 16 else 0) (owner kind) (some sd.toNat)))) ∧
      (∀ r ∈ signals,
        (¬ member p (fun q => q.role % 2 = 1) → traps r.1 4 0) ∧
        (member p (fun q => q.role % 2 = 1) → p.any ≠ r.2.1 → traps r.1 5 0) ∧
        (member p (fun q => q.role % 2 = 1) → p.any = r.2.1 → r.2.1 = true → 2 ^ 48 ≤ w.sp.clock → traps r.1 8 0) ∧
        (member p (fun q => q.role % 2 = 1) → p.any = r.2.1 → r.2.1 = false ∨ w.sp.clock < 2 ^ 48 →
          runsOnSplit s w c r.1
            { s := emit s w now 0
                (.phsig n 0 w.g (if r.2.1 then some (w.sp.clock, uread s (sa.toNat + 1)) else none) r.2.2 (some sd.toNat))
              flow := .close
              post := fun u => if r.2.2 then fixTimes u w fun _ => true else u })) ∧
      (¬ member p (fun q => q.role / 2 % 2 = 1) → traps (.phwait sd sa) 4 0) ∧
      (∀ q, findParty p 0 w.g = some q → q.role / 2 % 2 = 1 →
        let idle : Bool := !p.any && q.role == 3 && decide ((q.wphase + 2 ^ 32 - q.sphase) % 2 ^ 32 < 2 ^ 31)
        (idle = true → traps (.phwait sd sa) 9 0) ∧
        (idle = false → closes (.phwait sd sa) (.phwait n sd.toNat q.wphase))) ∧
      (¬ cfgMalformed → p.any = true → kind ≠ 0 → traps (.phstat sd sa) 5 kind) ∧
      (¬ cfgMalformed → p.any = false ∨ kind = 0 → runsOnSplit s w c (.phstat sd sa)
        { s := uwrites s sd.toNat
            (match findParty p kind (owner kind) with
              | none => [0, word p.phase, 0, 0,
                  word ((if p.any then 1 else 0) + p.scope * 2 + if p.parties.any (fun q => q.role % 2 = 1) then 0 else 8)]
              | some q => [word (q.role + (if q.leaving then 0 else q.next.getD q.role) * 4 + 16), word p.phase, word q.sphase,
                  word q.wphase,
                  word ((if p.any then 1 else 0) + p.scope * 2 + if p.parties.any (fun q => q.role % 2 = 1) then 0 else 8)]) }))


/-- R383-R389, R39: an atomic on global memory. A malformed block, or a vector register outside the quota, is GLOBAL cause
3; a lane beyond the address space, misaligned, without a translation or without the right is cause 7, 4, 5 or 6. What
passes is queued for the commit of its quantum: the form with return closes the quantum, the others do not, 64 of them in
one quantum for an agent, counted against its write-set quota.
Where the spec leaves a point open the clauses take the model's choice: log entries 30 and 45. -/
def Obligations.GlobalAtomicsQueueForTheCommit : Prop :=
  ∀ (s : State) (w : Who) (c : Clause) (sd sa : SReg), whoOf s w.g w.x = some w → w.sp.clause = some c →
    let g (i : Nat) : Word := uread s (sa.toNat + i)
    let f := g 0
    let vop := f.toNat % 2 ^ 7
    let uni := f.getLsbD 7
    let vaux := f.toNat / 2 ^ 8 % 2 ^ 7
    let vret := f.toNat / 2 ^ 16 % 2 ^ 7
    let voff := f.toNat / 2 ^ 24 % 2 ^ 7
    let base := (g 1).toNat + (g 2).toNat * 2 ^ 32
    let run (i : Instr) (op : Nat) (ret : Bool) : Prop :=
      let n := if op % 16 = 12 then 8 else 4
      let aux : Bool := op = 9 || op % 16 = 12
      let malformed : Prop := f.getLsbD 15 = true ∨ f.getLsbD 23 = true ∨ f.getLsbD 31 = true ∨ 2 ^ 24 ≤ (g 2).toNat ∨
        (uni = true ∧ voff ≠ 0) ∨ (aux = false ∧ vaux ≠ 0) ∨ (ret = false ∧ vret ≠ 0)
      let outs := if ret then (if n = 8 then [vret, vret + 1] else [vret]) else []
      let regs := [vop] ++ (if aux then [vaux] else []) ++ (if uni then [] else [voff]) ++ outs
      let lanes := lanesOf (writing s w)
      let va (l : Nat) : Nat := if uni then base else base + (laneRead w.grp voff l).toNat
      let low (cause : Nat) (p : Nat → Bool) (named : Bool) : Prop := ∀ l, lanes.find? p = some l →
        trapsOnSplit s w c i
          { cls := 8, cause, d0 := word (va l), d1 := word (va l / 2 ^ 32 % 2 ^ 24)
            lanes := if named then some (maskFrom fun k => lanes.contains k && p k) else none }
      let far (l : Nat) : Bool := decide (2 ^ 56 < va l + n)
      let unmapped (l : Nat) : Bool :=
        match translate s w.launch.ctx w.team.die false true (va l, n) with | .invalid _ => true | _ => false
      let barred (l : Nat) : Bool :=
        match translate s w.launch.ctx w.team.die false true (va l, n) with | .denied _ => true | _ => false
      let odd (l : Nat) : Bool := va l % n ≠ 0
      (malformed ∨ (∃ v ∈ regs, w.grp.vcount ≤ v) → trapsOnSplit s w c i { cls := 8, cause := 3 }) ∧
      (¬ malformed → (∀ v ∈ regs, v < w.grp.vcount) → (∀ p ∈ w.sp.pend, p.kind = 1 → p.reg ∉ regs) →
        low 7 far true ∧ ((∀ l ∈ lanes, far l = false) → low 4 odd true) ∧
        ((∀ l ∈ lanes, far l = false ∧ odd l = false) → low 5 unmapped false ∧
          ((∀ l ∈ lanes, unmapped l = false) → low 6 barred false)) ∧
        ((∀ l ∈ lanes, far l = false ∧ odd l = false) → ∀ at' : Nat → Nat × Nat,
          (∀ l ∈ lanes, translate s w.launch.ctx w.team.die false true (va l, n) = .ok (at' l).1 (at' l).2 n ∧
            foreignPage s w.launch.dom [(at' l).1 / 4096] = false) →
          let ops := lanes.map fun l =>
            (l, (at' l).1, (at' l).2, laneRead w.grp vop l, if aux then laneRead w.grp vaux l else 0, va l)
          let q := quantum w
          let done := if w.sp.ordQ = q then w.sp.ordN else 0
          let size := n * lanes.length
          let looks : List Look := lanes.map fun l => ⟨true, va l, n, true, true, l⟩
          let items : List Item := (([vop] ++ (if aux then [vaux] else []) ++ (if uni then [] else [voff])).flatMap fun v =>
            laneItems v lanes false) ++ outs.flatMap fun v => laneItems v lanes true
          let queues (t : State) (cmd : Nat) (back : Option (Nat × Nat)) : Prop := t.mem = s.mem ∧ t.teams = s.teams ∧
            ∃ e, t.effects = s.effects ++ [e] ∧ e.body = .atom op ops back ∧ e.cmd = cmd ∧ e.key = agentKey w ∧
              e.time = some w.sp.clock
          let turn : Prop := w.task.rooted.isSome = true ∨ itsTurn s w = true
          (ret = true → ∃ (t : State) (k : Cmd), queues t s.fresh (some (vret, sd.toNat)) ∧ t.groups = s.groups ∧
            Table.find t.cmds s.fresh = some k ∧ k.group = w.g ∧ k.flag = c.flag ∧ k.finished = false ∧ k.body = .waits ∧
            runsOnSplit s w c i
              { s := t, looks, items, flow := .close, pends := some ((0, sd.toNat) :: outs.map fun v => (1, v)) }) ∧
          (ret = false →
            (w.task.rooted.isSome = true → 64 ≤ done → (closeFits w = true → stopsOnSplit s w c i .closeFirst) ∧
              (closeFits w = false → stopsOnSplit s w c i (.exhaust 6))) ∧
            ((w.task.rooted.isSome = true → done < 64) →
              (0 < size → ¬ turn → stopsOnSplit s w c i (.turn .turn)) ∧
              (0 < size → turn → (recWord w.task.words 17).toNat < writeTotal w size → stopsOnSplit s w c i (.exhaust 3)) ∧
              (size = 0 ∨ (turn ∧ writeTotal w size ≤ (recWord w.task.words 17).toNat) →
                ∃ (t : State) (v : Who), queues t 0 none ∧ t.cmds = s.cmds ∧ whoOf t w.g w.x = some v ∧
                  v.sp = { w.sp with ordQ := q, ordN := done + 1 } ∧
                  runsOnSplit s w c i { s := t, looks, items })))))
    (∀ op, run (.gatom op sd sa) op.ctorIdx true ∧ run (.gatomOrdered op sa) op.ctorIdx false) ∧
    ∀ op, run (.gred op sa) (16 + op.ctorIdx) false

/-- R385-R387, R144, R145, R151, R380: what one lane of an atomic makes of the word, or the pair, that stands there, read and
written with the key of its page; every other byte stays, and the old word is what the form with return delivers. A float
operation gives the NaN of the smallest pattern among its operands, quieted, where there is one; the order of FMIN and FMAX
has −0 below +0; the winner of FMAXI is quieted too. The contributions of `GRED.FADD` are summed exactly, and the word reads
as the sum rounded once to the nearest. -/
def Obligations.AtomicsApplyTheirOperation : Prop :=
  ∀ (s : State) (pa key : Nat) (v x : Word), pa % 8 = 0 → s.accs = [] →
    let old := bytesWord (physRead s key pa 4)
    let high := bytesWord (physRead s key (pa + 4) 4)
    let dec (y : Word) : FVal := fmtF32.decode false y.toNat
    let isNan (y : Word) : Bool := fmtF32.isNan y.toNat
    let after (op : Nat) : State := (applyLane s op pa key v x).1
    let now (t : State) : Word := bytesWord (physRead t key pa 4)
    let ops : List (Nat × Word) :=
      [(0, old + v), (1, old &&& v), (2, old ||| v), (3, old ^^^ v), (4, BitVec.ofInt 32 (min old.toInt v.toInt)),
        (5, BitVec.ofInt 32 (max old.toInt v.toInt)), (6, BitVec.ofNat 32 (min old.toNat v.toNat)),
        (7, BitVec.ofNat 32 (max old.toNat v.toNat)), (8, v), (9, if old = x then v else old), (16, old + v),
        (17, old &&& v), (18, old ||| v), (19, old ^^^ v), (20, BitVec.ofInt 32 (min old.toInt v.toInt)),
        (21, BitVec.ofInt 32 (max old.toInt v.toInt)), (22, BitVec.ofNat 32 (min old.toNat v.toNat)),
        (23, BitVec.ofNat 32 (max old.toNat v.toNat))]
    -- the winner of two (value, index) candidates of a format, as delivered
    let wins (f : Fmt) (a b : Nat × Nat) : Nat × Nat :=
      let c := if fRankBetter f true b a then b else a
      (if f.isNan c.1 then f.quiet c.1 else c.1, c.2)
    let halves (y : Word) : Nat × Nat := (y.toNat / 2 ^ 16, y.toNat % 2 ^ 16)
    (∀ r ∈ ops, now (after r.1) = r.2) ∧
    (∀ op < 29, op % 16 ≠ 12 → bytesWord (applyLane s op pa key v x).2 = old ∧
      (∀ a, a < pa ∨ pa + 4 ≤ a → physRead (after op) key a 1 = physRead s key a 1) ∧ (after op).groups = s.groups) ∧
    (isNan old = true ∨ isNan v = true → ∀ op ∈ [10, 25, 26], ∃ n ∈ [old, v], isNan n = true ∧
      (∀ m ∈ [old, v], isNan m = true → n.toNat ≤ m.toNat) ∧ now (after op) = word (fmtF32.quiet n.toNat)) ∧
    (isNan old = false → isNan v = false →
      now (after 10) = word (exactSum fmtF32 0 false false [] [⟨false, [(fmtF32, old.toNat)]⟩, ⟨false, [(fmtF32, v.toNat)]⟩]).1 ∧
      (now (after 25) ∈ [old, v] ∧ ∀ y ∈ [old, v], valLess true (dec y) (dec (now (after 25))) = false) ∧
      (now (after 26) ∈ [old, v] ∧ ∀ y ∈ [old, v], valLess true (dec (now (after 26))) (dec y) = false)) ∧
    (∀ op ∈ [11, 27], let c := wins fmtF16 (halves old) (halves v)
      now (after op) = word (c.1 * 2 ^ 16 + c.2)) ∧
    (∀ op ∈ [12, 28], let c := wins fmtF32 (high.toNat, old.toNat) (v.toNat, x.toNat)
      now (after op) = word c.2 ∧ bytesWord (physRead (after op) key (pa + 4) 4) = word c.1 ∧
        (applyLane s op pa key v x).2 = physRead s key pa 8) ∧
    (∀ vs : List Word, vs ≠ [] → (∀ y ∈ old :: vs, isNan y = false ∧ (dec y).isInf = false) →
      let units (y : Word) : Int := match dec y with
        | .fin neg m k => if neg then -(m * 2 ^ (k + 149).toNat) else m * 2 ^ (k + 149).toNat
        | _ => 0
      let t := vs.foldl (fun u y => (applyLane u 24 pa key y 0).1) s
      now t = word (fmtF32.ofDyadic 0 false ((old :: vs).map units).sum (-149) ((old :: vs).all (· == 0x80000000))).1)

/-- R394, R402, R403: `MCST` captures its line, and `GSYNC` the members, at issue, and queue for the commit of their quantum,
which they close; the first bad word of the block is FABRIC cause 1 with its offset, a group or tree that the view does not
have is cause 2, and a local range outside the allocations is BOUNDS cause 16.
Where the spec leaves a point open the clauses take the model's choice: log entries 29, 79 and 82. -/
def Obligations.MulticastAndGroupSync : Prop :=
  ∀ (s : State) (w : Who) (c : Clause) (sd sa : SReg), whoOf s w.g w.x = some w → w.sp.clause = some c →
    let g (i : Nat) : Word := uread s (sa.toNat + i)
    let n (i : Nat) : Nat := (g i).toNat
    let block' (k : Nat) : List Word := (List.range k).map g
    let form (i : Instr) (l : List (Nat × Bool)) : Prop := ∀ r, (l.find? fun r => r.2) = some r →
      trapsOnSplit s w c i { cls := 11, cause := 1, aux := r.1 }
    let mcst := [(0, decide (4 ≤ n 0) || decide (n 0 % 2 = 1)), (1, decide (2 ^ 12 ≤ n 1)), (2, decide (n 2 % 4 ≠ 0)),
      (3, decide (n 3 % 256 ≠ 0)), (4, decide (n 4 % 4 ≠ 0)),
      (5, (decide (n 0 % 4 ≠ 2) && decide (n 5 ≠ 0)) || decide (2 ^ 16 ≤ n 5)), (6, decide (n 0 % 4 ≠ 2) && decide (n 6 ≠ 0))]
    let gsync := [(0, decide (8 ≤ n 0) || decide (n 0 / 2 % 2 = 1)), (2, decide (n 2 % 4 ≠ 0)),
      (3, (decide (n 0 / 2 % 4 ≠ 2) && decide (n 3 ≠ 0)) || decide (2 ^ 16 ≤ n 3)),
      (4, decide (n 0 / 2 % 4 ≠ 2) && decide (n 4 ≠ 0))]
    let dom := ownDomain s w
    let members := if (g 0).getLsbD 0 then (treeOf dom (n 1)).map (·.2)
      else if n 1 < 4096 then some (groupMembers dom (n 1)) else none
    let queues (i : Instr) (accs : List Acc) (looks : List Look) (body : EffBody) : Prop :=
      ∃ t : State, t.mem = s.mem ∧ t.groups = s.groups ∧ t.teams = s.teams ∧
        (∃ e, t.effects.map (fun e => { e with dom := 0 }) = s.effects.map (fun e => { e with dom := 0 }) ++ [e] ∧
          e.body = body ∧ e.cmd = s.fresh ∧ e.key = agentKey w ∧ e.time = some w.sp.clock) ∧
        (∃ k, Table.find t.cmds s.fresh = some k ∧ k.group = w.g ∧ k.flag = c.flag ∧ k.sd = sd.toNat ∧ k.finished = false ∧
          k.body = .waits) ∧ runsOnSplit s w c i { s := t, accs, looks, flow := .close }
    form (.mcst sd sa) mcst ∧ form (.gsync sd sa) gsync ∧
    (mcst.all (fun r => !r.2) = true →
      (∀ lim, locate s w (n 2) 256 = .out lim → trapsOnSplit s w c (.mcst sd sa) { cls := 4, cause := 16, d0 := g 2, d1 := word lim }) ∧
      ∀ t o t' o', locate s w (n 2) 256 = .at t o → locate s w (n 4) 320 = .at t' o' →
        let accs : List Acc := [⟨t, o, 256, 0⟩, ⟨t', o', 320, 1⟩]
        (heldAccess s w accs = true → waitsOnSplit s w c (.mcst sd sa) 7) ∧
        (heldAccess s w accs = false → queues (.mcst sd sa) accs
          [⟨false, n 2, 256, true, false, 96⟩, ⟨false, n 4, 320, false, true, 96⟩]
          (.mcst (block' 7 ++ [word t', word o']) (spadRead s w t o 256) 0 sd.toNat))) ∧
    (gsync.all (fun r => !r.2) = true →
      (members = none ∨ (∃ ms, members = some ms ∧ (g 0).getLsbD 0 = true ∧ ownPeer ∉ ms) →
        trapsOnSplit s w c (.gsync sd sa) { cls := 11, cause := 2, aux := 1 }) ∧
      ∀ ms, members = some ms → (g 0).getLsbD 0 = false ∨ ownPeer ∈ ms →
        (∀ lim, locate s w (n 2) 64 = .out lim →
          trapsOnSplit s w c (.gsync sd sa) { cls := 4, cause := 16, d0 := g 2, d1 := word lim }) ∧
        ∀ t o, locate s w (n 2) 64 = .at t o →
          (heldAccess s w [⟨t, o, 64, 1⟩] = true → waitsOnSplit s w c (.gsync sd sa) 7) ∧
          (heldAccess s w [⟨t, o, 64, 1⟩] = false → queues (.gsync sd sa) [⟨t, o, 64, 1⟩]
            [⟨false, n 2, 64, false, true, 96⟩] (.gsync (block' 5 ++ [word t, word o] ++ bytesWords 16 (peerBitmap ms)) 0 sd.toNat)))

/-- R398, R399, R403: `COLL` of a group with one split joins the team's collective with the bytes at SRC, queues its status
for the commit of its quantum, and closes it. Two splits are UNIFORM cause 8, a bad word is FABRIC cause 1, a tree that
does not hold this package cause 2, another block in the same interval cause 3, a barrier that does not admit it cause 4.
Where the spec leaves a point open the clauses take the model's choice: log entries 79 and 81. -/
def Obligations.CollectivesJoinTheTree : Prop :=
  ∀ (s : State) (w : Who) (c : Clause) (sd sa : SReg), whoOf s w.g w.x = some w → w.sp.clause = some c →
    let g (i : Nat) : Word := uread s (sa.toNat + i)
    let n (i : Nat) : Nat := (g i).toNat
    let b := (List.range 6).map g
    let size := n 4 * if n 0 / 16 % 8 < 2 then 4 else 2
    let rec' := (g 0).getLsbD 12
    let i : Instr := .coll sd sa
    let form := [(0, decide (3 < n 0 % 16) || decide (3 < n 0 / 16 % 8) || (g 0).getLsbD 7 || decide (2 ^ 13 ≤ n 0)),
      (1, decide (2 ^ 10 ≤ n 1)), (2, decide (n 2 % 4 ≠ 0)), (3, decide (n 3 % 4 ≠ 0)),
      (4, decide (n 4 = 0) || decide (16384 < n 4) || decide (size % 4 ≠ 0) || decide (65536 < size)),
      (5, (!rec' && decide (n 5 ≠ 0)) || decide (n 5 % 4 ≠ 0))]
    let inTree : Prop := ∃ t, treeOf (ownDomain s w) (n 1) = some t ∧ ownPeer ∈ t.2
    let same : Prop := ∀ f, w.team.collFirst = some f → f.1 = w.team.interval → f.2 = b
    let bar := n 0 / 2 ^ 8 % 16
    let cfg := (barOf w.team bar).cfg
    let admits : Prop := cfg.getLsbD 16 = true ∧ cfg.getLsbD w.grp.gidx = true
    (2 ≤ w.grp.splits.length → trapsOnSplit s w c i { cls := 1, cause := 8 }) ∧
    (w.grp.splits.length < 2 →
      (∀ r, (form.find? fun r => r.2) = some r → trapsOnSplit s w c i { cls := 11, cause := 1, aux := r.1 }) ∧
      (form.all (fun r => !r.2) = true →
        (¬ inTree → trapsOnSplit s w c i { cls := 11, cause := 2, aux := 1 }) ∧
        (inTree → ¬ same → trapsOnSplit s w c i { cls := 11, cause := 3 }) ∧
        (inTree → same → ¬ admits → trapsOnSplit s w c i { cls := 11, cause := 4 }) ∧
        (inTree → same → admits →
          let own (a k : Nat) : Prop := ∃ o, locate s w a k = .at w.team.tidx o
          ∀ o, locate s w (n 2) size = .at w.team.tidx o → own (n 3) size → (rec' = true → own (n 5) 132) →
          let reads : List Acc := [⟨w.team.tidx, o, size, 0⟩]
          (heldAccess s w reads = true → waitsOnSplit s w c i 7) ∧
          (heldAccess s w reads = false → ∃ (t : State) (accs : List Acc), (accs = [] ∨ accs = reads) ∧ t.mem = s.mem ∧
            t.groups = s.groups ∧ (∃ e, t.effects = s.effects ++ [e] ∧ e.body = .status 0 sd.toNat 0 ∧
              e.cmd + 1 = t.fresh ∧ e.time = some w.sp.clock) ∧
            (∃ k, Table.find t.cmds (t.fresh - 1) = some k ∧ k.group = w.g ∧ k.flag = c.flag ∧
              k.sd = sd.toNat ∧ k.finished = false ∧ k.body = .waits) ∧
            (∃ tm, Table.find t.teams w.grp.team = some tm ∧ tm.mem = w.team.mem ∧ ∃ k ∈ tm.colls, ∃ j ∈ k.issues,
              j.group = w.g ∧ j.clock = w.sp.clock ∧ j.data = spadRead s w w.team.tidx o size) ∧
            runsOnSplit s w c i
              { s := t, accs, flow := .close
                looks := ⟨false, n 2, size, true, false, 96⟩ :: ⟨false, n 3, size, false, true, 96⟩ ::
                  if rec' then [⟨false, n 5, 132, false, true, 96⟩] else [] }))))


/-- R111, R407-R410: `RDSR` and `WRSR` of system registers on a control core: the plain registers hold what was written in
the bits that they have, those that no row names read 0 and keep nothing, and a read leaves the machine as it is. A split
that issues an instruction of the control core is ILLEGAL cause 15.
Where the spec leaves a point open the clauses take the model's choice: log entries 9 and 96. -/
def Obligations.SystemRegistersReadAndWrite : Prop :=
  (∀ (s : State) (d : Nat) (c : Clause) (sd sa : SReg) (n : BitVec 10), s.actor = .core d →
    let v := uread s sa.toNat
    let k := coreOf s d
    let plain : List (Nat × Word) := [(2, 0x3F000), (3, 0xFFFFFFFF), (5, 0xFFFF), (8, 0xFFFFFFFF), (322, 3), (324, 0xF0FFF),
      (326, 0x30FFF), (330, 0xFFFFF), (512, 0x3FF80), (540, 0xFFFFFFFF), (560, 0x7F7F), (584, 0xFFFFFFFF), (604, 0xFFFFFFC0),
      (605, 0xFF), (621, 0x1F), (626, 0xFFFFFFFF), (627, 0xFFFFFFFF), (628, 0xFFFFFFFF), (629, 0xFFFFFFFF), (634, 0xFFFFF)]
    (∀ r ∈ plain, n.toNat = r.1 →
      runsOnCore s d c (.wrsr n sa) { s := updCore s d fun k => { k with sys := Sparse.set 0 k.sys r.1 (v &&& r.2) } } ∧
      runsOnCore s d c (.rdsr sd n) { s := uwrite s sd.toNat (Sparse.get 0 k.sys r.1) }) ∧
    (∀ r ∈ [(0, word (d + Config.peer.toNat * 4)),
        (1, word ((if k.ie then 1 else 0) + (if k.inh then 2 else 0) + if k.dbl then 4 else 0)), (4, k.ecause),
        (6, word (min k.trapQ.length 0xFFFF)), (32, word (min k.faultQ.length 0xFFFF)), (323, 0x3818)], n.toNat = r.1 →
      runsOnCore s d c (.rdsr sd n) { s := uwrite s sd.toNat r.2 }) ∧
    (n.toNat = 1 → runsOnCore s d c (.wrsr n sa)
      { s := updCore s d fun k => { k with ie := v.getLsbD 0, dbl := k.dbl && !v.getLsbD 2 } }) ∧
    (n.toNat = 321 → ∀ e es, k.events = e :: es →
      runsOnCore s d c (.rdsr sd n) { s := uwrite (updCore s d fun k => { k with events := es }) sd.toNat e }) ∧
    (640 ≤ n.toNat → runsOnCore s d c (.rdsr sd n) { s := uwrite s sd.toNat 0 } ∧ runsOnCore s d c (.wrsr n sa) { s }) ∧
    (∀ t v', n.toNat ≠ 321 → n.toNat ≠ 541 → sysRead s d n.toNat = (t, v') → t = s)) ∧
  ∀ (s : State) (w : Who) (c : Clause) (sd sa : SReg) (n : BitVec 10),
    ∀ i ∈ [Instr.rdsr sd n, .wrsr n sa, .eret, .wfi, .haltc, .tlbinv sa, .phalloc sd sa, .phfree sd sa, .treereq sd sa,
        .ctxsav sd sa, .ctxld sd sa],
      s.actor = .split w.g w.x → whoOf s w.g w.x = some w → w.sp.clause = some c → pcHit s w c = none →
        exec i s = settle s w (.trap { cls := 0, cause := 15, stat := true, slot := c.idx, d0 := c.hw, off := some c.off })

/-- R410, R416, R426: `ERET` of a handler continues at EPC with inh clear and applies the answers of the queued records;
outside a handler it goes to the next clause; `WFI` waits until an entry or an event is pending; `HALTC` stops the core;
`TLBINV` with a bad block does nothing; else it waits for the atomics that were translated through an entry that it drops,
and what else a commit has still to make through one is translated again. A trap of the core's own code enters the vector of its class, and inside a
handler it stops the core with dbl set.
Where the spec leaves a point open the clauses take the model's choice: log entries 90, 91, 92, 112 and 119. -/
def Obligations.ControlCoreEntriesAndReturns : Prop :=
  ∀ (s : State) (d : Nat) (c : Clause) (sa : SReg), s.actor = .core d → (coreOf s d).clause = some c →
    let k := coreOf s d
    let pending : Prop := k.trapQ ≠ [] ∨ k.faultQ ≠ [] ∨ (k.debugQ ≠ [] ∧ (Sparse.get 0 k.sys 531).getLsbD 0 = false)
    (k.inh = true →
      runsOnCore s d c .eret
        { s := applyAnswers (updCore s d fun k => { k with inh := false }) d, flow := .jump (Sparse.get 0 k.sys 3).toNat } ∧
      ((∀ r ∈ k.trapQ ++ k.debugQ, r.act = none) →
        ∃ t, (coreIssues s d c .eret → exec .eret s = .next t) ∧ (coreOf t d).pc = (Sparse.get 0 k.sys 3).toNat ∧
          (coreOf t d).inh = false ∧ (coreOf t d).clause = none ∧ (coreOf t d).sys = k.sys ∧ (coreOf t d).u = k.u ∧
          (coreOf t d).trapQ = k.trapQ ∧ t.mem = s.mem ∧ t.groups = s.groups)) ∧
    (k.inh = false → runsOnCore s d c .eret { s, flow := .jump c.nextOff }) ∧
    ((k.ie = true ∧ pending) ∨ k.events ≠ [] → runsOnCore s d c .wfi { s }) ∧
    (¬ ((k.ie = true ∧ pending) ∨ k.events ≠ []) → coreIssues s d c .wfi → exec .wfi s = .next s) ∧
    runsOnCore s d c .haltc { s := updCore s d fun k => { k with halted := true }, flow := .gone } ∧
    (let b := block s sa 3
     let g (i : Nat) : Word := uread s (sa.toNat + i)
     let bad : Prop := (g 0).toNat % 4 = 3 ∨ g 0 &&& 0xFFFFFF0C ≠ 0 ∨ g 1 &&& 0xFFFF ≠ 0 ∨ g 2 &&& 0xFF000000 ≠ 0
     let t := rewalkWhere s (Effect.dropped s b)
     (bad → runsOnCore s d c (.tlbinv sa) { s }) ∧
     (¬ bad →
       (tlbAwaits s b = true → coreIssues s d c (.tlbinv sa) → exec (.tlbinv sa) s = .next s) ∧
       (tlbAwaits s b = false → runsOnCore s d c (.tlbinv sa) { s := t })) ∧
     t.mem = s.mem ∧ t.groups = s.groups ∧ t.effects.length = s.effects.length ∧
       ∀ e ∈ s.effects, e.dropped s b = false → e ∈ t.effects) ∧
    (∀ cls cause, k.inh = false →
      let e := coreOf (coreTrap s d cls cause) d
      e.pc = (Sparse.get 0 k.sys 2).toNat + 128 * cls ∧ e.inh = true ∧ e.clause = none ∧
        Sparse.get 0 e.sys 3 = word c.slotOff ∧ e.ecause = word (4 + cls * 2 ^ 8 + cause * 2 ^ 16) ∧ e.u = k.u ∧ e.ie = k.ie) ∧
    (∀ cls cause, k.inh = true → coreTrap s d cls cause = updCore s d fun k => { k with dbl := true, halted := true })

/-- R411-R413: `PHALLOC` gives the lowest free slot of the scope under the slot's next generation, `PHFREE` frees a live
phaser, and `TREEREQ` creates and deletes trees where this package manages the fabric, each with its status.
Where the spec leaves a point open the clauses take the model's choice: log entries 73 and 80. -/
def Obligations.PhaserSlotsAndTrees : Prop :=
  ∀ (s : State) (d : Nat) (c : Clause) (sd sa : SReg), s.actor = .core d →
    let g (i : Nat) : Word := uread s (sa.toNat + i)
    let ctl := g 0
    let scope := ctl.toNat / 2 % 4
    let free (n : Nat) : Prop := ∀ e ∈ s.phasers, e.1 % 4096 = n → e.2.freed = false → e.2.scope = 0 ∧ scope = 0 ∧ e.2.die ≠ d
    let badCtl : Prop := ctl &&& 0xFE00FFF8 ≠ 0 ∨ 16 ≤ (g 1).toNat
    let i : Instr := .treereq sd sa
    let tid := ctl.toNat % 1024
    let root := (g 1).toNat % 512
    let at' := (g 2).toNat
    let bytes := Sparse.read 0 (coreOf s d).mem at' 64
    let members := (List.range 512).filter fun p => (bytes.getD (p / 8) 0).getLsbD (p % 8)
    let gives (u : State) (v : Word) : Prop := runsOnCore s d c i { s := uwrite u sd.toNat v }
    (badCtl → runsOnCore s d c (.phalloc sd sa) { s := uwrite s sd.toNat 0x80000001 }) ∧
    (¬ badCtl → (∀ n < 4032, ¬ free n) → runsOnCore s d c (.phalloc sd sa) { s := uwrite s sd.toNat 0x80000002 }) ∧
    (¬ badCtl → ∀ n < 4032, free n → (∀ m < n, ¬ free m) →
      let gen := (Sparse.get 0 s.gens n + 1) % 256
      ∃ t p, runsOnCore s d c (.phalloc sd sa) { s := uwrite t sd.toNat (word (n + 4096 * gen)) } ∧
        t = { s with gens := Sparse.set 0 s.gens n gen, phasers := Table.put s.phasers (n + 4096 * gen) p } ∧
        p.any = ctl.getLsbD 0 ∧ p.scope = scope ∧ p.ctx = (g 1).toNat ∧ p.die = d ∧ p.parties = [] ∧ p.phase = 0 ∧
        p.freed = false ∧ p.gather = ctl.toNat / 2 ^ 16 % 2 ^ 9 + 1) ∧
    (phaserOf s ctl.toNat = none → runsOnCore s d c (.phfree sd sa) { s := uwrite s sd.toNat 1 }) ∧
    ((phaserOf s ctl.toNat).isSome = true → ∃ t, runsOnCore s d c (.phfree sd sa) { s := uwrite t sd.toNat 0 } ∧
      phaserOf t ctl.toNat = none ∧ ∀ n, n ≠ ctl.toNat → Table.find t.phasers n = Table.find s.phasers n) ∧
    (Config.fabricManager = false → gives s 6) ∧
    (Config.fabricManager = true → ctl.getLsbD 16 = true →
      (Table.find s.trees tid = none → gives s 5) ∧
      ((Table.find s.trees tid).isSome = true → gives { s with trees := Table.del s.trees tid } 0)) ∧
    (Config.fabricManager = true → ctl.getLsbD 16 = false →
      (at' % 4 ≠ 0 → trapsOnCore s d c i 4 2) ∧ (at' % 4 = 0 → 0x40000 < at' + 64 → trapsOnCore s d c i 4 1) ∧
      (at' % 4 = 0 → at' + 64 ≤ 0x40000 → s.trees.length < 1024 →
        let outside : Bool := members.any fun p => !Config.inPod p
        (members = [] ∨ outside = true → gives s 2) ∧
        (members ≠ [] → outside = false → root ∉ members → gives s 3) ∧
        (outside = false → root ∈ members → (Table.find s.trees tid).isSome = true → gives s 4) ∧
        (outside = false → root ∈ members → Table.find s.trees tid = none →
          gives { s with trees := Table.put s.trees tid (root, members) } 0)))

/-- R432-R434, R470: `CTXSAV` refuses a bad block, a context that is not drained and too little space with status 1, 2 and
3; what it saves leaves the machine, and the context is free. `CTXLD` refuses a bad block, a context that is not free, a
record whose digest does not match, one whose features this package lacks, one whose teams do not fit and a context
without a key with status 1 to 6, and queues event 6 with a status of 3 to 6; what it loads runs.
Where the spec leaves a point open the clauses take the model's choice: log entries 98 and 99. -/
def Obligations.ContextsAreSavedAndLoaded : Prop :=
  ∀ (s : State) (d : Nat) (c : Clause) (sd sa : SReg), s.actor = .core d →
    let g (i : Nat) : Word := uread s (sa.toNat + i)
    let n := (g 0).toNat % 16
    let pa := (g 1).toNat + (g 2).toNat * 2 ^ 32
    let x := ctxOf s n
    let bad : Prop := 16 ≤ (g 0).toNat ∨ 256 ≤ (g 2).toNat ∨ (g 1).toNat % 4096 ≠ 0
    let gives (i : Instr) (v : Word) : Prop := runsOnCore s d c i { s := uwrite s sd.toNat v }
    let fails (v : Nat) : Prop := runsOnCore s d c (.ctxld sd sa)
      { s := uwrite (queueEvent (updCtx s n fun k => { k with cevt := 6 }) d 6 n v) sd.toNat (word v) }
    (bad → gives (.ctxsav sd sa) 1) ∧
    (¬ bad → x.st ≠ 3 → gives (.ctxsav sd sa) 2) ∧
    (¬ bad → x.st = 3 → (g 3).toNat < x.csize.toNat → gives (.ctxsav sd sa) 3) ∧
    (¬ bad → x.st = 3 → x.csize.toNat ≤ (g 3).toNat → ∀ v : SavedCtx, v = collectCtx (unsend (fun _ => true) s n) n →
      pa + (recordImage v s.ticks n pa).length ≤ memSize s →
      ∃ t, runsOnCore s d c (.ctxsav sd sa) { s := uwrite t sd.toNat 0 } ∧ (ctxOf t n).st = 0 ∧
        (∀ l ∈ t.launches, l.2.ctx ≠ n) ∧ (∀ l ∈ s.launches, l.2.ctx ≠ n → l ∈ t.launches) ∧
        (∀ e ∈ t.tasks, e ∉ ctxTasks s n) ∧ (∀ e ∈ t.groups, e ∉ ctxGroups s n) ∧
        ∃ r ∈ t.saved, r = { v with bytes := r.bytes } ∧ r.bytes = recordImage v s.ticks n pa) ∧
    (s.dev.ckptOp.isSome = true → coreIssues s d c (.ctxld sd sa) → exec (.ctxld sd sa) s = .next s) ∧
    (s.dev.ckptOp = none →
      (bad → gives (.ctxld sd sa) 1) ∧
      (¬ bad → x.st ≠ 0 → gives (.ctxld sd sa) 2) ∧
      (¬ bad → x.st = 0 → readRecord s pa = none → fails 3) ∧
      (¬ bad → x.st = 0 → ∀ v, readRecord s pa = some v →
        let lacks : Bool := v.launches.any fun e => decide (recFeat e.2.words &&& Config.features ≠ recFeat e.2.words)
        (lacks = true → fails 4) ∧
        (lacks = false → assignClusters s v = none → fails 5) ∧
        (lacks = false → ∀ m, assignClusters s v = some m →
          ((Sparse.get 0 x.kslot d).getLsbD 4 = false → fails 6) ∧
          ((Sparse.get 0 x.kslot d).getLsbD 4 = true →
            runsOnCore s d c (.ctxld sd sa) { s := uwrite (restoreCtx s n v m) sd.toNat 0 } ∧
            (ctxOf (restoreCtx s n v m) n).st = 1))))


/-- R84-R110: every valid instruction decodes from the words that encode it, literal included, with each operand at every
value that the encoding admits; and a word that decodes is the encoding of what it decodes to.
Where the spec leaves a point open the clauses take the model's choice: log entry 35. -/
def Obligations.DecodingInvertsEncoding : Prop :=
  (∀ i : Instr, i.wf = true → ∀ w ws, encode i = w :: ws → decode w ws.head? = .ok i) ∧
  ∀ (w n : Word) (i : Instr), decode w (some n) = .ok i →
    encode i = w :: if hasLiteral (w.extractLsb' 24 8) then [n] else []

/-- R84-R110: words written out from the tables of chapter 2 decode to the instructions that they stand for, and a word with
an opcode that no table assigns is refused by the cause of R82. -/
def Obligations.EncodedWordsDecode : Prop :=
  (∀ e ∈ ([(0x00000000, .nop), (0x01008050, .smov 2 5), (0x03010063, .smulhs 4 6), (0x400A1032, .vmul 5 4 6),
      (0xB0010020, .mwld 4 2), (0xC0010020, .task 4 2), (0xC7000010, .kbar 1), (0xE9000000, .wfi)] : List (Word × Instr)),
    decode e.1 none = .ok e.2) ∧
  decode 0x02010000 (some 0x12345678) = .ok (.slit 4 0x12345678) ∧
  ∀ w n, (∃ r ∈ [(0x18, 0x3F), (0x7C, 0x8F), (0x9C, 0x9F), (0xA7, 0xAF), (0xB7, 0xBF), (0xCE, 0xCF), (0xDD, 0xDF),
      (0xED, 0xEF), (0xF1, 0xFF)], r.1 ≤ w.toNat / 2 ^ 24 ∧ w.toNat / 2 ^ 24 ≤ r.2) → decode w n = .error .unassignedOpcode

/-- R407, R443, R455-R472: right after reset every system register that the spec gives a reset value has it, and so do the
mailbox registers of every function and the registers of the debug window; no context has a launch, nothing is queued, key
slots are empty, measurements are zero; and the memories stand in their canonical form. The registers that read fuses
(CCID, FUSEDATA, FMEN, DEVID, LCSTATE, FWSVN and DPSTAT) and NONCE have no fixed value.
Where the spec leaves a point open the clauses take the model's choice: log entries 3, 6 and 8. -/
def Obligations.ResetState : Prop :=
  let s := State.reset
  let zero : List Nat := [1, 2, 3, 4, 5, 6, 8, 32, 321, 322, 324, 325, 326, 327, 330, 331, 512, 513, 531, 540, 542, 560, 561,
    562, 563, 564, 565, 566, 580, 581, 582, 583, 584, 585, 586, 604, 605, 607, 610, 611, 612, 613, 614, 615, 616, 617, 618,
    621, 622, 625, 626, 627, 628, 629, 632, 634, 635, 636, 637, 639]
  memoryGood s ∧
  (∀ d < 4, (∀ n ∈ zero, sysRead s d n = (s, 0)) ∧
    (∀ k < 16, sysRead s d (16 + k) = (s, 0) ∧ sysRead s d (48 + k) = (s, 0) ∧ sysRead s d (515 + k) = (s, 0)) ∧
    (∀ c < 16, ∀ k < 16, sysRead s d (64 + 16 * c + k) = (s, if k = 9 then 2000 else 0)) ∧
    sysRead s d 630 = (s, 2800) ∧ (sysRead s d 541).2 = 0 ∧
    (coreOf s d).running = false) ∧
  (∀ f off, mailboxRead s f off = 0) ∧ s.dev.dpsel = 0 ∧ s.dev.dperr = 0 ∧
  (∀ off, off ≠ 4 → debugWindow s off none = (s, 0)) ∧
  s.launches = [] ∧ s.tasks = [] ∧ s.groups = [] ∧ s.effects = [] ∧ s.dev.keys = [] ∧ s.dev.ms = []

/-- Every step that goes on keeps package memory and host memory in their canonical form: strictly rising addresses and no
entry equal to what an unlisted address reads as.
Where the spec leaves a point open the clauses take the model's choice: log entry 6. -/
def Obligations.EveryStepKeepsMemoryCanonical : Prop :=
  ∀ s s', memoryGood s → step s = .next s' → memoryGood s'

/-- R49, R156: a step runs what stands next. When the agent that the step names can issue and stands in a started clause,
and the words at its slot decode to an instruction, the step is that instruction's; when it stands before a clause, the
step starts the clause; an event without words happens with its operands. Every step advances the model's counter.
Where the spec leaves a point open the clauses take the model's choice: log entries 2, 3 and 36. -/
def Obligations.StepRunsDecodedInstruction : Prop :=
  ∀ (s : State) (rest : List Turn),
    (∀ who, s.script = .issue who :: rest →
      let u := { s with script := rest, ticks := s.ticks + 1, actor := who }
      (canIssue u who = false → step s = .next u) ∧
      (canIssue u who = true → startedClause u who = none → step s = exec .clauseStart u) ∧
      (canIssue u who = true → ∀ c w i, startedClause u who = some c → c.words[c.idx]? = some w →
        decode w c.words[c.idx + 1]? = .ok i → step s = exec i u)) ∧
    ∀ i a, s.script = .event i a :: rest → encode i = [] → i ≠ .clauseStart →
      step s = exec i { s with script := rest, ticks := s.ticks + 1, arg := a }

/-- R73, R75, R79, R82, R156: an agent starts the clause at its pc with the words that it fetches there. A static condition
is ILLEGAL with its cause, at its slot; a WAIT flag that is not zero keeps the agent waiting with reason 1; otherwise the
clause starts: the destinations under its WAIT flags are pending no more, their commands and effects have its clock as
their logical time, and a changed vector count is in force.
Where the spec leaves a point open the clauses take the model's choice: log entries 17, 21, 36 and 37. -/
def Obligations.ClauseStartFetchesChecksAndWaits : Prop :=
  (∀ (s : State) (w : Who) (hw : Word) (words : List Word),
    s.actor = .split w.g w.x → whoOf s w.g w.x = some w → w.sp.clause = none →
    let va := recCode w.task.words + w.sp.pc
    fetchWord s w.launch w.team.die (va % 2 ^ 56) = .ok hw → fetchWords s w.launch w.team.die (va + 4) (hdrLen hw) = .ok words →
    let check := staticCheck (some ⟨(w.grp.vnext.map (·.1)).getD w.grp.vcount, recFeat w.task.words⟩) hw words w.sp.last
    (∀ k cause, check = some (k, cause) → exec .clauseStart s = settle s w
      (.trap { cls := 0, cause, stat := true, slot := k, d0 := hw, insn := some (words.getD k 0) })) ∧
    (check = none → (∃ f < 12, (hdrWait hw).getLsbD f = true ∧ Sparse.get 0 w.grp.flags f ≠ 0) →
      exec .clauseStart s = settle s w (.stall 1)) ∧
    (check = none → (∀ f < 12, (hdrWait hw).getLsbD f = true → Sparse.get 0 w.grp.flags f = 0) →
      ∃ t v, exec .clauseStart s = .next t ∧ whoOf t w.g w.x = some v ∧ t.mem = s.mem ∧ t.teams = s.teams ∧
        v.sp.clause = some ⟨w.sp.pc, hw, words, 0, 0⟩ ∧ v.sp.clock = w.sp.clock ∧ v.sp.lanes = w.sp.lanes ∧
        (∀ p, p ∈ v.sp.pend ↔ p ∈ w.sp.pend ∧ ¬ (p.flag < 12 ∧ (hdrWait hw).getLsbD p.flag = true)) ∧
        v.sp.fps = w.sp.fps ∧ v.sp.mask = w.sp.mask ∧
        (let grp : Group := match w.grp.vnext with
           | none => w.grp
           | some (n, keep) =>
             if w.sp.frame.any (fun f => f.clause.isSome) then w.grp
             else { w.grp with vcount := n, vnext := none, v := w.grp.v.filter fun e => decide (e.1 < keep) }
         v.grp = { grp with splits := v.grp.splits, kept := v.grp.kept }) ∧
        (∀ k, k ∈ v.grp.kept ↔ k ∈ w.grp.kept ∧ ¬ ((k.1 = 0 ∨ w.sp.lanes.getLsbD k.2.2.1 = true) ∧
          ∃ p ∈ w.sp.pend, p.flag < 12 ∧ (hdrWait hw).getLsbD p.flag = true ∧ p.kind = k.1 ∧ p.reg = k.2.1)) ∧
        ∀ id k, (id, k) ∈ s.cmds → k.group = w.g → k.time = none → k.split ∈ w.sp.line → k.flag < 12 →
          (hdrWait hw).getLsbD k.flag = true →
          (k.finished = false → (id, { k with time := some w.sp.clock }) ∈ t.cmds) ∧
          ∀ e ∈ s.effects, e.cmd = id → id ≠ 0 → { e with time := some w.sp.clock } ∈ t.effects)) ∧
  ∀ (s : State) (d : Nat), s.actor = .core d → (coreOf s d).clause = none →
    let k := coreOf s d
    let hw := bytesWord (Sparse.read 0 k.mem k.pc 4)
    let n := hdrLen hw
    let words := (List.range n).map fun i => bytesWord (Sparse.read 0 k.mem (k.pc + 4 + 4 * i) 4)
    (k.pc % 4 ≠ 0 ∨ 0x40000 < k.pc + 4 ∨ 0x40000 < k.pc + 4 + 4 * n → exec .clauseStart s = .next (coreTrap s d 4 1)) ∧
    (k.pc % 4 = 0 → k.pc + 4 + 4 * n ≤ 0x40000 → staticCheck none hw words k.last = none →
      (∀ f < 12, (hdrWait hw).getLsbD f = true → Sparse.get 0 k.flags f = 0) →
      ∃ t, exec .clauseStart s = .next t ∧ (coreOf t d).clause = some ⟨k.pc, hw, words, 0, 0⟩ ∧ (coreOf t d).u = k.u ∧
        (coreOf t d).mem = k.mem ∧ t.mem = s.mem ∧ t.groups = s.groups)

/-- R79, R94, R111, R419, R436, R438: what stops a slot before its instruction: a matching PC comparator is DEBUG cause 1,
then an instruction of the control core ILLEGAL cause 15, then used up logical time EXHAUST, then a pending register HAZARD,
then an instruction whose kind the mode does not admit MODE.
Where the spec leaves a point open the clauses take the model's choice: log entries 19 and 20. -/
def Obligations.StopsBeforeTheInstruction : Prop :=
  ∀ (s : State) (w : Who) (c : Clause) (i : Instr), encode i ≠ [] →
    s.actor = .split w.g w.x → whoOf s w.g w.x = some w → w.sp.clause = some c →
    (∀ t, pcHit s w c = some t → exec i s = settle s w (.trap t)) ∧
    (pcHit s w c = none →
      (isPrivileged i = true → exec i s = settle s w
        (.trap { cls := 0, cause := 15, stat := true, slot := c.idx, d0 := c.hw, off := some c.off })) ∧
      (isPrivileged i = false →
        (∀ k, timeUp w = some k → exec i s = settle s w (.exhaust k)) ∧
        (timeUp w = none →
          (∀ t, hazardOf w i = some t → t.cls = 2 ∧ t.cause = 1 ∧ exec i s = settle s w (.trap t)) ∧
          (hazardOf w i = none → kindBad i w.grp.mode = true → exec i s = settle s w
            (.trap { cls := 3, cause := 1, aux := if kindOf i = some true then 0 else 1, d0 := w.grp.mode })))))

/-- R32, R76, R79, R86-R89, R162: the frame of a slot. A write of a uniform register changes that register and no other, s0
keeps 0, s1-s3 stay inside the lane set, s1008-s1022 are never written and s1023 keeps six bits; a vector result changes the
writing lanes of its register and no other lane or register, and gathers their flags; and retirement itself, of a command
that goes into flight as of any other slot, advances the clock and the position and changes no register, no memory and no
other group: the flag counter of a long-latency slot rises by one, and what it leaves pending is added to what was. -/
def Obligations.RegisterWritesAndRetirementFrames : Prop :=
  (∀ (s : State) (w : Who) (n : Nat) (x : Word), s.actor = .split w.g w.x → whoOf s w.g w.x = some w → n < 1024 →
    w.sp.mask &&& w.sp.lanes = w.sp.mask →
    let t := uwrite s n x
    uread s 0 = 0 ∧ (n = 0 ∨ (1008 ≤ n ∧ n ≤ 1022) → t = s) ∧ (4 ≤ n → n < 1008 → uread t n = x) ∧
    (1 ≤ n → n ≤ 3 → uread t n = x &&& maskWord w.sp.lanes (n - 1)) ∧ (n = 1023 → uread t n = x &&& 0x3F) ∧
    (∀ m, m < 1024 → m ≠ n → uread t m = uread s m) ∧ t.mem = s.mem ∧ t.teams = s.teams ∧ t.cores = s.cores ∧
    (∀ g, g ≠ w.g → Table.find t.groups g = Table.find s.groups g) ∧
    ∃ v, whoOf t w.g w.x = some v ∧ v.grp.v = w.grp.v ∧ v.grp.mode = w.grp.mode) ∧
  (∀ (s : State) (d n : Nat) (x : Word), s.actor = .core d →
    let t := uwrite s n x
    uread s 0 = 0 ∧ (n = 0 ∨ (1008 ≤ n ∧ n ≤ 1022) → t = s) ∧ (n ≠ 0 → n < 1008 ∨ 1022 < n → uread t n = x) ∧
    (∀ m, m ≠ n → uread t m = uread s m) ∧ t.mem = s.mem ∧ t.groups = s.groups) ∧
  (∀ (s : State) (w : Who) (vd : Nat) (f : Nat → Word × Word), whoOf s w.g w.x = some w →
    let t := (vecOut s w vd f).s
    t.mem = s.mem ∧ t.teams = s.teams ∧ ∃ v, whoOf t w.g w.x = some v ∧ v.grp.u = w.grp.u ∧ v.grp.mode = w.grp.mode ∧
      v.sp.mask = w.sp.mask ∧
      (∀ l < 96, laneRead v.grp vd l = if (writing s w).getLsbD l then (f l).1 else laneRead w.grp vd l) ∧
      (∀ r l, r ≠ vd → laneRead v.grp r l = laneRead w.grp r l) ∧
      (∀ b < 32, v.sp.fps.getLsbD b = true ↔ w.sp.fps.getLsbD b = true ∨
        ∃ l < 96, (writing s w).getLsbD l = true ∧ (f l).2.getLsbD b = true)) ∧
  ∀ (w : Who) (c : Clause) (i : Instr) (o : Out) (u : Who), o.flow = .next → o.post = (fun s => s) →
    whoOf o.s w.g w.x = some u → u.grp.team = w.grp.team → w.sp.step = false → u.sp.mode = .ready → noConflicts o.s u →
    let t := slotDone w c i o
    ∃ v, whoOf t w.g w.x = some v ∧ v.sp.clock = u.sp.clock + 1 ∧ v.sp.mask = u.sp.mask ∧ v.sp.fps = u.sp.fps ∧
      v.sp.calls = u.sp.calls ∧ v.grp.u = u.grp.u ∧ v.grp.v = u.grp.v ∧ v.grp.mode = u.grp.mode ∧ v.team.mem = u.team.mem ∧
      (longLatency i = false → v.sp.pend = u.sp.pend ∧ v.grp.flags = u.grp.flags) ∧
      (longLatency i = true → (∀ p ∈ u.sp.pend, p ∈ v.sp.pend) ∧
        Sparse.get 0 v.grp.flags c.flag = Sparse.get 0 u.grp.flags c.flag + 1 ∧
        ∀ f, f ≠ c.flag → Sparse.get 0 v.grp.flags f = Sparse.get 0 u.grp.flags f) ∧
      (c.idx + slotWords c < c.words.length →
        v.sp.clause = some { c with idx := c.idx + slotWords c, ll := if longLatency i then c.ll + 1 else c.ll }) ∧
      (c.words.length ≤ c.idx + slotWords c → v.sp.clause = none ∧ v.sp.pc = c.nextOff) ∧
      t.mem = o.s.mem ∧ t.cores = o.s.cores ∧ t.effects = o.s.effects ∧
      ∀ g, g ≠ w.g → Table.find t.groups g = Table.find o.s.groups g

/-- R169, R54, R65, R170, R193: the frame of whole slots: uniform arithmetic changes sd alone, a vector operation the writing
lanes of vd alone, `MODEI` the mode alone, a uniform store of any width the bytes at its address in the own allocation
alone, and one to another team's window none of them, for it is posted; every other byte of the team's scratchpad and every
byte of package memory reads as before. -/
def Obligations.UniformInstructionFrames : Prop :=
  ∀ (s : State) (w : Who) (c : Clause) (sd sa : SReg) (vd va vb : VReg) (m off : Word), w.sp.step = false →
    w.sp.mode = .ready → noConflicts s w →
    let regs (v : Who) (except : Nat) : Prop := ∀ n, n < 1021 → n ≠ except → groupRead v n = groupRead w n
    let vecs (v : Who) : Prop := ∀ r l, laneRead v.grp r l = laneRead w.grp r l
    (issues s w c (.sadd sd sa) → clears s w c (.sadd sd sa) { s := s } → 4 ≤ sd.toNat → sd.toNat < 1008 →
      ∃ t v, exec (.sadd sd sa) s = .next t ∧ whoOf t w.g w.x = some v ∧
        groupRead v sd.toNat = groupRead w sd.toNat + groupRead w sa.toNat ∧ regs v sd.toNat ∧ vecs v ∧ v.sp.fps = w.sp.fps ∧
        v.grp.mode = w.grp.mode ∧ t.mem = s.mem ∧ v.team.mem = w.team.mem) ∧
    (∀ r ∈ ([(.vand vd va vb, fun a b => a &&& b), (.vor vd va vb, fun a b => a ||| b), (.vxor vd va vb, fun a b => a ^^^ b),
        (.vandn vd va vb, fun a b => a &&& ~~~ b), (.vmov vd va, fun a _ => a), (.vnot vd va, fun a _ => ~~~ a)] :
        List (Instr × (Word → Word → Word))),
      let f (l : Nat) : Word := r.2 (laneRead w.grp va.toNat l) (laneRead w.grp vb.toNat l)
      issues s w c r.1 → clears s w c r.1 (vecOut s w vd.toNat fun l => (f l, 0)) →
      ∃ t v, exec r.1 s = .next t ∧ whoOf t w.g w.x = some v ∧ regs v 0 ∧ v.sp.fps = w.sp.fps ∧ v.grp.mode = w.grp.mode ∧
        (∀ l < 96, laneRead v.grp vd.toNat l = if (writing s w).getLsbD l then f l else laneRead w.grp vd.toNat l) ∧
        (∀ r' l, r' ≠ vd.toNat → laneRead v.grp r' l = laneRead w.grp r' l) ∧ t.mem = s.mem ∧ v.team.mem = w.team.mem) ∧
    (modeIllegal m = false → issues s w c (.modei m) → clears s w c (.modei m) { s := s, items := [⟨1, 0, true⟩] } →
      ∃ t v, exec (.modei m) s = .next t ∧ whoOf t w.g w.x = some v ∧ regs v 0 ∧ vecs v ∧ v.sp.fps = w.sp.fps ∧
        v.grp.mode = m ∧ t.mem = s.mem ∧ v.team.mem = w.team.mem) ∧
    ∀ r ∈ ([(.sst sd sa .w off, 4), (.sst sd sa .h off, 2), (.sst sd sa .b off, 1)] : List (Instr × Nat)),
      let a := (groupRead w sa.toNat + off).toNat
      let out (t o : Nat) : Out := { s := s, accs := [⟨t, o, r.2, 1⟩], looks := [⟨false, a, r.2, false, true, 96⟩] }
      let same (t : State) (v : Who) : Prop := whoOf t w.g w.x = some v ∧ regs v 0 ∧ vecs v ∧ v.sp.fps = w.sp.fps ∧
        v.grp.mode = w.grp.mode ∧ t.mem = s.mem
      issues s w c r.1 → a % r.2 = 0 →
      (∀ o, locate s w a r.2 = .at w.team.tidx o → heldAccess s w [⟨w.team.tidx, o, r.2, 1⟩] = false →
        clears s w c r.1 (out w.team.tidx o) → ∃ t v, exec r.1 s = .next t ∧ same t v ∧ t.effects = s.effects ∧
          (∀ k < r.2, Sparse.get 0 v.team.mem (o + k) = (groupRead w sd.toNat).extractLsb' (8 * k) 8) ∧
          ∀ b, b < o ∨ o + r.2 ≤ b → Sparse.get 0 v.team.mem b = Sparse.get 0 w.team.mem b) ∧
      (∀ t' o, locate s w a r.2 = .at t' o → t' ≠ w.team.tidx → heldAccess s w [⟨t', o, r.2, 1⟩] = false →
        clears s w c r.1 (out t' o) → ∃ t v, exec r.1 s = .next t ∧ same t v ∧ v.team.mem = w.team.mem ∧
          ∃ n e, w.task.teams[t']? = some n ∧ t.effects = s.effects ++ [e] ∧
            e.body = .window n o ((List.range r.2).map fun k => (groupRead w sd.toNat).extractLsb' (8 * k) 8) ∧
            e.key = agentKey w ∧ e.time = some w.sp.clock)

/-- R414-R418, R422-R425: taking a trap writes the record into the group's side buffer, stops every group of the team and
goes to the user handler, at its base plus 128 times the class with s992-s1007 holding the record, or to the die's trap
queue; an agent of an unrooted task holds it. `TRET` restores the handler's frame and continues at the offset in s994,
`TESC` hands the record on, with esc set; outside a handler both are ILLEGAL cause 18.
Where the spec leaves a point open the clauses take the model's choice: log entries 23, 24, 27 and 28. -/
def Obligations.TrapsAreTakenAndReturnedFrom : Prop :=
  ∀ (s : State) (w : Who), whoOf s w.g w.x = some w →
    (∀ tr : Trap, tr.target = none → bit (Sparse.get 0 (coreOf s w.team.die).sys 586) 3 = false → w.team.traps = [] →
      let ws := trapWords s w tr
      let t := takeTrap s w.g w.x tr
      (ws.length = 16 ∧ ws.getD 2 0 = word (if tr.rpcNext then splitNext w.sp else splitPc w.sp) ∧
        ws.getD 7 0 = tr.d0 ∧ ws.getD 8 0 = tr.d1 ∧ ws.getD 15 0 = word (w.team.tidx + w.launch.ctx * 2 ^ 16) ∧
        (w.sp.frame = none → ws.getD 0 0 = word (tr.cls + tr.cause * 2 ^ 8 + (if tr.stat then 2 ^ 18 else 0) +
          tr.slot * 2 ^ 19 + tr.aux * 2 ^ 24))) ∧
      (∃ tm grp, Table.find t.teams w.grp.team = some tm ∧ tm.halted = true ∧ Table.find t.groups w.g = some grp ∧
        grp.side = ws) ∧
      (∀ g grp, Table.find t.groups g = some grp → grp.team = w.grp.team → grp.exited = false → grp.halted = true) ∧
      t.mem = s.mem ∧
      (tr.cls ≠ 12 → tr.cls = 15 ∨ handlerBase s w = none →
        (coreOf t w.team.die).trapQ = (coreOf s w.team.die).trapQ ++ [⟨w.grp.team, w.g, w.x, ws, none, s.fresh⟩]) ∧
      (tr.cls ≠ 12 → tr.cls ≠ 15 → ∀ base, handlerBase s w = some base → ∃ v, whoOf t w.g w.x = some v ∧
        v.sp.pc = base + 128 * ((ws.getD 0 0).toNat % 2 ^ 8) ∧ v.sp.clause = none ∧ v.sp.mode = .ready ∧
        (∀ k < 16, groupRead v (992 + k) = ws.getD k 0) ∧ (∀ n, n < 992 → groupRead v n = groupRead w n) ∧
        ∃ f, v.sp.frame = some f ∧ f.clause = w.sp.clause ∧ ∀ k < 16, f.regs.getD k 0 = groupRead w (992 + k))) ∧
    (∀ tr : Trap, w.task.rooted = none → tr.cls ≠ 15 → tr.cls ≠ 12 →
      ∃ v, whoOf (raise s w.g w.x tr) w.g w.x = some v ∧ v.sp.mode = .held (.trap tr) ∧ (raise s w.g w.x tr).teams = s.teams) ∧
    (∀ c, w.sp.clause = some c → w.sp.frame = none →
      ∀ i ∈ [Instr.tret, .tesc], trapsOnSplit s w c i { cls := 0, cause := 18, d0 := c.hw }) ∧
    (∀ c f h, w.sp.frame = some f → f.regs.length = 16 → w.team.traps = [h] → h.group = w.g → h.split = w.x → h.user = true →
      w.sp.step = false → noConflicts s w → w.sp.mode = .ready → w.sp.saved = none →
      (issues s w c .tret → clears s w c .tret { s := s } → ∃ t v, exec .tret s = .next t ∧ whoOf t w.g w.x = some v ∧
        v.sp.frame = none ∧ v.team.halted = false ∧ v.grp.halted = false ∧ v.team.traps = [] ∧
        (∀ k < 16, groupRead v (992 + k) = f.regs.getD k 0) ∧ (∀ n, n < 992 → groupRead v n = groupRead w n) ∧
        (f.clause = none → v.sp.clause = none ∧ v.sp.pc = (groupRead w 994).toNat / 4 * 4) ∧ t.mem = s.mem) ∧
      (issues s w c .tesc → clears s w c .tesc { s := s } → ∃ t v, exec .tesc s = .next t ∧ whoOf t w.g w.x = some v ∧
        v.team.halted = w.team.halted ∧
        (let ws := word ((h.words.getD 0 0).toNat ||| 2 ^ 17) :: h.words.drop 1
         v.grp.side = ws ∧
         (coreOf t w.team.die).trapQ = (coreOf s w.team.die).trapQ ++ [⟨w.grp.team, w.g, w.x, ws, none, h.id⟩]) ∧ t.mem = s.mem))


/-- R40, R76, R79, R159, R167: a division or a log operation that completes lowers its flag by one and writes its results:
a quotient into its uniform register, the results of lanes into the lanes that the split holds, with their flags gathered;
no other register and no memory changes, and what the destinations held stays kept until a wait. A control core's division
writes its register when it completes.
Where the spec leaves a point open the clauses take the model's choice: log entries 17 and 18. -/
def Obligations.CompletionsWriteTheirResults : Prop :=
  (∀ (s : State) (k : Cmd) (grp : Group) (x : Nat) (sp : Split), Table.find s.cmds s.arg.a = some k → k.finished = false →
    Table.find s.groups k.group = some grp → grp.exited = false → takers s k = [(x, sp)] →
    Table.find grp.splits x = some sp →
    let lands (t : State) (p : Group → Split → Prop) : Prop :=
      (k.time = none → Table.find t.cmds s.arg.a = some { k with finished := true }) ∧ t.mem = s.mem ∧ t.teams = s.teams ∧
        ∃ grp' sp', Table.find t.groups k.group = some grp' ∧ Table.find grp'.splits x = some sp' ∧
          Sparse.get 0 grp'.flags k.flag = Sparse.get 0 grp.flags k.flag - 1 ∧
          (∀ f, f ≠ k.flag → Sparse.get 0 grp'.flags f = Sparse.get 0 grp.flags f) ∧ sp'.pend = sp.pend ∧ p grp' sp'
    (∀ v, s.arg.b = 0 → k.body = .div v → k.sd < 1024 →
      ∃ t, exec .divisionComplete s = .next t ∧ lands t fun grp' sp' =>
        grp'.v = grp.v ∧ (k.sd ≠ 1023 → sp'.fps = sp.fps) ∧ (k.sd = 1023 → sp'.fps = v &&& 0x3F) ∧
        (k.sd = 0 ∨ 3 < k.sd → sp'.mask = sp.mask) ∧
        (1 ≤ k.sd → k.sd ≤ 3 → sp'.mask = setMaskWord sp (k.sd - 1) v) ∧
        (4 ≤ k.sd → k.sd < 1008 → Sparse.get 0 grp'.u k.sd = v) ∧
        (∀ n, n ≠ k.sd ∨ n < 4 ∨ 1008 ≤ n → Sparse.get 0 grp'.u n = Sparse.get 0 grp.u n) ∧
        ((∀ e ∈ grp.kept, e.1 ≠ 0 ∨ e.2.1 ≠ k.sd) → 4 ≤ k.sd → k.sd < 1008 →
          grp'.kept = grp.kept ++ [(0, k.sd, 0, Sparse.get 0 grp.u k.sd)])) ∧
    ∀ rs, rs ≠ [] → (∀ r ∈ rs, sp.lanes.getLsbD r.1 = true ∧ r.1 < 96) → k.body = .log rs →
      ∃ t, exec .logOperationComplete s = .next t ∧ lands t fun grp' sp' => grp'.u = grp.u ∧
        (∀ l < 96, laneRead grp' k.sd l = match Table.find rs l with | some r => r.1 | none => laneRead grp k.sd l) ∧
        (∀ v l, v ≠ k.sd → laneRead grp' v l = laneRead grp v l) ∧
        ∀ b < 32, sp'.fps.getLsbD b = true ↔ sp.fps.getLsbD b = true ∨ ∃ r ∈ rs, r.2.2.getLsbD b = true) ∧
  ∀ (s : State) (d f n : Nat) (v : Word) (rest : List (Nat × Nat × Word)), s.arg.b = d + 1 →
    (coreOf s d).divs = (f, n, v) :: rest → n ≠ 0 → n < 1008 →
    ∃ t, exec .divisionComplete s = .next t ∧ (coreOf t d).divs = rest ∧ Sparse.get 0 (coreOf t d).u n = v ∧
      Sparse.get 0 (coreOf t d).flags f = Sparse.get 0 (coreOf s d).flags f - 1 ∧ t.mem = s.mem ∧ t.groups = s.groups

/-- R41, R44-R46, R27, R65, R323, R332, R360, R369, R372, R387: commit(q) of a domain does not begin while a split of a rooted
task that can run stands before (q + 1) Q, nor while a task that is not yet placed starts before it. A commit that one
effect of quantum q or earlier waits for makes q + 1 the next, and does this: of a write it stores the bytes in package
memory and changes no other byte; of an atomic it applies the lanes in order; a message to an open poll port is the last of
its queue, one to a count port adds to the count; the signal of an ALL phaser's one signaller completes the phase; a
posted window write lands in the team's scratchpad; and a task that was created starts where the commit's quantum ends.
Where the spec leaves a point open the clauses take the model's choice: log entries 45, 83 and 84. -/
def Obligations.CommitsFollowTheMinimumAndApplyWrites : Prop :=
  (∀ (s : State) (dom : Domain) (k : Task) (l : Launch) (n : Nat), Table.find s.doms s.arg.a = some dom →
    (n, k) ∈ s.tasks → k.retired = none → Table.find s.launches k.launch = some l → l.dom = s.arg.a →
    (k.placed = true → k.rooted.isSome = true → ∀ g x sp, (g, x, sp) ∈ taskSplits s n → sp.mode = .ready →
      sp.clock < (dom.next + 1) * dom.q → exec .commit s = .next s) ∧
    (k.placed = false ∨ k.rooted = none → k.start < (dom.next + 1) * dom.q → exec .commit s = .next s)) ∧
  ∀ (s : State) (dom : Domain) (k : Task) (l : Launch) (grp : Group) (sp : Split) (tm : Team) (e : Effect)
    (lid n g x t r u : Nat),
    s.doms = [(s.arg.a, dom)] → dom.join = [] → dom.derived = [] → dom.reports = [] → dom.late = [] → dom.firings = [] →
    dom.joinSigs = [] → 0 < dom.q → s.launches = [(lid, l)] → l.dom = s.arg.a → l.ended = false → l.liveTasks = 1 →
    s.tasks = [(n, k)] → k.launch = lid → k.placed = true → k.rooted = some r → r ≤ dom.next → k.retired = none →
    s.groups = [(g, grp)] → grp.task = n → grp.team = t → grp.splits = [(x, sp)] → sp.mode = .ready →
    (dom.next + 1) * dom.q ≤ sp.clock → sp.due = [] → s.teams = [(t, tm)] → tm.task = n → tm.colls = [] →
    (∀ c ∈ s.ctxs, c.2.inbox = [] ∧ c.2.playback = none ∧ c.2.replies = []) → s.cmds = [] → s.conts = [] → s.patterns = [] →
    s.enc = [] → s.trees = [] → s.accs = [] → s.bad = [] → s.effects = [e] → e.dom = s.arg.a → e.task = n → e.launch = lid →
    e.time = some u → u < (dom.next + 1) * dom.q →
    let commits (p : State → Prop) : Prop := ∃ s' dom', exec .commit s = .next s' ∧ s'.effects = [] ∧
      Table.find s'.doms s.arg.a = some dom' ∧ dom'.next = dom.next + 1 ∧ dom'.q = dom.q ∧ p s'
    (s.phasers = [] →
      (∀ pa va bs, e.body = .write va [(pa, 0, bs)] → commits fun s' =>
        ∀ b, memRead s' b 1 = if pa ≤ b ∧ b < pa + bs.length then [bs.getD (b - pa) 0] else memRead s b 1) ∧
      (∀ op ls, e.body = .atom op ls none → commits fun s' => ∀ b, memRead s' b 1 = memRead
        (ls.foldl (fun v a => (applyLane v op a.2.1 a.2.2.1 a.2.2.2.1 a.2.2.2.2.1).1) { s with effects := [] }) b 1) ∧
      (∀ port w0 w1 sd p, e.body = .message port w0 w1 sd → portAt s l.ctx port = some p → p.isOpen = true →
        (p.kind = 1 → p.fifo.length < p.depth → commits fun s' =>
          portAt s' l.ctx port = some { p with fifo := p.fifo ++ [(w0, w1, e.key)] } ∧ s'.mem = s.mem) ∧
        (p.kind = 2 → p.armed = [] → commits fun s' =>
          portAt s' l.ctx port = some { p with count := word (min 0xFFFFFFFF (p.count.toNat + w0.toNat)) } ∧ s'.mem = s.mem)) ∧
      (∀ off bs, e.body = .window t off bs → tm.exited = false → off + bs.length ≤ lastSize s tm → commits fun s' =>
        ∃ tm', Table.find s'.teams t = some tm' ∧
          ∀ a, Sparse.get 0 tm'.mem a = if off ≤ a ∧ a < off + bs.length then bs.getD (a - off) 0 else Sparse.get 0 tm.mem a) ∧
      (∀ ws, e.body = .spawn ws → (ctxOf s l.ctx).live < 2 ^ 24 → commits fun s' => ∃ m a, (m, a) ∈ s'.tasks ∧
        a.launch = lid ∧ a.words = ws ∧ a.seq = l.nextSeq ∧ a.start = (dom.next + 1) * dom.q ∧ a.placed = false ∧
        a.rooted = none)) ∧
    (∀ ph p q sd b, s.phasers = [(ph, p)] → e.body = .phsig ph 0 g none b sd → p.freed = false → p.any = false →
      p.parties = [q] → q.kind = 0 → q.id = g → q.role = 1 → q.next = none → q.leaving = false → q.arrived = false →
      q.ahead = false → q.sphase = p.phase → p.phase + 1 < 2 ^ 32 → p.waiting = [] → commits fun s' =>
        ∃ p', Table.find s'.phasers ph = some p' ∧ p'.phase = p.phase + 1 ∧ s'.mem = s.mem)

/-- R347-R350, R355, R391, R455-R457: the host's side. A doorbell sets the ring's tail, or is counted on an unmapped
function; a submission entry is taken when its number follows and is counted otherwise; a launch request reads and checks its
record, and a record that passes starts a launch with a commit domain of its own and a root task at clock 0; a full gathering
starts its launches as one domain while a slot of the clock service is free; a reply becomes visible in the ring, and DSENT covers it.
Where the spec leaves a point open the clauses take the model's choice: log entries 67, 69, 70 and 95. -/
def Obligations.HostSideEvents : Prop :=
  ∀ (s : State),
    let f := s.arg.a
    let v := s.arg.value.getD 0
    let fnOf (t : State) : Fn := (Table.find t.dev.fns f).getD {}
    let up (n : Word) : Word := if n = 0xFFFFFFFF then n else n + 1
    let here : Prop := f / 16 = 0 ∨ (f / 16 = 1 ∧ s.chip = false)
    (here → (fnOf s).map ≠ none → ∃ t, exec .srtailDoorbell s = .next t ∧ fnOf t = { fnOf s with srtail := v } ∧ t.ctxs = s.ctxs) ∧
    (here → (fnOf s).map = none →
      ∃ t, exec .srtailDoorbell s = .next t ∧ fnOf t = { fnOf s with ferr := up (fnOf s).ferr } ∧ t.ctxs = s.ctxs) ∧
    (¬ here → exec .srtailDoorbell s = .next s ∧ exec .dsackWrite s = .next s) ∧
    (here → f % 16 = 0 → ∃ t, exec .svdbDoorbell s = .next t ∧
      (coreOf t 0).events = (coreOf s 0).events ++ [word (1 + f * 2 ^ 12)]) ∧
    (f % 16 ≠ 0 ∨ ¬ here → exec .svdbDoorbell s = .next s) ∧
    (here → ∃ t, exec .dsackWrite s = .next t ∧ (fnOf t).dsack = v ∧ t.host = s.host ∧ t.mem = s.mem) ∧
    (∀ ctx n, Table.find s.dev.fns f = some (fnOf s) → (fnOf s).map = some ctx → ringSize (fnOf s).srsize = some n →
      s.dev.hostDown.contains (f / 16) = false → (fnOf s).srhead ≠ (fnOf s).srtail.toNat % n →
      let at' := hostAddr f ((fnOf s).srbase + 16 * (fnOf s).srhead)
      let g (i : Nat) : Word := bytesWord (Sparse.read 0 s.host (at' + 4 * i) 4)
      let c := ctxOf s ctx
      ∃ t, exec .hostSubmissionEntry s = .next t ∧ (fnOf t).srhead = ((fnOf s).srhead + 1) % n ∧
        (g 0 ≠ c.hacc + 1 → ctxOf t ctx = c ∧ (fnOf t).ferr = up (fnOf s).ferr) ∧
        (g 0 = c.hacc + 1 → (g 1).getLsbD 16 = true →
          ctxOf t ctx = { c with hacc := g 0, requests := c.requests ++ [(g 0, (g 2).toNat + (g 3).toNat % 2 ^ 24 * 2 ^ 32)] }) ∧
        (g 0 = c.hacc + 1 → (g 1).getLsbD 16 = false →
          ctxOf t ctx = { c with hacc := g 0, inbox := c.inbox ++ [(g 0, (g 1).toNat % 2 ^ 16, g 2, g 3)] })) ∧
    (canLaunch s f = false → exec .hostLaunchRequest s = .next s) ∧
    (∀ h va rest bs, canLaunch s f = true → (ctxOf s f).requests = (h, va) :: rest →
      vaRead s f 0 false [] va 256 = .ok bs →
      let ws := bytesWords 64 bs
      ∃ t, exec .hostLaunchRequest s = .next t ∧ (ctxOf t f).requests = rest ∧ t.mem = s.mem ∧
        (checkRecord s ws none ≠ 0 → t.launches = s.launches ∧ t.tasks = s.tasks) ∧
        (checkRecord s ws none = 0 → gatherings s ws = [] → ∃ l k dom,
          (ctxOf t f).st = 1 ∧ (ctxOf t f).nextLaunch = (ctxOf s f).nextLaunch + 1 ∧
          Table.find t.launches s.fresh = some l ∧ l.ctx = f ∧ l.num = (ctxOf s f).nextLaunch ∧ l.words = ws ∧
          l.ended = false ∧ l.waiting = false ∧ l.liveTasks = 1 ∧
          Table.find t.doms l.dom = some dom ∧ dom.next = 0 ∧ dom.q = recQ ws ∧ dom.groups = s.gtab ∧ dom.trees = s.trees ∧
          (s.fresh + 3, k) ∈ t.tasks ∧ k.launch = s.fresh ∧ k.start = 0 ∧ k.words = ws ∧ k.seq = 0 ∧ k.placed = false ∧
          k.rooted = none ∧ k.ts = (recWord ws 5).toNat)) ∧
    (fullGathering s f s.arg.b = none ∨ 64 ≤ liveDomains s → exec .gatheredLaunchStart s = .next s) ∧
    (∀ ls, fullGathering s f s.arg.b = some ls → liveDomains s < 64 → (∀ l ∈ ls, (Table.find s.launches l).isSome = true) →
      ∃ t, exec .gatheredLaunchStart s = .next t ∧
        (∀ l ∈ ls, ∃ la, Table.find t.launches l = some la ∧ la.dom = s.fresh ∧ la.waiting = false ∧
          ∃ e ∈ t.tasks, e.2.launch = l ∧ e.2.start = 0 ∧ e.2.words = la.words) ∧
        ∀ e ∈ t.phasers, ∀ l ∈ ls, l ∉ e.2.waiting) ∧
    (nextReply s f = none → exec .replyEntryVisible s = .next s) ∧
    ∀ ctx place r, nextReply s f = some (ctx, place, r) →
      let at' := hostAddr f ((fnOf s).rrbase + 16 * place)
      ∃ t, exec .replyEntryVisible s = .next t ∧ (ctxOf t ctx).dsent = (ctxOf s ctx).dsent + 1 ∧
        Sparse.read 0 t.host at' 16 = replyBytes ((ctxOf s ctx).dsent + 1) r ∧
        ∀ b, b < at' ∨ at' + 16 ≤ b → Sparse.get 0 t.host b = Sparse.get 0 s.host b

/-- R407, R408, R416, R426, R428-R431, R443, R456: the control cores' queues, registers and contexts. EVT gives up its head;
TQACT and CFQACT answer the heads of their queues; a core with ie set enters at the vector of the first record or event, and
saves its pc; a pre-empted context drains, and ends drained or reset; the registers of contexts take their values.
Where the spec leaves a point open the clauses take the model's choice: log entries 90, 92, 95, 96, 97 and 111. -/
def Obligations.ControlCoreEvents : Prop :=
  ∀ (s : State),
    let d := s.arg.a
    let b := s.arg.b
    let v := s.arg.value.getD 0
    let k := coreOf s d
    ((k.events = [] → exec .evtRead s = .next s) ∧
      ∀ e rest, k.events = e :: rest → ∃ t, exec .evtRead s = .next t ∧ coreOf t d = { k with events := rest }) ∧
    (∀ e ∈ ([(.tqactResume, 0), (.tqactTerminate, 1), (.tqactResumeAtTqrpc, 2)] : List (Instr × Word)),
      ∃ t, exec e.1 s = .next t ∧
        (k.trapQ = [] → coreOf t d = k) ∧
        ∀ r rest, k.trapQ = r :: rest → coreOf t d = { k with trapQ := { r with act := some e.2 } :: rest }) ∧
    (∀ id ws rest, k.faultQ = (id, ws) :: rest →
      (∃ t, exec .cfqactReplay s = .next t ∧ (coreOf t d).faultQ = rest ∧ suspended t id = none ∧ t.teams = s.teams) ∧
      ∃ t, exec .cfqactDecline s = .next t ∧ (suspended s id = none → (coreOf t d).faultQ = rest ∧ t.teams = s.teams) ∧
        ∀ c tm, suspended s id = some c → Table.find s.teams c.team = some tm →
          ∃ tm', Table.find t.teams c.team = some tm' ∧ tm'.terminated = true ∧ (tm.terminated = false → tm'.exited = true)) ∧
    (k.running = true → k.halted = false → k.ie = true → k.inh = false → k.clause = none →
      let enters (base : Nat) (cause : Word) : Prop := ∃ t, exec .supervisorEntry s = .next t ∧ (coreOf t d).pc = base ∧
        (coreOf t d).inh = true ∧ (coreOf t d).ecause = cause ∧ sysGet t d 3 = word k.pc ∧ (coreOf t d).u = k.u ∧
        (coreOf t d).events = k.events ∧ t.groups = s.groups ∧ t.mem = s.mem
      let vec (n : Nat) : Nat := (sysGet s d 2).toNat + 128 * n
      let cls (r : Record) : Nat := (r.words.getD 0 0).toNat % 2 ^ 8
      (∀ r rest, k.debugQ = [] → k.trapQ = r :: rest → (∀ q ∈ k.trapQ, cls q ≠ 15) → enters (vec (cls r)) (word (cls r * 2 ^ 8))) ∧
      (∀ q, k.debugQ = [] → q ∈ k.trapQ → cls q = 15 → enters (vec 15) (word (15 * 2 ^ 8))) ∧
      (∀ r rest, k.debugQ = r :: rest → (∀ q ∈ k.trapQ, cls q ≠ 15) → bit (sysGet s d 531) 0 = false →
        enters (sysGet s d 512).toNat (word (3 + cls r * 2 ^ 8))) ∧
      (k.debugQ = [] → k.trapQ = [] → k.faultQ ≠ [] → enters (vec 16) 1) ∧
      (k.debugQ = [] → k.trapQ = [] → k.faultQ = [] → k.events ≠ [] → enters (vec 17) 2)) ∧
    (k.running = false ∨ k.halted = true ∨ k.ie = false ∨ k.inh = true → exec .supervisorEntry s = .next s) ∧
    (s.dev.ckptOp.isSome = true ∨ (ctxOf s d).st ≠ 1 → exec .preempt s = .next s) ∧
    (s.dev.ckptOp = none → (ctxOf s d).st = 1 →
      ∃ t, exec .preempt s = .next t ∧ (ctxOf t d).st = 2 ∧ (ctxOf t d).die = b ∧ t.mem = s.mem ∧
        ∀ g grp n l, (∀ e ∈ s.tasks, e.2.rooted.isSome = true) → Table.find s.groups g = some grp →
          Table.find s.tasks grp.task = some n → Table.find s.launches n.launch = some l → l.ctx = d →
          ∃ grp', Table.find t.groups g = some grp' ∧ ∀ x sp, (x, sp) ∈ grp.splits → sp.mode = .ready → sp.saved = none →
            (x, { sp with stopAt := some ((sp.clock / recQ l.words + 1) * recQ l.words) }) ∈ grp'.splits) ∧
    (drained s d = false → exec .drainComplete s = .next s) ∧
    (drained s d = true → ∃ t, exec .drainComplete s = .next t ∧ (ctxOf t d).st = 3 ∧ (ctxOf t d).cevt = 2 ∧
      (coreOf t (ctxOf s d).die).events = (coreOf s (ctxOf s d).die).events ++ [word (2 + d * 2 ^ 8)] ∧ t.mem = s.mem) ∧
    ((ctxOf s d).st ≠ 2 → (ctxOf s d).st ≠ 4 → exec .drainDeadlineExpiry s = .next s) ∧
    ((ctxOf s d).st = 2 → ∃ t, exec .drainDeadlineExpiry s = .next t ∧ (ctxOf t d).st = 4 ∧
      (∀ e ∈ t.launches, e.2.ctx ≠ d) ∧ t.mem = s.mem) ∧
    ((ctxOf s d).st = 4 → ∃ t, exec .drainDeadlineExpiry s = .next t ∧ (ctxOf t d).st = 0 ∧ (ctxOf t d).cevt = 3 ∧
      (coreOf t (ctxOf s d).die).events = (coreOf s (ctxOf s d).die).events ++ [word (3 + d * 2 ^ 8)] ∧ t.mem = s.mem) ∧
    (∀ c n, c < 16 → 4 ≤ n → n ≤ 6 → b = 64 + 16 * c + n →
      ((ctxOf s c).st ≠ 0 → exec .contextSpaceWrite s = .next s) ∧
      ((ctxOf s c).st = 0 → ∃ t, exec .contextSpaceWrite s = .next t ∧
        sysRead t d b = (t, v &&& (if n = 4 then 0x3FFF3FFF else if n = 5 then 0x0FFF0FFF else 0x1FFFF)))) ∧
    (∀ c, c < 16 → b = 64 + 16 * c + 7 → ∃ t, exec .careaWrite s = .next t ∧
      Sparse.get 0 (ctxOf t c).carea d = Sparse.get 0 (ctxOf s c).carea d / 2 ^ 32 * 2 ^ 32 + v.toNat / 2 ^ 12 * 2 ^ 12 ∧
        ∀ e, e ≠ d → Sparse.get 0 (ctxOf t c).carea e = Sparse.get 0 (ctxOf s c).carea e) ∧
    (let sel := (sysGet s d 326).toNat
     let g := sel % 2 ^ 12
     let j := sel / 2 ^ 16 % 4
     let owner := (Sparse.get 0 s.rtab (4 * g)).toNat / 2 % 16
     ((ctxOf s owner).st ≠ 0 → exec .receiveTableWrite s = .next s) ∧
     ((ctxOf s owner).st = 0 → ∃ t, exec .receiveTableWrite s = .next t ∧
       Sparse.get 0 t.rtab (4 * g + j) = v &&& ([0x00FFFF1F, 0xFFFFFF00, 0x00FFFFFF, 0xFFFFFF00].getD j 0))) ∧
    (b < 2 ^ 16 → sysWriteWaits s b = false → exec .registerWrite s = .next (sysWrite s d b v)) ∧
    (580 ≤ b → b ≤ 582 → ∃ t, exec .profilingBufferMove s = .next t ∧ sysRead t d 583 = (t, 0) ∧ sysRead t d 584 = (t, 0) ∧
      sysRead t d b = (t, v &&& (if b = 580 then 0xFFFFF000 else if b = 581 then 0xFF else 0xFFFFFFFF))) ∧
    (let f := (sysGet s d 621).toNat
     let c := v.toNat % 16
     let mapOf (t : State) (n : Nat) : Option Nat := ((Table.find t.dev.fns n).getD {}).map
     let here : Prop := f / 16 = 0 ∨ (f / 16 = 1 ∧ s.chip = false)
     (¬ here → exec .fnmapWrite s = .next s) ∧
     (here → ∃ t, exec .fnmapWrite s = .next t ∧
       (v.getLsbD 4 = false → mapOf t f = none ∧ ((Table.find t.dev.fns f).getD {}).field = c) ∧
       (v.getLsbD 4 = true → (∀ e ∈ s.dev.fns, e.1 ≠ f → e.1 / 16 = f / 16 → e.2.map ≠ some c) →
         mapOf t f = some c ∧ ((Table.find t.dev.fns f).getD {}).field = c) ∧
       (v.getLsbD 4 = true → (∃ e ∈ s.dev.fns, e.1 ≠ f ∧ e.1 / 16 = f / 16 ∧ e.2.map = some c) → t = s) ∧
       ∀ n, n ≠ f → mapOf t n = mapOf s n))

/-- R190, R441, R444-R451, R469: the debug unit. DQACT answers the head record; a halt request stops the team that holds the
slot; the access window answers status 2 where no halted group stands and otherwise reads and writes items; the host's debug
window is closed outside DEBUG; a sample moves on to the next slot; an idle cycle counts the reason of the table split with the lowest clock and key.
Where the spec leaves a point open the clauses take the model's choice: log entries 102, 103 and 104. -/
def Obligations.DebugUnitEvents : Prop :=
  ∀ (s : State),
    let d := s.arg.a
    let k := coreOf s d
    (∀ e ∈ ([(.dqactResume, 0), (.dqactStep, word (1 + s.arg.b % 64 * 2 ^ 8 + s.arg.c % 4 * 2 ^ 16)), (.dqactTerminate, 2),
        (.dqactHold, 3)] : List (Instr × Word)),
      (k.debugQ = [] → exec e.1 s = .next s) ∧
      ∀ r rest, k.debugQ = r :: rest →
        (bit (sysGet s d 531) 0 = false →
          ∃ t, exec e.1 s = .next t ∧ coreOf t d = { k with debugQ := { r with act := some e.2 } :: rest }) ∧
        (bit (sysGet s d 531) 0 = true → recordLive s r = false →
          ∃ t, exec e.1 s = .next t ∧ coreOf t d = { k with debugQ := rest } ∧ t.teams = s.teams)) ∧
    (residentGroup s d s.arg.b s.arg.c = none → exec .haltreq s = .next s) ∧
    (∀ g grp w, residentGroup s d s.arg.b s.arg.c = some (g, grp) → whoOf s w.g w.x = some w → w.grp.team = grp.team →
      teamSplits s grp.team = [(w.g, w.x, w.sp)] → w.grp.parked = false →
      bit (sysGet s w.team.die 586) 3 = false → ∃ t tm, exec .haltreq s = .next t ∧ Table.find t.teams grp.team = some tm ∧ tm.halted = true ∧ t.mem = s.mem) ∧
    (let sel := (sysGet s d 540).toNat
     let here := (residentGroup s d (sel % 2 ^ 7) (sel / 2 ^ 7 % 2 ^ 6)).filter fun e => e.2.halted
     (here = none → ∃ t, exec .dwdataAccess s = .next t ∧ sysGet t d 542 = 2 ∧ t.groups = s.groups) ∧
     ∀ g grp tm, here = some (g, grp) → Table.find s.teams grp.team = some tm → sel / 2 ^ 13 = 2 →
       (s.arg.value = none → ∃ t, exec .dwdataAccess s = .next t ∧ sysGet t d 542 = 0 ∧ t.groups = s.groups ∧
         (windowAccess s d none).2 = grp.mode) ∧
       ∀ v, s.arg.value = some v →
         (modeIllegal v = true → ∃ t, exec .dwdataAccess s = .next t ∧ sysGet t d 542 = 3 ∧ t.groups = s.groups) ∧
         (modeIllegal v = false → ∃ t grp', exec .dwdataAccess s = .next t ∧ sysGet t d 542 = 0 ∧
           Table.find t.groups g = some grp' ∧ grp'.mode = v)) ∧
    (s.arg.a < 2 → s.chip = false → ∀ v, s.arg.value = some v → ∀ j, j ≤ 74 → s.arg.b = 0x100 + 4 * j →
      (s.dev.debug = true → exec .debugWindowAccess s = .next (sysWrite s s.dev.dpsel.toNat (512 + j) v)) ∧
      (s.dev.debug = false → ∃ t, exec .debugWindowAccess s = .next t ∧
        t.dev = { s.dev with dperr := if s.dev.dperr = 0xFFFFFFFF then 0xFFFFFFFF else s.dev.dperr + 1 } ∧
        t.cores = s.cores)) ∧
    (bit (sysGet s d 586) 0 = false → exec .profileSample s = .next s) ∧
    (∀ g grp tm, bit (sysGet s d 586) 0 = true → s.groups = [(g, grp)] → grp.exited = false → grp.parked = false →
      Table.find s.teams grp.team = some tm → tm.die = d → tm.core = s.arg.b →
      ∃ t, exec .profileSample s = .next t ∧ Sparse.get 0 (coreOf t d).sampled s.arg.b = grp.slot + 1 ∧ t.groups = s.groups) ∧
    ∀ grp, Table.find s.groups s.arg.a = some grp →
      (grp.exited = true ∨ grp.parked = true → exec .stallReasonCount s = .next s) ∧
      (grp.exited = false → grp.parked = false → ∃ t grp' j, exec .stallReasonCount s = .next t ∧
        Table.find t.groups s.arg.a = some grp' ∧ grp'.u = grp.u ∧ grp'.splits = grp.splits ∧ t.mem = s.mem ∧
        Sparse.get 0 grp'.stalls j = (let n := Sparse.get 0 grp.stalls j
          if n = 0xFFFFFFFF then n else n + 1) ∧
        (∀ i, i ≠ j → Sparse.get 0 grp'.stalls i = Sparse.get 0 grp.stalls i) ∧
        (∀ x sp r, (x, sp) ∈ grp.splits → sp.entry.isSome = true →
          (∀ p ∈ grp.splits, p.2.entry.isSome = true → p = (x, sp) ∨ pairLt (sp.clock, sp.klane) (p.2.clock, p.2.klane) = true) →
          (whoOf s s.arg.a x).isSome = true → (∃ c, sp.clause = some c ∧ (slotInstr c).any longLatency = false) →
          grp.halted = false → sp.stopAt = none → sp.mode = .stalled r → j = r) ∧
        ((∀ p ∈ grp.splits, p.2.entry = none ∧ ∃ n, p.2.mode = .recon n) → grp.splits ≠ [] → j = 11) ∧
        (∀ x sp, grp.splits = [(x, sp)] → sp.entry.isSome = true → (whoOf s s.arg.a x).isSome = true →
          (∃ c, sp.clause = some c ∧ (slotInstr c).any longLatency = false) → grp.halted = true →
          sp.mode = .ready ∨ sp.mode = .stalled 15 → j = 13))

/-- R390, R421, R457-R472: the device units. Reset ends everything and loses DRAM, and the boot ROM then boots flash or enters
recovery;
measurements are extended; a quote is refused or made; a token is verified and a commit enters DEBUG; keys are wiped; a
checkpoint runs and queues its event; links fall and retrain; errors, droops and seconds are counted.
Where the spec leaves a point open the clauses take the model's choice: log entries 10, 15, 94, 105, 106, 107, 108 and 109. -/
def Obligations.DeviceUnitEvents : Prop :=
  ∀ (s : State),
    let d := s.arg.a
    let v := s.arg.value.getD 0
    let up (n : Word) : Word := if n = 0xFFFFFFFF then n else n + 1
    (d = 0 → ∃ t, exec .packageReset s = .next t ∧ t.launches = [] ∧ t.tasks = [] ∧ t.groups = [] ∧ t.teams = [] ∧ t.ctxs = [] ∧
      t.effects = [] ∧ t.mem = [] ∧ t.lost = s.lost + 1 ∧ t.host = s.host ∧ t.flash = s.flash ∧ t.dev.keys = [] ∧
      t.dev.life = s.dev.lifeKept ∧ t.dev.debug = false ∧ t.dev.st = 1 ∧ t.cores = [] ∧ t.dev.ms = []) ∧
    (d ≠ 0 → s.dev.st ≠ 1 → exec .packageReset s = .next s) ∧
    (d ≠ 0 → s.dev.st = 1 → ∃ t, exec .packageReset s = .next t ∧ t.mem = s.mem ∧
      (imageAccepted s s.flash = true → t.dev.st = 2 ∧ ∀ n ∈ dies s, (coreOf t n).running = true ∧
        (coreOf t n).pc = (coreOf s n).pc) ∧
      (imageAccepted s s.flash = false → t.dev.st = 3 ∧ t.cores = s.cores ∧ t.dev.ms = s.dev.ms)) ∧
    (s.dev.st ≠ 3 → exec .recoveryImageSubmit s = .next s) ∧
    (s.dev.st = 3 → ∃ t, exec .recoveryImageSubmit s = .next t ∧ t.mem = s.mem ∧
      (imageAccepted s s.arg.bytes = true → t.dev.st = 2 ∧ ∀ n ∈ dies s, (coreOf t n).running = true) ∧
      (imageAccepted s s.arg.bytes = false → t.dev.st = 3 ∧ t.flash = s.flash ∧ t.cores = s.cores)) ∧
    (let n := v.toNat % 8
     (n < 2 ∨ n = 7 → exec .measurementExtend s = .next s) ∧
     (2 ≤ n → n ≤ 6 → ∃ t, exec .measurementExtend s = .next t ∧ (coreOf t d).u = (coreOf s d).u ∧ sysGet t d 610 = word n ∧
       msRead t n = sha256 (msRead s n ++ (List.range 8).flatMap fun i => wordBytes (sysGet s d (611 + i))) ∧
       ∀ m, m ≠ n → msRead t m = msRead s m)) ∧
    (let pa := (sysGet s 0 636).toNat + (sysGet s 0 637).toNat * 2 ^ 32
     let count := Config.signatureStart + s.dev.sigs
     ∃ t, exec .attestationQuote s = .next t ∧ t.mem = s.mem ∧
       (Config.signatureKeys ≤ count → t.dev = { s.dev with attstat := 3 }) ∧
       (count < Config.signatureKeys → memSize s < pa + 8192 → t.dev = { s.dev with attstat := 4 }) ∧
       (count < Config.signatureKeys → pa + 8192 ≤ memSize s → withoutKeys s = true → t.dev = { s.dev with attstat := 5 }) ∧
       (count < Config.signatureKeys → pa + 8192 ≤ memSize s → withoutKeys s = false →
         (s.dev.quote.isSome = true → t.dev = { s.dev with attstat := 6 }) ∧
         (s.dev.quote = none → t.dev.attstat = 1 ∧ ∃ covered, t.dev.quote = some (covered, pa)))) ∧
    (s.dev.quote = none → exec .attestationQuoteComplete s = .next s) ∧
    (∀ covered pa, s.dev.quote = some (covered, pa) → s.enc = [] → ∃ t sig, exec .attestationQuoteComplete s = .next t ∧
      sig.length = 5076 ∧ memRead t (pa + 64) (covered.length + 5080) = covered ++ leBytes 4 5076 ++ sig ∧
      t.dev = { s.dev with quote := none, sigs := s.dev.sigs + 1, attstat := 2 }) ∧
    (∃ t, exec .unlockVerify s = .next t ∧ t.dev.unlkstat = 1 ∧ t.mem = s.mem ∧ t.dev.debug = s.dev.debug) ∧
    (s.dev.unlkstat ≠ 1 → exec .unlockVerifyComplete s = .next s) ∧
    (s.dev.unlkstat = 1 → exec .unlockVerifyComplete s = .next { s with dev := { s.dev with unlkstat := tokenCode s s.dev.token } }) ∧
    (∃ t, exec .unlockCommit s = .next t ∧ t.dev.token = [] ∧
      (s.dev.unlkstat ≠ 2 → t.dev.unlkstat = 11 ∧ t.dev.debug = s.dev.debug) ∧
      (s.dev.unlkstat = 2 → allFree s = false → t.dev.unlkstat = 8 ∧ t.dev.debug = s.dev.debug) ∧
      (s.dev.unlkstat = 2 → allFree s = true → s.dev.keys ≠ [] → t.dev.unlkstat = 10 ∧ t.dev.debug = s.dev.debug) ∧
      (s.dev.unlkstat = 2 → allFree s = true → s.dev.keys = [] → t.dev.unlkstat = 9 ∧ t.dev.debug = true ∧ lifecycle t = 3 ∧
        (s.dev.nonces.length < 2 ^ 32 → nonceOf t ∉ s.dev.nonces) ∧
        msRead t 7 = sha256 (msRead s 7 ++ sha256 (s.dev.token.take 32)))) ∧
    (allFree s = false → exec .kwipe s = .next s) ∧
    (allFree s = true → ∃ t, exec .kwipe s = .next t ∧ t.dev.keys = [] ∧ ∀ e ∈ t.ctxs, ∀ n, (Sparse.get 0 e.2.kslot n).getLsbD 4 = false) ∧
    (∀ e ∈ ([(.checkpointSave, false), (.checkpointRestore, true)] : List (Instr × Bool)),
      (s.dev.ckptOp.isSome = true → exec e.1 s = .next s) ∧
      (s.dev.ckptOp = none → ∃ t, exec e.1 s = .next t ∧ t.mem = s.mem ∧ t.host = s.host ∧
        ((∃ c ∈ s.ctxs, c.2.st = 1 ∨ c.2.st = 2) → t.dev = { s.dev with ckptstat := 3 }) ∧
        ((∀ c ∈ s.ctxs, c.2.st ≠ 1 ∧ c.2.st ≠ 2) → t.dev.ckptstat = 1 ∧ ∃ a b, t.dev.ckptOp = some (e.2, a, b)))) ∧
    (∀ r a b, s.dev.ckptOp = some (r, a, b) → ∃ t n, exec .checkpointComplete s = .next t ∧ t.dev.ckptOp = none ∧
      t.dev.ckptstat = n ∧ (coreOf t 0).events = (coreOf s 0).events ++ [word (8 + n * 2 ^ 12)] ∧
      (let down : Prop := 0 ∈ s.dev.hostDown ∨ (s.chip = false ∧ 1 ∈ s.dev.hostDown)
       (d ≠ 0 ∨ down → n = 4 ∧ t.host = s.host) ∧ (d = 0 → ¬ down → r = false → n = 2 ∧ t.mem = s.mem))) ∧
    (d = 0 ∨ (d = 1 ∧ s.chip = false) →
      (∃ t, exec .hostLinkDown s = .next t ∧ d ∈ t.dev.hostDown ∧
        (s.dev.ckptOp.isSome = true → t.dev.ckptOp = none ∧ t.dev.ckptstat = 4) ∧
        (s.dev.ckptOp = none → t.mem = s.mem ∧
          ∀ p, p = (if d = 0 then 0 else 2) → (coreOf t p).events = (coreOf s p).events ++ [word (7 + d * 2 ^ 12)])) ∧
      ∃ t, exec .hostLinkRetrain s = .next t ∧ d ∉ t.dev.hostDown ∧ lifeRead t 5 d = up (lifeRead s 5 d)) ∧
    (d < 12 ∨ (d < 48 ∧ s.chip = false) →
      (∃ t, exec .linkDown s = .next t ∧ d ∈ t.dev.linkDown ∧
        (∀ n tm, Table.find s.teams n = some tm → Table.find t.teams n = some { tm with
          colls := tm.colls.map fun c =>
            if c.finished = false ∧ Config.treeLink (c.block.getD 1 0).toNat d = true then { c with aborted := true } else c }) ∧
        (coreOf t (d / 12)).events = (coreOf s (d / 12)).events ++ [word (4 + d * 2 ^ 12)]) ∧
      ∃ t, exec .sweliLinkRetrain s = .next t ∧ lifeRead t 4 d = up (lifeRead s 4 d)) ∧
    (d ≠ 0 → d ≠ 1 ∨ s.chip = true → exec .hostLinkDown s = .next s ∧ exec .hostLinkRetrain s = .next s) ∧
    (48 ≤ d ∨ (12 ≤ d ∧ s.chip = true) → exec .linkDown s = .next s ∧ exec .sweliLinkRetrain s = .next s) ∧
    (∀ pa, s.arg.err = .globalLine pa → ∃ t, exec .uncorrectableError s = .next t ∧ pa / 256 ∈ t.bad ∧
      t.teams = s.teams ∧ t.mem = s.mem) ∧
    (d = 0 ∨ (d < 4 ∧ s.chip = false) → s.arg.b < 256 → ∃ t, exec .correctedEccEvent s = .next t ∧
      lifeRead t 2 (256 * d + s.arg.b) = up (lifeRead s 2 (256 * d + s.arg.b)) ∧ t.mem = s.mem) ∧
    (∃ t, exec .supplyDroop s = .next t ∧ sysGet t d 632 = sysGet s d 632 + 1 ∧ t.mem = s.mem) ∧
    (∃ t, exec .managementControllerCap s = .next t ∧ t.dev = { s.dev with cap := s.arg.value }) ∧
    (∃ t, exec .lifetimeSecondTick s = .next t ∧
      (let n := min 15 ((d - 20000) / 8000)
       lifeRead t 0 n = up (lifeRead s 0 n) ∧ ∀ i, i ≠ n → lifeRead t 0 i = lifeRead s 0 i) ∧
      (let n := min 15 ((s.arg.b - 600) / 25)
       lifeRead t 1 n = up (lifeRead s 1 n) ∧ ∀ i, i ≠ n → lifeRead t 1 i = lifeRead s 1 i) ∧
      (s.dev.seconds = 3599 → lifeRead t 6 0 = up (lifeRead s 6 0) ∧ t.dev.seconds = 0) ∧
      (59 ≤ s.dev.unkept → t.dev.lifeKept = t.dev.life ∧ t.dev.unkept = 0) ∧
      (s.dev.unkept < 59 → t.dev.lifeKept = s.dev.lifeKept ∧ t.dev.unkept = s.dev.unkept + 1) ∧
      (s.dev.seconds < 3599 → lifeRead t 6 0 = lifeRead s 6 0 ∧ t.dev.seconds = s.dev.seconds + 1)) ∧
    exec .lifetimeCounterPersist s = .next { s with dev := { s.dev with lifeKept := s.dev.life, unkept := 0 } }


end
end

