-- ==== Sys2Proof/Laws/Aes.lean ====
section
/-!
SUPPORT. The memory cipher can be undone (13_control_core R427; 15_device R470).
-/

namespace Sys2Proof.Machine

theorem xor_leftComm (a b c : Byte) : a ^^^ (b ^^^ c) = b ^^^ (a ^^^ c) := by
  rw [← BitVec.xor_assoc, BitVec.xor_comm a b, BitVec.xor_assoc]

theorem xor_twice (a b : Byte) : a ^^^ (a ^^^ b) = b := by
  rw [← BitVec.xor_assoc, BitVec.xor_self, BitVec.zero_xor]

theorem gfDouble_xor (a b : Byte) : gfDouble (a ^^^ b) = gfDouble a ^^^ gfDouble b := by
  simp only [gfDouble, BitVec.shiftLeft_xor_distrib, BitVec.msb_xor]
  cases a.msb <;> cases b.msb <;> simp [BitVec.xor_assoc, BitVec.xor_comm, xor_leftComm]

/-! ### The byte substitution -/

/-- The substitution of every byte can be undone. -/
theorem unsubByte_all :
    ((List.range 256).all fun n => unsubByte (subByte (BitVec.ofNat 8 n)) == BitVec.ofNat 8 n) = true := by
  decide +kernel

theorem unsubByte_subByte (b : Byte) : unsubByte (subByte b) = b := by
  have h := unsubByte_all
  simp only [List.all_eq_true, List.mem_range, beq_iff_eq] at h
  have e := h b.toNat b.isLt
  rwa [BitVec.ofNat_toNat, BitVec.setWidth_eq] at e

/-! ### Blocks -/

@[simp] theorem length_aesBlock (f : Nat → Byte) : (aesBlock f).length = 16 := by simp [aesBlock]

theorem getD_aesBlock (f : Nat → Byte) {i : Nat} (h : i < 16) : (aesBlock f).getD i 0 = f i := by
  simp [aesBlock, List.getD_eq_getElem?_getD, h]

/-- A block is the list of its bytes. -/
theorem aesBlock_getD {b : List Byte} (h : b.length = 16) : aesBlock (fun i => b.getD i 0) = b := by
  apply List.ext_getElem (by simp [h])
  intro i h1 h2
  simp [aesBlock, h2]

/-- Two blocks agree when their bytes do. -/
theorem aesBlock_congr {f g : Nat → Byte} (h : ∀ i < 16, f i = g i) : aesBlock f = aesBlock g :=
  List.map_congr_left fun i hi => h i (List.mem_range.mp hi)

theorem aesAdd_aesAdd (k : List Byte) {b : List Byte} (h : b.length = 16) : aesAdd k (aesAdd k b) = b := by
  rw [← aesBlock_getD h]
  refine aesBlock_congr fun i hi => ?_
  simp only [aesAdd, getD_aesBlock _ hi, BitVec.xor_assoc, BitVec.xor_self, BitVec.xor_zero]

theorem aesUnsub_aesSub {b : List Byte} (h : b.length = 16) : aesUnsub (aesSub b) = b := by
  rw [← aesBlock_getD h]
  refine aesBlock_congr fun i hi => ?_
  have e : 5 * (13 * i % 16) % 16 = i := by omega
  simp only [aesSub, getD_aesBlock _ (Nat.mod_lt (13 * i) (by decide)), unsubByte_subByte, e, getD_aesBlock _ hi]

theorem inColumn_aesMix (b : List Byte) {i : Nat} (hi : i < 16) (k : Nat) :
    inColumn (aesMix b) i k = gfDouble (inColumn b i k) ^^^ (gfDouble (inColumn b i (k + 1)) ^^^ inColumn b i (k + 1)) ^^^
      inColumn b i (k + 2) ^^^ inColumn b i (k + 3) := by
  have lt : i / 4 * 4 + (i + k) % 4 < 16 := by omega
  have at' (j : Nat) : inColumn b (i / 4 * 4 + (i + k) % 4) j = inColumn b i (k + j) := by
    have e : (i / 4 * 4 + (i + k) % 4) / 4 * 4 + (i / 4 * 4 + (i + k) % 4 + j) % 4 = i / 4 * 4 + (i + (k + j)) % 4 := by
      omega
    simp only [inColumn, e]
  conv => lhs; unfold inColumn
  simp only [aesMix, getD_aesBlock _ lt, at', Nat.add_zero]

theorem inColumn_add_four (b : List Byte) (i k : Nat) : inColumn b i (k + 4) = inColumn b i k := by
  have e : (i + (k + 4)) % 4 = (i + k) % 4 := by omega
  simp only [inColumn, e]

theorem gf14_xor (a b : Byte) : gf14 (a ^^^ b) = gf14 a ^^^ gf14 b := by simp only [gf14, gfDouble_xor]; ac_rfl
theorem gf11_xor (a b : Byte) : gf11 (a ^^^ b) = gf11 a ^^^ gf11 b := by simp only [gf11, gfDouble_xor]; ac_rfl
theorem gf13_xor (a b : Byte) : gf13 (a ^^^ b) = gf13 a ^^^ gf13 b := by simp only [gf13, gfDouble_xor]; ac_rfl
theorem gf9_xor (a b : Byte) : gf9 (a ^^^ b) = gf9 a ^^^ gf9 b := by simp only [gf9, gfDouble_xor]; ac_rfl

/-- What each byte of a column adds to the first byte of the column mixed and undone: itself, or nothing. -/
theorem unmix_first (a : Byte) : gf14 (gfDouble a) ^^^ gf11 a ^^^ gf13 a ^^^ gf9 (gfDouble a ^^^ a) = a := by
  simp only [gf14, gf11, gf13, gf9, gfDouble_xor, BitVec.xor_assoc, BitVec.xor_comm, xor_leftComm, xor_twice,
    BitVec.xor_self, BitVec.xor_zero]
theorem unmix_second (b : Byte) : gf14 (gfDouble b ^^^ b) ^^^ gf11 (gfDouble b) ^^^ gf13 b ^^^ gf9 b = 0 := by
  simp only [gf14, gf11, gf13, gf9, gfDouble_xor, BitVec.xor_assoc, BitVec.xor_comm, xor_leftComm, xor_twice,
    BitVec.xor_self, BitVec.xor_zero]
  rfl
theorem unmix_third (c : Byte) : gf14 c ^^^ gf11 (gfDouble c ^^^ c) ^^^ gf13 (gfDouble c) ^^^ gf9 c = 0 := by
  simp only [gf14, gf11, gf13, gf9, gfDouble_xor, BitVec.xor_assoc, BitVec.xor_comm, xor_leftComm, xor_twice,
    BitVec.xor_self, BitVec.xor_zero]
  rfl
theorem unmix_fourth (d : Byte) : gf14 d ^^^ gf11 d ^^^ gf13 (gfDouble d ^^^ d) ^^^ gf9 (gfDouble d) = 0 := by
  simp only [gf14, gf11, gf13, gf9, gfDouble_xor, BitVec.xor_assoc, BitVec.xor_comm, xor_leftComm, xor_twice,
    BitVec.xor_self]
  rfl

/-- The column mix of four bytes, undone. -/
theorem unmix_mix (a b c d : Byte) :
    gf14 (gfDouble a ^^^ (gfDouble b ^^^ b) ^^^ c ^^^ d) ^^^ gf11 (gfDouble b ^^^ (gfDouble c ^^^ c) ^^^ d ^^^ a) ^^^
      gf13 (gfDouble c ^^^ (gfDouble d ^^^ d) ^^^ a ^^^ b) ^^^ gf9 (gfDouble d ^^^ (gfDouble a ^^^ a) ^^^ b ^^^ c) = a := by
  have e := congr (congrArg HXor.hXor (congr (congrArg HXor.hXor (unmix_first a)) (unmix_second b)))
    (congr (congrArg HXor.hXor (unmix_third c)) (unmix_fourth d))
  refine Eq.trans ?_ (e.trans (by simp))
  simp only [gf14_xor, gf11_xor, gf13_xor, gf9_xor]
  ac_rfl

theorem aesUnmix_aesMix {b : List Byte} (h : b.length = 16) : aesUnmix (aesMix b) = b := by
  rw [← aesBlock_getD h]
  refine aesBlock_congr fun i hi => ?_
  rw [aesBlock_getD h]
  have e (k : Nat) := inColumn_add_four b i k
  have z : inColumn b i 0 = b.getD i 0 := by
    have e : i / 4 * 4 + (i + 0) % 4 = i := by omega
    simp only [inColumn, e]
  simp only [inColumn_aesMix b hi, Nat.zero_add, Nat.reduceAdd, show inColumn b i 4 = _ from e 0,
    show inColumn b i 5 = _ from e 1, show inColumn b i 6 = _ from e 2]
  exact (unmix_mix _ _ _ _).trans z

@[simp] theorem length_aesAdd (k b : List Byte) : (aesAdd k b).length = 16 := length_aesBlock _
@[simp] theorem length_aesSub (b : List Byte) : (aesSub b).length = 16 := length_aesBlock _
@[simp] theorem length_aesMix (b : List Byte) : (aesMix b).length = 16 := length_aesBlock _

theorem aesUnrounds_aesRounds : ∀ (ks : List (List Byte)) {b : List Byte}, b.length = 16 →
    aesUnrounds ks (aesRounds ks b) = b
  | [], _, _ => rfl
  | k :: ks, b, h => by
    cases e : ks.isEmpty
    · simp only [aesRounds, aesUnrounds, e, Bool.false_eq_true, if_false]
      rw [aesUnrounds_aesRounds ks (length_aesAdd ..), aesAdd_aesAdd k (length_aesMix _), aesUnmix_aesMix (length_aesSub _),
        aesUnsub_aesSub h]
    · simp only [aesRounds, aesUnrounds, e, if_true]
      rw [aesAdd_aesAdd k (length_aesSub _), aesUnsub_aesSub h]

theorem aesDecrypt_aesEncrypt (key : List Byte) {b : List Byte} (h : b.length = 16) :
    aesDecrypt key (aesEncrypt key b) = b := by
  simp only [aesDecrypt, aesEncrypt]
  rw [aesUnrounds_aesRounds _ (length_aesAdd ..), aesAdd_aesAdd _ h]

theorem length_aesRounds : ∀ (ks : List (List Byte)) {b : List Byte}, b.length = 16 → (aesRounds ks b).length = 16
  | [], _, h => h
  | k :: ks, b, _ => by
    unfold aesRounds
    split
    · exact length_aesAdd ..
    · exact length_aesRounds ks (length_aesAdd ..)

/-- What a key enciphers, the same key deciphers (R427, R470). -/
theorem decipher_encipher (key unit : Nat) {bs : List Byte} (h : bs.length = 16) :
    decipher key unit (encipher key unit bs) = bs := by
  simp only [decipher, encipher]
  rw [aesAdd_aesAdd _ (b := aesEncrypt _ _) (length_aesRounds _ (length_aesAdd ..)), aesDecrypt_aesEncrypt _ (length_aesAdd ..), aesAdd_aesAdd _ h]

end Sys2Proof.Machine
end

