-- ==== Sys2Proof/Laws/Sparse.lean ====
section
/-!
SUPPORT. Sparse maps and tables: what a read answers after a write, and that a write keeps the canonical form.
-/

namespace Sys2Proof.Machine

variable {α : Type}

/-! ### Tables -/

theorem Table.find_append (a b : Table α) (k : Nat) :
    Table.find (a ++ b) k = (Table.find a k).orElse fun _ => Table.find b k := by
  induction a with
  | nil => rfl
  | cons e a ih =>
    obtain ⟨j, v⟩ := e
    by_cases h : j = k <;> simp [Table.find, h, ih]

/-- A filter on keys keeps the unit or removes it. -/
theorem Table.find_filter (m : Table α) (p : Nat → Bool) (k : Nat) :
    Table.find (m.filter fun e => p e.1) k = if p k then Table.find m k else none := by
  induction m with
  | nil => simp [Table.find]
  | cons e m ih =>
    obtain ⟨j, v⟩ := e
    by_cases hj : j = k
    · subst hj
      by_cases hp : p j <;> simp [Table.find, hp, ih]
    · by_cases hp : p j <;> simp [Table.find, hp, hj, ih]

/-- After a put, its own number finds what was put. -/
@[simp] theorem Table.find_put (m : Table α) (k : Nat) (v : α) : Table.find (Table.put m k v) k = some v := by
  induction m with
  | nil => simp [Table.put, Table.find]
  | cons e m ih =>
    obtain ⟨j, w⟩ := e
    simp only [Table.put]
    split
    · simp [Table.find, ih, show j ≠ k by omega]
    · split <;> simp [Table.find]

/-- A put changes no other number. -/
theorem Table.find_put_ne (m : Table α) {k j : Nat} (v : α) (h : j ≠ k) :
    Table.find (Table.put m k v) j = Table.find m j := by
  induction m with
  | nil => simp [Table.put, Table.find, Ne.symm h]
  | cons e m ih =>
    obtain ⟨i, w⟩ := e
    simp only [Table.put]
    split
    · simp [Table.find, ih]
    · split
      · next h2 => subst h2; simp [Table.find, Ne.symm h]
      · simp [Table.find, Ne.symm h]

/-- An update reaches the unit of its number. -/
@[simp] theorem Table.find_upd (m : Table α) (k : Nat) (f : α → α) :
    Table.find (Table.upd m k f) k = (Table.find m k).map f := by
  induction m with
  | nil => rfl
  | cons e m ih =>
    obtain ⟨j, v⟩ := e
    by_cases h : j = k
    · simp [Table.upd, Table.find, h]
    · simpa [Table.upd, Table.find, h] using ih

/-- An update changes no other number. -/
theorem Table.find_upd_ne (m : Table α) {k j : Nat} (f : α → α) (h : j ≠ k) :
    Table.find (Table.upd m k f) j = Table.find m j := by
  induction m with
  | nil => rfl
  | cons e m ih =>
    obtain ⟨i, v⟩ := e
    by_cases hi : i = k
    · subst hi
      simpa [Table.upd, Table.find, Ne.symm h] using ih
    · by_cases hj : i = j
      · subst hj; simp [Table.upd, Table.find, hi]
      · simpa [Table.upd, Table.find, hi, hj] using ih

/-! ### Reads after writes -/

theorem Sparse.getF_find (d : Nat → α) (m : Sparse α) (k : Nat) :
    Sparse.getF d m k = (Table.find m k).getD (d k) := by
  induction m with
  | nil => rfl
  | cons e m ih =>
    obtain ⟨j, v⟩ := e
    by_cases h : j = k <;> simp [Sparse.getF, Table.find, h, ih]

variable [DecidableEq α]

theorem Sparse.find_entries_lt (d : Nat → α) (vs : List α) : ∀ {k j : Nat}, j < k →
    Table.find (Sparse.entries d k vs) j = none := by
  induction vs with
  | nil => intros; rfl
  | cons v vs ih =>
    intro k j h
    simp only [Sparse.entries]
    split
    · exact ih (by omega)
    · simp [Table.find, show k ≠ j by omega, ih (show j < k + 1 by omega)]

theorem Sparse.find_entries (d : Nat → α) (vs : List α) : ∀ (k j : Nat),
    (Table.find (Sparse.entries d k vs) j).getD (d j) = if k ≤ j then (vs[j - k]?).getD (d j) else d j := by
  induction vs with
  | nil => intro k j; simp [Sparse.entries, Table.find]
  | cons v vs ih =>
    intro k j
    rcases Nat.lt_trichotomy j k with h | h | h
    · simp [Sparse.find_entries_lt d (v :: vs) h, show ¬ k ≤ j by omega]
    · subst h
      simp only [Sparse.entries]
      split
      · next hv => simp [Sparse.find_entries_lt d vs (show j < j + 1 by omega), hv]
      · simp [Table.find]
    · have e : j - k = (j - (k + 1)) + 1 := by omega
      simp only [Sparse.entries]
      split
      · simpa [show k + 1 ≤ j by omega, show k ≤ j by omega, e] using ih (k + 1) j
      · simpa [Table.find, show k ≠ j by omega, show k + 1 ≤ j by omega, show k ≤ j by omega, e] using ih (k + 1) j

/-- What one key reads as after a write of consecutive values. -/
theorem Sparse.getF_writeF (d : Nat → α) (m : Sparse α) (k : Nat) (vs : List α) (j : Nat) :
    Sparse.getF d (Sparse.writeF d m k vs) j =
      if k ≤ j ∧ j < k + vs.length then (vs[j - k]?).getD (d j) else Sparse.getF d m j := by
  have h1 := Table.find_filter m (fun i => decide (i < k)) j
  have h2 := Table.find_filter m (fun i => decide (k + vs.length ≤ i)) j
  have h3 := Sparse.find_entries d vs k j
  rw [Sparse.getF_find, Sparse.getF_find, Sparse.writeF, Table.find_append, Table.find_append, h1, h2]
  rcases Nat.lt_or_ge j k with h | h
  · have h4 := Sparse.find_entries_lt d vs h
    have : ¬ k + vs.length ≤ j := by omega
    cases hm : Table.find m j <;> simp [h, h4, this, show ¬ k ≤ j by omega]
  · by_cases hb : j < k + vs.length
    · have hn : ¬ k + vs.length ≤ j := by omega
      simp only [show ¬ j < k by omega, h, hb, hn, decide_false, and_self, if_true, Bool.false_eq_true,
        if_false] at h3 ⊢
      rw [← h3]
      cases Table.find (Sparse.entries d k vs) j <;> rfl
    · have hb' : vs[j - k]? = none := by simp; omega
      have hnone : Table.find (Sparse.entries d k vs) j = none ∨ Table.find (Sparse.entries d k vs) j = none := by
        refine .inl ?_
        clear h1 h2 h3 hb'
        induction vs generalizing k with
        | nil => rfl
        | cons v vs ih =>
          simp only [List.length_cons] at hb
          simp only [Sparse.entries]
          split
          · exact ih (k + 1) (by omega) (by omega)
          · simp [Table.find, show k ≠ j by omega, ih (k + 1) (by omega) (by omega)]
      have hn : k + vs.length ≤ j := by omega
      simp [show ¬ j < k by omega, hb, hn, hnone.elim id id]

omit [DecidableEq α] in
/-- The values of consecutive keys, one by one. -/
theorem Sparse.readF_eq (d : Nat → α) (m : Sparse α) (k n : Nat) :
    Sparse.readF d m k n = (List.range n).map fun i => Sparse.getF d m (k + i) := by
  unfold Sparse.readF
  refine List.map_congr_left fun i hi => ?_
  have h := Table.find_filter m (fun j => decide (k ≤ j) && decide (j < k + n)) (k + i)
  have hi' := List.mem_range.1 hi
  rw [Sparse.getF_find, Sparse.getF_find, h]
  simp [hi']

/-- A range that has just been written reads as written. -/
theorem Sparse.readF_writeF (d : Nat → α) (m : Sparse α) (k : Nat) (vs : List α) :
    Sparse.readF d (Sparse.writeF d m k vs) k vs.length = vs := by
  rw [Sparse.readF_eq]
  refine List.ext_getElem (by simp) fun i h1 h2 => ?_
  simp [Sparse.getF_writeF, h2]

@[simp] theorem Sparse.get_set (d : α) (m : Sparse α) (k : Nat) (v : α) : Sparse.get d (Sparse.set d m k v) k = v := by
  simp [Sparse.get, Sparse.set, Sparse.write, Sparse.getF_writeF]

theorem Sparse.get_set_ne (d : α) (m : Sparse α) {k j : Nat} (v : α) (h : j ≠ k) :
    Sparse.get d (Sparse.set d m k v) j = Sparse.get d m j := by
  rw [Sparse.get, Sparse.set, Sparse.write, Sparse.getF_writeF, if_neg (by simp; omega), Sparse.get]

/-! ### The canonical form -/

theorem Sparse.wfFrom_mono {d : Nat → α} {m : Sparse α} {lo hi : Nat} (h : Sparse.wfFrom d hi m = true) (hl : lo ≤ hi) :
    Sparse.wfFrom d lo m = true := by
  cases m with
  | nil => rfl
  | cons e m =>
    obtain ⟨j, v⟩ := e
    simp only [Sparse.wfFrom, Bool.and_eq_true, decide_eq_true_eq] at h ⊢
    exact ⟨⟨by omega, h.1.2⟩, h.2⟩

theorem Sparse.wfFrom_filter {d : Nat → α} (p : Nat × α → Bool) : ∀ {m : Sparse α} {lo : Nat},
    Sparse.wfFrom d lo m = true → Sparse.wfFrom d lo (m.filter p) = true := by
  intro m
  induction m with
  | nil => intro _ _; rfl
  | cons e m ih =>
    intro lo h
    obtain ⟨j, v⟩ := e
    simp only [Sparse.wfFrom, Bool.and_eq_true, decide_eq_true_eq] at h
    by_cases hp : p (j, v)
    · simp [hp, Sparse.wfFrom, h.1.1, h.1.2, ih h.2]
    · simp only [List.filter_cons, hp, Bool.false_eq_true, if_false]
      exact ih (Sparse.wfFrom_mono h.2 (by omega))

/-- Entries at or above a bound that the keys keep. -/
theorem Sparse.wfFrom_filter_ge {d : Nat → α} (k : Nat) : ∀ {m : Sparse α} {lo : Nat},
    Sparse.wfFrom d lo m = true → Sparse.wfFrom d k (m.filter fun e => decide (k ≤ e.1)) = true := by
  intro m
  induction m with
  | nil => intro _ _; rfl
  | cons e m ih =>
    intro lo h
    obtain ⟨j, v⟩ := e
    simp only [Sparse.wfFrom, Bool.and_eq_true, decide_eq_true_eq] at h
    by_cases hp : k ≤ j
    · simp [hp, Sparse.wfFrom, h.1.2, Sparse.wfFrom_filter _ h.2]
    · simpa [List.filter_cons, hp] using ih h.2

theorem Sparse.wfFrom_append {d : Nat → α} {b : Sparse α} {k : Nat} (hb : Sparse.wfFrom d k b = true) :
    ∀ {a : Sparse α} {lo : Nat}, Sparse.wfFrom d lo a = true → (∀ e ∈ a, e.1 < k) → lo ≤ k →
      Sparse.wfFrom d lo (a ++ b) = true := by
  intro a
  induction a with
  | nil => intro lo _ _ hl; exact Sparse.wfFrom_mono hb hl
  | cons e a ih =>
    intro lo h hk hl
    obtain ⟨j, v⟩ := e
    simp only [Sparse.wfFrom, Bool.and_eq_true, decide_eq_true_eq] at h
    have hj : j < k := hk (j, v) (by simp)
    simp [Sparse.wfFrom, h.1.1, h.1.2, ih h.2 (fun e he => hk e (by simp [he])) (by omega)]

theorem Sparse.wfFrom_entries (d : Nat → α) (vs : List α) : ∀ (k : Nat),
    Sparse.wfFrom d k (Sparse.entries d k vs) = true := by
  induction vs with
  | nil => intro k; rfl
  | cons v vs ih =>
    intro k
    simp only [Sparse.entries]
    split
    · exact Sparse.wfFrom_mono (ih (k + 1)) (by omega)
    · next hv => simp [Sparse.wfFrom, hv, ih (k + 1)]

theorem Sparse.entries_lt (d : Nat → α) (vs : List α) : ∀ (k : Nat), ∀ e ∈ Sparse.entries d k vs, e.1 < k + vs.length := by
  induction vs with
  | nil => intro k e he; simp [Sparse.entries] at he
  | cons v vs ih =>
    intro k e he
    simp only [Sparse.entries] at he
    split at he
    · have := ih (k + 1) e he; simp; omega
    · rcases List.mem_cons.1 he with h | h
      · subst h; simp
      · have := ih (k + 1) e h; simp; omega

/-- A write keeps the canonical form. -/
theorem Sparse.wfFrom_writeF {d : Nat → α} {m : Sparse α} (h : Sparse.wfFrom d 0 m = true) (k : Nat) (vs : List α) :
    Sparse.wfFrom d 0 (Sparse.writeF d m k vs) = true := by
  refine Sparse.wfFrom_append (k := k) ?_ (Sparse.wfFrom_filter _ h) (by simp) (Nat.zero_le k)
  refine Sparse.wfFrom_append (k := k + vs.length) (Sparse.wfFrom_filter_ge _ h) (Sparse.wfFrom_entries d vs k)
    (Sparse.entries_lt d vs k) (by omega)

theorem Sparse.wf_write {d : α} {m : Sparse α} (h : Sparse.wf d m = true) (k : Nat) (vs : List α) :
    Sparse.wf d (Sparse.write d m k vs) = true := Sparse.wfFrom_writeF h k vs

theorem Sparse.wf_set {d : α} {m : Sparse α} (h : Sparse.wf d m = true) (k : Nat) (v : α) :
    Sparse.wf d (Sparse.set d m k v) = true := Sparse.wf_write h k [v]

end Sys2Proof.Machine
end

