-- ==== Sys2Proof/Laws/State.lean ====
section
/-!
SUPPORT. What each update of the state leaves in each field: one lemma for every update and field.
-/

namespace Sys2Proof.Machine

/-! ### `updGroup` -/

@[simp] theorem updGroup_script (s : State) (g : Nat) (f : Group → Group) : (updGroup s g f).script = s.script := rfl
@[simp] theorem updGroup_actor (s : State) (g : Nat) (f : Group → Group) : (updGroup s g f).actor = s.actor := rfl
@[simp] theorem updGroup_arg (s : State) (g : Nat) (f : Group → Group) : (updGroup s g f).arg = s.arg := rfl
@[simp] theorem updGroup_ticks (s : State) (g : Nat) (f : Group → Group) : (updGroup s g f).ticks = s.ticks := rfl
@[simp] theorem updGroup_fresh (s : State) (g : Nat) (f : Group → Group) : (updGroup s g f).fresh = s.fresh := rfl
@[simp] theorem updGroup_prog (s : State) (g : Nat) (f : Group → Group) : (updGroup s g f).prog = s.prog := rfl
@[simp] theorem updGroup_lost (s : State) (g : Nat) (f : Group → Group) : (updGroup s g f).lost = s.lost := rfl
@[simp] theorem updGroup_chip (s : State) (g : Nat) (f : Group → Group) : (updGroup s g f).chip = s.chip := rfl
@[simp] theorem updGroup_mem (s : State) (g : Nat) (f : Group → Group) : (updGroup s g f).mem = s.mem := rfl
@[simp] theorem updGroup_enc (s : State) (g : Nat) (f : Group → Group) : (updGroup s g f).enc = s.enc := rfl
@[simp] theorem updGroup_bad (s : State) (g : Nat) (f : Group → Group) : (updGroup s g f).bad = s.bad := rfl
@[simp] theorem updGroup_host (s : State) (g : Nat) (f : Group → Group) : (updGroup s g f).host = s.host := rfl
@[simp] theorem updGroup_flash (s : State) (g : Nat) (f : Group → Group) : (updGroup s g f).flash = s.flash := rfl
@[simp] theorem updGroup_doms (s : State) (g : Nat) (f : Group → Group) : (updGroup s g f).doms = s.doms := rfl
@[simp] theorem updGroup_launches (s : State) (g : Nat) (f : Group → Group) :
    (updGroup s g f).launches = s.launches := rfl
@[simp] theorem updGroup_tasks (s : State) (g : Nat) (f : Group → Group) : (updGroup s g f).tasks = s.tasks := rfl
@[simp] theorem updGroup_teams (s : State) (g : Nat) (f : Group → Group) : (updGroup s g f).teams = s.teams := rfl
@[simp] theorem updGroup_groups (s : State) (g : Nat) (f : Group → Group) :
    (updGroup s g f).groups = Table.upd s.groups g f := rfl
@[simp] theorem updGroup_cmds (s : State) (g : Nat) (f : Group → Group) : (updGroup s g f).cmds = s.cmds := rfl
@[simp] theorem updGroup_effects (s : State) (g : Nat) (f : Group → Group) :
    (updGroup s g f).effects = s.effects := rfl
@[simp] theorem updGroup_conts (s : State) (g : Nat) (f : Group → Group) : (updGroup s g f).conts = s.conts := rfl
@[simp] theorem updGroup_ports (s : State) (g : Nat) (f : Group → Group) : (updGroup s g f).ports = s.ports := rfl
@[simp] theorem updGroup_patterns (s : State) (g : Nat) (f : Group → Group) :
    (updGroup s g f).patterns = s.patterns := rfl
@[simp] theorem updGroup_phasers (s : State) (g : Nat) (f : Group → Group) :
    (updGroup s g f).phasers = s.phasers := rfl
@[simp] theorem updGroup_gens (s : State) (g : Nat) (f : Group → Group) : (updGroup s g f).gens = s.gens := rfl
@[simp] theorem updGroup_ctxs (s : State) (g : Nat) (f : Group → Group) : (updGroup s g f).ctxs = s.ctxs := rfl
@[simp] theorem updGroup_cores (s : State) (g : Nat) (f : Group → Group) : (updGroup s g f).cores = s.cores := rfl
@[simp] theorem updGroup_comps (s : State) (g : Nat) (f : Group → Group) : (updGroup s g f).comps = s.comps := rfl
@[simp] theorem updGroup_accs (s : State) (g : Nat) (f : Group → Group) : (updGroup s g f).accs = s.accs := rfl
@[simp] theorem updGroup_rounds (s : State) (g : Nat) (f : Group → Group) : (updGroup s g f).rounds = s.rounds := rfl
@[simp] theorem updGroup_gtab (s : State) (g : Nat) (f : Group → Group) : (updGroup s g f).gtab = s.gtab := rfl
@[simp] theorem updGroup_rtab (s : State) (g : Nat) (f : Group → Group) : (updGroup s g f).rtab = s.rtab := rfl
@[simp] theorem updGroup_trees (s : State) (g : Nat) (f : Group → Group) : (updGroup s g f).trees = s.trees := rfl
@[simp] theorem updGroup_collN (s : State) (g : Nat) (f : Group → Group) : (updGroup s g f).collN = s.collN := rfl
@[simp] theorem updGroup_saved (s : State) (g : Nat) (f : Group → Group) : (updGroup s g f).saved = s.saved := rfl
@[simp] theorem updGroup_dev (s : State) (g : Nat) (f : Group → Group) : (updGroup s g f).dev = s.dev := rfl

/-! ### `updSplit` -/

@[simp] theorem updSplit_script (s : State) (g x : Nat) (f : Split → Split) :
    (updSplit s g x f).script = s.script := rfl
@[simp] theorem updSplit_actor (s : State) (g x : Nat) (f : Split → Split) : (updSplit s g x f).actor = s.actor := rfl
@[simp] theorem updSplit_arg (s : State) (g x : Nat) (f : Split → Split) : (updSplit s g x f).arg = s.arg := rfl
@[simp] theorem updSplit_ticks (s : State) (g x : Nat) (f : Split → Split) : (updSplit s g x f).ticks = s.ticks := rfl
@[simp] theorem updSplit_fresh (s : State) (g x : Nat) (f : Split → Split) : (updSplit s g x f).fresh = s.fresh := rfl
@[simp] theorem updSplit_prog (s : State) (g x : Nat) (f : Split → Split) : (updSplit s g x f).prog = s.prog := rfl
@[simp] theorem updSplit_lost (s : State) (g x : Nat) (f : Split → Split) : (updSplit s g x f).lost = s.lost := rfl
@[simp] theorem updSplit_chip (s : State) (g x : Nat) (f : Split → Split) : (updSplit s g x f).chip = s.chip := rfl
@[simp] theorem updSplit_mem (s : State) (g x : Nat) (f : Split → Split) : (updSplit s g x f).mem = s.mem := rfl
@[simp] theorem updSplit_enc (s : State) (g x : Nat) (f : Split → Split) : (updSplit s g x f).enc = s.enc := rfl
@[simp] theorem updSplit_bad (s : State) (g x : Nat) (f : Split → Split) : (updSplit s g x f).bad = s.bad := rfl
@[simp] theorem updSplit_host (s : State) (g x : Nat) (f : Split → Split) : (updSplit s g x f).host = s.host := rfl
@[simp] theorem updSplit_flash (s : State) (g x : Nat) (f : Split → Split) : (updSplit s g x f).flash = s.flash := rfl
@[simp] theorem updSplit_doms (s : State) (g x : Nat) (f : Split → Split) : (updSplit s g x f).doms = s.doms := rfl
@[simp] theorem updSplit_launches (s : State) (g x : Nat) (f : Split → Split) :
    (updSplit s g x f).launches = s.launches := rfl
@[simp] theorem updSplit_tasks (s : State) (g x : Nat) (f : Split → Split) : (updSplit s g x f).tasks = s.tasks := rfl
@[simp] theorem updSplit_teams (s : State) (g x : Nat) (f : Split → Split) : (updSplit s g x f).teams = s.teams := rfl
@[simp] theorem updSplit_groups (s : State) (g x : Nat) (f : Split → Split) :
    (updSplit s g x f).groups = Table.upd s.groups g fun grp => { grp with splits := Table.upd grp.splits x f } := rfl
@[simp] theorem updSplit_cmds (s : State) (g x : Nat) (f : Split → Split) : (updSplit s g x f).cmds = s.cmds := rfl
@[simp] theorem updSplit_effects (s : State) (g x : Nat) (f : Split → Split) :
    (updSplit s g x f).effects = s.effects := rfl
@[simp] theorem updSplit_conts (s : State) (g x : Nat) (f : Split → Split) : (updSplit s g x f).conts = s.conts := rfl
@[simp] theorem updSplit_ports (s : State) (g x : Nat) (f : Split → Split) : (updSplit s g x f).ports = s.ports := rfl
@[simp] theorem updSplit_patterns (s : State) (g x : Nat) (f : Split → Split) :
    (updSplit s g x f).patterns = s.patterns := rfl
@[simp] theorem updSplit_phasers (s : State) (g x : Nat) (f : Split → Split) :
    (updSplit s g x f).phasers = s.phasers := rfl
@[simp] theorem updSplit_gens (s : State) (g x : Nat) (f : Split → Split) : (updSplit s g x f).gens = s.gens := rfl
@[simp] theorem updSplit_ctxs (s : State) (g x : Nat) (f : Split → Split) : (updSplit s g x f).ctxs = s.ctxs := rfl
@[simp] theorem updSplit_cores (s : State) (g x : Nat) (f : Split → Split) : (updSplit s g x f).cores = s.cores := rfl
@[simp] theorem updSplit_comps (s : State) (g x : Nat) (f : Split → Split) : (updSplit s g x f).comps = s.comps := rfl
@[simp] theorem updSplit_accs (s : State) (g x : Nat) (f : Split → Split) : (updSplit s g x f).accs = s.accs := rfl
@[simp] theorem updSplit_rounds (s : State) (g x : Nat) (f : Split → Split) :
    (updSplit s g x f).rounds = s.rounds := rfl
@[simp] theorem updSplit_gtab (s : State) (g x : Nat) (f : Split → Split) : (updSplit s g x f).gtab = s.gtab := rfl
@[simp] theorem updSplit_rtab (s : State) (g x : Nat) (f : Split → Split) : (updSplit s g x f).rtab = s.rtab := rfl
@[simp] theorem updSplit_trees (s : State) (g x : Nat) (f : Split → Split) : (updSplit s g x f).trees = s.trees := rfl
@[simp] theorem updSplit_collN (s : State) (g x : Nat) (f : Split → Split) : (updSplit s g x f).collN = s.collN := rfl
@[simp] theorem updSplit_saved (s : State) (g x : Nat) (f : Split → Split) : (updSplit s g x f).saved = s.saved := rfl
@[simp] theorem updSplit_dev (s : State) (g x : Nat) (f : Split → Split) : (updSplit s g x f).dev = s.dev := rfl

/-! ### `updTeam` -/

@[simp] theorem updTeam_script (s : State) (t : Nat) (f : Team → Team) : (updTeam s t f).script = s.script := rfl
@[simp] theorem updTeam_actor (s : State) (t : Nat) (f : Team → Team) : (updTeam s t f).actor = s.actor := rfl
@[simp] theorem updTeam_arg (s : State) (t : Nat) (f : Team → Team) : (updTeam s t f).arg = s.arg := rfl
@[simp] theorem updTeam_ticks (s : State) (t : Nat) (f : Team → Team) : (updTeam s t f).ticks = s.ticks := rfl
@[simp] theorem updTeam_fresh (s : State) (t : Nat) (f : Team → Team) : (updTeam s t f).fresh = s.fresh := rfl
@[simp] theorem updTeam_prog (s : State) (t : Nat) (f : Team → Team) : (updTeam s t f).prog = s.prog := rfl
@[simp] theorem updTeam_lost (s : State) (t : Nat) (f : Team → Team) : (updTeam s t f).lost = s.lost := rfl
@[simp] theorem updTeam_chip (s : State) (t : Nat) (f : Team → Team) : (updTeam s t f).chip = s.chip := rfl
@[simp] theorem updTeam_mem (s : State) (t : Nat) (f : Team → Team) : (updTeam s t f).mem = s.mem := rfl
@[simp] theorem updTeam_enc (s : State) (t : Nat) (f : Team → Team) : (updTeam s t f).enc = s.enc := rfl
@[simp] theorem updTeam_bad (s : State) (t : Nat) (f : Team → Team) : (updTeam s t f).bad = s.bad := rfl
@[simp] theorem updTeam_host (s : State) (t : Nat) (f : Team → Team) : (updTeam s t f).host = s.host := rfl
@[simp] theorem updTeam_flash (s : State) (t : Nat) (f : Team → Team) : (updTeam s t f).flash = s.flash := rfl
@[simp] theorem updTeam_doms (s : State) (t : Nat) (f : Team → Team) : (updTeam s t f).doms = s.doms := rfl
@[simp] theorem updTeam_launches (s : State) (t : Nat) (f : Team → Team) :
    (updTeam s t f).launches = s.launches := rfl
@[simp] theorem updTeam_tasks (s : State) (t : Nat) (f : Team → Team) : (updTeam s t f).tasks = s.tasks := rfl
@[simp] theorem updTeam_teams (s : State) (t : Nat) (f : Team → Team) :
    (updTeam s t f).teams = Table.upd s.teams t f := rfl
@[simp] theorem updTeam_groups (s : State) (t : Nat) (f : Team → Team) : (updTeam s t f).groups = s.groups := rfl
@[simp] theorem updTeam_cmds (s : State) (t : Nat) (f : Team → Team) : (updTeam s t f).cmds = s.cmds := rfl
@[simp] theorem updTeam_effects (s : State) (t : Nat) (f : Team → Team) : (updTeam s t f).effects = s.effects := rfl
@[simp] theorem updTeam_conts (s : State) (t : Nat) (f : Team → Team) : (updTeam s t f).conts = s.conts := rfl
@[simp] theorem updTeam_ports (s : State) (t : Nat) (f : Team → Team) : (updTeam s t f).ports = s.ports := rfl
@[simp] theorem updTeam_patterns (s : State) (t : Nat) (f : Team → Team) :
    (updTeam s t f).patterns = s.patterns := rfl
@[simp] theorem updTeam_phasers (s : State) (t : Nat) (f : Team → Team) : (updTeam s t f).phasers = s.phasers := rfl
@[simp] theorem updTeam_gens (s : State) (t : Nat) (f : Team → Team) : (updTeam s t f).gens = s.gens := rfl
@[simp] theorem updTeam_ctxs (s : State) (t : Nat) (f : Team → Team) : (updTeam s t f).ctxs = s.ctxs := rfl
@[simp] theorem updTeam_cores (s : State) (t : Nat) (f : Team → Team) : (updTeam s t f).cores = s.cores := rfl
@[simp] theorem updTeam_comps (s : State) (t : Nat) (f : Team → Team) : (updTeam s t f).comps = s.comps := rfl
@[simp] theorem updTeam_accs (s : State) (t : Nat) (f : Team → Team) : (updTeam s t f).accs = s.accs := rfl
@[simp] theorem updTeam_rounds (s : State) (t : Nat) (f : Team → Team) : (updTeam s t f).rounds = s.rounds := rfl
@[simp] theorem updTeam_gtab (s : State) (t : Nat) (f : Team → Team) : (updTeam s t f).gtab = s.gtab := rfl
@[simp] theorem updTeam_rtab (s : State) (t : Nat) (f : Team → Team) : (updTeam s t f).rtab = s.rtab := rfl
@[simp] theorem updTeam_trees (s : State) (t : Nat) (f : Team → Team) : (updTeam s t f).trees = s.trees := rfl
@[simp] theorem updTeam_collN (s : State) (t : Nat) (f : Team → Team) : (updTeam s t f).collN = s.collN := rfl
@[simp] theorem updTeam_saved (s : State) (t : Nat) (f : Team → Team) : (updTeam s t f).saved = s.saved := rfl
@[simp] theorem updTeam_dev (s : State) (t : Nat) (f : Team → Team) : (updTeam s t f).dev = s.dev := rfl

/-! ### `updBar` -/

@[simp] theorem updBar_script (s : State) (t b : Nat) (f : Bar → Bar) : (updBar s t b f).script = s.script := rfl
@[simp] theorem updBar_actor (s : State) (t b : Nat) (f : Bar → Bar) : (updBar s t b f).actor = s.actor := rfl
@[simp] theorem updBar_arg (s : State) (t b : Nat) (f : Bar → Bar) : (updBar s t b f).arg = s.arg := rfl
@[simp] theorem updBar_ticks (s : State) (t b : Nat) (f : Bar → Bar) : (updBar s t b f).ticks = s.ticks := rfl
@[simp] theorem updBar_fresh (s : State) (t b : Nat) (f : Bar → Bar) : (updBar s t b f).fresh = s.fresh := rfl
@[simp] theorem updBar_prog (s : State) (t b : Nat) (f : Bar → Bar) : (updBar s t b f).prog = s.prog := rfl
@[simp] theorem updBar_lost (s : State) (t b : Nat) (f : Bar → Bar) : (updBar s t b f).lost = s.lost := rfl
@[simp] theorem updBar_chip (s : State) (t b : Nat) (f : Bar → Bar) : (updBar s t b f).chip = s.chip := rfl
@[simp] theorem updBar_mem (s : State) (t b : Nat) (f : Bar → Bar) : (updBar s t b f).mem = s.mem := rfl
@[simp] theorem updBar_enc (s : State) (t b : Nat) (f : Bar → Bar) : (updBar s t b f).enc = s.enc := rfl
@[simp] theorem updBar_bad (s : State) (t b : Nat) (f : Bar → Bar) : (updBar s t b f).bad = s.bad := rfl
@[simp] theorem updBar_host (s : State) (t b : Nat) (f : Bar → Bar) : (updBar s t b f).host = s.host := rfl
@[simp] theorem updBar_flash (s : State) (t b : Nat) (f : Bar → Bar) : (updBar s t b f).flash = s.flash := rfl
@[simp] theorem updBar_doms (s : State) (t b : Nat) (f : Bar → Bar) : (updBar s t b f).doms = s.doms := rfl
@[simp] theorem updBar_launches (s : State) (t b : Nat) (f : Bar → Bar) :
    (updBar s t b f).launches = s.launches := rfl
@[simp] theorem updBar_tasks (s : State) (t b : Nat) (f : Bar → Bar) : (updBar s t b f).tasks = s.tasks := rfl
@[simp] theorem updBar_teams (s : State) (t b : Nat) (f : Bar → Bar) :
    (updBar s t b f).teams = Table.upd s.teams t fun tm => { tm with bars := Table.put tm.bars b (f (barOf tm b)) } := rfl
@[simp] theorem updBar_groups (s : State) (t b : Nat) (f : Bar → Bar) : (updBar s t b f).groups = s.groups := rfl
@[simp] theorem updBar_cmds (s : State) (t b : Nat) (f : Bar → Bar) : (updBar s t b f).cmds = s.cmds := rfl
@[simp] theorem updBar_effects (s : State) (t b : Nat) (f : Bar → Bar) : (updBar s t b f).effects = s.effects := rfl
@[simp] theorem updBar_conts (s : State) (t b : Nat) (f : Bar → Bar) : (updBar s t b f).conts = s.conts := rfl
@[simp] theorem updBar_ports (s : State) (t b : Nat) (f : Bar → Bar) : (updBar s t b f).ports = s.ports := rfl
@[simp] theorem updBar_patterns (s : State) (t b : Nat) (f : Bar → Bar) :
    (updBar s t b f).patterns = s.patterns := rfl
@[simp] theorem updBar_phasers (s : State) (t b : Nat) (f : Bar → Bar) : (updBar s t b f).phasers = s.phasers := rfl
@[simp] theorem updBar_gens (s : State) (t b : Nat) (f : Bar → Bar) : (updBar s t b f).gens = s.gens := rfl
@[simp] theorem updBar_ctxs (s : State) (t b : Nat) (f : Bar → Bar) : (updBar s t b f).ctxs = s.ctxs := rfl
@[simp] theorem updBar_cores (s : State) (t b : Nat) (f : Bar → Bar) : (updBar s t b f).cores = s.cores := rfl
@[simp] theorem updBar_comps (s : State) (t b : Nat) (f : Bar → Bar) : (updBar s t b f).comps = s.comps := rfl
@[simp] theorem updBar_accs (s : State) (t b : Nat) (f : Bar → Bar) : (updBar s t b f).accs = s.accs := rfl
@[simp] theorem updBar_rounds (s : State) (t b : Nat) (f : Bar → Bar) : (updBar s t b f).rounds = s.rounds := rfl
@[simp] theorem updBar_gtab (s : State) (t b : Nat) (f : Bar → Bar) : (updBar s t b f).gtab = s.gtab := rfl
@[simp] theorem updBar_rtab (s : State) (t b : Nat) (f : Bar → Bar) : (updBar s t b f).rtab = s.rtab := rfl
@[simp] theorem updBar_trees (s : State) (t b : Nat) (f : Bar → Bar) : (updBar s t b f).trees = s.trees := rfl
@[simp] theorem updBar_collN (s : State) (t b : Nat) (f : Bar → Bar) : (updBar s t b f).collN = s.collN := rfl
@[simp] theorem updBar_saved (s : State) (t b : Nat) (f : Bar → Bar) : (updBar s t b f).saved = s.saved := rfl
@[simp] theorem updBar_dev (s : State) (t b : Nat) (f : Bar → Bar) : (updBar s t b f).dev = s.dev := rfl

/-! ### `updTask` -/

@[simp] theorem updTask_script (s : State) (k : Nat) (f : Task → Task) : (updTask s k f).script = s.script := rfl
@[simp] theorem updTask_actor (s : State) (k : Nat) (f : Task → Task) : (updTask s k f).actor = s.actor := rfl
@[simp] theorem updTask_arg (s : State) (k : Nat) (f : Task → Task) : (updTask s k f).arg = s.arg := rfl
@[simp] theorem updTask_ticks (s : State) (k : Nat) (f : Task → Task) : (updTask s k f).ticks = s.ticks := rfl
@[simp] theorem updTask_fresh (s : State) (k : Nat) (f : Task → Task) : (updTask s k f).fresh = s.fresh := rfl
@[simp] theorem updTask_prog (s : State) (k : Nat) (f : Task → Task) : (updTask s k f).prog = s.prog := rfl
@[simp] theorem updTask_lost (s : State) (k : Nat) (f : Task → Task) : (updTask s k f).lost = s.lost := rfl
@[simp] theorem updTask_chip (s : State) (k : Nat) (f : Task → Task) : (updTask s k f).chip = s.chip := rfl
@[simp] theorem updTask_mem (s : State) (k : Nat) (f : Task → Task) : (updTask s k f).mem = s.mem := rfl
@[simp] theorem updTask_enc (s : State) (k : Nat) (f : Task → Task) : (updTask s k f).enc = s.enc := rfl
@[simp] theorem updTask_bad (s : State) (k : Nat) (f : Task → Task) : (updTask s k f).bad = s.bad := rfl
@[simp] theorem updTask_host (s : State) (k : Nat) (f : Task → Task) : (updTask s k f).host = s.host := rfl
@[simp] theorem updTask_flash (s : State) (k : Nat) (f : Task → Task) : (updTask s k f).flash = s.flash := rfl
@[simp] theorem updTask_doms (s : State) (k : Nat) (f : Task → Task) : (updTask s k f).doms = s.doms := rfl
@[simp] theorem updTask_launches (s : State) (k : Nat) (f : Task → Task) :
    (updTask s k f).launches = s.launches := rfl
@[simp] theorem updTask_tasks (s : State) (k : Nat) (f : Task → Task) :
    (updTask s k f).tasks = Table.upd s.tasks k f := rfl
@[simp] theorem updTask_teams (s : State) (k : Nat) (f : Task → Task) : (updTask s k f).teams = s.teams := rfl
@[simp] theorem updTask_groups (s : State) (k : Nat) (f : Task → Task) : (updTask s k f).groups = s.groups := rfl
@[simp] theorem updTask_cmds (s : State) (k : Nat) (f : Task → Task) : (updTask s k f).cmds = s.cmds := rfl
@[simp] theorem updTask_effects (s : State) (k : Nat) (f : Task → Task) : (updTask s k f).effects = s.effects := rfl
@[simp] theorem updTask_conts (s : State) (k : Nat) (f : Task → Task) : (updTask s k f).conts = s.conts := rfl
@[simp] theorem updTask_ports (s : State) (k : Nat) (f : Task → Task) : (updTask s k f).ports = s.ports := rfl
@[simp] theorem updTask_patterns (s : State) (k : Nat) (f : Task → Task) :
    (updTask s k f).patterns = s.patterns := rfl
@[simp] theorem updTask_phasers (s : State) (k : Nat) (f : Task → Task) : (updTask s k f).phasers = s.phasers := rfl
@[simp] theorem updTask_gens (s : State) (k : Nat) (f : Task → Task) : (updTask s k f).gens = s.gens := rfl
@[simp] theorem updTask_ctxs (s : State) (k : Nat) (f : Task → Task) : (updTask s k f).ctxs = s.ctxs := rfl
@[simp] theorem updTask_cores (s : State) (k : Nat) (f : Task → Task) : (updTask s k f).cores = s.cores := rfl
@[simp] theorem updTask_comps (s : State) (k : Nat) (f : Task → Task) : (updTask s k f).comps = s.comps := rfl
@[simp] theorem updTask_accs (s : State) (k : Nat) (f : Task → Task) : (updTask s k f).accs = s.accs := rfl
@[simp] theorem updTask_rounds (s : State) (k : Nat) (f : Task → Task) : (updTask s k f).rounds = s.rounds := rfl
@[simp] theorem updTask_gtab (s : State) (k : Nat) (f : Task → Task) : (updTask s k f).gtab = s.gtab := rfl
@[simp] theorem updTask_rtab (s : State) (k : Nat) (f : Task → Task) : (updTask s k f).rtab = s.rtab := rfl
@[simp] theorem updTask_trees (s : State) (k : Nat) (f : Task → Task) : (updTask s k f).trees = s.trees := rfl
@[simp] theorem updTask_collN (s : State) (k : Nat) (f : Task → Task) : (updTask s k f).collN = s.collN := rfl
@[simp] theorem updTask_saved (s : State) (k : Nat) (f : Task → Task) : (updTask s k f).saved = s.saved := rfl
@[simp] theorem updTask_dev (s : State) (k : Nat) (f : Task → Task) : (updTask s k f).dev = s.dev := rfl

/-! ### `updLaunch` -/

@[simp] theorem updLaunch_script (s : State) (l : Nat) (f : Launch → Launch) :
    (updLaunch s l f).script = s.script := rfl
@[simp] theorem updLaunch_actor (s : State) (l : Nat) (f : Launch → Launch) : (updLaunch s l f).actor = s.actor := rfl
@[simp] theorem updLaunch_arg (s : State) (l : Nat) (f : Launch → Launch) : (updLaunch s l f).arg = s.arg := rfl
@[simp] theorem updLaunch_ticks (s : State) (l : Nat) (f : Launch → Launch) : (updLaunch s l f).ticks = s.ticks := rfl
@[simp] theorem updLaunch_fresh (s : State) (l : Nat) (f : Launch → Launch) : (updLaunch s l f).fresh = s.fresh := rfl
@[simp] theorem updLaunch_prog (s : State) (l : Nat) (f : Launch → Launch) : (updLaunch s l f).prog = s.prog := rfl
@[simp] theorem updLaunch_lost (s : State) (l : Nat) (f : Launch → Launch) : (updLaunch s l f).lost = s.lost := rfl
@[simp] theorem updLaunch_chip (s : State) (l : Nat) (f : Launch → Launch) : (updLaunch s l f).chip = s.chip := rfl
@[simp] theorem updLaunch_mem (s : State) (l : Nat) (f : Launch → Launch) : (updLaunch s l f).mem = s.mem := rfl
@[simp] theorem updLaunch_enc (s : State) (l : Nat) (f : Launch → Launch) : (updLaunch s l f).enc = s.enc := rfl
@[simp] theorem updLaunch_bad (s : State) (l : Nat) (f : Launch → Launch) : (updLaunch s l f).bad = s.bad := rfl
@[simp] theorem updLaunch_host (s : State) (l : Nat) (f : Launch → Launch) : (updLaunch s l f).host = s.host := rfl
@[simp] theorem updLaunch_flash (s : State) (l : Nat) (f : Launch → Launch) : (updLaunch s l f).flash = s.flash := rfl
@[simp] theorem updLaunch_doms (s : State) (l : Nat) (f : Launch → Launch) : (updLaunch s l f).doms = s.doms := rfl
@[simp] theorem updLaunch_launches (s : State) (l : Nat) (f : Launch → Launch) :
    (updLaunch s l f).launches = Table.upd s.launches l f := rfl
@[simp] theorem updLaunch_tasks (s : State) (l : Nat) (f : Launch → Launch) : (updLaunch s l f).tasks = s.tasks := rfl
@[simp] theorem updLaunch_teams (s : State) (l : Nat) (f : Launch → Launch) : (updLaunch s l f).teams = s.teams := rfl
@[simp] theorem updLaunch_groups (s : State) (l : Nat) (f : Launch → Launch) :
    (updLaunch s l f).groups = s.groups := rfl
@[simp] theorem updLaunch_cmds (s : State) (l : Nat) (f : Launch → Launch) : (updLaunch s l f).cmds = s.cmds := rfl
@[simp] theorem updLaunch_effects (s : State) (l : Nat) (f : Launch → Launch) :
    (updLaunch s l f).effects = s.effects := rfl
@[simp] theorem updLaunch_conts (s : State) (l : Nat) (f : Launch → Launch) : (updLaunch s l f).conts = s.conts := rfl
@[simp] theorem updLaunch_ports (s : State) (l : Nat) (f : Launch → Launch) : (updLaunch s l f).ports = s.ports := rfl
@[simp] theorem updLaunch_patterns (s : State) (l : Nat) (f : Launch → Launch) :
    (updLaunch s l f).patterns = s.patterns := rfl
@[simp] theorem updLaunch_phasers (s : State) (l : Nat) (f : Launch → Launch) :
    (updLaunch s l f).phasers = s.phasers := rfl
@[simp] theorem updLaunch_gens (s : State) (l : Nat) (f : Launch → Launch) : (updLaunch s l f).gens = s.gens := rfl
@[simp] theorem updLaunch_ctxs (s : State) (l : Nat) (f : Launch → Launch) : (updLaunch s l f).ctxs = s.ctxs := rfl
@[simp] theorem updLaunch_cores (s : State) (l : Nat) (f : Launch → Launch) : (updLaunch s l f).cores = s.cores := rfl
@[simp] theorem updLaunch_comps (s : State) (l : Nat) (f : Launch → Launch) : (updLaunch s l f).comps = s.comps := rfl
@[simp] theorem updLaunch_accs (s : State) (l : Nat) (f : Launch → Launch) : (updLaunch s l f).accs = s.accs := rfl
@[simp] theorem updLaunch_rounds (s : State) (l : Nat) (f : Launch → Launch) :
    (updLaunch s l f).rounds = s.rounds := rfl
@[simp] theorem updLaunch_gtab (s : State) (l : Nat) (f : Launch → Launch) : (updLaunch s l f).gtab = s.gtab := rfl
@[simp] theorem updLaunch_rtab (s : State) (l : Nat) (f : Launch → Launch) : (updLaunch s l f).rtab = s.rtab := rfl
@[simp] theorem updLaunch_trees (s : State) (l : Nat) (f : Launch → Launch) : (updLaunch s l f).trees = s.trees := rfl
@[simp] theorem updLaunch_collN (s : State) (l : Nat) (f : Launch → Launch) : (updLaunch s l f).collN = s.collN := rfl
@[simp] theorem updLaunch_saved (s : State) (l : Nat) (f : Launch → Launch) : (updLaunch s l f).saved = s.saved := rfl
@[simp] theorem updLaunch_dev (s : State) (l : Nat) (f : Launch → Launch) : (updLaunch s l f).dev = s.dev := rfl

/-! ### `updDom` -/

@[simp] theorem updDom_script (s : State) (d : Nat) (f : Domain → Domain) : (updDom s d f).script = s.script := rfl
@[simp] theorem updDom_actor (s : State) (d : Nat) (f : Domain → Domain) : (updDom s d f).actor = s.actor := rfl
@[simp] theorem updDom_arg (s : State) (d : Nat) (f : Domain → Domain) : (updDom s d f).arg = s.arg := rfl
@[simp] theorem updDom_ticks (s : State) (d : Nat) (f : Domain → Domain) : (updDom s d f).ticks = s.ticks := rfl
@[simp] theorem updDom_fresh (s : State) (d : Nat) (f : Domain → Domain) : (updDom s d f).fresh = s.fresh := rfl
@[simp] theorem updDom_prog (s : State) (d : Nat) (f : Domain → Domain) : (updDom s d f).prog = s.prog := rfl
@[simp] theorem updDom_lost (s : State) (d : Nat) (f : Domain → Domain) : (updDom s d f).lost = s.lost := rfl
@[simp] theorem updDom_chip (s : State) (d : Nat) (f : Domain → Domain) : (updDom s d f).chip = s.chip := rfl
@[simp] theorem updDom_mem (s : State) (d : Nat) (f : Domain → Domain) : (updDom s d f).mem = s.mem := rfl
@[simp] theorem updDom_enc (s : State) (d : Nat) (f : Domain → Domain) : (updDom s d f).enc = s.enc := rfl
@[simp] theorem updDom_bad (s : State) (d : Nat) (f : Domain → Domain) : (updDom s d f).bad = s.bad := rfl
@[simp] theorem updDom_host (s : State) (d : Nat) (f : Domain → Domain) : (updDom s d f).host = s.host := rfl
@[simp] theorem updDom_flash (s : State) (d : Nat) (f : Domain → Domain) : (updDom s d f).flash = s.flash := rfl
@[simp] theorem updDom_doms (s : State) (d : Nat) (f : Domain → Domain) :
    (updDom s d f).doms = Table.upd s.doms d f := rfl
@[simp] theorem updDom_launches (s : State) (d : Nat) (f : Domain → Domain) :
    (updDom s d f).launches = s.launches := rfl
@[simp] theorem updDom_tasks (s : State) (d : Nat) (f : Domain → Domain) : (updDom s d f).tasks = s.tasks := rfl
@[simp] theorem updDom_teams (s : State) (d : Nat) (f : Domain → Domain) : (updDom s d f).teams = s.teams := rfl
@[simp] theorem updDom_groups (s : State) (d : Nat) (f : Domain → Domain) : (updDom s d f).groups = s.groups := rfl
@[simp] theorem updDom_cmds (s : State) (d : Nat) (f : Domain → Domain) : (updDom s d f).cmds = s.cmds := rfl
@[simp] theorem updDom_effects (s : State) (d : Nat) (f : Domain → Domain) : (updDom s d f).effects = s.effects := rfl
@[simp] theorem updDom_conts (s : State) (d : Nat) (f : Domain → Domain) : (updDom s d f).conts = s.conts := rfl
@[simp] theorem updDom_ports (s : State) (d : Nat) (f : Domain → Domain) : (updDom s d f).ports = s.ports := rfl
@[simp] theorem updDom_patterns (s : State) (d : Nat) (f : Domain → Domain) :
    (updDom s d f).patterns = s.patterns := rfl
@[simp] theorem updDom_phasers (s : State) (d : Nat) (f : Domain → Domain) : (updDom s d f).phasers = s.phasers := rfl
@[simp] theorem updDom_gens (s : State) (d : Nat) (f : Domain → Domain) : (updDom s d f).gens = s.gens := rfl
@[simp] theorem updDom_ctxs (s : State) (d : Nat) (f : Domain → Domain) : (updDom s d f).ctxs = s.ctxs := rfl
@[simp] theorem updDom_cores (s : State) (d : Nat) (f : Domain → Domain) : (updDom s d f).cores = s.cores := rfl
@[simp] theorem updDom_comps (s : State) (d : Nat) (f : Domain → Domain) : (updDom s d f).comps = s.comps := rfl
@[simp] theorem updDom_accs (s : State) (d : Nat) (f : Domain → Domain) : (updDom s d f).accs = s.accs := rfl
@[simp] theorem updDom_rounds (s : State) (d : Nat) (f : Domain → Domain) : (updDom s d f).rounds = s.rounds := rfl
@[simp] theorem updDom_gtab (s : State) (d : Nat) (f : Domain → Domain) : (updDom s d f).gtab = s.gtab := rfl
@[simp] theorem updDom_rtab (s : State) (d : Nat) (f : Domain → Domain) : (updDom s d f).rtab = s.rtab := rfl
@[simp] theorem updDom_trees (s : State) (d : Nat) (f : Domain → Domain) : (updDom s d f).trees = s.trees := rfl
@[simp] theorem updDom_collN (s : State) (d : Nat) (f : Domain → Domain) : (updDom s d f).collN = s.collN := rfl
@[simp] theorem updDom_saved (s : State) (d : Nat) (f : Domain → Domain) : (updDom s d f).saved = s.saved := rfl
@[simp] theorem updDom_dev (s : State) (d : Nat) (f : Domain → Domain) : (updDom s d f).dev = s.dev := rfl

/-! ### `updCmd` -/

@[simp] theorem updCmd_script (s : State) (c : Nat) (f : Cmd → Cmd) : (updCmd s c f).script = s.script := rfl
@[simp] theorem updCmd_actor (s : State) (c : Nat) (f : Cmd → Cmd) : (updCmd s c f).actor = s.actor := rfl
@[simp] theorem updCmd_arg (s : State) (c : Nat) (f : Cmd → Cmd) : (updCmd s c f).arg = s.arg := rfl
@[simp] theorem updCmd_ticks (s : State) (c : Nat) (f : Cmd → Cmd) : (updCmd s c f).ticks = s.ticks := rfl
@[simp] theorem updCmd_fresh (s : State) (c : Nat) (f : Cmd → Cmd) : (updCmd s c f).fresh = s.fresh := rfl
@[simp] theorem updCmd_prog (s : State) (c : Nat) (f : Cmd → Cmd) : (updCmd s c f).prog = s.prog := rfl
@[simp] theorem updCmd_lost (s : State) (c : Nat) (f : Cmd → Cmd) : (updCmd s c f).lost = s.lost := rfl
@[simp] theorem updCmd_chip (s : State) (c : Nat) (f : Cmd → Cmd) : (updCmd s c f).chip = s.chip := rfl
@[simp] theorem updCmd_mem (s : State) (c : Nat) (f : Cmd → Cmd) : (updCmd s c f).mem = s.mem := rfl
@[simp] theorem updCmd_enc (s : State) (c : Nat) (f : Cmd → Cmd) : (updCmd s c f).enc = s.enc := rfl
@[simp] theorem updCmd_bad (s : State) (c : Nat) (f : Cmd → Cmd) : (updCmd s c f).bad = s.bad := rfl
@[simp] theorem updCmd_host (s : State) (c : Nat) (f : Cmd → Cmd) : (updCmd s c f).host = s.host := rfl
@[simp] theorem updCmd_flash (s : State) (c : Nat) (f : Cmd → Cmd) : (updCmd s c f).flash = s.flash := rfl
@[simp] theorem updCmd_doms (s : State) (c : Nat) (f : Cmd → Cmd) : (updCmd s c f).doms = s.doms := rfl
@[simp] theorem updCmd_launches (s : State) (c : Nat) (f : Cmd → Cmd) : (updCmd s c f).launches = s.launches := rfl
@[simp] theorem updCmd_tasks (s : State) (c : Nat) (f : Cmd → Cmd) : (updCmd s c f).tasks = s.tasks := rfl
@[simp] theorem updCmd_teams (s : State) (c : Nat) (f : Cmd → Cmd) : (updCmd s c f).teams = s.teams := rfl
@[simp] theorem updCmd_groups (s : State) (c : Nat) (f : Cmd → Cmd) : (updCmd s c f).groups = s.groups := rfl
@[simp] theorem updCmd_cmds (s : State) (c : Nat) (f : Cmd → Cmd) : (updCmd s c f).cmds = Table.upd s.cmds c f := rfl
@[simp] theorem updCmd_effects (s : State) (c : Nat) (f : Cmd → Cmd) : (updCmd s c f).effects = s.effects := rfl
@[simp] theorem updCmd_conts (s : State) (c : Nat) (f : Cmd → Cmd) : (updCmd s c f).conts = s.conts := rfl
@[simp] theorem updCmd_ports (s : State) (c : Nat) (f : Cmd → Cmd) : (updCmd s c f).ports = s.ports := rfl
@[simp] theorem updCmd_patterns (s : State) (c : Nat) (f : Cmd → Cmd) : (updCmd s c f).patterns = s.patterns := rfl
@[simp] theorem updCmd_phasers (s : State) (c : Nat) (f : Cmd → Cmd) : (updCmd s c f).phasers = s.phasers := rfl
@[simp] theorem updCmd_gens (s : State) (c : Nat) (f : Cmd → Cmd) : (updCmd s c f).gens = s.gens := rfl
@[simp] theorem updCmd_ctxs (s : State) (c : Nat) (f : Cmd → Cmd) : (updCmd s c f).ctxs = s.ctxs := rfl
@[simp] theorem updCmd_cores (s : State) (c : Nat) (f : Cmd → Cmd) : (updCmd s c f).cores = s.cores := rfl
@[simp] theorem updCmd_comps (s : State) (c : Nat) (f : Cmd → Cmd) : (updCmd s c f).comps = s.comps := rfl
@[simp] theorem updCmd_accs (s : State) (c : Nat) (f : Cmd → Cmd) : (updCmd s c f).accs = s.accs := rfl
@[simp] theorem updCmd_rounds (s : State) (c : Nat) (f : Cmd → Cmd) : (updCmd s c f).rounds = s.rounds := rfl
@[simp] theorem updCmd_gtab (s : State) (c : Nat) (f : Cmd → Cmd) : (updCmd s c f).gtab = s.gtab := rfl
@[simp] theorem updCmd_rtab (s : State) (c : Nat) (f : Cmd → Cmd) : (updCmd s c f).rtab = s.rtab := rfl
@[simp] theorem updCmd_trees (s : State) (c : Nat) (f : Cmd → Cmd) : (updCmd s c f).trees = s.trees := rfl
@[simp] theorem updCmd_collN (s : State) (c : Nat) (f : Cmd → Cmd) : (updCmd s c f).collN = s.collN := rfl
@[simp] theorem updCmd_saved (s : State) (c : Nat) (f : Cmd → Cmd) : (updCmd s c f).saved = s.saved := rfl
@[simp] theorem updCmd_dev (s : State) (c : Nat) (f : Cmd → Cmd) : (updCmd s c f).dev = s.dev := rfl

/-! ### `updCtx` -/

@[simp] theorem updCtx_script (s : State) (c : Nat) (f : Ctx → Ctx) : (updCtx s c f).script = s.script := rfl
@[simp] theorem updCtx_actor (s : State) (c : Nat) (f : Ctx → Ctx) : (updCtx s c f).actor = s.actor := rfl
@[simp] theorem updCtx_arg (s : State) (c : Nat) (f : Ctx → Ctx) : (updCtx s c f).arg = s.arg := rfl
@[simp] theorem updCtx_ticks (s : State) (c : Nat) (f : Ctx → Ctx) : (updCtx s c f).ticks = s.ticks := rfl
@[simp] theorem updCtx_fresh (s : State) (c : Nat) (f : Ctx → Ctx) : (updCtx s c f).fresh = s.fresh := rfl
@[simp] theorem updCtx_prog (s : State) (c : Nat) (f : Ctx → Ctx) : (updCtx s c f).prog = s.prog := rfl
@[simp] theorem updCtx_lost (s : State) (c : Nat) (f : Ctx → Ctx) : (updCtx s c f).lost = s.lost := rfl
@[simp] theorem updCtx_chip (s : State) (c : Nat) (f : Ctx → Ctx) : (updCtx s c f).chip = s.chip := rfl
@[simp] theorem updCtx_mem (s : State) (c : Nat) (f : Ctx → Ctx) : (updCtx s c f).mem = s.mem := rfl
@[simp] theorem updCtx_enc (s : State) (c : Nat) (f : Ctx → Ctx) : (updCtx s c f).enc = s.enc := rfl
@[simp] theorem updCtx_bad (s : State) (c : Nat) (f : Ctx → Ctx) : (updCtx s c f).bad = s.bad := rfl
@[simp] theorem updCtx_host (s : State) (c : Nat) (f : Ctx → Ctx) : (updCtx s c f).host = s.host := rfl
@[simp] theorem updCtx_flash (s : State) (c : Nat) (f : Ctx → Ctx) : (updCtx s c f).flash = s.flash := rfl
@[simp] theorem updCtx_doms (s : State) (c : Nat) (f : Ctx → Ctx) : (updCtx s c f).doms = s.doms := rfl
@[simp] theorem updCtx_launches (s : State) (c : Nat) (f : Ctx → Ctx) : (updCtx s c f).launches = s.launches := rfl
@[simp] theorem updCtx_tasks (s : State) (c : Nat) (f : Ctx → Ctx) : (updCtx s c f).tasks = s.tasks := rfl
@[simp] theorem updCtx_teams (s : State) (c : Nat) (f : Ctx → Ctx) : (updCtx s c f).teams = s.teams := rfl
@[simp] theorem updCtx_groups (s : State) (c : Nat) (f : Ctx → Ctx) : (updCtx s c f).groups = s.groups := rfl
@[simp] theorem updCtx_cmds (s : State) (c : Nat) (f : Ctx → Ctx) : (updCtx s c f).cmds = s.cmds := rfl
@[simp] theorem updCtx_effects (s : State) (c : Nat) (f : Ctx → Ctx) : (updCtx s c f).effects = s.effects := rfl
@[simp] theorem updCtx_conts (s : State) (c : Nat) (f : Ctx → Ctx) : (updCtx s c f).conts = s.conts := rfl
@[simp] theorem updCtx_ports (s : State) (c : Nat) (f : Ctx → Ctx) : (updCtx s c f).ports = s.ports := rfl
@[simp] theorem updCtx_patterns (s : State) (c : Nat) (f : Ctx → Ctx) : (updCtx s c f).patterns = s.patterns := rfl
@[simp] theorem updCtx_phasers (s : State) (c : Nat) (f : Ctx → Ctx) : (updCtx s c f).phasers = s.phasers := rfl
@[simp] theorem updCtx_gens (s : State) (c : Nat) (f : Ctx → Ctx) : (updCtx s c f).gens = s.gens := rfl
@[simp] theorem updCtx_ctxs (s : State) (c : Nat) (f : Ctx → Ctx) :
    (updCtx s c f).ctxs = Table.put s.ctxs c (f (ctxOf s c)) := rfl
@[simp] theorem updCtx_cores (s : State) (c : Nat) (f : Ctx → Ctx) : (updCtx s c f).cores = s.cores := rfl
@[simp] theorem updCtx_comps (s : State) (c : Nat) (f : Ctx → Ctx) : (updCtx s c f).comps = s.comps := rfl
@[simp] theorem updCtx_accs (s : State) (c : Nat) (f : Ctx → Ctx) : (updCtx s c f).accs = s.accs := rfl
@[simp] theorem updCtx_rounds (s : State) (c : Nat) (f : Ctx → Ctx) : (updCtx s c f).rounds = s.rounds := rfl
@[simp] theorem updCtx_gtab (s : State) (c : Nat) (f : Ctx → Ctx) : (updCtx s c f).gtab = s.gtab := rfl
@[simp] theorem updCtx_rtab (s : State) (c : Nat) (f : Ctx → Ctx) : (updCtx s c f).rtab = s.rtab := rfl
@[simp] theorem updCtx_trees (s : State) (c : Nat) (f : Ctx → Ctx) : (updCtx s c f).trees = s.trees := rfl
@[simp] theorem updCtx_collN (s : State) (c : Nat) (f : Ctx → Ctx) : (updCtx s c f).collN = s.collN := rfl
@[simp] theorem updCtx_saved (s : State) (c : Nat) (f : Ctx → Ctx) : (updCtx s c f).saved = s.saved := rfl
@[simp] theorem updCtx_dev (s : State) (c : Nat) (f : Ctx → Ctx) : (updCtx s c f).dev = s.dev := rfl

/-! ### `updCore` -/

@[simp] theorem updCore_script (s : State) (d : Nat) (f : Core → Core) : (updCore s d f).script = s.script := rfl
@[simp] theorem updCore_actor (s : State) (d : Nat) (f : Core → Core) : (updCore s d f).actor = s.actor := rfl
@[simp] theorem updCore_arg (s : State) (d : Nat) (f : Core → Core) : (updCore s d f).arg = s.arg := rfl
@[simp] theorem updCore_ticks (s : State) (d : Nat) (f : Core → Core) : (updCore s d f).ticks = s.ticks := rfl
@[simp] theorem updCore_fresh (s : State) (d : Nat) (f : Core → Core) : (updCore s d f).fresh = s.fresh := rfl
@[simp] theorem updCore_prog (s : State) (d : Nat) (f : Core → Core) : (updCore s d f).prog = s.prog := rfl
@[simp] theorem updCore_lost (s : State) (d : Nat) (f : Core → Core) : (updCore s d f).lost = s.lost := rfl
@[simp] theorem updCore_chip (s : State) (d : Nat) (f : Core → Core) : (updCore s d f).chip = s.chip := rfl
@[simp] theorem updCore_mem (s : State) (d : Nat) (f : Core → Core) : (updCore s d f).mem = s.mem := rfl
@[simp] theorem updCore_enc (s : State) (d : Nat) (f : Core → Core) : (updCore s d f).enc = s.enc := rfl
@[simp] theorem updCore_bad (s : State) (d : Nat) (f : Core → Core) : (updCore s d f).bad = s.bad := rfl
@[simp] theorem updCore_host (s : State) (d : Nat) (f : Core → Core) : (updCore s d f).host = s.host := rfl
@[simp] theorem updCore_flash (s : State) (d : Nat) (f : Core → Core) : (updCore s d f).flash = s.flash := rfl
@[simp] theorem updCore_doms (s : State) (d : Nat) (f : Core → Core) : (updCore s d f).doms = s.doms := rfl
@[simp] theorem updCore_launches (s : State) (d : Nat) (f : Core → Core) :
    (updCore s d f).launches = s.launches := rfl
@[simp] theorem updCore_tasks (s : State) (d : Nat) (f : Core → Core) : (updCore s d f).tasks = s.tasks := rfl
@[simp] theorem updCore_teams (s : State) (d : Nat) (f : Core → Core) : (updCore s d f).teams = s.teams := rfl
@[simp] theorem updCore_groups (s : State) (d : Nat) (f : Core → Core) : (updCore s d f).groups = s.groups := rfl
@[simp] theorem updCore_cmds (s : State) (d : Nat) (f : Core → Core) : (updCore s d f).cmds = s.cmds := rfl
@[simp] theorem updCore_effects (s : State) (d : Nat) (f : Core → Core) : (updCore s d f).effects = s.effects := rfl
@[simp] theorem updCore_conts (s : State) (d : Nat) (f : Core → Core) : (updCore s d f).conts = s.conts := rfl
@[simp] theorem updCore_ports (s : State) (d : Nat) (f : Core → Core) : (updCore s d f).ports = s.ports := rfl
@[simp] theorem updCore_patterns (s : State) (d : Nat) (f : Core → Core) :
    (updCore s d f).patterns = s.patterns := rfl
@[simp] theorem updCore_phasers (s : State) (d : Nat) (f : Core → Core) : (updCore s d f).phasers = s.phasers := rfl
@[simp] theorem updCore_gens (s : State) (d : Nat) (f : Core → Core) : (updCore s d f).gens = s.gens := rfl
@[simp] theorem updCore_ctxs (s : State) (d : Nat) (f : Core → Core) : (updCore s d f).ctxs = s.ctxs := rfl
@[simp] theorem updCore_cores (s : State) (d : Nat) (f : Core → Core) :
    (updCore s d f).cores = Table.put s.cores d (f (coreOf s d)) := rfl
@[simp] theorem updCore_comps (s : State) (d : Nat) (f : Core → Core) : (updCore s d f).comps = s.comps := rfl
@[simp] theorem updCore_accs (s : State) (d : Nat) (f : Core → Core) : (updCore s d f).accs = s.accs := rfl
@[simp] theorem updCore_rounds (s : State) (d : Nat) (f : Core → Core) : (updCore s d f).rounds = s.rounds := rfl
@[simp] theorem updCore_gtab (s : State) (d : Nat) (f : Core → Core) : (updCore s d f).gtab = s.gtab := rfl
@[simp] theorem updCore_rtab (s : State) (d : Nat) (f : Core → Core) : (updCore s d f).rtab = s.rtab := rfl
@[simp] theorem updCore_trees (s : State) (d : Nat) (f : Core → Core) : (updCore s d f).trees = s.trees := rfl
@[simp] theorem updCore_collN (s : State) (d : Nat) (f : Core → Core) : (updCore s d f).collN = s.collN := rfl
@[simp] theorem updCore_saved (s : State) (d : Nat) (f : Core → Core) : (updCore s d f).saved = s.saved := rfl
@[simp] theorem updCore_dev (s : State) (d : Nat) (f : Core → Core) : (updCore s d f).dev = s.dev := rfl

/-! ### `updDev` -/

@[simp] theorem updDev_script (s : State) (f : Device → Device) : (updDev s f).script = s.script := rfl
@[simp] theorem updDev_actor (s : State) (f : Device → Device) : (updDev s f).actor = s.actor := rfl
@[simp] theorem updDev_arg (s : State) (f : Device → Device) : (updDev s f).arg = s.arg := rfl
@[simp] theorem updDev_ticks (s : State) (f : Device → Device) : (updDev s f).ticks = s.ticks := rfl
@[simp] theorem updDev_fresh (s : State) (f : Device → Device) : (updDev s f).fresh = s.fresh := rfl
@[simp] theorem updDev_prog (s : State) (f : Device → Device) : (updDev s f).prog = s.prog := rfl
@[simp] theorem updDev_lost (s : State) (f : Device → Device) : (updDev s f).lost = s.lost := rfl
@[simp] theorem updDev_chip (s : State) (f : Device → Device) : (updDev s f).chip = s.chip := rfl
@[simp] theorem updDev_mem (s : State) (f : Device → Device) : (updDev s f).mem = s.mem := rfl
@[simp] theorem updDev_enc (s : State) (f : Device → Device) : (updDev s f).enc = s.enc := rfl
@[simp] theorem updDev_bad (s : State) (f : Device → Device) : (updDev s f).bad = s.bad := rfl
@[simp] theorem updDev_host (s : State) (f : Device → Device) : (updDev s f).host = s.host := rfl
@[simp] theorem updDev_flash (s : State) (f : Device → Device) : (updDev s f).flash = s.flash := rfl
@[simp] theorem updDev_doms (s : State) (f : Device → Device) : (updDev s f).doms = s.doms := rfl
@[simp] theorem updDev_launches (s : State) (f : Device → Device) : (updDev s f).launches = s.launches := rfl
@[simp] theorem updDev_tasks (s : State) (f : Device → Device) : (updDev s f).tasks = s.tasks := rfl
@[simp] theorem updDev_teams (s : State) (f : Device → Device) : (updDev s f).teams = s.teams := rfl
@[simp] theorem updDev_groups (s : State) (f : Device → Device) : (updDev s f).groups = s.groups := rfl
@[simp] theorem updDev_cmds (s : State) (f : Device → Device) : (updDev s f).cmds = s.cmds := rfl
@[simp] theorem updDev_effects (s : State) (f : Device → Device) : (updDev s f).effects = s.effects := rfl
@[simp] theorem updDev_conts (s : State) (f : Device → Device) : (updDev s f).conts = s.conts := rfl
@[simp] theorem updDev_ports (s : State) (f : Device → Device) : (updDev s f).ports = s.ports := rfl
@[simp] theorem updDev_patterns (s : State) (f : Device → Device) : (updDev s f).patterns = s.patterns := rfl
@[simp] theorem updDev_phasers (s : State) (f : Device → Device) : (updDev s f).phasers = s.phasers := rfl
@[simp] theorem updDev_gens (s : State) (f : Device → Device) : (updDev s f).gens = s.gens := rfl
@[simp] theorem updDev_ctxs (s : State) (f : Device → Device) : (updDev s f).ctxs = s.ctxs := rfl
@[simp] theorem updDev_cores (s : State) (f : Device → Device) : (updDev s f).cores = s.cores := rfl
@[simp] theorem updDev_comps (s : State) (f : Device → Device) : (updDev s f).comps = s.comps := rfl
@[simp] theorem updDev_accs (s : State) (f : Device → Device) : (updDev s f).accs = s.accs := rfl
@[simp] theorem updDev_rounds (s : State) (f : Device → Device) : (updDev s f).rounds = s.rounds := rfl
@[simp] theorem updDev_gtab (s : State) (f : Device → Device) : (updDev s f).gtab = s.gtab := rfl
@[simp] theorem updDev_rtab (s : State) (f : Device → Device) : (updDev s f).rtab = s.rtab := rfl
@[simp] theorem updDev_trees (s : State) (f : Device → Device) : (updDev s f).trees = s.trees := rfl
@[simp] theorem updDev_collN (s : State) (f : Device → Device) : (updDev s f).collN = s.collN := rfl
@[simp] theorem updDev_saved (s : State) (f : Device → Device) : (updDev s f).saved = s.saved := rfl
@[simp] theorem updDev_dev (s : State) (f : Device → Device) : (updDev s f).dev = f s.dev := rfl

/-! ### `updFn` -/

@[simp] theorem updFn_script (s : State) (n : Nat) (f : Fn → Fn) : (updFn s n f).script = s.script := rfl
@[simp] theorem updFn_actor (s : State) (n : Nat) (f : Fn → Fn) : (updFn s n f).actor = s.actor := rfl
@[simp] theorem updFn_arg (s : State) (n : Nat) (f : Fn → Fn) : (updFn s n f).arg = s.arg := rfl
@[simp] theorem updFn_ticks (s : State) (n : Nat) (f : Fn → Fn) : (updFn s n f).ticks = s.ticks := rfl
@[simp] theorem updFn_fresh (s : State) (n : Nat) (f : Fn → Fn) : (updFn s n f).fresh = s.fresh := rfl
@[simp] theorem updFn_prog (s : State) (n : Nat) (f : Fn → Fn) : (updFn s n f).prog = s.prog := rfl
@[simp] theorem updFn_lost (s : State) (n : Nat) (f : Fn → Fn) : (updFn s n f).lost = s.lost := rfl
@[simp] theorem updFn_chip (s : State) (n : Nat) (f : Fn → Fn) : (updFn s n f).chip = s.chip := rfl
@[simp] theorem updFn_mem (s : State) (n : Nat) (f : Fn → Fn) : (updFn s n f).mem = s.mem := rfl
@[simp] theorem updFn_enc (s : State) (n : Nat) (f : Fn → Fn) : (updFn s n f).enc = s.enc := rfl
@[simp] theorem updFn_bad (s : State) (n : Nat) (f : Fn → Fn) : (updFn s n f).bad = s.bad := rfl
@[simp] theorem updFn_host (s : State) (n : Nat) (f : Fn → Fn) : (updFn s n f).host = s.host := rfl
@[simp] theorem updFn_flash (s : State) (n : Nat) (f : Fn → Fn) : (updFn s n f).flash = s.flash := rfl
@[simp] theorem updFn_doms (s : State) (n : Nat) (f : Fn → Fn) : (updFn s n f).doms = s.doms := rfl
@[simp] theorem updFn_launches (s : State) (n : Nat) (f : Fn → Fn) : (updFn s n f).launches = s.launches := rfl
@[simp] theorem updFn_tasks (s : State) (n : Nat) (f : Fn → Fn) : (updFn s n f).tasks = s.tasks := rfl
@[simp] theorem updFn_teams (s : State) (n : Nat) (f : Fn → Fn) : (updFn s n f).teams = s.teams := rfl
@[simp] theorem updFn_groups (s : State) (n : Nat) (f : Fn → Fn) : (updFn s n f).groups = s.groups := rfl
@[simp] theorem updFn_cmds (s : State) (n : Nat) (f : Fn → Fn) : (updFn s n f).cmds = s.cmds := rfl
@[simp] theorem updFn_effects (s : State) (n : Nat) (f : Fn → Fn) : (updFn s n f).effects = s.effects := rfl
@[simp] theorem updFn_conts (s : State) (n : Nat) (f : Fn → Fn) : (updFn s n f).conts = s.conts := rfl
@[simp] theorem updFn_ports (s : State) (n : Nat) (f : Fn → Fn) : (updFn s n f).ports = s.ports := rfl
@[simp] theorem updFn_patterns (s : State) (n : Nat) (f : Fn → Fn) : (updFn s n f).patterns = s.patterns := rfl
@[simp] theorem updFn_phasers (s : State) (n : Nat) (f : Fn → Fn) : (updFn s n f).phasers = s.phasers := rfl
@[simp] theorem updFn_gens (s : State) (n : Nat) (f : Fn → Fn) : (updFn s n f).gens = s.gens := rfl
@[simp] theorem updFn_ctxs (s : State) (n : Nat) (f : Fn → Fn) : (updFn s n f).ctxs = s.ctxs := rfl
@[simp] theorem updFn_cores (s : State) (n : Nat) (f : Fn → Fn) : (updFn s n f).cores = s.cores := rfl
@[simp] theorem updFn_comps (s : State) (n : Nat) (f : Fn → Fn) : (updFn s n f).comps = s.comps := rfl
@[simp] theorem updFn_accs (s : State) (n : Nat) (f : Fn → Fn) : (updFn s n f).accs = s.accs := rfl
@[simp] theorem updFn_rounds (s : State) (n : Nat) (f : Fn → Fn) : (updFn s n f).rounds = s.rounds := rfl
@[simp] theorem updFn_gtab (s : State) (n : Nat) (f : Fn → Fn) : (updFn s n f).gtab = s.gtab := rfl
@[simp] theorem updFn_rtab (s : State) (n : Nat) (f : Fn → Fn) : (updFn s n f).rtab = s.rtab := rfl
@[simp] theorem updFn_trees (s : State) (n : Nat) (f : Fn → Fn) : (updFn s n f).trees = s.trees := rfl
@[simp] theorem updFn_collN (s : State) (n : Nat) (f : Fn → Fn) : (updFn s n f).collN = s.collN := rfl
@[simp] theorem updFn_saved (s : State) (n : Nat) (f : Fn → Fn) : (updFn s n f).saved = s.saved := rfl
@[simp] theorem updFn_dev (s : State) (n : Nat) (f : Fn → Fn) :
    (updFn s n f).dev = { s.dev with fns := Table.put s.dev.fns n (f ((Table.find s.dev.fns n).getD {})) } := rfl

/-! ### `memWrite` -/

@[simp] theorem memWrite_script (s : State) (a : Nat) (bs : List Byte) : (memWrite s a bs).script = s.script := rfl
@[simp] theorem memWrite_actor (s : State) (a : Nat) (bs : List Byte) : (memWrite s a bs).actor = s.actor := rfl
@[simp] theorem memWrite_arg (s : State) (a : Nat) (bs : List Byte) : (memWrite s a bs).arg = s.arg := rfl
@[simp] theorem memWrite_ticks (s : State) (a : Nat) (bs : List Byte) : (memWrite s a bs).ticks = s.ticks := rfl
@[simp] theorem memWrite_fresh (s : State) (a : Nat) (bs : List Byte) : (memWrite s a bs).fresh = s.fresh := rfl
@[simp] theorem memWrite_prog (s : State) (a : Nat) (bs : List Byte) : (memWrite s a bs).prog = s.prog := rfl
@[simp] theorem memWrite_lost (s : State) (a : Nat) (bs : List Byte) : (memWrite s a bs).lost = s.lost := rfl
@[simp] theorem memWrite_chip (s : State) (a : Nat) (bs : List Byte) : (memWrite s a bs).chip = s.chip := rfl
@[simp] theorem memWrite_mem (s : State) (a : Nat) (bs : List Byte) :
    (memWrite s a bs).mem = Sparse.writeF (memDefault s) s.mem a bs := rfl
@[simp] theorem memWrite_enc (s : State) (a : Nat) (bs : List Byte) : (memWrite s a bs).enc = s.enc := rfl
@[simp] theorem memWrite_bad (s : State) (a : Nat) (bs : List Byte) : (memWrite s a bs).bad = s.bad := rfl
@[simp] theorem memWrite_host (s : State) (a : Nat) (bs : List Byte) : (memWrite s a bs).host = s.host := rfl
@[simp] theorem memWrite_flash (s : State) (a : Nat) (bs : List Byte) : (memWrite s a bs).flash = s.flash := rfl
@[simp] theorem memWrite_doms (s : State) (a : Nat) (bs : List Byte) : (memWrite s a bs).doms = s.doms := rfl
@[simp] theorem memWrite_launches (s : State) (a : Nat) (bs : List Byte) :
    (memWrite s a bs).launches = s.launches := rfl
@[simp] theorem memWrite_tasks (s : State) (a : Nat) (bs : List Byte) : (memWrite s a bs).tasks = s.tasks := rfl
@[simp] theorem memWrite_teams (s : State) (a : Nat) (bs : List Byte) : (memWrite s a bs).teams = s.teams := rfl
@[simp] theorem memWrite_groups (s : State) (a : Nat) (bs : List Byte) : (memWrite s a bs).groups = s.groups := rfl
@[simp] theorem memWrite_cmds (s : State) (a : Nat) (bs : List Byte) : (memWrite s a bs).cmds = s.cmds := rfl
@[simp] theorem memWrite_effects (s : State) (a : Nat) (bs : List Byte) : (memWrite s a bs).effects = s.effects := rfl
@[simp] theorem memWrite_conts (s : State) (a : Nat) (bs : List Byte) : (memWrite s a bs).conts = s.conts := rfl
@[simp] theorem memWrite_ports (s : State) (a : Nat) (bs : List Byte) : (memWrite s a bs).ports = s.ports := rfl
@[simp] theorem memWrite_patterns (s : State) (a : Nat) (bs : List Byte) :
    (memWrite s a bs).patterns = s.patterns := rfl
@[simp] theorem memWrite_phasers (s : State) (a : Nat) (bs : List Byte) : (memWrite s a bs).phasers = s.phasers := rfl
@[simp] theorem memWrite_gens (s : State) (a : Nat) (bs : List Byte) : (memWrite s a bs).gens = s.gens := rfl
@[simp] theorem memWrite_ctxs (s : State) (a : Nat) (bs : List Byte) : (memWrite s a bs).ctxs = s.ctxs := rfl
@[simp] theorem memWrite_cores (s : State) (a : Nat) (bs : List Byte) : (memWrite s a bs).cores = s.cores := rfl
@[simp] theorem memWrite_comps (s : State) (a : Nat) (bs : List Byte) : (memWrite s a bs).comps = s.comps := rfl
@[simp] theorem memWrite_accs (s : State) (a : Nat) (bs : List Byte) : (memWrite s a bs).accs = s.accs := rfl
@[simp] theorem memWrite_rounds (s : State) (a : Nat) (bs : List Byte) : (memWrite s a bs).rounds = s.rounds := rfl
@[simp] theorem memWrite_gtab (s : State) (a : Nat) (bs : List Byte) : (memWrite s a bs).gtab = s.gtab := rfl
@[simp] theorem memWrite_rtab (s : State) (a : Nat) (bs : List Byte) : (memWrite s a bs).rtab = s.rtab := rfl
@[simp] theorem memWrite_trees (s : State) (a : Nat) (bs : List Byte) : (memWrite s a bs).trees = s.trees := rfl
@[simp] theorem memWrite_collN (s : State) (a : Nat) (bs : List Byte) : (memWrite s a bs).collN = s.collN := rfl
@[simp] theorem memWrite_saved (s : State) (a : Nat) (bs : List Byte) : (memWrite s a bs).saved = s.saved := rfl
@[simp] theorem memWrite_dev (s : State) (a : Nat) (bs : List Byte) : (memWrite s a bs).dev = s.dev := rfl

/-! ### `emit` -/

@[simp] theorem emit_script (s : State) (w : Who) (t : Option Nat) (n : Nat) (b : EffBody) :
    (emit s w t n b).script = s.script := rfl
@[simp] theorem emit_actor (s : State) (w : Who) (t : Option Nat) (n : Nat) (b : EffBody) :
    (emit s w t n b).actor = s.actor := rfl
@[simp] theorem emit_arg (s : State) (w : Who) (t : Option Nat) (n : Nat) (b : EffBody) :
    (emit s w t n b).arg = s.arg := rfl
@[simp] theorem emit_ticks (s : State) (w : Who) (t : Option Nat) (n : Nat) (b : EffBody) :
    (emit s w t n b).ticks = s.ticks := rfl
@[simp] theorem emit_fresh (s : State) (w : Who) (t : Option Nat) (n : Nat) (b : EffBody) :
    (emit s w t n b).fresh = s.fresh := rfl
@[simp] theorem emit_prog (s : State) (w : Who) (t : Option Nat) (n : Nat) (b : EffBody) :
    (emit s w t n b).prog = s.prog + 1 := rfl
@[simp] theorem emit_lost (s : State) (w : Who) (t : Option Nat) (n : Nat) (b : EffBody) :
    (emit s w t n b).lost = s.lost := rfl
@[simp] theorem emit_chip (s : State) (w : Who) (t : Option Nat) (n : Nat) (b : EffBody) :
    (emit s w t n b).chip = s.chip := rfl
@[simp] theorem emit_mem (s : State) (w : Who) (t : Option Nat) (n : Nat) (b : EffBody) :
    (emit s w t n b).mem = s.mem := rfl
@[simp] theorem emit_enc (s : State) (w : Who) (t : Option Nat) (n : Nat) (b : EffBody) :
    (emit s w t n b).enc = s.enc := rfl
@[simp] theorem emit_bad (s : State) (w : Who) (t : Option Nat) (n : Nat) (b : EffBody) :
    (emit s w t n b).bad = s.bad := rfl
@[simp] theorem emit_host (s : State) (w : Who) (t : Option Nat) (n : Nat) (b : EffBody) :
    (emit s w t n b).host = s.host := rfl
@[simp] theorem emit_flash (s : State) (w : Who) (t : Option Nat) (n : Nat) (b : EffBody) :
    (emit s w t n b).flash = s.flash := rfl
@[simp] theorem emit_doms (s : State) (w : Who) (t : Option Nat) (n : Nat) (b : EffBody) :
    (emit s w t n b).doms = s.doms := rfl
@[simp] theorem emit_launches (s : State) (w : Who) (t : Option Nat) (n : Nat) (b : EffBody) :
    (emit s w t n b).launches = s.launches := rfl
@[simp] theorem emit_tasks (s : State) (w : Who) (t : Option Nat) (n : Nat) (b : EffBody) :
    (emit s w t n b).tasks = s.tasks := rfl
@[simp] theorem emit_teams (s : State) (w : Who) (t : Option Nat) (n : Nat) (b : EffBody) :
    (emit s w t n b).teams = s.teams := rfl
@[simp] theorem emit_groups (s : State) (w : Who) (t : Option Nat) (n : Nat) (b : EffBody) :
    (emit s w t n b).groups = s.groups := rfl
@[simp] theorem emit_cmds (s : State) (w : Who) (t : Option Nat) (n : Nat) (b : EffBody) :
    (emit s w t n b).cmds = s.cmds := rfl
@[simp] theorem emit_conts (s : State) (w : Who) (t : Option Nat) (n : Nat) (b : EffBody) :
    (emit s w t n b).conts = s.conts := rfl
@[simp] theorem emit_ports (s : State) (w : Who) (t : Option Nat) (n : Nat) (b : EffBody) :
    (emit s w t n b).ports = s.ports := rfl
@[simp] theorem emit_patterns (s : State) (w : Who) (t : Option Nat) (n : Nat) (b : EffBody) :
    (emit s w t n b).patterns = s.patterns := rfl
@[simp] theorem emit_phasers (s : State) (w : Who) (t : Option Nat) (n : Nat) (b : EffBody) :
    (emit s w t n b).phasers = s.phasers := rfl
@[simp] theorem emit_gens (s : State) (w : Who) (t : Option Nat) (n : Nat) (b : EffBody) :
    (emit s w t n b).gens = s.gens := rfl
@[simp] theorem emit_ctxs (s : State) (w : Who) (t : Option Nat) (n : Nat) (b : EffBody) :
    (emit s w t n b).ctxs = s.ctxs := rfl
@[simp] theorem emit_cores (s : State) (w : Who) (t : Option Nat) (n : Nat) (b : EffBody) :
    (emit s w t n b).cores = s.cores := rfl
@[simp] theorem emit_comps (s : State) (w : Who) (t : Option Nat) (n : Nat) (b : EffBody) :
    (emit s w t n b).comps = s.comps := rfl
@[simp] theorem emit_accs (s : State) (w : Who) (t : Option Nat) (n : Nat) (b : EffBody) :
    (emit s w t n b).accs = s.accs := rfl
@[simp] theorem emit_rounds (s : State) (w : Who) (t : Option Nat) (n : Nat) (b : EffBody) :
    (emit s w t n b).rounds = s.rounds := rfl
@[simp] theorem emit_gtab (s : State) (w : Who) (t : Option Nat) (n : Nat) (b : EffBody) :
    (emit s w t n b).gtab = s.gtab := rfl
@[simp] theorem emit_rtab (s : State) (w : Who) (t : Option Nat) (n : Nat) (b : EffBody) :
    (emit s w t n b).rtab = s.rtab := rfl
@[simp] theorem emit_trees (s : State) (w : Who) (t : Option Nat) (n : Nat) (b : EffBody) :
    (emit s w t n b).trees = s.trees := rfl
@[simp] theorem emit_collN (s : State) (w : Who) (t : Option Nat) (n : Nat) (b : EffBody) :
    (emit s w t n b).collN = s.collN := rfl
@[simp] theorem emit_saved (s : State) (w : Who) (t : Option Nat) (n : Nat) (b : EffBody) :
    (emit s w t n b).saved = s.saved := rfl
@[simp] theorem emit_dev (s : State) (w : Who) (t : Option Nat) (n : Nat) (b : EffBody) :
    (emit s w t n b).dev = s.dev := rfl

end Sys2Proof.Machine
end

