-- ==== Sys2Proof/Laws/Memory.lean ====
section
/-!
SUPPORT. Package memory: reads after writes, and the canonical form, which every memory operation keeps.
-/

namespace Sys2Proof.Machine

/-- What unlisted bytes read as depends on how often memory was lost alone. -/
theorem memDefault_congr {s t : State} (h : t.lost = s.lost) : memDefault t = memDefault s := by
  funext a; simp [memDefault, h]

theorem Memory.wf_congr {s t : State} (hm : t.mem = s.mem) (hl : t.lost = s.lost) : Memory.wf t = Memory.wf s := by
  simp [Memory.wf, memDefault_congr hl, hm]

theorem memRead_congr {s t : State} (hm : t.mem = s.mem) (hl : t.lost = s.lost) (a n : Nat) :
    memRead t a n = memRead s a n := by
  simp [memRead, memDefault_congr hl, hm]

/-- The default of a state whose memory was written. -/
@[simp] theorem memDefault_memWrite (s : State) (a : Nat) (bs : List Byte) :
    memDefault (memWrite s a bs) = memDefault s := memDefault_congr rfl

/-- Bytes just written read as written. -/
@[simp] theorem memRead_memWrite (s : State) (a : Nat) (bs : List Byte) :
    memRead (memWrite s a bs) a bs.length = bs := by
  simp only [memRead, memDefault_memWrite]
  exact Sparse.readF_writeF _ _ _ _

/-- A byte outside a write reads as before. -/
theorem memRead_memWrite_ne (s : State) {a b : Nat} (bs : List Byte) (h : b < a ∨ a + bs.length ≤ b) :
    memRead (memWrite s a bs) b 1 = memRead s b 1 := by
  have : ¬ (a ≤ b ∧ b < a + bs.length) := by omega
  simp [memRead, Sparse.readF_eq, Sparse.getF_writeF, this]

/-- A write keeps the canonical form. -/
theorem memWrite_wf {s : State} (h : Memory.wf s = true) (a : Nat) (bs : List Byte) :
    Memory.wf (memWrite s a bs) = true := by
  simp only [Memory.wf, memDefault_memWrite]
  exact Sparse.wfFrom_writeF h a bs

/-- Bringing a unit under a key keeps the canonical form. -/
theorem rekeyUnit_wf {s : State} (h : Memory.wf s = true) (want unit : Nat) :
    Memory.wf (rekeyUnit s want unit) = true := by
  unfold rekeyUnit
  split
  · exact h
  · exact (Memory.wf_congr rfl rfl).trans (memWrite_wf h (16 * unit) (readUnit s want unit))

theorem foldl_rekeyUnit_wf (want : Nat) (us : List Nat) : ∀ {s : State}, Memory.wf s = true →
    Memory.wf (us.foldl (fun s u => rekeyUnit s want u) s) = true := by
  induction us with
  | nil => intro s h; exact h
  | cons u us ih => intro s h; exact ih (rekeyUnit_wf h want u)

/-- A write with a key keeps the canonical form. -/
theorem physWrite_wf {s : State} (h : Memory.wf s = true) (want a : Nat) (bs : List Byte) :
    Memory.wf (physWrite s want a bs) = true := by
  unfold physWrite
  split
  · exact memWrite_wf h a bs
  · exact memWrite_wf (foldl_rekeyUnit_wf want _ h) a bs

/-- A write without a key while no unit is encrypted. -/
theorem physWrite_plain {s : State} (h : s.enc = []) (a : Nat) (bs : List Byte) :
    physWrite s 0 a bs = memWrite s a bs := by
  simp [physWrite, h]

/-- Merging words that await a sum changes no byte. -/
theorem mergeWords_wf (s : State) (pa n : Nat) : Memory.wf (mergeWords s pa n) = Memory.wf s := by
  unfold mergeWords
  split <;> rfl

/-- A write of package memory keeps the canonical form. -/
theorem storeCore_wf {s : State} (h : Memory.wf s = true) (key pa : Nat) (bs : List Byte) :
    Memory.wf (storeCore s key pa bs) = true := by
  simp only [storeCore, mergeWords_wf]
  refine physWrite_wf ?_ key pa bs
  exact (Memory.wf_congr rfl rfl).trans h

/-- A commit's change of package memory keeps the canonical form. -/
theorem storeGlobal_wf {s : State} (h : Memory.wf s = true) (key pa : Nat) (bs : List Byte) :
    Memory.wf (storeGlobal s key pa bs) = true := by
  refine storeCore_wf ?_ key pa bs
  exact (Memory.wf_congr rfl rfl).trans h

@[simp] theorem length_leBytes : ∀ n m, (leBytes n m).length = n
  | 0, _ => rfl
  | n + 1, m => by simp [leBytes, length_leBytes]

/-- Bytes of a number and back. -/
theorem leNat_leBytes : ∀ n m, leNat (leBytes n m) = m % 256 ^ n
  | 0, m => by simp [leBytes, leNat, Nat.mod_one]
  | n + 1, m => by
    simp only [leBytes, leNat, leNat_leBytes n, BitVec.toNat_ofNat]
    rw [show 256 ^ (n + 1) = 256 * 256 ^ n from by rw [Nat.pow_succ, Nat.mul_comm], Nat.mod_mul]

theorem leNat_lt : ∀ bs : List Byte, leNat bs < 256 ^ bs.length
  | [] => by simp [leNat]
  | b :: bs => by
    have h1 := leNat_lt bs
    have h2 := b.isLt
    simp only [leNat, List.length_cons, Nat.pow_succ]
    omega

theorem leBytes_leNat : ∀ bs : List Byte, leBytes bs.length (leNat bs) = bs
  | [] => rfl
  | b :: bs => by
    have h2 := b.isLt
    have h3 : (b.toNat + 256 * leNat bs) / 256 = leNat bs := by omega
    have h4 : BitVec.ofNat 8 (b.toNat + 256 * leNat bs) = b := by
      apply BitVec.eq_of_toNat_eq
      simp only [BitVec.toNat_ofNat]
      omega
    simp only [leNat, List.length_cons, leBytes, h3, h4, leBytes_leNat bs]

/-- Losing memory leaves the canonical form. -/
theorem loseMemory_wf (s : State) : Memory.wf (loseMemory s) = true := rfl

/-- The memory of a reset machine is in its canonical form. -/
theorem reset_memory_wf : Memory.wf State.reset = true := rfl

end Sys2Proof.Machine
end

