-- ==== Sys2Proof/Laws/Join.lean ====
section
/-!
SUPPORT. The size of a continuation record.
-/

namespace Sys2Proof.Machine

/-- A list of lists of one length is as long as their number times that length. -/
theorem flatMap_length {α β : Type} (l : List α) (f : α → List β) (n : Nat) (h : ∀ a, (f a).length = n) :
    (l.flatMap f).length = n * l.length := by
  induction l with
  | nil => simp
  | cons a l ih => simp [h, ih, Nat.mul_add, Nat.add_comm]

/-- R342: a continuation record is 288 + 384 k bytes, k the number of its live vector registers. -/
theorem contRecord_length (s : State) (c : Cont) : (contRecord s c).length = contBytes c.live := by
  have hw (w : Word) : (wordBytes w).length = 4 := length_leBytes 4 _
  have hu : ((List.range 48).flatMap fun i => wordBytes (Sparse.get 0 c.u (16 + i))).length = 4 * 48 := by
    rw [flatMap_length _ _ 4 fun _ => hw _, List.length_range]
  have hv : ((liveRegs c.live).flatMap fun v => (List.range 96).flatMap fun l =>
      wordBytes ((Sparse.get [] c.v v).getD l 0)).length = 384 * (liveRegs c.live).length :=
    flatMap_length _ _ 384 fun _ => by rw [flatMap_length _ _ 4 fun _ => hw _, List.length_range]
  rw [contRecord, List.length_append, List.length_append, length_leBytes, hu, hv, contBytes]

end Sys2Proof.Machine
end

