-- ==== Sys2Proof/Laws/Slot.lean ====
section
/-!
SUPPORT. What the shared operation `slot` answers: one lemma for each way out that the meanings of instructions use.
-/

namespace Sys2Proof.Machine

/-- Nothing stops a slot that issues before its own checks. -/
theorem precheck_issues {s : State} {w : Who} {c : Clause} {i : Instr} (h : issues s w c i) :
    precheck s w c i = none := by
  obtain ⟨-, -, -, hp, hv, ht, hz, hk⟩ := h
  simp [precheck, hp, hv, ht, hz, hk]

/-- A slot of a split is `groupSlot` for its issuer. -/
theorem slot_split {s : State} {w : Who} {c : Clause} {i : Instr} (h : issues s w c i) (body : State → Res) :
    slot i body s = groupSlot i body s w c := by
  obtain ⟨ha, hw, hc, -⟩ := h
  simp [slot, ha, hw, hc]

/-- The issuer of a state in which a split issues. -/
theorem issuer_issues {s : State} {w : Who} {c : Clause} {i : Instr} (h : issues s w c i) : issuer s = some w := by
  obtain ⟨ha, hw, -⟩ := h
  simp [issuer, ha, hw]

/-- The body of an instruction that only a split issues, where one does. -/
theorem withWho_issues {s : State} {w : Who} {c : Clause} {i : Instr} (h : issues s w c i) (f : Who → Res) :
    withWho s f = f w := by
  simp [withWho, issuer_issues h]

/-- A slot whose checks pass retires. -/
theorem complete_clears {s : State} {w : Who} {c : Clause} {i : Instr} {o : Out} (h : clears s w c i o) :
    complete s w c i o = .next (slotDone w c i o) := by
  obtain ⟨-, hw, hl, hq, hs, hwin, hsib, hx⟩ := h
  have h1 : (longLatency i && decide (15 ≤ flagOf w.grp c.flag)) = false := by
    cases hi : longLatency i
    · rfl
    · simpa using hl hi
  have h2 : (o.flow.closes && w.task.rooted.isNone) = false := by
    cases hf : o.flow.closes
    · rfl
    · simpa using (hq hf).1
  have h3 : (decide (i = .exit) && keepsPair s w) = false := by
    by_cases hi : i = .exit
    · simp [hi, hx hi]
    · simp [hi]
  simp [complete, hw, h1, h2, hs, hwin, hsib, h3, noteConflicts, raceStays]

/-- A slot of a split whose body answers effects retires with them. -/
theorem slot_ok {s : State} {w : Who} {c : Clause} {i : Instr} {body : State → Res} {o : Out}
    (h : issues s w c i) (hb : body s = .ok o) (hc : clears s w c i o) :
    slot i body s = .next (slotDone w c i o) := by
  rw [slot_split h, groupSlot, precheck_issues h]
  have hf : (o.flow.closes && !closeFits w) = false := by
    cases h : o.flow.closes
    · rfl
    · simpa using (hc.2.2.2.1 h).2
  simp only [hb, hf, hc.1]
  exact complete_clears hc

/-- A slot of a split whose body traps takes the trap. -/
theorem slot_trap {s : State} {w : Who} {c : Clause} {i : Instr} {body : State → Res} {t : Trap}
    (h : issues s w c i) (hb : body s = .trap t) : slot i body s = settle s w (.trap t) := by
  rw [slot_split h, groupSlot, precheck_issues h]
  simp only [hb]

/-- A slot of a split whose body waits, exhausts or closes a quantum that ends below 2^63 first is settled so. -/
theorem slot_settle {s : State} {w : Who} {c : Clause} {i : Instr} {body : State → Res} {r : Res}
    (h : issues s w c i) (hb : body s = r) (hr : ∀ o, r ≠ .ok o) (hq : r = .closeFirst → closeFits w = true) :
    slot i body s = settle s w r := by
  rw [slot_split h, groupSlot, precheck_issues h]
  cases r <;> simp_all

/-- A slot of a control core whose body answers effects retires with them. -/
theorem slot_core {s : State} {d : Nat} {c : Clause} {i : Instr} {body : State → Res} {o : Out}
    (h : coreIssues s d c i) (hb : body s = .ok o) : slot i body s = .next (coreDone d c i o) := by
  obtain ⟨ha, hc, hon, hz, hl⟩ := h
  have h1 : (longLatency i && decide (15 ≤ Sparse.get 0 (coreOf s d).flags c.flag)) = false := by
    cases hi : longLatency i
    · rfl
    · simpa using hl hi
  simp [slot, ha, hc, coreSlot, hon, hz, hb, h1]

/-- A body that answers effects whoever issues makes the instruction run. -/
theorem slot_runs {s : State} {i : Instr} {body : State → Res} {o : Out} (hx : exec i s = slot i body s)
    (hb : body s = .ok o) : runs s i o :=
  ⟨fun _ _ h hc => hx.trans (slot_ok h hb hc), fun _ _ h => hx.trans (slot_core h hb)⟩

end Sys2Proof.Machine
end

