-- ==== Sys2Proof/Tests/Slice0.lean ====
section
/-!
SUPPORT. Tests: words written out from the tables of 02_encoding, the checks that refuse an ill-formed instruction, and
for every statement of `Certificates/Slice0/Obligations` states that meet its hypotheses.
-/

namespace Sys2Proof.Tests

open Sys2Proof Sys2Proof.Machine

set_option Elab.async false

/-! ### Words of the five formats (R84) -/

/-- VV: opcode, vd, va, vb, sub. -/
def vv (opc : BitVec 8) (vd va vb : BitVec 7) (sub : BitVec 3) : Word := opc ++ vd ++ va ++ vb ++ sub
/-- VS: opcode, vd, va, sb. -/
def vs (opc : BitVec 8) (vd va : BitVec 7) (sb : BitVec 10) : Word := opc ++ vd ++ va ++ sb
/-- SS: opcode, sd, sa, sub. -/
def ss (opc : BitVec 8) (sd sa : BitVec 10) (sub : BitVec 4) : Word := opc ++ sd ++ sa ++ sub
/-- VR: opcode, sd, va, sub, zero. -/
def vr (opc : BitVec 8) (sd : BitVec 10) (va : BitVec 7) (sub : BitVec 4) : Word := opc ++ sd ++ va ++ sub ++ 0#3
/-- BR: opcode, sc, u, cond, tm, zero. -/
def brw (opc : BitVec 8) (sc : BitVec 10) (u : BitVec 1) (cond : BitVec 3) (tm : BitVec 5) : Word :=
  opc ++ sc ++ u ++ cond ++ tm ++ 0#5

/-- A word decodes to an instruction. -/
def reads (w n : Word) (i : Instr) : Bool := match decode w (some n) with | .ok j => decide (j = i) | .error _ => false

/-- A word is refused with a cause. -/
def refuses (w n : Word) (c : IllegalCause) : Bool := match decode w (some n) with | .ok _ => false | .error e => decide (e = c)

/-! ### Decoding, family by family (R96-R110) -/

theorem test_decode_moves : reads (ss 0x01 2 5 0) 0 (.smov 2 5) && reads (ss 0x02 4 0 0) 0x12345678 (.slit 4 0x12345678) &&
    reads (ss 0x00 0 0 0) 0 .nop = true := by decide
theorem test_decode_salu : reads (ss 0x03 4 6 3) 0 (.smulhs 4 6) && reads (ss 0x03 1007 6 15) 0 (.smaxu 1007 6) &&
    reads (ss 0x04 4 0 1) 9 (.ssubLit 4 9) = true := by decide
theorem test_decode_scmp : reads (ss 0x05 4 6 2) 0 (.scmp 4 6 .lt) && reads (ss 0x06 4 0 9) 7 (.scmpLit 4 .geu 7) = true := by
  decide
theorem test_decode_sunary : reads (ss 0x07 4 6 3) 0 (.sclz 4 6) && reads (ss 0x07 4 6 10) 0 (.szext16 4 6) = true := by decide
theorem test_decode_division : reads (ss 0x08 4 6 0) 0 (.sdiv 4 6) && reads (ss 0x08 4 6 3) 0 (.sremu 4 6) = true := by decide
theorem test_decode_fields : reads (ss 0x09 4 6 1) 0 (.sbfxs 4 6) && reads (ss 0x0A 4 6 0) 0x0703 (.sbfi 4 6 0x0703) = true := by
  decide
theorem test_decode_scalar_memory : reads (ss 0x0B 4 6 2) 8 (.sld 4 6 .hs 8) && reads (ss 0x0C 4 6 2) 8 (.sst 4 6 .b 8) &&
    reads (ss 0x0D 4 63 0) 0 (.slr 4 63) && reads (ss 0x0D 4 1023 1) 0 (.slrC 4 1023) = true := by decide
theorem test_decode_mode : reads (ss 0x0E 0 6 0) 0 (.mode 6) && reads (ss 0x0E 4 0 1) 0 (.modeg 4) &&
    reads (ss 0x0F 0 0 0) 0x0207 (.modei 0x0207) = true := by decide
theorem test_decode_masks : reads (ss 0x10 4 31 1) 0 (.mfirst 4 31) && reads (ss 0x10 3 2 7) 0 (.mandn 3 2) &&
    reads (ss 0x10 3 0 9) 0 (.mall 3) = true := by decide
theorem test_decode_branches : reads (brw 0x11 4 0 2 0) 64 (.br 4 .nez 64) && reads (brw 0x12 0 1 1 5) 64 (.brv true true 5 64) &&
    reads (brw 0x13 0 0 0 0) 64 (.call 64) && reads (brw 0x14 0 0 0 0) 0 .ret = true := by decide
theorem test_decode_split_ends : reads (brw 0x15 0 0 0 0) 0 .recon && reads (brw 0x16 0 0 0 0) 0 .exit &&
    reads (brw 0x17 1023 0 0 0) 0 (.trapu 1023) = true := by decide
theorem test_decode_vector_integer : reads (vv 0x40 5 4 6 2) 0 (.vmul 5 4 6) && reads (vv 0x41 127 4 6 1) 0 (.vshl 127 4 6) &&
    reads (vv 0x42 5 4 6 0) 0 (.vmad 5 4 6) && reads (vs 0x45 5 4 1023) 0 (.vmuls 5 4 1023) = true := by decide
theorem test_decode_vector_unary : reads (vv 0x50 5 4 0 3) 0 (.vclz 5 4) && reads (vv 0x54 5 4 0 0) 0 (.vmov 5 4) &&
    reads (vv 0x54 5 0 0 1) 0 (.vlane 5) && reads (vs 0x55 5 0 9) 0 (.vbcs 5 9) = true := by decide
theorem test_decode_vector_compares : reads (vs 0x4F 0b0010_011 4 9) 0 (.vcmps .lt 3 4 9) &&
    reads (vv 0x51 0b0011111 4 6 7) 0 (.vcmpA 7 31 4 6) && reads (vv 0x52 1 4 6 1) 0 (.vcmpB true 1 4 6) &&
    reads (vv 0x53 5 4 6 7) 0 (.vsel 5 4 6 7) = true := by decide
theorem test_decode_single_lanes : reads (vr 0x56 4 6 0) 0 (.vget 4 6) && reads (vs 0x57 5 0 9) 0 (.vput 5 9) = true := by decide
theorem test_decode_vector_float : reads (vv 0x58 5 4 6 5) 0 (.vfcpys 5 4 6) && reads (vv 0x59 5 4 6 2) 0 (.vfnma 5 4 6) &&
    reads (vv 0x5A 5 4 0 6) 0 (.vfclass 5 4) && reads (vv 0x5B 3 4 6 6) 0 (.vfcmp .un 3 4 6) = true := by decide
theorem test_decode_conversion : reads (vv 0x5C 5 4 0 7) 0 (.vcvtLow 5 4 7) && reads (vv 0x5D 5 4 0 3) 0 (.vcvtHigh 5 4 3) &&
    reads (vv 0x5E 5 4 6 0) 0 (.vpack 5 4 6) && reads (vv 0x60 5 4 6 4) 0 (.vdot8i4 5 4 6) = true := by decide
theorem test_decode_lane_exchange : reads (vv 0x61 5 4 6 0) 0 (.vperm 5 4 6) && reads (vs 0x63 5 4 9) 0 (.vshu 5 4 9) &&
    reads (vr 0x65 4 6 12) 0 (.vred .mini 4 6) && reads (vv 0x66 5 4 0 3) 0 (.vscan .fadd true 5 4) = true := by decide
theorem test_decode_lane_memory : reads (vs 0x68 5 0 9) 8 (.vldh 5 9 8) && reads (vs 0x6A 5 0 9) 8 (.vst 5 9 8) &&
    reads (vv 0x6D 5 4 0 2) 0 (.vldc .b 5 4) && reads (vv 0x73 5 4 6 0b101) 0 (.vatmin .f32 true 5 4 6) = true := by decide
theorem test_decode_spills_and_barriers : reads (vv 0x76 0 4 0 0) 0 (.vspill 4) && reads (ss 0x79 0 15 0) 0 (.barw 15) &&
    reads (ss 0x7B 4 15 0) 0 (.barcfg 15 4) = true := by decide
theorem test_decode_log : reads (vv 0x90 5 4 0 1) 0 (.lcvtF 5 4) && reads (vv 0x99 5 4 6 0) 0 (.lsub 5 4 6) = true := by decide
theorem test_decode_copies : reads (ss 0xA2 4 8 0) 0 (.gath 4 8) && reads (ss 0xA5 4 0 0) 0 (.cpstg 4) = true := by decide
theorem test_decode_matrix : reads (ss 0xB0 4 8 0) 0 (.mwld 4 8) && reads (ss 0xB5 4 8 0) 0 (.mclrMatrix 4 8) = true := by decide
theorem test_decode_tasks : reads (ss 0xC0 4 8 0) 0 (.task 4 8) && reads (ss 0xC6 0 0 0) 0 .split &&
    reads (ss 0xC7 0 3 0) 0 (.kbar 3) = true := by decide
theorem test_decode_ports : reads (ss 0xC8 4 8 0) 0 (.send 4 8) && reads (ss 0xCA 0 8 0) 0 (.yield 8) = true := by decide
theorem test_decode_phasers : reads (ss 0xD2 4 8 0) 0 (.phsig 4 8) && reads (ss 0xD7 4 8 0) 0 (.phstat 4 8) = true := by decide
theorem test_decode_global : reads (ss 0xD8 4 8 9) 0 (.gatom .cas 4 8) && reads (ss 0xD8 0 8 0) 0 (.gatomOrdered .add 8) &&
    reads (ss 0xD9 0 8 8) 0 (.gred .fadd 8) && reads (ss 0xDC 4 8 0) 0 (.gsync 4 8) = true := by decide
theorem test_decode_control : reads (ss 0xE0 4 1023 0) 0 (.rdsr 4 1023) && reads (ss 0xE1 2 4 0) 0 (.wrsr 2 4) &&
    reads (ss 0xE9 0 0 0) 0 .wfi && reads (ss 0xF0 0 5 0) 0 (.bkpt 5) = true := by decide

/-! ### What the decoder refuses (R82) -/

theorem test_refuse_opcode : refuses 0xFF000000 0 .unassignedOpcode && refuses 0x18000000 0 .unassignedOpcode = true := by decide
theorem test_refuse_sub : refuses (ss 0x05 4 6 10) 0 .reservedSub && refuses (vv 0x42 5 4 6 1) 0 .reservedSub &&
    refuses (vv 0x53 5 4 6 0) 0 .reservedSub = true := by decide
theorem test_refuse_field : refuses (ss 0x02 4 1 0) 0 .mustBeZero && refuses (brw 0x11 4 0 0 0) 0 .mustBeZero = true := by decide

/-! ### Ill-formed instructions, one for each check of `Instr.wf` -/

theorem test_wf_own_row : Instr.wf (.gatom .add 0 8) = false := by decide
theorem test_wf_reserved_triple : Instr.wf (.vsel 5 4 6 0) = false := by decide
theorem test_wf_reserved_source : Instr.wf (.vcvtHigh 5 4 4) = false := by decide
theorem test_wf_branch_register : Instr.wf (.br 4 .al 64) = false := by decide
theorem test_wf_atomic_destination : Instr.wf (.vatadd false 5 4 6) = false := by decide
theorem test_wf_read_only : Instr.wf (.sadd 1008 4) = false := by decide
theorem test_wf_mode : Instr.wf (.modei 0x000C) = false := by decide
theorem test_wf_block : Instr.wf (.cpy 4 1017) = false := by decide
theorem test_wf_pair : Instr.wf (.vput 5 1023) = false := by decide
theorem test_wf_index_pair : Instr.wf (.vred .maxi 3 6) = false := by decide
theorem test_wf_results : Instr.wf (.recv 3 8) = false := by decide
theorem test_wf_phaser_results : Instr.wf (.phwait 1023 8) = false := by decide
theorem test_wf_target : Instr.wf (.call 2) = false := by decide
theorem test_wf_field_word : Instr.wf (.sbfi 4 6 0x20) = false := by decide
theorem test_wf_launch_word : Instr.wf (.slr 4 64) = false := by decide
theorem test_wf_good : Instr.wf (.sadd 4 5) && Instr.wf (.cpy 4 1016) && Instr.wf (.vsel 5 4 6 1) = true := by decide


/-- The record that `withFetchWord` gives its launch passes every check of R294. -/
theorem test_placed_record : checkRecord State.reset placedRecord (some 32768) = 0 := by decide
/-! ### States to test on -/

/-- A group about to issue the first of these words, by its number: split 0 of group 5, of team 4, task 3, launch 2 and
domain 1. -/
def placed (i : Instr) : State := { placeOnGroup State.reset (encode i) with actor := .split 5 0 }
/-- Changes of its group, split, team and task. -/
def grp (f : Group → Group) (s : State) : State := updGroup s 5 f
def spl (f : Split → Split) (s : State) : State := updSplit s 5 0 f
def tem (f : Team → Team) (s : State) : State := updTeam s 4 f
def tsk (f : Task → Task) (s : State) : State := updTask s 3 f
/-- Uniform registers, vector registers, mode and mask. -/
def sregs (u : List (Nat × Word)) : State → State := grp fun g => { g with u }
def vregs (v : List (Nat × List Word)) : State → State := grp fun g => { g with v := v.map fun e => (e.1, e.2 ++ List.replicate (96 - e.2.length) 0) }
def inMode (m : Word) : State → State := grp fun g => { g with mode := m }
def masked (m : Mask) : State → State := spl fun sp => { sp with mask := m }
/-- The control core of die 0 about to issue. -/
def onCore (i : Instr) : State := { placeOnCore State.reset (encode i) with actor := .core 0 }
def cor (f : Core → Core) (s : State) : State := updCore s 0 f
/-- A command in flight, of group 5, with a body. -/
def flying (flag sd : Nat) (body : CmdBody) : Cmd :=
  { group := 5, split := 0, team := 4, task := 3, flag, sd, into := [0], key := 0, clock := 0, prog := 0, body }
/-- The group behind a command that still writes the scratchpad bytes 0 to 3. -/
def holding (i : Instr) : State := { placed i with cmds := [(1, { flying 0 0 .waits with writes := [(0, 4)] })] }
/-- Context 0 with a table that maps the first 512 MiB to themselves, readable, writable and executable. -/
def mapped (s : State) : State :=
  { s with mem := [(0x20000, 3), (0x20002, 3), (0x30000, 29)], ctxs := [(0, { ctxOf s 0 with ttb := 0x20000 })] }

/-- Context 0 with ports and patterns 0-63 of die 0, and one port. -/
def ported (p : Port) (s : State) : State :=
  { s with ports := [(3, p)], ctxs := Table.upd s.ctxs 0 fun c => { c with pspace := [(0, 0x400000)], tspace := [(0, 0x400000)], mshare := [(0, 64)] } }

/-! ### What is asked of a state -/

/-- The issuing split, where it is the issuer and stands in a started clause. -/
def theSplit (s : State) : Option (Who × Clause) :=
  match s.actor with
  | .split g x => (whoOf s g x).bind fun w => w.sp.clause.map fun c => (w, c)
  | .core _ => none

/-- `issues`, as a decision. -/
def mayIssue (s : State) (i : Instr) (w : Who) (c : Clause) : Bool :=
  s.actor = .split w.g w.x && (pcHit s w c).isNone && !isPrivileged i && (timeUp w).isNone &&
    (hazardOf w i).isNone && !kindBad i w.grp.mode

/-- `clears`, as a decision. -/
def mayEnd (s : State) (i : Instr) (w : Who) (c : Clause) (o : Out) : Bool :=
  (collTouched w o.accs).isNone && (watchHit s w o.looks).isNone &&
    (!longLatency i || decide (flagOf w.grp c.flag < 15)) && (!o.flow.closes || (w.task.rooted.isSome && closeFits w)) &&
    (stripeConflict w.team w.grp.gidx w.sp.clock (b0Span w.sp) w.g w.x (o.stripes w)).isNone && (windowRace w (o.windows w)).isNone &&
    (sibConflicts w (o.shared w i)) = [] && (i ≠ .exit || !keepsPair s w)

/-- A split issues and nothing stops these effects: a state that meets the hypotheses of a statement with `runsOnSplit`. -/
def retires (i : Instr) (s : State) (o : State → Who → Clause → Out) (p : State → Who → Bool := fun _ _ => true) : Bool :=
  match theSplit s with
  | some (w, c) => p s w && mayIssue s i w c && mayEnd s i w c (o s w c)
  | none => false

/-- The same of `trapsOnSplit`, `waitsOnSplit` and the other ways to settle; `_r` tells which. -/
def settles (i : Instr) (s : State) (_r : State → Who → Clause → Res) (p : State → Who → Bool := fun _ _ => true) : Bool :=
  match theSplit s with
  | some (w, c) => p s w && mayIssue s i w c
  | none => false

/-- A split issues, and `p` holds there. -/
def issuing (i : Instr) (s : State) (p : State → Who → Bool) : Bool :=
  match theSplit s with
  | some (w, c) => p s w && mayIssue s i w c
  | none => false

/-- A split issues, and `p` holds there; `_q` is what then holds of the next state. -/
def reaches (i : Instr) (s : State) (p : State → Who → Clause → Bool) (_q : State → Who → State → Bool := fun _ _ _ => true) : Bool :=
  match theSplit s with
  | some (w, c) => p s w c && mayIssue s i w c
  | none => false

/-- `coreIssues`, as a decision. -/
def mayIssueCore (s : State) (i : Instr) (c : Clause) : Bool :=
  s.actor = .core 0 && onControlCore i && (hazardIn (coreOf s 0).pend 0 (uReads i ++ uWrites i)).isNone &&
    (!longLatency i || decide (Sparse.get 0 (coreOf s 0).flags c.flag < 15))

/-- The same of `runsOnCore` and `trapsOnCore`. -/
def coreRetires (i : Instr) (s : State) (_o : State → Clause → Out) : Bool :=
  match (coreOf s 0).clause with
  | some c => mayIssueCore s i c
  | none => false

def coreTraps (i : Instr) (s : State) (_cls _cause : Nat) : Bool :=
  match (coreOf s 0).clause with
  | some c => mayIssueCore s i c
  | none => false

/-- What the decisions mean. -/
theorem retires_spec {i : Instr} {s : State} {o : State → Who → Clause → Out} {p : State → Who → Bool}
    (h : retires i s o p = true) : ∃ w c, p s w = true ∧ issues s w c i ∧ clears s w c i (o s w c) := by
  unfold retires at h
  split at h
  · next w c hw =>
    simp only [theSplit] at hw
    split at hw
    · next g x ha =>
      simp only [Option.bind_eq_some_iff, Option.map_eq_some_iff, Prod.mk.injEq] at hw
      obtain ⟨w', hw', c', hc', rfl, rfl⟩ := hw
      simp only [Bool.and_eq_true, mayIssue, mayEnd, decide_eq_true_eq, Option.isNone_iff_eq_none, Bool.not_eq_true',
        Bool.or_eq_true] at h
      obtain ⟨⟨hp, hi⟩, he⟩ := h
      obtain ⟨⟨⟨⟨⟨h1, h2⟩, h3⟩, h4⟩, h5⟩, h6⟩ := hi
      obtain ⟨⟨⟨⟨⟨⟨⟨e1, e2⟩, e3⟩, e4⟩, e5⟩, e6⟩, e7⟩, e8⟩ := he
      have hgx : (.split g x : Actor) = .split w'.g w'.x := ha.symm.trans h1
      injection hgx with hg hx
      subst hg; subst hx
      refine ⟨w', c', hp, ⟨h1, hw', hc', h2, h3, h4, h5, h6⟩, ⟨e1, e2, ?_, ?_, e5, e6, e7, ?_⟩⟩
      · intro hl; simp [hl] at e3; exact e3
      · intro hl; simp [hl] at e4; exact e4
      · intro hl; simp [hl] at e8; simpa [hl] using e8
    · simp at hw
  · simp at h

/-! ### Uniform instructions -/

theorem witness_UniformArithmeticWritesResult :
    retires (.sadd 4 5) (sregs [(4, 0xFFFFFFFF), (5, 2)] (placed (.sadd 4 5))) (fun s _ _ => { s := uwrite s 4 1 }) &&
    retires (.ssraLit 4 32) (sregs [(4, 0x80000000)] (placed (.ssraLit 4 32))) (fun s _ _ => { s := uwrite s 4 0xFFFFFFFF }) &&
    coreRetires (.smulhs 4 5) (cor (fun c => { c with u := [(4, 0x80000000), (5, 2)] }) (onCore (.smulhs 4 5)))
      (fun s _ => { s := uwrite s 4 0xFFFFFFFF }) = true := by decide +kernel

theorem witness_UniformCompareUnaryAndFieldResults :
    retires (.scmp 4 5 .lt) (sregs [(4, 0xFFFFFFFF)] (placed (.scmp 4 5 .lt))) (fun s _ _ => { s := uwrite s 4 1 }) &&
    retires (.sabs 4 5) (sregs [(5, 0x80000000)] (placed (.sabs 4 5))) (fun s _ _ => { s := uwrite s 4 0x80000000 }) &&
    retires (.sbfxu 4 5) (sregs [(4, 0xF0000000), (5, 0x1F1C)] (placed (.sbfxu 4 5))) (fun s _ _ => { s := uwrite s 4 0xF }) &&
    retires (.sbfxs 4 5) (sregs [(4, 0xF0000000), (5, 0x1F1C)] (placed (.sbfxs 4 5)))
      (fun s _ _ => { s := uwrite s 4 0xFFFFFFFF }) &&
    retires (.sbfi 4 5 0x0704) (sregs [(4, 0xFFFFFFFF), (5, 0x1AB)] (placed (.sbfi 4 5 0x0704)))
      (fun s _ _ => { s := uwrite s 4 0xFFFFFABF }) = true := by decide +kernel

theorem witness_UniformLoadsAndStores_split :
    retires (.sld 4 5 .hs 2) (sregs [(5, 0x3FFC)] (tem (fun t => { t with mem := [(0x3FFF, 0x80)] }) (placed (.sld 4 5 .hs 2))))
      (fun s _ _ => { s := uwrite s 4 0xFFFF8000, accs := [⟨0, 0x3FFE, 2, 0⟩], looks := [⟨false, 0x3FFE, 2, true, false, 96⟩] }) &&
    retires (.sst 4 5 .b 0) (sregs [(4, 0x1FF), (5, 0x3FFF)] (placed (.sst 4 5 .b 0)))
      (fun s w _ => { s := spadWrite s w 0 0x3FFF [0xFF], accs := [⟨0, 0x3FFF, 1, 1⟩], looks := [⟨false, 0x3FFF, 1, false, true, 96⟩] }) &&
    settles (.sld 4 5 .w 0) (sregs [(5, 0x3FFE)] (placed (.sld 4 5 .w 0)))
      (fun _ _ _ => .trap { cls := 4, cause := 1, d0 := 0x3FFE, d1 := 0x4000 }) &&
    settles (.sld 4 5 .w 0) (sregs [(5, 0x3FFB)] (placed (.sld 4 5 .w 0)))
      (fun _ _ _ => .trap { cls := 4, cause := 2, d0 := 0x3FFB, d1 := 0x4000 }) &&
    issuing (.sld 4 5 .w 0) (holding (.sld 4 5 .w 0)) (fun s w => heldAccess s w [⟨0, 0, 4, 0⟩]) = true := by decide +kernel

theorem witness_UniformLoadsAndStores_core :
    coreRetires (.sld 4 5 .w 0) (cor (fun c => { c with u := [(5, 0x3FFFC)], mem := [(0x3FFFF, 0x12)] }) (onCore (.sld 4 5 .w 0)))
      (fun s _ => { s := uwrite s 4 0x12000000 }) &&
    coreRetires (.sst 4 5 .h 0) (cor (fun c => { c with u := [(4, 0xAB), (5, 0x1FFFFFE)] }) (onCore (.sst 4 5 .h 0)))
      (fun s _ => { s := storeCore s 0 0xFFFFFE [0xAB, 0] }) &&
    coreTraps (.sld 4 5 .w 0) (cor (fun c => { c with u := [(5, 0x3FFFD)] }) (onCore (.sld 4 5 .w 0))) 4 1 &&
    coreTraps (.sld 4 5 .w 0) (cor (fun c => { c with u := [(5, 0x1000002)] }) (onCore (.sld 4 5 .w 0))) 4 2 = true := by decide +kernel

theorem witness_LocalAddressesNameAllocations :
    (match theSplit (placed .nop) with
     | some (w, _) =>
       let s := placed .nop
       decide (locate s w 0x3FFC 4 = Place.at 0 0x3FFC) && decide (locate s w 0x3FFD 4 = Place.out 0x4000) &&
         decide (locate s w 0x1003FFC 4 = Place.at 0 0x3FFC) && decide (locate s w 0x1100000 4 = Place.out 1) &&
         decide (locate s w 0x100000 4 = Place.out 0x4000) && decide (locate s w 0x2800000 4 = Place.out 0x4000)
     | none => false) = true := by decide +kernel

theorem witness_LaunchWordsModeAndMasks :
    retires (.slr 4 3) (placed (.slr 4 3)) (fun s _ _ => { s := uwrite s 4 0x000F0101 }) &&
    retires (.slrC 4 0) (mapped (placed (.slrC 4 0))) (fun s _ _ => { s := uwrite s 4 0 }) &&
    retires (.mode 4) (sregs [(4, 0x020B)] (placed (.mode 4)))
      (fun s w _ => { s := updGroup s w.g fun g => { g with mode := 0x020B }, items := [⟨1, 0, true⟩] }) &&
    settles (.mode 4) (sregs [(4, 0x000C)] (placed (.mode 4))) (fun _ _ c => .trap { cls := 0, cause := 7, d0 := c.hw }) &&
    settles (.mode 4) (sregs [(4, 0x4000)] (placed (.mode 4))) (fun _ _ c => .trap { cls := 0, cause := 7, d0 := c.hw }) &&
    settles (.mode 4) (sregs [(4, 0x8000)] (placed (.mode 4))) (fun _ _ c => .trap { cls := 0, cause := 7, d0 := c.hw }) &&
    coreTraps (.mode 4) (cor (fun c => { c with u := [(4, 0xF)] }) (onCore (.mode 4))) 0 7 &&
    retires (.modei 0x420B) (placed (.modei 0x420B))
      (fun s w _ => { s := updGroup s w.g fun g => { g with mode := 0x420B }, items := [⟨1, 0, true⟩] }) &&
    retires (.mlast 4 0) (placed (.mlast 4 0)) (fun s _ _ => { s := uwrite s 4 95 }) &&
    retires (.mxor 2 0) (placed (.mxor 2 0)) (fun s _ _ => { s := tripleWrite s 2 (BitVec.allOnes 96) }) = true := by decide +kernel

theorem witness_BranchesCallsAndSoftwareTraps :
    retires (.br 4 .ltz 64) (sregs [(4, 0x80000000)] (placed (.br 4 .ltz 64))) (fun s _ _ => { s := traceJump s 64, flow := .jump 64 }) &&
    retires (.br 4 .eqz 64) (sregs [(4, 1)] (placed (.br 4 .eqz 64))) (fun s _ _ => { s }) &&
    retires (.call 64) (spl (fun sp => { sp with calls := List.replicate 31 8 }) (placed (.call 64)))
      (fun s w c => { s := traceJump (updSplit s w.g w.x fun sp => { sp with calls := word c.nextOff :: w.sp.calls }) 64,
                        flow := .jump 64 }) &&
    settles (.call 64) (spl (fun sp => { sp with calls := List.replicate 32 8 }) (placed (.call 64)))
      (fun _ _ _ => .trap { cls := 4, cause := 5, d0 := 32, d1 := 32 }) &&
    settles .ret (placed .ret) (fun _ _ _ => .trap { cls := 4, cause := 6 }) &&
    retires .ret (spl (fun sp => { sp with calls := [64] }) (placed .ret))
      (fun s w _ => { s := traceJump (updSplit s w.g w.x fun sp => { sp with calls := [] }) 64, flow := .jump 64 }) &&
    settles (.bkpt 7) (placed (.bkpt 7)) (fun _ _ _ => .trap { cls := 12, cause := 4, d0 := 7, rpcNext := true }) &&
    coreTraps (.trapu 7) (onCore (.trapu 7)) 13 1 = true := by decide +kernel

theorem witness_DivergentBranchesDivideSplits :
    retires (.brv false false 2 64) (placed (.brv false false 2 64)) (fun s _ _ => { s }) &&
    retires (.brv false true 2 64) (placed (.brv false true 2 64)) (fun s _ _ => { s := traceJump s 64, flow := .jump 64 }) &&
    settles (.brv true false 2 64) (sregs [(7, 1)] (placed (.brv true false 2 64)))
      (fun _ _ _ => .trap { cls := 1, cause := 1, lanes := some 1 }) &&
    retires (.brv false false 2 64) (sregs [(7, 1)] (placed (.brv false false 2 64)))
      (fun s w c => { s, post := divide w.g w.x 1 (splitPc w.sp) 64 c.nextOff }) = true := by decide +kernel

theorem witness_ReconvergenceAndExit :
    retires .recon (placed .recon) (fun s _ _ => { s }) &&
    retires .recon (spl (fun sp => { sp with recs := [0] }) (grp (fun g => { g with recs := [(0, BitVec.allOnes 96)] }) (placed .recon)))
      (fun s w c => { s, flow := .wait (.recon c), post := fun t => mergeAll t w.g }) &&
    retires .exit (placed .exit) (fun s w _ => { s, flow := .gone, post := fun t => exitSplit t w.g w.x }) &&
    coreRetires .exit (onCore .exit) (fun s _ => { s := updCore s 0 fun u => { u with halted := true }, flow := .gone }) = true := by
  decide +kernel

/-! ### Vector instructions -/

theorem witness_VectorElementArithmetic :
    retires (.vadd 5 4 6) (vregs [(4, [0xFFFFFFFF]), (6, [2])] (placed (.vadd 5 4 6)))
      (fun s w _ => vecOut s w 5 fun l => (if l = 0 then 1 else 0, 0)) &&
    retires (.vabs 5 4) (vregs [(4, [0x80])] (inMode 0x104 (placed (.vabs 5 4))))
      (fun s w _ => vecOut s w 5 fun l => if l = 0 then (0x7F, fSAT) else (0, 0)) &&
    retires (.vshls 5 4 9) (vregs [(4, [1])] (sregs [(9, 32)] (placed (.vshls 5 4 9)))) (fun s w _ => vecOut s w 5 fun _ => (0, 0)) = true := by
  decide +kernel

theorem witness_VectorLaneOperationsAndSingleLanes :
    retires (.vandn 5 4 6) (vregs [(4, [0xFF]), (6, [0xF])] (placed (.vandn 5 4 6)))
      (fun s w _ => vecOut s w 5 fun l => (if l = 0 then 0xF0 else 0, 0)) &&
    retires (.vget 4 6) (vregs [(6, List.replicate 95 0 ++ [7])] (sregs [(4, 95)] (placed (.vget 4 6))))
      (fun s _ _ => { s := uwrite s 4 7, items := [⟨2, 6 * 128 + 95, false⟩] }) &&
    settles (.vget 4 6) (sregs [(4, 96)] (placed (.vget 4 6))) (fun _ _ _ => .trap { cls := 4, cause := 3, d0 := 96, d1 := 96 }) &&
    retires (.vput 5 9) (sregs [(9, 7), (10, 95)] (placed (.vput 5 9)))
      (fun s w _ => { s := updGroup s w.g fun grp => vecWrite grp 5 (fun l => l = 95) fun _ => 7, items := [⟨2, 5 * 128 + 95, true⟩] })
      (fun s w => (writing s w).getLsbD 95) &&
    retires (.vput 5 9) (masked 1 (sregs [(9, 7), (10, 95)] (placed (.vput 5 9)))) (fun s _ _ => { s })
      (fun s w => !(writing s w).getLsbD 95) &&
    settles (.vput 5 9) (sregs [(10, 96)] (placed (.vput 5 9)))
      (fun _ _ _ => .trap { cls := 4, cause := 3, d0 := 96, d1 := 96 }) = true := by decide +kernel

theorem witness_VectorComparesWriteTriple :
    retires (.vcmpA 2 3 4 6) (vregs [(4, [0xFFFFFFFF])] (placed (.vcmpA 2 3 4 6))) (fun s _ _ => { s := tripleWrite s 3 1 }) &&
    retires (.vcmps .ne 3 4 9) (vregs [(4, [0x100])] (inMode 4 (placed (.vcmps .ne 3 4 9)))) (fun s _ _ => { s := tripleWrite s 3 1 }) &&
    retires (.vfcmp .lt 3 4 6) (vregs [(4, [0x7FC00000]), (6, [0x3F800000])] (inMode 7 (placed (.vfcmp .lt 3 4 6))))
      (fun s w _ => { s := raiseFlags (tripleWrite s 3 0) w fNV }) (fun _ w => (etypeFmt (modeEtype w.grp.mode)).isSome) = true := by
  decide +kernel

theorem witness_VectorFloatArithmetic :
    retires (.vfadd 5 4 6) (vregs [(4, [0x3F800000]), (6, [0x3F800000])] (inMode 7 (placed (.vfadd 5 4 6))))
      (fun s w _ => vecOut s w 5 fun l => (if l = 0 then 0x40000000 else 0, 0))
      (fun _ w => (etypeFmt (modeEtype w.grp.mode)).isSome) &&
    retires (.vfnms 5 4 6) (vregs [(4, [0x3F800000]), (5, [0x3F800000]), (6, [0x40000000])] (inMode 7 (placed (.vfnms 5 4 6))))
      (fun s w _ => vecOut s w 5 fun l => (if l = 0 then 0xC0400000 else 0x80000000, 0)) = true := by decide +kernel

/-- RNE of 3/2 is 2, RDN of −3/2 is −2. -/
theorem witness_RoundingTakesTheModesNeighbour :
    decide ((0 : Int) < 1) && decide ((roundAt 0 false 3 0 false 1).1 = 2) && decide ((roundAt 2 true 3 0 false 1).1 = 2) = true := by
  decide +kernel

theorem witness_VectorConversionPackingAndDotProducts :
    settles (.vpack 5 4 6) (placed (.vpack 5 4 6)) (fun _ w _ => .trap { cls := 3, cause := 1, d0 := w.grp.mode }) &&
    retires (.vpack 5 4 6) (vregs [(4, [0x12345]), (5, [0xABCD]), (6, [1])] (inMode 2 (placed (.vpack 5 4 6))))
      (fun s w _ => vecOut s w 5 fun l => (if l = 0 then 0x00012345 else 0, 0)) &&
    settles (.vunpk 5 4 2) (inMode 2 (placed (.vunpk 5 4 2))) (fun _ w _ => .trap { cls := 3, cause := 1, d0 := w.grp.mode }) &&
    retires (.vunpk 5 4 1) (vregs [(4, [0x80010000])] (inMode 2 (placed (.vunpk 5 4 1))))
      (fun s w _ => vecOut s w 5 fun l => (if l = 0 then 0xFFFF8001 else 0, 0)) &&
    retires (.vcvtLow 5 4 4) (vregs [(4, [0x000000FE])] (placed (.vcvtLow 5 4 4)))
      (fun s w _ => vecOut s w 5 fun l => (if l = 0 then 0xFFFFFFFE else 0, 0)) &&
    retires (.vdot4i8 5 4 6) (vregs [(4, [0x010203FF]), (5, [10]), (6, [0x01010102])] (placed (.vdot4i8 5 4 6)))
      (fun s w _ => vecOut s w 5 fun l => (if l = 0 then 14 else 0, 0)) = true := by decide +kernel

theorem witness_LaneExchangeReadsNamedLanes :
    retires (.vshu 5 4 9) (masked 7 (vregs [(4, [1, 2, 3])] (sregs [(9, 1)] (placed (.vshu 5 4 9)))))
      (fun s w _ => { laneResults s w 5 fun l => (if l = 0 then 1 else if l = 1 then 1 else 2, 0) with items := [⟨2, 512, false⟩, ⟨2, 513, false⟩] ++ (laneResults s w 5 fun _ => (0, 0)).items }) &&
    retires (.vperm 5 4 6) (masked 1 (vregs [(6, [96])] (placed (.vperm 5 4 6))))
      (fun s w _ => laneResults s w 5 fun _ => (0, 0)) = true := by decide +kernel

theorem witness_ReductionsAndScansFoldActiveLanes :
    retires (.vred .add 4 6) (masked 3 (vregs [(6, [5, 6, 7])] (placed (.vred .add 4 6)))) (fun s w _ => { s := raiseFlags (uwrite s 4 11) w 0 }) &&
    retires (.vred .mini 4 6) (masked 0 (placed (.vred .mini 4 6)))
      (fun s w _ => { s := raiseFlags (uwrite (uwrite s 4 0x7FFFFFFF) 5 0xFFFFFFFF) w 0 }) &&
    retires (.vred .maxi 4 6) (masked 7 (vregs [(6, [5, 6, 6])] (placed (.vred .maxi 4 6))))
      (fun s w _ => { s := raiseFlags (uwrite (uwrite s 4 6) 5 1) w 0 }) &&
    retires (.vred .fadd 4 6) (masked 3 (vregs [(6, [0x3F800000, 0x3F800000])] (inMode 7 (placed (.vred .fadd 4 6)))))
      (fun s w _ => { s := raiseFlags (uwrite s 4 0x40000000) w 0 }) &&
    retires (.vscan .add true 5 4) (masked 7 (vregs [(4, [1, 2, 3])] (placed (.vscan .add true 5 4))))
      (fun s w _ => vecOut s w 5 fun l => ([0, 1, 3].getD l 0, 0)) = true := by decide +kernel

theorem witness_LaneLoadsAndStores :
    retires (.vldh 5 9 2) (masked 2 (sregs [(9, 0x3FFA)] (tem (fun t => { t with mem := [(0x3FFE, 0x12)] }) (placed (.vldh 5 9 2)))))
      (fun s w _ => { s := updGroup s w.g fun grp => vecWrite grp 5 (fun l => (writing s w).getLsbD l) fun _ => 0x12,
                        accs := [⟨0, 0x3FFE, 2, 0⟩], items := [⟨2, 641, true⟩], looks := [⟨false, 0x3FFE, 2, true, false, 1⟩] }) &&
    retires (.vstc .b 5 4) (masked 3 (vregs [(4, [8, 8]), (5, [1, 2])] (placed (.vstc .b 5 4))))
      (fun s w _ => { s := spadWrites s w [(0, 8, [1]), (0, 8, [2])], accs := [⟨0, 8, 1, 1⟩, ⟨0, 8, 1, 1⟩],
                        looks := [⟨false, 8, 1, false, true, 0⟩, ⟨false, 8, 1, false, true, 1⟩] }) &&
    settles (.vldc .w 5 4) (masked 7 (vregs [(4, [2, 0x4000, 0x3FFE])] (placed (.vldc .w 5 4))))
      (fun _ _ _ => .trap { cls := 4, cause := 1, d0 := 0x4000, d1 := 0x4000, lanes := some 6 })
      (fun s w => decide (lanesOf (writing s w) = [0, 1, 2]) && decide (locate s w 2 4 = .at 0 2) &&
        decide (locate s w 0x4000 4 = .out 0x4000) && decide (locate s w 0x3FFE 4 = .out 0x4000)) &&
    settles (.vst 5 9 2) (masked 3 (placed (.vst 5 9 2)))
      (fun _ _ _ => .trap { cls := 4, cause := 2, d0 := 2, d1 := 0x4000, lanes := some 3 })
      (fun s w => decide (locate s w 2 4 = .at 0 2) && decide (locate s w 6 4 = .at 0 6)) &&
    settles (.vldh 5 9 1) (masked 0 (placed (.vldh 5 9 1))) (fun _ _ _ => .trap { cls := 4, cause := 2, d0 := 1, d1 := 0x4000, lanes := some 0 })
      (fun s w => decide (lanesOf (writing s w) = [])) &&
    settles (.vldb 5 9 0) (masked 2 (holding (.vldb 5 9 0))) (fun _ _ _ => .stall 7)
      (fun s w => heldAccess s w [⟨0, 1, 1, 0⟩]) = true := by decide +kernel

theorem witness_LaneAtomicsApplyInLaneOrder :
    retires (.vatadd true 5 4 6) (masked 3 (vregs [(4, [0x3FFC, 0x3FFC]), (6, [1, 2])] (placed (.vatadd true 5 4 6))))
      (fun s w _ => { s := updGroup (updTeam s 4 fun tm => { tm with mem := [(0x3FFC, 3)] }) 5 fun grp =>
                        vecWrite grp 5 (fun l => (writing s w).getLsbD l) fun l => if l = 1 then 1 else 0,
                        accs := [⟨0, 0x3FFC, 4, 1⟩, ⟨0, 0x3FFC, 4, 1⟩], items := [⟨2, 640, true⟩, ⟨2, 641, true⟩],
                        looks := [⟨false, 0x3FFC, 4, true, true, 0⟩, ⟨false, 0x3FFC, 4, true, true, 1⟩] }) &&
    retires (.vatmax .u32 false 0 4 6) (masked 1 (vregs [(4, [0]), (6, [0x80000000])] (placed (.vatmax .u32 false 0 4 6))))
      (fun s _ _ => { s := updTeam s 4 fun tm => { tm with mem := [(3, 0x80)] }, accs := [⟨0, 0, 4, 10⟩],
                        looks := [⟨false, 0, 4, true, true, 0⟩] }) &&
    settles (.vator true 5 4 6) (masked 3 (vregs [(4, [0x4000, 0x4002])] (placed (.vator true 5 4 6))))
      (fun _ _ _ => .trap { cls := 4, cause := 2, d0 := 0x4002, d1 := 0x4000, lanes := some 2 })
      (fun s w => decide (lanesOf (writing s w) = [0, 1]) && decide (locate s w 0x4002 4 = .out 0x4000)) &&
    settles (.vatxchg 5 4 6) (masked 3 (vregs [(4, [0x4000, 0x1000000])] (placed (.vatxchg 5 4 6))))
      (fun _ _ _ => .trap { cls := 4, cause := 4, d0 := 0x4000, d1 := 0x4000, lanes := some 3 })
      (fun s w => decide (lanesOf (writing s w) = [0, 1]) && decide (locate s w 0x4000 4 = .out 0x4000)) &&
    settles (.vatand false 0 4 6) (masked 1 (holding (.vatand false 0 4 6))) (fun _ _ _ => .stall 7)
      (fun s w => heldAccess s w [⟨0, 0, 4, 3⟩]) = true := by decide +kernel

theorem witness_SpillStackPushesAndPops :
    retires (.vspill 5) (spl (fun sp => { sp with lanes := 1, mask := 1, spill := 15 }) (vregs [(5, [7, 8])] (placed (.vspill 5))))
      (fun s w _ =>
        let t := updGroup s w.g fun grp => { grp with spills := [(15, [7] ++ List.replicate 95 0)] }
        { s := updSplit t w.g w.x fun sp => { sp with spill := 16 } }) &&
    settles (.vspill 5) (spl (fun sp => { sp with spill := 16 }) (placed (.vspill 5)))
      (fun _ _ _ => .trap { cls := 4, cause := 7, d0 := 16, d1 := 16 }) &&
    settles (.vfill 5) (placed (.vfill 5)) (fun _ _ _ => .trap { cls := 4, cause := 8, d0 := 0, d1 := 16 }) &&
    retires (.vfill 5) (spl (fun sp => { sp with lanes := 1, mask := 1, spill := 1 })
        (grp (fun g => { g with spills := [(0, [7] ++ List.replicate 95 0)] }) (placed (.vfill 5))))
      (fun s w _ =>
        let t := updGroup s w.g fun grp => vecWrite grp 5 (fun l => l = 0) fun _ => 7
        { s := updSplit t w.g w.x fun sp => { sp with spill := 0 }, items := [⟨2, 640, true⟩] }) = true := by decide +kernel


/-! ### Commands in flight -/

theorem witness_DivisionsIssueIntoFlight :
    retires (.sdiv 4 5) (sregs [(4, 0x80000000), (5, 0xFFFFFFFF)] (placed (.sdiv 4 5)))
      (fun s w c => { s := { s with
        fresh := s.fresh + 1
        cmds := Table.put s.cmds s.fresh
          { group := w.g, split := w.x, team := w.grp.team, task := w.grp.task, flag := c.flag, sd := 4
            into := [w.x], key := agentKey w, clock := w.sp.clock, prog := s.prog, body := .div 0x80000000 } } }) &&
    retires (.sremu 4 5) (sregs [(4, 7)] (placed (.sremu 4 5)))
      (fun s w c => { s := { s with
        fresh := s.fresh + 1
        cmds := Table.put s.cmds s.fresh
          { group := w.g, split := w.x, team := w.grp.team, task := w.grp.task, flag := c.flag, sd := 4
            into := [w.x], key := agentKey w, clock := w.sp.clock, prog := s.prog, body := .div 7 } } }) &&
    coreRetires (.srem 4 5) (cor (fun c => { c with u := [(4, 0xFFFFFFF9), (5, 2)] }) (onCore (.srem 4 5)))
      (fun s c => { s := updCore s 0 fun k => { k with divs := k.divs ++ [(c.flag, 4, 0xFFFFFFFF)] } }) = true := by decide +kernel

theorem witness_LogOperationsIssueIntoFlight :
    retires (.lmul 5 4 6) (masked 1 (placed (.lmul 5 4 6)))
      (fun s w c => { s := { s with
        fresh := s.fresh + 1
        cmds := Table.put s.cmds s.fresh
          { group := w.g, split := w.x, team := w.grp.team, task := w.grp.task, flag := c.flag, sd := 5
            into := [w.x], key := agentKey w, clock := w.sp.clock, prog := s.prog, body := .log [(0, lMul 0 0 0)] } }
                      items := [⟨2, 640, true⟩] }) = true := by decide +kernel

/-! ### Team barriers -/

theorem witness_TeamBarrierInstructions :
    settles (.bara 3) (tem (fun t => { t with bars := [(3, { cfg := 2 })] }) (placed (.bara 3)))
      (fun _ _ _ => .trap { cls := 4, cause := 12, d0 := 3 }) (fun _ w => !(barOf w.team 3).cfg.getLsbD w.grp.gidx) &&
    retires (.bara 0) (placed (.bara 0)) (fun s w _ => { s := arrive s w 0 1, post := fun u => barSettle 4 u 4 0 })
      (fun _ w => (barOf w.team 0).cfg.getLsbD w.grp.gidx) &&
    retires (.bar 15) (placed (.bar 15))
      (fun s w _ => { s := seePhase (arrive (fixBar s w 15) w 15 1) w 15 1, flow := .wait (Mode.bar 15 1), post := fun u => barSettle 4 u 4 15 }) &&
    settles (.bara 1) (spl (fun sp => { sp with arr := [(1, 1)] }) (placed (.bara 1))) (fun _ _ _ => .barrier 15) &&
    settles (Instr.bar 1) (tem (fun t => { t with bars := [(1, { cfg := 1, next := some 1 })] }) (placed (.bar 1)))
      (fun s _ _ => .trap { cls := 4, cause := 11, d0 := 1, target := groupZero s 4 }) &&
    retires (.barw 2) (placed (.barw 2)) (fun s w _ => { s := fixBar s w 2 }) &&
    retires (.barw 2) (tem (fun t => { t with bars := [(2, { cfg := 1, done := 1, clocks := [(1, 9)] })] })
        (spl (fun sp => { sp with arr := [(2, 1)] }) (placed (.barw 2))))
      (fun s w _ => { s := seePhase (fixBar s w 2) w 2 1, post := fun u => updSplit u w.g w.x fun sp => { sp with clock := max sp.clock 9 } }) &&
    retires (.barw 2) (spl (fun sp => { sp with arr := [(2, 1)] }) (placed (.barw 2)))
      (fun s w _ => { s := seePhase (fixBar s w 2) w 2 1, flow := .wait (Mode.bar 2 1) }) &&
    settles (.barcfg 3 4) (sregs [(4, 2)] (placed (.barcfg 3 4))) (fun _ _ _ => .trap { cls := 4, cause := 11, d0 := 2 }) &&
    settles (.barcfg 3 4) (tem (fun t => { t with bars := [(3, { cfg := 1, touched := true })] }) (sregs [(4, 1)] (placed (.barcfg 3 4))))
      (fun _ _ _ => .trap { cls := 4, cause := 11, d0 := 1 }) &&
    retires (.barcfg 3 4) (sregs [(4, 0x10001)] (placed (.barcfg 3 4)))
      (fun s _ _ => { s := updBar s 4 3 fun k => { k with next := some 0x10001 }, items := [⟨4, 3, true⟩] }) &&
    retires (.kbar 3) (placed (.kbar 3))
      (fun s _ _ => { s := updTask (updSplit s 5 0 fun sp => { sp with karr := [(3, 1)] }) 3 fun t => { t with kquant := [(7, 0)] }
                      flow := .close
                      post := fun u => kbarSettleAll (updSplit u 5 0 fun sp => { sp with mode := Mode.kbar 3 1 }) 3 }) = true := by decide +kernel

/-- A phase that can complete, with a split that waits for it, and one that cannot. -/
theorem witness_BarrierPhasesCompleteWhenAllArrived :
    (let s := spl (fun sp => { sp with arr := [(3, 1)], mode := Mode.bar 3 1 }) (placed .nop)
     match Table.find s.teams 4, whoOf s 5 0 with
     | some tm, some w => barReady s 4 3 (barOf tm 3) && decide (w.sp.mode = Mode.bar 3 1) && decide (w.grp.team = 4) &&
         !barReady s 4 4 (barOf tm 4)
     | _, _ => false) = true := by decide +kernel

/-! ### Copies -/

/-- A second launch, of domain 9. -/
def beside (s : State) : State :=
  { s with launches := s.launches ++ [(20, { ctx := 1, num := 0, dom := 9, words := placedRecord, order := 20 })] }

/-- A block of `CPY` in s8: control word, source, destination, bytes. -/
def cpyBlock (ctl src dst n : Word) : State → State :=
  sregs [(8, ctl), (9, src), (11, dst), (15, n)]

/-- A block of `GATH` in s8: 4 bytes a row to 0x100, one index, at the start of the scratchpad or in a vector register. -/
def gathBlock (ctl place : Word) : State → State :=
  sregs [(8, ctl), (11, 0x100), (13, if ctl = 16 then 3 else 0), (15, 4), (16, 1), (17, place)]

/-- The block of a copy instruction passes the checks, its index list waits for nothing, and `q` holds of it. -/
def plans (opc n : Nat) (q : State → Who → Desc → Plan → Bool) (s : State) (w : Who) : Bool :=
  let d : Desc := { opc, ws := block s 8 n, sd := 4 }
  !d.listWaits s w && match d.plan s w with | .ok p => q s w d p | .error _ => false

/-- The view is read, the command is not refused and touches no page of another domain. -/
def allowed (s : State) (w : Who) (d : Desc) (p : Plan) : Bool :=
  readReady s w && (d.refusal s w).isNone && (copyForeign s w d p.rows).isNone

/-- Its ranges wait for nothing. -/
def unheld (s : State) (w : Who) (d : Desc) (p : Plan) : Bool :=
  allowed s w d p && !heldAccess s w p.accs && (srcRanges d p.rows).all fun e => !inFlight s w e.1 e.2

/-- A second quantum, whose reads wait for a commit. -/
def later (s : State) : State := spl (fun sp => { sp with clock := 65536 }) s

/-- A second team of the task, 8, of index 1 and 0x3000 bytes at the last commit point, with no group that runs. -/
def twoTeams (s : State) : State :=
  tsk (fun t => { t with teams := [4, 8], words := t.words.set 3 0x000F0201 })
    { s with teams := s.teams ++ s.teams.map fun e => (8, { e.2 with tidx := 1, groups := [], size := 0x3000, epochSize := 0x3000 }) }

/-- A posted write of the second team's, of its first bytes, in flight. -/
def windowHeld (s : State) : State :=
  { s with cmds := [(1, { flying 0 0 .waits with team := 8, time := some 0, writes := [(0, 4)] })] }

theorem witness_CopyCommandsIssueIntoFlight_stops :
    settles (.gath 4 8) (gathBlock 0 0x80000000 (holding (.gath 4 8))) (fun _ _ _ => .stall 7)
      (fun s w => ({ opc := 0xA2, ws := block s 8 12, sd := 4 } : Desc).listWaits s w) &&
    settles (.cpy 4 8) (cpyBlock 0x803 0 0x100 4 (placed (.cpy 4 8))) (fun _ _ _ => .trap { cls := 7, cause := 1, aux := 0 })
      (fun s w => (({ opc := 0xA0, ws := block s 8 8, sd := 4 } : Desc).plan s w).toOption.isNone) &&
    settles (.cpy 4 8) (cpyBlock 19 0 0x100 4 (later (placed (.cpy 4 8)))) (fun _ _ _ => .stall 8)
      (plans 0xA0 8 fun s w d _ => decide (d.cmode = 2) && !readReady s w) &&
    settles (.cpy 4 8) (cpyBlock 0 0 0x100 4 (mapped (beside { placed (.cpy 4 8) with doms := [(1, { q := 32768 }), (9, { q := 1, pages := [0] })] })))
      (fun _ _ _ => .trap { cls := 8, cause := 2 })
      (plans 0xA0 8 fun s w d p => (d.refusal s w).isNone && decide (copyForeign s w d p.rows = some 0)) &&
    settles (.cpy 4 8) (cpyBlock 0 0 0x100 4 (later (placed (.cpy 4 8)))) (fun _ _ _ => .stall 8)
      (plans 0xA0 8 fun s w d p => decide (d.cmode < 2) && (d.refusal s w).isNone && (copyForeign s w d p.rows).isNone && d.srcGlobal && !readReady s w) &&
    settles (.cpy 4 8) (cpyBlock 3 0x1100000 0x100 4 (windowHeld (twoTeams (placed (.cpy 4 8))))) (fun _ _ _ => .stall 7)
      (plans 0xA0 8 fun s w d p => allowed s w d p && heldAccess s w (p.accs.filter fun a => a.team ≠ w.team.tidx && a.how = 0)) &&
    settles (.cpy 4 8)
      (cpyBlock 1 0 0x1000 4 (mapped (tsk (fun t => { t with rooted := none })
        (grp (fun g => { g with splits := (g.splits.map fun e => (0, { e.2 with clock := 5 })) ++ g.splits.map fun e => (1, e.2) }) (placed (.cpy 4 8))))))
      (fun _ _ _ => .turn .turn)
      (plans 0xA0 8 fun s w d p => unheld s w d p && decide (globalBytes d p.rows = 4) && w.task.rooted.isNone && !itsTurn s w) &&
    settles (.cpy 4 8) (cpyBlock 1 0 0x1000 4 (mapped (tsk (fun t => { t with words := t.words.set 17 3 }) (placed (.cpy 4 8)))))
      (fun _ _ _ => .exhaust 3)
      (plans 0xA0 8 fun s w d p => unheld s w d p && w.task.rooted.isSome && decide (writeTotal w (globalBytes d p.rows) = 4)) = true := by decide +kernel

theorem witness_CopyCommandsIssueIntoFlight_runs :
    reaches (.gath 4 8) (gathBlock 16 127 (placed (.gath 4 8)))
      (fun s w c => plans 0xA2 12 (fun s w d p => readReady s w && decide (d.refusal s w = some 2) &&
        mayEnd s (.gath 4 8) w c { s, items := p.items }) s w) &&
    reaches (.cpy 4 8) (cpyBlock 3 0 0x100 4 (placed (.cpy 4 8)))
      (fun s w c => plans 0xA0 8 (fun s w d p => unheld s w d p && decide (globalBytes d p.rows = 0) && (readRows s w d p.rows).toOption.isSome &&
        mayEnd s (.cpy 4 8) w c { s, accs := p.accs, items := p.items, looks := p.looks }) s w) &&
    reaches (.scat 4 8)
      (gathBlock 1 0x80000000 (mapped (tsk (fun t => { t with words := t.words.set 17 4 }) (placed (.scat 4 8)))))
      (fun s w c => plans 0xA3 12 (fun s w d p => unheld s w d p && decide (writeTotal w (globalBytes d p.rows) = 4) && (readRows s w d p.rows).toOption.isSome &&
        mayEnd s (.scat 4 8) w c { s, accs := p.accs, items := p.items, looks := p.looks }) s w) = true := by decide +kernel


/-- A copy schedule of one entry in mapped memory at 0x1000, named by words 28-30 of the launch record: `CPY` of 4 bytes
inside the scratchpad, from 0 to 0x100. -/
def scheduled (i : Instr) : State :=
  let s := mapped (placed i)
  tsk (fun t => { t with words := (t.words.set 28 0x1000).set 30 1 })
    { s with mem := [(0x1000, 3), (0x100D, 1), (0x101C, 4)] ++ s.mem }

/-- Its entry as the schedule holds it. -/
def oneEntry : List Word := [3, 0, 0, 0x100, 0, 0, 0, 4, 0, 0, 0, 0, 0, 0, 0, 0]

/-- An entry whose index list is the word at offset 0. -/
def listEntry : List Word := [0, 0, 0, 0x100, 0, 0, 0, 4, 1, 0x80000000, 0, 0, 2, 0, 0, 0]

/-- The schedule as `CPSCH` installs it for a group. -/
def oneSched (owner : Nat) : Sched :=
  { owner, lbase := 0, gbase := 0, rounds := 1, sel := [0], entries := [oneEntry], round := 0, stage := 0, stages := 1
    released := 0, active := true, view := [0, 0, 0, 0] }

/-- The effects of a schedule command, by what a watch or a conflict check sees of them. -/
def schedOut (s : State) (wr : Bool) : Out := { s, items := [⟨4, 35, wr⟩] }

theorem witness_CopySchedulesInstallAndAdvance_cpsch :
    reaches (.cpsch 4 8) (sregs [(11, 1)] (scheduled (.cpsch 4 8)))
      (fun s w c =>
        w.team.sched.isNone && mayEnd s (.cpsch 4 8) w c (schedOut s true) && decide (Table.find s.teams w.grp.team = some w.team) &&
          match vaRead s w.launch.ctx w.team.die false w.launch.old 0x1000 64 with
          | .ok bs => !schedEntryBad (bytesWords 16 bs) && decide (bytesWords 16 bs = oneEntry) &&
              decide (stageBreak 65 none [(0, bytesWords 16 bs)] = none)
          | .error _ => false)
      (fun s w t => decide ((Table.find t.teams 4).bind (·.sched) = some (oneSched w.g)) && decide ((Table.find t.cmds s.fresh).map (·.body) = some (.done 0))) &&
    reaches (.cpsch 4 8) (sregs [(11, 65536)] (tem (fun t => { t with sched := some (oneSched 5) }) (scheduled (.cpsch 4 8))))
      (fun s w c => mayEnd s (.cpsch 4 8) w c (schedOut s true))
      (fun s _ t => decide ((Table.find t.cmds s.fresh).map (·.body) = some (.done 4))) &&
    reaches (.cpsch 4 8) (sregs [(11, 1)] { scheduled (.cpsch 4 8) with mem := [(0x1030, 4)] ++ (scheduled (.cpsch 4 8)).mem.drop 3 })
      (fun s w c => w.team.sched.isNone && mayEnd s (.cpsch 4 8) w c { s } &&
        match vaRead s w.launch.ctx w.team.die false w.launch.old 0x1000 64 with
        | .ok bs => schedEntryBad (bytesWords 16 bs)
        | .error _ => false)
      (fun s _ t => decide ((Table.find t.cmds s.fresh).map (·.body) = some (.done 6))) &&
    decide (stageBreak 65 none [(0, oneEntry.set 13 1)] = some 0) && decide (stageBreak 65 none [(0, oneEntry), (1, oneEntry.set 13 2)] = some 1) =
      true := by decide +kernel

theorem witness_CopySchedulesInstallAndAdvance_cpstg :
    reaches (.cpstg 4) (placed (.cpstg 4)) (fun s w c => w.team.sched.isNone && mayEnd s (.cpstg 4) w c (schedOut s true))
      (fun s _ t => decide ((Table.find t.cmds s.fresh).map (·.body) = some (.done 4))) &&
    reaches (.cpstg 4) (tem (fun t => { t with sched := some (oneSched 6) }) (placed (.cpstg 4)))
      (fun s w c => mayEnd s (.cpstg 4) w c (schedOut s true))
      (fun s _ t => decide ((Table.find t.cmds s.fresh).map (·.body) = some (.done 5))) &&
    reaches (.cpstg 4) (tem (fun t => { t with sched := some (oneSched 5) }) (placed (.cpstg 4)))
      (fun s w c =>
        let d := entryDesc (oneSched 5) 4 0 oneEntry
        match stageRead w [d] s [] with
        | .go [(d', p)] => decide (d' = d) && allowed s w d p && (copyWaits s w d p).isNone && !d.listWaits s w &&
            (readRows s w d p.rows).toOption.any (fun rows => rows.all fun r => r.data.isSome && r.late.isEmpty) && w.task.rooted.isSome &&
            decide (outstandingStages s w.grp.team < 8) && decide (Table.find s.teams w.grp.team = some w.team) &&
            decide (globalBytes d p.rows = 0) && mayEnd s (.cpstg 4) w c { schedOut s true with accs := p.accs, looks := p.looks }
        | _ => false)
      (fun s _ t => decide ((Table.find t.cmds (s.fresh + 1)).map (·.body) = some (.stage [s.fresh] 0x100))) = true := by decide +kernel

theorem witness_CopySchedulesInstallAndAdvance_stops :
    settles (.cpstg 4) (tem (fun t => { t with sched := some (oneSched 5) })
        { placed (.cpstg 4) with cmds := (List.range 8).map fun i => (70 + i, flying 1 4 (.stage [] 0)) }) (fun _ _ _ => .stall 6)
      (fun s w => decide (outstandingStages s w.grp.team = 8) && w.task.rooted.isSome &&
        (match stageRead w [entryDesc (oneSched 5) 4 0 oneEntry] s [] with
         | .go l => l.all fun e => (e.1.refusal s w).isNone && (copyForeign s w e.1 e.2.rows).isNone
         | _ => false)) &&
    settles (.cpstg 4) (tem (fun t => { t with sched := some { oneSched 5 with entries := [listEntry] } }) (holding (.cpstg 4))) (fun _ _ _ => .stall 7)
      (fun s w => match stageRead w [entryDesc (oneSched 5) 4 0 listEntry] s [] with | .stall n => decide (n = 7) | _ => false) &&
    reaches (.cpstg 4) (tem (fun t => { t with sched := some { oneSched 5 with entries := [oneEntry.set 3 0x3FFD] } }) (placed (.cpstg 4)))
      (fun s w c =>
        let d := entryDesc (oneSched 5) 4 0 (oneEntry.set 3 0x3FFD)
        !d.listWaits s w && (d.plan s w).toOption.isNone && mayEnd s (.cpstg 4) w c (schedOut s true) &&
          (match stageRead w [d] s [] with | .bad n => decide (n = 0) | _ => false))
      (fun s _ t => decide ((Table.find t.cmds s.fresh).map (·.body) = some (.done 6))) = true := by decide +kernel

theorem witness_CopySchedulesInstallAndAdvance_cpcur :
    settles (.cpcur 4 8) (sregs [(8, 1)] (placed (.cpcur 4 8))) (fun _ _ _ => .trap { cls := 7, cause := 1 }) &&
    retires (.cpcur 4 8) (placed (.cpcur 4 8)) (fun s _ _ => { s := uwrites s 4 [0, 0, 0, 0] }) &&
    retires (.cpcur 4 8) (tem (fun t => { t with sched := some (oneSched 5) }) (placed (.cpcur 4 8)))
      (fun s _ _ => { schedOut (uwrites s 4 [0, 0, 0, 1]) false with }) = true := by decide +kernel

/-- A copy command in flight, 77: 4 bytes to offset `dst` of the scratchpad, or to global address 0 while `dir` is 1. -/
def copying (what : Instr) (dir : Word) (dst : Nat) (refused : Option Word) : State :=
  let s := grp (fun g => { g with flags := [(0, 1)] }) (placed .nop)
  { s with
    arg := { a := 77 }
    cmds := [(77, { group := 5, split := 0, team := 4, task := 3, flag := 0, sd := 4, into := [0], key := 0, clock := 0, prog := 0
                    body := .copy 0xA0 [dir, 0, 0, word dst, 0, 0, 0, 4]
                      [{ pos := 0, src := windowForm 0 0, dst := if dir = 3 then windowForm 0 dst else dst, len := 4
                         data := some [1, 2, 3, 4] }] 0 0 none none refused })]
    script := [.event what { a := 77 }] }

theorem witness_CopyCompletionDeliversItsBytes :
    (let s := copying .copyCommandComplete 3 0x3FFC none
     match Table.find s.cmds 77 with
     | some c => !c.finished && (cmdLaunch s c).isSome && (Table.find s.groups c.group).isSome && (Table.find s.teams c.team).isSome &&
         decide (placeOf (windowForm 0 0x3FFC) = (0, 0x3FFC)) && (Table.find s.tasks c.task).isSome && decide (c.cursor = (0, 0)) && movesNow s c
     | none => false) &&
    (let s := copying .copyFault 1 0 none
     match Table.find s.cmds 77 with
     | some c => match c.body with
       | .copy _ ws rows _ _ _ _ _ => (match firstFault s 0 c ws rows with | some (.ok (1, 0, 0, true)) => true | _ => false)
       | _ => false
     | none => false) = true := by decide +kernel

/-! ### The matrix engine -/

/-- The effects of a matrix command, by what the checks see of them. -/
def matrixOut (s : State) (w : Who) (reads writes : List MxRange) (looks : List Look) : Out :=
  { s, accs := matrixAccs w reads writes, items := [⟨4, 32, true⟩], looks }

/-- The team's eight matrix commands in flight. -/
def engaged (s : State) : State := { s with cmds := (List.range 8).map fun i => (70 + i, flying 1 4 (.matrix [] none none 0)) }

theorem witness_MatrixStateCommands :
    settles (.mwld 4 8) (sregs [(8, 32)] (placed (.mwld 4 8))) (fun _ _ _ => .trap { cls := 14, cause := 1 }) &&
    settles (.mwld 4 8) (sregs [(9, 4), (10, 2), (8, 18)] (placed (.mwld 4 8))) (fun _ _ _ => .trap { cls := 14, cause := 4, aux := 1 }) &&
    settles (.mclrMatrix 4 8) (sregs [(8, 3)] (placed (.mclrMatrix 4 8))) (fun _ _ _ => .trap { cls := 14, cause := 2 }) &&
    settles (.mstat 4 8) (sregs [(8, 2)] (placed (.mstat 4 8))) (fun _ _ _ => .trap { cls := 14, cause := 1 }) &&
    reaches (.mwld 4 8) (sregs [(8, 18), (9, 0x2000), (10, 0x3F00)] (placed (.mwld 4 8)))
      (fun s w c => decide (matrixInFlight s w < 8) && !heldAccess s w (matrixAccs w [(0x2000, 8192, none), (0x3F00, 256, none)] []) &&
        decide (0x3F00 + 256 ≤ w.grp.size) &&
        mayEnd s (.mwld 4 8) w c (matrixOut s w [(0x2000, 8192, none), (0x3F00, 256, none)] []
          [⟨false, 0x2000, 8192, true, false, 96⟩, ⟨false, 0x3F00, 256, true, false, 96⟩])) &&
    reaches (.mtbl 4 8) (sregs [(8, 1), (9, 0), (10, 0x3F800000), (11, 0x3BF8)] (placed (.mtbl 4 8)))
      (fun s w c => decide (matrixInFlight s w < 8) && !heldAccess s w (matrixAccs w [(0x3BF8, 1028, none)] []) &&
        !notFinite 0 && !notFinite 0x3F800000 &&
        fracLt (cvalWord none 0).frac' (cvalWord none 0x3F800000).frac' &&
        (List.range 257).all (fun n => !(fmtF32.decode false (bytesWord (Sparse.read 0 w.team.mem (0x3BF8 + 4 * n) 4)).toNat).isInf) &&
        mayEnd s (.mtbl 4 8) w c (matrixOut s w [(0x3BF8, 1028, none)] [] [⟨false, 0x3BF8, 1028, true, false, 96⟩])) &&
    reaches (.mclrMatrix 4 8) (sregs [(8, 2)] (placed (.mclrMatrix 4 8)))
      (fun s w c => decide (matrixInFlight s w < 8) && !heldAccess s w (matrixAccs w [] []) &&
        mayEnd s (.mclrMatrix 4 8) w c (matrixOut s w [] [] [])) &&
    reaches (.mstat 4 8) (sregs [(8, 1)] (placed (.mstat 4 8)))
      (fun s w c => decide (matrixInFlight s w = 0) && mayEnd s (.mstat 4 8) w c (matrixOut s w [] [] [])) &&
    settles (.mstat 4 8) { placed (.mstat 4 8) with cmds := [(77, flying 1 4 (.matrix [] none none 0))] } (fun _ _ _ => .stall 15)
      (fun s w => decide (matrixInFlight s w = 1)) &&
    settles (.mwld 4 8) (grp (fun g => { g with size := 0 }) (placed (.mwld 4 8))) (fun _ _ _ => .trap { cls := 14, cause := 8 }) &&
    settles (.mwld 4 8) (sregs [(9, 0x2040)] (placed (.mwld 4 8))) (fun _ _ _ => .trap { cls := 4, cause := 15, d0 := 0x2040, d1 := 0x4000 })
      (fun _ w => decide (w.grp.size < 0x2040 + 8192)) &&
    settles (.mclrMatrix 4 8) (engaged (placed (.mclrMatrix 4 8))) (fun _ _ _ => .stall 6) (fun s w => decide (8 ≤ matrixInFlight s w)) &&
    settles (.mwld 4 8) (holding (.mwld 4 8)) (fun _ _ _ => .stall 7)
      (fun s w => heldAccess s w (matrixAccs w [(0, 8192, none)] [])) = true := by decide +kernel

/-- A team with an empty S8 tile in its first weight buffer. -/
def tiled (s : State) : State :=
  tem (fun t => { t with mx := { t.mx with w0 := some { bytes := [], fmt := 0, scales := List.replicate 64 0, base := 0 } } }) s

theorem witness_MatrixLoopStoreAndRead :
    reaches (.mloop 4 8) (vregs [(127, [0xFFFFFFFF, 0])] (tiled (sregs [(9, 0x3F80), (13, 1), (14, 127), (15, 2)] (placed (.mloop 4 8)))))
      (fun s w c =>
        let accs := matrixAccs w [(0x3F80, 128, some 1)] []
        decide (matrixInFlight s w < 8) && !heldAccess s w accs && w.sp.pend.isEmpty &&
          decide (accs = matrixAccs w (loopRows (block s 8 11) [(1, 0)] 0) []) &&
          mayEnd s (.mloop 4 8) w c
            { s, accs, items := ⟨4, 32, true⟩ :: laneItems 127 [0, 1] false, looks := [⟨false, 0x3F80, 128, true, false, 1⟩] })
      (fun s _ t => decide ((Table.find t.cmds s.fresh).map (·.body) = some (.matrix [] none none 0x100))) &&
    reaches (.mst 4 8) (sregs [(8, 2 + 4 * 5), (9, 0x3FC0), (10, 0), (11, 95), (12, 1)] (placed (.mst 4 8)))
      (fun s w c => decide (matrixInFlight s w < 8) && decide (outSize 5 = 1) && !heldAccess s w (matrixAccs w [] [(0x3FC0, 64, none)]) &&
        mayEnd s (.mst 4 8) w c (matrixOut s w [] [(0x3FC0, 64, none)] [⟨false, 0x3FC0, 64, false, true, 96⟩]))
      (fun s _ t => decide ((Table.find t.cmds s.fresh).map (·.body) = some (.matrix [(0x3FC0, List.replicate 64 0)] none none 0))) &&
    reaches (.mrd 4 8) (masked 1 (sregs [(9, 63), (10, 127)] (placed (.mrd 4 8))))
      (fun s w c => decide (matrixInFlight s w < 8) && !heldAccess s w (matrixAccs w [] []) && w.sp.pend.isEmpty &&
        mayEnd s (.mrd 4 8) w c { matrixOut s w [] [] [] with items := ⟨4, 32, true⟩ :: laneItems 127 [0] true })
      (fun s _ t => decide ((Table.find t.cmds s.fresh).map (·.body) = some (.matrix [] (some (127, 1, List.replicate 96 0)) none 0))) =
      true := by
  decide +kernel

/-- A message mode that the view holds back or refuses, and an engine without room or behind another command. -/
theorem witness_MatrixLoopStoreAndRead_stops :
    (let b : List (Nat × Word) := [(8, 0x80), (9, 0x3F80), (13, 1), (14, 127), (15, 1), (17, 0xFFFF)]
     settles (.mloop 4 8) (later (tiled (sregs b (placed (.mloop 4 8))))) (fun _ _ _ => .stall 8) (fun s w => !readReady s w && w.sp.pend.isEmpty) &&
     reaches (.mloop 4 8) (tiled (sregs b (placed (.mloop 4 8))))
       (fun s w c => readReady s w && (portOpen s w 0xFFFF).isNone && mayEnd s (.mloop 4 8) w c (matrixOut s w [] [] []))
       (fun s _ t => decide ((Table.find t.cmds s.fresh).map (·.body) = some (.done 2))) &&
     settles (.mloop 4 8) (ported { isOpen := true, depth := 1 } (tiled (holding (.mloop 4 8)) |> sregs [(8, 0x80), (13, 1), (14, 127), (15, 1), (17, 3)]))
       (fun _ _ _ => .stall 7)
       (fun s w => readReady s w && (portOpen s w 3).isSome && heldAccess s w (matrixAccs w [(0, 128, some 0)] []))) &&
    reaches (.mst 4 8) (sregs [(8, 0x200 + 2 + 4 * 6), (9, 0x3FC0), (11, 95), (12, 1), (15, 3)] (placed (.mst 4 8)))
      (fun s w c => readReady s w && (portOpen s w 3).isNone && mayEnd s (.mst 4 8) w c (matrixOut s w [] [] []))
      (fun s _ t => decide ((Table.find t.cmds s.fresh).map (·.body) = some (.done 2))) &&
    settles (.mrd 4 8) (engaged (sregs [(9, 63), (10, 127)] (placed (.mrd 4 8)))) (fun _ _ _ => .stall 6)
      (fun s w => decide (8 ≤ matrixInFlight s w)) = true := by
  decide +kernel

/-- Two matrix commands of a team: the second waits for the first, and the first can complete. -/
theorem witness_MatrixCompletionLandsRows :
    (let s := { placed .nop with cmds := [(77, flying 1 4 (.matrix [(0x3FF0, [1])] none none 0)), (78, flying 1 4 (.matrix [] none none 0))] }
     match Table.find s.cmds 77, Table.find s.cmds 78 with
     | some c, some d => !c.finished && (cmdLaunch s c).isSome && (Table.find s.groups c.group).isSome &&
         (Table.find s.teams c.team).isSome && !d.finished && decide (c.team = d.team) && decide ((takers s c).map (·.1) = [0])
     | _, _ => false) = true := by decide +kernel

/-! ### Tasks -/

/-- A launch record at 0x1000 of mapped memory, with what is listed of it by byte. -/
def record (l : List (Nat × Byte)) (s : State) : State :=
  let s := mapped s
  { s with mem := l ++ s.mem }

/-- The effects of a read of a launch record. -/
def recordSeen (s : State) (w : Who) (va : Nat) : State :=
  tagPages (signReads (mergeRead s w va 256) w [(va, 256)]) 1 (piecePages (readable s 0 0 va 256))

/-- The record at 0x1000 is read, and no other domain has tagged its page. -/
def viewed (s : State) (w : Who) : Bool :=
  (match globalRead s w (viewWrites s w) 0x1000 256 with | .ok _ => true | _ => false) &&
    !foreignPage s 1 (piecePages (readable s 0 0 0x1000 256))

/-- An atomic of the group, queued for its commit, on the word at an address. -/
def summing (pa : Nat) (s : State) : State :=
  { s with effects := [{ dom := 1, launch := 2, task := 3, team := 4, group := 5, split := 0, key := 0, prog := 0, time := some 0
                         body := .atom 0 [(0, pa, 0, 0, 0, pa)] none }] }

theorem witness_TaskCreatesFromRecords :
    retires (.task 4 20) (sregs [(20, 8)] (placed (.task 4 20))) (fun s _ _ => { s := uwrite s 4 1 }) &&
    settles (.task 4 20) (sregs [(21, 0x100)] (placed (.task 4 20))) (fun _ _ _ => .trap { cls := 8, cause := 1, d0 := 0x100 })
      (fun s w => match globalRead s w (viewWrites s w) 0x100 256 with | .none => true | _ => false) &&
    settles (.task 4 20) (sregs [(21, 0x1000)] (record [] (beside { placed (.task 4 20) with doms := [(1, { q := 32768 }), (9, { q := 1, pages := [1] })] })))
      (fun _ _ _ => .trap { cls := 8, cause := 2, d0 := 0x1000 })
      (fun s w => foreignPage s 1 (piecePages (readable s w.launch.ctx w.team.die 0x1000 256)) &&
        (match globalRead s w (viewWrites s w) 0x1000 256 with | .ok _ => true | _ => false)) &&
    settles (.task 4 20) (sregs [(20, 4), (21, 0x1000), (30, 0x4000)] (record [] (placed (.task 4 20))))
      (fun _ _ _ => .trap { cls := 4, cause := 1, d0 := 0x4000, d1 := 0x4000 })
      (fun s w => decide (locate s w 0x4000 64 = .out 0x4000)) &&
    retires (.task 4 20) (sregs [(20, 4), (21, 0x1000), (30, 0x3FC0)] (record [] (placed (.task 4 20))))
      (fun s w _ => { s := uwrite (recordSeen s w 0x1000) 4 (word (checkRecord (recordSeen s w 0x1000) (List.replicate 64 0) (some 32768)))
                      accs := [⟨0, 0x3FC0, 64, 0⟩], looks := [⟨false, 0x3FC0, 64, true, false, 96⟩] })
      (fun s w => readReady s w && !awaitsAtoms s w 0x1000 256 && !inFlight s w 0x1000 256 && !heldAccess s w [⟨0, 0x3FC0, 64, 0⟩]) &&
    settles (.task 4 20) (later (sregs [(21, 0x1000)] (record [] (placed (.task 4 20))))) (fun _ _ _ => .stall 8)
      (fun s w => viewed s w && !readReady s w) &&
    settles (.task 4 20) (sregs [(21, 0x1000)] (record [] (summing 0x10FC (placed (.task 4 20))))) (fun _ _ _ => .stall 8)
      (fun s w => viewed s w && readReady s w && awaitsAtoms s w 0x1000 256) &&
    settles (.task 4 20)
      (sregs [(21, 0x1000)] (record [] { placed (.task 4 20) with cmds := [(77, flying 1 4 (.copy 0xA0 [1] [{ pos := 0, src := 0, dst := 0x10FC, len := 8 }] 0 0 none none none))] }))
      (fun _ _ _ => .stall 6) (fun s w => viewed s w && readReady s w && !awaitsAtoms s w 0x1000 256 && inFlight s w 0x1000 256) &&
    settles (.task 4 20) (sregs [(20, 4), (21, 0x1000)] (record [] (holding (.task 4 20)))) (fun _ _ _ => .stall 7)
      (fun s w => viewed s w && readReady s w && !awaitsAtoms s w 0x1000 256 && !inFlight s w 0x1000 256 && heldAccess s w [⟨0, 0, 64, 0⟩]) =
      true := by decide +kernel

/-- The task not yet rooted, with a domain of `n` points along the first dimension, one a grain. -/
def unrooted (n : Int) : State → State := tsk fun t => { t with rooted := none, hi := [n, 1, 1] }
/-- Launch record words of the task. -/
def recWords (l : List (Nat × Word)) : State → State := tsk fun t => { t with words := l.foldl (fun ws e => ws.set e.1 e.2) t.words }

theorem witness_QuotaRootAndSplitInstructions_sizes :
    retires (.alloc 4 8) (sregs [(8, 1)] (placed (.alloc 4 8))) (fun s _ _ => { s := uwrite s 4 0x4001, items := [⟨4, 33, false⟩] }) &&
    retires (.free 4 8) (sregs [(8, 0x101000)] (placed (.free 4 8))) (fun s _ _ => { s := uwrite s 4 0x4001, items := [⟨4, 33, false⟩] }) &&
    settles (.alloc 4 8) (sregs [(8, 0x5000)] (placed (.alloc 4 8))) (fun _ _ _ => .exhaust 2) &&
    retires (.alloc 4 8) (sregs [(8, 0x4000)] (placed (.alloc 4 8))) (fun s _ _ => { s := uwrite s 4 0x4000, items := [⟨4, 33, false⟩] }) &&
    settles (.alloc 4 8)
      (sregs [(8, 0x1000)] (recWords [(16, 0x100000)] (grp (fun g => { g with size := 0 }) (tem (fun t => { t with size := 0 }) (placed (.alloc 4 8))))))
      (fun _ _ _ => .claim)
      (fun s w => decide (lastSize s w.team = 0) &&
        decide (2 ^ 20 < ((coreTeams s w.team.die w.team.core).map fun e => teamHolds s e.2).foldl (fun a b => a + b) 0 + recSq w.task.words)) &&
    retires (.alloc 4 8) (sregs [(8, 0x4000)] (grp (fun g => { g with size := 0x3000 }) (placed (.alloc 4 8))))
      (fun s _ _ => { s := uwrite (updTeam (updGroup s 5 fun g => { g with size := 0x4000 }) 4 fun t => { t with mem := [] }) 4 0x4000
                      accs := [⟨0, 0xFFFE00, 256, 1⟩], items := [⟨4, 33, true⟩] }) (fun s w => decide (lastSize s w.team ≠ 0)) &&
    retires (.free 4 8) (sregs [(8, 0x5000)] (placed (.free 4 8))) (fun s _ _ => { s := uwrite s 4 0x4002, items := [⟨4, 33, false⟩] }) &&
    retires (.free 4 8) (sregs [(8, 0x4000)] (placed (.free 4 8))) (fun s _ _ => { s := uwrite s 4 0x4000, items := [⟨4, 33, false⟩] }) &&
    settles (.free 4 8) { placed (.free 4 8) with cmds := [(77, flying 1 4 (.matrix [] none none 0))] } (fun _ _ _ => .stall 7)
      (fun s w => freeHeld s w 0 0x4000) &&
    retires (.free 4 8) (placed (.free 4 8))
      (fun s _ _ => { s := uwrite (updTeam (updGroup s 5 fun g => { g with size := 0 }) 4 fun t => { t with mem := [], mx := {} }) 4 0
                      accs := [⟨0, 0xFFFE00, 256, 1⟩, ⟨0, 0, 0x4000, 1⟩], items := [⟨4, 33, true⟩] }) = true := by decide +kernel

theorem witness_QuotaRootAndSplitInstructions_registers :
    settles (.vgrow 4 8) (grp (fun g => { g with splits := g.splits ++ (g.splits.map fun e => (1, e.2)) }) (placed (.vgrow 4 8)))
      (fun _ _ _ => .trap { cls := 1, cause := 5 }) &&
    retires (.vshrk 4 8) (sregs [(8, 4)] (placed (.vshrk 4 8))) (fun s _ _ => { s := uwrite s 4 1 }) &&
    settles (.vgrow 4 8) (sregs [(8, 128)] (recWords [(15, 64)] (placed (.vgrow 4 8)))) (fun _ _ _ => .exhaust 1) &&
    retires (.vgrow 4 8) (sregs [(8, 64)] (placed (.vgrow 4 8))) (fun s _ _ => { s := uwrite s 4 2 }) &&
    retires (.vgrow 4 8) (sregs [(8, 128)] (grp (fun g => { g with vcount := 8 }) (placed (.vgrow 4 8))))
      (fun s _ _ => { s := uwrite (updGroup s 5 fun g => { g with vnext := some (128, 128) }) 4 0, items := [⟨4, 34, true⟩] }) &&
    settles (.vgrow 4 8)
      (let s := sregs [(8, 128)] (grp (fun g => { g with vcount := 8 }) (placed (.vgrow 4 8)))
       { s with groups := s.groups ++ ((List.range 4).flatMap fun i => s.groups.map fun e => (20 + i, { e.2 with vcount := 128 })) })
      (fun _ _ _ => .claim)
      (fun s w => decide (512 < (((quadGroups s w.team.die w.team.core (w.grp.slot / 16)).filter fun e => e.1 != w.g).map
        fun e => e.2.budget).foldl (fun a b => a + b) 0 + 128)) &&
    retires (.vshrk 4 8) (sregs [(8, 128)] (grp (fun g => { g with vcount := 120 }) (placed (.vshrk 4 8)))) (fun s _ _ => { s := uwrite s 4 2 }) &&
    retires (.vshrk 4 8) (sregs [(8, 8)] (placed (.vshrk 4 8)))
      (fun s _ _ => { s := uwrite (updGroup s 5 fun g => { g with vnext := some (8, 8) }) 4 0, items := [⟨4, 34, true⟩] })
      (fun _ w => w.sp.pend.isEmpty) = true := by decide +kernel

theorem witness_QuotaRootAndSplitInstructions_division :
    retires .root (placed .root) (fun s _ _ => { s, flow := .close }) &&
    settles .root (unrooted 4 (placed .root)) (fun _ _ _ => .turn .root) &&
    settles .split (placed .split) (fun _ _ _ => .exhaust 5) &&
    retires .split (unrooted 1 (placed .split)) (fun s _ _ => { s })
      (fun s w => ((List.range 3).all fun d => decide (extent w.task d ≤ 1)) && itsTurn s w) &&
    settles .split (unrooted 1 (grp (fun g => { g with splits := (g.splits.map fun e => (0, { e.2 with clock := 5 })) ++ g.splits.map fun e => (1, e.2) }) (placed .split)))
      (fun _ _ _ => .turn .turn) (fun s w => ((List.range 3).all fun d => decide (extent w.task d ≤ 1)) && !itsTurn s w) &&
    settles .split (unrooted 4 (placed .split)) (fun _ _ _ => .turn .split)
      (fun _ w => decide (1 < extent w.task 0) && decide (w.task.path % 2 = 0) && decide (w.task.path % 2 ^ 16 ≠ 0)) = true := by
  decide +kernel

theorem witness_UnrootedEventsRootOrDivide :
    ([Held.root, .turn, .split, .exhaust 4].all fun ev =>
      let s := unrooted 4 (spl (fun sp => { sp with mode := .held ev }) { placed .nop with arg := { a := 5, b := 0 } })
      match whoOf s 5 0 with
      | some w => decide (w.sp.mode = .held ev) && heldReady s w ev && w.task.rooted.isNone && (cannotSplit w.task).isNone
      | none => false) &&
    (let s := tsk (fun t => { t with ts := 5 }) (unrooted 4 (spl (fun sp => { sp with mode := .held .root }) { placed .nop with arg := { a := 5, b := 0 } }))
     let s := { s with tasks := s.tasks ++ (s.tasks.map fun e => (30, { e.2 with ts := 4 })) }
     match whoOf s 5 0 with | some w => !heldReady s w .root | none => false) = true := by decide +kernel

theorem witness_TaskPlacementStartsTeams :
    (let s := { placed .nop with arg := { a := 3 }, groups := [], teams := [] }
     let ready := tsk (fun t => { t with placed := false, teams := [] }) s
     let held := { ready with ctxs := [] }
     match Table.find s.tasks 3, Table.find ready.tasks 3 with
     | some a, some b => !isReady a && isReady b && taskRuns ready b && !taskRuns held b &&
         match placeFor ready 3 b with
         | some (d, _, _, _) => (dispatchNext ready d).any fun n => n.1 = 3
         | none => false
     | _, _ => false) &&
    -- a second task of a higher priority is dispatched first
    (let s := { placed .nop with arg := { a := 3 }, groups := [], teams := [] }
     let s := tsk (fun t => { t with placed := false, teams := [] }) s
     let s := { s with tasks := (s.tasks.map fun e => (3, { e.2 with words := e.2.words.set 4 1 })) ++ s.tasks.map fun e => (30, e.2) }
     match Table.find s.tasks 3 with
     | some a => (match placeFor s 3 a with | some (d, _, _, _) => (dispatchNext s d).any fun n => n.1 = 30 | none => false)
     | none => false) = true := by decide +kernel

/-! ### Ports, continuations, phasers -/

theorem witness_PortInstructions_send :
    settles (.send 4 8) (sregs [(8, 0x10000)] (placed (.send 4 8))) (fun _ _ _ => .trap { cls := 9, cause := 3, d0 := 0x10000 }) &&
    settles (.send 4 8) (sregs [(8, 3)] (spl (fun sp => { sp with clock := 65536 }) (placed (.send 4 8)))) (fun _ _ _ => .stall 8)
      (fun s w => !readReady s w) &&
    settles (.recv 4 8) (sregs [(8, 3)] (placed (.recv 4 8))) (fun _ _ _ => .trap { cls := 9, cause := 4, d0 := 3 })
      (fun s w => readReady s w && (portOpen s w 3).isNone) &&
    settles (.send 4 8) (sregs [(8, 3)] (ported { isOpen := true, depth := 1, owner := 1 } (placed (.send 4 8))) |> fun s =>
        { s with launches := s.launches ++ [(20, { ctx := 0, num := 1, dom := 9, words := placedRecord.set 3 0x000E0101, order := 20 })] })
      (fun _ _ _ => .trap { cls := 9, cause := 6, d0 := 3 })
      (fun s w => match portOpen s w 3 with
        | some p => decide (p.isOpen) && portClash s w 3
        | none => false) &&
    retires (.send 4 8) (sregs [(8, 3), (9, 7), (10, 9)] (ported { isOpen := true, depth := 1 } (placed (.send 4 8))))
      (fun s w _ => { s := emit s w (some 0) 0 (.message 3 7 9 (some 4)), flow := .close })
      (fun s w => (portOpen s w 3).isSome && (portLaunches s w 3).isEmpty) &&
    retires (.send 4 8) (sregs [(8, 3)] (ported { isOpen := true, depth := 1, owner := 1 } (placed (.send 4 8))) |> fun s =>
        { s with launches := s.launches ++ [(20, { ctx := 0, num := 1, dom := 9, words := placedRecord, order := 20 })], doms := s.doms ++ [(9, { q := 32768 })] })
      (fun s w _ => { s := emit (joinPort s w 3) w (some 0) 0 (.message 3 0 0 (some 4)), flow := .close })
      (fun s w => (portOpen s w 3).isSome && decide ((portLaunches s w 3).length = 1) && !portClash s w 3) = true := by decide +kernel

theorem witness_PortInstructions_recv :
    settles (.recv 4 8) (sregs [(8, 3)] (ported { isOpen := true, depth := 1 } (placed (.recv 4 8))))
      (fun _ _ _ => .trap { cls := 9, cause := 5, d0 := 3 }) &&
    retires (.recv 4 8) (sregs [(8, 3)] (ported { isOpen := true, kind := 2, count := 9 } (placed (.recv 4 8))))
      (fun s _ _ => { s := uwrites s 4 [2, 9, 0, 0, 0, 0, 0] }) &&
    settles (.recv 4 8) (sregs [(8, 3)] (ported { isOpen := true, kind := 1, reader := some (3, 1) } (placed (.recv 4 8))))
      (fun _ _ _ => .trap { cls := 9, cause := 5, d0 := 3 }) &&
    retires (.recv 4 8) (sregs [(8, 3)] (ported { isOpen := true, kind := 1, reader := some (3, 0) } (placed (.recv 4 8))))
      (fun s _ _ => { s := uwrites s 4 [1, 0, 0, 0, 0, 0, 0], items := [⟨4, 1003, true⟩] }) &&
    retires (.recv 4 8)
      (sregs [(8, 3)] (ported { isOpen := true, kind := 1, reader := some (3, 0), fifo := [(7, 8, 2 ^ 96 + 5), (1, 2, 3)] } (placed (.recv 4 8))))
      (fun s w _ => { s := uwrites (emit s w (some 0) 0 (.config 3 [3, 7, 8, 5, 0, 0, 1])) 4 [0x100, 7, 8, 5, 0, 0, 1]
                      items := [⟨4, 1003, true⟩] }) = true := by decide +kernel

theorem witness_PortInstructions_configuration :
    settles (.patset 4 8) (spl (fun sp => { sp with clock := 65536 }) (placed (.patset 4 8))) (fun _ _ _ => .stall 8)
      (fun s w => !readReady s w) &&
    retires (.portcfg 4 8) (sregs [(8, 3), (9, 0x401)] (ported {} (placed (.portcfg 4 8))))
      (fun s w _ => { s := uwrite (emit s w (some 0) 0 (.config 0 [3, 0x401, 0])) 4 0 })
      (fun s w => decide (cfgStatus (portView s w) 0 0 [3, 0x401, 0] = 0)) &&
    retires (.patcfg 4 8) (sregs [(8, 64)] (ported {} (placed (.patcfg 4 8))))
      (fun s w _ => { s := uwrite s 4 (word (cfgStatus (portView s w) 0 1 [64, 0, 0, 0, 0, 0, 0, 0])) })
      (fun s w => decide (cfgStatus (portView s w) 0 1 [64, 0, 0, 0, 0, 0, 0, 0] ≠ 0)) = true := by decide +kernel

theorem witness_YieldParksAndContinuationsResume_yield :
    settles (.yield 8) (grp (fun g => { g with splits := g.splits ++ (g.splits.map fun e => (1, e.2)) }) (placed (.yield 8)))
      (fun _ _ _ => .trap { cls := 1, cause := 6 }) &&
    settles (.yield 8) (spl (fun sp => { sp with calls := [4] }) (placed (.yield 8))) (fun _ _ _ => .trap { cls := 4, cause := 10, d0 := 1, d1 := 32 }) &&
    settles (.yield 8) (spl (fun sp => { sp with spill := 1 }) (placed (.yield 8))) (fun _ _ _ => .trap { cls := 4, cause := 9, d0 := 1, d1 := 16 }) &&
    settles (.yield 8) (sregs [(8, 3), (14, 16)] (placed (.yield 8))) (fun _ _ _ => .trap { cls := 9, cause := 3, d0 := 3 }) &&
    settles (.yield 8) (sregs [(8, 3), (10, 0x1FFFF)] (placed (.yield 8))) (fun _ _ _ => .trap { cls := 9, cause := 3, d0 := 3 }) &&
    settles (.yield 8) (sregs [(8, 3)] (ported { isOpen := true, kind := 1 } (placed (.yield 8)))) (fun _ _ _ => .trap { cls := 9, cause := 5, d0 := 3 })
      (fun s w => readReady s w && (portOpen s w 3).isSome) &&
    issuing (.yield 8) (sregs [(8, 3), (9, 64)] ({ ported { isOpen := true, depth := 1 } (placed (.yield 8)) with ctxs :=
        [(0, { st := 1, live := 1, pspace := [(0, 0x400000)] })] }))
      (fun s w => readReady s w && !areaFits s 0 0 0 && decide (w.team.conflict = none ∧ w.launch.ctx = 0 ∧ (ctxOf s 0).full = []) &&
        match portOpen s w 3 with
        | some p => decide (p.kind = 0) && !ownerClash s w p
        | none => false) &&
    reaches (.yield 8) (sregs [(8, 3), (9, 64), (13, 0x80000000), (14, 15)] (ported { isOpen := true, depth := 1 } (placed (.yield 8))))
      (fun s w c => match portOpen s w 3 with
        | some p => decide (p.kind = 0) && !ownerClash s w p && areaFits s 0 0 (0x80000000#128 <<< 96) &&
            mayEnd s (.yield 8) w c { s := emit { s with fresh := s.fresh + 1 } w (some 0) 0 (.yield s.fresh), flow := .close }
        | none => false)
      (fun s _ t => (Table.find t.conts s.fresh).isSome && decide (t.effects.length = 1)) = true := by decide +kernel

/-- A fired continuation of group 5. -/
theorem witness_YieldParksAndContinuationsResume_resume :
    (let s := { placed .nop with
       arg := { a := 9 }
       conts := [(9, { group := 5, port := 3, prio := 0, live := 0, fired := some (7, 8, 100), pc := 64, mode := 0, mask := 1, lanes := 1
                       fps := 0, vcount := 128, klane := 0, clock := 5, u := [], v := [] })] }
     let s := grp (fun g => { g with parked := true }) s
     match Table.find s.conts 9, Table.find s.groups 5, Table.find s.teams 4, Table.find s.tasks 3 with
     | some k, some g, some tm, some task => k.fired.isSome && decide (k.group = 5) && decide (g.team = 4) && decide (g.task = 3) &&
         taskRuns s task && (resumePlace s tm k.vcount).isSome
     | _, _, _, _ => false) = true := by decide +kernel

/-- Phaser 5 of context 0, which the launch record lists, with one party: group 5 with a role. -/
def phased (any : Bool) (role : Nat) (sphase wphase : Nat) (s : State) : State :=
  recWords [(50, 1), (51, 5)] { s with
    phasers := [(5, { any, scope := 0, gather := 1, ctx := 0, die := 0, parties := [{ kind := 0, id := 5, rank := 0, role, sphase, wphase }] })] }

theorem witness_PhaserInstructions_checks :
    settles (.phsig 4 8) (grp (fun g => { g with splits := g.splits ++ (g.splits.map fun e => (1, e.2)) }) (placed (.phsig 4 8)))
      (fun _ _ _ => .trap { cls := 1, cause := 7 }) &&
    settles (.phreg 4 8) (sregs [(8, 5), (9, 0x20)] (placed (.phreg 4 8))) (fun _ _ _ => .trap { cls := 10, cause := 1, d0 := 5 }) &&
    settles (.phstat 4 8) (sregs [(8, 5), (9, 12)] (placed (.phstat 4 8))) (fun _ _ _ => .trap { cls := 10, cause := 1, aux := 3, d0 := 5 }) &&
    settles (.phwait 4 8) (sregs [(8, 0x100000)] (placed (.phwait 4 8))) (fun _ _ _ => .trap { cls := 10, cause := 1, d0 := 0x100000 }) &&
    settles (.phany 4 8) (sregs [(8, 5)] (placed (.phany 4 8))) (fun _ _ _ => .trap { cls := 10, cause := 2, d0 := 5 })
      (fun s w => readReady s w && (phaserOf s 5).isNone) = true := by decide +kernel

/-- The phaser is known to the launch in every state of the next theorem. -/
def knows (s : State) (w : Who) : Bool :=
  readReady s w && decide (w.grp.splits.length < 2) && (recPhasers w.task.words).contains 5 &&
    (match phaserOf s 5 with | some p => decide (p.ctx = w.launch.ctx) | none => false)

/-- Another launch of the context, with domain 9, that lists phaser 5 and declares a quantum length exponent. -/
def shared (q : Word) (s : State) : State :=
  { s with
    doms := s.doms ++ [(9, { q := 2 ^ q.toNat })]
    launches := s.launches ++ [(20, { ctx := 0, num := 1, dom := 9, words := ((placedRecord.set 3 (q * 65536 + 0x101)).set 50 1).set 51 5, order := 20 })] }

/-- What a launch that shares the phaser adds, and how registering and dropping on an `ANY` phaser stop. -/
theorem witness_PhaserInstructions_sharing :
    settles (.phreg 4 8) (sregs [(8, 5), (9, 1)] (shared 14 (phased false 1 0 0 (placed (.phreg 4 8))))) (fun _ _ _ => .trap { cls := 10, cause := 3, d0 := 5 })
      (fun s w => knows s w && (phaserSharers s w 5).any fun l => recQ l.words ≠ recQ w.launch.words) &&
    retires (.phreg 4 8) (sregs [(8, 5), (9, 1)] (shared 15 (phased false 1 0 0 (placed (.phreg 4 8)))))
      (fun s w _ => { s := emit (joinDomains s w 9) w (some 0) 0 (.phreg 5 0 5 1 0 (some 4)), flow := .close })
      (fun s w => knows s w && decide ((phaserSharers s w 5).map (fun l => recQ l.words) = [recQ w.launch.words])) &&
    settles (.phreg 4 8) (sregs [(8, 5), (9, 1)] (phased false 1 0 0 { placed (.phreg 4 8) with launches := (placed (.phreg 4 8)).launches.map fun e => (e.1, { e.2 with alone := [5] }) }))
      (fun _ _ _ => .trap { cls := 10, cause := 3, d0 := 5 }) (fun s w => knows s w && decide (w.launch.alone = [5])) &&
    settles (.phdrop 4 8) (sregs [(8, 5), (9, 4)] (phased true 1 0 0 (placed (.phdrop 4 8)))) (fun _ _ _ => .trap { cls := 10, cause := 5, aux := 1, d0 := 5 }) knows &&
    settles (.phstat 4 8) (sregs [(8, 5), (9, 8)] (phased true 1 0 0 (placed (.phstat 4 8)))) (fun _ _ _ => .trap { cls := 10, cause := 5, aux := 2, d0 := 5 }) knows =
      true := by decide +kernel

theorem witness_PhaserInstructions_effects :
    settles (.phreg 4 8) (sregs [(8, 5), (9, 5)] (phased true 1 0 0 (placed (.phreg 4 8)))) (fun _ _ _ => .trap { cls := 10, cause := 5, aux := 1, d0 := 5 })
      (fun s w => knows s w && (phaserSharers s w 5).isEmpty && w.launch.alone.isEmpty) &&
    retires (.phreg 4 8) (sregs [(8, 5), (9, 0x70003)] (phased false 1 0 0 (placed (.phreg 4 8))))
      (fun s w _ => { s := emit s w (some 0) 0 (.phreg 5 0 5 3 7 (some 4)), flow := .close }) knows &&
    retires (.phdrop 4 8) (sregs [(8, 5), (9, 8)] (phased false 1 0 0 (placed (.phdrop 4 8))))
      (fun s w _ => { s := emit s w (some 0) 0 (.phdrop 5 2 2 (some 4)), flow := .close }) knows &&
    settles (.phsig 4 8) (sregs [(8, 5)] (phased false 2 0 0 (placed (.phsig 4 8)))) (fun _ _ _ => .trap { cls := 10, cause := 4, d0 := 5 }) knows &&
    settles (.phanyb 4 8) (sregs [(8, 5)] (phased false 1 0 0 (placed (.phanyb 4 8)))) (fun _ _ _ => .trap { cls := 10, cause := 5, d0 := 5 }) knows &&
    settles (.phany 4 8) (sregs [(8, 5)] (spl (fun sp => { sp with clock := 2 ^ 48, base := 2 ^ 48 }) (phased true 1 0 0
        { placed (.phany 4 8) with doms := [(1, { q := 32768, next := 2 ^ 34 })] }))) (fun _ _ _ => .trap { cls := 10, cause := 8, d0 := 5 })
      knows &&
    retires (.phany 4 8) (sregs [(8, 5), (9, 9)] (phased true 1 0 0 (placed (.phany 4 8))))
      (fun s w _ => { s := emit s w (some 0) 0 (.phsig 5 0 5 (some (0, 9)) false (some 4)), flow := .close }) knows &&
    retires (.phsigb 4 8) (sregs [(8, 5)] (phased false 3 0 0 (placed (.phsigb 4 8))))
      (fun s w _ => { s := emit s w (some 0) 0 (.phsig 5 0 5 none true (some 4)), flow := .close
                      post := fun u => fixTimes u w fun _ => true }) knows &&
    settles (.phwait 4 8) (sregs [(8, 5)] (phased false 1 0 0 (placed (.phwait 4 8)))) (fun _ _ _ => .trap { cls := 10, cause := 4, d0 := 5 }) knows &&
    settles (.phwait 4 8) (sregs [(8, 5)] (phased false 3 0 0 (placed (.phwait 4 8)))) (fun _ _ _ => .trap { cls := 10, cause := 9, d0 := 5 }) knows &&
    retires (.phwait 4 8) (sregs [(8, 5)] (phased false 3 0 0xFFFFFFFF (placed (.phwait 4 8))))
      (fun s w _ => { s := emit s w (some 0) 0 (.phwait 5 4 1), flow := .close }) knows &&
    retires (.phstat 4 8) (sregs [(8, 5)] (phased false 3 0 0 (placed (.phstat 4 8)))) (fun s _ _ => { s := uwrites s 4 [31, 0, 0, 0, 0] }) knows &&
    retires (.phstat 4 8) (sregs [(8, 5), (9, 4)] (phased false 1 0 0 (placed (.phstat 4 8)))) (fun s _ _ => { s := uwrites s 4 [0, 0, 0, 0, 0] }) knows =
      true := by decide +kernel

/-! ### Global atomics and the fabric -/

/-- The effects of a command that waits for its commit, by what the checks see of them. -/
def queued (s : State) (accs : List Acc) (looks : List Look := []) : Out := { s, accs, looks, flow := .close }

theorem witness_GlobalAtomicsQueueForTheCommit_traps :
    settles (.gatom .add 4 8) (sregs [(8, 0x8000)] (placed (.gatom .add 4 8))) (fun _ _ _ => .trap { cls := 8, cause := 3 }) &&
    settles (.gatom .fmaxi32 4 8) (sregs [(8, 0x7F0000)] (placed (.gatom .fmaxi32 4 8))) (fun _ _ _ => .trap { cls := 8, cause := 3 }) &&
    settles (.gred .add 8) (sregs [(8, 0x80), (9, 0xFFFFFFFD), (10, 0xFFFFFF)] (masked 1 (placed (.gred .add 8))))
      (fun _ _ _ => .trap { cls := 8, cause := 7, d0 := 0xFFFFFFFD, d1 := 0xFFFFFF, lanes := some 1 })
      (fun s w => decide ((lanesOf (writing s w)).find? (fun _ => true) = some 0) && w.sp.pend.isEmpty) &&
    settles (.gred .add 8) (sregs [(8, 0), (9, 2)] (vregs [(0, [0, 2, 4])] (masked 5 (placed (.gred .add 8)))))
      (fun _ _ _ => .trap { cls := 8, cause := 4, d0 := 2, d1 := 0, lanes := some 5 })
      (fun s w => decide (lanesOf (writing s w) = [0, 2])) &&
    settles (.gatom .xchg 4 8) (sregs [(8, 0x80), (9, 0x1000)] (masked 1 (placed (.gatom .xchg 4 8))))
      (fun _ _ _ => .trap { cls := 8, cause := 5, d0 := 0x1000 })
      (fun s w => decide (lanesOf (writing s w) = [0]) && (match translate s 0 0 false true (0x1000, 4) with | .invalid _ => true | _ => false)) &&
    settles (.gatom .xchg 4 8) (sregs [(8, 0x80), (9, 0x1000)] (masked 1 { mapped (placed (.gatom .xchg 4 8)) with mem := [(0x20000, 3), (0x20002, 3), (0x30000, 5)] }))
      (fun _ _ _ => .trap { cls := 8, cause := 6, d0 := 0x1000 })
      (fun s w => decide (lanesOf (writing s w) = [0]) && (match translate s 0 0 false true (0x1000, 4) with | .denied _ => true | _ => false)) =
      true := by decide +kernel

theorem witness_GlobalAtomicsQueueForTheCommit_queues :
    reaches (.gatom .cas 4 8) (sregs [(8, 0x050403), (9, 0x1000)] (vregs [(0, [0, 4])] (masked 2 (mapped (placed (.gatom .cas 4 8))))))
      (fun s w c => decide (lanesOf (writing s w) = [1]) && decide (translate s 0 0 false true (0x1004, 4) = .ok 0x1004 0 4) &&
        !foreignPage s 1 [1] && mayEnd s (.gatom .cas 4 8) w c (queued s [] [⟨true, 0x1004, 4, true, true, 1⟩]))
      (fun s w t => decide (t.effects.map (fun e => (e.body, e.cmd, e.key)) = [(.atom 9 [(1, 0x1004, 0, 0, 0, 0x1004)] (some (5, 4)), s.fresh, agentKey w)])) &&
    reaches (.gred .fmaxi32 8) (sregs [(8, 0x80), (9, 0x1000)] (masked 1 (mapped (placed (.gred .fmaxi32 8)))))
      (fun s w c => decide (translate s 0 0 false true (0x1000, 8) = .ok 0x1000 0 8) && w.task.rooted.isSome &&
        mayEnd s (.gred .fmaxi32 8) w c { s, looks := [⟨true, 0x1000, 8, true, true, 0⟩] })
      (fun _ _ t => decide (t.effects.map (·.body) = [.atom 28 [(0, 0x1000, 0, 0, 0, 0x1000)] none])) &&
    settles (.gred .add 8) (spl (fun sp => { sp with ordN := 64 }) (sregs [(8, 0x80), (9, 0x1000)] (masked 1 (mapped (placed (.gred .add 8))))))
      (fun _ _ _ => .closeFirst) (fun _ w => closeFits w && decide (w.sp.ordQ = quantum w)) &&
    settles (.gred .add 8) (spl (fun sp => { sp with clock := 2 ^ 63 - 2, base := 2 ^ 63 - 2, ordN := 64, ordQ := 2 ^ 48 - 1 })
        (sregs [(8, 0x80), (9, 0x1000)] (masked 1 (mapped (placed (.gred .add 8)))))) (fun _ _ _ => .exhaust 6)
      (fun _ w => !closeFits w && decide (w.sp.ordQ = quantum w)) &&
    settles (.gred .add 8) (sregs [(8, 0x80), (9, 0x1000)] (masked 1 (mapped (tsk (fun t => { t with rooted := none })
        (grp (fun g => { g with splits := (g.splits.map fun e => (0, { e.2 with clock := 5 })) ++ g.splits.map fun e => (1, e.2) }) (placed (.gred .add 8)))))))
      (fun _ _ _ => .turn .turn) (fun s w => w.task.rooted.isNone && !itsTurn s w) &&
    reaches (.gatomOrdered .min 8) (spl (fun sp => { sp with ordN := 63 }) (recWords [(17, 4)] (sregs [(8, 0x80), (9, 0x1000)] (masked 1 (mapped (placed (.gatomOrdered .min 8)))))))
      (fun s w c => w.task.rooted.isSome && decide (writeTotal w 4 = (recWord w.task.words 17).toNat) &&
        mayEnd s (.gatomOrdered .min 8) w c { s, looks := [⟨true, 0x1000, 4, true, true, 0⟩] }) &&
    settles (.gred .add 8) (recWords [(17, 3)] (sregs [(8, 0x80), (9, 0x1000)] (masked 1 (mapped (placed (.gred .add 8))))))
      (fun _ _ _ => .exhaust 3) = true := by decide +kernel

theorem witness_AtomicsApplyTheirOperation :
    decide (0x1004 % 4 = 0) && decide (0x1004 + 4 ≤ memSize State.reset) && decide (State.reset.accs = []) && decide (State.reset.enc = []) &&
      decide ((applyLane State.reset 4 0x1004 0 0x80000000 0).1.mem = [(0x1007, 0x80)]) = true := by decide +kernel

theorem witness_MulticastAndGroupSync :
    settles (.mcst 4 8) (sregs [(11, 0x80)] (placed (.mcst 4 8))) (fun _ _ _ => .trap { cls := 11, cause := 1, aux := 3 }) &&
    settles (.gsync 4 8) (sregs [(8, 8)] (placed (.gsync 4 8))) (fun _ _ _ => .trap { cls := 11, cause := 1 }) &&
    settles (.mcst 4 8) (sregs [(10, 0x3F04)] (placed (.mcst 4 8))) (fun _ _ _ => .trap { cls := 4, cause := 16, d0 := 0x3F04, d1 := 0x4000 })
      (fun s w => decide (locate s w 0x3F04 256 = .out 0x4000)) &&
    reaches (.mcst 4 8) (sregs [(9, 0xFFF), (12, 0x3EC0)] (placed (.mcst 4 8)))
      (fun s w c => decide (locate s w 0 256 = .at 0 0) && decide (locate s w 0x3EC0 320 = .at 0 0x3EC0) &&
        !heldAccess s w [⟨0, 0, 256, 0⟩, ⟨0, 0x3EC0, 320, 1⟩] &&
        mayEnd s (.mcst 4 8) w c (queued s [⟨0, 0, 256, 0⟩, ⟨0, 0x3EC0, 320, 1⟩]
          [⟨false, 0, 256, true, false, 96⟩, ⟨false, 0x3EC0, 320, false, true, 96⟩])) &&
    settles (.mcst 4 8) (sregs [(9, 0xFFF), (12, 0x3EC0)] (holding (.mcst 4 8))) (fun _ _ _ => .stall 7)
      (fun s w => decide (locate s w 0x3EC0 320 = .at 0 0x3EC0) && heldAccess s w [⟨0, 0, 256, 0⟩, ⟨0, 0x3EC0, 320, 1⟩]) &&
    settles (.gsync 4 8) (holding (.gsync 4 8)) (fun _ _ _ => .stall 7) (fun s w => heldAccess s w [⟨0, 0, 64, 1⟩]) &&
    settles (.gsync 4 8) (sregs [(8, 1), (9, 7)] (placed (.gsync 4 8))) (fun _ _ _ => .trap { cls := 11, cause := 2, aux := 1 })
      (fun s w => (treeOf (ownDomain s w) 7).isNone) &&
    settles (.gsync 4 8) (sregs [(10, 0x3FC4)] (placed (.gsync 4 8))) (fun _ _ _ => .trap { cls := 4, cause := 16, d0 := 0x3FC4, d1 := 0x4000 }) &&
    reaches (.gsync 4 8) (sregs [(9, 0xFFF), (10, 0x3FC0)] (placed (.gsync 4 8)))
      (fun s w c => decide (locate s w 0x3FC0 64 = .at 0 0x3FC0) && !heldAccess s w [⟨0, 0x3FC0, 64, 1⟩] &&
        mayEnd s (.gsync 4 8) w c (queued s [⟨0, 0x3FC0, 64, 1⟩] [⟨false, 0x3FC0, 64, false, true, 96⟩])) = true := by decide +kernel

/-- A tree that holds this package, and barrier 3 of the team with a word that admits a collective. -/
def treed (s : State) : State :=
  tem (fun t => { t with bars := [(3, { cfg := 0x10001 })] }) { s with doms := [(1, { q := 32768, trees := [(7, ownPeer, [ownPeer])] })] }

theorem witness_CollectivesJoinTheTree :
    (settles (.coll 4 8) (grp (fun g => { g with splits := g.splits ++ (g.splits.map fun e => (1, e.2)) }) (placed (.coll 4 8)))
      (fun _ _ _ => .trap { cls := 1, cause := 8 }) &&
    settles (.coll 4 8) (sregs [(8, 4)] (placed (.coll 4 8))) (fun _ _ _ => .trap { cls := 11, cause := 1 }) &&
    settles (.coll 4 8) (sregs [(9, 7), (12, 1)] (placed (.coll 4 8))) (fun _ _ _ => .trap { cls := 11, cause := 2, aux := 1 })
      (fun s w => (treeOf (ownDomain s w) 7).isNone) &&
    settles (.coll 4 8) (sregs [(9, 7), (12, 1)] (tem (fun t => { t with collFirst := some (0, []) }) (treed (placed (.coll 4 8)))))
      (fun _ _ _ => .trap { cls := 11, cause := 3 }) (fun s w => (match treeOf (ownDomain s w) 7 with | some (_, [_]) => true | _ => false)) &&
    settles (.coll 4 8) (sregs [(9, 7), (12, 1)] (treed (placed (.coll 4 8)))) (fun _ _ _ => .trap { cls := 11, cause := 4 })
      (fun s w => (match treeOf (ownDomain s w) 7 with | some (_, [_]) => true | _ => false)) &&
    settles (.coll 4 8) (sregs [(8, 0x301), (9, 7), (11, 0x3FFC), (12, 1)] (treed (holding (.coll 4 8)))) (fun _ _ _ => .stall 7)
      (fun s w => decide (locate s w 0 4 = .at 0 0) && decide (locate s w 0x3FFC 4 = .at 0 0x3FFC) && heldAccess s w [⟨0, 0, 4, 0⟩]) &&
    reaches (.coll 4 8) (sregs [(8, 0x1301), (9, 7), (10, 0x3FFC), (12, 1), (13, 0x3F7C)] (treed (placed (.coll 4 8))))
      (fun s w c => (match treeOf (ownDomain s w) 7 with | some (_, [_]) => true | _ => false) &&
        decide (locate s w 0x3FFC 4 = .at 0 0x3FFC) && decide (locate s w 0 4 = .at 0 0) && decide (locate s w 0x3F7C 132 = .at 0 0x3F7C) &&
        !heldAccess s w [⟨0, 0x3FFC, 4, 0⟩] && mayEnd s (.coll 4 8) w c (queued s [⟨0, 0x3FFC, 4, 0⟩] [⟨false, 0x3FFC, 4, true, false, 96⟩]))) =
      true ∧ ownPeer ∈ [ownPeer] := by
  exact ⟨by decide +kernel, List.mem_singleton.2 rfl⟩

/-! ### Control cores -/

/-- A control core issues there, and `p` holds. -/
def coreAt (i : Instr) (s : State) (p : State → Bool := fun _ => true) : Bool :=
  p s && match (coreOf s 0).clause with
  | some c => mayIssueCore s i c
  | none => false

theorem witness_SystemRegistersReadAndWrite :
    coreAt (.wrsr 2 4) (cor (fun c => { c with u := [(4, 0xFFFFFFFF)] }) (onCore (.wrsr 2 4))) &&
    coreAt (.rdsr 4 634) (onCore (.rdsr 4 634)) && coreAt (.rdsr 4 1) (onCore (.rdsr 4 1)) && coreAt (.wrsr 1 4) (onCore (.wrsr 1 4)) &&
    coreAt (.rdsr 4 321) (cor (fun c => { c with events := [0x102] }) (onCore (.rdsr 4 321))) &&
    coreAt (.rdsr 4 1023) (onCore (.rdsr 4 1023)) && coreAt (.wrsr 640 4) (onCore (.wrsr 640 4)) &&
    (match theSplit (placed .haltc) with
     | some (w, c) => decide ((placed .haltc).actor = Actor.split w.g w.x) && (pcHit (placed .haltc) w c).isNone
     | none => false) = true := by decide +kernel

/-- A record of a trap of a class. -/
def trapRecord (cls : Word) : Record := { team := 4, group := 5, split := 0, words := cls :: List.replicate 15 0 }

theorem witness_ControlCoreEntriesAndReturns :
    coreAt .eret (cor (fun c => { c with inh := true, sys := [(3, 64)], trapQ := [trapRecord 1] }) (onCore .eret)) &&
    coreAt .eret (onCore .eret) && coreAt .wfi (onCore .wfi) &&
    coreAt .wfi (cor (fun c => { c with ie := true, trapQ := [trapRecord 1] }) (onCore .wfi)) &&
    coreAt .wfi (cor (fun c => { c with events := [0x102] }) (onCore .wfi)) &&
    coreAt .haltc (onCore .haltc) && coreAt (.tlbinv 4) (onCore (.tlbinv 4)) (fun s => !tlbAwaits s (block s 4 3)) &&
    -- an atomic of context 0 that its commit has still to make, and the scope of one range: at its bytes and just beside them
    ([(0x20000000, true), (0x40000000, false), (0, false)].all fun (c : Word × Bool) =>
      coreAt (.tlbinv 4)
        (cor (fun k => { k with u := [(5, c.1)] })
          { onCore (.tlbinv 4) with
            launches := (placed .nop).launches
            effects := [{ dom := 1, launch := 2, task := 3, team := 4, group := 5, split := 0, key := 0, prog := 0, time := none
                          body := .atom 0 [(0, 0x20000000, 0, 0, 0, 0x20000000)] none }] })
        (fun s => !tlbBad (block s 4 3) && tlbAwaits s (block s 4 3) == c.2)) = true := by decide +kernel

/-- The clauses of `TREEREQ` hold for either value of `Config.fabricManager`; the registers and the block meet the rest. -/
theorem witness_PhaserSlotsAndTrees :
    coreAt (.phalloc 4 8) (cor (fun c => { c with u := [(8, 8)] }) (onCore (.phalloc 4 8))) &&
    coreAt (.phalloc 4 8) (cor (fun c => { c with u := [(8, 0x1FF0005), (9, 15)] }) (onCore (.phalloc 4 8))) (fun s => s.phasers.isEmpty) &&
    coreAt (.phfree 4 8) (onCore (.phfree 4 8)) (fun s => (phaserOf s 0).isNone) &&
    coreAt (.phfree 4 8) (phased false 3 0 0 (cor (fun c => { c with u := [(8, 5)] }) (onCore (.phfree 4 8)))) (fun s => (phaserOf s 5).isSome) &&
    coreAt (.treereq 4 8) (cor (fun c => { c with u := [(8, 0x10007)] }) { onCore (.treereq 4 8) with trees := [(7, 1, [1])] }) &&
    coreAt (.treereq 4 8) (cor (fun c => { c with u := [(10, 2)] }) (onCore (.treereq 4 8))) &&
    coreAt (.treereq 4 8) (cor (fun c => { c with u := [(10, 0x3FFC4)] }) (onCore (.treereq 4 8))) &&
    coreAt (.treereq 4 8) (cor (fun c => { c with u := [(9, 511), (10, 0x3FFC0)], mem := [(0x3FFFF, 0x80)] }) (onCore (.treereq 4 8)))
      (fun s => decide ((Sparse.read 0 (coreOf s 0).mem 0x3FFC0 64).getD 63 0 = 0x80) && s.trees.isEmpty) = true := by decide +kernel

/-- Context 0 with a state and a key. -/
def withCtx (st : Nat) (f : Ctx → Ctx) (s : State) : State := { s with ctxs := [(0, f { ctxOf s 0 with st })] }

theorem witness_ContextsAreSavedAndLoaded :
    coreAt (.ctxsav 4 8) (cor (fun c => { c with u := [(8, 16)] }) (onCore (.ctxsav 4 8))) &&
    coreAt (.ctxsav 4 8) (withCtx 2 id (onCore (.ctxsav 4 8))) (fun s => decide ((ctxOf s 0).st ≠ 3)) &&
    coreAt (.ctxsav 4 8) (withCtx 3 (fun c => { c with csize := 1 }) (onCore (.ctxsav 4 8)))
      (fun s => decide ((ctxOf s 0).st = 3) && decide (0 < (ctxOf s 0).csize.toNat)) &&
    coreAt (.ctxsav 4 8) (withCtx 3 id (onCore (.ctxsav 4 8))) (fun s => decide ((ctxOf s 0).st = 3) && decide ((ctxOf s 0).csize.toNat = 0)) &&
    coreAt (.ctxld 4 8) { onCore (.ctxld 4 8) with dev := { ckptOp := some (false, 0, 0) } } &&
    coreAt (.ctxld 4 8) (cor (fun c => { c with u := [(9, 1)] }) (onCore (.ctxld 4 8))) (fun s => s.dev.ckptOp.isNone) &&
    coreAt (.ctxld 4 8) (withCtx 1 id (onCore (.ctxld 4 8))) (fun s => decide ((ctxOf s 0).st ≠ 0)) &&
    coreAt (.ctxld 4 8) (onCore (.ctxld 4 8)) (fun s => (readRecord s 0).isNone) = true := by decide +kernel

theorem shaRound_length (v : List Word) (k : Word × Word) : (shaRound v k).length = v.length := by
  unfold shaRound; split <;> simp_all

theorem sha256_length (m : List Byte) : (sha256 m).length = 32 := by
  have round : ∀ (ks : List (Word × Word)) v, (ks.foldl shaRound v).length = v.length := by
    intro ks; induction ks with
    | nil => intro v; rfl
    | cons k ks ih => intro v; rw [List.foldl_cons, ih, shaRound_length]
  have blocks : ∀ n h bs, h.length = 8 → (shaBlocks n h bs).length = 8 := by
    intro n; induction n with
    | zero => intro h bs hh; exact hh
    | succ n ih => intro h bs hh; exact ih _ _ (by simp [shaBlock, round, hh])
  have bytes : ∀ ws : List Word, (ws.flatMap beBytes).length = 4 * ws.length := by
    intro ws; induction ws with
    | nil => rfl
    | cons w ws ih => simp only [List.flatMap_cons, List.length_append, ih, List.length_cons]; simp [beBytes, wordBytes]; omega
  simp only [sha256, bytes, blocks _ _ _ (show shaStart.length = 8 from rfl)]

/-- The first 224 bytes of a record whose areas stand at 64 GiB of package memory. -/
def recordHead : List Byte :=
  [1] ++ List.replicate 47 0 ++ (List.replicate 7 [0, 0, 0, 0, 0x10, 0, 0, 0]).flatten ++ List.replicate 120 0

/-- The areas of that record, all in the last one. -/
def recordArea : List Byte := memRead (onCore (.ctxld 4 8)) (2 ^ 36) (4096 * (Config.backPages 0 % 2 ^ 16))

/-- That record at 0, as the image of what a context held, before a control core that loads it into a context
with a key slot register. -/
def loadable (v : SavedCtx) (key : Word) : State :=
  { memWrite (onCore (.ctxld 4 8)) 0 (recordHead ++ sha256 (recordHead ++ recordArea)) with
    ctxs := [(0, { kslot := [(0, key)] })]
    saved := [{ v with bytes := recordHead ++ sha256 (recordHead ++ recordArea) ++ List.replicate 3840 0 ++ recordArea }] }

/-- Where a header and its areas stand as their digest says, the record is read. -/
theorem readRecord_of (s : State) (v : SavedCtx) (hd area : List Byte) (at' n : Nat) (hh : hd.length = 224)
    (he : s.enc = []) (hv : s.saved = [v]) (hb : v.bytes = hd ++ sha256 (hd ++ area) ++ List.replicate 3840 0 ++ area)
    (hz : 4096 ≤ at') (hm : at' + n ≤ memSize s) (h0 : memRead s 0 256 = hd ++ sha256 (hd ++ area)) (h1 : memRead s (at') n = area)
    (h2 : memRead s (at') 0 = []) (hf : leNat (hd.take 4) = 1)
    (hx : recordExtent (hd ++ sha256 (hd ++ area)) = List.replicate 6 (at', 0) ++ [(at', n)]) :
    readRecord s 0 = some v := by
  have phys (a k : Nat) : physRead s 0 a k = memRead s a k := by simp [physRead, he]
  have fmt : ((hd ++ sha256 (hd ++ area)).take 4) = hd.take 4 := List.take_append_of_le_length (by omega)
  have front : (hd ++ sha256 (hd ++ area)).take 224 = hd := by rw [← hh]; exact List.take_left
  have back : (hd ++ sha256 (hd ++ area)).drop 224 = sha256 (hd ++ area) := by rw [← hh]; exact List.drop_left
  have all : (List.replicate 6 (at', 0) ++ [(at', n)]).flatMap (fun e : Nat × Nat => memRead s e.1 e.2) = area := by
    simp [List.replicate, h1, h2]
  have fits : ((List.replicate 6 (at', 0) ++ [(at', n)]).any fun e : Nat × Nat => decide (memSize s < e.1 + e.2)) = false := by
    simp [List.replicate]; omega
  have image : v.bytes.take 256 ++ v.bytes.drop 4096 = hd ++ sha256 (hd ++ area) ++ area := by
    have l : (hd ++ sha256 (hd ++ area)).length = 256 := by rw [List.length_append, hh, sha256_length]
    have l' : (hd ++ sha256 (hd ++ area) ++ List.replicate 3840 0).length = 4096 := by
      rw [List.length_append, l, List.length_replicate]
    rw [hb]
    conv_lhs => arg 2; rw [← l', List.drop_left]
    rw [List.append_assoc _ (List.replicate _ _), ← l, List.take_left]
  unfold readRecord
  rw [if_neg (by omega)]
  simp only [phys, h0, fmt, front, back, hx, all, fits, hf, hv]
  simp [image]

theorem readRecord_loadable (v : SavedCtx) (key : Word) : ∃ bs, readRecord (loadable v key) 0 = some { v with bytes := bs } := by
  have len : (recordHead ++ sha256 (recordHead ++ recordArea)).length = 256 := by
    rw [List.length_append, sha256_length, show recordHead.length = 224 from rfl]
  have part (k n : Nat) (hk : k + n ≤ 224) :
      ((recordHead ++ sha256 (recordHead ++ recordArea)).drop k).take n = (recordHead.drop k).take n := by
    have : recordHead.length = 224 := rfl
    rw [List.drop_append_of_le_length (by omega), List.take_append_of_le_length (by rw [List.length_drop]; omega)]
  refine ⟨_, readRecord_of (loadable v key) _ recordHead recordArea (2 ^ 36) (4096 * (Config.backPages 0 % 2 ^ 16)) rfl rfl rfl rfl
    (by decide) ?_ ?_ ?_ rfl (by decide) ?_⟩
  · show 2 ^ 36 + _ ≤ 2 ^ 38
    omega
  · have h := memRead_memWrite (onCore (.ctxld 4 8)) 0 (recordHead ++ sha256 (recordHead ++ recordArea))
    rw [len] at h
    exact (memRead_congr rfl rfl _ _).trans h
  · simp only [recordArea, memRead, Sparse.readF_eq]
    refine List.map_congr_left fun i _ => ?_
    show Sparse.getF (memDefault (onCore (.ctxld 4 8))) (Sparse.writeF (memDefault (onCore (.ctxld 4 8))) _ 0
      (recordHead ++ sha256 (recordHead ++ recordArea))) _ = _
    rw [Sparse.getF_writeF, if_neg (by rw [len]; omega)]
  · simp only [recordExtent, headerPointer, part 12 4 (by omega), List.map, List.range, List.range.loop, part 48 8 (by omega),
      part 56 8 (by omega), part 64 8 (by omega), part 72 8 (by omega), part 80 8 (by omega), part 88 8 (by omega), part 96 8 (by omega)]
    rw [show leNat ((recordHead.drop 12).take 4) = 0 by decide, show leNat ((recordHead.drop 48).take 8) = 2 ^ 36 by decide,
      show leNat ((recordHead.drop 56).take 8) = 2 ^ 36 by decide, show leNat ((recordHead.drop 64).take 8) = 2 ^ 36 by decide,
      show leNat ((recordHead.drop 72).take 8) = 2 ^ 36 by decide, show leNat ((recordHead.drop 80).take 8) = 2 ^ 36 by decide,
      show leNat ((recordHead.drop 88).take 8) = 2 ^ 36 by decide, show leNat ((recordHead.drop 96).take 8) = 2 ^ 36 by decide]
    rfl

/-- A record of nothing, one of a launch whose features this package lacks, and one of a core's teams that no core can hold. -/
def savedNothing : SavedCtx :=
  { bytes := [], num := 0, ctx := {}, doms := [], launches := [], tasks := [], teams := [], groups := [], cmds := [], effects := []
    conts := [], ports := [], patterns := [], phasers := [], traps := [], debugs := [], faults := [] }
def savedLacking : SavedCtx :=
  { savedNothing with launches := [(2, { ctx := 0, num := 0, dom := 0, words := placedRecord.set 33 0x8000, order := 0 })] }
def savedHuge : SavedCtx :=
  let tm : Team := { task := 3, tidx := 0, die := 0, core := 0, groups := [], size := 0x100000, epochSize := 0x100000 }
  { savedNothing with
    tasks := (placed .nop).tasks.map fun e => (e.1, { e.2 with words := e.2.words.set 16 0x100000 })
    teams := [(4, tm), (5, tm)] }

/-- The records above, and what a load finds of them. -/
def savedCases : List (SavedCtx × Bool × Bool) := [(savedNothing, false, true), (savedLacking, true, true), (savedHuge, false, false)]

/-- Of a context without and with a key. -/
theorem savedCases_facts : ([(0 : Word), 0x10].all fun key => savedCases.all fun e =>
      coreAt (.ctxld 4 8) (loadable e.1 key) && (loadable e.1 key).dev.ckptOp.isNone && decide ((ctxOf (loadable e.1 key) 0).st = 0) &&
        ((e.1.launches.any fun l => decide (recFeat l.2.words &&& Config.features ≠ recFeat l.2.words)) == e.2.1) &&
        ((assignClusters (loadable e.1 key) e.1).isSome == e.2.2)) = true := by decide +kernel

/-- What a load answers of a record that it reads depends on these, and on the context's key slot. -/
theorem witness_ContextsAreSavedAndLoaded_record (key : Word) (hk : key ∈ [(0 : Word), 0x10]) (e : SavedCtx × Bool × Bool)
    (he : e ∈ savedCases) :
    ∃ bs, readRecord (loadable e.1 key) 0 = some { e.1 with bytes := bs } ∧ coreAt (.ctxld 4 8) (loadable e.1 key) = true ∧
      (loadable e.1 key).dev.ckptOp.isNone = true ∧ (ctxOf (loadable e.1 key) 0).st = 0 ∧
      (e.1.launches.any fun l => decide (recFeat l.2.words &&& Config.features ≠ recFeat l.2.words)) = e.2.1 ∧
      (assignClusters (loadable e.1 key) { e.1 with bytes := bs }).isSome = e.2.2 := by
  obtain ⟨bs, h⟩ := readRecord_loadable e.1 key
  have f := List.all_eq_true.1 (List.all_eq_true.1 savedCases_facts key hk) e he
  simp only [Bool.and_eq_true, beq_iff_eq, decide_eq_true_eq] at f
  obtain ⟨⟨⟨⟨f1, f2⟩, f3⟩, f4⟩, f5⟩ := f
  exact ⟨bs, h, f1, f2, f3, f4, f5⟩

/-! ### Decoding, reset, steps -/

theorem witness_DecodingInvertsEncoding :
    Instr.wf (.vsel 127 126 125 7) && decide (encode (.vsel 127 126 125 7) ≠ []) && Instr.wf (.slit 1023 0xFFFFFFFF) = true := by decide +kernel

/-- A state with bytes in package memory and host memory that a step leaves. -/
def remembered : State :=
  { State.reset with mem := [(0, 1), (0x3FFFFFFFFF, 2)], host := [(9, 3)], script := [.event .lifetimeCounterPersist {}] }

theorem witness_EveryStepKeepsMemoryCanonical : memoryGood remembered ∧ ∃ t, step remembered = .next t :=
  ⟨by unfold memoryGood; decide +kernel, _, rfl⟩

/-- The state with the turn still to come. -/
def turn (s : State) : State := { s with script := [.issue (.split 5 0)] }

theorem witness_StepRunsDecodedInstruction :
    (let s := turn (placed (.sadd 4 5))
     decide (s.script = [.issue (.split 5 0)]) && canIssue s (.split 5 0) && (match startedClause s (.split 5 0) with
      | some c => (match c.words[c.idx]? with
        | some w => (match decode w c.words[c.idx + 1]? with | .ok i => decide (i = .sadd 4 5) | .error _ => false)
        | none => false)
      | none => false)) &&
    (let s := spl (fun sp => { sp with clause := none }) (turn (placed .nop))
     canIssue s (.split 5 0) && (startedClause s (.split 5 0)).isNone) &&
    !canIssue (spl (fun sp => { sp with mode := .parked }) (turn (placed .nop))) (.split 5 0) &&
    decide (encode .commit = []) = true := by decide +kernel

/-- An instruction stored where the next step takes it: `SLIT` runs as the first one after reset. -/
theorem test_step_runs_the_placed_word :
    (match step (State.reset.withFetchWord 64 (0x80000001 * 2 ^ 32 + 0x02010000)) with
     | .next t => decide ((Table.find t.groups 5).map Group.u = some [(4, 0x80000001)])
     | _ => false) = true := by decide +kernel

/-- The least and the greatest opcode of each unassigned range. -/
theorem witness_EncodedWordsDecode :
    [0x18, 0x3F, 0x7C, 0x8F, 0x9C, 0x9F, 0xA7, 0xAF, 0xB7, 0xBF, 0xCE, 0xCF, 0xDD, 0xDF, 0xED, 0xEF, 0xF1, 0xFF].all (fun n : Nat =>
      refuses (BitVec.ofNat 32 (n * 2 ^ 24)) 0 .unassignedOpcode) = true := by decide

/-- A state in which the split of group 5 stands before the clause at 0: header, then the words given, in mapped memory. -/
def before (bs : List (Nat × Byte)) : State :=
  let s := mapped (placed .nop)
  spl (fun sp => { sp with clause := none }) { s with mem := bs ++ s.mem }

/-- A header of one word with a WAIT on f0, and `NOP`. -/
def waitsOnF0 : State := before [(2, 0x10)]

theorem witness_ClauseStartFetchesChecksAndWaits :
    ([(before [(7, 0x18)]), waitsOnF0, grp (fun g => { g with flags := [(0, 1)] }) waitsOnF0].map fun s =>
      match whoOf s 5 0 with
      | some w =>
        match fetchWord s w.launch w.team.die 0 with
        | .ok hw =>
          (match fetchWords s w.launch w.team.die 4 (hdrLen hw) with
           | .ok ws => (w.sp.clause.isNone, (hdrWait hw).getLsbD 0, Sparse.get 0 w.grp.flags 0,
               staticCheck (some ⟨w.grp.vcount, recFeat w.task.words⟩) hw ws w.sp.last)
           | .error _ => (false, false, 9, none))
        | .error _ => (false, false, 9, none)
      | none => (false, false, 9, none)) =
    [(true, false, 0, some (0, 1)), (true, true, 0, none), (true, true, 1, none)] ∧
    -- a finished command, its effect, a pending register and a changed vector count that the wait settles
    (let s := grp (fun g => { g with vnext := some (64, 32), kept := [(0, 4, 0, 9)] }) (spl (fun sp => { sp with pend := [⟨0, 4, 0⟩] }) waitsOnF0)
     let s := { s with
       cmds := [(77, { flying 0 4 (.div 7) with finished := true })]
       effects := [{ dom := 1, launch := 2, task := 3, team := 4, group := 5, split := 0, key := 0, prog := 0, cmd := 77, time := none, body := .write 0 [] }] }
     match whoOf s 5 0, s.cmds with
     | some w, [(77, k)] => w.sp.line.contains k.split && decide (k.group = w.g) && k.time.isNone && decide (k.flag < 12) &&
         w.sp.frame.isNone && w.sp.lanes.getLsbD 0 && (s.effects.all fun e => e.cmd = 77) &&
         (match fetchWord s w.launch w.team.die 0 with
          | .ok hw => (hdrWait hw).getLsbD 0 && (staticCheck (some ⟨64, recFeat w.task.words⟩) hw [0] w.sp.last).isNone
          | .error _ => false)
     | _, _ => false) = true ∧
    (coreOf (cor (fun c => { c with clause := none, mem := [] }) (onCore .nop)) 0).clause = none ∧
    (coreOf (cor (fun c => { c with clause := none, pc := 0x3FFFC }) (onCore .nop)) 0).clause = none ∧
    staticCheck none 0 [0] none = none := by decide +kernel

theorem witness_StopsBeforeTheInstruction :
    (let s := { placed (.vadd 5 4 6) with comps := [(0, { pc := [(0, [0x10041, 0, 0, 0, 0, 0, 0, 0])] })] }
     match theSplit s with | some (w, c) => (pcHit s w c).isSome | none => false) &&
    (match theSplit (placed .wfi) with | some (w, c) => isPrivileged .wfi && (pcHit (placed .wfi) w c).isNone | none => false) &&
    (let s := spl (fun sp => { sp with clock := 0x7FFFFFFF00000000 }) (placed .nop)
     match theSplit s with | some (w, c) => (timeUp w).isSome && (pcHit s w c).isNone | none => false) &&
    (let s := spl (fun sp => { sp with pend := [⟨1, 6, 0⟩] }) (placed (.vadd 5 4 6))
     match theSplit s with | some (w, _) => (timeUp w).isNone && (hazardOf w (.vadd 5 4 6)).isSome | none => false) &&
    (let s := inMode 7 (placed (.vadd 5 4 6))
     match theSplit s with
     | some (w, _) => (hazardOf w (.vadd 5 4 6)).isNone && kindBad (.vadd 5 4 6) w.grp.mode
     | none => false) = true := by decide +kernel

/-- `noConflicts`, as a decision. -/
def calm (s : State) (w : Who) : Bool := w.team.conflict.isNone && s.groups.all fun e => e.2.sibRaces.isEmpty

theorem witness_RegisterWritesAndRetirementFrames :
    (match theSplit (placed (.sadd 4 5)) with
     | some (w, c) =>
       let s := placed (.sadd 4 5)
       decide (w.sp.mask &&& w.sp.lanes = w.sp.mask) && decide (s.actor = Actor.split w.g w.x) && !longLatency (.sadd 4 5) &&
         !w.sp.step && decide (w.sp.mode = Mode.ready) && calm s w && decide (c.idx + slotWords c ≥ c.words.length)
     | none => false) && decide ((onCore .nop).actor = Actor.core 0) = true := by decide +kernel

theorem witness_UniformInstructionFrames :
    retires (.sadd 4 5) (sregs [(4, 1), (5, 2)] (placed (.sadd 4 5))) (fun s _ _ => { s })
      (fun s w => !w.sp.step && decide (w.sp.mode = Mode.ready) && calm s w) &&
    retires (.sst 4 5 .w 0) (sregs [(4, 1), (5, 0x3FFC)] (placed (.sst 4 5 .w 0)))
      (fun s _ _ => { s, accs := [⟨0, 0x3FFC, 4, 1⟩], looks := [⟨false, 0x3FFC, 4, false, true, 96⟩] })
      (fun s w => decide (locate s w 0x3FFC 4 = Place.at 0 0x3FFC) && decide (w.team.tidx = 0) && !heldAccess s w [⟨0, 0x3FFC, 4, 1⟩]) =
      true := by decide +kernel

/-- A user handler at 64: the constant block of the launch at 0x1000 of mapped memory, whose word 1023 names it. -/
def handled (s : State) : State :=
  let s := mapped s
  { updLaunch s 2 (fun l => { l with words := l.words.set 31 0x1000 }) with mem := (0x1FFC, 0x41) :: s.mem }

/-- The split runs its handler: the trap stands given, the frame is kept. -/
def inHandler (s : State) : State :=
  spl (fun sp => { sp with frame := some { regs := List.replicate 16 7, rpc := 64, clause := none } })
    (tem (fun t => { t with halted := true
                            traps := [{ clock := 0, group := 5, split := 0, trap := { cls := 4, cause := 1 }
                                        words := 4 :: List.replicate 15 0, routed := true, user := true }] }) s)

theorem witness_TrapsAreTakenAndReturnedFrom :
    (match theSplit (placed .nop) with
     | some (w, _) => !bit (Sparse.get 0 (coreOf (placed .nop) w.team.die).sys 586) 3 && w.team.traps.isEmpty &&
         (handlerBase (placed .nop) w).isNone && w.sp.frame.isNone
     | none => false) &&
    (match theSplit (handled (placed .nop)) with
     | some (w, _) => decide (handlerBase (handled (placed .nop)) w = some 64) && w.team.traps.isEmpty
     | none => false) &&
    (match theSplit (unrooted 4 (placed .nop)) with | some (w, _) => w.task.rooted.isNone | none => false) &&
    retires .tret (inHandler (placed .tret)) (fun s _ _ => { s })
      (fun s w => (w.sp.frame.any fun f => decide (f.regs.length = 16)) && !w.sp.step && calm s w && decide (w.sp.mode = Mode.ready) && w.sp.saved.isNone) &&
    retires .tesc (inHandler (placed .tesc)) (fun s _ _ => { s })
      (fun _ w => match w.team.traps with | [h] => h.user && decide (h.group = w.g) && decide (h.split = w.x) | _ => false) = true := by
  decide +kernel

/-! ### Events -/

theorem witness_CompletionsWriteTheirResults :
    ([CmdBody.div 7, .log [(0, 1, 2)]].all fun b =>
      let s := grp (fun g => { g with flags := [(0, 1)] }) { placed .nop with arg := { a := 77, b := 0 }, cmds := [(77, flying 0 4 b)] }
      match Table.find s.cmds 77, Table.find s.groups 5 with
      | some k, some g => !k.finished && decide (k.group = 5) && !g.exited && k.time.isNone &&
          (match takers s k with
           | [(x, sp)] => decide (Table.find g.splits x = some sp) && sp.lanes.getLsbD 0 && g.kept.isEmpty
           | _ => false)
      | _, _ => false) &&
    decide ((coreOf (cor (fun c => { c with divs := [(0, 4, 7)] }) { onCore .nop with arg := { b := 1 } }) 0).divs = [(0, 4, 7)]) = true := by
  decide +kernel

/-- A write that waits for commit(0) of domain 1, whose agents stand in quantum 1; and the same with an agent in quantum 0. -/
theorem witness_CommitsFollowTheMinimumAndApplyWrites :
    (let e : Effect := { dom := 1, launch := 2, task := 3, team := 4, group := 5, split := 0, key := 0, prog := 0, time := some 5
                         body := .write 0 [(0, 0, [7, 8])] }
     let s := { spl (fun sp => { sp with clock := 32768 }) (placed .nop) with arg := { a := 1 }, effects := [e] }
     match s.doms, s.launches, s.tasks, s.groups, s.teams with
     | [(1, d)], [(2, l)], [(3, k)], [(5, g)], [(4, t)] =>
       decide (d.join = []) && d.derived.isEmpty && d.reports.isEmpty && d.late.isEmpty && d.firings.isEmpty && d.joinSigs.isEmpty &&
         !s.ctxs.isEmpty && (s.ctxs.all fun c => c.2.inbox.isEmpty && c.2.playback.isNone && c.2.replies.isEmpty) &&
         s.cmds.isEmpty && s.conts.isEmpty && s.phasers.isEmpty && s.ports.isEmpty && s.patterns.isEmpty && s.enc.isEmpty && s.trees.isEmpty &&
         s.accs.isEmpty && !l.ended && t.colls.isEmpty && decide (0 ≤ d.next) && decide (0 < d.q) && decide (l.dom = 1) && decide (l.liveTasks = 1) && k.placed && decide (k.rooted = some 0) &&
         decide (k.launch = 2) && k.retired.isNone && decide (g.task = 3) && decide (g.team = 4) && decide (t.task = 3) &&
         (match g.splits with | [(0, sp)] => decide ((d.next + 1) * d.q ≤ sp.clock) && decide (sp.mode = Mode.ready) && sp.due.isEmpty | _ => false) &&
         decide (5 < (d.next + 1) * d.q)
     | _, _, _, _, _ => false) &&
    (let s := { placed .nop with arg := { a := 1 } }
     match Table.find s.doms 1, taskSplits s 3 with
     | some d, [(5, 0, sp)] => decide (sp.mode = Mode.ready) && decide (sp.clock < (d.next + 1) * d.q)
     | _, _ => false) &&
    (let s := tsk (fun t => { t with placed := false, rooted := none, start := 32767 }) { placed .nop with arg := { a := 1 } }
     match Table.find s.doms 1, Table.find s.tasks 3 with
     | some d, some k => k.retired.isNone && !k.placed && decide (k.start + 1 = (d.next + 1) * d.q)
     | _, _ => false) = true := by decide +kernel

/-- Function 0 mapped to context 0 with a ring of 16 entries of which one waits. -/
def hosted (s : State) : State :=
  { s with dev := { s.dev with st := 2, debug := true, keys := [0], fns := [(0, { srsize := 16, srtail := 1, rrsize := 16, map := some 0 })] } }

theorem witness_HostSideEvents :
    (let s := hosted State.reset
     match Table.find s.dev.fns 0 with
     | some f => f.map = some 0 && decide (ringSize f.srsize = some 16) && !s.dev.hostDown.contains 0 && decide (f.srhead ≠ f.srtail.toNat % 16)
     | none => false) &&
    (((Table.find State.reset.dev.fns 0).getD {}).map.isNone && !canLaunch State.reset 0 && (fullGathering State.reset 0 0).isNone &&
      (nextReply State.reset 0).isNone) &&
    (let s := withCtx 0 (fun c => { c with requests := [(1, 0x1000)], ttb := 0x20000 }) (mapped (hosted State.reset))
     canLaunch s 0 && (match vaRead s 0 0 false [] 0x1000 256 with
       | .ok bs => decide (checkRecord s (bytesWords 64 bs) none ≠ 0)
       | .error _ => false)) &&
    (let s := { placed .nop with
       launches := [(2, { ctx := 0, num := 0, dom := 0, words := placedRecord, waiting := true })]
       phasers := [(5, { any := false, scope := 0, gather := 1, ctx := 0, die := 0, waiting := [2] })] }
     match fullGathering s 5 0 with | some ls => (ls.all fun l => (Table.find s.launches l).isSome) && decide (liveDomains s < 64) | none => false) &&
    -- the clock service with a slot left and with none
    ([(63, true), (64, false)].all fun (c : Nat × Bool) =>
      let s := { placed .nop with
        doms := (List.range c.1).map fun i => (100 + i, { q := 32768 })
        launches := (List.range c.1).map fun i => (200 + i, { ctx := 1, num := i, dom := 100 + i, words := placedRecord, liveTasks := 1 }) }
      decide (liveDomains s < 64) == c.2) &&
    -- functions of both ports of a package, and of the one port of a chip
    (decide ((31 : Nat) / 16 = 1) && decide ((32 : Nat) / 16 ≠ 1) && !State.reset.chip) &&
    (nextReply (withCtx 1 (fun c => { c with flight := [(0, 0, 0, false, 1, 2)] }) (hosted State.reset)) 0).isSome = true := by decide +kernel

/-- A record in memory that passes R294, of a context whose request names it. -/
theorem witness_HostSideEvents_launch :
    (let s := withCtx 0 (fun c => { c with requests := [(1, 0x1000)], ttb := 0x20000 }) (mapped (hosted State.reset))
     let s := { s with mem := Sparse.write 0 s.mem 0x1000 (placedRecord.flatMap wordBytes) }
     canLaunch s 0 && (match vaRead s 0 0 false [] 0x1000 256 with
       | .ok bs => decide (checkRecord s (bytesWords 64 bs) none = 0) && decide (gatherings s (bytesWords 64 bs) = [])
       | .error _ => false)) = true := by decide +kernel

/-- A control core that can enter a handler, with records and events. -/
def entering (t d : List Record) (f : List (Nat × List Word)) (e : List Word) : State :=
  cor (fun c => { c with ie := true, clause := none, trapQ := t, debugQ := d, faultQ := f, events := e }) (onCore .nop)

theorem witness_ControlCoreEvents :
    ([entering [trapRecord 4] [] [] [], entering [trapRecord 4, trapRecord 15] [] [] [], entering [] [trapRecord 12] [] [],
        entering [] [] [(77, [])] [], entering [] [] [] [0x102]].all fun s =>
      let k := coreOf s 0
      k.running && !k.halted && k.ie && !k.inh && k.clause.isNone && !bit (sysGet s 0 531) 0) &&
    (let s := entering [] [] [(77, [])] []
     (suspended s 77).isNone && (match (coreOf s 0).faultQ with | [(77, _)] => true | _ => false)) &&
    (let s := { copying .cfqactDecline 1 0 none with
       cmds := [(77, flying 0 4 (.copy 0xA0 [1] [] 0 0 (some (1, 0, 0, true)) none none))] }
     match suspended s 77 with | some c => (Table.find s.teams c.team).isSome | none => false) &&
    (!(coreOf State.reset 0).running && decide ((ctxOf State.reset 0).st ≠ 1) && !drained State.reset 0 && decide ((ctxOf State.reset 0).st = 0)) &&
    (let s := placed .nop
     s.dev.ckptOp.isNone && decide ((ctxOf s 0).st = 1) && s.tasks.all fun e => e.2.rooted.isSome) &&
    (let s := withCtx 2 id State.reset
     drained s 0 && decide ((ctxOf s 0).st = 2)) && decide ((ctxOf (withCtx 4 id State.reset) 0).st = 4) &&
    (State.reset.dev.fns.all fun e => decide (e.2.map ≠ some 3)) &&
    decide (64 + 16 * 15 + 6 = 310) && decide ((ctxOf (withCtx 1 id State.reset) 0).st ≠ 0) &&
    !sysWriteWaits State.reset 2 &&
    (let s := { State.reset with dev := { fns := [(0, { map := some 3 }), (1, {})] } }
     s.dev.fns.any fun e => decide (e.1 ≠ 1) && decide (e.1 / 16 = 1 / 16) && decide (e.2.map = some 3)) = true := by decide +kernel

theorem witness_DebugUnitEvents :
    (let s := entering [] [trapRecord 12] [] []
     !bit (sysGet s 0 531) 0 && !recordLive s (trapRecord 12) && (residentGroup s 0 0 0).isNone) &&
    (let s := cor (fun c => { c with sys := [(531, 1)] }) (entering [] [trapRecord 12] [] [])
     bit (sysGet s 0 531) 0 && !recordLive s (trapRecord 12)) &&
    (let s := placed .nop
     match residentGroup s 0 0 0, whoOf s 5 0 with
     | some (5, g), some w => decide (teamSplits s g.team = [(w.g, w.x, w.sp)]) && !w.grp.parked && decide (w.grp.team = g.team) &&
         !bit (sysGet s w.team.die 586) 3
     | _, _ => false) &&
    (let s := cor (fun c => { c with sys := [(540, 0x4000)] }) (grp (fun g => { g with halted := true }) (placed .nop))
     match (residentGroup s 0 0 0).filter fun e => e.2.halted with
     | some (_, g) => (Table.find s.teams g.team).isSome && decide ((sysGet s 0 540).toNat / 2 ^ 13 = 2)
     | none => false) &&
    modeIllegal 0xF && !modeIllegal 1 && !State.reset.chip && !State.reset.dev.debug && (hosted State.reset).dev.debug &&
    (let s := cor (fun c => { c with sys := [(586, 1)] }) (placed .nop)
     bit (sysGet s 0 586) 0 && (match s.groups with
      | [(_, g)] => !g.exited && !g.parked && (match Table.find s.teams g.team with | some t => decide (t.die = 0) && decide (t.core = 0) | none => false)
      | _ => false)) &&
    (match Table.find (placed .nop).groups 5 with | some g => !g.exited && !g.parked | none => false) &&
    -- an idle cycle of a stalled split, of a group whose splits all wait at RECON, and of a halted group
    ([(Mode.stalled 7, some 0, false), (.recon ⟨0, 0, [], 0, 0⟩, none, false), (.ready, some 0, true)].all fun (c : Mode × Option Nat × Bool) =>
      let s := grp (fun g => { g with halted := c.2.2 }) (spl (fun sp => { sp with mode := c.1, entry := c.2.1 }) (placed .nop))
      match Table.find s.groups 5 with
      | some g => (match g.splits with
        | [(0, sp)] => (whoOf s 5 0).isSome && (sp.clause.any fun k => (slotInstr k).any longLatency == false) && sp.stopAt.isNone &&
            (sp.entry.isSome == c.2.1.isSome) && decide (sp.mode = c.1) && !g.exited && !g.parked && g.halted == c.2.2
        | _ => false)
      | none => false) = true := by decide +kernel

/-- Clauses about what the opaque unit verifies hold for either answer; the states below meet the rest. -/
theorem witness_DeviceUnitEvents :
    decide (State.reset.dev.st ≠ 3) && decide ({ State.reset with dev := { st := 3 } }.dev.st = 3) &&
    State.reset.dev.quote.isNone && decide (0 + 8192 ≤ memSize State.reset) && !withoutKeys (hosted State.reset) &&
    decide ({ State.reset with dev := { quote := some ([], 0) } }.enc = []) &&
    decide (State.reset.dev.unlkstat ≠ 1) && allFree State.reset && !allFree (placed .nop) && State.reset.dev.keys.isEmpty &&
    decide ({ State.reset with dev := { st := 1 } }.dev.st = 1) &&
    (let s := { State.reset with dev := { ckptOp := some (false, 0, 0), hostDown := [1] } }
     s.dev.ckptOp.isSome && s.dev.hostDown.contains 1 && !s.dev.hostDown.contains 0) &&
    decide ({ State.reset with dev := { unkept := 59, seconds := 3599 } }.dev.unkept = 59) && decide (State.reset.dev.nonces.length < 2 ^ 32) &&
    !{ State.reset with dev := { hostDown := [] } }.dev.hostDown.contains 0 &&
    State.reset.dev.ckptOp.isNone && (placed .nop).ctxs.any (fun c => decide (c.2.st = 1)) && !State.reset.chip = true := by decide +kernel

/-! ### Further clauses: windows, checks of copies, commits of each kind of effect -/

/-- The window of another team, at the last bytes of its size of the last commit point and beyond, and the own window. -/
theorem witness_LocalAddressesNameAllocations_windows :
    (match theSplit (twoTeams (placed .nop)) with
     | some (w, _) =>
       let s := twoTeams (placed .nop)
       decide (recWidth w.task.words = 2) && decide (w.team.tidx = 0) && ((teamAt s w 1).any fun e => decide (e.2.epochSize = 0x3000)) &&
         decide (locate s w 0x1102FFC 4 = Place.at 1 0x2FFC) && decide (locate s w 0x1102FFD 4 = Place.out 0x3000) &&
         decide (locate s w 0x1003FFD 4 = Place.out 0x4000) && decide (locate s w 0x1200000 4 = Place.out 2)
     | none => false) = true := by decide +kernel

/-- The checks of R249 that follow the form: an index list outside the allocation, rows past the address space at each
side, a register at the quota, a tombed gather with sd 1005, and a row outside the allocation. -/
theorem witness_CopyCommandsIssueIntoFlight_checks :
    settles (.gath 4 8) (gathBlock 0 0x80004000 (placed (.gath 4 8))) (fun _ _ _ => .trap { cls := 4, cause := 14 })
      (fun s w => decide (locate s w 0x4000 4 = Place.out 0x4000) && !({ opc := 0xA2, ws := block s 8 12, sd := 4 } : Desc).listWaits s w) &&
    settles (.cpy 4 8) (sregs [(9, 0xFFFFFFFC), (10, 0xFFFFFF), (11, 0x100), (15, 8)] (placed (.cpy 4 8)))
      (fun _ _ _ => .trap { cls := 7, cause := 5, aux := 1, lanes := some 1 })
      (fun s w => let d : Desc := { opc := 0xA0, ws := block s 8 8, sd := 4 }
        !d.listWaits s w && (d.indices s w).toOption.isSome && (d.rows []).any fun e => decide (2 ^ 56 < e.2.1 + e.2.2.2)) &&
    settles (.cpy 4 8) (sregs [(8, 1), (9, 0x100), (11, 0xFFFFFFFC), (12, 0xFFFFFF), (15, 8)] (placed (.cpy 4 8)))
      (fun _ _ _ => .trap { cls := 7, cause := 5, aux := 3, lanes := some 1 })
      (fun s _ => (({ opc := 0xA0, ws := block s 8 8, sd := 4 } : Desc).rows []).all fun e =>
        e.1 = 0 && decide (2 ^ 56 < e.2.2.1 + e.2.2.2)) &&
    settles (.gath 4 8) (gathBlock 1 120 (grp (fun g => { g with vcount := 120 }) (placed (.gath 4 8))))
      (fun _ _ _ => .trap { cls := 7, cause := 2 }) &&
    settles (.gath 4 8) (gathBlock 0 120 (grp (fun g => { g with vcount := 120 }) (placed (.gath 4 8))))
      (fun _ _ _ => .trap { cls := 7, cause := 6, aux := 9 })
      (fun s w => let d : Desc := { opc := 0xA2, ws := block s 8 12, sd := 4 }
        !d.listWaits s w && decide (w.grp.vcount = 120) && match d.indices s w with
          | .ok (xs, _) => (d.rows xs).all fun e => decide (0 ≤ e.2.1) && decide (e.2.1 + e.2.2.2 ≤ 2 ^ 56)
          | .error _ => false) &&
    settles (.gath 1005 8) (gathBlock 0x200 0 (placed (.gath 1005 8))) (fun _ _ _ => .trap { cls := 7, cause := 7 })
      (fun s w => let d : Desc := { opc := 0xA2, ws := block s 8 12, sd := 1005 }
        !d.listWaits s w && (d.indices s w).toOption.isSome && bit (d.w 0) 9) &&
    settles (.cpy 4 8) (cpyBlock 3 0 0x4000 4 (placed (.cpy 4 8))) (fun _ _ _ => .trap { cls := 4, cause := 14, lanes := some 1 })
      (fun s w => decide (locate s w 0 4 = Place.at 0 0) && decide (locate s w 0x4000 4 = Place.out 0x4000)) = true := by decide +kernel

/-- The command 77 of `copying` in flight, with these rows; its completion. -/
def copyRows (dir : Word) (rows : List Row) (s : State) : State :=
  let c := copying .copyCommandComplete dir 0 none
  { s with arg := c.arg, script := c.script, cmds := c.cmds.map fun e => (e.1, { e.2 with
      body := .copy 0xA1 [dir, 0, 0, 0, 0, 0, 0, 4, 2, 4, 4] rows 0 0 none none none, time := some 9 }) }

/-- The command moves its bytes now. -/
def movable (s : State) : Bool :=
  match Table.find s.cmds 77 with
  | some c => (cmdLaunch s c).isSome && (Table.find s.groups c.group).isSome && (Table.find s.teams c.team).isSome &&
      (Table.find s.tasks c.task).isSome && decide (c.cursor = (0, 0)) && movesNow s c && (match c.body with
        | .copy _ ws rows _ _ _ _ none => (firstFault s 0 c ws rows).isNone && bits (ws.getD 0 0) 4 3 < 2 && !bit (ws.getD 0 0) 9
        | _ => false)
  | none => false

/-- Rows that overlap in the own scratchpad, a row to the other team's window, and a row to global memory. -/
theorem witness_CopyCompletionDeliversItsBytes_rows :
    movable (copyRows 3 [⟨0, windowForm 0 0, windowForm 0 0x3FF8, 4, some [1, 2, 3, 4], []⟩, ⟨1, windowForm 0 4, windowForm 0 0x3FFA, 4, some [5, 6, 7, 8], []⟩]
      (placed .nop)) &&
    movable (copyRows 3 [⟨0, windowForm 0 0, windowForm 1 0x2FFC, 4, some [1, 2, 3, 4], []⟩] (twoTeams (placed .nop))) &&
    (match Table.find (twoTeams (placed .nop)).tasks 3 with | some k => decide (placeOf (windowForm 1 0x2FFC) = (1, 0x2FFC)) && k.teams[1]? == some 8 | none => false) &&
    movable (copyRows 1 [⟨0, windowForm 0 0, 0x1000, 4, some [1, 2, 3, 4], []⟩] (mapped (placed .nop))) = true := by decide +kernel

/-- A matrix command with rows that overlap, a message and a column. -/
theorem witness_MatrixCompletionLandsRows_message :
    (let s := { placed .nop with
       cmds := [(77, flying 1 4 (.matrix [(0x3FF0, [1, 2]), (0x3FF1, [3])] (some (5, 3, [7, 8])) (some (9, 1)) 0))] }
     match Table.find s.cmds 77 with
     | some c => !c.finished && (cmdLaunch s c).isSome && (Table.find s.groups c.group).isSome && (Table.find s.teams c.team).isSome &&
         (Table.find s.tasks c.task).isSome && (match takers s c with | [(0, sp)] => sp.lanes.getLsbD 1 | _ => false)
     | none => false) = true := by decide +kernel

/-- `ROOT` where the quantum ends at 2^63. -/
theorem witness_QuotaRootAndSplitInstructions_horizon :
    settles .root (spl (fun sp => { sp with clock := 2 ^ 63 - 5, base := 2 ^ 63 - 5 }) (placed .root)) (fun _ _ _ => .exhaust 6) (fun _ w => !closeFits w) = true := by
  decide +kernel

/-- Numbers, a NaN of each side, infinities and zeros of both signs at an aligned place. -/
theorem witness_AtomicsApplyTheirOperation_floats :
    decide (0x1000 % 8 = 0) && decide (State.reset.accs = []) &&
    ([(0x3F800000, 0x40000000), (0x7FC00001, 0x3F800000), (0x3F800000, 0x7F800001), (0x80000000, 0), (0xFF800000, 0x7F800000)].all
      fun (p : Word × Word) =>
        let s := (applyLane State.reset 8 0x1000 0 p.1 0).1
        decide (bytesWord (physRead s 0 0x1000 4) = p.1) &&
          ((fmtF32.isNan p.1.toNat || fmtF32.isNan p.2.toNat) == decide (p.1 = 0x7FC00001 ∨ p.2 = 0x7F800001))) = true := by decide +kernel

/-- A source at the own window, which R55 takes for the own allocation. -/
theorem witness_CollectivesJoinTheTree_window :
    reaches (.coll 4 8) (sregs [(8, 0x301), (9, 7), (10, 0x1003FFC), (11, 0x1000000), (12, 1)] (treed (placed (.coll 4 8))))
      (fun s w c => (match treeOf (ownDomain s w) 7 with | some (_, [_]) => true | _ => false) &&
        decide (locate s w 0x1003FFC 4 = .at 0 0x3FFC) && decide (locate s w 0x1000000 4 = .at 0 0) &&
        !heldAccess s w [⟨0, 0x3FFC, 4, 0⟩] && mayEnd s (.coll 4 8) w c (queued s [⟨0, 0x3FFC, 4, 0⟩] [⟨false, 0x1003FFC, 4, true, false, 96⟩])) =
      true := by decide +kernel

/-- A vector operation on lanes of a mask, a mode write, narrow stores, and a store to the other team's window. -/
theorem witness_UniformInstructionFrames_others :
    retires (.vand 5 4 6) (masked 0x3 (placed (.vand 5 4 6))) (fun s w _ => vecOut s w 5 fun l => (laneRead w.grp 4 l &&& laneRead w.grp 6 l, 0))
      (fun s w => !w.sp.step && decide (w.sp.mode = Mode.ready) && calm s w) &&
    retires (.vnot 5 4) (placed (.vnot 5 4)) (fun s w _ => vecOut s w 5 fun l => (~~~ laneRead w.grp 4 l, 0)) (fun s w => calm s w) &&
    retires (.modei 0x0207) (placed (.modei 0x0207)) (fun s _ _ => { s, items := [⟨1, 0, true⟩] })
      (fun s w => !modeIllegal 0x0207 && calm s w) &&
    ([(Instr.sst 4 5 .h 2, 0x3FFE, 2), (.sst 4 5 .b 2, 0x3FFF, 1)].all fun (r : Instr × Nat × Nat) =>
      retires r.1 (sregs [(4, 1), (5, word (r.2.1 - 2))] (placed r.1))
        (fun s _ _ => { s, accs := [⟨0, r.2.1, r.2.2, 1⟩], looks := [⟨false, r.2.1, r.2.2, false, true, 96⟩] })
        (fun s w => calm s w && decide (locate s w r.2.1 r.2.2 = Place.at 0 r.2.1) && !heldAccess s w [⟨0, r.2.1, r.2.2, 1⟩])) &&
    retires (.sst 4 5 .w 0) (sregs [(4, 1), (5, 0x1102FFC)] (twoTeams (placed (.sst 4 5 .w 0))))
      (fun s _ _ => { s, accs := [⟨1, 0x2FFC, 4, 1⟩], looks := [⟨false, 0x1102FFC, 4, false, true, 96⟩] })
      (fun s w => calm s w && decide (locate s w 0x1102FFC 4 = Place.at 1 0x2FFC) && decide (w.task.teams[1]? = some 8) &&
        !heldAccess s w [⟨1, 0x2FFC, 4, 1⟩]) = true := by decide +kernel

/-- One effect that waits for commit(0) of domain 1, whose agents stand in quantum 1. -/
def committing (body : EffBody) (s : State) : State :=
  { spl (fun sp => { sp with clock := 32768 }) s with
    arg := { a := 1 }
    effects := [{ dom := 1, launch := 2, task := 3, team := 4, group := 5, split := 0, key := 0, prog := 0, time := some 5, body }] }

/-- What the clauses about a commit of one effect ask beside the effect. -/
def committable (s : State) : Bool :=
  match s.doms, s.launches, s.tasks, s.groups, s.teams, s.effects with
  | [(1, d)], [(2, l)], [(3, k)], [(5, g)], [(4, t)], [e] =>
    decide (d.join = []) && d.derived.isEmpty && d.reports.isEmpty && d.late.isEmpty && d.firings.isEmpty && d.joinSigs.isEmpty &&
      (s.ctxs.all fun c => c.2.inbox.isEmpty && c.2.playback.isNone && c.2.replies.isEmpty) && s.bad.isEmpty &&
      s.cmds.isEmpty && s.conts.isEmpty && s.patterns.isEmpty && s.enc.isEmpty && s.trees.isEmpty && s.accs.isEmpty &&
      !l.ended && t.colls.isEmpty && decide (0 < d.q) && decide (l.dom = 1) && decide (l.liveTasks = 1) && k.placed &&
      decide (k.rooted = some 0) && decide (k.launch = 2) && k.retired.isNone && decide (g.task = 3) && decide (g.team = 4) &&
      decide (t.task = 3) && decide (e.dom = 1) && decide (e.task = 3) && decide (e.launch = 2) && decide (e.time = some 5) &&
      decide (5 < (d.next + 1) * d.q) &&
      (match g.splits with | [(0, sp)] => decide ((d.next + 1) * d.q ≤ sp.clock) && decide (sp.mode = Mode.ready) && sp.due.isEmpty | _ => false)
  | _, _, _, _, _, _ => false

/-- An atomic, a message to a poll port and to a count port, a posted window write, a task creation, and the signal of a
phaser's one signaller. -/
theorem witness_CommitsFollowTheMinimumAndApplyWrites_effects :
    committable (committing (.atom 0 [(0, 0x1000, 0, 5, 0)] none) (placed .nop)) &&
    (let s := committing (.message 3 7 8 none) (ported { depth := 2, kind := 1, isOpen := true } (placed .nop))
     committable s && (portAt s 0 3).any fun p => p.isOpen && decide (p.kind = 1) && decide (p.fifo.length < p.depth)) &&
    (let s := committing (.message 3 7 8 none) (ported { kind := 2, isOpen := true, count := 0xFFFFFFFE } (placed .nop))
     committable s && (portAt s 0 3).any fun p => p.isOpen && decide (p.kind = 2) && p.armed.isEmpty) &&
    (let s := committing (.window 4 0x3FFC [1, 2, 3, 4]) (placed .nop)
     committable s && (Table.find s.teams 4).any fun t => !t.exited && decide (0x3FFC + 4 ≤ lastSize s t)) &&
    (let s := committing (.spawn placedRecord) (placed .nop)
     committable s && decide ((ctxOf s 0).live < 2 ^ 24) && s.phasers.isEmpty) &&
    (let s := { committing (.phsig 6 0 5 none false none) (placed .nop) with
       phasers := [(6, { any := false, scope := 0, gather := 0, ctx := 0, die := 0
                         parties := [{ kind := 0, id := 5, rank := 0, role := 1, sphase := 0, wphase := 0 }] })] }
     committable s) = true := by decide +kernel

end Sys2Proof.Tests
end

namespace Sys2Proof.Machine
-- Theorems one after another: in parallel, the stacks of the waiting threads go past the checker's memory limit.
set_option Elab.async false

/-- What the canonical form of the memories speaks of: how often package memory was lost, package memory, host memory. -/
def memories (s : State) : Nat × Sparse Byte × Sparse Byte := (s.lost, s.mem, s.host)

/-- The canonical form depends on the memories alone. -/
theorem memoryGood_of_memories {s t : State} (h : memoryGood s) (e : memories t = memories s) : memoryGood t := by
  obtain ⟨hm, hh⟩ := h
  simp only [memories, Prod.mk.injEq] at e
  obtain ⟨el, em, eh⟩ := e
  exact ⟨(Memory.wf_congr em el).trans hm, eh ▸ hh⟩

/-- A state by its fields. -/
@[simp] theorem memories_mk (script : List Turn) (actor arg ticks fresh prog lost chip mem enc bad host flash doms launches
    tasks teams groups cmds effects conts ports patterns phasers gens ctxs cores comps accs rounds gtab rtab trees collN saved
    dev) :
    memories ⟨script, actor, arg, ticks, fresh, prog, lost, chip, mem, enc, bad, host, flash, doms, launches, tasks, teams,
      groups, cmds, effects, conts, ports, patterns, phasers, gens, ctxs, cores, comps, accs, rounds, gtab, rtab, trees,
      collN, saved, dev⟩ = (lost, mem, host) := by rfl

@[simp] theorem memories_eta (s : State) : (s.lost, s.mem, s.host) = memories s := by rfl

@[simp] theorem memories_ite (c : Prop) [Decidable c] (s t : State) :
    memories (if c then s else t) = if c then memories s else memories t := apply_ite memories c s t

section
variable {α β : Type}

/-- A fold whose steps keep the memories keeps them. -/
@[simp] theorem foldl_memories (f : State → α → State) (hf : ∀ s a, memories (f s a) = memories s) (l : List α) :
    ∀ s, memories (l.foldl f s) = memories s := by
  induction l with
  | nil => intro s; rfl
  | cons a l ih => intro s; exact (ih _).trans (hf s a)

@[simp] theorem foldr_memories (f : α → State → State) (hf : ∀ a s, memories (f a s) = memories s) (l : List α) (s : State) :
    memories (l.foldr f s) = memories s := by
  induction l with
  | nil => rfl
  | cons a l ih => exact (hf a _).trans ih

@[simp] theorem foldl_fst_memories (f : State × β → α → State × β) (hf : ∀ p a, memories (f p a).1 = memories p.1)
    (l : List α) : ∀ p, memories (l.foldl f p).1 = memories p.1 := by
  induction l with
  | nil => intro s; rfl
  | cons a l ih => intro s; exact (ih _).trans (hf s a)

@[simp] theorem foldl_snd_memories (f : β × State → α → β × State) (hf : ∀ p a, memories (f p a).2 = memories p.2)
    (l : List α) : ∀ p, memories (l.foldl f p).2 = memories p.2 := by
  induction l with
  | nil => intro s; rfl
  | cons a l ih => intro s; exact (ih _).trans (hf s a)

end
end Sys2Proof.Machine

namespace Sys2Proof.Machine
-- Theorems one after another: in parallel, the stacks of the waiting threads go past the checker's memory limit.
set_option Elab.async false
@[simp] theorem updGroup_memories (s : State) (g : Nat) (f : Group → Group) :
    memories (updGroup s g f) = memories s := by rfl
@[simp] theorem updCore_memories (s : State) (d : Nat) (f : Core → Core) :
    memories (updCore s d f) = memories s := by rfl
@[simp] theorem mergeWords_memories (s : State) (pa n : Nat) : memories (mergeWords s pa n) = memories s := by
  unfold mergeWords
  split <;> rfl
@[simp] theorem updSplit_memories (s : State) (g x : Nat) (f : Split → Split) :
    memories (updSplit s g x f) = memories s := by rfl
@[simp] theorem updTeam_memories (s : State) (t : Nat) (f : Team → Team) :
    memories (updTeam s t f) = memories s := by rfl
@[simp] theorem queueTrap_memories (s : State) (die : Nat) (r : Record) :
    memories (queueTrap s die r) = memories s := by rfl
@[simp] theorem enterHandler_memories (s : State) (g x : Nat) (ws : List Word) (base : Nat) :
    memories (enterHandler s g x ws base) = memories s := by
  unfold enterHandler
  split <;> rfl
@[simp] theorem serveTraps_memories (s : State) (t : Nat) : memories (serveTraps s t) = memories s := by
  simp only [serveTraps]
  repeat' split
  all_goals simp
@[simp] theorem haltTeam_memories (s : State) (t : Nat) : memories (haltTeam s t) = memories s := by rfl
@[simp] theorem countStall_memories (s : State) (g k : Nat) : memories (countStall s g k) = memories s := by rfl
@[simp] theorem countWait_memories (s : State) (w : Who) : memories (countWait s w) = memories s := by
  unfold countWait
  repeat' split
  all_goals simp
@[simp] theorem queueEvent_memories (s : State) (die code ctx arg : Nat) :
    memories (queueEvent s die code ctx arg) = memories s := by rfl
@[simp] theorem updCtx_memories (s : State) (c : Nat) (f : Ctx → Ctx) : memories (updCtx s c f) = memories s := by rfl
@[simp] theorem areaFull_memories (s : State) (n die : Nat) : memories (areaFull s n die) = memories s := by
  unfold areaFull
  split <;> rfl
@[simp] theorem noteConflicts_memories (w : Who) (stripe : Option Conflict) (sib : List SibConflict) (s : State) :
    memories (noteConflicts w stripe sib s) = memories s := by
  unfold noteConflicts
  repeat' split
  all_goals simp
@[simp] theorem haltRaced_memories (s : State) (w : Who) : memories (haltRaced s w) = memories s := by rfl
@[simp] theorem updTask_memories (s : State) (k : Nat) (f : Task → Task) :
    memories (updTask s k f) = memories s := by rfl
@[simp] theorem coreEnter_memories (s : State) (d base epc : Nat) (ecause : Word) :
    memories (coreEnter s d base epc ecause) = memories s := by rfl
@[simp] theorem coreTrap_memories (s : State) (d cls cause : Nat) : memories (coreTrap s d cls cause) = memories s := by
  simp only [coreTrap]
  split <;> simp
@[simp] theorem groupWrite_memories (s : State) (g x n : Nat) (v : Word) :
    memories (groupWrite s g x n v) = memories s := by
  unfold groupWrite
  repeat' split
  all_goals simp
@[simp] theorem coreWrite_memories (s : State) (d n : Nat) (v : Word) : memories (coreWrite s d n v) = memories s := by
  unfold coreWrite
  repeat' split
  all_goals simp
@[simp] theorem uwrite_memories (s : State) (n : Nat) (v : Word) : memories (uwrite s n v) = memories s := by
  unfold uwrite
  split <;> simp
@[simp] theorem newCmd_memories (s : State) (c : Cmd) : memories (newCmd s c).2 = memories s := by rfl
@[simp] theorem emit_memories (s : State) (w : Who) (time : Option Nat) (cmd : Nat) (body : EffBody) :
    memories (emit s w time cmd body) = memories s := by rfl
@[simp] theorem spadWrite_memories (s : State) (w : Who) (t off : Nat) (bs : List Byte) :
    memories (spadWrite s w t off bs) = memories s := by
  unfold spadWrite
  repeat' split
  all_goals simp
@[simp] theorem modeWrite_memories (s : State) (m : Word) : memories (modeWrite s m) = memories s := by
  unfold modeWrite
  split <;> rfl
@[simp] theorem uwrites_memories (s : State) (n : Nat) (vs : List Word) : memories (uwrites s n vs) = memories s := by
  simp [uwrites]
@[simp] theorem tripleWrite_memories (s : State) (t : Nat) (m : Mask) : memories (tripleWrite s t m) = memories s := by
  simp [tripleWrite]
@[simp] theorem passTraps_memories (s : State) (t g x y : Nat) : memories (passTraps s t g x y) = memories s := by rfl
@[simp] theorem shareTraps_memories (s : State) (t g x y : Nat) : memories (shareTraps s t g x y) = memories s := by
  unfold shareTraps
  split
  · rfl
  · simp
@[simp] theorem passResults_memories (s : State) (g x : Nat) (ys : List Nat) :
    memories (passResults s g x ys) = memories s := by rfl
@[simp] theorem setCalls_memories (s : State) (l : List Word) : memories (setCalls s l) = memories s := by
  unfold setCalls
  split <;> rfl
@[simp] theorem raiseFlags_memories (s : State) (w : Who) (fl : Word) : memories (raiseFlags s w fl) = memories s := by
  unfold raiseFlags
  split <;> rfl
@[simp] theorem maskResult_memories (s : State) (w : Who) (td : Nat) (p : Nat → Bool) :
    memories (maskResult s w td p) = memories s := by
  simp [maskResult]
@[simp] theorem spadWrites_memories (s : State) (w : Who) (l : List (Nat × Nat × List Byte)) :
    memories (spadWrites s w l) = memories s := by
  simp [spadWrites]
@[simp] theorem updBar_memories (s : State) (t b : Nat) (f : Bar → Bar) :
    memories (updBar s t b f) = memories s := by rfl
@[simp] theorem publish_memories (s : State) (w : Who) (b p : Nat) : memories (publish s w b p) = memories s := by rfl
@[simp] theorem arrive_memories (s : State) (w : Who) (b p : Nat) : memories (arrive s w b p) = memories s := by rfl
@[simp] theorem releaseWhere_memories (s : State) (sel : Group → Bool) (p : Mode → Bool) (t : Nat) :
    memories (releaseWhere s sel p t) = memories s := by rfl
@[simp] theorem wakeStalled_memories (s : State) : memories (wakeStalled s) = memories s := by rfl
@[simp] theorem pruneCmds_memories (s : State) : memories (pruneCmds s) = memories s := by rfl
@[simp] theorem fixTimes_memories (s : State) (w : Who) (p : Cmd → Bool) : memories (fixTimes s w p) = memories s := by
  simp only [fixTimes]
  split <;> simp
@[simp] theorem fixBar_memories (s : State) (w : Who) (b : Nat) : memories (fixBar s w b) = memories s := by
  simp [fixBar]
@[simp] theorem seePhase_memories (s : State) (w : Who) (b p : Nat) : memories (seePhase s w b p) = memories s := by rfl
@[simp] theorem updPort_memories (s : State) (ctx num : Nat) (f : Port → Port) :
    memories (updPort s ctx num f) = memories s := by
  unfold updPort
  split <;> rfl
@[simp] theorem updPattern_memories (s : State) (ctx num : Nat) (f : Pattern → Pattern) :
    memories (updPattern s ctx num f) = memories s := by
  unfold updPattern
  split <;> rfl
@[simp] theorem cfgApply_memories (s : State) (ctx num task gidx key kind : Nat) (ws : List Word) :
    memories (cfgApply s ctx num task gidx key kind ws) = memories s := by
  simp only [cfgApply]
  repeat' split
  all_goals simp
@[simp] theorem portView_memories (s : State) (w : Who) : memories (portView s w) = memories s := by
  refine foldl_memories _ (fun v e => ?_) _ _
  split
  · split <;> simp
  · rfl
@[simp] theorem nextSerial_memories (s : State) (g : Nat) : memories (nextSerial s g) = memories s := by rfl
@[simp] theorem barAddCmd_memories (s : State) (w : Who) (b id : Nat) :
    memories (barAddCmd s w b id) = memories s := by rfl
@[simp] theorem startCopy_memories (s : State) (w : Who) (d : Desc) (p : Plan) (rows : List Row) (flag serial : Nat) :
    memories (startCopy s w d p rows flag serial).2 = memories s := by
  simp only [startCopy]
  split <;> simp
@[simp] theorem acceptCopy_memories (w : Who) (d : Desc) (p : Plan) (rows : List Row) (s : State) :
    memories (acceptCopy w d p rows s) = memories s := by
  simp [acceptCopy]
@[simp] theorem mergeRead_memories (s : State) (w : Who) (va n : Nat) : memories (mergeRead s w va n) = memories s := by
  unfold mergeRead
  split
  · rfl
  · refine Eq.trans (b := memories (List.foldl _ { s with accs := _ } _)) rfl (foldl_memories _ (fun s p => ?_) _ _)
    split <;> simp
@[simp] theorem signReads_memories (s : State) (w : Who) (ranges : List (Nat × Nat)) :
    memories (signReads s w ranges) = memories s := by
  unfold signReads
  split <;> rfl
@[simp] theorem updDom_memories (s : State) (d : Nat) (f : Domain → Domain) :
    memories (updDom s d f) = memories s := by rfl
@[simp] theorem tagPages_memories (s : State) (d : Nat) (pages : List Nat) :
    memories (tagPages s d pages) = memories s := by rfl
@[simp] theorem mergeDomains_memories (s : State) (a b : Nat) : memories (mergeDomains s a b) = memories s := by
  unfold mergeDomains
  split <;> rfl
@[simp] theorem settleJoins_memories (s : State) (d : Nat) : memories (settleJoins s d) = memories s := by
  unfold settleJoins
  split
  · rfl
  · refine foldl_memories _ (fun s e => ?_) _ _
    obtain ⟨o, qc⟩ := e
    dsimp only
    split <;> simp
@[simp] theorem joinAt_memories (s : State) (d1 d2 qc : Nat) : memories (joinAt s d1 d2 qc) = memories s := by rfl
@[simp] theorem joinDomains_memories (s : State) (w : Who) (d2 : Nat) : memories (joinDomains s w d2) = memories s := by
  simp only [joinDomains]
  split <;> simp
@[simp] theorem joinLaunches_memories (s : State) (w : Who) (ls : List Launch) :
    memories (joinLaunches s w ls) = memories s := by
  refine foldl_memories _ (fun s e => ?_) _ _
  split <;> simp
@[simp] theorem joinPort_memories (s : State) (w : Who) (num : Nat) : memories (joinPort s w num) = memories s := by
  simp [joinPort]
@[simp] theorem copyMarks_memories (s : State) (w : Who) (started : List (Desc × List Row)) :
    memories (copyMarks s w started) = memories s := by
  simp [copyMarks]
@[simp] theorem doneCmd_memories (s : State) (w : Who) (sd : Nat) (body : CmdBody) :
    memories (doneCmd s w sd body) = memories s := by rfl
@[simp] theorem mergeLate_memories (s : State) (ctx : Nat) (c : Cmd) (va n : Nat) :
    memories (mergeLate s ctx c va n) = memories s := by
  unfold mergeLate
  split
  · rfl
  · refine foldl_memories _ (fun s p => ?_) _ _
    split <;> rfl
@[simp] theorem feedBehind_memories (s : State) (id va : Nat) (bs : List Byte) :
    memories (feedBehind s id va bs) = memories s := by rfl
@[simp] theorem cmdEffect_memories (s : State) (id : Nat) (c : Cmd) (l : Launch) (body : EffBody) :
    memories (cmdEffect s id c l body) = memories s := by
  unfold cmdEffect
  split <;> rfl
@[simp] theorem landOwn_memories (s : State) (t gidx off : Nat) (bs : List Byte) :
    memories (landOwn s t gidx off bs) = memories s := by rfl
@[simp] theorem landLocal_memories (s : State) (id : Nat) (c : Cmd) (l : Launch) (a : Nat) (bs : List Byte) :
    memories (landLocal s id c l a bs) = memories s := by
  unfold landLocal
  repeat' split
  all_goals simp
@[simp] theorem landRows_memories (s : State) (id : Nat) (c : Cmd) (l : Launch) (ws : List Word) (rows : List Row)
    (to' : Nat × Nat) : memories (landRows s id c l ws rows to') = memories s := by
  refine foldl_memories _ (fun v r => ?_) _ _
  simp only []
  split
  · rfl
  · split <;> split <;> simp
@[simp] theorem landedCopy_memories (s : State) (w : Who) (d : Desc) (p : Plan) (rows : List Row) :
    memories (landedCopy s w d p rows) = memories s := by
  simp only [landedCopy]
  split
  · exact (landRows_memories ..).trans (startCopy_memories ..)
  · rfl
@[simp] theorem startEntries_memories (w : Who) (flag serial : Nat) (ps : List (Desc × Plan)) :
    ∀ s done, memories (startEntries w flag serial ps s done).2 = memories s := by
  induction ps with
  | nil => intro s done; rfl
  | cons p ps ih => intro s done; exact (ih _ _).trans (startCopy_memories ..)
@[simp] theorem kbarComplete_memories (s : State) (n k p q : Nat) : memories (kbarComplete s n k p q) = memories s := by
  simp only [kbarComplete]
  repeat' split
  all_goals simp
@[simp] theorem kbarSettle_memories (fuel : Nat) : ∀ s n k, memories (kbarSettle fuel s n k) = memories s := by
  induction fuel with
  | zero => intro s n k; rfl
  | succ fuel ih =>
    intro s n k
    simp only [kbarSettle]
    repeat' split
    all_goals simp [ih]
@[simp] theorem park_memories (w : Who) (id : Nat) (c : Cont) (s : State) : memories (park w id c s) = memories s := by
  simp only [park]
  split <;> simp
@[simp] theorem waitingCmd_memories (s : State) (w : Who) (sd : SReg) (writes : List (Nat × Nat)) (wins : List (Nat × Nat × Nat)) :
    memories (waitingCmd s w sd writes wins).2 = memories s := by rfl
@[simp] theorem joinColl_memories (s : State) (w : Who) (raw : List Word) (b : List Word) (data : List Byte) :
    memories (joinColl s w raw b data) = memories s := by
  unfold joinColl
  split <;> rfl
@[simp] theorem collRead_memories (s : State) (w : Who) (b : List Word) : memories (collRead s w b).2 = memories s := by
  unfold collRead
  repeat' split
  all_goals simp
@[simp] theorem sysSet_memories (s : State) (d n : Nat) (v : Word) : memories (sysSet s d n v) = memories s := by rfl
@[simp] theorem itemWrite_memories (s : State) (g : Nat) (grp : Group) (tm : Team) (item idx : Nat) (v : Word) :
    memories (itemWrite s g grp tm item idx v).1 = memories s := by
  simp only [itemWrite]
  repeat' split
  all_goals simp
@[simp] theorem windowAccess_memories (s : State) (d : Nat) (wr : Option Word) :
    memories (windowAccess s d wr).1 = memories s := by
  simp only [windowAccess]
  repeat' split
  all_goals simp
@[simp] theorem sysRead_memories (s : State) (d n : Nat) : memories (sysRead s d n).1 = memories s := by
  unfold sysRead
  repeat' split
  all_goals simp
@[simp] theorem updDev_memories (s : State) (f : Device → Device) : memories (updDev s f) = memories s := by rfl
@[simp] theorem kslotWrite_memories (s : State) (d ctx : Nat) (v : Word) :
    memories (kslotWrite s d ctx v) = memories s := by
  simp only [kslotWrite]
  repeat' split
  all_goals simp
@[simp] theorem spaceWrite_memories (s : State) (d c k : Nat) (v : Word) :
    memories (spaceWrite s d c k v) = memories s := by
  unfold spaceWrite
  split <;> rfl
@[simp] theorem careaWrite_memories (s : State) (d c k : Nat) (v : Word) :
    memories (careaWrite s d c k v) = memories s := by rfl
@[simp] theorem contextWrite_memories (s : State) (d c k : Nat) (v : Word) :
    memories (contextWrite s d c k v) = memories s := by
  unfold contextWrite
  split <;> simp
@[simp] theorem compWrite_memories (s : State) (d k : Nat) (v : Word) : memories (compWrite s d k v) = memories s := by
  simp only [compWrite]
  split <;> simp
@[simp] theorem tqactWrite_memories (s : State) (d : Nat) (v : Word) : memories (tqactWrite s d v) = memories s := by
  unfold tqactWrite
  split <;> rfl
@[simp] theorem updCmd_memories (s : State) (c : Nat) (f : Cmd → Cmd) : memories (updCmd s c f) = memories s := by rfl
@[simp] theorem copyReplay_memories (s : State) (id : Nat) : memories (copyReplay s id) = memories s := by rfl
@[simp] theorem lateDrops_memories (s : State) (kind id time : Nat) :
    memories (lateDrops s kind id time) = memories s := by rfl
@[simp] theorem emitDrops_memories (s : State) (t : Nat) (tm : Team) (time kind g : Nat) :
    memories (emitDrops s t tm time kind g) = memories s := by
  simp only [emitDrops]
  split
  · rfl
  · split <;> simp
@[simp] theorem addReport_memories (s : State) (d : Nat) (m : Msg) : memories (addReport s d m) = memories s := by rfl
@[simp] theorem taskCheck_memories (s : State) (n : Nat) : memories (taskCheck s n) = memories s := by
  simp only [taskCheck]
  repeat' split
  all_goals simp
@[simp] theorem abortTask_memories (s : State) (n : Nat) : memories (abortTask s n) = memories s := by
  unfold abortTask
  split <;> rfl
@[simp] theorem preemptStart_memories (s : State) (d c : Nat) : memories (preemptStart s d c) = memories s := by
  simp only [preemptStart]
  split
  · rfl
  · refine Eq.trans (b := memories (List.foldl _ (updCtx s c _) _)) rfl (foldl_memories _ (fun s e => ?_) _ _)
    split <;> simp
@[simp] theorem rtdataWrite_memories (s : State) (d : Nat) (v : Word) : memories (rtdataWrite s d v) = memories s := by
  simp only [rtdataWrite]
  split <;> simp
@[simp] theorem leaveHandler_memories (s : State) (g x r : Nat) : memories (leaveHandler s g x r) = memories s := by
  unfold leaveHandler
  repeat' split
  all_goals simp
@[simp] theorem dropTrap_memories (s : State) (t : Nat) (p : HeldTrap → Bool) :
    memories (dropTrap s t p) = memories s := by rfl
@[simp] theorem endTrap_memories (s : State) (t : Nat) (p : HeldTrap → Bool) :
    memories (endTrap s t p) = memories s := by
  simp only [endTrap]
  repeat' split
  all_goals simp
@[simp] theorem resumeTrap_memories (s : State) (t id : Nat) (r : Option Nat) :
    memories (resumeTrap s t id r) = memories s := by
  unfold resumeTrap
  repeat' split
  all_goals simp
@[simp] theorem resumeDebug_memories (s : State) (r : Record) : memories (resumeDebug s r) = memories s := by
  simp [resumeDebug]
@[simp] theorem giveUp_memories (s : State) (r : Record) : memories (giveUp s r) = memories s := by rfl
@[simp] theorem holdTrap_memories (s : State) (r : Record) : memories (holdTrap s r) = memories s := by
  simp only [holdTrap]
  repeat' split
  all_goals simp
@[simp] theorem profileMove_memories (s : State) (d n : Nat) (v : Word) :
    memories (profileMove s d n v) = memories s := by rfl
@[simp] theorem pbctlWrite_memories (s : State) (d : Nat) (v : Word) :
    memories (pbctlWrite s d v) = memories s := by rfl
@[simp] theorem unlockVerify_memories (s : State) (d : Nat) : memories (unlockVerify s d) = memories s := by rfl
@[simp] theorem msExtend_memories (s : State) (n : Nat) (d : List Byte) :
    memories (msExtend s n d) = memories s := by rfl
@[simp] theorem unlockCommit_memories (s : State) : memories (unlockCommit s) = memories s := by
  unfold unlockCommit
  repeat' split
  all_goals simp
@[simp] theorem unlkcmdWrite_memories (s : State) (d : Nat) (v : Word) :
    memories (unlkcmdWrite s d v) = memories s := by
  unfold unlkcmdWrite
  repeat' split
  all_goals simp
@[simp] theorem wipeKeys_memories (s : State) : memories (wipeKeys s) = memories s := by
  unfold wipeKeys
  split <;> rfl
@[simp] theorem msselWrite_memories (s : State) (d : Nat) (v : Word) : memories (msselWrite s d v) = memories s := by
  simp only [msselWrite]
  repeat' split
  all_goals simp
@[simp] theorem updFn_memories (s : State) (f : Nat) (g : Fn → Fn) : memories (updFn s f g) = memories s := by rfl
@[simp] theorem flushReplies_memories (fuel : Nat) : ∀ s ctx, memories (flushReplies fuel s ctx) = memories s := by
  induction fuel with
  | zero => intro s ctx; rfl
  | succ fuel ih =>
    intro s ctx
    simp only [flushReplies]
    repeat' split
    all_goals simp [ih]
@[simp] theorem flushAll_memories (s : State) : memories (flushAll s) = memories s := by
  simp [flushAll]
@[simp] theorem fnmapWrite_memories (s : State) (d : Nat) (v : Word) : memories (fnmapWrite s d v) = memories s := by
  simp only [fnmapWrite]
  repeat' split
  all_goals simp
@[simp] theorem checkpointStart_memories (s : State) (d : Nat) (restore : Bool) :
    memories (checkpointStart s d restore) = memories s := by
  unfold checkpointStart
  repeat' split
  all_goals simp
@[simp] theorem ckptcmdWrite_memories (s : State) (d : Nat) (v : Word) :
    memories (ckptcmdWrite s d v) = memories s := by
  unfold ckptcmdWrite
  repeat' split
  all_goals simp
@[simp] theorem attestStart_memories (s : State) : memories (attestStart s) = memories s := by
  simp only [attestStart]
  repeat' split
  all_goals simp
@[simp] theorem rewalkWhere_memories (s : State) (p : Effect → Bool) : memories (rewalkWhere s p) = memories s := by rfl
@[simp] theorem updPhaser_memories (s : State) (id : Nat) (f : Phaser → Phaser) :
    memories (updPhaser s id f) = memories s := by
  unfold updPhaser
  split <;> rfl
@[simp] theorem unsend_memories (p : Nat → Bool) (s : State) (ctx : Nat) : memories (unsend p s ctx) = memories s := by
  simp [unsend]
@[simp] theorem dropContext_memories (s : State) (c : Nat) : memories (dropContext s c) = memories s := by rfl
@[simp] theorem seatSaved_memories (s : State) (e : Nat × Group) : memories (seatSaved s e) = memories s := by
  unfold seatSaved
  split <;> rfl
@[simp] theorem restoreCtx_memories (s : State) (c : Nat) (v : SavedCtx) (m : List (Nat × Nat × List (Nat × Nat × Unit))) :
    memories (restoreCtx s c v m) = memories s := by
  simp [restoreCtx]
@[simp] theorem haltCore_memories (s : State) (d : Nat) : memories (haltCore s d) = memories s := by rfl
@[simp] theorem dropTraps_memories (s : State) (t g x : Nat) : memories (dropTraps s t g x) = memories s := by
  simp only [dropTraps]
  split <;> simp
@[simp] theorem lowerFlag_memories (s : State) (g f : Nat) : memories (lowerFlag s g f) = memories s := by rfl
@[simp] theorem deliver_memories (s : State) (c : Cmd) (outs : List (Nat × Nat × Nat × Word)) :
    memories (deliver s c outs) = memories s := by
  simp only [deliver]
  repeat' split
  all_goals simp
@[simp] theorem finishCmd_memories (s : State) (id : Nat) (c : Cmd) (outs : List (Nat × Nat × Nat × Word)) :
    memories (finishCmd s id c outs) = memories s := by
  simp only [finishCmd]
  split <;> simp
@[simp] theorem coreStartClause_memories (s : State) (d : Nat) : memories (coreStartClause s d) = memories s := by
  simp only [coreStartClause]
  repeat' split
  all_goals simp
@[simp] theorem suspend_memories (s : State) (id : Nat) (c : Cmd) (l : Launch) (ws : List Word) (rows : List Row)
    (f : Nat × Nat × Nat × Bool) (body : CmdBody) : memories (suspend s id c l ws rows f body) = memories s := by
  simp [suspend]
@[simp] theorem landOutputs_memories (s : State) (t gidx : Nat) (rows : List (Nat × List Byte)) :
    memories (landOutputs s t gidx rows) = memories s := by
  simp [landOutputs]
@[simp] theorem updLaunch_memories (s : State) (l : Nat) (f : Launch → Launch) :
    memories (updLaunch s l f) = memories s := by rfl
@[simp] theorem splitTask_memories (s : State) (n : Nat) : memories (splitTask s n) = memories s := by
  simp only [splitTask]
  repeat' split
  all_goals simp
@[simp] theorem placeTeam_memories (s : State) (n : Nat) (task : Task) (t die core : Nat) :
    memories (placeTeam s n task t die core) = memories s := by
  simp [placeTeam]
@[simp] theorem placeTask_memories (s : State) (n : Nat) (task : Task) (die cluster col row : Nat) :
    memories (placeTask s n task die cluster col row) = memories s := by
  simp [placeTask]
@[simp] theorem addDerived_memories (s : State) (d : Nat) (m : Msg) : memories (addDerived s d m) = memories s := by rfl
@[simp] theorem portReport_memories (s : State) (d : Nat) (l : Option Launch) (cause num : Nat) (w1 : Word) (tag : Nat) :
    memories (portReport s d l cause num w1 tag) = memories s := by
  unfold portReport
  split <;> rfl
@[simp] theorem joinSignal_memories (s : State) (d : Nat) (l : Option (Nat × Launch)) (ph num tag : Nat) :
    memories (joinSignal s d l ph num tag) = memories s := by
  unfold joinSignal
  repeat' split
  all_goals simp
@[simp] theorem countFire_memories (s : State) (d ctx num : Nat) : memories (countFire s d ctx num) = memories s := by
  simp only [countFire]
  split
  · rfl
  · refine (foldl_memories _ (fun s e => ?_) _ _).trans (updPort_memories ..)
    split <;> simp
@[simp] theorem contFire_memories (s : State) (id : Nat) (w0 w1 : Word) (clock : Nat) :
    memories (contFire s id w0 w1 clock) = memories s := by rfl
@[simp] theorem closedConts_memories (s : State) (q qlen : Nat) : memories (closedConts s q qlen) = memories s := by
  simp [closedConts]
@[simp] theorem stepConfig_memories (d q qlen : Nat) (s : State) (e : Effect) :
    memories (stepConfig d q qlen s e) = memories s := by
  simp only [stepConfig]
  repeat' split
  all_goals simp
@[simp] theorem dropCovered_memories (s : State) (es : List Effect) : memories (dropCovered s es) = memories s := by rfl
@[simp] theorem abortReaders_memories (s : State) (d key start va n : Nat) :
    memories (abortReaders s d key start va n) = memories s := by
  simp [abortReaders]
@[simp] theorem returnAtom_memories (s : State) (e : Effect) (op vret sd : Nat) (olds : List (Nat × List Byte)) :
    memories (returnAtom s e op vret sd olds) = memories s := by
  simp only [returnAtom]
  split <;> simp
@[simp] theorem retireTask_memories (s : State) (k : Task) : memories (retireTask s k) = memories s := by
  simp only [retireTask]
  split <;> simp
@[simp] theorem stepTake_memories (s : State) (e : Effect) : memories (stepTake s e) = memories s := by
  unfold stepTake
  split <;> simp
@[simp] theorem registerCont_memories (s : State) (id rank : Nat) : memories (registerCont s id rank) = memories s := by
  unfold registerCont
  repeat' split
  all_goals simp
@[simp] theorem stepYield_memories (s : State) (e : Effect) : memories (stepYield s e) = memories s := by
  unfold stepYield
  split <;> simp
@[simp] theorem takeHead_memories (s : State) (ctx num : Nat) : memories (takeHead s ctx num).1 = memories s := by
  unfold takeHead
  split <;> simp
@[simp] theorem takeSheaf_memories (s : State) (ctx : Nat) (ports : List Nat) :
    memories (takeSheaf s ctx ports).1 = memories s := by
  simp [takeSheaf]
@[simp] theorem fireAct_memories (check : State → List Word → Option Nat → Nat) (s : State) (d q qlen : Nat) (was : State)
    (f : Fire) : memories (fireAct check s d q qlen was f) = memories s := by
  cases f with
  | cont ctx id c => exact (contFire_memories ..).trans (takeHead_memories ..)
  | pat ctx num t =>
    have h := takeSheaf_memories s ctx t.ports
    rw [fireAct]
    split
    next u sheaf hu =>
    rw [hu] at h
    split
    · split
      · simp [h]
      · split
        · simp [h]
        · extract_lets
          split
          · exact (portReport_memories ..).trans ((updPattern_memories ..).trans h)
          · exact (updDom_memories ..).trans ((updPattern_memories ..).trans h)
    · simp [h]
    · simp [h]
@[simp] theorem fireAll_memories (check : State → List Word → Option Nat → Nat) (d q qlen : Nat) (was : State)
    (ctxs : List Nat) (fuel : Nat) : ∀ s, memories (fireAll check d q qlen was ctxs fuel s) = memories s := by
  induction fuel with
  | zero => intro s; rfl
  | succ fuel ih =>
    intro s
    simp only [fireAll]
    split <;> simp [ih]
@[simp] theorem fire_memories (f : Firing) (s : State) : memories (fire f s) = memories s := by
  simp [fire]
@[simp] theorem reply_memories (s : State) (ctx : Nat) (r : Nat × Bool × Word × Word) :
    memories (reply s ctx r) = memories s := by
  simp [reply]
@[simp] theorem deliverMsg_memories (s : State) (d : Nat) (m : Msg) (hseq : Word) :
    memories (deliverMsg s d m hseq).1 = memories s := by
  simp only [deliverMsg]
  repeat' split
  all_goals simp
@[simp] theorem postReport_memories (f : Firing) (s : State) (m : Msg) : memories (postReport f s m) = memories s := by
  simp [postReport]
@[simp] theorem joinMet_memories (s : State) (d q qlen me ctx port : Nat) :
    memories (joinMet s d q qlen me ctx port) = memories s := by
  refine foldl_memories _ (fun s l => ?_) _ _
  dsimp only
  split <;> simp
@[simp] theorem keepLate_memories (s : State) (d qc : Nat) (e : Effect) :
    memories (keepLate s d qc e) = memories s := by rfl
@[simp] theorem phaserStatus_memories (s : State) (e : Effect) (sd : Option Nat) (v : Word) :
    memories (phaserStatus s e sd v) = memories s := by
  unfold phaserStatus
  repeat' split
  all_goals simp
@[simp] theorem dueTrap_memories (s : State) (e : Effect) (tr : Trap) : memories (dueTrap s e tr) = memories s := by rfl
@[simp] theorem postEffect_memories (f : Firing) (r : State × List (Nat × Nat)) (e : Effect) :
    memories (postEffect f r e).1 = memories r.1 := by
  simp only [postEffect]
  repeat' split
  all_goals simp
@[simp] theorem postAll_memories (f : Firing) (r : State × List (Nat × Nat)) (l : List Post) :
    memories (postAll f r l).1 = memories r.1 := by
  refine foldl_fst_memories _ (fun r p => ?_) _ _
  split <;> simp
@[simp] theorem postLate_memories (f : Firing) (s : State) (e : Effect) : memories (postLate f s e) = memories s := by
  simp only [postLate]
  split <;> simp
@[simp] theorem hostsWait_memories (f : Firing) (s : State) (c : Nat) : memories (hostsWait f s c) = memories s := by
  unfold hostsWait
  split <;> simp
@[simp] theorem postHost_memories (f : Firing) (s : State) (h : Nat × Word × Nat × Word × Word) :
    memories (postHost f s h) = memories s := by
  simp only [postHost]
  repeat' split
  all_goals simp
@[simp] theorem step4_memories (f : Firing) (s : State) (es : List Effect) (done : List Msg) :
    memories (step4 f s es done).1 = memories s := by
  simp only [step4]
  split <;> simp
@[simp] theorem splitLate_memories (d q : Nat) (r : State × List Effect) (e : Effect) :
    memories (splitLate d q r e).1 = memories r.1 := by
  simp only [splitLate]
  repeat' split
  all_goals simp
@[simp] theorem settlePhasers_memories (s : State) : memories (settlePhasers s) = memories s := by rfl
@[simp] theorem stepChange_memories (idle : List Nat) (s : State) (e : Effect) :
    memories (stepChange idle s e) = memories s := by
  simp only [stepChange]
  repeat' split
  all_goals simp
@[simp] theorem stepSignal_memories (s : State) (ph kind party : Nat) (cand : Option (Nat × Word)) :
    memories (stepSignal s ph kind party cand).1 = memories s := by
  unfold stepSignal
  split <;> simp
@[simp] theorem stepSignalEffect_memories (s : State) (e : Effect) : memories (stepSignalEffect s e) = memories s := by
  simp only [stepSignalEffect]
  repeat' split
  all_goals simp
@[simp] theorem commitPhasers_memories (s : State) (d : Nat) (es : List Effect) :
    memories (commitPhasers s d es) = memories s := by
  simp [commitPhasers]
@[simp] theorem step5_memories (s : State) (d q qlen : Nat) (es late : List Effect) :
    memories (step5 s d q qlen es late) = memories s := by
  simp [step5]
@[simp] theorem takeColls_memories (s : State) (d q qlen : Nat) : memories (takeColls s d q qlen) = memories s := by
  simp [takeColls]
@[simp] theorem windowLand_memories (s : State) (task t n off : Nat) (bs : List Byte) :
    memories (windowLand s task t n off bs) = memories s := by rfl
@[simp] theorem teamWrite_memories (s : State) (task g t n off : Nat) (bs : List Byte) :
    memories (teamWrite s task g t n off bs) = memories s := by
  unfold teamWrite
  repeat' split
  all_goals simp
@[simp] theorem stepWindow_memories (qlen : Nat) (s : State) (e : Effect) :
    memories (stepWindow qlen s e) = memories s := by
  simp only [stepWindow]
  repeat' split
  all_goals simp
@[simp] theorem createTask_memories (s : State) (l : Nat) (ws : List Word) (seq start : Nat) (root : Bool) (sheaf : List Word) :
    memories (createTask s l ws seq start root sheaf) = memories s := by
  simp only [createTask]
  split <;> simp
@[simp] theorem spawnTask_memories (s : State) (l : Nat) (ws : List Word) (start issuer : Nat) (tag : Option (Nat × Nat)) (sheaf : List Word) :
    memories (spawnTask s l ws start issuer tag sheaf) = memories s := by
  unfold spawnTask
  repeat' split
  all_goals simp
@[simp] theorem stepSpawn_memories (start : Nat) (s : State) (e : Effect) :
    memories (stepSpawn start s e) = memories s := by
  unfold stepSpawn
  split <;> simp
@[simp] theorem step7_memories (s : State) (d start : Nat) (es : List Effect) :
    memories (step7 s d start es) = memories s := by
  simp [step7]
@[simp] theorem beginWait_memories (s : State) (e : Effect) : memories (beginWait s e) = memories s := by
  unfold beginWait
  split <;> rfl
@[simp] theorem releaseWaiter_memories (s : State) (g x sd : Nat) (vs : List Word) (t : Nat) :
    memories (releaseWaiter s g x sd vs t) = memories s := by
  simp [releaseWaiter]
@[simp] theorem settleWaiter_memories (s : State) (g x ph sd w t : Nat) :
    memories (settleWaiter s g x ph sd w t) = memories s := by
  simp only [settleWaiter]
  repeat' split
  all_goals simp
@[simp] theorem settleWaiters_memories (s : State) (d t : Nat) : memories (settleWaiters s d t) = memories s := by
  simp [settleWaiters]
@[simp] theorem laterMessage_memories (s : State) (e : Effect) (time port : Nat) (w0 w1 : Word) :
    memories (laterMessage s e time port w0 w1) = memories s := by rfl
@[simp] theorem finishMcst_memories (s : State) (e : Effect) (ws : List Word) (own : Option Nat) (members : List Nat)
    (next : Nat) : memories (finishMcst s e ws own members next) = memories s := by
  simp only [finishMcst]
  repeat' split
  all_goals simp
@[simp] theorem finishGsync_memories (s : State) (e : Effect) (ws : List Word) (next : Nat) :
    memories (finishGsync s e ws next) = memories s := by
  simp only [finishGsync]
  repeat' split
  all_goals simp
@[simp] theorem stepAfter_memories (own : List (Nat × Nat)) (dom : Domain) (next : Nat) (s : State) (e : Effect) :
    memories (stepAfter own dom next s e) = memories s := by
  simp only [stepAfter]
  repeat' split
  all_goals simp
@[simp] theorem releaseReads_memories (s : State) (d q : Nat) : memories (releaseReads s d q) = memories s := by
  simp [releaseReads]
@[simp] theorem freeContexts_memories (s : State) : memories (freeContexts s) = memories s := by rfl
@[simp] theorem endLaunches_memories (s : State) (d : Nat) : memories (endLaunches s d) = memories s := by rfl
@[simp] theorem removeTasks_memories (s : State) (ns : List Nat) : memories (removeTasks s ns) = memories s := by rfl
@[simp] theorem newDomain_memories (s : State) (qlen : Nat) : memories (newDomain s qlen).1 = memories s := by rfl
@[simp] theorem startLaunches_memories (s : State) (ids : List Nat) : memories (startLaunches s ids) = memories s := by
  simp only [startLaunches]
  split
  · rfl
  · refine (foldl_memories _ (fun s e => ?_) _ _).trans (newDomain_memories ..)
    split <;> simp
@[simp] theorem countSkip_memories (s : State) (f : Nat) : memories (countSkip s f) = memories s := by rfl
@[simp] theorem acceptEntry_memories (s : State) (ctx : Nat) (hseq port w0 w1 : Word) :
    memories (acceptEntry s ctx hseq port w0 w1) = memories s := by rfl
@[simp] theorem newLaunch_memories (s : State) (ctx : Nat) (ws : List Word) :
    memories (newLaunch s ctx ws).1 = memories s := by rfl
@[simp] theorem gatherLaunch_memories (s : State) (id : Nat) (ws : List Word) :
    memories (gatherLaunch s id ws) = memories s := by
  simp only [gatherLaunch]
  split <;> simp
@[simp] theorem contextEvent_memories (s : State) (c code : Nat) :
    memories (contextEvent s c code) = memories s := by rfl
@[simp] theorem stayPut_memories (s : State) (c : Nat) : memories (stayPut s c) = memories s := by rfl
@[simp] theorem unlockVerified_memories (s : State) : memories (unlockVerified s) = memories s := by
  unfold unlockVerified
  split <;> rfl
@[simp] theorem bootImage_memories (s : State) (image : List Byte) : memories (bootImage s image) = memories s := by
  simp [bootImage]
@[simp] theorem tryImage_memories (s : State) (image : List Byte) : memories (tryImage s image) = memories s := by
  simp only [tryImage]
  split <;> simp
@[simp] theorem fabricLost_memories (s : State) (port : Nat) : memories (fabricLost s port) = memories s := by rfl
@[simp] theorem lifeCount_memories (s : State) (kind idx : Nat) : memories (lifeCount s kind idx) = memories s := by
  unfold lifeCount
  split <;> rfl
@[simp] theorem lifePersist_memories (s : State) : memories (lifePersist s) = memories s := by rfl
@[simp] theorem mailboxWrite_memories (s : State) (f off : Nat) (v : Word) :
    memories (mailboxWrite s f off v) = memories s := by
  unfold mailboxWrite
  split <;> simp
end Sys2Proof.Machine

namespace Sys2Proof.Machine
-- Theorems one after another: in parallel, the stacks of the waiting threads go past the checker's memory limit.
set_option Elab.async false

/-! ### Operations that write a memory -/

/-- Whatever leaves the memories alone keeps their canonical form. -/
theorem memoryGood.keep {s t : State} (h : memoryGood s) (e : memories t = memories s := by simp) : memoryGood t :=
  memoryGood_of_memories h e

/-- A choice between states. -/
theorem ite_memoryGood {s t : State} (c : Prop) [Decidable c] (hs : memoryGood s) (ht : memoryGood t) :
    memoryGood (if c then s else t) := by
  split
  · exact hs
  · exact ht

section
variable {α β : Type}

/-- A fold whose steps keep the canonical form keeps it. -/
theorem foldl_memoryGood {f : State → α → State} (hf : ∀ s a, memoryGood s → memoryGood (f s a)) (l : List α) :
    ∀ {s}, memoryGood s → memoryGood (l.foldl f s) := by
  induction l with
  | nil => intro s h; exact h
  | cons a l ih => intro s h; exact ih (hf s a h)

theorem foldl_fst_memoryGood {f : State × β → α → State × β} (hf : ∀ p a, memoryGood p.1 → memoryGood (f p a).1)
    (l : List α) : ∀ {p}, memoryGood p.1 → memoryGood (l.foldl f p).1 := by
  induction l with
  | nil => intro s h; exact h
  | cons a l ih => intro s h; exact ih (hf s a h)

end

theorem memWrite_memoryGood {s : State} (h : memoryGood s) (a : Nat) (bs : List Byte) : memoryGood (memWrite s a bs) := by
  obtain ⟨hm, hh⟩ := h
  exact ⟨memWrite_wf hm a bs, hh⟩

theorem rekeyUnit_host (s : State) (want unit : Nat) : (rekeyUnit s want unit).host = s.host := by
  unfold rekeyUnit
  split <;> rfl

theorem foldl_rekeyUnit_host (want : Nat) (us : List Nat) :
    ∀ s, (us.foldl (fun s u => rekeyUnit s want u) s).host = s.host := by
  induction us with
  | nil => intro s; rfl
  | cons u us ih => intro s; exact (ih _).trans (rekeyUnit_host s want u)

/-- A write of package memory leaves host memory. -/
theorem physWrite_host (s : State) (want a : Nat) (bs : List Byte) : (physWrite s want a bs).host = s.host := by
  unfold physWrite
  split
  · rfl
  · exact foldl_rekeyUnit_host want _ s

theorem storeCore_host (s : State) (key pa : Nat) (bs : List Byte) : (storeCore s key pa bs).host = s.host := by
  simp only [storeCore, mergeWords]
  split <;> exact physWrite_host ..

theorem storeCore_memoryGood {s : State} (h : memoryGood s) (key pa : Nat) (bs : List Byte) :
    memoryGood (storeCore s key pa bs) := by
  obtain ⟨hm, hh⟩ := h
  exact ⟨storeCore_wf hm key pa bs, (storeCore_host s key pa bs).symm ▸ hh⟩

theorem storeGlobal_memoryGood {s : State} (h : memoryGood s) (key pa : Nat) (bs : List Byte) :
    memoryGood (storeGlobal s key pa bs) := by
  unfold storeGlobal
  exact storeCore_memoryGood h.keep key pa bs

theorem storePieces_memoryGood {s : State} (h : memoryGood s) (ps : List (Nat × Nat × List Byte)) :
    memoryGood (storePieces s ps) :=
  foldl_memoryGood (fun _ _ h => storeGlobal_memoryGood h ..) ps h

/-- A profile record is written to package memory, or dropped. -/
theorem profRecord_memoryGood {s : State} (h : memoryGood s) (die ctx : Nat) (ws : List Word) :
    memoryGood (profRecord s die ctx ws) := by
  simp only [profRecord]
  repeat' split
  · exact h
  · exact h.keep
  · exact h
  · exact memoryGood_of_memories (storeCore_memoryGood h 0 _ (ws.flatMap wordBytes)) (updCore_memories ..)

theorem trace_memoryGood {s : State} (h : memoryGood s) (w : Who) (en kind pc : Nat) (arg : Word) :
    memoryGood (trace s w en kind pc arg) := by
  unfold trace
  split
  · exact profRecord_memoryGood h ..
  · exact h

theorem traceJump_memoryGood {s : State} (h : memoryGood s) (t : Nat) : memoryGood (traceJump s t) := by
  unfold traceJump
  split
  · exact trace_memoryGood h ..
  · exact h

/-! ### Traps, and slots that stop -/

theorem takeTrap_memoryGood {s : State} (h : memoryGood s) (g x : Nat) (t : Trap) : memoryGood (takeTrap s g x t) := by
  unfold takeTrap
  split
  split
  · exact h
  · next w _ => exact (trace_memoryGood h w 3 5 (splitPc w.sp) (word (t.cls + t.cause * 2 ^ 8))).keep

theorem raise_memoryGood {s : State} (h : memoryGood s) (g x : Nat) (t : Trap) : memoryGood (raise s g x t) := by
  unfold raise
  split
  · exact h
  · split
    · exact h.keep
    · exact takeTrap_memoryGood h g x t

theorem settleSiblings_memoryGood {s : State} (h : memoryGood s) (g : Nat) : memoryGood (settleSiblings s g) := by
  simp only [settleSiblings]
  split
  · exact h
  · split
    · exact h
    · refine ite_memoryGood _ h ?_
      split
      · exact takeTrap_memoryGood h.keep ..
      · exact h.keep

theorem settleStripes_memoryGood {s : State} (h : memoryGood s) (t : Nat) : memoryGood (settleStripes s t) := by
  simp only [settleStripes]
  split
  · exact h
  · split
    · exact h
    · refine ite_memoryGood _ h ?_
      split
      · split
        · exact takeTrap_memoryGood h.keep ..
        · exact h.keep
      · exact h.keep

theorem settleRace_memoryGood {s : State} (h : memoryGood s) (t : Nat) : memoryGood (settleRace s t) :=
  foldl_memoryGood (fun _ _ h => settleSiblings_memoryGood h _) _ (settleStripes_memoryGood h t)

theorem endStep_memoryGood {s : State} (h : memoryGood s) (w : Who) (d0 : Nat) : memoryGood (endStep s w d0) := by
  unfold endStep
  split
  · exact h
  · exact takeTrap_memoryGood h.keep ..

theorem stepWaits_memoryGood {s : State} (h : memoryGood s) (w : Who) : memoryGood (stepWaits s w) := by
  unfold stepWaits
  split
  · exact h
  · exact endStep_memoryGood h.keep ..

/-- An outcome that goes on leaves the memories in their canonical form. -/
def leavesGood : Host.Outcome State Fault Refusal → Prop
  | .next t => memoryGood t
  | _ => True

/-- What a slot's body does leaves the memories in their canonical form, and so does what follows its retirement. -/
def Res.good : Res → Prop
  | .ok o => memoryGood o.s ∧ ∀ u, memoryGood u → memoryGood (o.post u)
  | _ => True

theorem settle_leavesGood {s : State} (h : memoryGood s) (w : Who) {r : Res} (hr : r.good) : leavesGood (settle s w r) := by
  have out {u : State} (hu : memoryGood u) : leavesGood (.next (settleRace u w.grp.team)) := settleRace_memoryGood hu _
  have stall (k : Nat) (claims : Bool) {u : State} (hu : memoryGood u) :
      memoryGood (countWait (updSplit u w.g w.x fun sp => { sp with mode := .stalled k, claims }) w) := hu.keep
  have hold (e : Held) : leavesGood (.next (settleRace (stepWaits (updSplit s w.g w.x fun sp => { sp with mode := .held e }) w)
      w.grp.team)) := out (stepWaits_memoryGood h.keep w)
  cases r with
  | ok o => exact out hr.1
  | trap t => exact out (raise_memoryGood (endStep_memoryGood h.keep ..) ..)
  | exhaust k =>
    unfold settle
    dsimp only
    split
    · exact hold _
    · exact out (raise_memoryGood (endStep_memoryGood h ..) ..)
  | stall k =>
    unfold settle
    dsimp only
    split
    · exact out (stepWaits_memoryGood (stall k false h) w)
    · exact out (stall k false h)
  | barrier k => exact out (stepWaits_memoryGood (stall k false h) w)
  | claim => exact out (stall 15 true h)
  | turn e => exact hold e
  | closeFirst => exact out (stepWaits_memoryGood h.keep w)
  | full => exact out (stall 15 false h.keep)
  | stop f => trivial

/-! ### Retirement -/

theorem retire_memoryGood (w : Who) (c : Clause) (i : Instr) {o : Out} (ho : (Res.ok o).good) (uses : List (Nat × Nat))
    (wuses : List WinAcc) (sib : List SibUse) : memoryGood (retire w c i o uses wuses sib) := by
  obtain ⟨hs, hp⟩ := ho
  refine memoryGood_of_memories (hp _ (hs.keep ?_)) (updGroup_memories ..)
  rw [updSplit_memories]
  split <;> split <;> simp

theorem slotDone_memoryGood (w : Who) (c : Clause) (i : Instr) {o : Out} (ho : (Res.ok o).good) :
    memoryGood (slotDone w c i o) := by
  have h := retire_memoryGood w c i ho (o.stripes w) (o.windows w) (o.shared w i)
  exact settleRace_memoryGood (endStep_memoryGood h.keep ..) _

theorem complete_leavesGood {s : State} (h : memoryGood s) (w : Who) (c : Clause) (i : Instr) {o : Out}
    (ho : (Res.ok o).good) : leavesGood (complete s w c i o) := by
  simp only [complete]
  repeat' split
  · exact settle_leavesGood h w trivial
  · exact settle_leavesGood h w trivial
  · exact settle_leavesGood h w trivial
  · exact settleRace_memoryGood (endStep_memoryGood h.keep ..) _
  · exact settle_leavesGood h w trivial
  · exact slotDone_memoryGood w c i ⟨ho.1.keep, ho.2⟩

theorem precheck_good {s : State} {w : Who} {c : Clause} {i : Instr} {r : Res} (h : precheck s w c i = some r) :
    r.good := by
  unfold precheck at h
  repeat' split at h
  all_goals simp only [Option.some.injEq, reduceCtorEq] at h
  all_goals subst h; trivial

theorem groupSlot_leavesGood {s : State} (h : memoryGood s) (i : Instr) {body : State → Res} (hb : (body s).good) (w : Who)
    (c : Clause) : leavesGood (groupSlot i body s w c) := by
  unfold groupSlot
  split
  · next hr => exact settle_leavesGood h w (precheck_good hr)
  · split
    · next ho =>
      rw [ho] at hb
      split
      · exact settle_leavesGood h w trivial
      · split
        · exact settle_leavesGood h w trivial
        · exact complete_leavesGood h w c i hb
    · split <;> exact settle_leavesGood h w trivial
    · exact settle_leavesGood h w hb

theorem coreSlot_leavesGood {s : State} (h : memoryGood s) (i : Instr) {body : State → Res} (hb : (body s).good) (d : Nat)
    (c : Clause) : leavesGood (coreSlot i body s d c) := by
  simp only [coreSlot]
  split
  · exact h.keep
  · split
    · exact h.keep
    · split
      · next o ho =>
        rw [ho] at hb
        split
        · exact h
        · refine hb.2 _ (hb.1.keep ?_)
          split <;> simp
      · exact h.keep
      · trivial
      · exact h

/-- A slot whose body keeps the canonical form keeps it, whoever issues. -/
theorem slot_leavesGood {s : State} (h : memoryGood s) {i : Instr} {body : State → Res} (hb : (body s).good) :
    leavesGood (slot i body s) := by
  unfold slot
  repeat' split
  · exact h
  · exact h
  · exact groupSlot_leavesGood h i hb ..
  · exact h
  · exact coreSlot_leavesGood h i hb ..

end Sys2Proof.Machine

namespace Sys2Proof.Machine
-- Theorems one after another: in parallel, the stacks of the waiting threads go past the checker's memory limit.
set_option Elab.async false

/-! ### Divergence, barriers, the ends of splits and teams -/

theorem divide_memoryGood {s : State} (h : memoryGood s) (g x : Nat) (take : Mask) (pc target next : Nat) :
    memoryGood (divide g x take pc target next s) := by
  unfold divide
  split
  · exact h
  · exact trace_memoryGood h.keep ..

theorem b0Completed_memoryGood {s : State} (h : memoryGood s) (t p : Nat) : memoryGood (b0Completed s t p) := by
  refine foldl_memoryGood (fun s b h => ?_) _ ?_
  · dsimp only
    split
    · exact h
    · next tm _ =>
      have hu : memoryGood (if (Table.find tm.bars b).isSome then
          updBar s t b fun k => { k with touched := false, next := none } else s) := ite_memoryGood _ h.keep h
      split
      · exact hu
      · refine ite_memoryGood _ ?_ hu.keep
        split
        · exact raise_memoryGood hu ..
        · exact hu
  · split
    · exact h.keep
    · exact h.keep

theorem barSettle_memoryGood (fuel : Nat) : ∀ {s : State}, memoryGood s → ∀ t b, memoryGood (barSettle fuel s t b) := by
  induction fuel with
  | zero => intro s h t b; exact h
  | succ fuel ih =>
    intro s h t b
    unfold barSettle
    split
    · exact h
    · extract_lets k p clock s1 s2 s3
      refine ite_memoryGood _ h ?_
      have h2 : memoryGood s2 := ite_memoryGood _ (b0Completed_memoryGood (h.keep (updBar_memories ..)) ..) (h.keep (updBar_memories ..))
      exact ih (h2.keep (by simp [s3])) t b

theorem barSettleAll_memoryGood {s : State} (h : memoryGood s) (t : Nat) : memoryGood (barSettleAll s t) :=
  foldl_memoryGood (fun _ b h => barSettle_memoryGood 4 h t b) _ h

theorem barEndCmd_memoryGood {s : State} (h : memoryGood s) (t id : Nat) : memoryGood (barEndCmd s t id) := by
  unfold barEndCmd
  split
  · exact h
  · split
    · exact h
    · exact barSettle_memoryGood 4 h.keep ..

theorem kbarDeadlock_memoryGood {s : State} (h : memoryGood s) (n : Nat) : memoryGood (kbarDeadlock s n) := by
  refine ite_memoryGood _ h ?_
  split
  · exact h
  · exact raise_memoryGood h.keep ..

theorem kbarSettleAll_memoryGood {s : State} (h : memoryGood s) (n : Nat) : memoryGood (kbarSettleAll s n) :=
  kbarDeadlock_memoryGood h.keep n

theorem mergeTrap_memoryGood {s : State} (h : memoryGood s) (g d : Nat) (hs : List (Nat × Split)) (cause : Nat) :
    memoryGood (mergeTrap s g d hs cause) := by
  unfold mergeTrap
  split
  · exact h
  · exact raise_memoryGood h.keep ..

theorem mergeFrom_memoryGood (fuel : Nat) : ∀ {s : State}, memoryGood s → ∀ g d, memoryGood (mergeFrom fuel s g d) := by
  induction fuel with
  | zero => intro s h g d; exact h
  | succ fuel ih =>
    intro s h g d
    unfold mergeFrom
    split
    · exact h
    · split
      · exact h
      · split
        · exact mergeTrap_memoryGood h ..
        · split
          extract_lets s1 s2 s3 seat s4
          have h3 : memoryGood s3 := h.keep (by simp [s3, s2, s1])
          have h4 : memoryGood s4 := by
            unfold s4
            split
            · exact trace_memoryGood h3 ..
            · exact h3
          split
          · exact ih h4 ..
          · exact h4.keep

theorem mergeAll_memoryGood {s : State} (h : memoryGood s) (g : Nat) : memoryGood (mergeAll s g) := by
  unfold mergeAll
  split
  · exact h
  · extract_lets ds u
    have hu : memoryGood u := foldl_memoryGood (fun _ d h => mergeFrom_memoryGood 100 h g d) _ h
    split
    · exact barSettleAll_memoryGood hu.keep _
    · exact hu

theorem blockRecord_memoryGood {s : State} (h : memoryGood s) (t : Nat) : memoryGood (blockRecord s t) := by
  unfold blockRecord
  split
  · exact h
  · split
    · exact h
    · split
      · exact h
      · refine ite_memoryGood _ h (foldl_memoryGood (fun s g h => ?_) _ (profRecord_memoryGood h ..))
        dsimp only
        split
        · exact h
        · exact foldl_memoryGood (fun _ _ h => profRecord_memoryGood h ..) _ h

theorem endTeam_memoryGood {s : State} (h : memoryGood s) (t : Nat) (tm : Team) : memoryGood (endTeam s t tm) :=
  memoryGood_of_memories (blockRecord_memoryGood h.keep t) (taskCheck_memories ..)

theorem endGroup_memoryGood {s : State} (h : memoryGood s) (t g : Nat) : memoryGood (endGroup s t g) := by
  unfold endGroup
  split
  · exact ite_memoryGood _ (endTeam_memoryGood h.keep ..) h.keep
  · exact h

theorem exitSplit_memoryGood {s : State} (h : memoryGood s) (g x : Nat) : memoryGood (exitSplit s g x) := by
  unfold exitSplit
  split
  · exact h
  · exact kbarSettleAll_memoryGood (barSettleAll_memoryGood
      (ite_memoryGood _ (endGroup_memoryGood h.keep ..) (mergeAll_memoryGood h.keep ..)) _) _

/-! ### The supervisor's and the debugger's answers -/

theorem terminateTeam_memoryGood {s : State} (h : memoryGood s) (t : Nat) (w0 w1 : Word) (tag : Nat) :
    memoryGood (terminateTeam s t w0 w1 tag) := by
  unfold terminateTeam
  split
  · exact h
  · refine ite_memoryGood _ h ?_
    extract_lets last s1 s2 s3 s4
    have h2 : memories s2 = memories s := by
      unfold s2
      split
      · rfl
      · extract_lets time s5 s6
        split <;> simp [s6, s5, s1]
    have h4 : memories s4 = memories s := by simp [s4, s3, h2]
    exact memoryGood_of_memories (kbarSettleAll_memoryGood (h.keep (by simp [h4])) _) (wakeStalled_memories _)

theorem terminateRecord_memoryGood {s : State} (h : memoryGood s) (r : Record) : memoryGood (terminateRecord s r) :=
  terminateTeam_memoryGood h ..

theorem stepDebug_memoryGood {s : State} (h : memoryGood s) (r : Record) (slot entry : Nat) :
    memoryGood (stepDebug s r slot entry) := by
  unfold stepDebug
  extract_lets hit held
  split
  · exact h.keep
  · extract_lets u
    have hu : memoryGood u := by
      unfold u
      split <;> exact h.keep (by simp [held])
    split
    · exact hu
    · exact ite_memoryGood _ (takeTrap_memoryGood hu ..) hu.keep

theorem debugAct_memoryGood {s : State} (h : memoryGood s) (r : Record) (v : Word) : memoryGood (debugAct s r v) := by
  refine ite_memoryGood _ h ?_
  split
  · exact h.keep
  · exact stepDebug_memoryGood h ..
  · exact terminateRecord_memoryGood h r
  · exact h.keep

theorem trapAct_memoryGood {s : State} (h : memoryGood s) (d : Nat) (r : Record) (v : Word) :
    memoryGood (trapAct s d r v) := by
  refine ite_memoryGood _ h ?_
  generalize (if bits (r.words.getD 0 0) 7 0 = 15 then 1 else bits v 1 0) = n
  split
  · exact h.keep
  · exact terminateRecord_memoryGood h r
  · exact h.keep

theorem applyAnswers_memoryGood {s : State} (h : memoryGood s) (d : Nat) : memoryGood (applyAnswers s d) := by
  refine foldl_memoryGood (fun s r h => ?_) _ (foldl_memoryGood (fun s r h => ?_) _ h.keep)
  · split
    · exact debugAct_memoryGood h ..
    · exact h
  · split
    · exact trapAct_memoryGood h ..
    · exact h

theorem dqactWrite_memoryGood {s : State} (h : memoryGood s) (d : Nat) (v : Word) : memoryGood (dqactWrite s d v) := by
  unfold dqactWrite
  split
  · exact h
  · exact ite_memoryGood _ h (ite_memoryGood _ (debugAct_memoryGood h.keep ..) h.keep)

theorem cfqactWrite_memoryGood {s : State} (h : memoryGood s) (d : Nat) (v : Word) : memoryGood (cfqactWrite s d v) := by
  unfold cfqactWrite
  split
  · exact h
  · refine ite_memoryGood _ h ?_
    dsimp only
    split
    · exact h.keep
    · exact ite_memoryGood _ h.keep (terminateTeam_memoryGood h.keep ..)

theorem haltreqWrite_memoryGood {s : State} (h : memoryGood s) (d : Nat) (v : Word) : memoryGood (haltreqWrite s d v) := by
  refine ite_memoryGood _ ?_ h
  unfold haltRequest
  split
  · exact h
  · dsimp only
    split
    · exact h
    · exact takeTrap_memoryGood h ..

/-- A write of a system register keeps the canonical form. -/
theorem sysWrite_memoryGood {s : State} (h : memoryGood s) (d n : Nat) (v : Word) : memoryGood (sysWrite s d n v) := by
  unfold sysWrite
  split
  · exact h.keep
  · refine ite_memoryGood _ h.keep (ite_memoryGood _ h.keep ?_)
    split
    case h_3 => exact cfqactWrite_memoryGood h ..
    case h_7 => exact dqactWrite_memoryGood h ..
    case h_10 => exact haltreqWrite_memoryGood h ..
    case h_4 | h_8 | h_16 | h_21 => exact ite_memoryGood _ h.keep h
    all_goals exact h.keep

theorem debugWindow_memoryGood {s : State} (h : memoryGood s) (off : Nat) (wr : Option Word) :
    memoryGood (debugWindow s off wr).1 := by
  unfold debugWindow
  extract_lets k reg held
  split
  · exact h
  · split
    · exact h
    · split
      · split
        · split
          · exact h.keep
          · exact h
        · split
          · split
            · exact h.keep
            · exact h
          · split
            · exact sysWrite_memoryGood h ..
            · exact h.keep
      · exact h

end Sys2Proof.Machine

namespace Sys2Proof.Machine
-- Theorems one after another: in parallel, the stacks of the waiting threads go past the checker's memory limit.
set_option Elab.async false

/-! ### Copies and commits -/

theorem finishCopy_memoryGood {s : State} (h : memoryGood s) (id : Nat) (c : Cmd) (entry : Bool) (regs : List Word) :
    memoryGood (finishCopy s id c entry regs) :=
  barEndCmd_memoryGood (ite_memoryGood _ h.keep h.keep) ..

theorem completeCopy_memoryGood {s : State} (h : memoryGood s) (id : Nat) (c : Cmd) (l : Launch) (opc : Nat)
    (ws : List Word) (rows : List Row) (entry : Bool) : memoryGood (completeCopy s id c l opc ws rows entry) := by
  refine finishCopy_memoryGood ?_ ..
  split <;> exact h.keep

theorem applyLane_memoryGood {s : State} (h : memoryGood s) (op pa key : Nat) (v x : Word) :
    memoryGood (applyLane s op pa key v x).1 := by
  unfold applyLane
  extract_lets n old acc r u
  have hu : memoryGood u := storeGlobal_memoryGood h key pa r.1
  dsimp only
  split
  · exact hu.keep
  · exact hu

theorem applyAtom_memoryGood {s : State} (h : memoryGood s) (e : Effect) (op : Nat)
    (ls : List (Nat × Nat × Nat × Word × Word × Nat)) (ret : Option (Nat × Nat)) : memoryGood (applyAtom s e op ls ret) := by
  unfold applyAtom
  split
  next u olds bad hf =>
  have hu : memoryGood u := by
    rw [show u = (u, olds, bad).1 from rfl, ← hf]
    refine foldl_fst_memoryGood (fun r a hr => ?_) ls h
    obtain ⟨l, pa, key, v, x, va⟩ := a
    dsimp only
    split
    · exact hr
    · exact applyLane_memoryGood hr ..
  extract_lets v
  have hv : memoryGood v := by
    unfold v
    split
    · exact hu.keep
    · exact hu
  split
  · exact takeTrap_memoryGood hv ..
  · exact hv

theorem stepAtom_memoryGood {s : State} (h : memoryGood s) (ret : Bool) (e : Effect) : memoryGood (stepAtom ret s e) := by
  unfold stepAtom
  split
  · exact ite_memoryGood _ (applyAtom_memoryGood h ..) h
  · exact h

theorem stepWrite_memoryGood {s : State} (h : memoryGood s) (d q qlen : Nat) (lines : List Nat) (e : Effect) :
    memoryGood (stepWrite d q qlen lines s e) := by
  refine ite_memoryGood _ h ?_
  split
  · exact memoryGood_of_memories (storePieces_memoryGood h _) (abortReaders_memories ..)
  · refine ite_memoryGood _ ?_ h
    exact memoryGood_of_memories (storePieces_memoryGood h _) (abortReaders_memories ..)
  · refine ite_memoryGood _ ?_ h
    exact memoryGood_of_memories (applyAtom_memoryGood h ..) (by simp; rfl)
  · exact h

theorem finishColl_memoryGood {s : State} (h : memoryGood s) (t : Nat) (c : Coll) (root : Nat) (members : List Nat)
    (p time : Nat) : memoryGood (finishColl s t c root members p time) := by
  unfold finishColl
  split
  · exact barEndCmd_memoryGood h.keep ..
  · exact h

theorem commitColls_memoryGood {s : State} (h : memoryGood s) (d q qlen : Nat) : memoryGood (commitColls s d q qlen) := by
  unfold commitColls
  extract_lets u
  have hu : memoryGood u := h.keep (takeColls_memories ..)
  split
  · exact hu
  · refine foldl_memoryGood (fun s e h => ?_) _ hu
    refine foldl_memoryGood (fun s c h => ?_) _ h
    dsimp only
    split
    · exact ite_memoryGood _ h (finishColl_memoryGood h ..)
    · exact h

theorem raiseDue_memoryGood {s : State} (h : memoryGood s) (d : Nat) : memoryGood (raiseDue s d) :=
  foldl_memoryGood (fun _ _ h => foldl_memoryGood (fun _ t h => raise_memoryGood h _ _ t) _ h.keep) _ h

theorem step8_memoryGood {s : State} (h : memoryGood s) (d q qlen : Nat) (es : List Effect) (own : List (Nat × Nat))
    (gone : List Nat) : memoryGood (step8 s d q qlen es own gone) := by
  unfold step8
  extract_lets t s1 s2 s3 s4 s5 s6 s7 s8
  have h5 : memories s5 = memories s := by
    unfold s5
    split <;> simp [s4, s3, s2, s1]
  have h7 : memoryGood s7 := raiseDue_memoryGood (h.keep (by simp [s6, h5])) d
  exact h7.keep (by simp [s8])

/-- A commit keeps the canonical form. -/
theorem commitDomain_memoryGood {s : State} (h : memoryGood s) (d : Nat) : memoryGood (commitDomain s d) := by
  unfold commitDomain
  split
  · exact h
  · extract_lets q qlen f late lines s1 s2 es s3 gone s4 done s5 s6
    have h2 : memoryGood s2 := foldl_memoryGood (fun _ e h => stepWrite_memoryGood h _ _ _ _ e) _ (h.keep (dropCovered_memories ..))
    have h5 : memoryGood s5 := foldl_memoryGood (fun _ e h => stepAtom_memoryGood h _ e) _ (h2.keep (by simp [s4, s3]))
    have h6 : memoryGood s6 := foldl_memoryGood (fun _ e h => stepAtom_memoryGood h _ e) _ h5
    have hp := step4_memories f s6 es done
    split
    next u own hu =>
    rw [hu] at hp
    refine step8_memoryGood (memoryGood_of_memories (commitColls_memoryGood (h6.keep ?_) ..) (step7_memories ..)) ..
    simp [hp]

/-! ### The device units -/

theorem takeSample_memoryGood {s : State} (h : memoryGood s) (die core : Nat) : memoryGood (takeSample s die core) := by
  unfold takeSample
  extract_lets gs from' low
  refine ite_memoryGood _ h ?_
  split
  · exact h
  · extract_lets u
    have hu : memoryGood u := h.keep (updCore_memories ..)
    split
    · exact hu
    · exact profRecord_memoryGood hu ..

theorem attestDone_memoryGood {s : State} (h : memoryGood s) : memoryGood (attestDone s) := by
  unfold attestDone
  split
  · exact h
  · exact storeCore_memoryGood h ..

theorem loseMemory_memoryGood {s : State} (h : memoryGood s) : memoryGood (loseMemory s) := by
  obtain ⟨-, hh⟩ := h
  exact ⟨loseMemory_wf s, hh⟩

theorem restoreMemory_memoryGood {s t : State} (h : memoryGood s) {src : Nat → Nat} (ht : restoreMemory s src = some t) :
    memoryGood t := by
  simp only [restoreMemory, Option.ite_none_right_eq_some, Option.some.injEq] at ht
  obtain ⟨-, rfl⟩ := ht
  exact memWrite_memoryGood (memWrite_memoryGood (s := { s with enc := [] }) h ..) ..

theorem saveMemory_memoryGood {s : State} (h : memoryGood s) (dst : Nat → Nat) : memoryGood (saveMemory s dst) := by
  refine foldl_memoryGood (fun t n ht => ?_) _ h
  obtain ⟨hm, hh⟩ := ht
  exact ⟨hm, Sparse.wf_write (Sparse.wf_write hh ..) ..⟩

theorem checkpointDone_memoryGood {s : State} (h : memoryGood s) (failed : Bool) : memoryGood (checkpointDone s failed) := by
  unfold checkpointDone
  split
  · exact h
  · extract_lets place
    split
    next u code hu =>
    suffices hg : memoryGood u from hg.keep
    split at hu
    · simp only [Prod.mk.injEq] at hu
      exact hu.1 ▸ ite_memoryGood _ (loseMemory_memoryGood h) h
    · split at hu
      · split at hu
        · next ht => exact (Prod.mk.inj hu).1 ▸ restoreMemory_memoryGood h ht
        · exact (Prod.mk.inj hu).1 ▸ loseMemory_memoryGood h
      · exact (Prod.mk.inj hu).1 ▸ saveMemory_memoryGood h _

theorem hostLost_memoryGood {s : State} (h : memoryGood s) (port : Nat) : memoryGood (hostLost s port) :=
  ite_memoryGood _ (checkpointDone_memoryGood h.keep true) h.keep

theorem resetState_memoryGood {s : State} (h : memoryGood s) : memoryGood (resetState s) := by
  obtain ⟨-, hh⟩ := h
  exact ⟨rfl, hh⟩

theorem machineFault_memoryGood {s : State} (h : memoryGood s) (t cause addr : Nat) (only : Option Nat) :
    memoryGood (machineFault s t cause addr only) := by
  unfold machineFault
  extract_lets xs key
  split
  · exact takeTrap_memoryGood h ..
  · exact h

theorem machineError_memoryGood {s : State} (h : memoryGood s) (e : MachineError) (bank : Nat) :
    memoryGood (machineError s e bank) := by
  unfold machineError
  extract_lets count dieOf
  have hc (die : Nat) {u : State} (hu : memoryGood u) : memoryGood (count die u) := hu.keep (by simp [count])
  split
  · exact hc _ (machineFault_memoryGood h ..)
  · split
    · exact hc _ (machineFault_memoryGood h ..)
    · exact h
  · exact hc _ (ite_memoryGood _ h h.keep)
  · exact ite_memoryGood _ h.keep h
  · exact foldl_memoryGood (fun _ _ h => machineFault_memoryGood h ..) _ h

theorem execReplyEntryVisible_leavesGood {s : State} (h : memoryGood s) : leavesGood (execReplyEntryVisible s) := by
  unfold execReplyEntryVisible
  split
  · exact h
  · obtain ⟨hm, hh⟩ := h
    extract_lets dseq base u v
    have hu : memoryGood u := ⟨hm, Sparse.wf_write hh ..⟩
    exact hu.keep (by simp [v])

theorem startClause_leavesGood {s : State} (h : memoryGood s) (w : Who) : leavesGood (startClause s w) := by
  unfold startClause
  extract_lets base va stopped
  have hs (e : Trap ⊕ Fault) : leavesGood (stopped e) := by
    cases e
    · exact settle_leavesGood h w trivial
    · trivial
  split
  · exact hs _
  · split
    · exact hs _
    · split
      · exact settle_leavesGood h w trivial
      · split
        · exact settle_leavesGood h w trivial
        · refine h.keep ?_
          simp only [updSplit_memories, updGroup_memories]
          split <;> simp

end Sys2Proof.Machine

namespace Sys2Proof.Machine
-- Theorems one after another: in parallel, the stacks of the waiting threads go past the checker's memory limit.
set_option Elab.async false

/-! ### What slots' bodies do -/

/-- Memories whose states are in canonical form. -/
def canonical (m : Nat × Sparse Byte × Sparse Byte) : Prop := ∀ t, memories t = m → memoryGood t

/-- The canonical form as a property of the memories, so that the frame lemmas rewrite it. -/
theorem memoryGood_iff (s : State) : memoryGood s ↔ canonical (memories s) :=
  ⟨fun h _ e => memoryGood_of_memories h e, fun h => h s rfl⟩

namespace Res

@[simp] theorem good_ok (o : Out) : (Res.ok o).good ↔ memoryGood o.s ∧ ∀ u, memoryGood u → memoryGood (o.post u) := .rfl
@[simp] theorem good_done (s : State) : (Res.done s).good ↔ memoryGood s := ⟨fun h => h.1, fun h => ⟨h, fun _ h => h⟩⟩
@[simp] theorem good_trap (t : Trap) : (Res.trap t).good := trivial
@[simp] theorem good_exhaust (k : Nat) : (Res.exhaust k).good := trivial
@[simp] theorem good_stall (k : Nat) : (Res.stall k).good := trivial
@[simp] theorem good_barrier (k : Nat) : (Res.barrier k).good := trivial
@[simp] theorem good_claim : Res.claim.good := trivial
@[simp] theorem good_turn (e : Held) : (Res.turn e).good := trivial
@[simp] theorem good_closeFirst : Res.closeFirst.good := trivial
@[simp] theorem good_full : Res.full.good := trivial
@[simp] theorem good_stop (f : Fault) : (Res.stop f).good := trivial

@[simp] theorem good_ite (c : Prop) [Decidable c] (a b : Res) :
    (if c then a else b).good ↔ if c then a.good else b.good := by
  split <;> rfl

theorem good_choice {c : Prop} [Decidable c] {a b : Res} (ha : a.good) (hb : b.good) : (if c then a else b).good := by
  split
  · exact ha
  · exact hb

theorem good_bind {α : Type} (x : Except Trap α) {f : α → Res} (h : ∀ a, (f a).good) : (Res.bind x f).good := by
  unfold Res.bind
  split
  · exact h _
  · trivial

end Res

section
variable {s : State} (h : memoryGood s)
include h

theorem withWho_good {f : Who → Res} (hf : ∀ w, (f w).good) : (withWho s f).good := by
  unfold withWho
  split
  · exact hf _
  · simpa using h

theorem withCore_good {f : Nat → Res} (hf : ∀ d, (f d).good) : (withCore s f).good := by
  unfold withCore
  split
  · exact hf _
  · simpa using h

omit h in
theorem coreAccess_good (d a n : Nat) {f : CoreSpace → Res} (hf : ∀ p, (f p).good) : (coreAccess s d a n f).good := by
  unfold coreAccess
  split
  · trivial
  · split
    · trivial
    · split
      · split
        · trivial
        · exact hf _
      · exact hf _

theorem loadBody_good (sd sa : SReg) (off : Word) (n : Nat) (ext : Word → Word) : (loadBody sd sa off n ext s).good := by
  unfold loadBody
  dsimp only
  split
  · refine coreAccess_good _ _ _ fun p => ?_
    simpa [memoryGood_iff] using h
  · refine withWho_good h fun w => Res.good_bind _ fun a => ?_
    simp_all [memoryGood_iff]

theorem storeBody_good (sd sa : SReg) (off : Word) (n : Nat) : (storeBody sd sa off n s).good := by
  unfold storeBody
  dsimp only
  split
  · refine coreAccess_good _ _ _ fun p => ?_
    split
    · simpa [memoryGood_iff] using h
    · simpa using storeCore_memoryGood h ..
    · simpa using h
  · refine withWho_good h fun w => Res.good_bind _ fun a => ?_
    simp_all [memoryGood_iff]

theorem laneResults_memoryGood (w : Who) (vd : Nat) (f : Nat → Word × Word) : memoryGood (laneResults s w vd f).s :=
  h.keep (by simp [laneResults])

theorem vecOp_good (vd : VReg) (f : Who → Nat → Word × Word) : (vecOp s vd f).good := by
  refine withWho_good h fun w => ?_
  unfold vecOut
  split
  · simpa using h
  · exact ⟨laneResults_memoryGood h .., fun _ h => h⟩

theorem laneLoad_good (w : Who) (vd : VReg) (n : Nat) (base : Option Nat) (addrs : List (Nat × Nat)) :
    (laneLoad s w vd n base addrs).good := by
  refine Res.good_bind _ fun places => ?_
  simp_all [memoryGood_iff]

theorem laneStore_good (w : Who) (vd : VReg) (n : Nat) (base : Option Nat) (addrs : List (Nat × Nat)) :
    (laneStore s w vd n base addrs).good := by
  refine Res.good_bind _ fun places => ?_
  simp_all [memoryGood_iff]

omit h in
theorem takesPart_good (w : Who) (b : Nat) {f : Bar → Res} (hf : ∀ k, (f k).good) : (takesPart w b f).good := by
  unfold takesPart
  simp_all

omit h in
theorem arriving_good (w : Who) (b reason : Nat) {f : Bar → Nat → Res} (hf : ∀ k p, (f k p).good) :
    (arriving s w b reason f).good := by
  refine takesPart_good w b fun k => ?_
  dsimp only
  split <;> simp_all

theorem countWrites_good (w : Who) (n : Nat) {f : State → Res} (hf : ∀ t, memoryGood t → (f t).good) :
    (countWrites s w n f).good := by
  unfold countWrites
  have hu (g : Task → Task) : memoryGood (updTask s w.grp.task g) := h.keep
  simp_all


theorem startsCopy_good (w : Who) (d : Desc) (p : Plan) : (startsCopy s w d p).good := by
  unfold startsCopy
  split
  · trivial
  · split
    · trivial
    · refine countWrites_good h _ _ fun t ht => ?_
      split
      · trivial
      · simpa [memoryGood_iff] using ht

theorem releaseStage_good (w : Who) (sd : Nat) (go : List (Desc × Plan)) : (releaseStage s w sd go).good := by
  simp only [releaseStage]
  split
  · trivial
  · split
    · trivial
    · refine countWrites_good h _ _ fun t ht => ?_
      simpa [memoryGood_iff] using ht

theorem matrixStart_good (w : Who) (sd : SReg) (p : MxPlan) : (matrixStart s w sd p).good := by
  unfold matrixStart
  extract_lets accs c u t v
  have hv : memoryGood v := by
    unfold v
    split <;> simpa [memoryGood_iff, t, u] using h
  split
  · trivial
  · split
    · trivial
    · simpa using hv

theorem matrixPort_good (w : Who) (sd : SReg) (cmode : Nat) (ctgt : Word) {f : Res} (hf : f.good) :
    (matrixPort s w sd cmode ctgt f).good := by
  simp_all [matrixPort, matrixRefused, memoryGood_iff]

theorem sizeDone_good (w : Who) (sd : SReg) (code : Nat) : (sizeDone s w sd code).good := by
  simp_all [sizeDone, memoryGood_iff]

theorem setSize_good (w : Who) (sd : SReg) (n : Nat) (accs : List Acc) : (setSize s w sd n accs).good := by
  simp_all [setSize, memoryGood_iff]

theorem vcountCheck_good (w : Who) (sd : SReg) (n : Nat) {f : Res} (hf : f.good) : (vcountCheck s w sd n f).good := by
  simp_all [vcountCheck, memoryGood_iff]

theorem setVcount_good (w : Who) (sd : SReg) (n : Nat) : (setVcount s w sd n).good := by
  simp_all [setVcount, memoryGood_iff]

omit h in
theorem openPort_good (w : Who) (pw : Word) {f : Port → Res} (hf : ∀ p, (f p).good) : (openPort s w pw f).good := by
  unfold openPort
  split
  · trivial
  · split
    · trivial
    · split
      · trivial
      · exact hf _

omit h in
theorem withPhaser_good (w : Who) (ph : Word) (kind : Nat) (bad : Bool) {f : Phaser → Res} (hf : ∀ p, (f p).good) :
    (withPhaser s w ph kind bad f).good := by
  unfold withPhaser
  split
  · trivial
  · split
    · trivial
    · split
      · trivial
      · split
        · trivial
        · split
          · trivial
          · exact hf _

theorem atomReturn_good (w : Who) (op : Nat) (k : AtomBlock) (sd : SReg) (ls : List AtomLane) :
    (atomReturn s w op k sd ls).good := by
  unfold atomReturn
  simpa [memoryGood_iff, atomOut] using h

theorem atomOrder_good (w : Who) (op : Nat) (k : AtomBlock) (ls : List AtomLane) : (atomOrder s w op k ls).good := by
  unfold atomOrder
  extract_lets q n
  split
  · trivial
  · refine countWrites_good h _ _ fun t ht => ?_
    simpa [memoryGood_iff, atomOut] using ht

/-! ### Shapes that many instructions share -/

theorem writeSlot_leavesGood (i : Instr) (sd : SReg) (f : State → Word) : leavesGood (writeSlot i sd f s) :=
  slot_leavesGood h (by simpa [memoryGood_iff] using h)

theorem divisionSlot_leavesGood (i : Instr) (f : Word → Word → Word) (sd sa : SReg) :
    leavesGood (divisionSlot i f sd sa s) := by
  refine slot_leavesGood h ?_
  dsimp only
  split
  · simpa [memoryGood_iff] using h
  · refine withWho_good h fun w => ?_
    simpa [memoryGood_iff] using h

theorem maskSlot_leavesGood (i : Instr) (td : TReg) (f : State → Mask) : leavesGood (maskSlot i td f s) :=
  slot_leavesGood h (by simpa [memoryGood_iff] using h)

theorem elemSlot_leavesGood (i : Instr) (vd va : VReg) (b : Opnd) (f : Word → Etype → Nat → Nat → Nat → Nat × Word) :
    leavesGood (elemSlot i vd va b f s) :=
  slot_leavesGood h (vecOp_good h ..)

theorem floatSlot_leavesGood (i : Instr) (vd va : VReg) (b : Opnd) (f : Fmt → Rnd → Nat → Nat → Nat → Nat × Word) :
    leavesGood (floatSlot i vd va b f s) :=
  elemSlot_leavesGood h ..

theorem laneSlot_leavesGood (i : Instr) (vd va : VReg) (b : Opnd) (f : Word → Word → Word) :
    leavesGood (laneSlot i vd va b f s) :=
  slot_leavesGood h (vecOp_good h ..)

theorem compareSlot_leavesGood (i : Instr) (td : Nat) (va : VReg) (b : Opnd) (c : Cond) :
    leavesGood (compareSlot i td va b c s) := by
  refine slot_leavesGood h (withWho_good h fun w => ?_)
  simpa [memoryGood_iff] using h

theorem convertSlot_leavesGood (i : Instr) (vd va : VReg) (se : Etype) : leavesGood (convertSlot i vd va se s) :=
  slot_leavesGood h (vecOp_good h ..)

theorem dotSlot_leavesGood (i : Instr) (vd va vb : VReg) (f : Word → Word → Word → Word → Word × Word) :
    leavesGood (dotSlot i vd va vb f s) :=
  slot_leavesGood h (vecOp_good h ..)

theorem crossSlot_leavesGood (i : Instr) (vd va : VReg) (src : State → Who → Nat → Option Nat)
    (other : List Word → Nat → Word) : leavesGood (crossSlot i vd va src other s) :=
  slot_leavesGood h (withWho_good h fun _ => ⟨laneResults_memoryGood h .., fun _ h => h⟩)

theorem atomicSlot_leavesGood (i : Instr) (k : Nat) (ret : Bool) (vd va vb : VReg) (op : Word → Word → Word × Word) :
    leavesGood (atomicSlot i k ret vd va vb op s) := by
  refine slot_leavesGood h (withWho_good h fun w => Res.good_bind _ fun places => ?_)
  simp_all [memoryGood_iff]

theorem logSlot_leavesGood (i : Instr) (vd va : VReg) (vb : Option VReg) (f : Rnd → Word → Word → Word × Word) :
    leavesGood (logSlot i vd va vb f s) := by
  refine slot_leavesGood h (withWho_good h fun w => ?_)
  simpa [memoryGood_iff] using h

theorem copySlot_leavesGood (i : Instr) (opc words : Nat) (sd sa : SReg) :
    leavesGood (copySlot i opc words sd sa s) := by
  refine slot_leavesGood h (withWho_good h fun w => ?_)
  extract_lets d
  split
  · trivial
  · refine Res.good_bind _ fun p => ?_
    split
    · trivial
    · split
      · simpa [memoryGood_iff] using h
      · exact startsCopy_good h ..

theorem configSlot_leavesGood (i : Instr) (kind words : Nat) (sd sa : SReg) :
    leavesGood (configSlot i kind words sd sa s) := by
  refine slot_leavesGood h (withWho_good h fun w => ?_)
  simp_all [memoryGood_iff]

theorem signalSlot_leavesGood (i : Instr) (isAny bound : Bool) (sd sa : SReg) :
    leavesGood (signalSlot i isAny bound sd sa s) := by
  refine slot_leavesGood h (withWho_good h fun w => withPhaser_good _ _ _ _ fun p => ?_)
  simp_all [memoryGood_iff]

theorem atomSlot_leavesGood (i : Instr) (op : Nat) (sa : SReg) (sd : Option SReg) :
    leavesGood (atomSlot i op sa sd s) := by
  refine slot_leavesGood h (withWho_good h fun w => ?_)
  extract_lets k ret regs vas
  split
  · trivial
  · split
    · trivial
    · split
      · trivial
      · trivial
      · split
        · exact atomReturn_good h.keep ..
        · exact atomOrder_good h.keep ..

end
end Sys2Proof.Machine

namespace Sys2Proof.Machine
-- Theorems one after another: in parallel, the stacks of the waiting threads go past the checker's memory limit.
set_option Elab.async false

/-! ### Instructions with a body of their own -/

section
variable {s : State} (h : memoryGood s)
include h

theorem execSld_leavesGood (sd sa : SReg) (width : LoadWidth) (off : Word) : leavesGood (execSld sd sa width off s) :=
  slot_leavesGood h (loadBody_good h ..)

theorem execSst_leavesGood (sd sa : SReg) (width : Width) (off : Word) : leavesGood (execSst sd sa width off s) :=
  slot_leavesGood h (storeBody_good h ..)

theorem execSlrC_leavesGood (sd : SReg) (n : BitVec 10) : leavesGood (execSlrC sd n s) := by
  have hu (v : Word) : memoryGood (uwrite s sd.toNat v) := h.keep
  refine slot_leavesGood h ?_
  split
  · simpa using hu 0
  · refine withWho_good h fun w => ?_
    extract_lets +onlyGivenNames base
    split
    · simpa using hu _
    · trivial
    · trivial

theorem execMode_leavesGood (sa : SReg) : leavesGood (execMode sa s) :=
  slot_leavesGood h (by simp_all [memoryGood_iff])

theorem execModeg_leavesGood (sd : SReg) : leavesGood (execModeg sd s) :=
  slot_leavesGood h (by simp_all [memoryGood_iff])

theorem execModei_leavesGood (imm : Word) : leavesGood (execModei imm s) :=
  slot_leavesGood h (by simp_all [memoryGood_iff])

theorem execBr_leavesGood (sc : SReg) (cc : BrCond) (target : Word) : leavesGood (execBr sc cc target s) :=
  slot_leavesGood h (by simp_all [traceJump_memoryGood])

theorem execBrv_leavesGood (u f : Bool) (tm : TReg) (target : Word) : leavesGood (execBrv u f tm target s) := by
  refine slot_leavesGood h (withWho_good h fun w => ?_)
  simp +contextual [h, traceJump_memoryGood, divide_memoryGood]

theorem execCall_leavesGood (target : Word) : leavesGood (execCall target s) := by
  refine slot_leavesGood h ?_
  have ht (rs : List Word) : memoryGood (traceJump (setCalls s rs) target.toNat) := traceJump_memoryGood h.keep _
  simp [ht]

theorem execTrapu_leavesGood (code : BitVec 10) : leavesGood (execTrapu code s) := slot_leavesGood h trivial

theorem execVsel_leavesGood (vd va vb : VReg) (tn : BitVec 3) : leavesGood (execVsel vd va vb tn s) :=
  slot_leavesGood h (vecOp_good h ..)

theorem execVlane_leavesGood (vd : VReg) : leavesGood (execVlane vd s) := slot_leavesGood h (vecOp_good h ..)

theorem execVbcs_leavesGood (vd : VReg) (sb : SReg) : leavesGood (execVbcs vd sb s) := slot_leavesGood h (vecOp_good h ..)

theorem execVget_leavesGood (sd : SReg) (va : VReg) : leavesGood (execVget sd va s) :=
  slot_leavesGood h (withWho_good h fun _ => by simp_all [memoryGood_iff])

theorem execVput_leavesGood (vd : VReg) (sb : SReg) : leavesGood (execVput vd sb s) :=
  slot_leavesGood h (withWho_good h fun _ => by simp_all [memoryGood_iff])

theorem execVfcmp_leavesGood (cc : FCond) (td : TReg) (va vb : VReg) : leavesGood (execVfcmp cc td va vb s) := by
  refine slot_leavesGood h (withWho_good h fun w => ?_)
  dsimp only
  split <;> simpa [memoryGood_iff] using h

theorem execVpack_leavesGood (vd va vb : VReg) : leavesGood (execVpack vd va vb s) := by
  refine slot_leavesGood h (withWho_good h fun w => ?_)
  simp [vecOp_good h]

theorem execVunpk_leavesGood (vd va : VReg) (part : BitVec 3) : leavesGood (execVunpk vd va part s) := by
  refine slot_leavesGood h (withWho_good h fun w => ?_)
  simp [vecOp_good h]

theorem execVperm_leavesGood (vd va vb : VReg) : leavesGood (execVperm vd va vb s) :=
  slot_leavesGood h (withWho_good h fun _ => ⟨laneResults_memoryGood h .., fun _ h => h⟩)

theorem execVred_leavesGood (op : RedOp) (sd : SReg) (va : VReg) : leavesGood (execVred op sd va s) := by
  refine slot_leavesGood h (withWho_good h fun w => ?_)
  simp_all [memoryGood_iff]

theorem execVscan_leavesGood (op : ScanOp) (excl : Bool) (vd va : VReg) : leavesGood (execVscan op excl vd va s) :=
  slot_leavesGood h (vecOp_good h ..)

/-- A vector load, whatever its width and addresses. -/
theorem laneLoadSlot_leavesGood (i : Instr) (vd : VReg) (n : Nat) (base : State → Who → Option Nat)
    (addrs : State → Who → List (Nat × Nat)) :
    leavesGood (slot i (fun s => withWho s fun w => laneLoad s w vd n (base s w) (addrs s w)) s) :=
  slot_leavesGood h (withWho_good h fun _ => laneLoad_good h ..)

/-- A vector store, whatever its width and addresses. -/
theorem laneStoreSlot_leavesGood (i : Instr) (vd : VReg) (n : Nat) (base : State → Who → Option Nat)
    (addrs : State → Who → List (Nat × Nat)) :
    leavesGood (slot i (fun s => withWho s fun w => laneStore s w vd n (base s w) (addrs s w)) s) :=
  slot_leavesGood h (withWho_good h fun _ => laneStore_good h ..)

theorem execVspill_leavesGood (va : VReg) : leavesGood (execVspill va s) :=
  slot_leavesGood h (withWho_good h fun _ => by simp_all [memoryGood_iff])

theorem execVfill_leavesGood (vd : VReg) : leavesGood (execVfill vd s) :=
  slot_leavesGood h (withWho_good h fun _ => by simp_all [memoryGood_iff])

theorem execBara_leavesGood (b : BitVec 4) : leavesGood (execBara b s) :=
  slot_leavesGood h (withWho_good h fun _ => arriving_good _ _ _ fun _ _ =>
    ⟨h.keep, fun _ hu => barSettle_memoryGood _ hu ..⟩)

theorem execBarw_leavesGood (b : BitVec 4) : leavesGood (execBarw b s) := by
  refine slot_leavesGood h (withWho_good h fun w => takesPart_good _ _ fun k => ?_)
  simp_all [memoryGood_iff]

theorem execBar_leavesGood (b : BitVec 4) : leavesGood (execBar b s) :=
  slot_leavesGood h (withWho_good h fun _ => arriving_good _ _ _ fun _ _ =>
    ⟨h.keep, fun _ hu => barSettle_memoryGood _ hu ..⟩)

theorem execBarcfg_leavesGood (b : BitVec 4) (sd : SReg) : leavesGood (execBarcfg b sd s) :=
  slot_leavesGood h (withWho_good h fun _ => by simp_all [memoryGood_iff])

theorem execCpcur_leavesGood (sd sa : SReg) : leavesGood (execCpcur sd sa s) :=
  slot_leavesGood h (withWho_good h fun _ => by simp_all [memoryGood_iff])

theorem execCpsch_leavesGood (sd sa : SReg) : leavesGood (execCpsch sd sa s) := by
  refine slot_leavesGood h (withWho_good h fun w => ?_)
  extract_lets +onlyGivenNames b g sel first count ncs csch status done refuse
  have hdone {t : State} (ht : memoryGood t) (v : Word) (items : List Item) : (done t v items).good :=
    ⟨ht.keep, fun _ h => h⟩
  have hrefuse (v : Word) : (refuse v).good := hdone h.keep ..
  repeat
    split
    · trivial
  refine Res.good_choice (hrefuse _) ?_
  split
  · trivial
  · trivial
  · extract_lets +onlyGivenNames es
    split
    · exact hrefuse _
    · split
      · exact hrefuse _
      · exact hdone h.keep ..

theorem execCpstg_leavesGood (sd : SReg) : leavesGood (execCpstg sd s) := by
  refine slot_leavesGood h (withWho_good h fun w => ?_)
  have refuse {t : State} (ht : memoryGood t) (v : Nat) (items : List Item) :
      (Res.ok { s := doneCmd (nextSerial t w.g) w sd.toNat (.done (word v)), items }).good := ⟨ht.keep, fun _ h => h⟩
  dsimp only
  split
  · exact refuse h ..
  · split
    · exact refuse h ..
    · split
      · exact refuse h ..
      · split
        · exact refuse h.keep ..
        · trivial
        · trivial
        · exact releaseStage_good h.keep ..

theorem execMwld_leavesGood (sd sa : SReg) : leavesGood (execMwld sd sa s) := by
  refine slot_leavesGood h (withWho_good h fun w => ?_)
  extract_lets +onlyGivenNames b ctl wa sc fmt scl rs bad
  clear_value bad
  split
  · trivial
  · exact matrixStart_good h ..

theorem execMtbl_leavesGood (sd sa : SReg) : leavesGood (execMtbl sd sa s) := by
  refine slot_leavesGood h (withWho_good h fun w => ?_)
  extract_lets +onlyGivenNames b ctl lo hi ta frac bad
  clear_value bad
  split
  · trivial
  · extract_lets es
    split
    · trivial
    · exact matrixStart_good h ..

theorem execMloop_leavesGood (sd sa : SReg) : leavesGood (execMloop sd sa s) := by
  refine slot_leavesGood h (withWho_good h fun w => ?_)
  extract_lets +onlyGivenNames b g fmt cm tile unmatched ks nr idx form
  clear_value form tile
  split
  · trivial
  · trivial
  · extract_lets v used tiles rs
    split
    · trivial
    · exact matrixPort_good h _ _ _ _ (matrixStart_good h ..)

theorem execMrd_leavesGood (sd sa : SReg) : leavesGood (execMrd sd sa s) := by
  refine slot_leavesGood h (withWho_good h fun w => ?_)
  extract_lets +onlyGivenNames b g col v bad
  clear_value bad
  split
  · trivial
  · exact matrixStart_good h ..

theorem execMst_leavesGood (sd sa : SReg) : leavesGood (execMst sd sa s) := by
  refine slot_leavesGood h (withWho_good h fun w => ?_)
  extract_lets +onlyGivenNames b g n c cm out form outs reads
  split
  · trivial
  · exact matrixPort_good h _ _ _ _ (matrixStart_good h ..)

theorem execMclrMatrix_leavesGood (sd sa : SReg) : leavesGood (execMclrMatrix sd sa s) := by
  refine slot_leavesGood h (withWho_good h fun w => ?_)
  extract_lets +onlyGivenNames c sel
  split
  · trivial
  · exact matrixStart_good h ..

theorem execMstat_leavesGood (sd sa : SReg) : leavesGood (execMstat sd sa s) := by
  refine slot_leavesGood h (withWho_good h fun w => ?_)
  extract_lets +onlyGivenNames c
  split
  · trivial
  · simp_all [memoryGood_iff]

end
end Sys2Proof.Machine

namespace Sys2Proof.Machine
-- Theorems one after another: in parallel, the stacks of the waiting threads go past the checker's memory limit.
set_option Elab.async false

section
variable {s : State} (h : memoryGood s)
include h

theorem execTask_leavesGood (sd sa : SReg) : leavesGood (execTask sd sa s) := by
  refine slot_leavesGood h (withWho_good h fun w => ?_)
  extract_lets +onlyGivenNames b g done
  have hdone {t : State} (ht : memoryGood t) (v : Nat) : memoryGood (done t v) := ht.keep (uwrite_memories ..)
  split
  · simpa using hdone h 1
  · extract_lets +onlyGivenNames va ps got
    clear_value got
    split
    · trivial
    · trivial
    · split
      · trivial
      · extract_lets +onlyGivenNames ploc prm u
        split
        · trivial
        · extract_lets +onlyGivenNames accs params ws v code x
          have hx : memoryGood x := h.keep (by simp [x, v, u])
          repeat
            refine Res.good_choice trivial ?_
          exact ⟨hdone hx code, fun _ h => h⟩

theorem execAlloc_leavesGood (sd sa : SReg) : leavesGood (execAlloc sd sa s) :=
  slot_leavesGood h (withWho_good h fun w => by simp [sizeDone_good h, setSize_good h])

theorem execFree_leavesGood (sd sa : SReg) : leavesGood (execFree sd sa s) :=
  slot_leavesGood h (withWho_good h fun w => by simp [sizeDone_good h, setSize_good h])

theorem execVgrow_leavesGood (sd sa : SReg) : leavesGood (execVgrow sd sa s) := by
  refine slot_leavesGood h (withWho_good h fun w => vcountCheck_good h _ _ _ ?_)
  have hu (v : Word) : memoryGood (uwrite s sd.toNat v) := h.keep
  simp [hu, setVcount_good h]

theorem execVshrk_leavesGood (sd sa : SReg) : leavesGood (execVshrk sd sa s) := by
  refine slot_leavesGood h (withWho_good h fun w => vcountCheck_good h _ _ _ ?_)
  have hu (v : Word) : memoryGood (uwrite s sd.toNat v) := h.keep
  split
  · simpa using hu 2
  · split
    · trivial
    · exact setVcount_good h ..

theorem execKbar_leavesGood (k : BitVec 2) : leavesGood (execKbar k s) :=
  slot_leavesGood h (withWho_good h fun _ => ⟨h.keep, fun _ hu => kbarSettleAll_memoryGood hu.keep _⟩)

theorem execSend_leavesGood (sd sa : SReg) : leavesGood (execSend sd sa s) :=
  slot_leavesGood h (withWho_good h fun _ => openPort_good _ _ fun _ => by simp_all [memoryGood_iff])

theorem execRecv_leavesGood (sd sa : SReg) : leavesGood (execRecv sd sa s) := by
  refine slot_leavesGood h (withWho_good h fun w => openPort_good _ _ fun p => ?_)
  split
  · simpa [memoryGood_iff] using h
  · split
    · trivial
    · extract_lets item
      split <;> simpa [memoryGood_iff] using h
  · trivial

theorem execYield_leavesGood (sa : SReg) : leavesGood (execYield sa s) := by
  refine slot_leavesGood h (withWho_good h fun w => ?_)
  extract_lets +onlyGivenNames b pw
  refine Res.good_choice trivial (Res.good_choice trivial (Res.good_choice trivial (Res.good_choice trivial ?_)))
  refine openPort_good _ _ fun p => ?_
  simp_all [memoryGood_iff]

theorem execPhreg_leavesGood (sd sa : SReg) : leavesGood (execPhreg sd sa s) :=
  slot_leavesGood h (withWho_good h fun _ => withPhaser_good _ _ _ _ fun _ => by simp_all [memoryGood_iff])

theorem execPhdrop_leavesGood (sd sa : SReg) : leavesGood (execPhdrop sd sa s) :=
  slot_leavesGood h (withWho_good h fun _ => withPhaser_good _ _ _ _ fun _ => by simp_all [memoryGood_iff])

theorem execPhwait_leavesGood (sd sa : SReg) : leavesGood (execPhwait sd sa s) := by
  refine slot_leavesGood h (withWho_good h fun w => withPhaser_good _ _ _ _ fun p => ?_)
  split
  · trivial
  · simp_all [memoryGood_iff]

theorem execPhstat_leavesGood (sd sa : SReg) : leavesGood (execPhstat sd sa s) :=
  slot_leavesGood h (withWho_good h fun _ => withPhaser_good _ _ _ _ fun _ => by simp_all [memoryGood_iff])

theorem execMcst_leavesGood (sd sa : SReg) : leavesGood (execMcst sd sa s) := by
  refine slot_leavesGood h (withWho_good h fun w => ?_)
  extract_lets +onlyGivenNames b g cm odd
  split
  · trivial
  · refine Res.good_bind _ fun ps => ?_
    simp_all [memoryGood_iff]

theorem execColl_leavesGood (sd sa : SReg) : leavesGood (execColl sd sa s) := by
  refine slot_leavesGood h (withWho_good h fun w => ?_)
  extract_lets +onlyGivenNames b g c n odd
  refine Res.good_choice trivial ?_
  split
  · trivial
  · extract_lets +onlyGivenNames tree differs
    repeat
      refine Res.good_choice trivial ?_
    refine Res.good_bind _ fun ps => ?_
    simp_all [memoryGood_iff]

theorem execGsync_leavesGood (sd sa : SReg) : leavesGood (execGsync sd sa s) := by
  refine slot_leavesGood h (withWho_good h fun w => ?_)
  extract_lets +onlyGivenNames b g cm
  split
  · trivial
  · extract_lets +onlyGivenNames dom id ms
    clear_value ms
    split
    · trivial
    · refine Res.good_choice trivial (Res.good_bind _ fun ps => ?_)
      simp_all [memoryGood_iff]

theorem execRdsr_leavesGood (sd : SReg) (n : BitVec 10) : leavesGood (execRdsr sd n s) :=
  slot_leavesGood h (withCore_good h fun _ => by simpa [memoryGood_iff] using h)

theorem execWrsr_leavesGood (n : BitVec 10) (sa : SReg) : leavesGood (execWrsr n sa s) :=
  slot_leavesGood h (withCore_good h fun _ => by simp [sysWrite_memoryGood h])

theorem execTlbinv_leavesGood (sa : SReg) : leavesGood (execTlbinv sa s) :=
  slot_leavesGood h (withCore_good h fun _ => by simp_all [memoryGood_iff])

theorem execPhalloc_leavesGood (sd sa : SReg) : leavesGood (execPhalloc sd sa s) := by
  refine slot_leavesGood h (withCore_good h fun d => ?_)
  extract_lets +onlyGivenNames b ctl ctx
  split
  · simpa [memoryGood_iff] using h
  · split <;> simpa [memoryGood_iff] using h

theorem execPhfree_leavesGood (sd sa : SReg) : leavesGood (execPhfree sd sa s) := by
  refine slot_leavesGood h (withCore_good h fun d => ?_)
  extract_lets +onlyGivenNames id
  split <;> simpa [memoryGood_iff] using h

theorem execTreereq_leavesGood (sd sa : SReg) : leavesGood (execTreereq sd sa s) :=
  slot_leavesGood h (withCore_good h fun _ => by simp_all [memoryGood_iff])

theorem execCtxsav_leavesGood (sd sa : SReg) : leavesGood (execCtxsav sd sa s) := by
  refine slot_leavesGood h (withCore_good h fun d => ?_)
  extract_lets +onlyGivenNames b
  split
  next c pa bad _ =>
  extract_lets +onlyGivenNames x done
  have hdone {t : State} (ht : memoryGood t) (v : Word) : (done t v).good := (Res.good_done _).2 (ht.keep (uwrite_memories ..))
  refine Res.good_choice (hdone h _) (Res.good_choice (hdone h _) (Res.good_choice (hdone h _) ?_))
  extract_lets +onlyGivenNames u v bs y z
  have hy : memoryGood y := storeCore_memoryGood (h.keep (unsend_memories ..)) ..
  exact Res.good_choice trivial (hdone (hy.keep (by simp [z])) _)

theorem execCtxld_leavesGood (sd sa : SReg) : leavesGood (execCtxld sd sa s) := by
  refine slot_leavesGood h (withCore_good h fun d => ?_)
  split
  next c pa bad _ =>
  extract_lets +onlyGivenNames x done fail
  have hdone {t : State} (ht : memoryGood t) (v : Word) : (done t v).good := (Res.good_done _).2 (ht.keep (uwrite_memories ..))
  have hfail (v : Nat) : (fail v).good := hdone (h.keep (by simp)) _
  refine Res.good_choice trivial (Res.good_choice (hdone h _) (Res.good_choice (hdone h _) ?_))
  split
  · exact hfail _
  · refine Res.good_choice (hfail _) ?_
    split
    · exact hfail _
    · exact Res.good_choice (hfail _) (hdone h.keep _)

theorem execRet_leavesGood : leavesGood (execRet s) := by
  refine slot_leavesGood h ?_
  split
  · trivial
  · exact ⟨traceJump_memoryGood h.keep _, fun _ h => h⟩

theorem execRecon_leavesGood : leavesGood (execRecon s) := by
  refine slot_leavesGood h (withWho_good h fun w => ?_)
  split
  · exact ⟨h, fun _ hu => mergeAll_memoryGood hu _⟩
  · simpa using h

theorem execExit_leavesGood : leavesGood (execExit s) := by
  refine slot_leavesGood h ?_
  split
  · exact ⟨h.keep, fun _ h => h⟩
  · exact ⟨h, fun _ hu => exitSplit_memoryGood hu ..⟩

theorem execSplit_leavesGood : leavesGood (execSplit s) :=
  slot_leavesGood h (withWho_good h fun _ => by simp [h])

theorem execEret_leavesGood : leavesGood (execEret s) :=
  slot_leavesGood h (withCore_good h fun d => Res.good_choice ⟨h, fun _ h => h⟩
    ⟨applyAnswers_memoryGood h.keep d, fun _ h => h⟩)

theorem execWfi_leavesGood : leavesGood (execWfi s) :=
  slot_leavesGood h (withCore_good h fun _ => by simp [h])

theorem execHaltc_leavesGood : leavesGood (execHaltc s) :=
  slot_leavesGood h (withCore_good h fun _ => ⟨h.keep, fun _ h => h⟩)

theorem execTret_leavesGood : leavesGood (execTret s) :=
  slot_leavesGood h (withWho_good h fun _ => Res.good_choice trivial ⟨h, fun _ hu => hu.keep⟩)

theorem execTesc_leavesGood : leavesGood (execTesc s) := by
  refine slot_leavesGood h (withWho_good h fun w => Res.good_choice trivial ⟨h, fun u hu => ?_⟩)
  dsimp only
  split
  · exact hu
  · exact hu.keep

end
end Sys2Proof.Machine

namespace Sys2Proof.Machine
-- Theorems one after another: in parallel, the stacks of the waiting threads go past the checker's memory limit.
set_option Elab.async false

/-! ### Events -/

section
variable {s : State} (h : memoryGood s)
include h

theorem haltRequest_memoryGood (die core slot : Nat) : memoryGood (haltRequest s die core slot) := by
  unfold haltRequest
  split
  · exact h
  · extract_lets xs key
    split
    · exact h
    · exact takeTrap_memoryGood h ..

theorem execClauseStart_leavesGood : leavesGood (execClauseStart s) := by
  unfold execClauseStart
  split
  · split
    · exact h
    · split
      · exact h
      · exact startClause_leavesGood h _
  · split
    · exact h
    · exact h.keep

theorem execDivisionComplete_leavesGood : leavesGood (execDivisionComplete s) := by
  unfold execDivisionComplete
  split
  · split
    · split
      · exact h.keep
      · exact h
    · exact h
  · extract_lets d
    split
    · exact h.keep (by simp)
    · exact h

theorem execLogOperationComplete_leavesGood : leavesGood (execLogOperationComplete s) := by
  unfold execLogOperationComplete
  split
  · split
    · exact h.keep
    · exact h
  · exact h

theorem execCopyCommandComplete_leavesGood : leavesGood (execCopyCommandComplete s) := by
  unfold execCopyCommandComplete
  extract_lets id
  split
  · exact h
  · split
    · exact h
    · split
      · exact finishCopy_memoryGood h ..
      · split
        · exact completeCopy_memoryGood h ..
        · exact h
      · split
        · exact h
        · exact h.keep
      · exact h.keep
      · exact h

theorem execCopyFault_leavesGood : leavesGood (execCopyFault s) := by
  unfold execCopyFault
  extract_lets id
  split
  · split
    · split
      · exact h
      · split
        · exact h.keep
        · trivial
        · exact h
    · exact h
  · exact h

theorem execMatrixCommandComplete_leavesGood : leavesGood (execMatrixCommandComplete s) := by
  unfold execMatrixCommandComplete
  extract_lets +onlyGivenNames id
  split
  · exact h
  · extract_lets +onlyGivenNames before
    split
    · split
      · exact h
      · extract_lets u v
        refine h.keep ((finishCmd_memories ..).trans ?_)
        unfold v
        split <;> simp [u]
    · exact h.keep
    · exact h

theorem execTaskPlacement_leavesGood : leavesGood (execTaskPlacement s) := by
  unfold execTaskPlacement
  split
  · exact h
  · split
    · exact h
    · split
      · exact h
      · split
        · split
          · exact h.keep
          · exact h
        · exact h

theorem execUnrootedEventTakesEffect_leavesGood : leavesGood (execUnrootedEventTakesEffect s) := by
  unfold execUnrootedEventTakesEffect
  split
  · exact h
  · split
    · split
      · exact h
      · extract_lets u
        have hu : memoryGood u := h.keep (updSplit_memories ..)
        split
        · exact takeTrap_memoryGood hu ..
        · exact hu
        · exact hu.keep
        · split
          · exact hu
          · exact hu.keep
        · extract_lets reason
          clear_value reason
          split
          · exact takeTrap_memoryGood (endStep_memoryGood hu ..) ..
          · exact hu.keep
    · exact h

theorem execContinuationResume_leavesGood : leavesGood (execContinuationResume s) := by
  unfold execContinuationResume
  split
  · exact h
  · split
    · extract_lets +onlyGivenNames runs
      split
      · exact h
      · split
        · exact h
        · exact h.keep (by simp)
    · exact h

theorem execGatheredLaunchStart_leavesGood : leavesGood (execGatheredLaunchStart s) := by
  unfold execGatheredLaunchStart
  split
  · exact h
  · split
    · exact h
    · exact h.keep (by simp)

theorem execHostSubmissionEntry_leavesGood : leavesGood (execHostSubmissionEntry s) := by
  unfold execHostSubmissionEntry
  split
  · exact h
  · extract_lets +onlyGivenNames ws g u
    split
    · exact h.keep (by simp [u])
    · exact h.keep (by simp [u])

theorem execHostLaunchRequest_leavesGood : leavesGood (execHostLaunchRequest s) := by
  unfold execHostLaunchRequest
  extract_lets +onlyGivenNames ctx
  split
  · extract_lets +onlyGivenNames u refuse
    have hrefuse (code : Nat) : memoryGood (refuse code) := h.keep (by simp [refuse, u])
    split
    · trivial
    · exact hrefuse _
    · extract_lets +onlyGivenNames ws code
      split
      · exact hrefuse _
      · exact h.keep (by simp [u])
  · exact h

theorem execSrtailDoorbell_leavesGood : leavesGood (execSrtailDoorbell s) := by
  unfold execSrtailDoorbell
  split
  · exact h
  · split
    · exact h.keep
    · exact h.keep

theorem execSupervisorEntry_leavesGood : leavesGood (execSupervisorEntry s) := by
  unfold execSupervisorEntry
  extract_lets +onlyGivenNames d c base cls q front onTrap onDebug
  have henter (n at' : Nat) (v : Word) : memoryGood (coreEnter front d n at' v) := h.keep (by simp [front])
  clear_value q
  split
  · exact h
  · split
    · exact henter ..
    · split
      · exact henter ..
      · exact henter ..
    · exact henter ..
    · split
      · exact h.keep
      · split
        · exact h.keep
        · exact h


omit h in
theorem ite_leavesGood (c : Prop) [Decidable c] {a b : Host.Outcome State Fault Refusal} (ha : leavesGood a)
    (hb : leavesGood b) : leavesGood (if c then a else b) := by
  split
  · exact ha
  · exact hb

/-- An event that happens when its condition holds. -/
theorem next_ite_leavesGood (c : Prop) [Decidable c] {t : State} (ht : memoryGood t) :
    leavesGood (if c then .next t else .next s) :=
  ite_leavesGood c ht h

theorem execCommit_leavesGood : leavesGood (execCommit s) := next_ite_leavesGood h _ (commitDomain_memoryGood h _)

theorem execSvdbDoorbell_leavesGood : leavesGood (execSvdbDoorbell s) := next_ite_leavesGood h _ h.keep

theorem execPreempt_leavesGood : leavesGood (execPreempt s) := ite_leavesGood _ h h.keep

theorem execDrainComplete_leavesGood : leavesGood (execDrainComplete s) := ite_leavesGood _ h (h.keep (by simp))

theorem execDrainDeadlineExpiry_leavesGood : leavesGood (execDrainDeadlineExpiry s) :=
  ite_leavesGood _ (h.keep (by simp)) (ite_leavesGood _ (h.keep (by simp)) h)

theorem execContextSpaceWrite_leavesGood : leavesGood (execContextSpaceWrite s) := next_ite_leavesGood h _ h.keep

theorem execProfilingBufferMove_leavesGood : leavesGood (execProfilingBufferMove s) := next_ite_leavesGood h _ h.keep

theorem execRecoveryImageSubmit_leavesGood : leavesGood (execRecoveryImageSubmit s) :=
  ite_leavesGood _ h (h.keep (by simp))

theorem execLinkDown_leavesGood : leavesGood (execLinkDown s) := next_ite_leavesGood h _ h.keep

theorem execLifetimeSecondTick_leavesGood : leavesGood (execLifetimeSecondTick s) := h.keep (by simp)

theorem execStallReasonCount_leavesGood : leavesGood (execStallReasonCount s) := by
  unfold execStallReasonCount
  split
  · exact h
  · exact ite_leavesGood _ h (h.keep (by simp))

theorem execSweliLinkRetrain_leavesGood : leavesGood (execSweliLinkRetrain s) := next_ite_leavesGood h _ h.keep

theorem execHostLinkRetrain_leavesGood : leavesGood (execHostLinkRetrain s) := next_ite_leavesGood h _ h.keep

theorem execDsackWrite_leavesGood : leavesGood (execDsackWrite s) := ite_leavesGood _ h h.keep

theorem execCareaWrite_leavesGood : leavesGood (execCareaWrite s) := next_ite_leavesGood h _ h.keep

theorem execDebugWindowAccess_leavesGood : leavesGood (execDebugWindowAccess s) :=
  next_ite_leavesGood h _ (debugWindow_memoryGood h ..)

theorem execPackageReset_leavesGood : leavesGood (execPackageReset s) :=
  ite_leavesGood _ (resetState_memoryGood h) (next_ite_leavesGood h _ h.keep)

theorem execHostLinkDown_leavesGood : leavesGood (execHostLinkDown s) := next_ite_leavesGood h _ (hostLost_memoryGood h _)

theorem execRegisterWrite_leavesGood : leavesGood (execRegisterWrite s) :=
  ite_leavesGood _ (h.keep (by simp)) (ite_leavesGood _ h (sysWrite_memoryGood h ..))

end
end Sys2Proof.Machine

namespace Sys2Proof.Machine
-- Theorems one after another: in parallel, the stacks of the waiting threads go past the checker's memory limit.
set_option Elab.async false

/-! ### Every step -/

/-- Every instruction and every event keeps the memories' canonical form. -/
theorem exec_leavesGood {s : State} (h : memoryGood s) (i : Instr) : leavesGood (exec i s) := by
  cases i
  all_goals dsimp only [exec]
  case smov | slit | sadd | ssub | smul | smulhs | smulhu | sand | sor | sxor | sandn | sshl | sshr | ssra | smin |
      smax | sminu | smaxu | saddLit | ssubLit | smulLit | smulhsLit | smulhuLit | sandLit | sorLit | sxorLit |
      sandnLit | sshlLit | sshrLit | ssraLit | sminLit | smaxLit | sminuLit | smaxuLit | scmp | scmpLit | snot | sneg
      | sabs | sclz | sctz | spop | sbrev | ssext8 | ssext16 | szext8 | szext16 | sbfxu | sbfxs | sbfi | slr | mpop |
      mfirst | mlast =>
    exact writeSlot_leavesGood h ..
  case sdiv | sdivu | srem | sremu => exact divisionSlot_leavesGood h ..
  case sld => exact execSld_leavesGood h ..
  case sst => exact execSst_leavesGood h ..
  case slrC => exact execSlrC_leavesGood h ..
  case mode => exact execMode_leavesGood h ..
  case modeg => exact execModeg_leavesGood h ..
  case modei => exact execModei_leavesGood h ..
  case mnot | mand | mor | mxor | mandn | mclr | mall => exact maskSlot_leavesGood h ..
  case br => exact execBr_leavesGood h ..
  case brv => exact execBrv_leavesGood h ..
  case call => exact execCall_leavesGood h ..
  case trapu => exact execTrapu_leavesGood h ..
  case vadd | vsub | vmul | vmulhs | vmulhu | vshl | vshr | vsra | vmin | vmax | vminu | vmaxu | vmad | vadds | vsubs
      | vmuls | vshls | vshrs | vsras | vmins | vmaxs | vneg | vabs =>
    exact elemSlot_leavesGood h ..
  case vand | vor | vxor | vandn | vands | vnot | vclz | vpop | vbrev | vsext8 | vsext16 | vmov =>
    exact laneSlot_leavesGood h ..
  case vfadds | vfmuls | vfmas | vfadd | vfsub | vfmul | vfmin | vfmax | vfcpys | vfma | vfms | vfnma | vfnms | vfabs
      | vfneg | vfrint | vftrunc | vffloor | vfceil | vfclass =>
    exact floatSlot_leavesGood h ..
  case vcmps | vcmpA | vcmpB => exact compareSlot_leavesGood h ..
  case vsel => exact execVsel_leavesGood h ..
  case vlane => exact execVlane_leavesGood h ..
  case vbcs => exact execVbcs_leavesGood h ..
  case vget => exact execVget_leavesGood h ..
  case vput => exact execVput_leavesGood h ..
  case vfcmp => exact execVfcmp_leavesGood h ..
  case vcvtLow | vcvtHigh => exact convertSlot_leavesGood h ..
  case vpack => exact execVpack_leavesGood h ..
  case vunpk => exact execVunpk_leavesGood h ..
  case vdot4i8 | vdot4u8 | vdot4f8a | vdot4f8b | vdot8i4 | vdot2f16 | vdot2bf16 => exact dotSlot_leavesGood h ..
  case vperm => exact execVperm_leavesGood h ..
  case vshx | vshu | vshd => exact crossSlot_leavesGood h ..
  case vred => exact execVred_leavesGood h ..
  case vscan => exact execVscan_leavesGood h ..
  case vld | vldh | vldb | vldc => exact laneLoadSlot_leavesGood h ..
  case vst | vsth | vstb | vstc => exact laneStoreSlot_leavesGood h ..
  case vatadd | vatand | vator | vatxor | vatmin | vatmax | vatxchg => exact atomicSlot_leavesGood h ..
  case vspill => exact execVspill_leavesGood h ..
  case vfill => exact execVfill_leavesGood h ..
  case bara => exact execBara_leavesGood h ..
  case barw => exact execBarw_leavesGood h ..
  case bar => exact execBar_leavesGood h ..
  case barcfg => exact execBarcfg_leavesGood h ..
  case lcvtL | lcvtF | lexp | lmul | ldiv | lsqrt | lrsq | lrcp | lpow | ladd | lsub | lfix | lflt =>
    exact logSlot_leavesGood h ..
  case cpy | cpy2 | gath | scat => exact copySlot_leavesGood h ..
  case cpsch => exact execCpsch_leavesGood h ..
  case cpstg => exact execCpstg_leavesGood h ..
  case cpcur => exact execCpcur_leavesGood h ..
  case mwld => exact execMwld_leavesGood h ..
  case mtbl => exact execMtbl_leavesGood h ..
  case mloop => exact execMloop_leavesGood h ..
  case mrd => exact execMrd_leavesGood h ..
  case mst => exact execMst_leavesGood h ..
  case mclrMatrix => exact execMclrMatrix_leavesGood h ..
  case mstat => exact execMstat_leavesGood h ..
  case task => exact execTask_leavesGood h ..
  case alloc => exact execAlloc_leavesGood h ..
  case free => exact execFree_leavesGood h ..
  case vgrow => exact execVgrow_leavesGood h ..
  case vshrk => exact execVshrk_leavesGood h ..
  case kbar => exact execKbar_leavesGood h ..
  case send => exact execSend_leavesGood h ..
  case recv => exact execRecv_leavesGood h ..
  case yield => exact execYield_leavesGood h ..
  case portcfg | patcfg | patset => exact configSlot_leavesGood h ..
  case phreg => exact execPhreg_leavesGood h ..
  case phdrop => exact execPhdrop_leavesGood h ..
  case phsig | phsigb | phany | phanyb => exact signalSlot_leavesGood h ..
  case phwait => exact execPhwait_leavesGood h ..
  case phstat => exact execPhstat_leavesGood h ..
  case gatom | gatomOrdered | gred => exact atomSlot_leavesGood h ..
  case mcst => exact execMcst_leavesGood h ..
  case coll => exact execColl_leavesGood h ..
  case gsync => exact execGsync_leavesGood h ..
  case rdsr => exact execRdsr_leavesGood h ..
  case wrsr => exact execWrsr_leavesGood h ..
  case tlbinv => exact execTlbinv_leavesGood h ..
  case phalloc => exact execPhalloc_leavesGood h ..
  case phfree => exact execPhfree_leavesGood h ..
  case treereq => exact execTreereq_leavesGood h ..
  case ctxsav => exact execCtxsav_leavesGood h ..
  case ctxld => exact execCtxld_leavesGood h ..
  case bkpt => exact slot_leavesGood h trivial
  case nop | root => exact slot_leavesGood h ⟨h, fun _ h => h⟩
  case ret => exact execRet_leavesGood h ..
  case recon => exact execRecon_leavesGood h ..
  case exit => exact execExit_leavesGood h ..
  case split => exact execSplit_leavesGood h ..
  case eret => exact execEret_leavesGood h ..
  case wfi => exact execWfi_leavesGood h ..
  case haltc => exact execHaltc_leavesGood h ..
  case tret => exact execTret_leavesGood h ..
  case tesc => exact execTesc_leavesGood h ..
  case divisionComplete => exact execDivisionComplete_leavesGood h ..
  case clauseStart => exact execClauseStart_leavesGood h ..
  case logOperationComplete => exact execLogOperationComplete_leavesGood h ..
  case copyCommandComplete => exact execCopyCommandComplete_leavesGood h ..
  case copyFault => exact execCopyFault_leavesGood h ..
  case matrixCommandComplete => exact execMatrixCommandComplete_leavesGood h ..
  case unrootedEventTakesEffect => exact execUnrootedEventTakesEffect_leavesGood h ..
  case taskPlacement => exact execTaskPlacement_leavesGood h ..
  case continuationResume => exact execContinuationResume_leavesGood h ..
  case commit => exact execCommit_leavesGood h ..
  case gatheredLaunchStart => exact execGatheredLaunchStart_leavesGood h ..
  case hostSubmissionEntry => exact execHostSubmissionEntry_leavesGood h ..
  case hostLaunchRequest => exact execHostLaunchRequest_leavesGood h ..
  case srtailDoorbell => exact execSrtailDoorbell_leavesGood h ..
  case svdbDoorbell => exact execSvdbDoorbell_leavesGood h ..
  case fnmapWrite | evtRead | tqactResume | tqactTerminate | tqactResumeAtTqrpc | dwdataAccess | measurementExtend |
      attestationQuote | unlockVerify | unlockVerifyComplete | unlockCommit | kwipe | checkpointSave |
      checkpointRestore | supplyDroop | lifetimeCounterPersist | correctedEccEvent | managementControllerCap |
      receiveTableWrite =>
    exact h.keep
  case supervisorEntry => exact execSupervisorEntry_leavesGood h ..
  case cfqactReplay | cfqactDecline => exact cfqactWrite_memoryGood h ..
  case preempt => exact execPreempt_leavesGood h ..
  case drainComplete => exact execDrainComplete_leavesGood h ..
  case drainDeadlineExpiry => exact execDrainDeadlineExpiry_leavesGood h ..
  case contextSpaceWrite => exact execContextSpaceWrite_leavesGood h ..
  case profilingBufferMove => exact execProfilingBufferMove_leavesGood h ..
  case profileSample => exact takeSample_memoryGood h ..
  case dqactResume | dqactStep | dqactTerminate | dqactHold => exact dqactWrite_memoryGood h ..
  case haltreq => exact haltRequest_memoryGood h ..
  case debugWindowAccess => exact execDebugWindowAccess_leavesGood h ..
  case attestationQuoteComplete => exact attestDone_memoryGood h
  case checkpointComplete => exact checkpointDone_memoryGood h ..
  case packageReset => exact execPackageReset_leavesGood h ..
  case recoveryImageSubmit => exact execRecoveryImageSubmit_leavesGood h ..
  case hostLinkDown => exact execHostLinkDown_leavesGood h ..
  case linkDown => exact execLinkDown_leavesGood h ..
  case uncorrectableError => exact machineError_memoryGood h ..
  case lifetimeSecondTick => exact execLifetimeSecondTick_leavesGood h ..
  case registerWrite => exact execRegisterWrite_leavesGood h ..
  case stallReasonCount => exact execStallReasonCount_leavesGood h ..
  case sweliLinkRetrain => exact execSweliLinkRetrain_leavesGood h ..
  case hostLinkRetrain => exact execHostLinkRetrain_leavesGood h ..
  case dsackWrite => exact execDsackWrite_leavesGood h ..
  case careaWrite => exact execCareaWrite_leavesGood h ..
  case replyEntryVisible => exact execReplyEntryVisible_leavesGood h ..

theorem issue_leavesGood {s : State} (h : memoryGood s) (who : Actor) : leavesGood (issue who s) := by
  have hu : memoryGood { s with actor := who } := h.keep
  unfold issue
  dsimp only
  split
  · exact hu
  · split
    · exact exec_leavesGood hu _
    · exact hu

theorem happen_leavesGood {s : State} (h : memoryGood s) (i : Instr) (a : EventArg) : leavesGood (happen i a s) := by
  have hu : memoryGood { s with arg := a } := h.keep
  exact ite_leavesGood _ hu (exec_leavesGood hu i)

theorem take_leavesGood {s : State} (h : memoryGood s) (t : Turn) : leavesGood (take t s) := by
  cases t with
  | issue who => exact issue_leavesGood h who
  | event i a => exact happen_leavesGood h i a

theorem wake_memoryGood {s : State} (h : memoryGood s) : memoryGood (wake s) := by
  have hf := foldl_memoryGood (fun _ t h => settleRace_memoryGood h t) (Table.keys s.teams) h
  exact hf.keep (wakeStalled_memories _)

theorem nextTurn_memoryGood {s : State} (h : memoryGood s) : memoryGood (nextTurn s).1 := by
  unfold nextTurn
  split
  · exact h.keep
  · split
    · exact h
    · exact wake_memoryGood h

theorem step_leavesGood {s : State} (h : memoryGood s) : leavesGood (step s) := by
  have hu : memoryGood { (nextTurn s).1 with ticks := s.ticks + 1 } := (nextTurn_memoryGood h).keep (by simp)
  unfold step
  dsimp only
  split
  · exact take_leavesGood hu _
  · exact hu

/-- Settles O48: every operation either leaves the memories as they are, or writes them with an operation that keeps the
canonical form. -/
theorem everyStepKeepsMemoryCanonical : Obligations.EveryStepKeepsMemoryCanonical := by
  intro s t h ht
  have hs := step_leavesGood h
  rw [ht] at hs
  exact hs

end Sys2Proof.Machine

namespace Sys2Proof.Machine
-- Theorems one after another: in parallel, the stacks of the waiting threads go past the checker's memory limit.
set_option Elab.async false

/-! ### The bytes of uniform loads and stores -/

/-- The `n` bytes of a register are its bit fields. -/
theorem leBytes_word (n : Nat) (x : Word) : leBytes n x.toNat = (List.range n).map fun k => x.extractLsb' (8 * k) 8 := by
  have step (n m : Nat) : leBytes n m = (List.range n).map fun k => BitVec.ofNat 8 (m / 256 ^ k) := by
    induction n generalizing m with
    | zero => rfl
    | succ n ih => simp [leBytes, ih, List.range_succ_eq_map, Nat.pow_succ', Nat.div_div_eq_div_mul]
  rw [step]
  refine List.map_congr_left fun k _ => BitVec.eq_of_toNat_eq ?_
  simp [BitVec.extractLsb'_toNat, Nat.shiftRight_eq_div_pow, Nat.pow_mul]

theorem Sparse.length_read {α : Type} (d : α) (m : Sparse α) (k n : Nat) : (Sparse.read d m k n).length = n := by
  simp [Sparse.read, Sparse.readF]

theorem length_spadRead (s : State) (w : Who) (t off n : Nat) : (spadRead s w t off n).length = n := by
  unfold spadRead
  split
  · split
    · exact Sparse.length_read ..
    · unfold epochBytes teamBytes
      dsimp only
      split
      · exact Sparse.length_read ..
      · simp
  · simp

theorem length_physRead (s : State) (want a n : Nat) : (physRead s want a n).length = n := by
  unfold physRead memRead
  split <;> simp [Sparse.readF]

/-- A word of at most `n` bits is its own zero extension from `n` bits. -/
theorem zeroExt_bytesWord (bs : List Byte) {n : Nat} (hn : 8 * bs.length = n) (h32 : n ≤ 32) :
    zeroExt n (bytesWord bs) = bytesWord bs := by
  have hlt : leNat bs < 2 ^ n := by
    have := leNat_lt bs
    rwa [show 256 = 2 ^ 8 by rfl, ← Nat.pow_mul, hn] at this
  have h32' : leNat bs < 2 ^ 32 := hlt.trans_le (Nat.pow_le_pow_right (by omega) h32)
  refine BitVec.eq_of_toNat_eq ?_
  have hb : (bytesWord bs).toNat = leNat bs := by
    rw [bytesWord, BitVec.toNat_ofNat, Nat.mod_eq_of_lt h32']
  rw [zeroExt, BitVec.toNat_setWidth, BitVec.toNat_setWidth, hb, Nat.mod_eq_of_lt hlt, Nat.mod_eq_of_lt h32']

theorem signExt_eq (n : Nat) (hn : n ≤ 32) (v : Word) : signExt n v = (v.extractLsb' 0 n).signExtend 32 := by
  rw [signExt, BitVec.setWidth_eq_extractLsb' hn]

/-- The loads of SLD, their sizes, and what they make of the bytes they read. -/
def loadForms (sd sa : SReg) (off : Word) : List (Instr × Nat × (Word → Word)) :=
  [(.sld sd sa .w off, 4, fun v => v), (.sld sd sa .h off, 2, fun v => v),
    (.sld sd sa .hs off, 2, fun v => (v.extractLsb' 0 16).signExtend 32), (.sld sd sa .b off, 1, fun v => v),
    (.sld sd sa .bs off, 1, fun v => (v.extractLsb' 0 8).signExtend 32)]

/-- The stores of SST and their sizes. -/
def storeForms (sd sa : SReg) (off : Word) : List (Instr × Nat) :=
  [(.sst sd sa .w off, 4), (.sst sd sa .h off, 2), (.sst sd sa .b off, 1)]

theorem loadForms_cases {sd sa : SReg} {off : Word} {r : Instr × Nat × (Word → Word)} (h : r ∈ loadForms sd sa off) :
    ∃ width ext, r = (.sld sd sa width off, loadBytes width, ext) ∧
      ∀ bs : List Byte, bs.length = loadBytes width → ext (bytesWord bs) = loadExt width (bytesWord bs) := by
  simp only [loadForms, List.mem_cons, List.not_mem_nil, or_false] at h
  obtain rfl | rfl | rfl | rfl | rfl := h
  · exact ⟨.w, _, rfl, fun _ _ => rfl⟩
  · exact ⟨.h, _, rfl, fun bs hb => (zeroExt_bytesWord bs (n := 16) (by simp [hb, loadBytes]) (by omega)).symm⟩
  · exact ⟨.hs, _, rfl, fun bs _ => (signExt_eq 16 (by omega) _).symm⟩
  · exact ⟨.b, _, rfl, fun bs hb => (zeroExt_bytesWord bs (n := 8) (by simp [hb, loadBytes]) (by omega)).symm⟩
  · exact ⟨.bs, _, rfl, fun bs _ => (signExt_eq 8 (by omega) _).symm⟩

theorem storeForms_cases {sd sa : SReg} {off : Word} {r : Instr × Nat} (h : r ∈ storeForms sd sa off) :
    ∃ width, r = (.sst sd sa width off, widthBytes width) := by
  simp only [storeForms, List.mem_cons, List.not_mem_nil, or_false] at h
  obtain rfl | rfl | rfl := h
  · exact ⟨.w, rfl⟩
  · exact ⟨.h, rfl⟩
  · exact ⟨.b, rfl⟩

/-- A load or a store, with its size. -/
theorem accessForms_cases {sd sa : SReg} {off : Word} {r : Instr × Nat}
    (h : r ∈ (loadForms sd sa off).map (fun r => (r.1, r.2.1)) ++ storeForms sd sa off) :
    (∃ width, r = (.sld sd sa width off, loadBytes width)) ∨ ∃ width, r = (.sst sd sa width off, widthBytes width) := by
  simp only [List.mem_append, List.mem_map] at h
  obtain ⟨l, hl, rfl⟩ | h := h
  · obtain ⟨width, ext, rfl, -⟩ := loadForms_cases hl
    exact .inl ⟨width, rfl⟩
  · exact .inr (storeForms_cases h)

/-! ### Accesses of a split -/

theorem placeOne_at {s : State} {w : Who} {a n t o : Nat} (h : locate s w a n = .at t o) (ha : a % n = 0) :
    placeOne s w a n = .ok (t, o) := by
  simp [placeOne, h, ha]

theorem placeOne_misaligned {s : State} {w : Who} {a n t o : Nat} (h : locate s w a n = .at t o) (ha : a % n ≠ 0) :
    placeOne s w a n = .error { cls := 4, cause := 2, d0 := word a, d1 := word w.grp.size } := by
  simp [placeOne, h, ha]

theorem placeOne_out {s : State} {w : Who} {a n limit : Nat} (h : locate s w a n = .out limit) :
    placeOne s w a n = .error { cls := 4, cause := 1, d0 := word a, d1 := word limit } := by
  simp [placeOne, h]

section
variable {s : State} {w : Who} {c : Clause} {i : Instr} (h : issues s w c i)
include h

theorem loadBody_split (sd sa : SReg) (off : Word) (n : Nat) (ext : Word → Word) :
    loadBody sd sa off n ext s = .bind (placeOne s w (uread s sa.toNat + off).toNat n) fun p =>
      if heldAccess s w [⟨p.1, p.2, n, 0⟩] then .stall 7
      else .ok { s := uwrite s sd.toNat (ext (bytesWord (spadRead s w p.1 p.2 n))), accs := [⟨p.1, p.2, n, 0⟩]
                 looks := [localLook (uread s sa.toNat + off).toNat n noLane true false] } := by
  have ha := h.1
  simp only [loadBody, ha, withWho_issues h]

theorem storeBody_split (sd sa : SReg) (off : Word) (n : Nat) :
    storeBody sd sa off n s = .bind (placeOne s w (uread s sa.toNat + off).toNat n) fun p =>
      if heldAccess s w [⟨p.1, p.2, n, 1⟩] then .stall 7
      else .ok { s := spadWrite s w p.1 p.2 (leBytes n (uread s sd.toNat).toNat), accs := [⟨p.1, p.2, n, 1⟩]
                 looks := [localLook (uread s sa.toNat + off).toNat n noLane false true] } := by
  have ha := h.1
  simp only [storeBody, ha, withWho_issues h]

end

/-- A place that an access cannot have is its trap. -/
theorem access_traps {s : State} {w : Who} {c : Clause} {sd sa : SReg} {off : Word} {r : Instr × Nat}
    (hr : r ∈ (loadForms sd sa off).map (fun r => (r.1, r.2.1)) ++ storeForms sd sa off) {t : Trap}
    (ht : placeOne s w (uread s sa.toNat + off).toNat r.2 = .error t) : trapsOnSplit s w c r.1 t := by
  intro h
  obtain ⟨width, rfl⟩ | ⟨width, rfl⟩ := accessForms_cases hr
  · refine slot_trap h ?_
    rw [loadBody_split h, ht, Res.bind]
  · refine slot_trap h ?_
    rw [storeBody_split h, ht, Res.bind]

/-! ### Accesses of a control core -/

/-- A slot of a control core whose body traps takes the trap. -/
theorem slot_core_trap {s : State} {d : Nat} {c : Clause} {i : Instr} {body : State → Res} {t : Trap}
    (h : coreIssues s d c i) (hb : body s = .trap t) : slot i body s = .next (coreTrap s d t.cls t.cause) := by
  obtain ⟨ha, hc, hon, hz, -⟩ := h
  simp [slot, ha, hc, coreSlot, hon, hz, hb]

theorem corePlace_local (c : Core) {a n : Nat} (h : a + n ≤ 0x40000) : corePlace c a n = .loc a := if_pos h

theorem corePlace_window (c : Core) {a n : Nat} (ha : 0x1000000 ≤ a) (h : a + n ≤ 0x2000000) :
    corePlace c a n = .pa (bits (Sparse.get 0 c.sys 5) 15 0 * 2 ^ 24 + (a - 0x1000000)) := by
  simp [corePlace, show ¬ a + n ≤ 0x40000 by omega, ha, h]

theorem corePlace_bad (c : Core) {a n : Nat} (h : 0x40000 < a + n) (hw : a < 0x1000000 ∨ 0x2000000 < a + n) :
    corePlace c a n = .bad := by
  have hno : ¬ (0x1000000 ≤ a ∧ a + n ≤ 0x2000000) := by omega
  simp [corePlace, show ¬ a + n ≤ 0x40000 by omega, hno]

section
variable {s : State} {d a n : Nat} {f : CoreSpace → Res}

theorem coreAccess_local (h : a + n ≤ 0x40000) (ha : a % n = 0) : coreAccess s d a n f = f (.loc a) := by
  simp [coreAccess, corePlace_local _ h, ha]

theorem coreAccess_window (hlo : 0x1000000 ≤ a) (h : a + n ≤ 0x2000000) (ha : a % n = 0)
    (hm : bits (Sparse.get 0 (coreOf s d).sys 5) 15 0 * 2 ^ 24 + (a - 0x1000000) + n ≤ memSize s) :
    coreAccess s d a n f = f (.pa (bits (Sparse.get 0 (coreOf s d).sys 5) 15 0 * 2 ^ 24 + (a - 0x1000000))) := by
  rw [coreAccess, corePlace_window _ hlo h]
  simp only [ha, ne_eq, not_true_eq_false, if_false, if_neg (Nat.not_lt.2 hm)]

theorem coreAccess_bad (h : 0x40000 < a + n) (hw : a < 0x1000000 ∨ 0x2000000 < a + n) :
    coreAccess s d a n f = .trap { cls := 4, cause := 1, d0 := word a } := by
  simp [coreAccess, corePlace_bad _ h hw]

theorem coreAccess_misaligned (h : a + n ≤ 0x40000 ∨ (0x1000000 ≤ a ∧ a + n ≤ 0x2000000)) (ha : a % n ≠ 0) :
    coreAccess s d a n f = .trap { cls := 4, cause := 2, d0 := word a } := by
  obtain h | ⟨hlo, h⟩ := h
  · simp [coreAccess, corePlace_local _ h, ha]
  · simp [coreAccess, corePlace_window _ hlo h, ha]

end

/-- An access that traps, wherever the core's map sends it, is a trap of the core. -/
theorem access_traps_core {s : State} {d : Nat} {c : Clause} {sd sa : SReg} {off : Word} {r : Instr × Nat}
    (hr : r ∈ (loadForms sd sa off).map (fun r => (r.1, r.2.1)) ++ storeForms sd sa off) {t : Trap}
    (ht : ∀ f, coreAccess s d (uread s sa.toNat + off).toNat r.2 f = .trap t) : trapsOnCore s d c r.1 t.cls t.cause := by
  intro h
  have ha := h.1
  obtain ⟨width, rfl⟩ | ⟨width, rfl⟩ := accessForms_cases hr
  · refine slot_core_trap h ?_
    simp only [loadBody, ha, ht]
  · refine slot_core_trap h ?_
    simp only [storeBody, ha, ht]

/-! ### What a store by a control core does to package memory -/

theorem rekeyUnit_launches (s : State) (l : Table Launch) (v : List SavedCtx) (want unit : Nat) :
    rekeyUnit { s with launches := l, saved := v } want unit = { rekeyUnit s want unit with launches := l, saved := v } := by
  unfold rekeyUnit
  split <;> rfl

theorem foldl_rekeyUnit_launches (l : Table Launch) (v : List SavedCtx) (want : Nat) (us : List Nat) (s : State) :
    us.foldl (fun s u => rekeyUnit s want u) { s with launches := l, saved := v } =
      { us.foldl (fun s u => rekeyUnit s want u) s with launches := l, saved := v } := by
  induction us generalizing s with
  | nil => rfl
  | cons u us ih =>
    rw [List.foldl_cons, rekeyUnit_launches]
    exact ih _

theorem physWrite_launches (s : State) (l : Table Launch) (v : List SavedCtx) (want a : Nat) (bs : List Byte) :
    (physWrite { s with launches := l, saved := v } want a bs).mem = (physWrite s want a bs).mem := by
  unfold physWrite
  split
  · rfl
  · dsimp only
    rw [foldl_rekeyUnit_launches]
    rfl

theorem mergeWords_mem (s : State) (pa n : Nat) : (mergeWords s pa n).mem = s.mem := by
  unfold mergeWords
  split <;> rfl

/-- A store keeps the old bytes for the launches that may still read them, and writes the bytes. -/
theorem storeCore_mem (s : State) (key pa : Nat) (bs : List Byte) :
    (storeCore s key pa bs).mem = (physWrite s key pa bs).mem := by
  rw [storeCore]
  exact (mergeWords_mem ..).trans (physWrite_launches ..)

/-- Settles O11: an access finds its place first, and then waits, traps, loads or stores. -/
theorem uniformLoadsAndStores : Obligations.UniformLoadsAndStores := by
  unfold Obligations.UniformLoadsAndStores
  refine ⟨fun s w c sd sa off => ⟨fun r hr t o hl ha => ?_, fun r hr t o hl ha => ?_, fun r hr => ⟨fun limit hl => ?_,
    fun t o hl ha => ?_⟩⟩, fun s d c sd sa off => ⟨fun r hr ha => ?_, fun r hr ha => ?_, fun r hr => ⟨fun hb hw => ?_,
    fun hm ha => ?_⟩⟩⟩
  · obtain ⟨width, ext, rfl, he⟩ := loadForms_cases hr
    refine ⟨fun hh h => ?_, fun hh h hc => ?_⟩
    · refine slot_settle h ?_ (by simp) (by simp)
      rw [loadBody_split h, placeOne_at hl ha]
      exact if_pos hh
    · dsimp only at hh hc ⊢
      rw [he _ (length_spadRead ..)] at hc ⊢
      refine slot_ok h ?_ hc
      rw [loadBody_split h, placeOne_at hl ha]
      exact if_neg (by simp [hh])
  · obtain ⟨width, rfl⟩ := storeForms_cases hr
    refine ⟨fun hh h => ?_, fun hh h hc => ?_⟩
    · refine slot_settle h ?_ (by simp) (by simp)
      rw [storeBody_split h, placeOne_at hl ha]
      exact if_pos hh
    · rw [← leBytes_word] at hc ⊢
      refine slot_ok h ?_ hc
      rw [storeBody_split h, placeOne_at hl ha]
      exact if_neg (by simp [hh])
  · exact access_traps hr (placeOne_out hl)
  · exact access_traps hr (placeOne_misaligned hl ha)
  · obtain ⟨width, ext, rfl, he⟩ := loadForms_cases hr
    refine ⟨fun hb h => ?_, fun hlo hhi hm h => ?_⟩
    · dsimp only
      rw [he _ (Sparse.length_read ..)]
      refine slot_core h ?_
      simp only [loadBody, h.1, coreAccess_local hb ha, Res.done]
    · dsimp only
      rw [he _ (length_physRead ..)]
      refine slot_core h ?_
      simp only [loadBody, h.1, coreAccess_window hlo hhi ha hm, Res.done]
  · obtain ⟨width, rfl⟩ := storeForms_cases hr
    refine ⟨fun hb h => ?_, fun hlo hhi hm => ⟨storeCore_mem .., fun h => ?_⟩⟩
    · dsimp only
      rw [← leBytes_word]
      refine slot_core h ?_
      simp only [storeBody, h.1, coreAccess_local hb ha, Res.done]
    · dsimp only
      rw [← leBytes_word]
      refine slot_core h ?_
      simp only [storeBody, h.1, coreAccess_window hlo hhi ha hm, Res.done]
  · exact access_traps_core hr (t := { cls := 4, cause := 1, d0 := word _ }) fun f => coreAccess_bad hb hw
  · exact access_traps_core hr (t := { cls := 4, cause := 2, d0 := word _ }) fun f => coreAccess_misaligned hm ha

end Sys2Proof.Machine

namespace Sys2Proof.Machine
-- Theorems one after another: in parallel, the stacks of the waiting threads go past the checker's memory limit.
set_option Elab.async false

/-! ### A table that lists one number twice

`Table.find` answers the first unit of a number, and nothing in a `State` says that a number is listed once. -/

/-- A conflict of siblings that waits to be reported. -/
def oldConflict : SibConflict :=
  { clock := 0, klane := 0, kind := 0, item := 0, lo := 0, hi := 0, loSplit := 0, hiSplit := 0 }

/-- A group that issues, and number 9 listed twice: first for a group of another team, with a conflict, and then for a
group of the issuing group's team. -/
def listedTwice : State :=
  let s := placeOnGroup State.reset (encode .nop)
  let other : Group := { task := 3, team := 1, gidx := 1, slot := 1, vcount := 8, splits := [], sibRaces := [oldConflict] }
  { s with groups := s.groups ++ [(9, other), (9, { other with team := 4, sibRaces := [] })] }

/-- The issuer of that state is ready and not stepped, in the team that it names. -/
theorem listedTwice_issuer : ∃ u, whoOf listedTwice 5 0 = some u ∧ u.g = 5 ∧ u.x = 0 ∧ u.sp.step = false ∧
    u.sp.mode = .ready ∧ noConflicts listedTwice u ∧
    Table.find (slotDone u (placedClause (encode .nop)) .nop { s := listedTwice }).groups 9 ≠
      Table.find listedTwice.groups 9 := by
  have h : (match whoOf listedTwice 5 0 with
      | some u => decide (u.g = 5 ∧ u.x = 0 ∧ u.sp.step = false ∧ u.sp.mode = .ready ∧
          (u.team.conflict = none ∧ ∀ e ∈ listedTwice.groups, e.2.team = u.grp.team → e.2.sibRaces = []) ∧
          Table.find (slotDone u (placedClause (encode .nop)) .nop { s := listedTwice }).groups 9 ≠
            Table.find listedTwice.groups 9)
      | none => false) = true := by decide +kernel
  split at h
  · next u hu =>
    have hfacts := of_decide_eq_true h
    exact ⟨u, hu, hfacts⟩
  · contradiction

/-- Refutes O52: where the table of groups lists number 9 twice, first for a group of another team with a conflict of its
own and then for a group of the issuing team, retirement settles the conflict of the first, which `noConflicts` does not
reach, and so changes another group. -/
theorem not_registerWritesAndRetirementFrames : ¬ Obligations.RegisterWritesAndRetirementFrames := by
  unfold Obligations.RegisterWritesAndRetirementFrames
  rintro ⟨-, -, -, hretire⟩
  obtain ⟨u, hu, hg, hx, hstep, hmode, hcalm, hne⟩ := listedTwice_issuer
  obtain ⟨v, -, -, -, -, -, -, -, -, -, -, -, -, -, -, -, -, hgroups⟩ :=
    hretire u (placedClause (encode .nop)) .nop { s := listedTwice } u rfl rfl (by rw [hg, hx]; exact hu) rfl hstep hmode hcalm
  exact hne (hgroups 9 (by omega))

end Sys2Proof.Machine

namespace Sys2Proof.Machine
-- Theorems one after another: in parallel, the stacks of the waiting threads go past the checker's memory limit.
set_option Elab.async false

/-! ### What a wake-up leaves of a group -/

/-- A table whose units are all changed. -/
theorem Table.find_map {α β : Type} (f : α → β) (m : Table α) (k : Nat) :
    Table.find (m.map fun e => (e.1, f e.2)) k = (Table.find m k).map f := by
  induction m with
  | nil => rfl
  | cons e m ih =>
    by_cases h : e.1 = k
    · simp [Table.find, h]
    · simpa [Table.find, h] using ih

/-- A unit that a filter keeps is found in what the filter leaves. -/
theorem Table.find_filter_of_keep {α : Type} {m : Table α} {k : Nat} {v : α} (p : Nat × α → Bool)
    (h : Table.find m k = some v) (hp : p (k, v) = true) : Table.find (m.filter p) k = some v := by
  induction m with
  | nil => contradiction
  | cons e m ih =>
    obtain ⟨j, w⟩ := e
    by_cases hj : j = k
    · subst hj
      obtain rfl : w = v := by simpa [Table.find] using h
      simp [hp, Table.find]
    · have hm : Table.find m k = some v := by simpa [Table.find, hj] using h
      by_cases hw : p (j, w) = true
      · simp [hw, Table.find, hj, ih hm]
      · simp [hw, ih hm]

/-- Split `q` has the lanes, the mask, the flags and the pending registers of `p`. -/
def Split.like (p q : Split) : Prop := q.lanes = p.lanes ∧ q.mask = p.mask ∧ q.fps = p.fps ∧ q.pend = p.pend

/-- Group `h` has the registers, the flags and the kept values of `g`, and for each of its splits one like it. -/
def Group.like (g h : Group) : Prop :=
  h.u = g.u ∧ h.v = g.v ∧ h.flags = g.flags ∧ h.kept = g.kept ∧
    ∀ x p, Table.find g.splits x = some p → ∃ q, Table.find h.splits x = some q ∧ p.like q

theorem Split.like_refl (p : Split) : p.like p := ⟨rfl, rfl, rfl, rfl⟩

theorem Split.like.trans {p q r : Split} (h : p.like q) (k : q.like r) : p.like r := by
  obtain ⟨h1, h2, h3, h4⟩ := h
  obtain ⟨k1, k2, k3, k4⟩ := k
  exact ⟨k1.trans h1, k2.trans h2, k3.trans h3, k4.trans h4⟩

theorem Group.like_refl (g : Group) : g.like g := ⟨rfl, rfl, rfl, rfl, fun _ p h => ⟨p, h, Split.like_refl p⟩⟩

theorem Group.like.trans {g h k : Group} (a : g.like h) (b : h.like k) : g.like k := by
  obtain ⟨a1, a2, a3, a4, as⟩ := a
  obtain ⟨b1, b2, b3, b4, bs⟩ := b
  refine ⟨b1.trans a1, b2.trans a2, b3.trans a3, b4.trans a4, fun x p hp => ?_⟩
  obtain ⟨q, hq, hpq⟩ := as x p hp
  obtain ⟨r, hr, hqr⟩ := bs x q hq
  exact ⟨r, hr, hpq.trans hqr⟩

/-- Changing every split into one like it. -/
theorem Group.like_map (g : Group) (f : Split → Split) (hf : ∀ p : Split, p.like (f p)) (stack : List Nat) :
    g.like { g with stack, splits := g.splits.map fun e => (e.1, f e.2) } :=
  ⟨rfl, rfl, rfl, rfl, fun x p h => ⟨f p, by simp [Table.find_map, h], hf p⟩⟩

theorem Group.like_stack (g : Group) (stack : List Nat) : g.like { g with stack } :=
  ⟨rfl, rfl, rfl, rfl, fun _ p h => ⟨p, h, Split.like_refl p⟩⟩

/-- Giving one split an entry of the table. -/
theorem Group.like_seat (g : Group) (x e : Nat) (stack : List Nat) :
    g.like { g with stack, splits := Table.upd g.splits x fun sp => { sp with entry := some e } } := by
  refine ⟨rfl, rfl, rfl, rfl, fun y p h => ?_⟩
  by_cases hy : y = x
  · subst hy
    exact ⟨{ p with entry := some e }, by simp [h], p.like_refl⟩
  · exact ⟨p, by simp [Table.find_upd_ne _ _ hy, h], p.like_refl⟩

theorem fillEntries_like (n : Nat) : ∀ g : Group, g.like (fillEntries n g) := by
  induction n with
  | zero => exact Group.like_refl
  | succ n ih =>
    intro g
    unfold fillEntries
    split
    · exact g.like_refl
    · split
      · exact g.like_refl
      · exact (g.like_seat ..).trans (ih _)

theorem yieldEntries_like (g : Group) : g.like (yieldEntries g) := by
  have h := g.like_map (fun p => if p.leaves || (!g.stack.isEmpty && p.yields) then { p with entry := none } else p)
    (fun p => by split <;> exact Split.like_refl p) g.stack
  exact h.trans (fillEntries_like 4 _)

theorem seatSplit_like (g : Group) (x : Nat) : g.like (seatSplit g x) := by
  unfold seatSplit
  split
  · exact g.like_refl
  · split
    · exact g.like_refl
    · split
      · exact g.like_seat ..
      · exact g.like_stack _

theorem foldl_seatSplit_like (xs : List Nat) : ∀ g : Group, g.like (xs.foldl seatSplit g) := by
  induction xs with
  | nil => exact Group.like_refl
  | cons x xs ih => exact fun g => (seatSplit_like g x).trans (ih _)

theorem reseat_like (g : Group) : g.like (reseat g) :=
  ((g.like_stack _).trans (yieldEntries_like _)).trans ((foldl_seatSplit_like _ _).trans (yieldEntries_like _))

theorem relSplit_like (p : Mode → Bool) (t : Nat) (sp : Split) : sp.like (relSplit p t sp) := by
  unfold relSplit
  split <;> exact sp.like_refl

/-- What a wake-up makes of a group. -/
def wokenGroup (sel : Group → Bool) (p : Mode → Bool) (t : Nat) (g : Group) : Group :=
  if sel g && g.splits.any fun e => e.2.waits p then
    reseat { g with splits := g.splits.map fun e => (e.1, relSplit p t e.2) }
  else g

theorem wokenGroup_like (sel : Group → Bool) (p : Mode → Bool) (t : Nat) (g : Group) : g.like (wokenGroup sel p t g) := by
  unfold wokenGroup
  split
  · exact (g.like_map _ (relSplit_like p t) g.stack).trans (reseat_like _)
  · exact g.like_refl

theorem releaseWhere_groups (s : State) (sel : Group → Bool) (p : Mode → Bool) (t : Nat) :
    (releaseWhere s sel p t).groups = s.groups.map fun e => (e.1, wokenGroup sel p t e.2) := by
  refine List.map_congr_left fun e _ => ?_
  unfold wokenGroup
  dsimp only
  split <;> rfl

/-- A wake-up leaves registers, flags and kept values, and of each split its lanes, mask, flags and pending registers. -/
theorem wakeStalled_like {s : State} {g : Nat} {grp : Group} (h : Table.find s.groups g = some grp) :
    ∃ grp', Table.find (wakeStalled s).groups g = some grp' ∧ grp.like grp' := by
  rw [wakeStalled, releaseWhere_groups, Table.find_map, h]
  exact ⟨_, rfl, wokenGroup_like ..⟩

/-! ### What a completed command leaves -/

theorem pruneCmds_find {s : State} {id : Nat} {k : Cmd} (h : Table.find s.cmds id = some k) (ht : k.time = none) :
    Table.find (pruneCmds s).cmds id = some k :=
  Table.find_filter_of_keep _ h (by simp [spent, ht])

/-- A completed command is finished; it lowers its flag where its results have been delivered, and stays where its logical
time is not fixed. -/
theorem finishCmd_lands {s : State} {id : Nat} {k : Cmd} {outs : List (Nat × Nat × Nat × Word)} {grp : Group}
    (hk : Table.find (deliver s k outs).cmds id = some k) (hf : k.finished = false)
    (hg : Table.find (deliver s k outs).groups k.group = some grp) :
    (k.time = none → Table.find (finishCmd s id k outs).cmds id = some { k with finished := true }) ∧
      ∃ grp', Table.find (finishCmd s id k outs).groups k.group = some grp' ∧
        Group.like { grp with flags := Sparse.set 0 grp.flags k.flag (Sparse.get 0 grp.flags k.flag - 1) } grp' := by
  rw [finishCmd, if_neg (by simp [hf])]
  refine ⟨fun ht => pruneCmds_find (k := { k with finished := true }) ?_ ht, wakeStalled_like ?_⟩
  · simp [updCmd, lowerFlag, wakeStalled, releaseWhere, hk]
  · simp [lowerFlag.flagCount, hg]

theorem finishCmd_teams (s : State) (id : Nat) (k : Cmd) (outs : List (Nat × Nat × Nat × Word)) (hf : k.finished = false) :
    (finishCmd s id k outs).teams = (deliver s k outs).teams := by
  rw [finishCmd, if_neg (by simp [hf])]
  simp only [pruneCmds, updCmd, lowerFlag, wakeStalled, releaseWhere, updGroup_teams]

theorem mem_of_memories {s t : State} (e : memories t = memories s) : t.mem = s.mem := by
  simp only [memories, Prod.mk.injEq] at e
  exact e.2.1

theorem finishCmd_mem (s : State) (id : Nat) (k : Cmd) (outs : List (Nat × Nat × Nat × Word)) :
    (finishCmd s id k outs).mem = s.mem :=
  mem_of_memories (finishCmd_memories ..)

/-- What a write of a uniform register leaves of the writer's group and split. -/
theorem groupWrite_group {s : State} {g x n : Nat} {grp : Group} {sp : Split} (v : Word)
    (hg : Table.find s.groups g = some grp) (hs : Table.find grp.splits x = some sp) (hn : n < 1024) :
    ∃ grp' sp', Table.find (groupWrite s g x n v).groups g = some grp' ∧ Table.find grp'.splits x = some sp' ∧
      grp'.v = grp.v ∧ grp'.flags = grp.flags ∧ grp'.kept = grp.kept ∧ sp'.pend = sp.pend ∧
      (n ≠ 1023 → sp'.fps = sp.fps) ∧ (n = 1023 → sp'.fps = v &&& 0x3F) ∧
      (n = 0 ∨ 3 < n → sp'.mask = sp.mask) ∧ (1 ≤ n → n ≤ 3 → sp'.mask = setMaskWord sp (n - 1) v) ∧
      (4 ≤ n → n < 1008 → Sparse.get 0 grp'.u n = v) ∧
      ∀ m, m ≠ n ∨ m < 4 ∨ 1008 ≤ m → Sparse.get 0 grp'.u m = Sparse.get 0 grp.u m := by
  unfold groupWrite
  split
  · exact ⟨grp, sp, hg, hs, by grind⟩
  · split
    · refine ⟨_, { sp with mask := setMaskWord sp (n - 1) v }, by rw [updSplit_groups, Table.find_upd, hg]; rfl,
        by simp [hs], ?_⟩
      grind
    · split
      · refine ⟨{ grp with u := Sparse.set 0 grp.u n v }, sp, by rw [updGroup_groups, Table.find_upd, hg]; rfl, hs, ?_⟩
        refine ⟨rfl, rfl, rfl, rfl, fun _ => rfl, by omega, fun _ => rfl, by omega, fun _ _ => by simp, fun m hm => ?_⟩
        exact Sparse.get_set_ne _ _ _ (by omega)
      · split
        · exact ⟨grp, sp, hg, hs, by grind⟩
        · refine ⟨_, { sp with fps := v &&& 0x3F }, by rw [updSplit_groups, Table.find_upd, hg]; rfl, by simp [hs], ?_⟩
          grind

theorem groupWrite_cmds (s : State) (g x n : Nat) (v : Word) : (groupWrite s g x n v).cmds = s.cmds := by
  unfold groupWrite
  repeat' split
  all_goals rfl

theorem groupWrite_teams (s : State) (g x n : Nat) (v : Word) : (groupWrite s g x n v).teams = s.teams := by
  unfold groupWrite
  repeat' split
  all_goals rfl

/-- A quotient is kept from the registers' old value and written to its register. -/
theorem deliver_uniform {s : State} {k : Cmd} {x : Nat} {sp : Split} (ht : takers s k = [(x, sp)]) (v : Word) :
    deliver s k (uniformOuts k.sd [v]) =
      groupWrite (updGroup s k.group fun grp => grp.keep [(0, k.sd, 0, v)]) k.group x k.sd v := by
  have ho : uniformOuts k.sd [v] = [(0, k.sd, 0, v)] := rfl
  simp [deliver, ho, ht]

theorem keep_uniform (grp : Group) (n : Nat) (v : Word) (h : ∀ e ∈ grp.kept, e.1 ≠ 0 ∨ e.2.1 ≠ n) (h4 : 4 ≤ n)
    (h1008 : n < 1008) : (grp.keep [(0, n, 0, v)]).kept = grp.kept ++ [(0, n, 0, Sparse.get 0 grp.u n)] := by
  have hnew : (grp.kept.any fun e => e.1 = 0 && e.2.1 = n && e.2.2.1 = 0) = false := by
    rw [List.any_eq_false]
    intro e he
    have := h e he
    grind
  simp [Group.keep, Group.before, sharedReg, h4, h1008, hnew]

/-- The frame of a completion that a state's deliveries leave: what a group and a split stand at, but for flags. -/
theorem finishCmd_frame {s : State} {id x : Nat} {k : Cmd} {outs : List (Nat × Nat × Nat × Word)} {grp : Group} {sp : Split}
    (hk : Table.find (deliver s k outs).cmds id = some k) (hf : k.finished = false)
    (hg : Table.find (deliver s k outs).groups k.group = some grp) (hs : Table.find grp.splits x = some sp) :
    (k.time = none → Table.find (finishCmd s id k outs).cmds id = some { k with finished := true }) ∧
      ∃ grp' sp', Table.find (finishCmd s id k outs).groups k.group = some grp' ∧ Table.find grp'.splits x = some sp' ∧
        Sparse.get 0 grp'.flags k.flag = Sparse.get 0 grp.flags k.flag - 1 ∧
        (∀ f, f ≠ k.flag → Sparse.get 0 grp'.flags f = Sparse.get 0 grp.flags f) ∧
        grp'.u = grp.u ∧ grp'.v = grp.v ∧ grp'.kept = grp.kept ∧ sp.like sp' := by
  obtain ⟨hc, grp', hg', hu, hv, hflags, hkept, hsplits⟩ := finishCmd_lands hk hf hg
  obtain ⟨sp', hs', hlike⟩ := hsplits x sp hs
  refine ⟨hc, grp', sp', hg', hs', ?_, fun f hne => ?_, hu, hv, hkept, hlike⟩
  · rw [hflags, Sparse.get_set]
  · rw [hflags, Sparse.get_set_ne _ _ _ hne]

theorem laneRead_vecWrite (grp : Group) (v : Nat) (p : Nat → Bool) (f : Nat → Word) {l : Nat} (h : l < 96) :
    laneRead (vecWrite grp v p f) v l = if p l then f l else laneRead grp v l := by
  simp [laneRead, vecWrite, vecRead, h]

theorem laneRead_vecWrite_ne (grp : Group) {v r : Nat} (p : Nat → Bool) (f : Nat → Word) (l : Nat) (h : r ≠ v) :
    laneRead (vecWrite grp v p f) r l = laneRead grp r l := by
  simp [laneRead, vecWrite, vecRead, Sparse.get_set_ne _ _ _ h]

/-- What a log operation's results make of a group: the register's lanes written. -/
def writeLanes (grp : Group) (v : Nat) (rs : List (Nat × Word × Word)) : Group :=
  let ls := rs.map fun r => (r.1, r.2.1)
  vecWrite grp v (fun l => (Table.find ls l).isSome) fun l => (Table.find ls l).getD 0

/-- The exception flags of the results in lanes that a split holds, gathered. -/
def gatherFlags (sp : Split) (rs : List (Nat × Word × Word)) : Word :=
  (rs.filter fun r => sp.lanes.getLsbD r.1).foldl (fun f r => f ||| r.2.2) sp.fps

theorem eraseDups_eq_singleton {l : List Nat} {v : Nat} (hne : l ≠ []) (h : ∀ a ∈ l, a = v) : l.eraseDups = [v] := by
  obtain ⟨a, l, rfl⟩ := List.exists_cons_of_ne_nil hne
  obtain rfl := h a (by simp)
  have hl : (l.filter fun b => !b == a) = [] := List.filter_eq_nil_iff.2 fun b hb => by simp [h b (by simp [hb])]
  rw [List.eraseDups_cons, hl, List.eraseDups_nil]

section
variable {s : State} {k : Cmd} {x : Nat} {sp : Split} {rs : List (Nat × Word × Word)}

/-- The results of lanes that the one taker holds are all delivered. -/
theorem deliver_log (ht : takers s k = [(x, sp)]) (hne : rs ≠ []) (hrs : ∀ r ∈ rs, sp.lanes.getLsbD r.1 = true) :
    deliver s k (logOuts k.sd rs) =
      updSplit (updGroup (updGroup s k.group fun grp => grp.keep (logOuts k.sd rs)) k.group fun grp =>
        writeLanes grp k.sd rs) k.group x fun sp => { sp with fps := gatherFlags sp rs } := by
  have hheld : (logOuts k.sd rs).filter (fun o => !decide (o.1 = 1) || sp.lanes.getLsbD o.2.2.1) = logOuts k.sd rs := by
    refine List.filter_eq_self.2 fun o ho => ?_
    simp only [logOuts, laneOuts, List.map_map, List.mem_append, List.mem_map] at ho
    obtain ⟨r, hr, rfl⟩ | ⟨r, hr, rfl⟩ := ho
    · simp [hrs r hr]
    · simp
  have hzero : (logOuts k.sd rs).filter (fun o => decide (o.1 = 0)) = [] := by
    simp [logOuts, laneOuts, List.filter_map, Function.comp_def]
  have hlanes : (logOuts k.sd rs).filter (fun o => decide (o.1 = 1) && sp.lanes.getLsbD o.2.2.1) =
      rs.map fun r => (1, k.sd, r.1, r.2.1) := by
    have hall : rs.filter (fun r => sp.lanes.getLsbD r.1) = rs := List.filter_eq_self.2 hrs
    simp [logOuts, laneOuts, List.filter_map, Function.comp_def, hall]
  have hflags : (logOuts k.sd rs).filter (fun o => decide (o.1 = 2)) = rs.map fun r => (2, 0, r.1, r.2.2) := by
    simp [logOuts, laneOuts, List.filter_map, Function.comp_def]
  have hone : (List.replicate rs.length k.sd).eraseDups = [k.sd] :=
    eraseDups_eq_singleton (by simpa using hne) (by simp)
  simp [deliver, ht, hheld, hzero, hlanes, hflags, hne, hone, List.filter_map, List.foldl_map, Function.comp_def,
    writeLanes, gatherFlags]

/-- A lane of the destination holds its result, when it has one. -/
theorem laneRead_writeLanes (grp : Group) (v : Nat) {l : Nat} (h : l < 96) :
    laneRead (writeLanes grp v rs) v l = match Table.find rs l with | some r => r.1 | none => laneRead grp v l := by
  have hfind : Table.find (rs.map fun r => (r.1, r.2.1)) l = (Table.find rs l).map (·.1) := Table.find_map ..
  rw [writeLanes, laneRead_vecWrite _ _ _ _ h, hfind]
  cases Table.find rs l <;> rfl

/-- The gathered flags are the split's own and those of all its results. -/
theorem gatherFlags_getLsbD (hrs : ∀ r ∈ rs, sp.lanes.getLsbD r.1 = true) (b : Nat) :
    (gatherFlags sp rs).getLsbD b = true ↔ sp.fps.getLsbD b = true ∨ ∃ r ∈ rs, r.2.2.getLsbD b = true := by
  have hfold (l : List (Nat × Word × Word)) (f : Word) :
      (l.foldl (fun f r => f ||| r.2.2) f).getLsbD b = true ↔ f.getLsbD b = true ∨ ∃ r ∈ l, r.2.2.getLsbD b = true := by
    induction l generalizing f with
    | nil => simp
    | cons r l ih => simp [ih, or_assoc]
  rw [gatherFlags, List.filter_eq_self.2 hrs, hfold]

end

@[simp] theorem coreOf_updCore (s : State) (d : Nat) (f : Core → Core) : coreOf (updCore s d f) d = f (coreOf s d) := by
  simp [coreOf]

/-- A write of a general register of a control core. -/
theorem coreWrite_general (s : State) (d : Nat) {n : Nat} (v : Word) (hn : n ≠ 0) (h : n < 1008) :
    coreWrite s d n v = updCore s d fun c => { c with u := Sparse.set 0 c.u n v } := by
  simp [coreWrite, hn, show ¬ 1008 ≤ n by omega]

/-- Settles O55: a completion delivers its results, and then lowers its flag and wakes those who wait for it. -/
theorem completionsWriteTheirResults : Obligations.CompletionsWriteTheirResults := by
  unfold Obligations.CompletionsWriteTheirResults
  refine ⟨fun s k grp x sp hk hf hg _ ht hs => ⟨fun v hb hbody hsd => ?_, fun rs hne hrs hbody => ?_⟩,
    fun s d f n v rest hb hd hn hn1008 => ?_⟩
  · have hkeep : Table.find (updGroup s k.group fun grp => grp.keep [(0, k.sd, 0, v)]).groups k.group =
        some (grp.keep [(0, k.sd, 0, v)]) := by simp [hg]
    obtain ⟨grp1, sp1, hg1, hs1, hv1, hflags1, hkept1, hpend1, hfps1, hfps1', hmask1, hmask1', hu1, hu1'⟩ :=
      groupWrite_group v hkeep hs hsd
    rw [← deliver_uniform ht] at hg1
    have hcmds : Table.find (deliver s k (uniformOuts k.sd [v])).cmds s.arg.a = some k := by
      rw [deliver_uniform ht, groupWrite_cmds]
      exact hk
    obtain ⟨hc, grp2, sp2, hg2, hs2, hflag, hflags, hu2, hv2, hkept2, hlanes2, hmask2, hfps2, hpend2⟩ :=
      finishCmd_frame hcmds hf hg1 hs1
    refine ⟨_, by simp [exec, execDivisionComplete, hb, hk, hbody], ⟨hc, finishCmd_mem .., ?_, grp2, sp2, hg2, hs2, ?_⟩⟩
    · rw [finishCmd_teams _ _ _ _ hf, deliver_uniform ht, groupWrite_teams, updGroup_teams]
    · rw [hflags1] at hflag hflags
      dsimp only
      rw [hpend2, hfps2, hmask2, hu2, hv2, hkept2, hkept1]
      exact ⟨hflag, hflags, hpend1, hv1, hfps1, hfps1', hmask1, hmask1', hu1, hu1', keep_uniform grp k.sd v⟩
  · have hlanes : ∀ r ∈ rs, sp.lanes.getLsbD r.1 = true := fun r hr => (hrs r hr).1
    have hd := deliver_log ht hne hlanes
    have hg1 : Table.find (deliver s k (logOuts k.sd rs)).groups k.group =
        some { writeLanes (grp.keep (logOuts k.sd rs)) k.sd rs with
          splits := Table.upd grp.splits x fun sp => { sp with fps := gatherFlags sp rs } } := by
      simp [hd, hg]
      rfl
    have hs1 : Table.find (Table.upd grp.splits x fun sp => { sp with fps := gatherFlags sp rs }) x =
        some { sp with fps := gatherFlags sp rs } := by simp [hs]
    have hcmds : Table.find (deliver s k (logOuts k.sd rs)).cmds s.arg.a = some k := by simp [hd, hk]
    obtain ⟨hc, grp2, sp2, hg2, hs2, hflag, hflags, hu2, hv2, hkept2, hlanes2, hmask2, hfps2, hpend2⟩ :=
      finishCmd_frame hcmds hf hg1 hs1
    refine ⟨_, by simp [exec, execLogOperationComplete, hk, hbody], ⟨hc, finishCmd_mem .., ?_, grp2, sp2, hg2, hs2, ?_⟩⟩
    · simp [finishCmd_teams _ _ _ _ hf, hd]
    · have hread (r l : Nat) : laneRead grp2 r l = laneRead (writeLanes (grp.keep (logOuts k.sd rs)) k.sd rs) r l := by
        simp only [laneRead, vecRead, hv2]
      refine ⟨hflag, hflags, hpend2, hu2, fun l hl => ?_, fun r l hne => ?_, fun b _ => ?_⟩
      · rw [hread, laneRead_writeLanes _ _ hl]
        rfl
      · rw [hread, writeLanes, laneRead_vecWrite_ne _ _ _ _ hne]
        rfl
      · rw [hfps2, gatherFlags_getLsbD hlanes]
  · refine ⟨_, by simp [exec, execDivisionComplete, hb, hd, coreWrite_general _ _ _ hn hn1008]; rfl, ?_⟩
    simp

end Sys2Proof.Machine

namespace Sys2Proof.Machine
-- Theorems one after another: in parallel, the stacks of the waiting threads go past the checker's memory limit.
set_option Elab.async false

/-! ### The issuer as the tables name it -/

theorem whoOf_eq_some {s : State} {g x : Nat} {w : Who} : whoOf s g x = some w ↔
    w.g = g ∧ w.x = x ∧ Table.find s.groups g = some w.grp ∧ Table.find w.grp.splits x = some w.sp ∧
      Table.find s.teams w.grp.team = some w.team ∧ Table.find s.tasks w.grp.task = some w.task ∧
      Table.find s.launches w.task.launch = some w.launch := by
  obtain ⟨wg, wx, grp, sp, team, task, l⟩ := w
  unfold whoOf
  split
  · simp_all
  · next grp' hg =>
    split
    · next sp' team' task' hs hm hk =>
      simp only [Option.map_eq_some_iff, Who.mk.injEq]
      constructor
      · rintro ⟨l', hl, rfl, rfl, rfl, rfl, rfl, rfl, rfl⟩
        exact ⟨rfl, rfl, hg, hs, hm, hk, hl⟩
      · rintro ⟨rfl, rfl, hg', hs', hm', hk', hl'⟩
        obtain rfl : grp' = grp := by simp_all
        simp_all
    · next hno =>
      simp only [reduceCtorEq, false_iff]
      rintro ⟨rfl, rfl, hg', hs', hm', hk', hl'⟩
      obtain rfl : grp' = grp := by simp_all
      exact hno _ _ _ hs' hm' hk'

/-- An update of the issuer's split. -/
theorem whoOf_updSplit {s : State} {w : Who} (h : whoOf s w.g w.x = some w) (f : Split → Split) :
    whoOf (updSplit s w.g w.x f) w.g w.x =
      some { w with grp := { w.grp with splits := Table.upd w.grp.splits w.x f }, sp := f w.sp } := by
  obtain ⟨-, -, hg, hs, hm, hk, hl⟩ := whoOf_eq_some.1 h
  exact whoOf_eq_some.2 ⟨rfl, rfl, by simp [hg], by simp [hs], hm, hk, hl⟩

/-- An update of the issuer's task that leaves its launch. -/
theorem whoOf_updTask {s : State} {w : Who} {g x : Nat} (h : whoOf s g x = some w) (f : Task → Task)
    (hf : (f w.task).launch = w.task.launch) :
    whoOf (updTask s w.grp.task f) g x = some { w with task := f w.task } := by
  obtain ⟨hgg, hxx, hg, hs, hm, hk, hl⟩ := whoOf_eq_some.1 h
  exact whoOf_eq_some.2 ⟨hgg, hxx, hg, hs, hm, by simp [hk], by simpa [hf] using hl⟩

/-! ### The division of a task -/

/-- A task as its abort leaves it: to be placed anew. -/
def unplaced (task : Task) (ready : Nat) : Task :=
  { task with ready, placed := false, teams := [], rooted := none, wset := [], sig := [], kdone := [], kquant := []
              win := [], retired := none }

theorem abortTask_find {s : State} {n : Nat} {task : Task} (h : Table.find s.tasks n = some task) :
    Table.find (abortTask s n).tasks n = some (unplaced task s.fresh) := by
  simp only [abortTask, h, updTask_tasks, Table.find_upd]
  rfl

theorem abortTask_fresh {s : State} {n : Nat} {task : Task} (h : Table.find s.tasks n = some task) :
    (abortTask s n).fresh = s.fresh + 1 := by
  simp only [abortTask, h, updTask_fresh]

/-- A division leaves no group and no effect of the task. -/
theorem abortTask_gone {s : State} {n : Nat} {task : Task} (h : Table.find s.tasks n = some task) :
    (∀ e ∈ (abortTask s n).groups, e.2.task ≠ n) ∧ ∀ e ∈ (abortTask s n).effects, e.task ≠ n := by
  simp only [abortTask, h, updTask_groups, updTask_effects, List.mem_filter]
  exact ⟨fun e he => of_decide_eq_true he.2, fun e he => of_decide_eq_true he.2⟩

/-- A division puts the tillers in the place of the task. -/
theorem splitTask_tillers {s : State} {n : Nat} {task : Task} (h : Table.find s.tasks n = some task) :
    Table.find (splitTask s n).tasks (s.fresh + 1) = some (tillersOf (unplaced task s.fresh)).1 ∧
      Table.find (splitTask s n).tasks (s.fresh + 2) = some (tillersOf (unplaced task s.fresh)).2 ∧
      (splitTask s n).groups = (abortTask s n).groups ∧ (splitTask s n).effects = (abortTask s n).effects := by
  simp only [splitTask, abortTask_find h, abortTask_fresh h]
  split
  · refine ⟨?_, ?_, rfl, rfl⟩
    · exact (Table.find_put_ne _ _ (by omega)).trans (Table.find_put ..)
    · exact Table.find_put ..
  · refine ⟨?_, ?_, rfl, rfl⟩
    · exact (Table.find_put_ne _ _ (by omega)).trans (Table.find_put ..)
    · exact Table.find_put ..

/-- The dimension that is cut has the most grains. -/
theorem cutOf_widest (task : Task) : (cutOf task).1 < 3 ∧ ∀ e < 3, extent task e ≤ extent task (cutOf task).1 := by
  have hthree (p : Nat → Prop) (h0 : p 0) (h1 : p 1) (h2 : p 2) : ∀ e < 3, p e := by
    intro e he
    obtain rfl | rfl | rfl : e = 0 ∨ e = 1 ∨ e = 2 := by omega
    · exact h0
    · exact h1
    · exact h2
  unfold cutOf
  dsimp only
  split
  · next h => exact ⟨by omega, hthree _ le_rfl h.1 h.2⟩
  · next h =>
    split
    · next h2 => exact ⟨by omega, hthree _ (by omega) le_rfl h2⟩
    · next h2 => exact ⟨by omega, hthree _ (by omega) (by omega) le_rfl⟩

/-- What a division leaves, in the terms of the statement. -/
theorem splitTask_divides {s : State} {n : Nat} {task : Task} (h : Table.find s.tasks n = some task) :
    ∃ a b, Table.find (splitTask s n).tasks (s.fresh + 1) = some a ∧ Table.find (splitTask s n).tasks (s.fresh + 2) = some b ∧
      (∀ k ∈ [a, b], k.placed = false ∧ k.rooted = none ∧ k.teams = [] ∧ k.words = task.words ∧
        k.seq = task.seq ∧ k.launch = task.launch ∧ k.start = task.start) ∧
      (∃ d < 3,
        let cut := task.lo.getD d 0 + ((extent task d / 2 * (recWord task.words (12 + d)).toNat : Nat) : Int)
        a.lo = task.lo ∧ a.hi = task.hi.set d cut ∧ b.lo = task.lo.set d cut ∧ b.hi = task.hi ∧
          ∀ e < 3, extent task e ≤ extent task d) ∧
      (∀ e ∈ (splitTask s n).groups, e.2.task ≠ n) ∧ ∀ e ∈ (splitTask s n).effects, e.task ≠ n := by
  obtain ⟨ha, hb, hgroups, heffects⟩ := splitTask_tillers h
  obtain ⟨hd, hwide⟩ := cutOf_widest task
  refine ⟨_, _, ha, hb, ?_, ⟨(cutOf task).1, hd, rfl, rfl, rfl, rfl, hwide⟩, ?_⟩
  · simp [tillersOf, unplaced]
  · rw [hgroups, heffects]
    exact abortTask_gone h

/-- Settles O32: the issuer's split takes its turn, and then its event roots its task or divides it. -/
theorem unrootedEventsRootOrDivide : Obligations.UnrootedEventsRootOrDivide := by
  unfold Obligations.UnrootedEventsRootOrDivide
  intro s w ev hw hmode
  obtain ⟨hg, hx, -, -, -, hk, -⟩ := whoOf_eq_some.1 hw
  rw [← hg, ← hx] at hw
  have hexec : exec .unrootedEventTakesEffect s = execUnrootedEventTakesEffect s := rfl
  rw [hexec, execUnrootedEventTakesEffect, ← hg, ← hx, hw]
  simp only [hmode]
  refine ⟨fun hr => by simp [hr], fun hr => ?_⟩
  simp only [hr, Bool.not_true, Bool.false_eq_true, if_false]
  refine ⟨?_, ?_, ?_⟩
  · rintro rfl hroot
    refine ⟨_, { w.task with rooted := some (quantum w), sig := [] }, rfl, ?_, rfl, rfl, rfl, _,
      whoOf_updTask (whoOf_updSplit hw _) _ rfl, rfl⟩
    simp [hk, hroot]
  · rintro rfl
    exact ⟨_, _, rfl, whoOf_updSplit hw _, rfl, rfl⟩
  · intro hev hroot
    obtain ⟨a, b, hd⟩ := splitTask_divides (s := updSplit s w.g w.x fun sp => { sp with mode := .ready }) hk
    refine ⟨_, a, b, ?_, hd⟩
    obtain rfl | ⟨k, rfl, hk5, hcan⟩ := hev
    · simp [hroot]
    · simp [hroot, hcan, show ¬ (k = 5 ∨ k = 6) by omega]

end Sys2Proof.Machine

namespace Sys2Proof.Machine
-- Theorems one after another: in parallel, the stacks of the waiting threads go past the checker's memory limit.
set_option Elab.async false

/-! ### A domain in which nothing but one effect waits for the commit -/

/-- A state with the one domain `d`, for which nothing waits: no message, report or late effect of the domain, no
continuation, pattern or command, no retired task, no collective, no launch without a task, and no trap due. -/
structure Quiet (s : State) (d : Nat) (dom : Domain) : Prop where
  doms : s.doms = [(d, dom)]
  join : dom.join = []
  derived : dom.derived = []
  reports : dom.reports = []
  late : dom.late = []
  firings : dom.firings = []
  joinSigs : dom.joinSigs = []
  conts : s.conts = []
  patterns : s.patterns = []
  cmds : s.cmds = []
  retired : ∀ e ∈ s.tasks, e.2.retired = none
  colls : ∀ e ∈ s.teams, e.2.colls = []
  live : ∀ e ∈ s.launches, e.2.liveTasks ≠ 0
  due : ∀ e ∈ s.groups, ∀ p ∈ e.2.splits, p.2.due = []

/-- The bodies of effects whose commit this part describes. -/
def EffBody.plain : EffBody → Bool
  | .write .. => true
  | .atom _ _ none => true
  | .message .. => true
  | .window .. => true
  | .spawn _ => true
  | .phsig .. => true
  | _ => false

section
variable {s : State} {d q qlen : Nat} {dom : Domain} {e : Effect}

theorem Quiet.find_dom (h : Quiet s d dom) : Table.find s.doms d = some dom := by
  simp [h.doms, Table.find]

theorem Quiet.updDom_self (h : Quiet s d dom) {f : Domain → Domain} (hf : f dom = dom) : updDom s d f = s := by
  have e : Table.upd s.doms d f = s.doms := by simp [h.doms, Table.upd, hf]
  simp only [updDom, e]

/-! #### Firing -/

theorem patternNumbers_nil (h : s.patterns = []) (ctx die : Nat) : patternNumbers s ctx die = [] := by
  simp [patternNumbers, h, Table.keys]

theorem nextFire_none (hc : s.conts = []) (hp : s.patterns = []) (ctxs : List Nat) : nextFire s ctxs = none := by
  have hpats (c : Nat) : (dies s).flatMap (fun die => (patternNumbers s c die).filterMap fun n =>
      (patternAt s c n).bind fun t =>
        if t.en && t.ports.all (portHolds s c) then some ((t.prio, 0, n), Fire.pat c n t) else none) = [] :=
    List.flatMap_eq_nil_iff.2 fun die _ => by rw [patternNumbers_nil hp]; rfl
  simp only [nextFire, hpats, hc]
  rw [List.flatMap_eq_nil_iff.2 fun _ _ => rfl]
  rfl

/-- Nothing fires where there is no continuation and no pattern. -/
theorem Quiet.fire (h : Quiet s d dom) (f : Firing) : fire f s = s := by
  rw [Machine.fire, fireAll, nextFire_none h.conts h.patterns]

theorem Quiet.closedConts (h : Quiet s d dom) (q qlen : Nat) : closedConts s q qlen = s := by
  simp [Machine.closedConts, h.conts]

/-! #### Tasks, teams and launches that stay -/

theorem Quiet.retiring (h : Quiet s d dom) (q : Nat) : retiring s d q = [] := by
  refine List.filter_eq_nil_iff.2 fun e he => ?_
  simp [h.retired e he]

theorem Quiet.domTeams_colls (h : Quiet s d dom) : ∀ e ∈ domTeams s d, e.2.colls = [] :=
  fun e he => h.colls e (List.mem_filter.1 he).1

theorem foldl_eq_self {α β : Type} {f : β → α → β} {l : List α} {b : β} (h : ∀ a ∈ l, f b a = b) : l.foldl f b = b := by
  induction l with
  | nil => rfl
  | cons a l ih =>
    rw [List.foldl_cons, h a List.mem_cons_self]
    exact ih fun c hc => h c (List.mem_cons_of_mem _ hc)

theorem Quiet.takeColls (h : Quiet s d dom) (q qlen : Nat) : takeColls s d q qlen = s := by
  have hdue : (domTeams s d).flatMap (fun e => e.2.colls.filterMap fun c =>
      if c.quantum.isSome || !collFull s e.2 c then none
      else match lastIssue c with
        | some i => if i.clock / qlen ≤ q then some (i.key, e.1, c) else none
        | none => none) = [] := by
    refine List.flatMap_eq_nil_iff.2 fun e he => ?_
    rw [h.domTeams_colls e he]
    rfl
  exact congrArg (fun l => List.foldl _ s (sortBy _ l)) hdue

theorem Quiet.commitColls (h : Quiet s d dom) (q qlen : Nat) : commitColls s d q qlen = s := by
  simp only [Machine.commitColls, h.takeColls, h.find_dom]
  refine foldl_eq_self fun e he => ?_
  rw [h.domTeams_colls e he]
  rfl

theorem Quiet.finishedLaunches (h : Quiet s d dom) (es : List Effect) : finishedLaunches s d es = [] := by
  refine List.filterMap_eq_nil_iff.2 fun e he => ?_
  simp [h.live e he]

/-! #### Effects with a plain body -/

theorem stepConfig_plain (he : e.body.plain = true) : stepConfig d q qlen s e = s := by
  unfold stepConfig
  split
  · next hb _ => simp [hb, EffBody.plain] at he
  · rfl

theorem stepTake_plain (he : e.body.plain = true) : stepTake s e = s := by
  unfold stepTake
  split
  · next hb _ => simp [hb, EffBody.plain] at he
  · rfl

theorem stepYield_plain (he : e.body.plain = true) : stepYield s e = s := by
  unfold stepYield
  split
  · next hb => simp [hb, EffBody.plain] at he
  · rfl

theorem splitLate_plain (he : e.body.plain = true) (es : List Effect) : splitLate d q (s, es) e = (s, es ++ [e]) := by
  unfold splitLate
  split
  · next hb => simp [hb, EffBody.plain] at he
  · rfl

theorem boundTime_plain (he : e.body.plain = true) : (boundTime q qlen e).body.plain = true := by
  unfold boundTime
  split
  · split
    · rfl
    · exact he
  · exact he

theorem stepChange_plain (he : e.body.plain = true) (idle : List Nat) : stepChange idle s e = s := by
  unfold stepChange
  split
  · next hb => simp [hb, EffBody.plain] at he
  · next hb => simp [hb, EffBody.plain] at he
  · rfl

theorem beginWait_plain (he : e.body.plain = true) : beginWait s e = s := by
  unfold beginWait
  split
  · next hb => simp [hb, EffBody.plain] at he
  · rfl

theorem stepAfter_plain (he : e.body.plain = true) (own : List (Nat × Nat)) (t : Nat) : stepAfter own dom t s e = s := by
  unfold stepAfter
  split
  · next hb => simp [hb, EffBody.plain] at he
  · next hb => simp [hb, EffBody.plain] at he
  · next hb => simp [hb, EffBody.plain] at he
  · rfl

/-- What a write covers of an earlier one is dropped; one effect covers nothing of itself. -/
theorem dropCovered_sole (h : s.effects = [e]) : dropCovered s [e] = s := by
  have hcuts : laterWrites [e] e = [] := by simp [laterWrites]
  have hes : (dropCovered s [e]).effects = s.effects := by
    simp only [dropCovered, h, List.flatMap_cons, List.flatMap_nil, List.append_nil, hcuts]
    split <;> simp
  calc dropCovered s [e] = { s with effects := (dropCovered s [e]).effects } := rfl
    _ = s := by rw [hes]

end
end Sys2Proof.Machine

namespace Sys2Proof.Machine
-- Theorems one after another: in parallel, the stacks of the waiting threads go past the checker's memory limit.
set_option Elab.async false

/-! ### The parts of a commit of one plain effect -/

section
variable {s : State} {d q qlen : Nat} {dom : Domain} {e : Effect}

theorem hostsWait_empty {f : Firing} (h : ∀ c, mailbox f.was f.d c = []) (s : State) (c : Nat) : hostsWait f s c = s := by
  simp [hostsWait, h]

theorem Domain.clear_messages (dom : Domain) (hd : dom.derived = []) (hr : dom.reports = []) :
    { dom with derived := [], reports := [] } = dom := by
  cases dom
  cases hd
  cases hr
  rfl

/-- Of the fourth part, messages and what fires, only the effect's own message is left. -/
theorem step4_plain {f : Firing} (h : Quiet s f.d dom) (hhost : hostMessages f.was f.d = [])
    (hbox : ∀ c, mailbox f.was f.d c = []) (he : e.body.plain = true) :
    step4 f s [e] [] = postEffect f (s, []) e := by
  have hdom : (updDom s f.d fun dom => { dom with derived := [], reports := [] }) = s :=
    h.updDom_self (dom.clear_messages h.derived h.reports)
  simp only [step4, h.find_dom, hdom, h.late, h.derived, h.reports, hhost, List.foldl_cons, List.foldl_nil,
    stepConfig_plain he, stepTake_plain he, stepYield_plain he, h.closedConts, h.fire, List.filter_nil, List.map_nil,
    List.map_cons, List.append_nil, sortBy, List.foldr_cons, List.foldr_nil, insertBy, postAll,
    foldl_eq_self fun c _ => hostsWait_empty hbox _ c]

/-- Of the fifth part only the phasers are left. -/
theorem step5_plain (h : Quiet s d dom) (he : e.body.plain = true) :
    step5 s d q qlen [e] [] = commitPhasers s d [boundTime q qlen e] := by
  simp only [step5, List.foldl_cons, List.foldl_nil, splitLate_plain he, h.finishedLaunches, List.filter_nil,
    List.nil_append, List.map_cons, List.map_nil, List.flatMap_nil, List.append_nil, sortBy, List.foldr_cons,
    List.foldr_nil, insertBy]

theorem settlePhasers_nil (h : s.phasers = []) : settlePhasers s = s := by
  calc settlePhasers s = { s with phasers := [] } := by rw [settlePhasers, h, List.map_nil]
    _ = s := by rw [← h]

/-- Without a phaser, an effect that signals none leaves the phasers' part with nothing to do. -/
theorem commitPhasers_nil (h : Quiet s d dom) (hp : s.phasers = []) (he : e.body.plain = true)
    (hs : stepSignalEffect s e = s) : commitPhasers s d [e] = s := by
  have hdom : (updDom s d fun dom => { dom with joinSigs := [] }) = s := h.updDom_self (by rw [← h.joinSigs])
  simp only [commitPhasers, List.foldl_cons, List.foldl_nil, stepChange_plain he, settlePhasers_nil hp, hs, h.find_dom,
    h.joinSigs, hdom, hp, List.map_nil]
  rw [← hp]

/-- Of the seventh part only the effect's own task is left. -/
theorem step7_plain {start : Nat} (h : Quiet (stepSpawn start s e) d dom) :
    step7 s d start [e] = stepSpawn start s e := by
  have hdom : (updDom (stepSpawn start s e) d fun dom => { dom with firings := [] }) = stepSpawn start s e :=
    h.updDom_self (by rw [← h.firings])
  simp only [step7, List.foldl_cons, List.foldl_nil, h.find_dom, h.firings, hdom]

end

/-! ### The last part: waits end, and the domain goes on -/

/-- A state without what the end of a commit may change: the groups, the contexts' states and the phasers' parties. -/
def aside (s : State) : State :=
  { s with
    groups := []
    ctxs := s.ctxs.map fun (n, c) => (n, { c with st := 0 })
    phasers := s.phasers.map fun (n, p) => (n, { p with parties := [] }) }

section
variable {s t : State} {d q qlen : Nat} {dom : Domain} {e : Effect}

theorem Table.mem_upd {α : Type} {m : Table α} {k : Nat} {f : α → α} {e : Nat × α} (h : e ∈ Table.upd m k f) :
    ∃ a ∈ m, e.2 = a.2 ∨ e.2 = f a.2 := by
  obtain ⟨a, ha, rfl⟩ := List.mem_map.1 h
  refine ⟨a, ha, ?_⟩
  split <;> simp

/-- No split of the group holds back a trap. -/
def Group.noDue (grp : Group) : Prop := ∀ p ∈ grp.splits, p.2.due = []

theorem Group.noDue.upd {grp : Group} (h : grp.noDue) (x : Nat) {f : Split → Split} (hf : ∀ sp, (f sp).due = sp.due) :
    ∀ p ∈ Table.upd grp.splits x f, p.2.due = [] := by
  intro p hp
  obtain ⟨a, ha, h1 | h1⟩ := Table.mem_upd hp
  · rw [h1]
    exact h a ha
  · rw [h1, hf]
    exact h a ha

theorem Group.noDue.map {grp : Group} (h : grp.noDue) {f : Nat × Split → Nat × Split}
    (hf : ∀ e, (f e).2.due = e.2.due) : ∀ p ∈ grp.splits.map f, p.2.due = [] := by
  intro p hp
  obtain ⟨a, ha, rfl⟩ := List.mem_map.1 hp
  exact (hf a).trans (h a ha)

/-- Giving one split an entry of the table. -/
theorem Group.noDue.seat {grp g : Group} (h : grp.noDue) {x n : Nat}
    (hg : g.splits = Table.upd grp.splits x fun sp => { sp with entry := some n }) : g.noDue := by
  unfold Group.noDue
  rw [hg]
  exact h.upd x fun _ => rfl

theorem Group.noDue.fillEntries (n : Nat) : ∀ {grp : Group}, grp.noDue → (fillEntries n grp).noDue := by
  induction n with
  | zero => exact id
  | succ n ih =>
    intro grp h
    unfold Machine.fillEntries
    split
    · exact h
    · split
      · exact h
      · exact ih (h.seat rfl)

theorem Group.noDue.yieldEntries {grp : Group} (h : grp.noDue) : (yieldEntries grp).noDue :=
  Group.noDue.fillEntries 4 (h.map fun e => by dsimp only; split <;> rfl)

theorem Group.noDue.seatSplit {grp : Group} (h : grp.noDue) (x : Nat) : (seatSplit grp x).noDue := by
  unfold Machine.seatSplit
  split
  · exact h
  · split
    · exact h
    · split
      · exact h.seat rfl
      · exact h

theorem Group.noDue.reseat {grp : Group} (h : grp.noDue) : (reseat grp).noDue := by
  have hfold (xs : List Nat) : ∀ {g : Group}, g.noDue → (xs.foldl Machine.seatSplit g).noDue := by
    induction xs with
    | nil => exact id
    | cons x xs ih => exact fun hg => ih (hg.seatSplit x)
  have h0 : Group.noDue { grp with stack := grp.stack.filter fun x => (Table.find grp.splits x).isSome } := h
  exact (hfold _ h0.yieldEntries).yieldEntries

theorem relSplit_due (p : Mode → Bool) (t : Nat) (sp : Split) : (relSplit p t sp).due = sp.due := by
  unfold relSplit
  split <;> rfl

theorem Group.noDue.woken {grp : Group} (h : grp.noDue) (sel : Group → Bool) (p : Mode → Bool) (t : Nat) :
    (wokenGroup sel p t grp).noDue := by
  unfold wokenGroup
  split
  · exact Group.noDue.reseat (h.map fun e => relSplit_due p t e.2)
  · exact h

/-- No split holds back a trap. -/
def noDue (s : State) : Prop := ∀ e ∈ s.groups, e.2.noDue

theorem noDue.updGroup (h : noDue s) (g : Nat) {f : Group → Group} (hf : ∀ grp : Group, grp.noDue → (f grp).noDue) :
    noDue (updGroup s g f) := by
  intro e he
  obtain ⟨a, ha, h1 | h1⟩ := Table.mem_upd he
  · rw [h1]
    exact h a ha
  · rw [h1]
    exact hf a.2 (h a ha)

theorem noDue.updSplit (h : noDue s) (g x : Nat) {f : Split → Split} (hf : ∀ sp, (f sp).due = sp.due) :
    noDue (updSplit s g x f) := h.updGroup g fun _ hg => hg.upd x hf

theorem noDue.groupWrite (h : noDue s) (g x n : Nat) (v : Word) : noDue (groupWrite s g x n v) := by
  unfold Machine.groupWrite
  split
  · exact h
  · split
    · exact h.updSplit g x fun _ => rfl
    · split
      · exact h.updGroup g fun _ hg => hg
      · split
        · exact h
        · exact h.updSplit g x fun _ => rfl

theorem noDue.releaseWhere (h : noDue s) (sel : Group → Bool) (p : Mode → Bool) (t : Nat) :
    noDue (releaseWhere s sel p t) := by
  intro e he
  rw [releaseWhere_groups] at he
  obtain ⟨a, ha, rfl⟩ := List.mem_map.1 he
  exact (h a ha).woken sel p t

/-- `t` is `s` as far as `aside` shows, and holds back no trap where `s` holds back none. -/
structure Aside (s t : State) : Prop where
  aside : aside t = aside s
  due : noDue s → noDue t

theorem Aside.refl (s : State) : Aside s s := ⟨rfl, id⟩

theorem Aside.trans {s t u : State} (a : Aside s t) (b : Aside t u) : Aside s u :=
  ⟨b.aside.trans a.aside, fun h => b.due (a.due h)⟩

theorem Aside.foldl {α : Type} {f : State → α → State} (l : List α) (h : ∀ s a, Aside s (f s a)) (s : State) :
    Aside s (l.foldl f s) := by
  induction l generalizing s with
  | nil => exact Aside.refl s
  | cons a l ih => exact (h s a).trans (ih _)

theorem groupWrite_aside (s : State) (g x n : Nat) (v : Word) : Aside s (groupWrite s g x n v) := by
  refine ⟨?_, fun h => h.groupWrite g x n v⟩
  unfold groupWrite
  repeat' split
  all_goals rfl

theorem releaseWhere_aside (s : State) (sel : Group → Bool) (p : Mode → Bool) (t : Nat) :
    Aside s (releaseWhere s sel p t) := ⟨rfl, fun h => h.releaseWhere sel p t⟩

theorem releaseWaiter_aside (s : State) (g x sd : Nat) (vs : List Word) (t : Nat) :
    Aside s (releaseWaiter s g x sd vs t) := by
  have hws := Aside.foldl (f := fun s (p : Nat × Word) => groupWrite s g x (sd + p.1) p.2) ((List.range 4).zip vs)
    (fun s p => groupWrite_aside s g x (sd + p.1) p.2) s
  exact hws.trans ⟨rfl, fun h => h.updSplit g x (relSplit_due _ t)⟩

theorem updParty_aside (s : State) (ph kind id : Nat) (f : Phaser → Party → Party) :
    Aside s { s with phasers := Table.upd s.phasers ph fun p => updParty p kind id (f p) } := by
  refine ⟨?_, fun h => h⟩
  have e : (Table.upd s.phasers ph fun p => updParty p kind id (f p)).map
      (fun e => (e.1, { e.2 with parties := [] })) = s.phasers.map fun e => (e.1, { e.2 with parties := [] }) := by
    rw [Table.upd, List.map_map]
    refine List.map_congr_left fun e _ => ?_
    simp only [Function.comp]
    split <;> rfl
  simp only [aside, e]

theorem settleWaiter_aside (s : State) (g x ph sd w t : Nat) : Aside s (settleWaiter s g x ph sd w t) := by
  simp only [settleWaiter]
  split
  · exact releaseWaiter_aside ..
  · split
    · exact releaseWaiter_aside ..
    · split
      · exact (updParty_aside s ph 0 g fun p q => { q with wphase := p.phase }).trans (releaseWaiter_aside ..)
      · exact Aside.refl s

theorem settleWaiters_aside (s : State) (d t : Nat) : Aside s (settleWaiters s d t) := by
  simp only [settleWaiters]
  refine (Aside.foldl _ (fun s w => settleWaiter_aside s ..) s).trans ⟨rfl, fun h e he => ?_⟩
  obtain ⟨a, ha, rfl⟩ := List.mem_map.1 he
  split
  · exact (h a ha).reseat
  · exact h a ha

theorem releaseReads_nil (h : s.cmds = []) (d q : Nat) : releaseReads s d q = s := by
  calc releaseReads s d q = { s with cmds := [] } := by simp [releaseReads, h]
    _ = s := by rw [← h]

theorem raiseDue_none (h : noDue s) (d : Nat) : raiseDue s d = s := by
  have hws : (s.groups.flatMap fun e =>
      if ((Table.find s.tasks e.2.task).bind (taskDom s)) = some d then
        e.2.splits.filterMap fun p => if p.2.due.isEmpty then none else some (e.1, p.1, p.2.due)
      else []) = [] := by
    refine List.flatMap_eq_nil_iff.2 fun e he => ?_
    split
    · exact List.filterMap_eq_nil_iff.2 fun p hp => by simp [h e he p hp]
    · rfl
  exact congrArg (List.foldl _ s) hws

theorem removeTasks_nil (s : State) : removeTasks s [] = s := by
  simp [removeTasks]

theorem settleJoins_nil (hd : Table.find s.doms d = some dom) (hj : dom.join = []) : settleJoins s d = s := by
  simp [settleJoins, hd, hj]

theorem freeContexts_aside (s : State) : Aside s (freeContexts s) := by
  refine ⟨?_, fun h => h⟩
  have e : (freeContexts s).ctxs.map (fun e => (e.1, { e.2 with st := 0 })) =
      s.ctxs.map fun e => (e.1, { e.2 with st := 0 }) := by
    simp only [freeContexts, List.map_map]
    refine List.map_congr_left fun e _ => ?_
    simp only [Function.comp]
    split <;> rfl
  calc aside (freeContexts s)
      = { aside s with ctxs := (freeContexts s).ctxs.map fun e => (e.1, { e.2 with st := 0 }) } := rfl
    _ = aside s := by rw [e]; rfl

/-- No launch ends that has a task left. -/
theorem endLaunches_aside (h : ∀ e ∈ s.launches, e.2.liveTasks ≠ 0) (d : Nat) : Aside s (endLaunches s d) := by
  have hl : (s.launches.map fun e =>
      if e.2.dom = d && !e.2.waiting && e.2.liveTasks = 0 then (e.1, { e.2 with ended := true, old := [] }) else e) =
      s.launches := by
    refine (List.map_congr_left fun e he => ?_).trans (List.map_id _)
    simp [h e he]
  have e : endLaunches s d = freeContexts s := congrArg (fun l => freeContexts { s with launches := l }) hl
  rw [e]
  exact freeContexts_aside s

theorem Aside.field {α : Type} {s t : State} (h : Aside s t) (p : State → α) (hp : ∀ s, p (Machine.aside s) = p s) :
    p t = p s := by
  rw [← hp t, h.aside, hp]

/-- The state whose one domain has made commit `q`. -/
def committed (s : State) (d : Nat) (dom : Domain) (q : Nat) : State :=
  { s with doms := [(d, { dom with next := q + 1 })] }

theorem committed_find (s : State) (d : Nat) (dom : Domain) (q : Nat) :
    Table.find (committed s d dom q).doms d = some { dom with next := q + 1 } := if_pos rfl

/-- The last part of a commit: the domain goes on to the next quantum, waits end, and nothing else happens. -/
theorem step8_plain (h : Quiet s d dom) (he : e.body.plain = true) (own : List (Nat × Nat)) :
    Aside (committed s d dom q) (step8 s d q qlen [e] own []) := by
  have hdom : (updDom s d fun dom => { dom with next := q + 1, late := dom.late.filter fun l => decide (q < l.1) }) =
      committed s d dom q := by
    simp only [updDom, committed, h.doms, Table.upd, List.map_cons, List.map_nil, if_pos, h.late, List.filter_nil]
  have hdue : noDue s := h.due
  simp only [step8, hdom, List.foldl_cons, List.foldl_nil, beginWait_plain he, removeTasks_nil]
  generalize hs0 : committed s d dom q = s0
  have hr := releaseWhere_aside s0 (fun grp => inDomain s0 d grp.task)
    (fun m => match m with | .commit k => decide (k ≤ q) | _ => false) ((q + 1) * qlen)
  generalize releaseWhere s0 _ _ _ = s1 at hr ⊢
  have hw := hr.trans (settleWaiters_aside s1 d ((q + 1) * qlen))
  generalize settleWaiters s1 d _ = s2 at hw ⊢
  have hfind : Table.find s2.doms d = some { dom with next := q + 1 } := by
    rw [hw.field State.doms fun _ => rfl, ← hs0]
    exact committed_find s d dom q
  have hcmds : s2.cmds = [] := (hw.field State.cmds fun _ => rfl).trans (by rw [← hs0]; exact h.cmds)
  have hlive : ∀ e ∈ s2.launches, e.2.liveTasks ≠ 0 := by
    rw [hw.field State.launches fun _ => rfl, ← hs0]
    exact h.live
  have hdue2 : noDue s2 := hw.due (by rw [← hs0]; exact hdue)
  simp only [hfind, stepAfter_plain he, releaseReads_nil hcmds, raiseDue_none hdue2]
  have ht : Aside s0 (wakeStalled (endLaunches s2 d)) :=
    (hw.trans (endLaunches_aside hlive d)).trans (releaseWhere_aside ..)
  have hfind3 : Table.find (wakeStalled (endLaunches s2 d)).doms d = some { dom with next := q + 1 } := by
    rw [ht.field State.doms fun _ => rfl, ← hs0]
    exact committed_find s d dom q
  rw [settleJoins_nil hfind3 h.join]
  exact ht

end
end Sys2Proof.Machine

namespace Sys2Proof.Machine
-- Theorems one after another: in parallel, the stacks of the waiting threads go past the checker's memory limit.
set_option Elab.async false

/-! ### The commit of one plain effect -/

/-- The host's side of the domain is still: no message waits in a mailbox and none is played back. -/
def hostStill (s : State) : Prop := ∀ c ∈ s.ctxs, c.2.inbox = [] ∧ c.2.playback = none

section
variable {s : State} {d q qlen : Nat} {dom : Domain} {e : Effect}

theorem Table.mem_of_find {α : Type} {m : Table α} {k : Nat} {v : α} (h : Table.find m k = some v) : (k, v) ∈ m := by
  induction m with
  | nil => cases h
  | cons a m ih =>
    obtain ⟨j, w⟩ := a
    simp only [Table.find] at h
    split at h
    · next hj =>
      cases h
      subst hj
      exact List.mem_cons_self
    · exact List.mem_cons_of_mem _ (ih h)

theorem ctxOf_of_forall {p : Ctx → Prop} (h : ∀ c ∈ s.ctxs, p c.2) (h0 : p {}) (c : Nat) : p (ctxOf s c) := by
  unfold ctxOf
  cases hc : Table.find s.ctxs c with
  | none => exact h0
  | some v => exact h _ (Table.mem_of_find hc)

theorem hostStill.ctxOf (h : hostStill s) (c : Nat) : (ctxOf s c).inbox = [] ∧ (ctxOf s c).playback = none :=
  ctxOf_of_forall (p := fun c => c.inbox = [] ∧ c.playback = none) h ⟨rfl, rfl⟩ c

theorem hostStill.mailbox (h : hostStill s) (d c : Nat) : mailbox s d c = [] := by
  simp [Machine.mailbox, (h.ctxOf c).1]

theorem hostStill.hostMessages (h : hostStill s) (d : Nat) : hostMessages s d = [] := by
  refine List.flatMap_eq_nil_iff.2 fun c _ => ?_
  rw [(h.ctxOf c).2, h.mailbox]
  rfl

/-- The one effect of the state is due at commit `q`. -/
structure Sole (s : State) (d q qlen : Nat) (e : Effect) : Prop where
  effects : s.effects = [e]
  due : effDue s d q qlen e = true
  body : e.body.plain = true

theorem Sole.dueEffects (h : Sole s d q qlen e) : dueEffects s d q qlen = [e] := by
  simp [Machine.dueEffects, h.effects, h.due, sortBy, insertBy]

/-- A commit of one plain effect, part by part: the state after the bytes are written, after the lanes of an atomic,
the message, the signal, the window's bytes and the new task. -/
theorem commitDomain_parts {s1 s3 s4 s5 s6 s7 : State} (hs : Quiet s d dom) (hstill : hostStill s)
    (sole : Sole s d dom.next dom.q e)
    (h1 : ∀ lines, stepWrite d dom.next dom.q lines s e = s1) (sole1 : Sole s1 d dom.next dom.q e) (quiet1 : Quiet s1 d dom)
    (h3 : stepAtom true (stepAtom false { s1 with effects := [] } e) e = s3) (quiet3 : Quiet s3 d dom)
    (h4 : ∀ f : Firing, f.d = d → f.q = dom.next → f.qlen = dom.q → (postEffect f (s3, []) e).1 = s4) (quiet4 : Quiet s4 d dom)
    (h5 : commitPhasers s4 d [boundTime dom.next dom.q e] = s5)
    (h6 : stepWindow dom.q s5 e = s6) (quiet6 : Quiet s6 d dom)
    (h7 : stepSpawn ((dom.next + 1) * dom.q) s6 e = s7) (quiet7 : Quiet s7 d dom) :
    Aside (committed s7 d dom dom.next) (commitDomain s d) := by
  have hlast : ({ s1 with effects := s1.effects.filter fun e' => !([e].any fun f => f.prog = e'.prog) } : State) =
      { s1 with effects := [] } := by simp [sole1.effects]
  have quiet2 : Quiet { s1 with effects := [] } d dom := by
    obtain ⟨a, b, c, d, e, f, g, h, i, j, k, l, m, n⟩ := quiet1
    exact ⟨a, b, c, d, e, f, g, h, i, j, k, l, m, n⟩
  simp only [commitDomain, hs.find_dom, sole.dueEffects, dropCovered_sole sole.effects, List.foldl_cons, List.foldl_nil,
    h1, sole1.dueEffects, hlast, quiet2.retiring, h3, List.map_nil, doneMessages, List.filterMap_nil]
  have hf : (step4 ⟨d, dom.next, dom.q, s, domCtxs s d⟩ s3 [e] []).1 = s4 := by
    rw [step4_plain quiet3 (hstill.hostMessages d) (hstill.mailbox d) sole.body]
    exact h4 _ rfl rfl rfl
  rw [hf, hs.late, List.filter_nil, List.map_nil, step5_plain quiet4 sole.body, h5, h6, quiet6.commitColls,
    step7_plain (h7.symm ▸ quiet7), h7]
  exact step8_plain quiet7 sole.body _

end
end Sys2Proof.Machine

namespace Sys2Proof.Machine
-- Theorems one after another: in parallel, the stacks of the waiting threads go past the checker's memory limit.
set_option Elab.async false

/-! ### When a commit is ready -/

section
variable {s : State} {d : Nat} {dom : Domain}

@[simp] theorem minBound_none (a : Option Nat) : minBound a none = a := by cases a <;> rfl

/-- The bound `m` is there and is at most `b`. -/
def boundedBy (b : Nat) (m : Option Nat) : Prop := ∃ x, m = some x ∧ x ≤ b

theorem boundedBy.minBound_left {b : Nat} {m : Option Nat} (h : boundedBy b m) (o : Option Nat) :
    boundedBy b (minBound m o) := by
  obtain ⟨x, rfl, hx⟩ := h
  cases o with
  | none => exact ⟨x, rfl, hx⟩
  | some y => exact ⟨min x y, rfl, (Nat.min_le_left x y).trans hx⟩

theorem boundedBy.minBound_right {b : Nat} {o : Option Nat} (h : boundedBy b o) (m : Option Nat) :
    boundedBy b (minBound m o) := by
  obtain ⟨y, rfl, hy⟩ := h
  cases m with
  | none => exact ⟨y, rfl, hy⟩
  | some x => exact ⟨min x y, rfl, (Nat.min_le_right x y).trans hy⟩

/-- The least of many bounds is at most each of them. -/
theorem boundedBy.foldl {α : Type} {f : α → Option Nat} {b : Nat} {l : List α} {a : α} (ha : a ∈ l)
    (h : boundedBy b (f a)) (m : Option Nat) : boundedBy b (l.foldl (fun m a => minBound m (f a)) m) := by
  have hkeep (l : List α) : ∀ m, boundedBy b m → boundedBy b (l.foldl (fun m a => minBound m (f a)) m) := by
    induction l with
    | nil => exact fun _ h => h
    | cons c l ih => exact fun m hm => ih _ (hm.minBound_left _)
  induction l generalizing m with
  | nil => cases ha
  | cons c l ih =>
    rcases List.mem_cons.1 ha with rfl | hl
    · exact hkeep l _ (h.minBound_right m)
    · exact ih hl _

theorem domMinimum_eq (s : State) (d : Nat) :
    domMinimum s d = s.tasks.foldl
      (fun m e => minBound m (if taskDom s e.2 = some d then taskBound s e.1 e.2 else none)) none := by
  refine List.foldl_ext _ _ _ fun m e _ => ?_
  dsimp only
  split <;> simp

/-- No commit begins below a bound that a task of the domain sets. -/
theorem execCommit_waits {n b : Nat} {k : Task} (hd : Table.find s.doms s.arg.a = some dom) (hk : (n, k) ∈ s.tasks)
    (hdom : taskDom s k = some s.arg.a) (hb : boundedBy b (taskBound s n k)) (hlt : b < (dom.next + 1) * dom.q) :
    exec .commit s = .next s := by
  have hmin : boundedBy b (domMinimum s s.arg.a) := by
    rw [domMinimum_eq]
    exact boundedBy.foldl hk (by simpa only [hdom, if_pos] using hb) none
  obtain ⟨m, hm, hle⟩ := hmin
  have hready : commitReady s s.arg.a = false := by
    have hnot : decide ((dom.next + 1) * dom.q ≤ m) = false := decide_eq_false (by omega)
    simp only [commitReady, hd, hm, hnot, Bool.false_and]
  show execCommit s = .next s
  rw [execCommit, hready]
  rfl

theorem taskBound_waiting {n : Nat} {k : Task} (hr : k.retired = none) (h : k.placed = false ∨ k.rooted = none) :
    taskBound s n k = some k.start := by
  have hw : (!k.placed || k.rooted.isNone) = true := by
    rcases h with h | h <;> simp [h]
  simp only [taskBound, hr, Option.isSome_none, Bool.false_eq_true, if_false, hw, if_true]

theorem taskBound_rooted {n : Nat} {k : Task} (hr : k.retired = none) (hp : k.placed = true) (hq : k.rooted.isSome = true) :
    taskBound s n k = (taskSplits s n).foldl (fun m e => minBound m (splitBound e.2.2)) (firedBound s n) := by
  have hw : (!k.placed || k.rooted.isNone) = false := by
    cases hk : k.rooted <;> simp_all
  simp only [taskBound, hr, Option.isSome_none, Bool.false_eq_true, if_false, hw]

theorem splitBound_ready {sp : Split} (h : sp.mode = .ready) : splitBound sp = some sp.clock := by
  simp [splitBound, h]

/-- Where nothing else waits, a commit is ready when the domain has no minimum before its end and an effect of it is
due. -/
theorem Quiet.commitReady (h : Quiet s d dom) (hreplies : ∀ c ∈ s.ctxs, c.2.replies = [])
    (hmin : ∀ m, domMinimum s d = some m → (dom.next + 1) * dom.q ≤ m) {q : Nat} {e : Effect}
    (sole : Sole s d q dom.q e) : commitReady s d = true := by
  have hfull : ringFull s d = false := by
    refine List.any_eq_false.2 fun c _ => ?_
    simp [ctxOf_of_forall (p := fun c => c.replies = []) hreplies rfl c]
  have hdue : (s.effects.any fun e => e.dom = d && (timeQuantum s d dom.q e.task e.time).isSome) = true := by
    have hd := sole.due
    simp only [effDue, Bool.and_eq_true] at hd
    obtain ⟨hdom, ht⟩ := hd
    rw [sole.effects, List.any_cons, List.any_nil, Bool.or_false, hdom, Bool.true_and]
    cases hq : timeQuantum s d dom.q e.task e.time with
    | none => simp [hq] at ht
    | some k => rfl
  have hpassed : (match domMinimum s d with
      | some m => decide ((dom.next + 1) * dom.q ≤ m)
      | none => workWaits s d dom) = true := by
    cases hm : domMinimum s d with
    | some m => exact decide_eq_true (hmin m hm)
    | none => simp only [workWaits, hdue, Bool.or_true, Bool.true_or]
  simp only [Machine.commitReady, h.find_dom, h.cmds, h.join, List.any_nil, hfull, Bool.not_false, Bool.and_true]
  exact hpassed

end
end Sys2Proof.Machine

namespace Sys2Proof.Machine
-- Theorems one after another: in parallel, the stacks of the waiting threads go past the checker's memory limit.
set_option Elab.async false

/-! ### What a store leaves in place -/

section
variable {s : State} {d : Nat} {dom : Domain}

theorem mergeWords_eq (s : State) (pa n : Nat) : ∃ ac, mergeWords s pa n = { s with accs := ac } := by
  unfold mergeWords
  split
  · exact ⟨s.accs, rfl⟩
  · exact ⟨_, rfl⟩

theorem rekeyUnit_eq (s : State) (want unit : Nat) : ∃ m en, rekeyUnit s want unit = { s with mem := m, enc := en } := by
  unfold rekeyUnit
  split
  · exact ⟨s.mem, s.enc, rfl⟩
  · exact ⟨_, _, rfl⟩

theorem foldl_rekeyUnit_eq (want : Nat) (us : List Nat) (s : State) :
    ∃ m en, us.foldl (fun s u => rekeyUnit s want u) s = { s with mem := m, enc := en } := by
  induction us generalizing s with
  | nil => exact ⟨s.mem, s.enc, rfl⟩
  | cons u us ih =>
    obtain ⟨m, en, h⟩ := rekeyUnit_eq s want u
    rw [List.foldl_cons, h]
    exact ih _

theorem physWrite_eq (s : State) (want a : Nat) (bs : List Byte) :
    ∃ m en, physWrite s want a bs = { s with mem := m, enc := en } := by
  unfold physWrite
  split
  · exact ⟨_, s.enc, rfl⟩
  · obtain ⟨m, en, h⟩ := foldl_rekeyUnit_eq want
      ((List.range ((a + bs.length - 1) / 16 - a / 16 + 1)).map (· + a / 16)) s
    dsimp only
    rw [h]
    exact ⟨_, en, rfl⟩

/-- A store changes the bytes and how they are encrypted, merges sums, and keeps the old bytes for the commands and
launches that may still read them. -/
theorem storeGlobal_eq (s : State) (key pa : Nat) (bs : List Byte) : ∃ m en ac sv, storeGlobal s key pa bs =
    { s with
      mem := m, enc := en, accs := ac, saved := sv
      cmds := s.cmds.map fun e => (e.1, e.2.keepOld (unitsAt s pa bs.length).1 (unitsAt s pa bs.length).2)
      launches := s.launches.map fun e => (e.1, e.2.keepOld (unitsAt s pa bs.length).1 (unitsAt s pa bs.length).2) } := by
  simp only [storeGlobal, storeCore]
  generalize hs1 : physWrite _ key pa bs = s1
  obtain ⟨m, en, h⟩ := physWrite_eq _ key pa bs
  obtain ⟨ac, hac⟩ := mergeWords_eq s1 pa bs.length
  rw [hac, ← hs1, h]
  exact ⟨m, en, ac, _, rfl⟩

theorem keepOld_liveTasks (lo : Nat) (now : List Byte) (l : Launch) : (l.keepOld lo now).liveTasks = l.liveTasks := by
  unfold Launch.keepOld
  split <;> rfl

theorem Quiet.storeGlobal (h : Quiet s d dom) (key pa : Nat) (bs : List Byte) : Quiet (storeGlobal s key pa bs) d dom := by
  obtain ⟨m, en, ac, sv, e⟩ := storeGlobal_eq s key pa bs
  rw [e]
  refine { h with cmds := ?_, live := fun e he => ?_ }
  · simp [h.cmds]
  · obtain ⟨a, ha, rfl⟩ := List.mem_map.1 he
    exact (keepOld_liveTasks ..).symm ▸ h.live a ha

/-- A read after a write, whatever is named for the places beyond its values. -/
theorem Sparse.getF_writeF_getD {α : Type} [DecidableEq α] (dflt : Nat → α) (m : Sparse α) (k j : Nat) (vs : List α) (a : α) :
    Sparse.getF dflt (Sparse.writeF dflt m k vs) j =
      if k ≤ j ∧ j < k + vs.length then vs.getD (j - k) a else Sparse.getF dflt m j := by
  rw [Sparse.getF_writeF]
  split
  · next h => rw [List.getElem?_eq_getElem (by omega), Option.getD_some, List.getD_eq_getElem _ _ (by omega)]
  · rfl

/-- The bytes after a store without a key, while no unit is encrypted. -/
theorem memRead_storeGlobal (he : s.enc = []) (pa : Nat) (bs : List Byte) (b : Nat) :
    memRead (storeGlobal s 0 pa bs) b 1 = if pa ≤ b ∧ b < pa + bs.length then [bs.getD (b - pa) 0] else memRead s b 1 := by
  have hm : (storeGlobal s 0 pa bs).mem = (memWrite s pa bs).mem := by
    rw [Machine.storeGlobal, storeCore_mem, physWrite_plain]
    · rfl
    · exact he
  have hl : (storeGlobal s 0 pa bs).lost = (memWrite s pa bs).lost := by
    obtain ⟨m, en, ac, sv, e⟩ := storeGlobal_eq s 0 pa bs
    rw [e]
    rfl
  rw [memRead_congr hm hl]
  have hread (t : State) : memRead t b 1 = [Sparse.getF (memDefault t) t.mem b] := by simp [memRead, Sparse.readF_eq]
  rw [hread, memDefault_memWrite, memWrite, Sparse.getF_writeF_getD _ _ _ _ _ 0, hread]
  split <;> rfl

end
end Sys2Proof.Machine

namespace Sys2Proof.Machine
-- Theorems one after another: in parallel, the stacks of the waiting threads go past the checker's memory limit.
set_option Elab.async false

/-! ### The commit of each kind of effect -/

section
variable {s : State} {d : Nat} {dom : Domain} {e : Effect}

/-- A state without its effects. -/
def withoutEffects (s : State) : State := { s with effects := [] }

theorem Quiet.withoutEffects (h : Quiet s d dom) : Quiet (withoutEffects s) d dom := { h with }

/-- One plain effect waits for the next commit of a quiet domain, every task of which is rooted; the commit is ready. -/
structure Lone (s : State) (d : Nat) (dom : Domain) (e : Effect) : Prop where
  quiet : Quiet s d dom
  still : hostStill s
  sole : Sole s d dom.next dom.q e
  rooted : ∀ k ∈ s.tasks, k.2.rooted.isSome = true
  ready : commitReady s d = true

theorem effDue_rooted {q qlen r u : Nat} {k : Task} (hd : e.dom = d) (ht : e.time = some u)
    (hk : Table.find s.tasks e.task = some k) (hr : k.rooted = some r) :
    effDue s d q qlen e = decide (max (u / qlen) r ≤ q) := by
  simp [effDue, timeQuantum, hd, ht, hk, hr]

/-- Of a rooted task's effects, the tasks alone say which are due. -/
theorem effDue_congr {t : State} (ht : t.tasks = s.tasks) (h : ∀ k ∈ s.tasks, k.2.rooted.isSome = true) (q qlen : Nat)
    (e : Effect) : effDue t d q qlen e = effDue s d q qlen e := by
  have htime : timeQuantum t d qlen e.task e.time = timeQuantum s d qlen e.task e.time := by
    cases hk : Table.find s.tasks e.task with
    | none => cases hu : e.time <;> simp [timeQuantum, ht, hk]
    | some k =>
      obtain ⟨r, hr : k.rooted = some r⟩ := Option.isSome_iff_exists.1 (h _ (Table.mem_of_find hk))
      cases hu : e.time <;> simp [timeQuantum, ht, hk, hr]
  simp only [effDue, htime]

theorem abortReaders_rooted (h : ∀ k ∈ s.tasks, k.2.rooted.isSome = true) (d key start va n : Nat) :
    abortReaders s d key start va n = s := by
  have hit : s.tasks.filter (fun e => e.2.ts ≠ 0 && e.2.rooted.isNone && e.2.placed && taskDom s e.2 = some d &&
      decide (key / 2 ^ 32 < taskKey e.2) &&
      ((linesOf va n).map signatureBits).any fun bs => bs.all fun b => e.2.sig.contains b) = [] := by
    refine List.filter_eq_nil_iff.2 fun e he => ?_
    have hn : e.2.rooted.isNone = false := by
      have := h e he
      cases hr : e.2.rooted <;> simp_all
    simp [hn]
  exact congrArg (List.foldl _ s) hit

theorem unrootedEffect_rooted (h : ∀ k ∈ s.tasks, k.2.rooted.isSome = true) (e : Effect) : unrootedEffect s e = false := by
  cases hk : Table.find s.tasks e.task with
  | none => simp [unrootedEffect, hk]
  | some k =>
    have := h _ (Table.mem_of_find hk)
    cases hr : k.rooted <;> simp_all [unrootedEffect]

/-! #### A write -/

theorem Lone.commit_write {va pa : Nat} {bs : List Byte} (h : Lone s d dom e) (hp : s.phasers = [])
    (hb : e.body = .write va [(pa, 0, bs)]) :
    Aside (committed (withoutEffects (storeGlobal s 0 pa bs)) d dom dom.next) (commitDomain s d) := by
  obtain ⟨m, en, ac, sv, heq⟩ := storeGlobal_eq s 0 pa bs
  have quiet1 := h.quiet.storeGlobal 0 pa bs
  generalize hs1 : storeGlobal s 0 pa bs = s1 at quiet1 heq ⊢
  have htasks : s1.tasks = s.tasks := by rw [heq]
  have h1 (lines : List Nat) : stepWrite d dom.next dom.q lines s e = s1 := by
    have hpieces : storePieces s [(pa, 0, bs)] = s1 := hs1
    simp only [stepWrite, h.sole.effects, h.sole.due, hb, hpieces]
    simp [abortReaders_rooted (htasks ▸ h.rooted)]
  have sole1 : Sole s1 d dom.next dom.q e :=
    ⟨by rw [heq]; exact h.sole.effects, (effDue_congr htasks h.rooted ..).trans h.sole.due, h.sole.body⟩
  have hph : (withoutEffects s1).phasers = [] := by rw [withoutEffects, heq]; exact hp
  have hbound : boundTime dom.next dom.q e = e := by simp [boundTime, hb]
  have quiet2 := quiet1.withoutEffects
  refine commitDomain_parts (s3 := withoutEffects s1) (s4 := withoutEffects s1) (s5 := withoutEffects s1)
    (s6 := withoutEffects s1) h.quiet h.still h.sole h1 sole1 quiet1 ?_ quiet2 ?_ quiet2 ?_ ?_ quiet2 ?_ quiet2
  · simp only [stepAtom, hb]; rfl
  · exact fun f _ _ _ => by simp [postEffect, postOf, hb]
  · rw [hbound]
    exact commitPhasers_nil quiet2 hph h.sole.body (by simp [stepSignalEffect, hb])
  · simp [stepWindow, hb]
  · simp [stepSpawn, hb]

/-! #### An atomic -/

/-- One lane of an atomic without a result: its number, physical address, key and two operands. -/
abbrev AtomRow := Nat × Nat × Nat × Word × Word × Nat

/-- `t` is `s` after stores: a quiet domain stays quiet, and the bad lines, the effects and the phasers stay. -/
structure Stored (s t : State) : Prop where
  quiet : ∀ {d dom}, Quiet s d dom → Quiet t d dom
  bad : t.bad = s.bad
  effects : t.effects = s.effects
  phasers : t.phasers = s.phasers

theorem applyLane_stored (s : State) (op pa key : Nat) (v x : Word) : Stored s (applyLane s op pa key v x).1 := by
  simp only [applyLane]
  generalize atomStep op _ _ v x = r
  obtain ⟨m, en, ac, sv, h⟩ := storeGlobal_eq s key pa r.1
  have hq {d dom} (hs : Quiet s d dom) := hs.storeGlobal key pa r.1
  rw [h] at hq ⊢
  split
  · exact ⟨fun hs => { hq hs with }, rfl, rfl, rfl⟩
  · exact ⟨hq, rfl, rfl, rfl⟩

/-- The states after the lanes of an atomic. -/
def lanesApplied (op : Nat) (s : State) (ls : List AtomRow) : State :=
  ls.foldl (fun v a => (applyLane v op a.2.1 a.2.2.1 a.2.2.2.1 a.2.2.2.2.1).1) s

theorem lanesApplied_stored (op : Nat) (ls : List AtomRow) : ∀ s, Stored s (lanesApplied op s ls) := by
  induction ls with
  | nil => exact fun s => ⟨id, rfl, rfl, rfl⟩
  | cons a ls ih =>
    intro s
    have h1 := applyLane_stored s op a.2.1 a.2.2.1 a.2.2.2.1 a.2.2.2.2.1
    have h2 := ih (applyLane s op a.2.1 a.2.2.1 a.2.2.2.1 a.2.2.2.2.1).1
    exact ⟨fun h => h2.quiet (h1.quiet h), h2.bad.trans h1.bad, h2.effects.trans h1.effects, h2.phasers.trans h1.phasers⟩

/-- One lane of an atomic as `applyAtom` takes it: on a bad line it only notes the line. -/
def atomRow (op : Nat) (r : State × List (Nat × List Byte) × Option Nat) (a : AtomRow) :
    State × List (Nat × List Byte) × Option Nat :=
  match badLine r.1 a.2.1 (atomBytes op) with
  | some line => (r.1, r.2.1, some line)
  | none =>
    ((applyLane r.1 op a.2.1 a.2.2.1 a.2.2.2.1 a.2.2.2.2.1).1,
      r.2.1 ++ [(a.1, (applyLane r.1 op a.2.1 a.2.2.1 a.2.2.2.1 a.2.2.2.2.1).2)], r.2.2)

theorem foldl_atomRow (op : Nat) (ls : List AtomRow) : ∀ (s : State) (olds : List (Nat × List Byte)), s.bad = [] →
    ∃ olds', ls.foldl (atomRow op) (s, olds, none) = (lanesApplied op s ls, olds', none) := by
  induction ls with
  | nil => exact fun s olds _ => ⟨olds, rfl⟩
  | cons a ls ih =>
    intro s olds h
    have hlane : atomRow op (s, olds, none) a = ((applyLane s op a.2.1 a.2.2.1 a.2.2.2.1 a.2.2.2.2.1).1,
        olds ++ [(a.1, (applyLane s op a.2.1 a.2.2.1 a.2.2.2.1 a.2.2.2.2.1).2)], none) := by
      simp [atomRow, badLine, h]
    rw [List.foldl_cons, hlane]
    exact ih _ _ ((applyLane_stored ..).bad.trans h)

/-- Without a bad line an atomic applies its lanes in order. -/
theorem applyAtom_lanes (h : s.bad = []) (e : Effect) (op : Nat) (ls : List AtomRow) :
    applyAtom s e op ls none = lanesApplied op s ls := by
  obtain ⟨olds, ho⟩ := foldl_atomRow op ls s [] h
  calc applyAtom s e op ls none = (match (ls.foldl (atomRow op) (s, [], none)).2.2 with
        | some line => takeTrap (ls.foldl (atomRow op) (s, [], none)).1 e.group e.split (lineTrap line)
        | none => (ls.foldl (atomRow op) (s, [], none)).1) := rfl
    _ = lanesApplied op s ls := by rw [ho]

theorem stepWrite_none (h : ∀ k ∈ s.tasks, k.2.rooted.isSome = true) (hw : ∀ va ps, e.body ≠ .write va ps)
    (he : e.body.plain = true) (q qlen : Nat) (lines : List Nat) : stepWrite d q qlen lines s e = s := by
  unfold stepWrite
  split
  · rfl
  · split
    · next hb => exact absurd hb (hw _ _)
    · next hb => simp [hb, EffBody.plain] at he
    · simp [unrootedEffect_rooted h]
    · rfl

theorem Lone.commit_atom {op : Nat} {ls : List AtomRow} (h : Lone s d dom e) (hp : s.phasers = []) (hbad : s.bad = [])
    (hb : e.body = .atom op ls none) :
    Aside (committed (lanesApplied op (withoutEffects s) ls) d dom dom.next) (commitDomain s d) := by
  have hst := lanesApplied_stored op ls (withoutEffects s)
  have hq := hst.quiet h.quiet.withoutEffects
  have happ := applyAtom_lanes (s := withoutEffects s) hbad e op ls
  generalize lanesApplied op (withoutEffects s) ls = t at hst hq happ ⊢
  have hbound : boundTime dom.next dom.q e = e := by simp [boundTime, hb]
  refine commitDomain_parts (s1 := s) (s3 := t) (s4 := t) (s5 := t) (s6 := t) h.quiet h.still h.sole
    (fun lines => stepWrite_none h.rooted (by simp [hb]) h.sole.body ..) h.sole h.quiet ?_ hq ?_ hq ?_ ?_ hq ?_ hq
  · have hun : unrootedEffect (withoutEffects s) e = false := unrootedEffect_rooted h.rooted e
    have h0 : stepAtom false (withoutEffects s) e = t := by simp [stepAtom, hb, hun, happ]
    rw [show ({ s with effects := [] } : State) = withoutEffects s from rfl, h0]
    simp [stepAtom, hb]
  · exact fun f _ _ _ => by simp [postEffect, postOf, hb]
  · rw [hbound]
    exact commitPhasers_nil hq (hst.phasers.trans hp) h.sole.body (by simp [stepSignalEffect, hb])
  · simp [stepWindow, hb]
  · simp [stepSpawn, hb]

end
end Sys2Proof.Machine

namespace Sys2Proof.Machine
-- Theorems one after another: in parallel, the stacks of the waiting threads go past the checker's memory limit.
set_option Elab.async false

section
variable {s t : State} {d : Nat} {dom : Domain} {e : Effect}

/-! #### What the ends of waits leave in place -/

theorem Aside.quiet (h : Aside s t) (hs : Quiet s d dom) : Quiet t d dom where
  doms := (h.field State.doms fun _ => rfl).trans hs.doms
  join := hs.join
  derived := hs.derived
  reports := hs.reports
  late := hs.late
  firings := hs.firings
  joinSigs := hs.joinSigs
  conts := (h.field State.conts fun _ => rfl).trans hs.conts
  patterns := (h.field State.patterns fun _ => rfl).trans hs.patterns
  cmds := (h.field State.cmds fun _ => rfl).trans hs.cmds
  retired := (h.field State.tasks fun _ => rfl) ▸ hs.retired
  colls := (h.field State.teams fun _ => rfl) ▸ hs.colls
  live := (h.field State.launches fun _ => rfl) ▸ hs.live
  due := h.due hs.due

theorem Aside.committed (h : Aside s t) (d : Nat) (dom : Domain) (q : Nat) :
    Aside (committed s d dom q) (committed t d dom q) := by
  refine ⟨?_, h.due⟩
  calc Machine.aside (Machine.committed t d dom q) = Machine.committed (Machine.aside t) d dom q := rfl
    _ = Machine.committed (Machine.aside s) d dom q := by rw [h.aside]

/-- A context without its state. -/
def idleCtx (c : Ctx) : Ctx := { c with st := 0 }

theorem portAt_aside (s : State) (ctx num : Nat) : portAt (aside s) ctx num = portAt s ctx num := by
  have hspace : (ctxOf (aside s) ctx).pspace = (ctxOf s ctx).pspace := by
    have hfind : Table.find (aside s).ctxs ctx = (Table.find s.ctxs ctx).map idleCtx := Table.find_map idleCtx s.ctxs ctx
    rw [ctxOf, hfind, ctxOf]
    cases Table.find s.ctxs ctx <;> rfl
  have hphys : physPort (aside s) ctx num = physPort s ctx num := by
    simp only [physPort, hspace]
    rfl
  rw [portAt, hphys, portAt]
  rfl

theorem phaserStatus_aside (s : State) (e : Effect) (sd : Option Nat) (v : Word) : Aside s (phaserStatus s e sd v) := by
  unfold phaserStatus
  split
  · split
    · exact groupWrite_aside ..
    · exact Aside.refl s
  · exact Aside.refl s

/-! #### A message -/

theorem physPort_ports (s : State) (ps : Table Port) (ctx num : Nat) :
    physPort { s with ports := ps } ctx num = physPort s ctx num := rfl

theorem updPort_eq {ctx num : Nat} {p : Port} (h : portAt s ctx num = some p) (f : Port → Port) :
    ∃ ps, updPort s ctx num f = { s with ports := ps } ∧ portAt { s with ports := ps } ctx num = some (f p) := by
  obtain ⟨k, hk, hp⟩ := Option.map_eq_some_iff.1 h
  refine ⟨Table.put s.ports k (f p), ?_, ?_⟩
  · simp only [updPort, hk, hp]
  · simp [portAt, physPort_ports, hk]

/-- The message of an effect, as it goes to the port. -/
def messageOf (e : Effect) (l : Launch) (port : Nat) (w0 w1 : Word) : Msg := { ctx := l.ctx, port, w0, w1, tag := e.key }

/-- A poll port takes a message as the last of its queue. -/
theorem deliverMsg_poll {m : Msg} {p : Port} (h : portAt s m.ctx m.port = some p) (ho : p.isOpen = true) (hk : p.kind = 1)
    (hl : p.fifo.length < p.depth) : ∃ ps, deliverMsg s d m 0 = ({ s with ports := ps }, 0, none) ∧
      portAt { s with ports := ps } m.ctx m.port = some { p with fifo := p.fifo ++ [(m.w0, m.w1, m.tag)] } := by
  obtain ⟨ps, hu, hp⟩ := updPort_eq h fun p => { p with fifo := p.fifo ++ [(m.w0, m.w1, m.tag)] }
  refine ⟨ps, ?_, hp⟩
  simp [deliverMsg, h, ho, hk, hl, hu]

/-- A count port adds the message's first word, and fires nothing where nothing is armed. -/
theorem deliverMsg_count {m : Msg} {p : Port} (h : portAt s m.ctx m.port = some p) (ho : p.isOpen = true) (hk : p.kind = 2)
    (ha : p.armed = []) : ∃ ps, deliverMsg s d m 0 = ({ s with ports := ps }, 0, none) ∧
      portAt { s with ports := ps } m.ctx m.port =
        some { p with count := word (min 0xFFFFFFFF (p.count.toNat + m.w0.toNat)) } := by
  obtain ⟨ps, hu, hp⟩ := updPort_eq h fun p => { p with count := word (min 0xFFFFFFFF (p.count.toNat + m.w0.toNat)) }
  obtain ⟨qs, hv, hq⟩ := updPort_eq hp fun p => { p with armed := p.armed.filter fun a => decide (p.count.toNat < a.1.toNat) }
  refine ⟨qs, ?_, ?_⟩
  · simp [deliverMsg, h, ho, hk, hu, countFire, hp, ha, hv, sortBy]
  · rw [show ({ s with ports := qs } : State) = { { s with ports := ps } with ports := qs } from rfl, hq]
    simp [ha]

theorem actsFor_sole (hc : s.conts = []) (hp : s.patterns = []) {me : Nat} (hl : ∀ l ∈ s.launches, l.1 = me) (ctx num : Nat) :
    actsFor s s me ctx num = [] := by
  have howner (p : Port) : otherOwner s me ctx p = none := by
    unfold otherOwner
    cases hn : launchNum s ctx p.owner with
    | none => rfl
    | some o => simp [hl o (List.mem_of_find?_eq_some hn)]
  have hports (n : Nat) : (portAt s ctx n).bind (otherOwner s me ctx) = none := by
    cases portAt s ctx n with
    | none => rfl
    | some p => exact howner p
  simp [actsFor, hports, patternNumbers_nil hp, hc]

/-- A message of the domain's only launch is delivered, and the sender's status is written. -/
theorem postEffect_message {f : Firing} {port : Nat} {w0 w1 : Word} {sd : Option Nat} {l : Launch} {st : Nat}
    (h : Quiet s f.d dom) (hl : ∀ l ∈ s.launches, l.1 = e.launch) (hb : e.body = .message port w0 w1 sd)
    (hfind : Table.find s.launches e.launch = some l)
    (hdel : deliverMsg s f.d (messageOf e l port w0 w1) 0 = (t, st, none)) (ht : Quiet t f.d dom) :
    (postEffect f (s, []) e).1 = phaserStatus t e sd (word st) := by
  have hacts := actsFor_sole h.conts h.patterns hl
  have hjoin (q qlen port : Nat) : joinMet s f.d q qlen e.launch l.ctx port = s := by
    simp [joinMet, hacts]
  have hlate (q port : Nat) : lateFor s f.d q e.launch l.ctx port = none := by
    simp [lateFor, hacts, h.find_dom]
  have hfire : fire f (phaserStatus t e sd (word st)) = phaserStatus t e sd (word st) :=
    ((phaserStatus_aside t e sd (word st)).quiet ht).fire f
  have hpost : postOf s e = some (messageOf e l port w0 w1) := by simp [postOf, hb, hfind, messageOf]
  unfold messageOf at hdel hpost
  simp only [postEffect, hpost, hb, hjoin, hlate, hdel]
  cases sd <;> exact hfire

theorem Lone.commit_message {port : Nat} {w0 w1 : Word} {sd : Option Nat} {l : Launch} {ps : Table Port} {st : Nat}
    (h : Lone s d dom e) (hp : s.phasers = []) (hl : ∀ l ∈ s.launches, l.1 = e.launch)
    (hb : e.body = .message port w0 w1 sd) (hfind : Table.find s.launches e.launch = some l)
    (hdel : deliverMsg (withoutEffects s) d (messageOf e l port w0 w1) 0 =
      ({ withoutEffects s with ports := ps }, st, none)) :
    Aside (committed { withoutEffects s with ports := ps } d dom dom.next) (commitDomain s d) := by
  have hq : Quiet (withoutEffects s) d dom := h.quiet.withoutEffects
  have hqp : Quiet { withoutEffects s with ports := ps } d dom := { hq with }
  have hst := phaserStatus_aside { withoutEffects s with ports := ps } e sd (word st)
  have hqt := hst.quiet hqp
  have hphs := hst.field (fun s => s.phasers.map Prod.fst) fun s => by simp [aside]
  have hpost (f : Firing) (hfd : f.d = d) : (postEffect f (withoutEffects s, []) e).1 =
      phaserStatus { withoutEffects s with ports := ps } e sd (word st) :=
    postEffect_message (hfd.symm ▸ hq) hl hb hfind (hfd.symm ▸ hdel) (hfd.symm ▸ hqp)
  generalize phaserStatus { withoutEffects s with ports := ps } e sd (word st) = t at hst hqt hpost hphs
  have hpt : t.phasers = [] := by simpa [withoutEffects, hp] using hphs
  have hbound : boundTime dom.next dom.q e = e := by simp [boundTime, hb]
  refine (hst.committed d dom dom.next).trans (commitDomain_parts (s1 := s) (s3 := withoutEffects s) (s4 := t) (s5 := t)
    (s6 := t) h.quiet h.still h.sole (fun lines => stepWrite_none h.rooted (by simp [hb]) h.sole.body ..) h.sole h.quiet
    ?_ hq (fun f hfd _ _ => hpost f hfd) hqt ?_ ?_ hqt ?_ hqt)
  · simp [stepAtom, hb, withoutEffects]
  · rw [hbound]
    exact commitPhasers_nil hqt hpt h.sole.body (by simp [stepSignalEffect, hb])
  · simp [stepWindow, hb]
  · simp [stepSpawn, hb]

end
end Sys2Proof.Machine

namespace Sys2Proof.Machine
-- Theorems one after another: in parallel, the stacks of the waiting threads go past the checker's memory limit.
set_option Elab.async false

section
variable {s : State} {d : Nat} {dom : Domain} {e : Effect}

/-! #### A posted window write -/

/-- A team after bytes have landed in its window. -/
def landed (s : State) (tm : Team) (past : Bool) (off : Nat) (bs : List Byte) : Team :=
  { tm with
    mem := Sparse.write 0 tm.mem off (bs.take (lastSize s tm - off))
    before := if past then tm.before else
      overlayAdd tm.before off (teamBytes tm off (bs.take (lastSize s tm - off)).length) }

theorem windowLand_landed (s : State) (task t n off : Nat) (bs : List Byte) :
    ∃ past, windowLand s task t n off bs = updTeam s t fun tm => landed s tm past off bs := ⟨_, rfl⟩

theorem Quiet.updTeam (h : Quiet s d dom) (t : Nat) {f : Team → Team} (hf : ∀ tm, (f tm).colls = tm.colls) :
    Quiet (updTeam s t f) d dom := by
  refine { h with colls := fun e he => ?_ }
  obtain ⟨a, ha, h1 | h1⟩ := Table.mem_upd he
  · rw [h1]
    exact h.colls a ha
  · rw [h1, hf]
    exact h.colls a ha

theorem Lone.commit_window {t off : Nat} {bs : List Byte} {tm : Team} (h : Lone s d dom e) (hp : s.phasers = [])
    (hb : e.body = .window t off bs) (ht : Table.find s.teams t = some tm) (hx : tm.exited = false) :
    ∃ past, Aside (committed (updTeam (withoutEffects s) t fun tm => landed (withoutEffects s) tm past off bs) d dom dom.next)
      (commitDomain s d) := by
  have hq : Quiet (withoutEffects s) d dom := h.quiet.withoutEffects
  obtain ⟨past, hw⟩ := windowLand_landed (withoutEffects s) e.task t ((e.time.getD 0) / dom.q) off bs
  refine ⟨past, ?_⟩
  have hq6 := hq.updTeam t (f := fun tm => landed (withoutEffects s) tm past off bs) fun _ => rfl
  have hbound : boundTime dom.next dom.q e = e := by simp [boundTime, hb]
  refine commitDomain_parts (s1 := s) (s3 := withoutEffects s) (s4 := withoutEffects s) (s5 := withoutEffects s)
    (s6 := updTeam (withoutEffects s) t fun tm => landed (withoutEffects s) tm past off bs) h.quiet h.still h.sole
    (fun lines => stepWrite_none h.rooted (by simp [hb]) h.sole.body ..) h.sole h.quiet ?_ hq ?_ hq ?_ ?_ hq6 ?_ hq6
  · simp [stepAtom, hb, withoutEffects]
  · exact fun f _ _ _ => by simp [postEffect, postOf, hb]
  · rw [hbound]
    exact commitPhasers_nil hq hp h.sole.body (by simp [stepSignalEffect, hb])
  · have hfind : Table.find (withoutEffects s).teams t = some tm := ht
    rw [← hw]
    simp [stepWindow, hb, hfind, hx]
  · simp [stepSpawn, hb]

/-! #### A task created -/

theorem Table.mem_put {α : Type} {m : Table α} {k : Nat} {v : α} {e : Nat × α} (h : e ∈ Table.put m k v) :
    e = (k, v) ∨ e ∈ m := by
  induction m with
  | nil => exact .inl (List.mem_singleton.1 h)
  | cons a m ih =>
    obtain ⟨j, w⟩ := a
    simp only [Table.put] at h
    split at h
    · rcases List.mem_cons.1 h with rfl | h
      · exact .inr List.mem_cons_self
      · exact (ih h).imp id (List.mem_cons_of_mem _)
    · split at h
      · rcases List.mem_cons.1 h with rfl | h
        · exact .inl rfl
        · exact .inr (List.mem_cons_of_mem _ h)
      · rcases List.mem_cons.1 h with rfl | h
        · exact .inl rfl
        · exact .inr h

/-- The task that `createTask` puts in place. -/
def newTask (s : State) (l : Nat) (ws : List Word) (seq start : Nat) (sheaf : List Word) : Task :=
  { launch := l, ts := (recWord ws 5).toNat, seq, path := 0x8000, lo := recLo ws, hi := recHi ws, words := ws, start
    ready := s.fresh, family := s.fresh, sheaf }

/-- The launch of a task that `createTask` puts in place. -/
def launchWithTask (s : State) (ws : List Word) (seq : Nat) (root : Bool) (l : Launch) : Launch :=
  { l with
    liveTasks := l.liveTasks + 1
    families := Table.put l.families s.fresh ⟨root, (recWord ws 5).toNat, seq, ws, 1⟩ }

/-- Creating a task changes the tasks, its launch and its context. -/
theorem createTask_eq (s : State) (l : Nat) (ws : List Word) (seq start : Nat) (root : Bool) (sheaf : List Word) :
    ∃ cs, createTask s l ws seq start root sheaf = { s with
      fresh := s.fresh + 2, ctxs := cs, launches := Table.upd s.launches l (launchWithTask s ws seq root)
      tasks := Table.put s.tasks (s.fresh + 1) (newTask s l ws seq start sheaf) } := by
  simp only [createTask]
  split
  · exact ⟨_, rfl⟩
  · exact ⟨s.ctxs, rfl⟩

theorem Quiet.updLaunch (h : Quiet s d dom) (n : Nat) {f : Launch → Launch}
    (hf : ∀ l, l.liveTasks ≠ 0 → (f l).liveTasks ≠ 0) : Quiet (updLaunch s n f) d dom := by
  refine { h with live := fun e he => ?_ }
  obtain ⟨a, ha, h1 | h1⟩ := Table.mem_upd he
  · rw [h1]
    exact h.live a ha
  · rw [h1]
    exact hf _ (h.live a ha)

theorem Quiet.createTask (h : Quiet s d dom) (l : Nat) (ws : List Word) (seq start : Nat) (root : Bool)
    (sheaf : List Word) : Quiet (createTask s l ws seq start root sheaf) d dom := by
  obtain ⟨cs, e⟩ := createTask_eq s l ws seq start root sheaf
  have hl := h.updLaunch l (f := launchWithTask s ws seq root) fun l _ => Nat.succ_ne_zero _
  rw [e]
  refine { hl with retired := fun a ha => ?_ }
  rcases Table.mem_put ha with rfl | ha
  · rfl
  · exact h.retired a ha

/-- The state in which the launch has given out one more sequence number. -/
def numbered (s : State) (l : Nat) : State := updLaunch s l fun l => { l with nextSeq := l.nextSeq + 1 }

theorem spawnTask_room {l start issuer : Nat} {ws : List Word} {tag : Option (Nat × Nat)} {sheaf : List Word} {la : Launch}
    (h : Table.find s.launches l = some la) (hroom : (ctxOf s la.ctx).live < 2 ^ 24) :
    spawnTask s l ws start issuer tag sheaf = createTask (numbered s l) l ws la.nextSeq start false sheaf := by
  simp only [spawnTask, h, Nat.not_le.2 hroom, if_false]
  rfl

theorem Lone.commit_spawn {ws : List Word} {l : Launch} (h : Lone s d dom e) (hp : s.phasers = [])
    (hb : e.body = .spawn ws) (hl : Table.find s.launches e.launch = some l) (hroom : (ctxOf s l.ctx).live < 2 ^ 24) :
    Aside (committed (createTask (numbered (withoutEffects s) e.launch) e.launch ws l.nextSeq ((dom.next + 1) * dom.q)
      false []) d dom dom.next) (commitDomain s d) := by
  have hq : Quiet (withoutEffects s) d dom := h.quiet.withoutEffects
  have hqn : Quiet (numbered (withoutEffects s) e.launch) d dom := hq.updLaunch _ fun _ hl => hl
  have hq7 := hqn.createTask e.launch ws l.nextSeq ((dom.next + 1) * dom.q) false []
  have hbound : boundTime dom.next dom.q e = e := by simp [boundTime, hb]
  refine commitDomain_parts (s1 := s) (s3 := withoutEffects s) (s4 := withoutEffects s) (s5 := withoutEffects s)
    (s6 := withoutEffects s) h.quiet h.still h.sole
    (fun lines => stepWrite_none h.rooted (by simp [hb]) h.sole.body ..) h.sole h.quiet ?_ hq ?_ hq ?_ ?_ hq ?_ hq7
  · simp [stepAtom, hb, withoutEffects]
  · exact fun f _ _ _ => by simp [postEffect, postOf, hb]
  · rw [hbound]
    exact commitPhasers_nil hq hp h.sole.body (by simp [stepSignalEffect, hb])
  · simp [stepWindow, hb]
  · simp only [stepSpawn, hb]
    exact spawnTask_room hl hroom

/-! #### A signal -/

/-- The only signaller of a phaser's open phase: it has not arrived and stays. -/
structure LastSignaller (p : Phaser) (q : Party) (g : Nat) : Prop where
  freed : p.freed = false
  any : p.any = false
  parties : p.parties = [q]
  kind : q.kind = 0
  id : q.id = g
  role : q.role = 1
  next : q.next = none
  leaving : q.leaving = false
  arrived : q.arrived = false
  ahead : q.ahead = false
  phase : q.sphase = p.phase

theorem LastSignaller.waits {p : Phaser} {q : Party} {g : Nat} (h : LastSignaller p q g) : allArrived p = false := by
  simp [allArrived, h.parties, h.role, h.arrived, roleSignals]

theorem settlePhaser_waits {p : Phaser} (h : allArrived p = false) (n : Nat) : settlePhaser n p = p := by
  cases n with
  | zero => rfl
  | succ n => rw [settlePhaser, h]; rfl

/-- The party after its signal. -/
def signalled (q : Party) : Party := { q with sphase := phaseNext q.sphase, arrived := true }

theorem LastSignaller.applySignal {p : Phaser} {q : Party} {g : Nat} (h : LastSignaller p q g) :
    applySignal p 0 g none = ({ p with parties := [signalled q] }, 0) := by
  simp [Machine.applySignal, findParty, h.parties, h.kind, h.id, h.role, roleSignals, h.phase, updParty, signalled]

/-- The signal completes the phase. -/
theorem LastSignaller.settle {p : Phaser} {q : Party} {g : Nat} (h : LastSignaller p q g) :
    settlePhaser 4 { p with parties := [signalled q] } = boundary { p with parties := [signalled q] } := by
  have hall : allArrived { p with parties := [signalled q] } = true := by
    simp [allArrived, h.any, phaserIdle, signalled, h.role, roleSignals]
  have hnext : allArrived (boundary { p with parties := [signalled q] }) = false := by
    simp [allArrived, boundary, signalled, h.role, roleSignals, h.leaving, h.next, h.ahead]
  rw [settlePhaser, if_pos hall, settlePhaser_waits hnext]

/-- The state whose one phaser has completed the phase. -/
def phased (s : State) (ph : Nat) (p : Phaser) (q : Party) : State :=
  { s with phasers := [(ph, boundary { p with parties := [signalled q] })] }

theorem LastSignaller.stepSignal {ph g : Nat} {p : Phaser} {q : Party} (h : LastSignaller p q g)
    (hs : s.phasers = [(ph, p)]) : stepSignal s ph 0 g none = (phased s ph p q, 0) := by
  have hof : phaserOf s ph = some p := by simp [phaserOf, hs, Table.find, h.freed]
  have hupd : updPhaser s ph (fun _ => boundary { p with parties := [signalled q] }) = phased s ph p q := by
    simp [updPhaser, hof, hs, Table.upd, phased]
  simp only [Machine.stepSignal, hof, h.applySignal, h.settle, hupd]

theorem groupWrite_phasers (s : State) (g x n : Nat) (v : Word) : (groupWrite s g x n v).phasers = s.phasers := by
  unfold groupWrite
  repeat' split
  all_goals rfl

theorem phaserStatus_phasers (s : State) (e : Effect) (sd : Option Nat) (v : Word) :
    (phaserStatus s e sd v).phasers = s.phasers := by
  unfold phaserStatus
  split
  · split
    · exact groupWrite_phasers ..
    · rfl
  · rfl

theorem LastSignaller.commitPhasers {ph g : Nat} {p : Phaser} {q : Party} {b : Bool} {sd : Option Nat}
    (h : LastSignaller p q g) (hq : Quiet s d dom) (hs : s.phasers = [(ph, p)]) (hb : e.body = .phsig ph 0 g none b sd) :
    commitPhasers s d [e] = phaserStatus (phased s ph p q) e sd 0 := by
  have hsettle : settlePhasers s = s := by
    calc settlePhasers s = { s with phasers := [(ph, p)] } := by
          simp [settlePhasers, hs, settlePhaser_waits h.waits]
      _ = s := by rw [← hs]
  have hsig : stepSignalEffect s e = phaserStatus (phased s ph p q) e sd 0 := by
    simp [stepSignalEffect, hb, h.stepSignal hs]
    rfl
  have hchange : stepChange (idlePhasers s) s e = s := stepChange_plain (by simp [hb, EffBody.plain]) _
  have hqp : Quiet (phased s ph p q) d dom := { hq with }
  have hqt : Quiet (phaserStatus (phased s ph p q) e sd 0) d dom := (phaserStatus_aside ..).quiet hqp
  have hpt := phaserStatus_phasers (phased s ph p q) e sd 0
  simp only [Machine.commitPhasers, List.foldl_cons, List.foldl_nil, hchange, hsettle, hsig]
  generalize phaserStatus (phased s ph p q) e sd 0 = t at hqt hpt ⊢
  have hdom : (updDom t d fun dom => { dom with joinSigs := [] }) = t := hqt.updDom_self (by rw [← hqt.joinSigs])
  simp only [hqt.find_dom, hqt.joinSigs, List.foldl_nil, hdom]
  have hany : (boundary { p with parties := [signalled q] }).any = false := h.any
  have hmap : t.phasers.map (fun e => (e.1, if e.2.freed then e.2 else settleAny 4 e.2)) = t.phasers := by
    rw [hpt]
    simp [phased, settleAny, hany]
  exact congrArg (fun l => ({ t with phasers := l } : State)) hmap

theorem Lone.commit_signal {ph g : Nat} {p : Phaser} {q : Party} {b : Bool} {sd : Option Nat} (h : Lone s d dom e)
    (hlast : LastSignaller p q g) (hs : s.phasers = [(ph, p)]) (hb : e.body = .phsig ph 0 g none b sd) :
    Aside (committed (phased (withoutEffects s) ph p q) d dom dom.next) (commitDomain s d) := by
  have hq : Quiet (withoutEffects s) d dom := h.quiet.withoutEffects
  have hqp : Quiet (phased (withoutEffects s) ph p q) d dom := { hq with }
  have hst := phaserStatus_aside (phased (withoutEffects s) ph p q) e sd 0
  have hqt := hst.quiet hqp
  have hcommit := hlast.commitPhasers (e := e) hq hs hb
  generalize phaserStatus (phased (withoutEffects s) ph p q) e sd 0 = t at hst hqt hcommit
  have hbound : boundTime dom.next dom.q e = e := by simp [boundTime, hb]
  refine (hst.committed d dom dom.next).trans (commitDomain_parts (s1 := s) (s3 := withoutEffects s)
    (s4 := withoutEffects s) (s5 := t) (s6 := t) h.quiet h.still h.sole
    (fun lines => stepWrite_none h.rooted (by simp [hb]) h.sole.body ..) h.sole h.quiet ?_ hq ?_ hq ?_ ?_ hqt ?_ hqt)
  · simp [stepAtom, hb, withoutEffects]
  · exact fun f _ _ _ => by simp [postEffect, postOf, hb]
  · rw [hbound]
    exact hcommit
  · simp [stepWindow, hb]
  · simp [stepSpawn, hb]

/-- What `aside` shows of a phaser: all but its parties. -/
def Phaser.sansParties (p : Phaser) : Phaser := { p with parties := [] }

theorem phase_aside (s : State) (ph : Nat) :
    (Table.find (aside s).phasers ph).map Phaser.phase = (Table.find s.phasers ph).map Phaser.phase := by
  have hfind : Table.find (aside s).phasers ph = (Table.find s.phasers ph).map Phaser.sansParties :=
    Table.find_map Phaser.sansParties s.phasers ph
  rw [hfind, Option.map_map]
  rfl

end
end Sys2Proof.Machine

namespace Sys2Proof.Machine
-- Theorems one after another: in parallel, the stacks of the waiting threads go past the checker's memory limit.
set_option Elab.async false

/-! ### The commit of the one effect that waits -/

section
variable {s : State} {dom : Domain} {e : Effect}

theorem execCommit_ready (h : commitReady s s.arg.a = true) : exec .commit s = .next (commitDomain s s.arg.a) := by
  show execCommit s = _
  rw [execCommit, h]
  rfl

/-- A commit that ends as `aside` shows of `s7` makes the next quantum current. -/
theorem Lone.commits {s7 : State} {p : State → Prop} (h : Lone s s.arg.a dom e) (heff : s7.effects = [])
    (ha : Aside (committed s7 s.arg.a dom dom.next) (commitDomain s s.arg.a)) (hp : p (commitDomain s s.arg.a)) :
    ∃ s' dom', exec .commit s = .next s' ∧ s'.effects = [] ∧ Table.find s'.doms s.arg.a = some dom' ∧
      dom'.next = dom.next + 1 ∧ dom'.q = dom.q ∧ p s' := by
  refine ⟨_, { dom with next := dom.next + 1 }, execCommit_ready h.ready, ?_, ?_, rfl, rfl, hp⟩
  · exact (ha.field State.effects fun _ => rfl).trans heff
  · rw [ha.field State.doms fun _ => rfl]
    exact committed_find ..

/-- With one rooted task and one split that can run, that split's clock is the only minimum there can be. -/
theorem domMinimum_sole {d n g x : Nat} {k : Task} {grp : Group} {sp : Split} (ht : s.tasks = [(n, k)])
    (hr : k.retired = none) (hp : k.placed = true) (hq : k.rooted.isSome = true) (hg : s.groups = [(g, grp)])
    (hs : grp.splits = [(x, sp)]) (hm : sp.mode = .ready) (hc : s.conts = []) {m : Nat} (h : domMinimum s d = some m) :
    m = sp.clock := by
  have hfired : firedBound s n = none := by simp [firedBound, hc]
  have hsplits : taskSplits s n = if grp.task = n && !grp.exited then [(g, x, sp)] else [] := by
    simp [taskSplits, hg, hs]
  rw [domMinimum_eq, ht, List.foldl_cons, List.foldl_nil, taskBound_rooted hr hp hq, hfired, hsplits] at h
  split at h
  · split at h
    · simpa [splitBound_ready hm, minBound, eq_comm] using h
    · cases h
  · cases h

end

/-- Settles O56: a minimum below the quantum's end holds the commit back; a commit of one effect goes part by part, and
only the part of the effect's kind does anything. -/
theorem commitsFollowTheMinimumAndApplyWrites : Obligations.CommitsFollowTheMinimumAndApplyWrites := by
  unfold Obligations.CommitsFollowTheMinimumAndApplyWrites
  refine ⟨fun s dom k l n hd hk hr hl hdom => ?_, ?_⟩
  · have htask : taskDom s k = some s.arg.a := by simp [taskDom, hl, hdom]
    refine ⟨fun hp hq g x sp hsp hm hlt => ?_, fun hw hlt => ?_⟩
    · refine execCommit_waits hd hk htask ?_ hlt
      rw [taskBound_rooted hr hp hq]
      exact boundedBy.foldl hsp ⟨sp.clock, splitBound_ready hm, le_rfl⟩ _
    · exact execCommit_waits hd hk htask ⟨k.start, taskBound_waiting hr hw, le_rfl⟩ hlt
  · intro s dom k l grp sp tm e lid n g x t r u hdoms hjoin hderived hreports hlate hfirings hjoinSigs hq hlaunches hldom
      hended hlive htasks hklaunch hplaced hrooted hrle hretired hgroups hgtask hgteam hsplits hmode hclock hdue hteams
      htmtask hcolls hctxs hcmds hconts hpatterns henc htrees haccs hbad heffects hedom hetask helaunch htime hult commits
    have hfindTask : Table.find s.tasks e.task = some k := by simp [htasks, hetask, Table.find]
    have hquiet : Quiet s s.arg.a dom :=
      { doms := hdoms, join := hjoin, derived := hderived, reports := hreports, late := hlate, firings := hfirings,
        joinSigs := hjoinSigs, conts := hconts, patterns := hpatterns, cmds := hcmds
        retired := by simp [htasks, hretired]
        colls := by simp [hteams, hcolls]
        live := by simp [hlaunches, hlive]
        due := by simp [hgroups, hsplits, hdue] }
    have hstill : hostStill s := fun c hc => ⟨(hctxs c hc).1, (hctxs c hc).2.1⟩
    have hall : ∀ k ∈ s.tasks, k.2.rooted.isSome = true := by simp [htasks, hrooted]
    have heffDue : effDue s s.arg.a dom.next dom.q e = true := by
      have hquantum : u / dom.q < dom.next + 1 := (Nat.div_lt_iff_lt_mul hq).2 hult
      rw [effDue_rooted hedom htime hfindTask hrooted]
      exact decide_eq_true (by omega)
    have hmin (m : Nat) (hm : domMinimum s s.arg.a = some m) : (dom.next + 1) * dom.q ≤ m := by
      rw [domMinimum_sole htasks hretired hplaced (by simp [hrooted]) hgroups hsplits hmode hconts hm]
      exact hclock
    have hone (hb : e.body.plain = true) : Lone s s.arg.a dom e :=
      have sole : Sole s s.arg.a dom.next dom.q e := ⟨heffects, heffDue, hb⟩
      ⟨hquiet, hstill, sole, hall, hquiet.commitReady (fun c hc => (hctxs c hc).2.2) hmin sole⟩
    have hfindLaunch : Table.find s.launches e.launch = some l := by simp [hlaunches, helaunch, Table.find]
    have hlids : ∀ l ∈ s.launches, l.1 = e.launch := by simp [hlaunches, helaunch]
    refine ⟨fun hph => ⟨fun pa va bs hb => ?_, fun op ls hb => ?_, fun port w0 w1 sd p hb hport hopen => ?_,
      fun off bs hb hx hsize => ?_, fun ws hb hroom => ?_⟩, ?_⟩
    · have h1 := hone (by rw [hb]; rfl)
      have ha := h1.commit_write hph hb
      refine h1.commits rfl ha fun b => ?_
      rw [ha.field (fun s => memRead s b 1) fun _ => rfl]
      exact memRead_storeGlobal henc pa bs b
    · have h1 := hone (by rw [hb]; rfl)
      have ha := h1.commit_atom hph hbad hb
      refine h1.commits (lanesApplied_stored op ls _).effects ha fun b => ?_
      exact ha.field (fun s => memRead s b 1) fun _ => rfl
    · have h1 := hone (by rw [hb]; rfl)
      have hcommits (ps : Table Port) (p' : Port)
          (h : deliverMsg (withoutEffects s) s.arg.a (messageOf e l port w0 w1) 0 =
              ({ withoutEffects s with ports := ps }, 0, none) ∧
            portAt { withoutEffects s with ports := ps } l.ctx port = some p') :
          commits fun s' => portAt s' l.ctx port = some p' ∧ s'.mem = s.mem := by
        have ha := h1.commit_message hph hlids hb hfindLaunch h.1
        refine h1.commits rfl ha ⟨?_, ha.field State.mem fun _ => rfl⟩
        exact (ha.field (fun s => portAt s l.ctx port) fun s => portAt_aside s l.ctx port).trans h.2
      refine ⟨fun hk hlen => ?_, fun hk harm => ?_⟩
      · obtain ⟨ps, h⟩ := deliverMsg_poll (s := withoutEffects s) (d := s.arg.a) (m := messageOf e l port w0 w1)
          hport hopen hk hlen
        exact hcommits ps _ h
      · obtain ⟨ps, h⟩ := deliverMsg_count (s := withoutEffects s) (d := s.arg.a) (m := messageOf e l port w0 w1)
          hport hopen hk harm
        exact hcommits ps _ h
    · have h1 := hone (by rw [hb]; rfl)
      have hfindTeam : Table.find s.teams t = some tm := by simp [hteams, Table.find]
      obtain ⟨past, ha⟩ := h1.commit_window hph hb hfindTeam hx
      refine h1.commits rfl ha ⟨landed (withoutEffects s) tm past off bs, ?_, fun a => ?_⟩
      · rw [ha.field State.teams fun _ => rfl]
        have hupd := Table.find_upd s.teams t fun tm => landed (withoutEffects s) tm past off bs
        rw [hfindTeam] at hupd
        exact hupd
      · have htake : bs.take (lastSize (withoutEffects s) tm - off) = bs := by
          refine List.take_of_length_le ?_
          have : lastSize (withoutEffects s) tm = lastSize s tm := rfl
          omega
        simp only [landed, htake]
        exact Sparse.getF_writeF_getD _ _ _ _ _ 0
    · have h1 := hone (by rw [hb]; rfl)
      have ha := h1.commit_spawn hph hb hfindLaunch hroom
      obtain ⟨cs, hcreate⟩ := createTask_eq (numbered (withoutEffects s) e.launch) e.launch ws l.nextSeq
        ((dom.next + 1) * dom.q) false []
      rw [hcreate] at ha
      refine h1.commits rfl ha ⟨s.fresh + 1, newTask (numbered (withoutEffects s) e.launch)
        e.launch ws l.nextSeq ((dom.next + 1) * dom.q) [], ?_, helaunch, rfl, rfl, rfl, rfl, rfl⟩
      rw [ha.field State.tasks fun _ => rfl]
      exact Table.mem_of_find (Table.find_put ..)
    · intro ph p q sd b hs hb hfreed hany hparties hkind hid hrole hnext hleaving harrived hahead hphase hwrap _
      have h1 := hone (by rw [hb]; rfl)
      have hlast : LastSignaller p q g :=
        ⟨hfreed, hany, hparties, hkind, hid, hrole, hnext, hleaving, harrived, hahead, hphase⟩
      have ha := h1.commit_signal hlast hs hb
      have hphaseAt := ha.field (fun s => (Table.find s.phasers ph).map Phaser.phase) fun s => phase_aside s ph
      have hnew : (Table.find (committed (phased (withoutEffects s) ph p q) s.arg.a dom dom.next).phasers ph).map
          Phaser.phase = some (p.phase + 1) := by
        have hphase : phaseNext p.phase = p.phase + 1 := Nat.mod_eq_of_lt hwrap
        simp [committed, phased, Table.find, boundary, hphase]
      obtain ⟨p', hp', hphase'⟩ := Option.map_eq_some_iff.1 (hphaseAt.trans hnew)
      exact h1.commits rfl ha ⟨p', hp', hphase', ha.field State.mem fun _ => rfl⟩

end Sys2Proof.Machine

namespace Sys2Proof.Machine

/-! ### Places of local addresses (R54, R55, R65) -/

/-- An address below 2^20 lies in the own allocation or beyond it. -/
theorem locate_own (s : State) (w : Who) {o : Nat} (n : Nat) (h : o < 0x100000) :
    locate s w o n = if o + n ≤ w.grp.size then .at w.team.tidx o else .out w.grp.size := by
  simp [locate, h]

/-- An address in window `t` is judged by the team that the window names. -/
theorem locate_window (s : State) (w : Who) {t o : Nat} (n : Nat) (ht : t < 24) (ho : o < 0x100000) :
    locate s w (0x1000000 + t * 0x100000 + o) n =
      if recWidth w.task.words ≤ t then .out (recWidth w.task.words)
      else if t = w.team.tidx then (if o + n ≤ w.grp.size then .at t o else .out w.grp.size)
      else match teamAt s w t with
        | some (_, tm) => if o + n ≤ tm.epochSize then .at t o else .out tm.epochSize
        | none => .out 0 := by
  have hlow : ¬ 0x1000000 + t * 0x100000 + o < 0x100000 := by omega
  have hhigh : 0x1000000 + t * 0x100000 + o < 0x2800000 := by omega
  have hteam : (0x1000000 + t * 0x100000 + o - 0x1000000) / 0x100000 = t := by omega
  have hoff : (0x1000000 + t * 0x100000 + o) % 0x100000 = o := by omega
  have hwin : 0x1000000 ≤ 0x1000000 + t * 0x100000 + o := by omega
  simp only [locate, if_neg hlow, hhigh, hwin, hteam, hoff, decide_true, Bool.and_true, if_true] <;> rfl

/-- An address that is neither own nor in a window lies beyond the allocation. -/
theorem locate_unmapped (s : State) (w : Who) {a : Nat} (n : Nat) (h : 0x100000 ≤ a)
    (hw : a < 0x1000000 ∨ 0x2800000 ≤ a) : locate s w a n = .out w.grp.size := by
  have hwin : ¬ (0x1000000 ≤ a ∧ a < 0x2800000) := by omega
  simp [locate, show ¬ a < 0x100000 by omega, hwin]

/-- Settles O12, by the three ranges of local addresses: own, windows, and neither. -/
theorem localAddressesNameAllocations : Obligations.LocalAddressesNameAllocations := by
  unfold Obligations.LocalAddressesNameAllocations
  intro s w n t o
  refine ⟨fun h ho => ?_, fun h ho => ?_, fun ht hw ho => ⟨fun he h => ?_, fun hne i tm htm h => ?_, fun he h => ?_,
    fun hne i tm htm h => ?_⟩, fun ht hw ho => ?_, fun a ha => locate_unmapped s w n ha⟩
  · rw [locate_own s w n ho, if_pos h]
  · rw [locate_own s w n ho, if_neg (by omega)]
  · rw [locate_window s w n ht ho, if_neg (by omega), if_pos he, if_pos h]
  · rw [locate_window s w n ht ho, if_neg (by omega), if_neg hne, htm]
    exact if_pos h
  · rw [locate_window s w n ht ho, if_neg (by omega), if_pos he, if_neg (by omega)]
  · rw [locate_window s w n ht ho, if_neg (by omega), if_neg hne, htm]
    exact if_neg (by omega)
  · rw [locate_window s w n ht ho, if_pos hw]

end Sys2Proof.Machine
namespace Sys2Proof.Machine

/-! ### The turn that a script names -/

/-- A step takes the turn that stands first in the script. -/
theorem step_script {s : State} {t : Turn} {rest : List Turn} (h : s.script = t :: rest) :
    step s = take t { s with script := rest, ticks := s.ticks + 1 } := by
  simp [step, nextTurn, h]

/-- An issuer before a clause starts it. -/
theorem nextIssue_unstarted {s : State} {who : Actor} (h : startedClause s who = none) :
    nextIssue s who = some .clauseStart := by
  simp [nextIssue, h]

/-- An issuer in a clause issues what the words at its slot decode to. -/
theorem nextIssue_started {s : State} {who : Actor} {c : Clause} {w : Word} {i : Instr}
    (h : startedClause s who = some c) (hw : c.words[c.idx]? = some w)
    (hd : decode w c.words[c.idx + 1]? = .ok i) : nextIssue s who = some i := by
  simp [nextIssue, h, slotInstr, hw, hd]

/-- Settles O49: a step takes the turn of its script, which issues or lets an event happen. -/
theorem stepRunsDecodedInstruction : Obligations.StepRunsDecodedInstruction := by
  unfold Obligations.StepRunsDecodedInstruction
  refine fun s rest => ⟨fun who hs => ?_, fun i a hs he hi => ?_⟩
  · simp only [step_script hs, take, issue]
    refine ⟨fun hc => ?_, fun hc hn => ?_, fun hc c w i hcl hw hd => ?_⟩
    · simp [hc]
    · simp [hc, nextIssue_unstarted hn]
    · simp [hc, nextIssue_started hcl hw hd]
  · simp [step_script hs, take, happen, he, hi]

end Sys2Proof.Machine

namespace Sys2Proof

/-! ### Fields of the formats (R84) -/

section
variable {opc opc' : BitVec 8} {w : Word}

theorem ss_inj {d a d' a' : SReg} {sub sub' : BitVec 4} (hw : ss opc d a sub = w) (hop : w.extractLsb' 24 8 = opc')
    (hd : w.extractLsb' 14 10 = d') (ha : w.extractLsb' 4 10 = a') (hsub : w.extractLsb' 0 4 = sub') :
    opc' = opc ∧ d' = d ∧ a' = a ∧ sub' = sub := by
  subst hop hd ha hsub hw
  refine ⟨?_, ?_, ?_, ?_⟩ <;> (unfold ss; ext i hi; simp; grind)

theorem vv_inj {d a b d' a' b' : VReg} {sub sub' : BitVec 3} (hw : vv opc d a b sub = w)
    (hop : w.extractLsb' 24 8 = opc') (hd : w.extractLsb' 17 7 = d') (ha : w.extractLsb' 10 7 = a')
    (hb : w.extractLsb' 3 7 = b') (hsub : w.extractLsb' 0 3 = sub') :
    opc' = opc ∧ d' = d ∧ a' = a ∧ b' = b ∧ sub' = sub := by
  subst hop hd ha hb hsub hw
  refine ⟨?_, ?_, ?_, ?_, ?_⟩ <;> (unfold vv; ext i hi; simp; grind)

theorem vs_inj {d a d' a' : VReg} {s s' : SReg} (hw : vs opc d a s = w) (hop : w.extractLsb' 24 8 = opc')
    (hd : w.extractLsb' 17 7 = d') (ha : w.extractLsb' 10 7 = a') (hs : w.extractLsb' 0 10 = s') :
    opc' = opc ∧ d' = d ∧ a' = a ∧ s' = s := by
  subst hop hd ha hs hw
  refine ⟨?_, ?_, ?_, ?_⟩ <;> (unfold vs; ext i hi; simp; grind)

theorem vr_inj {d d' : SReg} {a a' : VReg} {sub sub' : BitVec 4} {z : BitVec 3} (hw : vr opc d a sub = w)
    (hop : w.extractLsb' 24 8 = opc') (hd : w.extractLsb' 14 10 = d') (ha : w.extractLsb' 7 7 = a')
    (hsub : w.extractLsb' 3 4 = sub') (hz : w.extractLsb' 0 3 = z) :
    opc' = opc ∧ d' = d ∧ a' = a ∧ sub' = sub ∧ z = 0 := by
  subst hop hd ha hsub hz hw
  refine ⟨?_, ?_, ?_, ?_, ?_⟩ <;> (unfold vr; ext i hi; simp; grind)

theorem br_inj {c c' : SReg} {u u' : Bool} {k k' : BitVec 3} {t t' : TReg} {z : BitVec 5} (hw : br opc c u k t = w)
    (hop : w.extractLsb' 24 8 = opc') (hc : w.extractLsb' 14 10 = c') (hu : w.getLsbD 13 = u')
    (hk : w.extractLsb' 10 3 = k') (ht : w.extractLsb' 5 5 = t') (hz : w.extractLsb' 0 5 = z) :
    opc' = opc ∧ c' = c ∧ u' = u ∧ k' = k ∧ t' = t ∧ z = 0 := by
  subst hop hc hu hk ht hz hw
  refine ⟨?_, ?_, ?_, ?_, ?_, ?_⟩
  case refine_3 => unfold br; simp; grind
  all_goals (unfold br; ext i hi; simp; grind)
end

/-! ### Fields wider than what they hold -/

theorem wide5_low (t : TReg) : (wide5 t).extractLsb' 0 5 = t := by unfold wide5; ext i hi; simp; grind
theorem wide5_high (t : TReg) : (wide5 t).extractLsb' 5 5 = 0 := by unfold wide5; ext i hi; simp; grind
theorem wide4_low (b : BitVec 4) : (wide4 b).extractLsb' 0 4 = b := by unfold wide4; ext i hi; simp; grind
theorem wide4_high (b : BitVec 4) : (wide4 b).extractLsb' 4 6 = 0 := by unfold wide4; ext i hi; simp; grind
theorem wide2_low (k : BitVec 2) : (wide2 k).extractLsb' 0 2 = k := by unfold wide2; ext i hi; simp; grind
theorem wide2_high (k : BitVec 2) : (wide2 k).extractLsb' 2 8 = 0 := by unfold wide2; ext i hi; simp; grind
theorem wide7_low (t : TReg) : (wide7 t).extractLsb' 0 5 = t := by unfold wide7; ext i hi; simp; grind
theorem wide7_high (t : TReg) : (wide7 t).extractLsb' 5 2 = 0 := by unfold wide7; ext i hi; simp; grind

/-- The condition and the triple that share the vd field of `VCMPS`. -/
theorem numbered_low (c : BitVec 4) (t : BitVec 3) : (c ++ t : BitVec 7).extractLsb' 0 3 = t := by ext i hi; simp; grind
theorem numbered_high (c : BitVec 4) (t : BitVec 3) : (c ++ t : BitVec 7).extractLsb' 3 4 = c := by ext i hi; simp; grind

theorem wide3_false : wide3 (BitVec.ofBool false) = 0 := by decide
theorem wide3_true : wide3 (BitVec.ofBool true) = 1 := by decide

theorem wide5_of_high {a : BitVec 10} (h : a.extractLsb' 5 5 = 0) : wide5 (a.extractLsb' 0 5) = a := by
  rw [wide5, show 0#5 = a.extractLsb' 5 5 from h.symm]
  ext i hi; simp; grind
theorem wide4_of_high {a : BitVec 10} (h : a.extractLsb' 4 6 = 0) : wide4 (a.extractLsb' 0 4) = a := by
  rw [wide4, show 0#6 = a.extractLsb' 4 6 from h.symm]
  ext i hi; simp; grind
theorem wide2_of_high {a : BitVec 10} (h : a.extractLsb' 2 8 = 0) : wide2 (a.extractLsb' 0 2) = a := by
  rw [wide2, show 0#8 = a.extractLsb' 2 8 from h.symm]
  ext i hi; simp; grind
theorem wide7_of_high {d : BitVec 7} (h : d.extractLsb' 5 2 = 0) : wide7 (d.extractLsb' 0 5) = d := by
  rw [wide7, show 0#2 = d.extractLsb' 5 2 from h.symm]
  ext i hi; simp; grind
theorem numbered_eq (d : BitVec 7) : (d.extractLsb' 3 4 ++ d.extractLsb' 0 3 : BitVec 7) = d := by ext i hi; simp; grind

/-- The operation and the bit that share the sub field of `VSCAN`, `VATMIN` and `VATMAX`. -/
theorem flagged_eq (sub : BitVec 3) : (sub.extractLsb' 1 2 ++ BitVec.ofBool (sub.getLsbD 0) : BitVec 3) = sub := by
  revert sub; decide

/-- A word of an instruction that a control core has (R111) decodes to it. -/
theorem decodeMap_encode_control {i : Instr} (hset : Machine.onControlCore i = true) {w : Word} {ws : List Word}
    (h : encode i = w :: ws) : decodeMap w (ws.head?.getD 0) = .ok i := by
  unfold decodeMap
  generalize hop : w.extractLsb' 24 8 = opc
  generalize hd : w.extractLsb' 14 10 = d
  generalize ha : w.extractLsb' 4 10 = a
  generalize hsub : w.extractLsb' 0 4 = sub
  generalize hu : w.getLsbD 13 = u
  generalize hcond : w.extractLsb' 10 3 = cond
  generalize htm : w.extractLsb' 5 5 = tm
  generalize hz : w.extractLsb' 0 5 = z
  cases i with
  | nop | smov | sadd | ssub | smul | smulhs | smulhu | sand | sor | sxor | sandn | sshl | sshr | ssra | smin | smax |
  sminu | smaxu | snot | sneg | sabs | sclz | sctz | spop | sbrev | ssext8 | ssext16 | szext8 | szext16 | sdiv | sdivu
  | srem | sremu | sbfxu | sbfxs | slr | slrC | mode | modeg | rdsr | wrsr | eret | tlbinv | phalloc | phfree |
  treereq | ctxsav | ctxld | wfi | haltc | bkpt =>
    obtain ⟨hw, -⟩ := List.cons.inj h
    obtain ⟨rfl, rfl, rfl, rfl⟩ := ss_inj hw hop hd ha hsub
    exact rfl
  | scmp _ _ e =>
    obtain ⟨hw, -⟩ := List.cons.inj h
    obtain ⟨rfl, rfl, rfl, rfl⟩ := ss_inj hw hop hd ha hsub
    cases e <;> exact rfl
  | slit | saddLit | ssubLit | smulLit | smulhsLit | smulhuLit | sandLit | sorLit | sxorLit | sandnLit | sshlLit |
  sshrLit | ssraLit | sminLit | smaxLit | sminuLit | smaxuLit | sbfi | modei =>
    obtain ⟨hw, rfl⟩ := List.cons.inj h
    obtain ⟨rfl, rfl, rfl, rfl⟩ := ss_inj hw hop hd ha hsub
    exact rfl
  | scmpLit _ e | sld _ _ e | sst _ _ e =>
    obtain ⟨hw, rfl⟩ := List.cons.inj h
    obtain ⟨rfl, rfl, rfl, rfl⟩ := ss_inj hw hop hd ha hsub
    cases e <;> exact rfl
  | ret | exit | trapu =>
    obtain ⟨hw, -⟩ := List.cons.inj h
    obtain ⟨rfl, rfl, rfl, rfl, rfl, rfl⟩ := br_inj hw hop hd hu hcond htm hz
    exact rfl
  | call =>
    obtain ⟨hw, rfl⟩ := List.cons.inj h
    obtain ⟨rfl, rfl, rfl, rfl, rfl, rfl⟩ := br_inj hw hop hd hu hcond htm hz
    exact rfl
  | br _ e =>
    obtain ⟨hw, rfl⟩ := List.cons.inj h
    obtain ⟨rfl, rfl, rfl, rfl, rfl, rfl⟩ := br_inj hw hop hd hu hcond htm hz
    cases e <;> exact rfl
  | mpop | mfirst | mlast =>
    obtain ⟨hw, -⟩ := List.cons.inj h
    obtain ⟨rfl, rfl, rfl, rfl⟩ := ss_inj hw hop hd ha hsub
    change maskOp _ _ _ = _
    rw [maskOp, wide5_low, wide5_high]
    rfl
  | mnot | mand | mor | mxor | mandn =>
    obtain ⟨hw, -⟩ := List.cons.inj h
    obtain ⟨rfl, rfl, rfl, rfl⟩ := ss_inj hw hop hd ha hsub
    change maskOp _ _ _ = _
    rw [maskOp, wide5_low, wide5_low, wide5_high, wide5_high]
    rfl
  | mclr | mall =>
    obtain ⟨hw, -⟩ := List.cons.inj h
    obtain ⟨rfl, rfl, rfl, rfl⟩ := ss_inj hw hop hd ha hsub
    change maskOp _ _ _ = _
    rw [maskOp, wide5_low, wide5_high]
    rfl
  | _ => contradiction

/-- A word of an instruction that depends on the activity mask (R78) decodes to it. -/
theorem decodeMap_encode_masked {i : Instr} (hown : i.namesOwnRow = true) (hset : Machine.readsMask i = true)
    {w : Word} {ws : List Word} (h : encode i = w :: ws) : decodeMap w (ws.head?.getD 0) = .ok i := by
  unfold decodeMap
  generalize hop : w.extractLsb' 24 8 = opc
  generalize hd : w.extractLsb' 14 10 = d
  generalize ha : w.extractLsb' 4 10 = a
  generalize hsub : w.extractLsb' 0 4 = sub
  generalize hvd : w.extractLsb' 17 7 = vd
  generalize hva : w.extractLsb' 10 7 = va
  generalize hvb : w.extractLsb' 3 7 = vb
  generalize hvsub : w.extractLsb' 0 3 = vsub
  generalize hsb : w.extractLsb' 0 10 = sb
  generalize hra : w.extractLsb' 7 7 = ra
  generalize hrsub : w.extractLsb' 3 4 = rsub
  generalize hu : w.getLsbD 13 = u
  generalize hcond : w.extractLsb' 10 3 = cond
  generalize htm : w.extractLsb' 5 5 = tm
  generalize hz : w.extractLsb' 0 5 = z
  cases i with
  | vadd | vsub | vmul | vmulhs | vmulhu | vand | vor | vxor | vandn | vshl | vshr | vsra | vmin | vmax | vminu |
  vmaxu | vmad | vnot | vneg | vabs | vclz | vpop | vbrev | vsext8 | vsext16 | vsel | vmov | vlane | vfadd | vfsub |
  vfmul | vfmin | vfmax | vfcpys | vfma | vfms | vfnma | vfnms | vfabs | vfneg | vfrint | vftrunc | vffloor | vfceil |
  vfclass | vcvtLow | vcvtHigh | vpack | vunpk | vdot4i8 | vdot4u8 | vdot4f8a | vdot4f8b | vdot8i4 | vdot2f16 |
  vdot2bf16 | vperm | vatxchg | vspill | vfill | lcvtL | lcvtF | lexp | lmul | ldiv | lsqrt | lrsq | lrcp | lpow |
  ladd | lsub | lfix | lflt =>
    obtain ⟨hw, -⟩ := List.cons.inj h
    obtain ⟨rfl, rfl, rfl, rfl, rfl⟩ := vv_inj hw hop hvd hva hvb hvsub
    exact rfl
  | vldc e | vstc e | vatadd e | vatand e | vator e | vatxor e =>
    obtain ⟨hw, -⟩ := List.cons.inj h
    obtain ⟨rfl, rfl, rfl, rfl, rfl⟩ := vv_inj hw hop hvd hva hvb hvsub
    cases e <;> exact rfl
  | vadds | vsubs | vmuls | vands | vshls | vshrs | vsras | vmins | vmaxs | vfadds | vfmuls | vfmas | vbcs | vput |
  vshx | vshu | vshd =>
    obtain ⟨hw, -⟩ := List.cons.inj h
    obtain ⟨rfl, rfl, rfl, rfl⟩ := vs_inj hw hop hvd hva hsb
    exact rfl
  | vld | vldh | vldb | vst | vsth | vstb =>
    obtain ⟨hw, rfl⟩ := List.cons.inj h
    obtain ⟨rfl, rfl, rfl, rfl⟩ := vs_inj hw hop hvd hva hsb
    exact rfl
  | gath | scat | mloop | mrd =>
    obtain ⟨hw, -⟩ := List.cons.inj h
    obtain ⟨rfl, rfl, rfl, rfl⟩ := ss_inj hw hop hd ha hsub
    exact rfl
  | gatomOrdered e | gred e =>
    obtain ⟨hw, -⟩ := List.cons.inj h
    obtain ⟨rfl, rfl, rfl, rfl⟩ := ss_inj hw hop hd ha hsub
    cases e <;> exact rfl
  | vget =>
    obtain ⟨hw, -⟩ := List.cons.inj h
    obtain ⟨rfl, rfl, rfl, rfl, rfl⟩ := vr_inj hw hop hd hra hrsub hvsub
    exact rfl
  | vred e =>
    obtain ⟨hw, -⟩ := List.cons.inj h
    obtain ⟨rfl, rfl, rfl, rfl, rfl⟩ := vr_inj hw hop hd hra hrsub hvsub
    cases e <;> exact rfl
  | brv _ e =>
    obtain ⟨hw, rfl⟩ := List.cons.inj h
    obtain ⟨rfl, rfl, rfl, rfl, rfl, rfl⟩ := br_inj hw hop hd hu hcond htm hz
    cases e <;> exact rfl
  | bara | barw | bar | barcfg =>
    obtain ⟨hw, -⟩ := List.cons.inj h
    obtain ⟨rfl, rfl, rfl, rfl⟩ := ss_inj hw hop hd ha hsub
    change mustZero _ (.ok _) = _
    rw [wide4_low, wide4_high]
    rfl
  | gatom o d a =>
    obtain ⟨hw, -⟩ := List.cons.inj h
    obtain ⟨rfl, rfl, rfl, rfl⟩ := ss_inj hw hop hd ha hsub
    have hrow : ¬ (d == 0) = true := by simpa [Instr.namesOwnRow] using hown
    cases o <;> exact congrArg Except.ok (if_neg hrow)
  | vcmpA =>
    obtain ⟨hw, -⟩ := List.cons.inj h
    obtain ⟨rfl, rfl, rfl, rfl, rfl⟩ := vv_inj hw hop hvd hva hvb hvsub
    change mustZero _ (.ok _) = _
    rw [wide7_low, wide7_high]
    rfl
  | vcmpB g =>
    obtain ⟨hw, -⟩ := List.cons.inj h
    obtain ⟨rfl, rfl, rfl, rfl, rfl⟩ := vv_inj hw hop hvd hva hvb hvsub
    change mustZero _ (pick _ _) = _
    rw [wide7_low, wide7_high]
    cases g <;> rfl
  | vfcmp c =>
    obtain ⟨hw, -⟩ := List.cons.inj h
    obtain ⟨rfl, rfl, rfl, rfl, rfl⟩ := vv_inj hw hop hvd hva hvb hvsub
    change mustZero _ ((pick _ _).map _) = _
    rw [wide7_low, wide7_high]
    cases c <;> rfl
  | vscan o x =>
    obtain ⟨hw, -⟩ := List.cons.inj h
    obtain ⟨rfl, rfl, rfl, rfl, rfl⟩ := vv_inj hw hop hvd hva hvb hvsub
    cases o <;> cases x <;> exact rfl
  | vatmin k r | vatmax k r =>
    obtain ⟨hw, -⟩ := List.cons.inj h
    obtain ⟨rfl, rfl, rfl, rfl, rfl⟩ := vv_inj hw hop hvd hva hvb hvsub
    cases k <;> cases r <;> exact rfl
  | vcmps c =>
    obtain ⟨hw, -⟩ := List.cons.inj h
    obtain ⟨rfl, rfl, rfl, rfl⟩ := vs_inj hw hop hvd hva hsb
    change (pick _ _).map _ = _
    rw [numbered_low, numbered_high]
    cases c <;> rfl
  | _ => contradiction

/-- A word of any other instruction, of an engine or of the split's end, decodes to it. -/
theorem decodeMap_encode_engine {i : Instr} (hset : Machine.onControlCore i = false)
    (hmask : Machine.readsMask i = false) {w : Word} {ws : List Word} (h : encode i = w :: ws) : decodeMap w (ws.head?.getD 0) = .ok i := by
  unfold decodeMap
  generalize hop : w.extractLsb' 24 8 = opc
  generalize hd : w.extractLsb' 14 10 = d
  generalize ha : w.extractLsb' 4 10 = a
  generalize hsub : w.extractLsb' 0 4 = sub
  generalize hu : w.getLsbD 13 = u
  generalize hcond : w.extractLsb' 10 3 = cond
  generalize htm : w.extractLsb' 5 5 = tm
  generalize hz : w.extractLsb' 0 5 = z
  cases i with
  | cpy | cpy2 | cpsch | cpstg | cpcur | mwld | mtbl | mst | mclrMatrix | mstat | task | alloc | free | vgrow | vshrk
  | root | split | send | recv | yield | portcfg | patcfg | patset | phreg | phdrop | phsig | phsigb | phany | phanyb
  | phwait | phstat | mcst | coll | gsync | tret | tesc =>
    obtain ⟨hw, -⟩ := List.cons.inj h
    obtain ⟨rfl, rfl, rfl, rfl⟩ := ss_inj hw hop hd ha hsub
    exact rfl
  | recon =>
    obtain ⟨hw, -⟩ := List.cons.inj h
    obtain ⟨rfl, rfl, rfl, rfl, rfl, rfl⟩ := br_inj hw hop hd hu hcond htm hz
    exact rfl
  | kbar =>
    obtain ⟨hw, -⟩ := List.cons.inj h
    obtain ⟨rfl, rfl, rfl, rfl⟩ := ss_inj hw hop hd ha hsub
    change mustZero _ (pick _ _) = _
    rw [wide2_low, wide2_high]
    rfl
  | _ => contradiction

/-- A word of an instruction decodes to it, but for the checks of `decode`. -/
theorem decodeMap_encode {i : Instr} (hown : i.namesOwnRow = true) {w : Word} {ws : List Word} (h : encode i = w :: ws) :
    decodeMap w (ws.head?.getD 0) = .ok i := by
  cases hset : Machine.onControlCore i with
  | true => exact decodeMap_encode_control hset h
  | false =>
    cases hmask : Machine.readsMask i with
    | true => exact decodeMap_encode_masked hown hmask h
    | false => exact decodeMap_encode_engine hset hmask h

/-! ### What the rows of the opcode map are -/

/-- The literal of a word: the next word, where its opcode is marked L. -/
def literals (w n : Word) : List Word := if hasLiteral (w.extractLsb' 24 8) then [n] else []

/-- What `r` answers is encoded by the word `w` and its literal. -/
def Encodes (w n : Word) (r : Except IllegalCause Instr) : Prop := ∀ i, r = .ok i → encode i = w :: literals w n

section
variable {w n : Word} {op : BitVec 8}

theorem literals_of_opcode (hop : w.extractLsb' 24 8 = op) : literals w n = if hasLiteral op then [n] else [] := by
  rw [literals, hop]

theorem Encodes.of_ok {i : Instr} (h : encode i = w :: literals w n) : Encodes w n (.ok i) := by
  rintro _ ⟨⟩
  exact h

theorem Encodes.of_error {c : IllegalCause} : Encodes w n (.error c) := nofun

theorem Encodes.of_mustZero {b : Bool} {r : Except IllegalCause Instr} (h : b = true → Encodes w n r) :
    Encodes w n (mustZero b r) := by
  intro i hi
  cases b with
  | true => cases r with
    | ok j => exact h rfl i hi
    | error c => cases hi
  | false => cases r <;> cases hi

theorem pick_map {α : Type} (t : List α) (f : α → Instr) (k : Nat) : (pick t k).map f = pick (t.map f) k := by
  simp only [pick, List.getElem?_map]
  cases t[k]? <;> rfl

/-- A row of sub values, each of whose entries is encoded with its sub value. -/
theorem Encodes.of_pick {m : Nat} {l : List Instr} {k : BitVec m} (f : BitVec m → List Word)
    (hk : f k = w :: literals w n) (hrow : l.map encode = (List.range l.length).map fun j => f (BitVec.ofNat m j)) :
    Encodes w n (pick l k.toNat) := by
  intro i hi
  have hl : l[k.toNat]? = some i := by
    simp only [pick] at hi
    split at hi
    · rename_i hx
      cases hi
      exact hx
    · cases hi
  obtain ⟨hlt, rfl⟩ := List.getElem?_eq_some_iff.1 hl
  have hk' := congrArg (fun l => l[k.toNat]?) hrow
  simpa [hlt, hk] using hk'

/-- The same where the row is made of the entries of a table. -/
theorem Encodes.of_map {α : Type} {t : List α} {g : α → Instr} {k : Nat} (h : Encodes w n (pick (t.map g) k)) :
    Encodes w n ((pick t k).map g) := pick_map t g k ▸ h

/-! ### A word is made of its fields (R84) -/

theorem ss_fields {d a : SReg} (hop : w.extractLsb' 24 8 = op) (hd : w.extractLsb' 14 10 = d)
    (ha : w.extractLsb' 4 10 = a) : ss op d a (w.extractLsb' 0 4) = w := by
  subst hop hd ha
  unfold ss; ext i hi; simp; grind

theorem vv_fields {d a b : VReg} (hop : w.extractLsb' 24 8 = op) (hd : w.extractLsb' 17 7 = d)
    (ha : w.extractLsb' 10 7 = a) (hb : w.extractLsb' 3 7 = b) : vv op d a b (w.extractLsb' 0 3) = w := by
  subst hop hd ha hb
  unfold vv; ext i hi; simp; grind

theorem vs_fields {d a : VReg} (hop : w.extractLsb' 24 8 = op) (hd : w.extractLsb' 17 7 = d)
    (ha : w.extractLsb' 10 7 = a) : vs op d a (w.extractLsb' 0 10) = w := by
  subst hop hd ha
  unfold vs; ext i hi; simp; grind

theorem vr_fields (hop : w.extractLsb' 24 8 = op) (hz : w.extractLsb' 0 3 = 0) :
    vr op (w.extractLsb' 14 10) (w.extractLsb' 7 7) (w.extractLsb' 3 4) = w := by
  rw [vr, ← hop, show 0#3 = w.extractLsb' 0 3 from hz.symm]
  ext i hi; simp; grind

theorem br_fields {c : SReg} {u : Bool} {t : TReg} (hop : w.extractLsb' 24 8 = op) (hc : w.extractLsb' 14 10 = c)
    (hu : w.getLsbD 13 = u) (ht : w.extractLsb' 5 5 = t) (hz : w.extractLsb' 0 5 = 0) :
    br op c u (w.extractLsb' 10 3) t = w := by
  subst hop hc hu ht
  rw [br, show 0#5 = w.extractLsb' 0 5 from hz.symm]
  ext i hi; simp; grind

/-! ### Rows by format -/

/-- A row of format SS whose entries differ in sub. -/
theorem Encodes.of_ss {l : List Instr} {d a : SReg} (hop : w.extractLsb' 24 8 = op) (hd : w.extractLsb' 14 10 = d)
    (ha : w.extractLsb' 4 10 = a)
    (hrow : l.map encode = (List.range l.length).map fun j =>
      ss op d a (BitVec.ofNat 4 j) :: if hasLiteral op then [n] else []) :
    Encodes w n (pick l (w.extractLsb' 0 4).toNat) :=
  .of_pick (fun k => ss op d a k :: if hasLiteral op then [n] else [])
    (by rw [ss_fields hop hd ha, literals_of_opcode hop]) hrow

/-- A row of format VV whose entries differ in sub. -/
theorem Encodes.of_vv {l : List Instr} {d a b : VReg} (hop : w.extractLsb' 24 8 = op) (hd : w.extractLsb' 17 7 = d)
    (ha : w.extractLsb' 10 7 = a) (hb : w.extractLsb' 3 7 = b)
    (hrow : l.map encode = (List.range l.length).map fun j =>
      vv op d a b (BitVec.ofNat 3 j) :: if hasLiteral op then [n] else []) :
    Encodes w n (pick l (w.extractLsb' 0 3).toNat) :=
  .of_pick (fun k => vv op d a b k :: if hasLiteral op then [n] else [])
    (by rw [vv_fields hop hd ha hb, literals_of_opcode hop]) hrow

/-- An instruction of format SS. -/
theorem Encodes.of_ss_ok {i : Instr} {d a : SReg} {sub : BitVec 4} (hop : w.extractLsb' 24 8 = op)
    (hd : w.extractLsb' 14 10 = d) (ha : w.extractLsb' 4 10 = a) (hsub : w.extractLsb' 0 4 = sub)
    (hrow : encode i = ss op d a sub :: if hasLiteral op then [n] else []) : Encodes w n (.ok i) :=
  .of_ok (by rw [hrow, ← hsub, ss_fields hop hd ha, literals_of_opcode hop])

/-- An instruction of format VV. -/
theorem Encodes.of_vv_ok {i : Instr} {d a b : VReg} {sub : BitVec 3} (hop : w.extractLsb' 24 8 = op)
    (hd : w.extractLsb' 17 7 = d) (ha : w.extractLsb' 10 7 = a) (hb : w.extractLsb' 3 7 = b)
    (hsub : w.extractLsb' 0 3 = sub) (hrow : encode i = vv op d a b sub :: if hasLiteral op then [n] else []) :
    Encodes w n (.ok i) :=
  .of_ok (by rw [hrow, ← hsub, vv_fields hop hd ha hb, literals_of_opcode hop])

/-- A row of format VS. -/
theorem Encodes.of_vs {i : Instr} {d a : VReg} (hop : w.extractLsb' 24 8 = op) (hd : w.extractLsb' 17 7 = d)
    (ha : w.extractLsb' 10 7 = a)
    (hrow : encode i = vs op d a (w.extractLsb' 0 10) :: if hasLiteral op then [n] else []) : Encodes w n (.ok i) :=
  .of_ok (by rw [hrow, vs_fields hop hd ha, literals_of_opcode hop])

/-- An instruction of format BR. -/
theorem Encodes.of_br_ok {i : Instr} {c : SReg} {u : Bool} {cond : BitVec 3} {t : TReg} (hop : w.extractLsb' 24 8 = op)
    (hc : w.extractLsb' 14 10 = c) (hu : w.getLsbD 13 = u) (hcond : w.extractLsb' 10 3 = cond)
    (ht : w.extractLsb' 5 5 = t) (hz : w.extractLsb' 0 5 = 0)
    (hrow : encode i = br op c u cond t :: if hasLiteral op then [n] else []) : Encodes w n (.ok i) :=
  .of_ok (by rw [hrow, ← hcond, br_fields hop hc hu ht hz, literals_of_opcode hop])
end

/-! ### The rows of the opcode map (R96, R103, R106-R110) -/

/-- Opcodes of format SS with both registers. -/
def ssFree : List (BitVec 8) :=
  [0x03, 0x07, 0x08, 0x09, 0x0D, 0xA0, 0xA1, 0xA2, 0xA3, 0xA4, 0xA6, 0xB0, 0xB1, 0xB2, 0xB3, 0xB4, 0xB5, 0xB6, 0xC0, 0xC1,
    0xC2, 0xC3, 0xC4, 0xC8, 0xC9, 0xCB, 0xCC, 0xCD, 0xD0, 0xD1, 0xD2, 0xD3, 0xD4, 0xD5, 0xD6, 0xD7, 0xDA, 0xDB, 0xDC, 0xE0,
    0xE1, 0xE4, 0xE5, 0xE6, 0xE7, 0xE8]

/-- Opcodes of format SS whose sub names an entry of a table, and those with sa or sd zero. -/
def ssTable : List (BitVec 8) := [0x05, 0x0B, 0x0C]
def ssNoSa : List (BitVec 8) := [0x04, 0xA5]
def ssNoSd : List (BitVec 8) := [0xCA, 0xE3, 0xF0]
def ssBare : List (BitVec 8) := [0xC5, 0xC6, 0xE2, 0xE9, 0xEA, 0xEB, 0xEC]
def ssSingle : List (BitVec 8) := [0x00, 0x01, 0x02, 0x06, 0x0A, 0x0E, 0x0F, 0x10, 0x7B, 0xC7, 0xD8, 0xD9]
def ssBarrier : List (BitVec 8) := [0x78, 0x79, 0x7A]

/-- Opcodes of format BR. -/
def brBare : List (BitVec 8) := [0x13, 0x14, 0x15, 0x16]
def brSingle : List (BitVec 8) := [0x11, 0x12, 0x17]

/-- Opcodes of format VV: with three registers, with vb zero, and the others. -/
def vvFree : List (BitVec 8) :=
  [0x40, 0x41, 0x42, 0x58, 0x59, 0x5E, 0x60, 0x61, 0x92, 0x93, 0x97, 0x98, 0x99]
def vvNoVb : List (BitVec 8) := [0x50, 0x5A, 0x90, 0x91, 0x94, 0x95, 0x96, 0x9A, 0x9B]
def vvReturn : List (BitVec 8) := [0x6F, 0x70, 0x71, 0x72]
def vvWidth : List (BitVec 8) := [0x6D, 0x6E]
def vvPart : List (BitVec 8) := [0x5C, 0x5D, 0x5F]
def vvKind : List (BitVec 8) := [0x73, 0x74]
def vvSingle : List (BitVec 8) := [0x51, 0x52, 0x53, 0x54, 0x5B, 0x66, 0x75, 0x76, 0x77]

/-- Opcodes of formats VS and VR. -/
def vsFree : List (BitVec 8) :=
  [0x43, 0x44, 0x45, 0x46, 0x47, 0x48, 0x49, 0x4A, 0x4B, 0x4C, 0x4D, 0x4E, 0x62, 0x63, 0x64]
def vsNoVa : List (BitVec 8) := [0x55, 0x57, 0x67, 0x68, 0x69, 0x6A, 0x6B, 0x6C]
def vsSingle : List (BitVec 8) := [0x4F, 0x56, 0x65]

/-- The opcodes that no table assigns (R82 cause 1). -/
def unassigned : List (BitVec 8) :=
  [0x18, 0x19, 0x1A, 0x1B, 0x1C, 0x1D, 0x1E, 0x1F, 0x20, 0x21, 0x22, 0x23, 0x24, 0x25, 0x26, 0x27, 0x28, 0x29, 0x2A, 0x2B,
    0x2C, 0x2D, 0x2E, 0x2F, 0x30, 0x31, 0x32, 0x33, 0x34, 0x35, 0x36, 0x37, 0x38, 0x39, 0x3A, 0x3B, 0x3C, 0x3D, 0x3E, 0x3F,
    0x7C, 0x7D, 0x7E, 0x7F, 0x80, 0x81, 0x82, 0x83, 0x84, 0x85, 0x86, 0x87, 0x88, 0x89, 0x8A, 0x8B, 0x8C, 0x8D, 0x8E, 0x8F,
    0x9C, 0x9D, 0x9E, 0x9F, 0xA7, 0xA8, 0xA9, 0xAA, 0xAB, 0xAC, 0xAD, 0xAE, 0xAF, 0xB7, 0xB8, 0xB9, 0xBA, 0xBB, 0xBC, 0xBD,
    0xBE, 0xBF, 0xCE, 0xCF, 0xDD, 0xDE, 0xDF, 0xED, 0xEE, 0xEF, 0xF1, 0xF2, 0xF3, 0xF4, 0xF5, 0xF6, 0xF7, 0xF8, 0xF9, 0xFA,
    0xFB, 0xFC, 0xFD, 0xFE, 0xFF]

section
variable {w : Word} {op : BitVec 8} (hop : w.extractLsb' 24 8 = op) (n : Word)
include hop

theorem decodeMap_unassigned (hrow : op ∈ unassigned) : decodeMap w n = .error .unassignedOpcode := by
  unfold decodeMap
  rw [hop]
  fin_cases hrow <;> rfl

theorem encodes_ssFree (hrow : op ∈ ssFree) : Encodes w n (decodeMap w n) := by
  unfold decodeMap
  rw [hop]
  fin_cases hrow <;> exact .of_ss hop rfl rfl rfl

theorem encodes_ssTable (hrow : op ∈ ssTable) : Encodes w n (decodeMap w n) := by
  unfold decodeMap
  rw [hop]
  fin_cases hrow <;> exact .of_map (.of_ss hop rfl rfl rfl)

theorem encodes_ssNoSa (hrow : op ∈ ssNoSa) : Encodes w n (decodeMap w n) := by
  unfold decodeMap
  rw [hop]
  fin_cases hrow <;> exact .of_mustZero fun ha => .of_ss hop rfl (eq_of_beq ha) rfl

theorem encodes_ssNoSd (hrow : op ∈ ssNoSd) : Encodes w n (decodeMap w n) := by
  unfold decodeMap
  rw [hop]
  fin_cases hrow <;> exact .of_mustZero fun hd => .of_ss hop (eq_of_beq hd) rfl rfl

theorem encodes_ssBare (hrow : op ∈ ssBare) : Encodes w n (decodeMap w n) := by
  unfold decodeMap
  rw [hop]
  fin_cases hrow <;> refine .of_mustZero fun h => ?_ <;> simp only [Bool.and_eq_true, beq_iff_eq] at h
  all_goals
    obtain ⟨hd, ha⟩ := h
    exact .of_ss hop hd ha rfl

theorem encodes_ssBarrier (hrow : op ∈ ssBarrier) : Encodes w n (decodeMap w n) := by
  unfold decodeMap
  rw [hop]
  fin_cases hrow <;> refine .of_mustZero fun h => ?_ <;> simp only [Bool.and_eq_true, beq_iff_eq] at h
  all_goals
    obtain ⟨⟨hd, ha⟩, hsub⟩ := h
    exact .of_ss_ok hop hd (wide4_of_high ha).symm hsub rfl

theorem encodes_ssSingle (hrow : op ∈ ssSingle) : Encodes w n (decodeMap w n) := by
  unfold decodeMap
  rw [hop]
  fin_cases hrow
  · refine .of_mustZero fun h => ?_
    simp only [Bool.and_eq_true, beq_iff_eq] at h
    obtain ⟨⟨hd, ha⟩, hsub⟩ := h
    exact .of_ss_ok hop hd ha hsub rfl
  · exact .of_mustZero fun hsub => .of_ss_ok hop rfl rfl (eq_of_beq hsub) rfl
  · refine .of_mustZero fun h => ?_
    simp only [Bool.and_eq_true, beq_iff_eq] at h
    obtain ⟨ha, hsub⟩ := h
    exact .of_ss_ok hop rfl ha hsub rfl
  · exact .of_mustZero fun ha => .of_map (.of_ss hop rfl (eq_of_beq ha) rfl)
  · exact .of_mustZero fun hsub => .of_ss_ok hop rfl rfl (eq_of_beq hsub) rfl
  · refine .of_mustZero fun h => .of_pick (fun k => [ss 0x0E (if k = 0 then 0 else w.extractLsb' 14 10)
      (if k = 0 then w.extractLsb' 4 10 else 0) k]) ?_ rfl
    rw [literals_of_opcode hop]
    split
    · next hsub =>
      rw [hsub] at h
      rw [ss_fields hop (eq_of_beq h) rfl]
      rfl
    · next hsub =>
      split at h
      · contradiction
      · rw [ss_fields hop rfl (eq_of_beq h)]
        rfl
  · refine .of_mustZero fun h => ?_
    simp only [Bool.and_eq_true, beq_iff_eq] at h
    obtain ⟨⟨hd, ha⟩, hsub⟩ := h
    exact .of_ss_ok hop hd ha hsub rfl
  · refine .of_mustZero fun h => .of_pick (fun k => [ss 0x10
      (if k.toNat < 3 then w.extractLsb' 14 10 else wide5 ((w.extractLsb' 14 10).extractLsb' 0 5))
      (if k.toNat < 8 then wide5 ((w.extractLsb' 4 10).extractLsb' 0 5) else 0) k]) ?_ rfl
    simp only [Bool.and_eq_true, Bool.or_eq_true, decide_eq_true_eq] at h
    obtain ⟨ha, hd⟩ := h
    have hsa : (if (w.extractLsb' 0 4).toNat < 8 then wide5 ((w.extractLsb' 4 10).extractLsb' 0 5) else 0) =
        w.extractLsb' 4 10 := by
      split <;> rename_i hsub <;> simp only [hsub, if_true, if_false, beq_iff_eq] at ha
      · exact wide5_of_high ha
      · exact ha.symm
    have hsd : (if (w.extractLsb' 0 4).toNat < 3 then w.extractLsb' 14 10 else
        wide5 ((w.extractLsb' 14 10).extractLsb' 0 5)) = w.extractLsb' 14 10 := by
      split <;> rename_i hsub
      · rfl
      · exact wide5_of_high (eq_of_beq (hd.resolve_left hsub))
    rw [hsa, hsd, ss_fields hop rfl rfl, literals_of_opcode hop]
    rfl
  · refine .of_mustZero fun h => ?_
    simp only [Bool.and_eq_true, beq_iff_eq] at h
    obtain ⟨ha, hsub⟩ := h
    exact .of_ss_ok hop rfl (wide4_of_high ha).symm hsub rfl
  · refine .of_mustZero fun h => ?_
    simp only [Bool.and_eq_true, beq_iff_eq] at h
    obtain ⟨hd, ha⟩ := h
    exact .of_ss hop hd (wide2_of_high ha).symm rfl
  · rcases eq_or_ne (w.extractLsb' 14 10) 0 with hd | hd
    · rw [hd]
      exact .of_map (.of_ss hop hd rfl rfl)
    · have hrow : ¬ (w.extractLsb' 14 10 == 0) = true := by simpa using hd
      simp only [if_neg hrow]
      exact .of_map (.of_ss hop rfl rfl rfl)
  · exact .of_mustZero fun hd => .of_map (.of_ss hop (eq_of_beq hd) rfl rfl)

theorem encodes_brBare (hrow : op ∈ brBare) : Encodes w n (decodeMap w n) := by
  unfold decodeMap
  rw [hop]
  fin_cases hrow <;> refine .of_mustZero fun h => ?_ <;> simp only [Bool.and_eq_true, beq_iff_eq, Bool.not_eq_true'] at h
  all_goals
    obtain ⟨⟨⟨⟨hd, hu⟩, hcond⟩, ht⟩, hz⟩ := h
    exact .of_br_ok hop hd hu hcond ht hz rfl

theorem encodes_brSingle (hrow : op ∈ brSingle) : Encodes w n (decodeMap w n) := by
  unfold decodeMap
  rw [hop]
  fin_cases hrow <;> refine .of_mustZero fun h => ?_ <;> simp only [Bool.and_eq_true, beq_iff_eq, Bool.not_eq_true'] at h
  · obtain ⟨⟨hu, ht⟩, hz⟩ := h
    refine .of_map (.of_pick (fun k => [br 0x11 (w.extractLsb' 14 10) false k 0, n]) ?_ rfl)
    rw [br_fields hop rfl hu ht hz, literals_of_opcode hop]
    rfl
  · obtain ⟨hd, hz⟩ := h
    refine .of_pick (fun k => [br 0x12 0 (w.getLsbD 13) k (w.extractLsb' 5 5), n]) ?_ rfl
    rw [br_fields hop hd rfl rfl hz, literals_of_opcode hop]
    rfl
  · obtain ⟨⟨⟨hu, hcond⟩, ht⟩, hz⟩ := h
    exact .of_br_ok hop rfl hu hcond ht hz rfl

theorem encodes_vvFree (hrow : op ∈ vvFree) : Encodes w n (decodeMap w n) := by
  unfold decodeMap
  rw [hop]
  fin_cases hrow <;> exact .of_vv hop rfl rfl rfl rfl

theorem encodes_vvNoVb (hrow : op ∈ vvNoVb) : Encodes w n (decodeMap w n) := by
  unfold decodeMap
  rw [hop]
  fin_cases hrow <;> exact .of_mustZero fun hb => .of_vv hop rfl rfl (eq_of_beq hb) rfl

theorem encodes_vvReturn (hrow : op ∈ vvReturn) : Encodes w n (decodeMap w n) := by
  unfold decodeMap
  rw [hop]
  fin_cases hrow <;> exact .of_vv hop rfl rfl rfl (by simp only [List.map, encode, wide3_false, wide3_true]; rfl)

theorem encodes_vvWidth (hrow : op ∈ vvWidth) : Encodes w n (decodeMap w n) := by
  unfold decodeMap
  rw [hop]
  fin_cases hrow <;> exact .of_mustZero fun hb => .of_map (.of_vv hop rfl rfl (eq_of_beq hb) rfl)

theorem encodes_vvPart (hrow : op ∈ vvPart) : Encodes w n (decodeMap w n) := by
  unfold decodeMap
  rw [hop]
  fin_cases hrow <;> exact .of_mustZero fun hb => .of_vv_ok hop rfl rfl (eq_of_beq hb) rfl rfl

theorem encodes_vvKind (hrow : op ∈ vvKind) : Encodes w n (decodeMap w n) := by
  unfold decodeMap
  rw [hop]
  fin_cases hrow <;> refine .of_map (.of_pick (fun k => [vv _ _ _ _ (k ++ BitVec.ofBool _)]) ?_ rfl)
  all_goals
    rw [flagged_eq, vv_fields hop rfl rfl rfl, literals_of_opcode hop]
    rfl

theorem encodes_vvSingle (hrow : op ∈ vvSingle) : Encodes w n (decodeMap w n) := by
  unfold decodeMap
  rw [hop]
  fin_cases hrow
  · exact .of_mustZero fun hd => .of_vv_ok hop (wide7_of_high (eq_of_beq hd)).symm rfl rfl rfl rfl
  · exact .of_mustZero fun hd => .of_vv hop (wide7_of_high (eq_of_beq hd)).symm rfl rfl rfl
  · exact .of_vv_ok hop rfl rfl rfl rfl rfl
  · refine .of_mustZero fun h => .of_pick (fun k => [vv 0x54 (w.extractLsb' 17 7) (if k = 0 then w.extractLsb' 10 7 else 0) 0 k]) ?_ rfl
    simp only [Bool.and_eq_true, Bool.or_eq_true, beq_iff_eq] at h
    obtain ⟨hb, ha⟩ := h
    rw [literals_of_opcode hop]
    split
    · rw [vv_fields hop rfl rfl hb]
      rfl
    · next hsub =>
      rw [vv_fields hop rfl (ha.resolve_left hsub) hb]
      rfl
  · exact .of_mustZero fun hd => .of_map (.of_vv hop (wide7_of_high (eq_of_beq hd)).symm rfl rfl rfl)
  · refine .of_mustZero fun hb => .of_map (.of_pick (fun k => [vv _ _ _ 0 (k ++ BitVec.ofBool _)]) ?_ rfl)
    rw [flagged_eq, vv_fields hop rfl rfl (eq_of_beq hb), literals_of_opcode hop]
    rfl
  · change Encodes w n (if _ then _ else _)
    split
    · next hsub => exact .of_vv_ok hop rfl rfl rfl (eq_of_beq hsub) rfl
    · exact .of_error
  · refine .of_mustZero fun h => ?_
    simp only [Bool.and_eq_true, beq_iff_eq] at h
    obtain ⟨⟨hd, hb⟩, hsub⟩ := h
    exact .of_vv_ok hop hd rfl hb hsub rfl
  · refine .of_mustZero fun h => ?_
    simp only [Bool.and_eq_true, beq_iff_eq] at h
    obtain ⟨⟨ha, hb⟩, hsub⟩ := h
    exact .of_vv_ok hop rfl ha hb hsub rfl

theorem encodes_vsFree (hrow : op ∈ vsFree) : Encodes w n (decodeMap w n) := by
  unfold decodeMap
  rw [hop]
  fin_cases hrow <;> exact .of_vs hop rfl rfl rfl

theorem encodes_vsNoVa (hrow : op ∈ vsNoVa) : Encodes w n (decodeMap w n) := by
  unfold decodeMap
  rw [hop]
  fin_cases hrow <;> exact .of_mustZero fun ha => .of_vs hop rfl (eq_of_beq ha) rfl

theorem encodes_vsSingle (hrow : op ∈ vsSingle) : Encodes w n (decodeMap w n) := by
  unfold decodeMap
  rw [hop]
  fin_cases hrow
  · refine .of_map (.of_pick (fun k => [vs 0x4F (k ++ BitVec.extractLsb' 0 3 _) _ _]) ?_ rfl)
    rw [numbered_eq, vs_fields hop rfl rfl, literals_of_opcode hop]
    rfl
  · refine .of_mustZero fun h => ?_
    simp only [Bool.and_eq_true, beq_iff_eq] at h
    obtain ⟨hsub, hz⟩ := h
    have hw := vr_fields hop hz
    rw [hsub] at hw
    refine .of_ok ?_
    rw [literals_of_opcode hop]
    exact congrArg (fun v => [v]) hw
  · refine .of_mustZero fun hz => .of_map (.of_pick (fun k => [vr 0x65 _ _ k]) ?_ rfl)
    rw [vr_fields hop (eq_of_beq hz), literals_of_opcode hop]
    rfl
end
/-- Every opcode has its row, or no table assigns it. -/
theorem opcode_rows : ∀ op : BitVec 8, op ∈ ssFree ∨ op ∈ ssTable ∨ op ∈ ssNoSa ∨ op ∈ ssNoSd ∨ op ∈ ssBare ∨
    op ∈ ssSingle ∨ op ∈ ssBarrier ∨ op ∈ brBare ∨ op ∈ brSingle ∨ op ∈ vvFree ∨ op ∈ vvNoVb ∨ op ∈ vvReturn ∨
    op ∈ vvWidth ∨ op ∈ vvPart ∨ op ∈ vvKind ∨ op ∈ vvSingle ∨ op ∈ vsFree ∨ op ∈ vsNoVa ∨ op ∈ vsSingle ∨
    op ∈ unassigned := by
  decide +kernel

/-- What the opcode map answers is encoded by the word. -/
theorem encodes_decodeMap (w n : Word) : Encodes w n (decodeMap w n) := by
  rcases opcode_rows (w.extractLsb' 24 8) with h | h | h | h | h | h | h | h | h | h | h | h | h | h | h | h | h | h | h | h
  · exact encodes_ssFree rfl n h
  · exact encodes_ssTable rfl n h
  · exact encodes_ssNoSa rfl n h
  · exact encodes_ssNoSd rfl n h
  · exact encodes_ssBare rfl n h
  · exact encodes_ssSingle rfl n h
  · exact encodes_ssBarrier rfl n h
  · exact encodes_brBare rfl n h
  · exact encodes_brSingle rfl n h
  · exact encodes_vvFree rfl n h
  · exact encodes_vvNoVb rfl n h
  · exact encodes_vvReturn rfl n h
  · exact encodes_vvWidth rfl n h
  · exact encodes_vvPart rfl n h
  · exact encodes_vvKind rfl n h
  · exact encodes_vvSingle rfl n h
  · exact encodes_vsFree rfl n h
  · exact encodes_vsNoVa rfl n h
  · exact encodes_vsSingle rfl n h
  · rw [decodeMap_unassigned rfl n h]
    exact .of_error

/-! ### Decoding and encoding -/

/-- What `decode` answers is what the opcode map answers, with the checks of the fields and of the literal passed. -/
theorem decode_eq_ok {w : Word} {lit : Option Word} {i : Instr} : decode w lit = .ok i ↔
    decodeMap w (lit.getD 0) = .ok i ∧ Machine.reservedValue i = false ∧ Machine.fieldNotZero i = false ∧
      (hasLiteral (w.extractLsb' 24 8) = true → lit.isSome = true) := by
  unfold decode
  cases decodeMap w (lit.getD 0) with
  | error c => simp
  | ok j =>
    constructor
    · intro h
      dsimp only at h
      split at h
      · cases h
      split at h
      · cases h
      split at h
      · cases h
      next hres hzero hlit =>
        cases h
        refine ⟨rfl, by simpa using hres, by simpa using hzero, fun hl => ?_⟩
        simpa [hl, Option.isSome_iff_ne_none] using hlit
    · rintro ⟨⟨⟩, hres, hzero, hlit⟩
      cases hl : hasLiteral (w.extractLsb' 24 8) with
      | true => simpa [hres, hzero, Option.isSome_iff_ne_none] using hlit hl
      | false => simp [hres, hzero]

/-- A well-formed instruction has no value that the decoder refuses. -/
theorem checks_of_wf {i : Instr} (h : i.wf = true) :
    i.namesOwnRow = true ∧ Machine.reservedValue i = false ∧ Machine.fieldNotZero i = false := by
  simp only [Instr.wf, Bool.and_eq_true, Machine.operandCause] at h
  obtain ⟨hown, hcause⟩ := h
  split at hcause
  · cases hcause
  · split at hcause
    · cases hcause
    · next hres hzero => exact ⟨hown, by simpa using hres, by simpa using hzero⟩

/-- A word whose opcode is marked L is followed by its literal. -/
theorem literal_of_encode {i : Instr} (hown : i.namesOwnRow = true) {w : Word} {ws : List Word} (h : encode i = w :: ws)
    (hlit : hasLiteral (w.extractLsb' 24 8) = true) : ws.head?.isSome = true := by
  have hrow := encodes_decodeMap w (ws.head?.getD 0) i (decodeMap_encode hown h)
  rw [h, literals, if_pos hlit] at hrow
  rw [(List.cons.inj hrow).2]
  rfl

/-- Settles O45: the opcode map reads each format's fields back, and each of its rows encodes to the word read. -/
theorem decodingInvertsEncoding : Obligations.DecodingInvertsEncoding := by
  unfold Obligations.DecodingInvertsEncoding
  refine ⟨fun i hwf w ws h => ?_, fun w n i h => ?_⟩
  · obtain ⟨hown, hres, hzero⟩ := checks_of_wf hwf
    exact decode_eq_ok.2 ⟨decodeMap_encode hown h, hres, hzero, literal_of_encode hown h⟩
  · exact encodes_decodeMap w n i (decode_eq_ok.1 h).1

/-- The ranges of opcodes that O46 names are those without a row. -/
theorem mem_unassigned : ∀ op : BitVec 8, (∃ r ∈ [(0x18, 0x3F), (0x7C, 0x8F), (0x9C, 0x9F), (0xA7, 0xAF), (0xB7, 0xBF),
      (0xCE, 0xCF), (0xDD, 0xDF), (0xED, 0xEF), (0xF1, 0xFF)], r.1 ≤ op.toNat ∧ op.toNat ≤ r.2) → op ∈ unassigned := by
  decide +kernel

theorem opcode_toNat (w : Word) : (w.extractLsb' 24 8).toNat = w.toNat / 2 ^ 24 := by
  have hlt := w.isLt
  rw [BitVec.extractLsb'_toNat, Nat.shiftRight_eq_div_pow]
  omega

/-- Settles O46: the words of the tables by evaluation, the others by the opcodes that no row has. -/
theorem encodedWordsDecode : Obligations.EncodedWordsDecode := by
  unfold Obligations.EncodedWordsDecode
  refine ⟨by decide, by decide, fun w n h => ?_⟩
  rw [← opcode_toNat] at h
  rw [decode, decodeMap_unassigned rfl _ (mem_unassigned _ h)]
end Sys2Proof

namespace Sys2Proof.Machine

/-! ### Slots that stop before their instruction -/

/-- An instruction with words issues as a slot. -/
theorem exec_slot {i : Instr} (h : encode i ≠ []) : ∃ body, ∀ s, exec i s = slot i body s := by
  cases i
  case divisionComplete | clauseStart | logOperationComplete | copyCommandComplete | copyFault | matrixCommandComplete |
      unrootedEventTakesEffect | taskPlacement | continuationResume | commit | gatheredLaunchStart |
      hostSubmissionEntry | hostLaunchRequest | srtailDoorbell | svdbDoorbell | fnmapWrite | supervisorEntry | evtRead |
      tqactResume | tqactTerminate | tqactResumeAtTqrpc | cfqactReplay | cfqactDecline | preempt | drainComplete |
      drainDeadlineExpiry | contextSpaceWrite | profilingBufferMove | profileSample | dqactResume | dqactStep |
      dqactTerminate | dqactHold | haltreq | dwdataAccess | debugWindowAccess | measurementExtend | attestationQuote |
      attestationQuoteComplete | unlockVerify | unlockVerifyComplete | unlockCommit | kwipe | checkpointSave |
      checkpointRestore | checkpointComplete | packageReset | recoveryImageSubmit | hostLinkDown | linkDown |
      uncorrectableError | supplyDroop | lifetimeSecondTick | lifetimeCounterPersist | registerWrite | stallReasonCount |
      sweliLinkRetrain | hostLinkRetrain | correctedEccEvent | managementControllerCap | receiveTableWrite | dsackWrite |
      careaWrite | replyEntryVisible =>
    exact absurd rfl h
  all_goals exact ⟨_, fun _ => rfl⟩

section
variable {s : State} {w : Who} {c : Clause} {i : Instr} (hi : encode i ≠ []) (ha : s.actor = .split w.g w.x)
  (hw : whoOf s w.g w.x = some w) (hc : w.sp.clause = some c)
include hi ha hw hc

/-- A slot that a check before the instruction stops is settled so. -/
theorem exec_of_precheck {r : Res} (h : precheck s w c i = some r) : exec i s = settle s w r := by
  obtain ⟨body, hbody⟩ := exec_slot hi
  simp [hbody, slot, ha, hw, hc, groupSlot, h]

/-- A PC comparator that matches stops the slot first. -/
theorem exec_of_pcHit {t : Trap} (h : pcHit s w c = some t) : exec i s = settle s w (.trap t) :=
  exec_of_precheck hi ha hw hc (by simp [precheck, h])

/-- An instruction of the control core is refused next (R111). -/
theorem exec_of_privileged (hp : pcHit s w c = none) (h : isPrivileged i = true) : exec i s = settle s w
    (.trap { cls := 0, cause := 15, stat := true, slot := c.idx, d0 := c.hw, off := some c.off }) :=
  exec_of_precheck hi ha hw hc (by simp [precheck, hp, h])
end

/-- What a pending register raises is HAZARD. -/
theorem hazardIn_hazard {pend : List Pend} {kind : Nat} {regs : List Nat} {t : Trap} (h : hazardIn pend kind regs = some t) :
    t.cls = 2 ∧ t.cause = 1 := by
  obtain ⟨p, -, rfl⟩ := Option.map_eq_some_iff.1 h
  exact ⟨rfl, rfl⟩

theorem hazardOf_hazard {w : Who} {i : Instr} {t : Trap} (h : hazardOf w i = some t) : t.cls = 2 ∧ t.cause = 1 := by
  simp only [hazardOf] at h
  split at h
  · cases h
  · rcases (Option.orElse_eq_some _ _ _).1 h with h | ⟨-, h⟩ <;> exact hazardIn_hazard h

/-- Settles O51: the checks before an instruction, in the order in which `precheck` makes them. -/
theorem stopsBeforeTheInstruction : Obligations.StopsBeforeTheInstruction := by
  unfold Obligations.StopsBeforeTheInstruction
  intro s w c i hi ha hw hc
  refine ⟨fun t => exec_of_pcHit hi ha hw hc, fun hp => ⟨exec_of_privileged hi ha hw hc hp, fun hv => ⟨fun k hk => ?_,
    fun hk => ⟨fun t ht => ?_, fun hz hb => ?_⟩⟩⟩⟩
  · exact exec_of_precheck hi ha hw hc (by simp [precheck, hp, hv, hk])
  · obtain ⟨hcls, hcause⟩ := hazardOf_hazard ht
    exact ⟨hcls, hcause, exec_of_precheck hi ha hw hc (by simp [precheck, hp, hv, hk, ht])⟩
  · exact exec_of_precheck hi ha hw hc (by simp [precheck, hp, hv, hk, hz, hb])

end Sys2Proof.Machine

namespace Sys2Proof.Machine

/-! ### System registers (R407, R410) -/

section
variable {s : State} {d : Nat} (c : Clause) (ha : s.actor = .core d)
include ha

/-- `RDSR` writes what a read of the register answers. -/
theorem rdsr_runs {sd : SReg} {n : BitVec 10} {t : State} {v : Word} (h : sysRead s d n.toNat = (t, v)) :
    runsOnCore s d c (.rdsr sd n) { s := uwrite t sd.toNat v } :=
  fun hi => slot_core hi (by simp [withCore, ha, h, Res.done])

/-- `WRSR` makes the register's write, but for one of PREEMPT, which may wait. -/
theorem wrsr_runs {sa : SReg} {n : BitVec 10} {t : State} (hn : n.toNat ≠ 320)
    (h : sysWrite s d n.toNat (uread s sa.toNat) = t) : runsOnCore s d c (.wrsr n sa) { s := t } :=
  fun hi => slot_core hi (by simp [withCore, ha, h, Res.done, sysWriteWaits, hn])
end

/-- The plain registers with the bits that they have, those apart that only die 0 has or that stand behind a selector. -/
def plainRegs : List (Nat × Word) :=
  [(2, 0x3F000), (3, 0xFFFFFFFF), (5, 0xFFFF), (8, 0xFFFFFFFF), (322, 3), (324, 0xF0FFF), (326, 0x30FFF), (330, 0xFFFFF),
    (512, 0x3FF80), (540, 0xFFFFFFFF), (560, 0x7F7F), (584, 0xFFFFFFFF), (604, 0xFFFFFFC0), (605, 0xFF), (621, 0x1F),
    (626, 0xFFFFFFFF), (627, 0xFFFFFFFF), (628, 0xFFFFFFFF), (629, 0xFFFFFFFF), (634, 0xFFFFF)]

theorem plainMask_plainRegs (d : Nat) {r : Nat × Word} (hr : r ∈ plainRegs) : plainMask d r.1 = some r.2 := by
  fin_cases hr <;> rfl

theorem sysWrite_plain (s : State) (d : Nat) {r : Nat × Word} (hr : r ∈ plainRegs) (v : Word) :
    sysWrite s d r.1 v = sysSet s d r.1 (v &&& r.2) := by
  simp [sysWrite, plainMask_plainRegs d hr]

theorem sysRead_plain (s : State) (d : Nat) {r : Nat × Word} (hr : r ∈ plainRegs) :
    sysRead s d r.1 = (s, sysGet s d r.1) := by
  fin_cases hr <;> rfl

/-- No row names a register from 640 on. -/
theorem sysRead_unnamed (s : State) (d : Nat) {n : Nat} (h : 640 ≤ n) : sysRead s d n = (s, 0) := by
  simp [sysRead, show n ≠ 321 by omega, show n ≠ 541 by omega, show ¬ n ≤ 586 by omega, show ¬ n ≤ 639 by omega,
    show ¬ n < 332 by omega]

theorem plainMask_unnamed (d : Nat) {n : Nat} (h : 640 ≤ n) : plainMask d n = none := by
  unfold plainMask
  split <;> simp at h ⊢

theorem sysWrite_unnamed (s : State) (d : Nat) {n : Nat} (h : 640 ≤ n) (v : Word) : sysWrite s d n v = s := by
  simp only [sysWrite, plainMask_unnamed d h, show ¬ n < 320 by omega, show ¬ n ≤ 566 by omega, decide_false, Bool.and_false,
    Bool.false_eq_true, if_false]
  split <;> simp at h ⊢

/-- A read leaves the machine as it is, but for the queue's head and the debug window's. -/
theorem sysRead_state (s : State) (d : Nat) {n : Nat} (hevt : n ≠ 321) (hwin : n ≠ 541) : (sysRead s d n).1 = s := by
  simp only [sysRead, if_neg hevt, if_neg hwin]
  repeat' split
  all_goals rfl

/-- Settles O41, register by register; a split is stopped before any of the instructions. -/
theorem systemRegistersReadAndWrite : Obligations.SystemRegistersReadAndWrite := by
  unfold Obligations.SystemRegistersReadAndWrite
  refine ⟨fun s d c sd sa n ha => ⟨fun r hr hn => ⟨?_, ?_⟩, fun r hr hn => ?_, fun hn => ?_, fun hn e es hev => ?_,
    fun hn => ⟨?_, ?_⟩, fun t v hevt hwin h => ?_⟩, fun s w c sd sa n i hi ha hw hc hp => ?_⟩
  · have hwait : n.toNat ≠ 320 := by rw [hn]; fin_cases hr <;> decide
    exact wrsr_runs c ha hwait (by rw [hn]; exact sysWrite_plain s d hr _)
  · exact rdsr_runs c ha (by rw [hn]; exact sysRead_plain s d hr)
  · refine rdsr_runs c ha ?_
    rw [hn]
    fin_cases hr <;> rfl
  · exact wrsr_runs c ha (by omega) (by rw [hn]; rfl)
  · exact rdsr_runs c ha (by simp [hn, sysRead, hev])
  · exact rdsr_runs c ha (sysRead_unnamed s d hn)
  · exact wrsr_runs c ha (by omega) (sysWrite_unnamed s d hn _)
  · rw [← sysRead_state s d hevt hwin, h]
  · fin_cases hi <;> exact exec_of_privileged (List.cons_ne_nil _ _) ha hw hc hp rfl

end Sys2Proof.Machine

namespace Sys2Proof.Machine

/-! ### A clause start that counts stripes

Under a WAIT flag the clause start fixes the logical time of the commands in flight (R40), and with it the stripes that
their local ranges touch count for the team (R222): `fixTimes` adds them to the team. -/

/-- A command of group 5 in flight under f0, whose logical time is open and which writes the scratchpad bytes 0 to 3. -/
def openWrite : Cmd :=
  { group := 5, split := 0, team := 4, task := 3, flag := 0, sd := 0, into := [0], key := 0, clock := 0, prog := 0,
    writes := [(0, 4)], body := .waits }

/-- That command in flight, its flag counter at 0, and its issuer before a clause at address 0 of mapped memory: a header
with a WAIT on f0, and `NOP`. -/
def waitsForOpenWrite : State :=
  let s := placeOnGroup State.reset (encode .nop)
  updSplit { s with
    actor := .split 5 0
    mem := [(2, 0x10), (0x20000, 3), (0x20002, 3), (0x30000, 29)]
    ctxs := [(0, { ctxOf s 0 with ttb := 0x20000 })]
    cmds := [(1, openWrite)] } 5 0 fun sp => { sp with clause := none }

/-- The header and the words that an issuer fetches at its pc, where nothing stops the fetch. -/
def fetched (s : State) (w : Who) : Option (Word × List Word) :=
  match fetchWord s w.launch w.team.die ((recCode w.task.words + w.sp.pc) % 2 ^ 56) with
  | .error _ => none
  | .ok hw =>
    match fetchWords s w.launch w.team.die (recCode w.task.words + w.sp.pc + 4) (hdrLen hw) with
    | .error _ => none
    | .ok words => some (hw, words)

/-- What is fetched is what the two fetches of a clause start give. -/
theorem fetched_eq_some {s : State} {w : Who} {hw : Word} {words : List Word} (h : fetched s w = some (hw, words)) :
    fetchWord s w.launch w.team.die ((recCode w.task.words + w.sp.pc) % 2 ^ 56) = .ok hw ∧
      fetchWords s w.launch w.team.die (recCode w.task.words + w.sp.pc + 4) (hdrLen hw) = .ok words := by
  unfold fetched at h
  split at h
  · contradiction
  · next hw' hfetch =>
    split at h
    · contradiction
    · next words' hrest =>
      cases h
      exact ⟨hfetch, hrest⟩

/-- That split 0 of group 5 stands before a clause that passes the static checks, with no flag counter above 0. -/
def issuerStarts (s : State) : Bool :=
  match whoOf s 5 0 with
  | none => false
  | some w =>
    match fetched s w with
    | none => false
    | some (hw, words) => decide (w.g = 5 ∧ w.x = 0 ∧ w.sp.clause = none ∧
        staticCheck (some ⟨(w.grp.vnext.map (·.1)).getD w.grp.vcount, recFeat w.task.words⟩) hw words w.sp.last = none ∧
        w.grp.flags = [])

/-- What `issuerStarts` finds, for any state: the kernel then evaluates the concrete state only where it decides. -/
theorem exists_of_issuerStarts {s : State} (h : issuerStarts s = true) : ∃ w hw words, whoOf s 5 0 = some w ∧
    fetched s w = some (hw, words) ∧ w.g = 5 ∧ w.x = 0 ∧ w.sp.clause = none ∧
    staticCheck (some ⟨(w.grp.vnext.map (·.1)).getD w.grp.vcount, recFeat w.task.words⟩) hw words w.sp.last = none ∧
    w.grp.flags = [] := by
  unfold issuerStarts at h
  split at h
  · contradiction
  · next w hwho =>
    split at h
    · contradiction
    · next hw words hfetch => exact ⟨w, hw, words, hwho, hfetch, of_decide_eq_true h⟩

theorem issuerStarts_waitsForOpenWrite : issuerStarts waitsForOpenWrite = true := by decide +kernel

/-- After the clause start the team has a stripe more. -/
theorem clauseStart_waitsForOpenWrite_teams {t : State} (h : exec .clauseStart waitsForOpenWrite = .next t) :
    t.teams ≠ waitsForOpenWrite.teams := by
  have hrun : (match exec .clauseStart waitsForOpenWrite with
      | .next t => decide (t.teams ≠ waitsForOpenWrite.teams)
      | _ => false) = true := by decide +kernel
  rw [h] at hrun
  exact of_decide_eq_true hrun

/-- Refutes O50: a clause start under a WAIT flag fixes the time of a command in flight that writes the scratchpad, and the
stripe that the command touches is added to the team, where the statement has every team as before. -/
theorem not_clauseStartFetchesChecksAndWaits : ¬ Obligations.ClauseStartFetchesChecksAndWaits := by
  unfold Obligations.ClauseStartFetchesChecksAndWaits
  rintro ⟨hsplit, -⟩
  obtain ⟨w, hw, words, hwho, hfetched, hg, hx, hclause, hcheck, hflags⟩ :=
    exists_of_issuerStarts issuerStarts_waitsForOpenWrite
  obtain ⟨hfetch, hrest⟩ := fetched_eq_some hfetched
  have hissuer : whoOf waitsForOpenWrite w.g w.x = some w := by rw [hg, hx, hwho]
  have hactor : waitsForOpenWrite.actor = .split w.g w.x := by rw [hg, hx]; rfl
  obtain ⟨-, -, hstarts⟩ := hsplit _ w hw words hactor hissuer hclause hfetch hrest
  obtain ⟨t, -, hnext, -, -, hteams, -⟩ := hstarts hcheck fun f _ _ => by rw [hflags]; rfl
  exact clauseStart_waitsForOpenWrite_teams hnext hteams

end Sys2Proof.Machine

/-! ### Rounding at a position (R129) -/

namespace Sys2Proof.Machine

/-- Above the last bit of the magnitude, `roundAt` divides by the unit of the kept position: the quotient, one more where
the mode rounds up, and inexact where a remainder is dropped. -/
theorem roundAt_eq_of_lt {e q : Int} (h : e < q) (rm : Nat) (neg : Bool) (m : Nat) :
    roundAt rm neg m e false q =
      (m / 2 ^ (q - e).toNat +
          (roundsUp rm neg (m / 2 ^ (q - e).toNat) (m % 2 ^ (q - e).toNat) (2 ^ (q - e).toNat) false).toNat,
        decide (m % 2 ^ (q - e).toNat ≠ 0)) := by
  rw [roundAt, if_neg (not_le.mpr h)]
  cases hup : roundsUp rm neg (m / 2 ^ (q - e).toNat) (m % 2 ^ (q - e).toNat) (2 ^ (q - e).toNat) false <;> simp [hup]

@[simp] theorem roundsUp_rtz (neg : Bool) (n r d : Nat) (sticky : Bool) : roundsUp 1 neg n r d sticky = false := rfl

@[simp] theorem roundsUp_rdn_exactly (neg : Bool) (n r d : Nat) :
    roundsUp 2 neg n r d false = (neg && decide (r ≠ 0)) := by
  simp [roundsUp]

@[simp] theorem roundsUp_rup_exactly (neg : Bool) (n r d : Nat) :
    roundsUp 3 neg n r d false = (!neg && decide (r ≠ 0)) := by
  simp [roundsUp]

/-- RNE rounds up past the midpoint, and at the midpoint from an odd quotient. -/
theorem roundsUp_rne_exactly_iff {neg : Bool} {n r d : Nat} :
    roundsUp 0 neg n r d false = true ↔ d < 2 * r ∨ 2 * r = d ∧ n % 2 = 1 := by
  simp [roundsUp]

/-- The quotient rounded by RNE is within half a unit of the magnitude, and even at a tie. -/
theorem rne_quotient_nearest_even {neg : Bool} {m d : Nat} (hd : 0 < d) :
    let n := m / d + (roundsUp 0 neg (m / d) (m % d) d false).toNat
    2 * (n * d) ≤ 2 * m + d ∧ 2 * m ≤ 2 * (n * d) + d ∧ (2 * (m % d) = d → n % 2 = 0) := by
  have hsplit : m / d * d + m % d = m := Nat.div_add_mod' m d
  have hrem : m % d < d := Nat.mod_lt m hd
  by_cases hup : roundsUp 0 neg (m / d) (m % d) d false = true
  · have hpast := roundsUp_rne_exactly_iff.mp hup
    simp only [hup, Bool.toNat_true, Nat.add_mul, Nat.one_mul]
    omega
  · have hshort := mt roundsUp_rne_exactly_iff.mpr hup
    simp only [Bool.eq_false_of_not_eq_true hup, Bool.toNat_false, Nat.add_zero]
    omega

/-- The quotient that counts a dropped remainder as one more. -/
theorem div_add_toNat_dropped (m d : Nat) :
    m / d + (decide (m % d ≠ 0)).toNat = if m % d = 0 then m / d else m / d + 1 := by
  split <;> simp [*]

/-- Settles O7: each mode's `roundsUp` put into the quotient that `roundAt` keeps. -/
theorem roundingTakesTheModesNeighbour : Obligations.RoundingTakesTheModesNeighbour := by
  unfold Obligations.RoundingTakesTheModesNeighbour
  intro neg m e q hq d up
  have hd : 0 < d := Nat.two_pow_pos _
  simp only [roundAt_eq_of_lt hq]
  refine ⟨fun _ => rfl, rne_quotient_nearest_even hd, ?rtz, ?rdn, ?rup⟩
  case rtz => simp [d]
  case rdn =>
    cases neg
    · simp [d]
    · simpa using div_add_toNat_dropped m d
  case rup =>
    cases neg
    · simpa using div_add_toNat_dropped m d
    · simp [d]

end Sys2Proof.Machine

namespace Sys2Proof.Machine
-- Theorems one after another: in parallel, the stacks of the waiting threads go past the checker's memory limit.
set_option Elab.async false

/-! ### Uniform arithmetic (R163, R164) -/

/-- A slot that writes one uniform register runs, with what the register takes. -/
theorem writeSlot_runs {s : State} {i : Instr} {sd : SReg} {f : State → Word} {v : Word}
    (hx : exec i s = writeSlot i sd f s) (hv : f s = v) : runs s i { s := uwrite s sd.toNat v } := by
  subst hv
  exact slot_runs hx rfl

theorem shiftLeft_eq (x y : Word) : shiftLeft x y = BitVec.ofNat 32 (x.toNat * 2 ^ y.toNat) := by
  refine BitVec.eq_of_toNat_eq ?_
  unfold shiftLeft
  split
  · simp [Nat.shiftLeft_eq]
  · have hdvd : 2 ^ 32 ∣ x.toNat * 2 ^ y.toNat := Dvd.dvd.mul_left (Nat.pow_dvd_pow 2 (by omega)) _
    simpa using (Nat.mod_eq_zero_of_dvd hdvd).symm

theorem shiftRight_eq (x y : Word) : shiftRight x y = BitVec.ofNat 32 (x.toNat / 2 ^ y.toNat) := by
  have hx := x.isLt
  refine BitVec.eq_of_toNat_eq ?_
  rw [BitVec.toNat_ofNat, Nat.mod_eq_of_lt ((Nat.div_le_self ..).trans_lt hx)]
  unfold shiftRight
  split
  · simp [Nat.shiftRight_eq_div_pow]
  · have hle : 2 ^ 32 ≤ 2 ^ y.toNat := Nat.pow_le_pow_right (by omega) (by omega)
    simp [Nat.div_eq_of_lt (hx.trans_le hle)]

/-- A division by 2^31 or more leaves nothing but the sign. -/
theorem toInt_div_pow_of_le (x : Word) {n : Nat} (h : 31 ≤ n) : x.toInt / 2 ^ n = if x.toInt < 0 then -1 else 0 := by
  have hlo := x.le_toInt
  have hhi := x.toInt_lt
  have hpow : (2 ^ 31 : Int) ≤ 2 ^ n := pow_le_pow_right₀ (by omega) h
  simp only [Nat.reduceSub] at hlo hhi
  split
  · exact (Int.ediv_eq_iff_of_pos (by omega)).2 ⟨by omega, by omega⟩
  · exact Int.ediv_eq_zero_of_lt (by omega) (by omega)

theorem shiftArith_eq (x y : Word) : shiftArith x y = BitVec.ofInt 32 (x.toInt / 2 ^ y.toNat) := by
  rw [← BitVec.ofInt_toInt (x := shiftArith x y), shiftArith, BitVec.toInt_sshiftRight, Int.shiftRight_eq_div_pow]
  push_cast
  obtain h | h := Nat.le_total y.toNat 31
  · rw [min_eq_left h]
  · rw [min_eq_right h, toInt_div_pow_of_le x le_rfl, toInt_div_pow_of_le x h]

theorem minS_eq (x y : Word) : minS x y = BitVec.ofInt 32 (min x.toInt y.toInt) := by
  unfold minS
  split
  · next h => rw [min_eq_left h, BitVec.ofInt_toInt]
  · next h => rw [min_eq_right (by omega), BitVec.ofInt_toInt]

theorem maxS_eq (x y : Word) : maxS x y = BitVec.ofInt 32 (max x.toInt y.toInt) := by
  unfold maxS
  split
  · next h => rw [max_eq_left h, BitVec.ofInt_toInt]
  · next h => rw [max_eq_right (by omega), BitVec.ofInt_toInt]

theorem minU_eq (x y : Word) : minU x y = BitVec.ofNat 32 (min x.toNat y.toNat) := by
  unfold minU
  split
  · next h => rw [min_eq_left h, BitVec.ofNat_toNat, BitVec.setWidth_eq]
  · next h => rw [min_eq_right (by omega), BitVec.ofNat_toNat, BitVec.setWidth_eq]

theorem maxU_eq (x y : Word) : maxU x y = BitVec.ofNat 32 (max x.toNat y.toNat) := by
  unfold maxU
  split
  · next h => rw [max_eq_left h, BitVec.ofNat_toNat, BitVec.setWidth_eq]
  · next h => rw [max_eq_right (by omega), BitVec.ofNat_toNat, BitVec.setWidth_eq]

/-! #### Words with a field set that must be zero (R82 cause 3) -/

theorem decode_mustBeZero {w : Word} {n : Option Word} (h : ∀ lit, decodeMap w lit = .error .mustBeZero) :
    decode w n = .error .mustBeZero := by
  simp only [decode, h]

/-- The row of `NOP` has no field. -/
theorem decode_nop_mustBeZero {w : Word} (hop : w.toNat / 2 ^ 24 = 0) (hw : w ≠ 0) (n : Option Word) :
    decode w n = .error .mustBeZero := by
  have hfields : (w.extractLsb' 14 10 == 0 && w.extractLsb' 4 10 == 0 && w.extractLsb' 0 4 == 0) = false := by
    refine Bool.eq_false_iff.2 fun h => hw (BitVec.eq_of_toNat_eq ?_)
    simp only [Bool.and_eq_true, beq_iff_eq, BitVec.toNat_eq, BitVec.extractLsb'_toNat, Nat.shiftRight_eq_div_pow] at h
    obtain ⟨⟨hd, ha⟩, hs⟩ := h
    simp at *
    omega
  rw [← opcode_toNat] at hop
  refine decode_mustBeZero fun lit => ?_
  simp only [decodeMap, hop, mustZero, hfields, Bool.false_eq_true, if_false]

/-- The rows of `SLIT` and of the literal forms have no sa. -/
theorem decode_literal_mustBeZero {w : Word} (hop : w.toNat / 2 ^ 24 = 2 ∨ w.toNat / 2 ^ 24 = 4)
    (ha : w.toNat / 2 ^ 4 % 2 ^ 10 ≠ 0) (n : Option Word) : decode w n = .error .mustBeZero := by
  have hfield : (w.extractLsb' 4 10 == 0) = false := by
    rw [beq_eq_false_iff_ne, ne_eq, BitVec.toNat_eq, BitVec.extractLsb'_toNat, Nat.shiftRight_eq_div_pow]
    exact ha
  rw [← opcode_toNat] at hop
  refine decode_mustBeZero fun lit => ?_
  obtain hop | hop := hop
  · simp only [decodeMap, hop, mustZero, hfield, Bool.false_and, Bool.false_eq_true, if_false]
  · have hsub := (w.extractLsb' 0 4).isLt
    simp only [decodeMap, hop, hfield, pick]
    rw [List.getElem?_eq_getElem (by simpa using hsub)]
    simp [mustZero]

/-- Settles O1: every form is one write of the destination, whose value is the operation's. -/
theorem uniformArithmeticWritesResult : Obligations.UniformArithmeticWritesResult := by
  unfold Obligations.UniformArithmeticWritesResult
  refine ⟨fun w n => ⟨fun hop hw => decode_nop_mustBeZero hop hw n,
    fun hop ha => decode_literal_mustBeZero hop ha n⟩, fun s sd sa n => ⟨slot_runs rfl rfl, ?_⟩⟩
  simp only [← shiftLeft_eq, ← shiftRight_eq, ← shiftArith_eq, ← minS_eq, ← maxS_eq, ← minU_eq, ← maxU_eq,
    List.zip_cons_cons, List.zip_nil_right, List.cons_append, List.nil_append]
  repeat refine List.forall_mem_cons.2 ⟨writeSlot_runs rfl rfl, ?_⟩
  exact List.forall_mem_nil _

end Sys2Proof.Machine

namespace Sys2Proof.Machine
-- Theorems one after another: in parallel, the stacks of the waiting threads go past the checker's memory limit.
set_option Elab.async false

/-! ### Counting bits of words and masks -/

section
variable {w : Nat} (x : BitVec w)

/-- The lowest set bit stands after the trailing zeros. -/
theorem find_lowest_bit : (List.range w).find? (fun i => x.getLsbD i) = if x = 0 then none else some x.ctz.toNat := by
  split
  · next h => simp [h]
  · next h =>
    have hset := BitVec.getLsbD_true_ctz_of_ne_zero h
    refine List.find?_range_eq_some.2 ⟨hset, List.mem_range.2 ?_, fun j hj => ?_⟩
    · by_contra hge
      simp [BitVec.getLsbD_of_ge _ _ (Nat.not_lt.1 hge)] at hset
    · simp [BitVec.getLsbD_false_of_lt_ctz hj]

/-- The highest set bit stands before the leading zeros. -/
theorem find_highest_bit :
    (List.range w).find? (fun i => x.getLsbD (w - 1 - i)) = if x = 0 then none else some x.clz.toNat := by
  have hrev : (List.range w).find? (fun i => x.getLsbD (w - 1 - i)) = (List.range w).find? fun i => x.reverse.getLsbD i :=
    List.find?_congr fun i hi => by rw [BitVec.getLsbD_reverse, BitVec.getMsbD, decide_eq_true (List.mem_range.1 hi),
      Bool.true_and]
  rw [hrev, find_lowest_bit, BitVec.clz_eq_reverse_ctz]
  simp only [show (x.reverse = 0) = (x = 0) from propext BitVec.reverse_eq_zero_iff]

theorem length_filter_bits : ((List.range w).filter fun i => x.getLsbD i).length = x.cpop.toNat := by
  have hcount (n : Nat) : ((List.range n).filter fun i => x.getLsbD i).length = x.cpopNatRec n 0 := by
    induction n with
    | zero => rfl
    | succ n ih =>
      rw [List.range_succ, List.filter_append, List.length_append, ih, BitVec.cpopNatRec_succ, BitVec.cpopNatRec_eq (0 + _)]
      cases hx : x.getLsbD n <;> simp [hx]
  rw [hcount, BitVec.toNat_cpop]

end

/-- Bits read from the lowest to the highest make the reversed word. -/
theorem foldl_bits_reverse : ∀ {w : Nat} (x : BitVec w),
    (List.range w).foldl (fun n i => 2 * n + (x.getLsbD i).toNat) 0 = x.reverse.toNat
  | 0, x => by rw [BitVec.of_length_zero (x := x.reverse)]; rfl
  | w + 1, x => by
    have hlow : (List.range w).foldl (fun n i => 2 * n + (x.getLsbD i).toNat) 0 = (x.setWidth w).reverse.toNat := by
      rw [← foldl_bits_reverse]
      exact List.foldl_ext _ _ _ fun n i hi => by simp [List.mem_range.1 hi]
    rw [List.range_succ, List.foldl_append, hlow, BitVec.reverse, BitVec.toNat_concat, BitVec.msb_eq_getLsbD_last]
    simp [Nat.mul_comm]

theorem word_toNat (a : Word) : word a.toNat = a := by rw [word, BitVec.ofNat_toNat, BitVec.setWidth_eq]

theorem word_leadingZeros (a : Word) : word (leadingZeros a) = a.clz := by
  rw [leadingZeros, find_highest_bit a]
  split
  · next h =>
    rw [BitVec.clz_eq_iff_eq_zero.2 h]
    rfl
  · exact word_toNat _

theorem word_trailingZeros (a : Word) : word (trailingZeros a) = a.ctz := by
  rw [trailingZeros, find_lowest_bit a]
  split
  · next h =>
    rw [BitVec.ctz_eq_reverse_clz, BitVec.clz_eq_iff_eq_zero.2 (BitVec.reverse_eq_zero_iff.2 h)]
    rfl
  · exact word_toNat _

theorem word_setBits (a : Word) : word (setBits a) = a.cpop := by
  rw [setBits, length_filter_bits, word_toNat]

theorem bitReverse_eq (a : Word) : bitReverse a = a.reverse := by
  rw [bitReverse, foldl_bits_reverse, BitVec.ofNat_toNat, BitVec.setWidth_eq]

/-! ### Compares, extensions and bit fields (R165, R166, R168) -/

/-- An element read as signed is the signed value of its bits. -/
theorem elemInt_eq_toInt {n m : Nat} (hn : 0 < n) (hm : m < 2 ^ n) : elemInt n true m = (BitVec.ofNat n m).toInt := by
  obtain ⟨k, rfl⟩ : ∃ k, n = k + 1 := ⟨n - 1, by omega⟩
  rw [BitVec.toInt_eq_toNat_cond, BitVec.toNat_ofNat, Nat.mod_eq_of_lt hm, elemInt]
  have hpow : 2 ^ (k + 1) = 2 * 2 ^ k := Nat.pow_succ'
  by_cases h : 2 ^ k ≤ m
  · rw [if_pos (by simpa using h), if_neg (by omega)]; simp
  · rw [if_neg (by simpa using h), if_pos (by omega)]

theorem elemInt_word (a : Word) : elemInt 32 true a.toNat = a.toInt := by
  rw [elemInt_eq_toInt (by omega) a.isLt, BitVec.ofNat_toNat, BitVec.setWidth_eq]

theorem absWord_eq (a : Word) : absWord a = if 0 ≤ a.toInt then a else 0 - a := by
  have hsign : a.getLsbD 31 = decide (a.toInt < 0) := by
    rw [← BitVec.msb_eq_toInt, BitVec.msb_eq_getLsbD_last]
  rw [absWord, hsign]
  by_cases h : 0 ≤ a.toInt
  · rw [if_pos h, if_neg (by simpa using h)]
  · rw [if_neg h, if_pos (by simpa using h)]

theorem zeroExt_eq (n : Nat) (hn : n ≤ 32) (a : Word) : zeroExt n a = (a.extractLsb' 0 n).setWidth 32 := by
  rw [zeroExt, BitVec.setWidth_eq_extractLsb' hn]

theorem fieldOf_eq (ctl : Word) :
    fieldOf ctl = (ctl.toNat % 32, min (ctl.toNat / 256 % 32 + 1) (32 - ctl.toNat % 32)) := by
  simp [fieldOf, bits]

/-- The width of a field is at least one, and the field ends at bit 31 or below. -/
theorem fieldOf_width (ctl : Word) : 0 < (fieldOf ctl).2 ∧ (fieldOf ctl).1 + (fieldOf ctl).2 ≤ 32 := by
  rw [fieldOf_eq]
  dsimp only
  omega

theorem getLsbD_extractU (a ctl : Word) (k : Nat) :
    (extractU a ctl).getLsbD k = (decide (k < (fieldOf ctl).2) && a.getLsbD ((fieldOf ctl).1 + k)) := by
  obtain ⟨-, hend⟩ := fieldOf_width ctl
  simp only [extractU, BitVec.getLsbD_ofNat, Nat.testBit_mod_two_pow, Nat.testBit_div_two_pow, BitVec.testBit_toNat,
    Nat.add_comm k]
  by_cases hk : k < (fieldOf ctl).2
  · simp [hk, show k < 32 by omega]
  · simp [hk]

theorem getLsbD_extractS (a ctl : Word) {k : Nat} (hk : k < 32) :
    (extractS a ctl).getLsbD k = a.getLsbD ((fieldOf ctl).1 + min k ((fieldOf ctl).2 - 1)) := by
  obtain ⟨hpos, hend⟩ := fieldOf_width ctl
  simp only [extractS, elemInt_eq_toInt hpos (Nat.mod_lt _ (Nat.two_pow_pos _))]
  rw [← BitVec.signExtend, BitVec.getLsbD_signExtend, BitVec.msb_eq_getLsbD_last]
  simp only [BitVec.getLsbD_ofNat, Nat.testBit_mod_two_pow, Nat.testBit_div_two_pow, BitVec.testBit_toNat, hk, decide_true,
    Bool.true_and]
  split
  · next h => rw [min_eq_left (by omega), Nat.add_comm]; simp [h]
  · next h => rw [min_eq_right (by omega), Nat.add_comm]; simp [hpos]

theorem getLsbD_insertField (a v ctl : Word) {k : Nat} (hk : k < 32) : (insertField a v ctl).getLsbD k =
    if (fieldOf ctl).1 ≤ k ∧ k < (fieldOf ctl).1 + (fieldOf ctl).2 then v.getLsbD (k - (fieldOf ctl).1)
    else a.getLsbD k := by
  obtain ⟨p, n, hf⟩ : ∃ p n, fieldOf ctl = (p, n) := ⟨_, _, rfl⟩
  have hsplit : a.toNat = 2 ^ p * (2 ^ n * (a.toNat / 2 ^ p / 2 ^ n) + a.toNat / 2 ^ p % 2 ^ n) + a.toNat % 2 ^ p := by
    rw [Nat.div_add_mod, Nat.div_add_mod]
  have hsum : a.toNat - a.toNat / 2 ^ p % 2 ^ n * 2 ^ p + v.toNat % 2 ^ n * 2 ^ p =
      2 ^ p * (2 ^ n * (a.toNat / 2 ^ p / 2 ^ n) + v.toNat % 2 ^ n) + a.toNat % 2 ^ p := by
    conv => lhs; lhs; lhs; rw [hsplit]
    simp only [Nat.mul_add, Nat.mul_comm _ (2 ^ p)]
    omega
  simp only [hf, insertField, hsum, BitVec.getLsbD_ofNat, hk, decide_true, Bool.true_and]
  rw [Nat.testBit_two_pow_mul_add _ (Nat.mod_lt _ (Nat.two_pow_pos p)),
    Nat.testBit_two_pow_mul_add _ (Nat.mod_lt _ (Nat.two_pow_pos n))]
  simp only [Nat.testBit_mod_two_pow, Nat.testBit_div_two_pow, BitVec.testBit_toNat]
  obtain h | h := Nat.lt_or_ge k p
  · simp [h, show ¬ p ≤ k by omega]
  · by_cases hn : k < p + n
    · simp [show ¬ k < p by omega, h, hn, show k - p < n by omega]
    · simp [show ¬ k < p by omega, h, hn, show ¬ k - p < n by omega, show k - p - n + n + p = k by omega]

/-- The conditions of a compare of two words (R98), each with what it says of them. -/
def condTable (x y : Word) : List (Cond × Bool) :=
  [(.eq, x == y), (.ne, x != y), (.lt, decide (x.toInt < y.toInt)), (.le, decide (x.toInt ≤ y.toInt)),
    (.gt, decide (x.toInt > y.toInt)), (.ge, decide (x.toInt ≥ y.toInt)), (.ltu, decide (x.toNat < y.toNat)),
    (.leu, decide (x.toNat ≤ y.toNat)), (.gtu, decide (x.toNat > y.toNat)), (.geu, decide (x.toNat ≥ y.toNat))]

theorem condHolds_word {x y : Word} {e : Cond × Bool} (h : e ∈ condTable x y) : condHolds e.1 32 x.toNat y.toNat = e.2 := by
  have heq : (x.toNat == y.toNat) = (x == y) :=
    decide_eq_decide.2 BitVec.toNat_eq.symm
  simp only [condTable, List.mem_cons, List.not_mem_nil, or_false] at h
  obtain rfl | rfl | rfl | rfl | rfl | rfl | rfl | rfl | rfl | rfl := h <;>
    simp only [condHolds, elemInt_word, heq, bne]

/-- Settles O2: every form is one write of the destination, whose bits are the result's. -/
theorem uniformCompareUnaryAndFieldResults : Obligations.UniformCompareUnaryAndFieldResults := by
  unfold Obligations.UniformCompareUnaryAndFieldResults
  intro s sd sa n
  refine ⟨?_, ?_, ?_, fun r hr => ?_, fun r hr => ?_, fun r hr => ?_⟩
  · exact fun e he => writeSlot_runs rfl (congrArg flagWord (condHolds_word he))
  · exact fun e he => writeSlot_runs rfl (congrArg flagWord (condHolds_word he))
  · simp only [← absWord_eq, ← zeroExt_eq _ (show 8 ≤ 32 by decide), ← zeroExt_eq _ (show 16 ≤ 32 by decide),
      ← signExt_eq _ (show 8 ≤ 32 by decide), ← signExt_eq _ (show 16 ≤ 32 by decide), ← bitReverse_eq,
      ← word_leadingZeros, ← word_trailingZeros, ← word_setBits]
    repeat refine List.forall_mem_cons.2 ⟨writeSlot_runs rfl rfl, ?_⟩
    exact List.forall_mem_nil _
  · refine writeSlot_runs rfl (BitVec.eq_of_getLsbD_eq fun k hk => ?_)
    rw [getLsbD_extractU, fieldOf_eq]
    exact (hr k hk).symm
  · refine writeSlot_runs rfl (BitVec.eq_of_getLsbD_eq fun k hk => ?_)
    rw [getLsbD_extractS _ _ hk, fieldOf_eq]
    exact (hr k hk).symm
  · refine writeSlot_runs rfl (BitVec.eq_of_getLsbD_eq fun k hk => ?_)
    rw [getLsbD_insertField _ _ _ hk, fieldOf_eq]
    exact (hr k hk).symm

end Sys2Proof.Machine

namespace Sys2Proof.Machine
-- Theorems one after another: in parallel, the stacks of the waiting threads go past the checker's memory limit.
set_option Elab.async false

/-! ### Launch words, the mode register and masks (R101, R170-R172) -/

/-- The values that the mode register refuses (R91): a reserved element type, a reserved bit, an inverted guard of no triple. -/
theorem modeIllegal_eq (v : Word) : modeIllegal v = (decide (12 ≤ v.toNat % 16) || decide (2 ^ 15 ≤ v.toNat) ||
    (v.getLsbD 14 && decide (v.toNat / 512 % 32 = 0))) := by
  have hv := v.isLt
  have hlow : (v.extractLsb' 0 4).toNat = v.toNat % 16 := by simp [BitVec.extractLsb'_toNat]
  have hhigh : (v.extractLsb' 15 17 != 0) = decide (2 ^ 15 ≤ v.toNat) := by
    rw [Bool.eq_iff_iff, bne_iff_ne, decide_eq_true_iff, ne_eq, BitVec.toNat_eq, BitVec.extractLsb'_toNat,
      Nat.shiftRight_eq_div_pow, show (0 : BitVec 17).toNat = 0 from rfl]
    omega
  have hguard : (v.extractLsb' 9 5 == 0) = decide (v.toNat / 512 % 32 = 0) := by
    simp [beq_eq_decide, BitVec.toNat_eq, BitVec.extractLsb'_toNat, Nat.shiftRight_eq_div_pow]
  rw [modeIllegal, hlow, hhigh, hguard]

theorem modeRead_issues {s : State} {w : Who} {c : Clause} {i : Instr} (h : issues s w c i) : modeRead s = w.grp.mode := by
  obtain ⟨ha, hw, -⟩ := h
  obtain ⟨-, -, hgrp, -⟩ := whoOf_eq_some.1 hw
  simp [modeRead, ha, hgrp]

/-! #### Mask operations on triples -/

theorem word_count (m : Mask) : word (lanesOf m).length = m.cpop.setWidth 32 := by
  rw [lanesOf, length_filter_bits]
  rfl

theorem firstLane_eq (m : Mask) : firstLane m = if m = 0 then 0xFFFFFFFF else m.ctz.setWidth 32 := by
  rw [firstLane, find_lowest_bit m]
  by_cases h : m = 0
  · rw [if_pos h, if_pos h]
  · rw [if_neg h, if_neg h]
    rfl

theorem lastLane_eq (m : Mask) : lastLane m = if m = 0 then 0xFFFFFFFF else (95 - m.clz).setWidth 32 := by
  rw [lastLane, show (List.range 96).find? (fun i => m.getLsbD (95 - i)) = _ from find_highest_bit m]
  by_cases h : m = 0
  · rw [if_pos h, if_pos h]
  · have hlt : m.clz.toNat < 96 := BitVec.clz_lt_iff_ne_zero.2 h
    rw [if_neg h, if_neg h]
    refine BitVec.eq_of_toNat_eq ?_
    have hsub : (95 - m.clz).toNat = 95 - m.clz.toNat := BitVec.toNat_sub_of_le (BitVec.le_def.2 (Nat.le_of_lt_succ hlt))
    rw [BitVec.toNat_setWidth, hsub]
    rfl

/-- A slot that writes one triple runs, with what the triple takes. -/
theorem maskSlot_runs {s : State} {i : Instr} {td : TReg} {f : State → Mask} {m : Mask}
    (hx : exec i s = maskSlot i td f s) (hm : f s = m) : runs s i { s := tripleWrite s td.toNat m } := by
  subst hm
  exact slot_runs hx rfl

/-- Settles O13: the mode register refuses what R91 says; every other form is one write. -/
theorem launchWordsModeAndMasks : Obligations.LaunchWordsModeAndMasks := by
  unfold Obligations.LaunchWordsModeAndMasks
  refine ⟨fun s sd sa n m => ?_, fun s sd td ta => ⟨?_, ?_⟩⟩
  · simp only [← modeIllegal_eq]
    refine ⟨fun w c h hc => slot_ok h ?_ hc, fun d c h => slot_core h ?_, fun w c v hv h hc => slot_ok h ?_ hc,
      fun d c h => slot_core h ?_, fun hbad => ⟨fun w c h hc => slot_ok h ?_ hc, fun d c h => slot_core h ?_⟩,
      fun hbad => ⟨fun w c h => slot_trap h ?_, fun d c h => slot_core_trap h (t := { cls := 0, cause := 7 }) ?_⟩,
      fun hbad => ⟨fun w c h hc => slot_ok h ?_ hc, fun d c h => slot_core h ?_⟩,
      fun w c h hc => slot_ok h ?_ hc, fun d c h => slot_core h ?_⟩
    · simp only [issuer_issues h, Res.done, recWord]
    · simp only [issuer, h.1, Res.done]
    · rw [h.1]
      refine (withWho_issues h _).trans ?_
      -- As a variable: the kernel would compute with the address.
      generalize recCblk w.task.words = base at hv ⊢
      simp only [hv, Res.done]
    · simp only [h.1, Res.done]
    · simp only [hbad, Bool.false_eq_true, if_false, modeWrite, h.1, modeItem]
    · simp only [hbad, Bool.false_eq_true, if_false, modeWrite, h.1, modeItem]
    · simp only [hbad, if_true, issuer_issues h, Option.bind_some, h.2.2.1, Option.map_some, Option.getD_some]
    · simp only [hbad, if_true, issuer, h.1, Option.bind_none, Option.getD_none]
    · simp only [hbad, Bool.false_eq_true, if_false, modeWrite, h.1, modeItem]
    · simp only [hbad, Bool.false_eq_true, if_false, modeWrite, h.1, modeItem]
    · simp only [modeRead_issues h, modeItem]
    · simp only [modeRead, h.1, modeItem]
  · simp only [← word_count, ← firstLane_eq, ← lastLane_eq]
    repeat refine List.forall_mem_cons.2 ⟨writeSlot_runs rfl rfl, ?_⟩
    exact List.forall_mem_nil _
  · rw [show BitVec.allOnes 96 = ~~~(0 : Mask) by decide]
    repeat refine List.forall_mem_cons.2 ⟨maskSlot_runs rfl rfl, ?_⟩
    exact List.forall_mem_nil _

end Sys2Proof.Machine

namespace Sys2Proof.Machine
-- Theorems one after another: in parallel, the stacks of the waiting threads go past the checker's memory limit.
set_option Elab.async false

/-! ### Branches, calls and software traps (R173-R178) -/

/-- The conditions of a branch on a register (R102), each with what it says of it. -/
def brTable (a : Word) : List (BrCond × Bool) :=
  [(BrCond.al, true), (.eqz, a == 0), (.nez, a != 0), (.ltz, decide (a.toInt < 0)), (.gez, decide (0 ≤ a.toInt))]

theorem brHolds_table {a : Word} {e : BrCond × Bool} (h : e ∈ brTable a) : brHolds e.1 a = e.2 := by
  have hsign : a.getLsbD 31 = decide (a.toInt < 0) := by
    rw [← BitVec.msb_eq_toInt, BitVec.msb_eq_getLsbD_last]
  simp only [brTable, List.mem_cons, List.not_mem_nil, or_false] at h
  obtain rfl | rfl | rfl | rfl | rfl := h
  · rfl
  · rfl
  · rfl
  · exact hsign
  · simp only [brHolds, hsign, ← decide_not, not_lt]

section
variable {s : State} {w : Who} {c : Clause} {i : Instr} (h : issues s w c i)
include h

theorem callsOf_issues : callsOf s = w.sp.calls := by
  obtain ⟨ha, hw, -⟩ := h
  simp [callsOf, ha, hw]

theorem setCalls_issues (l : List Word) : setCalls s l = updSplit s w.g w.x fun sp => { sp with calls := l } := by
  rw [setCalls, h.1]

theorem nextClause_issues : nextClause s = c.nextOff := by
  obtain ⟨ha, hw, hc, -⟩ := h
  simp [nextClause, ha, hw, hc]

end

section
variable {s : State} {d : Nat} {c : Clause} {i : Instr} (h : coreIssues s d c i)
include h

theorem callsOf_coreIssues : callsOf s = (coreOf s d).calls := by
  rw [callsOf, h.1]

theorem nextClause_coreIssues : nextClause s = c.nextOff := by
  obtain ⟨ha, hc, -⟩ := h
  simp [nextClause, ha, hc]

/-- A control core's jump leaves no trace record. -/
theorem traceJump_setCalls_coreIssues (l : List Word) (t : Nat) :
    traceJump (setCalls s l) t = updCore s d fun u => { u with calls := l } := by
  have ha := h.1
  have hset : setCalls s l = updCore s d fun u => { u with calls := l } := by rw [setCalls, ha]
  rw [hset, traceJump, show issuer (updCore s d _) = none by simp [issuer, ha]]

end

/-- A slot of a control core whose body traps enters the vector of the trap's class, with its cause. -/
theorem exec_core_trap {s : State} {d : Nat} {c : Clause} {i : Instr} {body : State → Res} {t : Trap} {cls cause : Nat}
    (h : coreIssues s d c i) (hx : exec i s = slot i body s) (hb : body s = .trap t) (ht : t.cls = cls ∧ t.cause = cause) :
    exec i s = .next (coreTrap s d cls cause) := by
  obtain ⟨rfl, rfl⟩ := ht
  exact hx.trans (slot_core_trap h hb)

/-- Settles O14: the issuer's call stack and next clause are those of the split or the core that issues. -/
theorem branchesCallsAndSoftwareTraps : Obligations.BranchesCallsAndSoftwareTraps := by
  unfold Obligations.BranchesCallsAndSoftwareTraps
  refine fun s sc t k => ⟨slot_runs rfl rfl, fun r hr => ⟨fun ht => slot_runs rfl (if_pos ((brHolds_table hr).trans ht)),
    fun hf => slot_runs rfl (if_neg (by simp [brHolds_table hr, hf]))⟩, fun w c => ?_, fun d c => ?_⟩
  · refine ⟨fun hroom h hc => slot_ok h ?_ hc, fun hfull h => slot_trap h ?_, fun r l hl h hc => slot_ok h ?_ hc,
      fun hl h => slot_trap h ?_, fun h => slot_trap h rfl, fun h => slot_trap h rfl⟩
    · rw [callsOf_issues h, if_neg (by omega), setCalls_issues h, nextClause_issues h]
    · rw [callsOf_issues h, if_pos hfull]
    · simp only [callsOf_issues h, hl, setCalls_issues h]
    · simp only [callsOf_issues h, hl]
  · refine ⟨fun hroom h => slot_core h ?_, fun hfull h => exec_core_trap h rfl (if_pos ?_) ⟨rfl, rfl⟩,
      fun r l hl h => slot_core h ?_, fun hl h => exec_core_trap h rfl (t := { cls := 4, cause := 6 }) ?_ ⟨rfl, rfl⟩,
      fun h => exec_core_trap h rfl rfl ⟨rfl, rfl⟩, fun h => exec_core_trap h rfl rfl ⟨rfl, rfl⟩⟩
    · rw [callsOf_coreIssues h, if_neg (by omega), nextClause_coreIssues h, traceJump_setCalls_coreIssues h]
    · rwa [callsOf_coreIssues h]
    · simp only [callsOf_coreIssues h, hl, traceJump_setCalls_coreIssues h]
    · simp only [callsOf_coreIssues h, hl]

end Sys2Proof.Machine

namespace Sys2Proof.Machine
-- Theorems one after another: in parallel, the stacks of the waiting threads go past the checker's memory limit.
set_option Elab.async false

/-! ### The division of a split (R175, R180) -/

theorem Table.find_del {α : Type} (m : Table α) (k : Nat) : Table.find (Table.del m k) k = none := by
  rw [Table.del, Table.find_filter m (fun j => j != k)]
  simp

theorem storeCore_groups (s : State) (key pa : Nat) (bs : List Byte) : (storeCore s key pa bs).groups = s.groups := by
  simp only [storeCore]
  generalize hs1 : physWrite _ key pa bs = s1
  obtain ⟨m, en, h⟩ := physWrite_eq _ key pa bs
  obtain ⟨ac, hac⟩ := mergeWords_eq s1 pa bs.length
  rw [hac, ← hs1, h]

theorem profRecord_groups (s : State) (die ctx : Nat) (ws : List Word) : (profRecord s die ctx ws).groups = s.groups := by
  simp only [profRecord]
  split
  · rfl
  split
  · rfl
  split
  · rfl
  · rw [updCore_groups, storeCore_groups]

theorem trace_groups (s : State) (w : Who) (en kind pc : Nat) (arg : Word) : (trace s w en kind pc arg).groups = s.groups := by
  unfold trace
  split
  · exact profRecord_groups ..
  · rfl

theorem shareTraps_groups (s : State) (t g x y : Nat) : (shareTraps s t g x y).groups = s.groups := by
  unfold shareTraps
  split
  · rfl
  · next tm htm =>
    clear htm
    generalize tm.traps.filter _ = hs
    induction hs generalizing s with
    | nil => rfl
    | cons h hs ih => exact (ih _).trans rfl

/-- The child of a split that goes on with the lanes taken, and the one that goes on with the others. -/
def takenChild (w : Who) (take : Mask) (target : Nat) : Split :=
  childOf w.sp w.grp.nextSplit w.grp.nextRec take take target
    (if lowLane take < lowLane (w.sp.mask &&& ~~~ take) then w.sp.entry else none)

def stayingChild (w : Who) (take : Mask) (next : Nat) : Split :=
  childOf w.sp (w.grp.nextSplit + 1) w.grp.nextRec (w.sp.lanes &&& ~~~ take) (w.sp.mask &&& ~~~ take) next
    (if lowLane take < lowLane (w.sp.mask &&& ~~~ take) then none else w.sp.entry)

/-- The group of a division has both children for the parent, and a record of the parent's lanes. -/
theorem divide_group {s : State} {g x : Nat} {w : Who} (h : whoOf s g x = some w) (take : Mask) (pc target next : Nat) :
    Table.find (divide g x take pc target next s).groups g = some
      { w.grp with
        splits := Table.put (Table.put (Table.del w.grp.splits x) w.grp.nextSplit (takenChild w take target))
          (w.grp.nextSplit + 1) (stayingChild w take next)
        nextSplit := w.grp.nextSplit + 2
        recs := Table.put w.grp.recs w.grp.nextRec w.sp.lanes
        nextRec := w.grp.nextRec + 1 } := by
  obtain ⟨-, -, hgrp, -⟩ := whoOf_eq_some.1 h
  simp only [divide, h, trace_groups, passResults, passTraps, updTeam_groups, shareTraps_groups, updGroup_groups,
    Table.find_upd, hgrp, Option.map_some, takenChild, stayingChild, decide_eq_true_eq]

/-- Settles O15: the cases of `BRV`, and the group that a division leaves. -/
theorem divergentBranchesDivideSplits : Obligations.DivergentBranchesDivideSplits := by
  unfold Obligations.DivergentBranchesDivideSplits
  intro s w c u f tm t sel take stay
  have hstay : w.sp.mask &&& ~~~ take = stay := by
    ext l hl
    simp only [take, stay, BitVec.getElem_and, BitVec.getElem_not]
    cases w.sp.mask[l] <;> simp
  refine ⟨fun hnone h hc => slot_ok h ?_ hc, fun hsome hall h hc => slot_ok h ?_ hc, fun hsome hsplit hu h => slot_trap h ?_,
    fun hsome hsplit hu h hc => slot_ok h ?_ hc, fun g x pc next v hv hx => ?_⟩
  · exact (withWho_issues h _).trans (if_pos hnone)
  · exact (withWho_issues h _).trans ((if_neg hsome).trans (if_pos (hstay.trans hall)))
  · exact (withWho_issues h _).trans ((if_neg hsome).trans ((if_neg (hstay ▸ hsplit)).trans (if_pos hu)))
  · rw [← nextClause_issues h]
    exact (withWho_issues h _).trans ((if_neg hsome).trans ((if_neg (hstay ▸ hsplit)).trans (if_neg (by simp [hu]))))
  · refine ⟨_, takenChild v take t.toNat, stayingChild v take next, divide_group hv take pc t.toNat next, ?_, ?_,
      Table.find_put .., Table.find_put .., rfl, rfl, rfl, rfl, rfl, rfl, rfl, rfl, rfl, rfl, rfl, rfl, rfl, rfl, rfl, rfl,
      rfl, rfl⟩
    · rw [Table.find_put_ne _ _ (by omega), Table.find_put_ne _ _ (by omega), Table.find_del]
    · rw [Table.find_put_ne _ _ (by omega), Table.find_put]

end Sys2Proof.Machine

namespace Sys2Proof.Machine
-- Theorems one after another: in parallel, the stacks of the waiting threads go past the checker's memory limit.
set_option Elab.async false

/-! ### Merging and the ends of splits (R177, R183) -/

/-- The lanes, masks and flags of joined splits join, and the largest clock stands; what is the first one's stays. -/
theorem foldl_joinSplit (hs : List (Nat × Split)) (a : Split) :
    let m := hs.foldl (fun m e => joinSplit m e.2) a
    m.lanes = hs.foldl (fun l e => l ||| e.2.lanes) a.lanes ∧ m.mask = hs.foldl (fun l e => l ||| e.2.mask) a.mask ∧
      m.fps = hs.foldl (fun l e => l ||| e.2.fps) a.fps ∧ m.clock = hs.foldl (fun l e => max l e.2.clock) a.clock ∧
      m.calls = a.calls ∧ m.spill = a.spill ∧ m.recs = a.recs := by
  induction hs generalizing a with
  | nil => exact ⟨rfl, rfl, rfl, rfl, rfl, rfl, rfl⟩
  | cons e hs ih => exact ih (joinSplit a e.2)

/-- Of the splits that a merge joins none stays, except that the merged one may have the number of one. -/
theorem mergeRecord_gone (grp : Group) (d : Nat) (a : Nat × Split) (hs : List (Nat × Split)) {e : Nat × Split}
    (he : e ∈ a :: hs) : Table.find (mergeRecord grp d (a :: hs)).1.splits e.1 = none ∨ e.1 = grp.nextSplit := by
  by_cases hn : e.1 = grp.nextSplit
  · exact .inr hn
  · refine .inl ?_
    rw [mergeRecord, Table.find_put_ne _ _ hn, Table.find_filter grp.splits fun j => !((a :: hs).any fun h => h.1 = j)]
    exact if_neg (by simpa only [Bool.not_eq_true', Bool.not_eq_false, List.any_eq_true] using ⟨e, he, decide_eq_true rfl⟩)

/-- Settles O16: a split with a record waits at its `RECON`, and the merged split is the fold of those that waited. -/
theorem reconvergenceAndExit : Obligations.ReconvergenceAndExit := by
  unfold Obligations.ReconvergenceAndExit
  refine fun s w c => ⟨fun hr h hc => slot_ok h ?_ hc, fun hr h hc => slot_ok h ?_ hc, fun grp d a hs => ?_,
    fun h hc => slot_ok h ?_ hc, fun d k h => slot_core h ?_⟩
  · simp only [withWho_issues h, hr, Res.done]
  · obtain ⟨r, rs, hrs⟩ := List.exists_cons_of_ne_nil hr
    simp only [withWho_issues h, hrs, h.2.2.1]
  · obtain ⟨hlanes, hmask, hfps, hclock, hcalls, hspill, hrecs⟩ := foldl_joinSplit hs a.2
    exact ⟨_, Table.find_put .., rfl, Table.find_del .., fun e he => mergeRecord_gone grp d a hs he, hlanes, hmask, hfps,
      hclock, hcalls, hspill, congrArg (List.drop 1) hrecs⟩
  · simp only [h.1]
  · simp only [h.1, haltCore]

/-! ### Divisions in flight (R167) -/

theorem divS_quotient (a b : Word) :
    (divS a b).1 = if b = 0 then 0xFFFFFFFF else BitVec.ofInt 32 (Int.tdiv a.toInt b.toInt) := by
  unfold divS
  split
  · rfl
  split
  · next h =>
    obtain ⟨rfl, rfl⟩ := h
    decide
  · rfl

theorem divS_remainder (a b : Word) :
    (divS a b).2 = if b = 0 then a else BitVec.ofInt 32 (a.toInt - b.toInt * Int.tdiv a.toInt b.toInt) := by
  unfold divS
  split
  · rfl
  split
  · next h =>
    obtain ⟨rfl, rfl⟩ := h
    decide
  · rw [Int.tmod_def]

theorem divU_quotient (a b : Word) : (divU a b).1 = if b = 0 then 0xFFFFFFFF else BitVec.ofNat 32 (a.toNat / b.toNat) := by
  unfold divU
  split <;> rfl

theorem divU_remainder (a b : Word) : (divU a b).2 = if b = 0 then a else BitVec.ofNat 32 (a.toNat % b.toNat) := by
  unfold divU
  split <;> rfl

/-- A division leaves its result in flight: a split's as a command, a control core's behind those it has. -/
theorem divisionSlot_runs {s : State} {i : Instr} {f : Word → Word → Word} {sd sa : SReg} {v : Word}
    (hx : exec i s = divisionSlot i f sd sa s) (hv : f (uread s sd.toNat) (uread s sa.toNat) = v) :
    (∀ w c, runsOnSplit s w c i
      { s := { s with
          fresh := s.fresh + 1
          cmds := Table.put s.cmds s.fresh
            { group := w.g, split := w.x, team := w.grp.team, task := w.grp.task, flag := c.flag, sd := sd.toNat
              into := [w.x], key := agentKey w, clock := w.sp.clock, prog := s.prog, body := .div v } } }) ∧
      ∀ d c, runsOnCore s d c i
        { s := updCore s d fun k => { k with divs := k.divs ++ [(c.flag, sd.toNat, v)] } } := by
  subst hv
  refine ⟨fun w c h hc => hx.trans (slot_ok h ?_ hc), fun d c h => hx.trans (slot_core h ?_)⟩
  · simp only [h.1, withWho_issues h, h.2.2.1, Option.map_some, Option.getD_some, newCmd, Res.done]
  · simp only [h.1, updCore, h.2.1, Option.map_some, Option.getD_some, Res.done]

/-- Settles O20: each division is one command in flight with the result that R167 gives it. -/
theorem divisionsIssueIntoFlight : Obligations.DivisionsIssueIntoFlight := by
  unfold Obligations.DivisionsIssueIntoFlight
  intro s sd sa a b quoS remS quoU remU
  have hquo : (divS a b).1 = quoS := divS_quotient a b
  have hrem : (divS a b).2 = remS := divS_remainder a b
  have hquoU : (divU a b).1 = quoU := divU_quotient a b
  have hremU : (divU a b).2 = remU := divU_remainder a b
  refine ⟨?_, fun ha hb => ?_⟩
  · simp only [List.forall_mem_cons, List.not_mem_nil, false_imp_iff, implies_true, and_true]
    exact ⟨divisionSlot_runs (f := fun a b => (divS a b).1) rfl hquo,
      divisionSlot_runs (f := fun a b => (divU a b).1) rfl hquoU,
      divisionSlot_runs (f := fun a b => (divS a b).2) rfl hrem,
      divisionSlot_runs (f := fun a b => (divU a b).2) rfl hremU⟩
  · rw [← hquo, ← hrem, ha, hb]
    decide

end Sys2Proof.Machine

namespace Sys2Proof.Machine
-- Theorems one after another: in parallel, the stacks of the waiting threads go past the checker's memory limit.
set_option Elab.async false

/-! ### A conflict that retirement reports in another team

Number 9 is listed twice: first for a group of another team, with a conflict of its own, and then for a group of the issuing
team (see `listedTwice`). Retirement takes up the conflict of the first, and its trap leaves a trace record in memory. -/

/-- The issuer at a `MODEI`, number 9 listed twice, and a profiling buffer at 0x1000 that records the traps of context 0. -/
def tracedTwice : State :=
  let s := placeOnGroup State.reset (encode (.modei 0))
  let sp : Split := { lanes := 1, mask := 1, pc := 0, clock := 0, klane := 0, base := 0 }
  let other : Group :=
    { task := 3, team := 1, gidx := 0, slot := 1, vcount := 8, splits := [(0, sp)], sibRaces := [oldConflict] }
  { s with
    actor := .split 5 0
    groups := s.groups ++ [(9, other), (9, { other with team := 4, gidx := 1, sibRaces := [] })]
    teams := (1, { task := 3, tidx := 1, die := 0, core := 0, groups := [9], size := 0, epochSize := 0 }) :: s.teams
    cores := [(0, { sys := [(580, 0x1000), (582, 1), (586, 0x10008)] })] }

/-- The issuer of that state is ready and not stepped, its team shows no conflict, and nothing stops its slot. -/
theorem tracedTwice_issuer : ∃ u, u.sp.step = false ∧ u.sp.mode = .ready ∧ noConflicts tracedTwice u ∧
    issues tracedTwice u (placedClause (encode (.modei 0))) (.modei 0) ∧
    clears tracedTwice u (placedClause (encode (.modei 0))) (.modei 0) { s := tracedTwice, items := [⟨1, 0, true⟩] } := by
  have h : (match whoOf tracedTwice 5 0 with
      | some u =>
        let c := placedClause (encode (.modei 0))
        let o : Out := { s := tracedTwice, items := [⟨1, 0, true⟩] }
        decide (u.g = 5 ∧ u.x = 0 ∧ u.sp.step = false ∧ u.sp.mode = .ready ∧
          (u.team.conflict = none ∧ ∀ e ∈ tracedTwice.groups, e.2.team = u.grp.team → e.2.sibRaces = []) ∧
          (u.sp.clause = some c ∧ pcHit tracedTwice u c = none ∧ isPrivileged (.modei 0) = false ∧ timeUp u = none ∧
            hazardOf u (.modei 0) = none ∧ kindBad (.modei 0) u.grp.mode = false) ∧
          collTouched u o.accs = none ∧ watchHit tracedTwice u o.looks = none ∧
          (longLatency (.modei 0) = true → flagOf u.grp c.flag < 15) ∧
          (o.flow.closes = true → u.task.rooted.isSome = true ∧ closeFits u = true) ∧
          stripeConflict u.team u.grp.gidx u.sp.clock (b0Span u.sp) u.g u.x (o.stripes u) = none ∧
          windowRace u (o.windows u) = none ∧ sibConflicts u (o.shared u (.modei 0)) = [] ∧
          ((.modei 0 : Instr) = .exit → keepsPair tracedTwice u = false))
      | none => false) = true := by decide +kernel
  split at h
  · next u hu =>
    obtain ⟨hg, hx, hstep, hmode, hcalm, hissues, hclears⟩ := of_decide_eq_true h
    exact ⟨u, hstep, hmode, hcalm, ⟨by rw [hg, hx]; rfl, by rw [hg, hx]; exact hu, hissues⟩, hclears⟩
  · contradiction

/-- That `MODEI` leaves another byte at 0x1000 of package memory. -/
theorem tracedTwice_mem {t : State} (h : exec (.modei 0) tracedTwice = .next t) : t.mem ≠ tracedTwice.mem := by
  have hne : (match exec (.modei 0) tracedTwice with
      | .next t => decide (Sparse.get 0 t.mem 0x1000 ≠ Sparse.get 0 tracedTwice.mem 0x1000)
      | _ => false) = true := by decide +kernel
  rw [h] at hne
  intro hm
  exact of_decide_eq_true hne (by rw [hm])

/-- Refutes O53: where the table of groups lists number 9 twice, first for a group of another team with a conflict of its
own and then for a group of the issuing team, the retirement of a `MODEI` settles the conflict of the first, which
`noConflicts` does not reach, and the trap's trace record changes package memory. -/
theorem not_uniformInstructionFrames : ¬ Obligations.UniformInstructionFrames := by
  unfold Obligations.UniformInstructionFrames
  intro h
  obtain ⟨u, hstep, hmode, hcalm, hissues, hclears⟩ := tracedTwice_issuer
  obtain ⟨-, -, hmodei, -⟩ := h tracedTwice u (placedClause (encode (.modei 0))) 0 0 0 0 0 0 0 hstep hmode hcalm
  obtain ⟨t, v, ht, -, -, -, -, -, hmem, -⟩ := hmodei (by decide) hissues hclears
  exact tracedTwice_mem ht hmem

end Sys2Proof.Machine

namespace Sys2Proof.Machine
-- Theorems one after another: in parallel, the stacks of the waiting threads go past the checker's memory limit.
set_option Elab.async false

/-! ### A group that lists one split number twice

`idleReason` picks a split of the group's reconvergence table and looks it up again by its number, so another split that is
listed first under that number is the one whose reason counts. -/

/-- A split that stands at `NOP` and waits with reason `r`, in the group's reconvergence table as `entry` says. -/
def stalledSplit (r : Nat) (entry : Option Nat) : Split :=
  { lanes := 1, mask := 1, pc := 0, clause := some (placedClause (encode .nop)), clock := 0, klane := 0, base := 0
    entry, mode := .stalled r }

/-- The group of `placeOnGroup` with two splits of number 0: one outside the table that waits with reason 5, and then one
in the table that waits with reason 3. -/
def splitTwice : State :=
  let s := placeOnGroup State.reset (encode .nop)
  { updGroup s 5 fun g => { g with splits := [(0, stalledSplit 5 none), (0, stalledSplit 3 (some 0))] } with
    arg := { a := 5 } }

/-- What the count of an idle cycle meets in that state. -/
theorem splitTwice_group : ∃ grp, Table.find splitTwice.groups 5 = some grp ∧ grp.exited = false ∧ grp.parked = false ∧
    grp.halted = false ∧ grp.splits = [(0, stalledSplit 5 none), (0, stalledSplit 3 (some 0))] ∧
    Sparse.get 0 grp.stalls 3 = 0 := by
  refine ⟨_, rfl, ?_⟩
  decide +kernel

/-- The idle cycle leaves the counter of reason 3 at zero there. -/
theorem splitTwice_counts {t : State} {grp : Group} (h : exec .stallReasonCount splitTwice = .next t)
    (hg : Table.find t.groups 5 = some grp) : Sparse.get 0 grp.stalls 3 = 0 := by
  have hstay : (match exec .stallReasonCount splitTwice with
      | .next t => (Table.find t.groups 5).all fun g => Sparse.get 0 g.stalls 3 = 0
      | _ => false) = true := by decide +kernel
  rw [h] at hstay
  simpa [hg] using hstay

/-- Refutes O59: where a group lists split number 0 twice, first a split outside the reconvergence table that waits with
reason 5 and then the table's only split, which waits with reason 3, an idle cycle counts reason 5. -/
theorem not_debugUnitEvents : ¬ Obligations.DebugUnitEvents := by
  unfold Obligations.DebugUnitEvents
  intro h
  obtain ⟨grp, hgrp, hexited, hparked, hhalted, hsplits, hzero⟩ := splitTwice_group
  obtain ⟨-, -, -, -, -, -, -, hstalls⟩ := h splitTwice
  obtain ⟨-, hcount⟩ := hstalls grp hgrp
  obtain ⟨t, grp', j, ht, hgrp', -, -, -, hadd, -, hreason, -⟩ := hcount hexited hparked
  have hj : j = 3 := hreason 0 (stalledSplit 3 (some 0)) 3 (by simp [hsplits]) rfl
    (by simp [hsplits, stalledSplit]) (by decide +kernel) ⟨_, rfl, by decide⟩ hhalted rfl rfl
  subst hj
  rw [splitTwice_counts ht hgrp', hzero] at hadd
  exact absurd hadd (by decide)

end Sys2Proof.Machine

namespace Sys2Proof.Machine
-- Theorems one after another: in parallel, the stacks of the waiting threads go past the checker's memory limit.
set_option Elab.async false

/-! ### Log operations in flight (R231-R235) -/

/-- Lane `l` of the second operand of a log operation, which is zero in the unary forms (R236). -/
def logOperand (grp : Group) : Option VReg → Nat → Word
  | some vb, l => laneRead grp vb.toNat l
  | none, _ => 0

@[simp] theorem getD_zeroVec (l : Nat) : zeroVec.getD l 0 = 0 := by
  rw [zeroVec, List.getD_eq_getElem?_getD, List.getElem?_getD_replicate_default_eq]

/-- A log operation is one command in flight, with every writing lane's result and flags; no register changes. -/
theorem logSlot_runs {s : State} {i : Instr} {vd va : VReg} (vb : Option VReg) (f : Rnd → Word → Word → Word × Word)
    (hx : exec i s = logSlot i vd va vb f s) (w : Who) (c : Clause) :
    runsOnSplit s w c i
      { s := { s with
          fresh := s.fresh + 1
          cmds := Table.put s.cmds s.fresh
            { group := w.g, split := w.x, team := w.grp.team, task := w.grp.task, flag := c.flag, sd := vd.toNat
              into := [w.x], key := agentKey w, clock := w.sp.clock, prog := s.prog
              body := .log ((lanesOf (writing s w)).map fun l =>
                (l, f (modeRnd w.grp.mode) (laneRead w.grp va.toNat l) (logOperand w.grp vb l))) } }
        items := (lanesOf (writing s w)).map fun l => ⟨2, vd.toNat * 128 + l, true⟩ } := by
  refine fun h hc => hx.trans (slot_ok h ?_ hc)
  obtain ⟨-, -, hclause, -⟩ := id h
  cases vb <;>
    simp only [withWho_issues h, hclause, Option.map_some, Option.getD_some, newCmd, laneItems, laneRead, logOperand,
      getD_zeroVec]

/-- Settles O21: each log operation is one command in flight with the results that its function gives the writing lanes. -/
theorem logOperationsIssueIntoFlight : Obligations.LogOperationsIssueIntoFlight := by
  unfold Obligations.LogOperationsIssueIntoFlight
  intro s w c vd va vb r ls a b
  simp only [List.forall_mem_cons, List.not_mem_nil, false_imp_iff, implies_true, and_true]
  exact ⟨logSlot_runs none (fun r a _ => lFromF32 r a) rfl w c,
    logSlot_runs none (fun r a _ => lToF32 r a) rfl w c,
    logSlot_runs none (fun r a _ => lExp r.rm a) rfl w c,
    logSlot_runs (some vb) (fun r a b => lMul r.rm a b) rfl w c,
    logSlot_runs (some vb) (fun r a b => lDiv r.rm a b) rfl w c,
    logSlot_runs none (fun r a _ => lSqrt r.rm a) rfl w c,
    logSlot_runs none (fun r a _ => lRsq r.rm a) rfl w c,
    logSlot_runs none (fun r a _ => lRcp r.rm a) rfl w c,
    logSlot_runs (some vb) (fun r a b => lPow r.rm a b) rfl w c,
    logSlot_runs (some vb) (fun r a b => lAdd r.rm a b) rfl w c,
    logSlot_runs (some vb) (fun r a b => lAdd r.rm a (b ^^^ 0x80000000)) rfl w c,
    logSlot_runs none (fun _ a _ => lFix a) rfl w c,
    logSlot_runs none (fun r a _ => lFlt r.rm a) rfl w c⟩

end Sys2Proof.Machine

namespace Sys2Proof.Machine

-- Theorems one after another: in parallel, the stacks of the waiting threads go past the checker's memory limit.
set_option Elab.async false

/-- The top bits of a word from bit `k` on are not all zero. -/
theorem bits_high_ne_zero (w : Word) {k : Nat} (hk : k ≤ 31) : bits w 31 k ≠ 0 ↔ 2 ^ k ≤ w.toNat := by
  have hpow : 2 ^ (31 - k + 1) * 2 ^ k = 2 ^ 32 := by rw [← pow_add]; congr 1; omega
  have hlt : w.toNat / 2 ^ k < 2 ^ (31 - k + 1) := Nat.div_lt_of_lt_mul (by rw [Nat.mul_comm, hpow]; exact w.isLt)
  rw [bits, Nat.mod_eq_of_lt hlt, Nat.div_ne_zero_iff]
  simp

/-- The opcodes of the copy instructions. -/
def copyOpcodes : List Nat := [0xA0, 0xA1, 0xA2, 0xA3]

/-- The checks of the form of a block's words in the order of R249: cause, word, whether it fails. -/
def Desc.formChecks (d : Desc) : List (Nat × Nat × Bool) :=
  let b (i : Nat) : Nat := (d.w i).toNat
  let dir := b 0 % 8
  let cm := b 0 / 8 % 4
  let two : Bool := d.opc = 0xA1
  let vec : Bool := 0xA2 ≤ d.opc
  let listed : Bool := vec && (d.w 9).getLsbD 31
  let tomb := (d.w 0).getLsbD 9
  [(1, 0, decide (2 ^ 11 ≤ b 0) || (decide (cm ≠ 1) && decide (b 0 / 2 ^ 5 % 16 ≠ 0))),
    (1, 2, decide (2 ^ 24 ≤ b 2) || (decide (dir = 1 ∨ dir = 3) && decide (b 2 ≠ 0))),
    (1, 4, decide (2 ^ 24 ≤ b 4) || (decide (dir = 0 ∨ dir = 3) && decide (b 4 ≠ 0))),
    (1, 5, if cm = 2 then decide (2 ^ 16 ≤ b 5) else if cm = 3 then decide (2 ^ 20 ≤ b 5) else decide (b 5 ≠ 0)),
    (1, 6, decide (cm ≠ 2) && decide (b 6 ≠ 0)), (1, 9, vec && !listed && decide (2 ^ 7 ≤ b 9)),
    (2, 0, (if vec then decide (dir ≠ d.opc - 0xA2) else decide (3 < dir)) || (tomb && decide (d.opc ≠ 0xA2))),
    (3, 7, decide (b 7 < 4) || (decide (d.opc = 0xA0) && decide (0xFFFFFFFC < b 7)) ||
      (decide (d.opc ≠ 0xA0) && decide (65536 < b 7))),
    (3, 8, (two && (decide (b 8 = 0) || decide (65536 < b 8))) || (vec && (decide (b 8 = 0) || decide (96 < b 8)))),
    (4, 1, decide (b 1 % 4 ≠ 0)), (4, 3, decide (b 3 % 4 ≠ 0)), (4, 7, decide (b 7 % 4 ≠ 0)),
    (4, 9, (two || listed) && decide (b 9 % 4 ≠ 0)), (4, 10, (two || vec) && decide (b 10 % 4 ≠ 0)),
    (4, 11, vec && decide (b 11 % 4 ≠ 0))]

/-- The first of a list that passes, told by its head. -/
theorem map_find_cons {α β : Type} (p : α → Bool) (f : α → β) (a : α) (l : List α) :
    ((a :: l).find? p).map f = if p a then some (f a) else (l.find? p).map f := by
  rw [List.find?_cons]
  cases p a <;> rfl

theorem ite_or {α : Type} (b : Prop) [Decidable b] (x y z : Option α) :
    (if b then x else y).or z = if b then x.or z else y.or z := apply_ite (Option.or · z) b x y

/-- The check of a vector register's number: above bit 6 the word is zero, but for the bit that names an index list. -/
theorem bits_middle_ne_zero {w : Word} (h : w[31] = false) : bits w 30 7 ≠ 0 ↔ 2 ^ 7 ≤ w.toNat := by
  have hlt : w.toNat < 2 ^ 31 := by
    have := BitVec.toNat_lt_of_msb_false (x := w) (by rwa [BitVec.msb_eq_getLsbD_last, BitVec.getLsbD_eq_getElem])
    exact this
  rw [bits, Nat.mod_eq_of_lt (by omega)]
  omega

/-- The first check of the form that fails is the first in the order of R249. -/
theorem formBad_eq {d : Desc} (h : d.opc ∈ copyOpcodes) :
    d.formBad = (d.formChecks.find? fun e => e.2.2).map fun e => (e.1, e.2.1) := by
  have hdir : d.dir = (d.w 0).toNat % 8 := by simp [Desc.dir, bits]
  have hcm : d.cmode = (d.w 0).toNat / 8 % 4 := rfl
  have hbar : d.bar = (d.w 0).toNat / 2 ^ 5 % 16 := rfl
  have hzero (w : Word) : w.toNat = 0 ↔ w = 0#32 := by rw [BitVec.toNat_eq]; rfl
  have hlow : ((d.w 9)[31] = false ∧ ¬ bits (d.w 9) 30 7 = 0) ↔ ((d.w 9)[31] = false ∧ 128 ≤ (d.w 9).toNat) :=
    and_congr_right bits_middle_ne_zero
  have hmodes : d.cmode = 0 ∨ d.cmode = 1 ∨ d.cmode = 2 ∨ d.cmode = 3 := by omega
  simp only [copyOpcodes, List.mem_cons, List.not_mem_nil, or_false] at h
  obtain h | h | h | h := h
  all_goals
    obtain hm | hm | hm | hm := hmodes <;>
      simp [Desc.formBad, Desc.formChecks, h, hm, ← hcm, hzero, Desc.srcLocal, Desc.dstLocal, Desc.indexed, bit, Desc.tomb, hdir, hbar,
        bits_high_ne_zero, hlow, map_find_cons, ite_or, apply_ite (Option.map _)]

/-! ### The checks of a block's rows (R247, R249) -/

/-- A row's global source, or destination, leaves the 56-bit space. -/
def Desc.farSrc (d : Desc) (e : RawRow) : Bool :=
  d.srcGlobal && (decide (e.2.1 < 0) || decide ((2 ^ 56 : Int) < e.2.1 + e.2.2.2))
def Desc.farDst (d : Desc) (e : RawRow) : Bool :=
  d.dstGlobal && (decide (e.2.2.1 < 0) || decide ((2 ^ 56 : Int) < e.2.2.1 + e.2.2.2))

/-- The rows that leave the address space. -/
def Desc.far (d : Desc) (raw : List RawRow) : List RawRow := raw.filter fun e => d.farSrc e || d.farDst e

/-- The place of one side of a row, none where a local one lies outside its allocation. -/
def placeSide (s : State) (w : Who) (isLocal : Bool) (a : Int) (n : Nat) : Option Nat :=
  if isLocal then
    match locate s w a.toNat n with | .at t off => some (windowForm t off) | .out _ => none
  else some a.toNat

/-- The rows with their places. -/
def Desc.placed (d : Desc) (s : State) (w : Who) (raw : List RawRow) : List (Nat × Option Nat × Option Nat × Nat) :=
  raw.map fun e =>
    (e.1, placeSide s w d.srcLocal e.2.1 e.2.2.2, placeSide s w d.dstLocal e.2.2.1 e.2.2.2, e.2.2.2)

/-- The rows with a side outside its allocation. -/
def Desc.out (d : Desc) (s : State) (w : Who) (raw : List RawRow) : List (Nat × Option Nat × Option Nat × Nat) :=
  (d.placed s w raw).filter fun r => r.2.1.isNone || r.2.2.1.isNone

/-- The address, when the side is local and outside, with the limit that it breaks. -/
def beyondSide (s : State) (w : Who) (isLocal : Bool) (a : Int) (n : Nat) : List (Nat × Nat) :=
  if isLocal then (match locate s w a.toNat n with | .out k => [(a.toNat, k)] | .at .. => []) else []

/-- The lowest local address outside its allocation, with its limit. -/
def Desc.lowest (d : Desc) (s : State) (w : Who) (raw : List RawRow) : Nat × Nat :=
  (leastBy (fun a b => decide (a.1 < b.1)) (raw.flatMap fun e =>
    beyondSide s w d.srcLocal e.2.1 e.2.2.2 ++ beyondSide s w d.dstLocal e.2.2.1 e.2.2.2)).getD (0, 0)

/-- The rows of a block that passes all checks. -/
def Desc.goodRows (d : Desc) (s : State) (w : Who) (raw : List RawRow) : List Row :=
  (d.placed s w raw).map fun r => { pos := r.1, src := r.2.1.getD 0, dst := r.2.2.1.getD 0, len := r.2.2.2 }

/-- The plan of a block that passes all checks. -/
def Desc.goodPlan (d : Desc) (s : State) (w : Who) (raw : List RawRow) (listAccs : List Acc) : Plan :=
  let acc (a how n : Nat) : Acc := ⟨(placeOf a).1, (placeOf a).2, n, how⟩
  let pos (r : RawRow) : Nat := if d.indexed then r.1 else rowPos r.1
  { rows := d.goodRows s w raw
    accs := listAccs ++ (d.goodRows s w raw).flatMap fun r =>
      (if d.srcLocal then [acc r.src 0 r.len] else []) ++ (if d.dstLocal then [acc r.dst 1 r.len] else [])
    looks := (match d.list with | some (a, n) => [⟨false, a, n, true, false, listPos⟩] | none => []) ++ raw.flatMap fun r =>
      [⟨d.srcGlobal, r.2.1.toNat, r.2.2.2, true, false, pos r⟩, ⟨d.dstGlobal, r.2.2.1.toNat, r.2.2.2, false, true, pos r⟩]
    items := match d.vreg with
      | some v => laneItems v (List.range (d.w 8).toNat) false
      | none => [] }

/-- The index register lies beyond the group's quota. -/
def Desc.overQuota (d : Desc) (w : Who) : Bool := match d.vreg with | some v => decide (w.grp.vcount ≤ v) | none => false

/-- A block has passed the checks before those of its rows: its form, a pending index register, and its index list. -/
structure Desc.Judged (d : Desc) (s : State) (w : Who) (xs : List (Option Nat)) (accs : List Acc) : Prop where
  form : d.formBad = none
  hazard : (d.vreg.bind fun v => hazardIn w.sp.pend 1 [v]) = none
  indices : d.indices s w = .ok (xs, accs)

section
variable {d : Desc} {s : State} {w : Who} {xs : List (Option Nat)} {accs : List Acc}

theorem plan_formBad {c off : Nat} (h : d.formBad = some (c, off)) : d.plan s w = .error (copyTrap c off) := by
  simp only [Desc.plan, h]

theorem plan_indices_error {t : Trap} (hf : d.formBad = none)
    (hz : (d.vreg.bind fun v => hazardIn w.sp.pend 1 [v]) = none) (hi : d.indices s w = .error t) :
    d.plan s w = .error t := by
  simp only [Desc.plan, hf, hz, hi]

/-- The rest of the checks, in their order: the rows in the address space, the index register within the quota, room for the
absent mask, and the places inside their allocations. -/
theorem Desc.Judged.plan_eq (h : d.Judged s w xs accs) : d.plan s w =
    if !(d.far (d.rows xs)).isEmpty then
      .error (copyTrap 5 (if d.srcGlobal && (d.far (d.rows xs)).any fun e =>
        decide (e.2.1 < 0) || decide ((2 ^ 56 : Int) < e.2.1 + e.2.2.2) then 1 else 3)
        (some (posMask ((d.far (d.rows xs)).map (·.1)))))
    else if d.overQuota w then .error (copyTrap 6 9)
    else if d.tomb && !(decide (4 ≤ d.sd) && decide (d.sd ≤ 1004)) then .error (copyTrap 7 0)
    else if !(d.out s w (d.rows xs)).isEmpty then
      .error (copyRange (posMask ((d.out s w (d.rows xs)).map (·.1)))
        (d.lowest s w (d.rows xs)).1 (d.lowest s w (d.rows xs)).2)
    else .ok (d.goodPlan s w (d.rows xs) accs) := by
  simp only [Desc.plan, h.form, h.hazard, h.indices]
  rfl

end

/-! ### What the checks of the rows answer -/

theorem getLsbD_maskFrom (p : Nat → Bool) {j : Nat} (hj : j < 96) : (maskFrom p).getLsbD j = p j := by
  have hfold (ls : List Nat) : ∀ m : Mask, (ls.foldl (fun m l => if p l then m ||| (1#96 <<< l) else m) m).getLsbD j =
      (m.getLsbD j || ls.any fun l => l = j && p l) := by
    induction ls with
    | nil => simp
    | cons l ls ih =>
      intro m
      rw [List.foldl_cons, ih, List.any_cons, ← Bool.or_assoc]
      congr 1
      by_cases hl : l = j
      · subst hl
        cases p l <;> simp [hj]
      · have hbit : decide (j - l = 0) = false ∨ decide (j < l) = true := by
          rw [decide_eq_false_iff_not, decide_eq_true_iff]
          omega
        cases p l <;> rcases hbit with h | h <;> simp [hl, h]
  rw [maskFrom, hfold, Bool.eq_iff_iff]
  simp [hj]

theorem getLsbD_posMask (ps : List Nat) {j : Nat} (hj : j < 96) : (posMask ps).getLsbD j = true ↔ j ∈ ps := by
  rw [posMask, getLsbD_maskFrom _ hj, List.contains_iff_mem]

/-- A mask is that of the positions that it names. -/
theorem eq_posMask {ps : List Nat} {m : Mask} (h : ∀ j < 96, m.getLsbD j = true ↔ j ∈ ps) : m = posMask ps :=
  BitVec.eq_of_getLsbD_eq fun j hj => Bool.eq_iff_iff.2 ((h j hj).trans (getLsbD_posMask ps hj).symm)

/-- A side of the row lies outside its allocation. -/
def Desc.outside (d : Desc) (s : State) (w : Who) (e : RawRow) : Prop :=
  (d.srcLocal = true ∧ ∃ lim, locate s w e.2.1.toNat e.2.2.2 = .out lim) ∨
    (d.dstLocal = true ∧ ∃ lim, locate s w e.2.2.1.toNat e.2.2.2 = .out lim)

section
variable {d : Desc} {s : State} {w : Who} {xs : List (Option Nat)} {accs : List Acc}

theorem placeSide_isNone (isLocal : Bool) (a : Int) (n : Nat) :
    (placeSide s w isLocal a n).isNone = true ↔ isLocal = true ∧ ∃ lim, locate s w a.toNat n = .out lim := by
  unfold placeSide
  split
  · split <;> simp_all
  · simp_all

theorem mem_far {raw : List RawRow} {j : Nat} :
    j ∈ (d.far raw).map (·.1) ↔ ∃ e ∈ raw, e.1 = j ∧ (d.farSrc e = true ∨ d.farDst e = true) := by
  simp only [Desc.far, List.mem_map, List.mem_filter, Bool.or_eq_true]
  constructor
  · rintro ⟨e, ⟨he, hf⟩, rfl⟩
    exact ⟨e, he, rfl, hf⟩
  · rintro ⟨e, he, rfl, hf⟩
    exact ⟨e, ⟨he, hf⟩, rfl⟩

theorem mem_out {raw : List RawRow} {j : Nat} :
    j ∈ (d.out s w raw).map (·.1) ↔ ∃ e ∈ raw, e.1 = j ∧ d.outside s w e := by
  simp only [Desc.out, Desc.placed, List.filter_map, List.map_map, List.mem_map, List.mem_filter, Function.comp,
    Bool.or_eq_true, placeSide_isNone]
  constructor
  · rintro ⟨e, ⟨he, ho⟩, rfl⟩
    exact ⟨e, he, rfl, ho⟩
  · rintro ⟨e, he, rfl, ho⟩
    exact ⟨e, ⟨he, ho⟩, rfl⟩

theorem isEmpty_eq_false_of_mem {α β : Type} {l : List α} {f : α → β} {b : β} (h : b ∈ l.map f) : l.isEmpty = false := by
  cases l
  · cases h
  · rfl

theorem far_isEmpty {raw : List RawRow} (h : ∀ e ∈ raw, d.farSrc e = false ∧ d.farDst e = false) : d.far raw = [] :=
  List.filter_eq_nil_iff.2 fun e he => by simp [h e he]

/-- The positions whose global sides leave the address space are named first, with the source's word where one of them does. -/
theorem Desc.Judged.plan_far (h : d.Judged s w xs accs) {m : Mask}
    (hm : ∀ j < 96, m.getLsbD j = true ↔ ∃ e ∈ d.rows xs, e.1 = j ∧ (d.farSrc e = true ∨ d.farDst e = true))
    (hex : ∃ e ∈ d.rows xs, d.farSrc e = true ∨ d.farDst e = true) :
    d.plan s w = .error (copyTrap 5 (if (d.rows xs).any d.farSrc then 1 else 3) (some m)) := by
  obtain ⟨e, he, hf⟩ := hex
  have hne := isEmpty_eq_false_of_mem (mem_far.2 ⟨e, he, rfl, hf⟩)
  have hsrc : (d.srcGlobal && (d.far (d.rows xs)).any fun e =>
      decide (e.2.1 < 0) || decide ((2 ^ 56 : Int) < e.2.1 + e.2.2.2)) = (d.rows xs).any d.farSrc := by
    rw [Bool.eq_iff_iff]
    simp only [Desc.far, Desc.farSrc, List.any_filter, Bool.and_eq_true, List.any_eq_true]
    constructor
    · rintro ⟨hg, e, he, -, hp⟩
      exact ⟨e, he, hg, hp⟩
    · rintro ⟨e, he, hg, hp⟩
      exact ⟨hg, e, he, by rw [hg, hp]; rfl, hp⟩
  rw [h.plan_eq, hne, hsrc, ← eq_posMask (fun j hj => (hm j hj).trans mem_far.symm)]
  rfl

/-- There is room for the absent mask behind the destination (R253). -/
def Desc.room (d : Desc) : Prop := d.tomb = true → 4 ≤ d.sd ∧ d.sd ≤ 1004

theorem overQuota_of_vreg {v : Nat} (hv : d.vreg = some v) : d.overQuota w = decide (w.grp.vcount ≤ v) := by
  simp only [Desc.overQuota, hv]

theorem overQuota_of_no_vreg (hv : d.vreg = none) : d.overQuota w = false := by
  simp only [Desc.overQuota, hv]

section
variable (h : d.Judged s w xs accs) (hnear : ∀ e ∈ d.rows xs, d.farSrc e = false ∧ d.farDst e = false)
include h hnear

/-- Then an index register beyond the quota. -/
theorem Desc.Judged.plan_register (hq : d.overQuota w = true) :
    d.plan s w = .error (copyTrap 6 9) := by
  rw [h.plan_eq, far_isEmpty hnear, hq]
  rfl

/-- Then a tombed gather without room for its absent mask. -/
theorem Desc.Judged.plan_noRoom (hreg : d.overQuota w = false) (ht : d.tomb = true) (hsd : d.sd < 4 ∨ 1004 < d.sd) :
    d.plan s w = .error (copyTrap 7 0) := by
  have hroom : (d.tomb && !(decide (4 ≤ d.sd) && decide (d.sd ≤ 1004))) = true := by
    simp only [ht, Bool.true_and, Bool.not_eq_true', Bool.and_eq_false_iff, decide_eq_false_iff_not]
    omega
  rw [h.plan_eq, far_isEmpty hnear, hroom, if_neg (by simp), hreg, if_neg Bool.false_ne_true, if_pos rfl]

/-- A block that passes the checks before those of its places. -/
theorem Desc.Judged.plan_placed (hreg : d.overQuota w = false) (hroom : d.room) : d.plan s w =
    if !(d.out s w (d.rows xs)).isEmpty then
      .error (copyRange (posMask ((d.out s w (d.rows xs)).map (·.1)))
        (d.lowest s w (d.rows xs)).1 (d.lowest s w (d.rows xs)).2)
    else .ok (d.goodPlan s w (d.rows xs) accs) := by
  have hpass : (d.tomb && !(decide (4 ≤ d.sd) && decide (d.sd ≤ 1004))) = false := by
    cases ht : d.tomb
    · rfl
    · simp [hroom ht]
  rw [h.plan_eq, far_isEmpty hnear, hpass, if_neg (by simp), hreg, if_neg Bool.false_ne_true, if_neg (by simp)]

/-- Then places outside their allocations, with the positions that fail. -/
theorem Desc.Judged.plan_outside (hreg : d.overQuota w = false) (hroom : d.room) (hout : ∃ e ∈ d.rows xs, d.outside s w e) :
    ∃ m a lim, d.plan s w = .error (copyRange m a lim) ∧
      ∀ j < 96, m.getLsbD j = true ↔ ∃ e ∈ d.rows xs, e.1 = j ∧ d.outside s w e := by
  obtain ⟨e, he, ho⟩ := hout
  have hne := isEmpty_eq_false_of_mem (mem_out.2 ⟨e, he, rfl, ho⟩)
  exact ⟨_, _, _, by rw [h.plan_placed hnear hreg hroom, hne]; rfl, fun j hj => (getLsbD_posMask _ hj).trans mem_out⟩

/-- A block that passes every check. -/
theorem Desc.Judged.plan_ok (hreg : d.overQuota w = false) (hroom : d.room) (hin : ∀ e ∈ d.rows xs, ¬ d.outside s w e) :
    d.plan s w = .ok (d.goodPlan s w (d.rows xs) accs) := by
  have hout : d.out s w (d.rows xs) = [] := by
    refine List.map_eq_nil_iff (f := (·.1)).1 (List.eq_nil_iff_forall_not_mem.2 fun j hj => ?_)
    obtain ⟨e, he, -, ho⟩ := mem_out.1 hj
    exact hin e he ho
  rw [h.plan_placed hnear hreg hroom, hout]
  rfl

end

theorem goodPlan_rows (raw : List RawRow) :
    (d.goodPlan s w raw accs).rows.map (fun r => (r.pos, r.len)) = raw.map fun e => (e.1, e.2.2.2) := by
  simp only [Desc.goodPlan, Desc.goodRows, Desc.placed, List.map_map]
  rfl

end

/-! ### Blocks of a good form -/

section
variable {d : Desc} {s : State} {w : Who}

theorem formBad_of_first {e : Nat × Nat × Bool} (hd : d.opc ∈ copyOpcodes)
    (h : d.formChecks.find? (fun e => e.2.2) = some e) : d.formBad = some (e.1, e.2.1) := by
  rw [formBad_eq hd, h]
  rfl

theorem formBad_of_good (hd : d.opc ∈ copyOpcodes) (h : d.formChecks.all (fun e => !e.2.2) = true) : d.formBad = none := by
  rw [formBad_eq hd, Option.map_eq_none_iff, List.find?_eq_none]
  intro e he hbad
  simpa [hbad] using List.all_eq_true.1 h e he

theorem indexed_eq (hd : d.opc ∈ copyOpcodes) : d.indexed = decide (0xA2 ≤ d.opc) := by
  simp only [copyOpcodes, List.mem_cons, List.not_mem_nil, or_false] at hd
  obtain h | h | h | h := hd <;> simp [Desc.indexed, h]

/-- A block that names an index list names no register. -/
theorem vreg_of_listed (h : (decide (0xA2 ≤ d.opc) && (d.w 9).getLsbD 31) = true) : d.vreg = none := by
  rw [Bool.and_eq_true] at h
  simp [Desc.vreg, bit, h.2]

theorem vreg_of_plain (hd : d.opc ∈ copyOpcodes) (h : decide (0xA2 ≤ d.opc) = false) : d.vreg = none := by
  simp [Desc.vreg, indexed_eq hd, h]

/-- The index register of a block of a good form. -/
theorem vreg_of_good (hd : d.opc ∈ copyOpcodes) (h : d.formChecks.all (fun e => !e.2.2) = true)
    (hv : decide (0xA2 ≤ d.opc) = true) (hl : (decide (0xA2 ≤ d.opc) && (d.w 9).getLsbD 31) = false) :
    d.vreg = some (d.w 9).toNat := by
  have hbit : (d.w 9).getLsbD 31 = false := by simpa [hv] using hl
  have hcheck := List.all_eq_true.1 h (1, 9, decide (0xA2 ≤ d.opc) &&
    !(decide (0xA2 ≤ d.opc) && (d.w 9).getLsbD 31) && decide (2 ^ 7 ≤ (d.w 9).toNat)) (by simp [Desc.formChecks])
  rw [hv, hbit] at hcheck
  have hlt : (d.w 9).toNat < 2 ^ 7 := by simpa using hcheck
  have hlow : bits (d.w 9) 6 0 = (d.w 9).toNat := by rw [bits]; omega
  simp only [Desc.vreg, indexed_eq hd, hv, bit, hbit, hlow, Bool.not_false, Bool.and_true, if_true]

theorem hazardIn_vector {pend : List Pend} {v : Nat} (h : ∀ p ∈ pend, p.kind = 1 → p.reg ≠ v) :
    hazardIn pend 1 [v] = none := by
  have hpend : pendOf pend 1 v = none := by
    refine List.find?_eq_none.2 fun p hp hbad => ?_
    simp only [Bool.or_eq_true, Bool.and_eq_true, decide_eq_true_eq] at hbad
    have := h p hp
    omega
  simp [hazardIn, hpend, leastBy]

/-- The index list of a block that lies outside its allocation. -/
theorem indices_out (hd : d.opc ∈ copyOpcodes) (hl : (decide (0xA2 ≤ d.opc) && (d.w 9).getLsbD 31) = true) {lim : Nat}
    (h : locate s w ((d.w 9).toNat % 2 ^ 31) (4 * (d.w 8).toNat) = .out lim) :
    d.indices s w = .error (copyRange 0 ((d.w 9).toNat % 2 ^ 31) lim) := by
  have hlist : d.list = some ((d.w 9).toNat % 2 ^ 31, 4 * (d.w 8).toNat) := by
    rw [Desc.list, indexed_eq hd, bit, hl, if_pos rfl]
  have hidx : d.indexed = true := by rw [indexed_eq hd]; exact (Bool.and_eq_true_iff.1 hl).1
  simp only [Desc.indices, hidx, Bool.not_true, Bool.false_eq_true, if_false, hlist, h]

theorem farSrc_iff (e : RawRow) : d.farSrc e = true ↔
    ((d.w 0).toNat % 8 = 0 ∨ (d.w 0).toNat % 8 = 2) ∧ (e.2.1 < 0 ∨ (2 ^ 56 : Int) < e.2.1 + e.2.2.2) := by
  simp [Desc.farSrc, Desc.srcGlobal, Desc.dir, bits]

theorem farDst_iff (e : RawRow) : d.farDst e = true ↔
    ((d.w 0).toNat % 8 = 1 ∨ (d.w 0).toNat % 8 = 2) ∧ (e.2.2.1 < 0 ∨ (2 ^ 56 : Int) < e.2.2.1 + e.2.2.2) := by
  simp [Desc.farDst, Desc.dstGlobal, Desc.dir, bits]

theorem outside_iff (e : RawRow) : d.outside s w e ↔
    (((d.w 0).toNat % 8 = 1 ∨ (d.w 0).toNat % 8 = 3) ∧ ∃ lim, locate s w e.2.1.toNat e.2.2.2 = .out lim) ∨
      (((d.w 0).toNat % 8 = 0 ∨ (d.w 0).toNat % 8 = 3) ∧ ∃ lim, locate s w e.2.2.1.toNat e.2.2.2 = .out lim) := by
  simp [Desc.outside, Desc.srcLocal, Desc.dstLocal, Desc.dir, bits]

end

/-! ### The frame of a copy's issue -/

/-- `t` is `s` but for what marks a read, a message or a join: the tasks' signatures, sums, domains, and the domains of
launches and effects. -/
structure Marked (s t : State) : Prop where
  cmds : t.cmds = s.cmds
  groups : t.groups = s.groups
  teams : t.teams = s.teams
  mem : t.mem = s.mem
  fresh : t.fresh = s.fresh
  effects : t.effects.map (fun e => { e with dom := 0 }) = s.effects.map fun e => { e with dom := 0 }

theorem Marked.refl (s : State) : Marked s s := ⟨rfl, rfl, rfl, rfl, rfl, rfl⟩

theorem Marked.trans {s t u : State} (a : Marked s t) (b : Marked t u) : Marked s u :=
  ⟨b.cmds.trans a.cmds, b.groups.trans a.groups, b.teams.trans a.teams, b.mem.trans a.mem, b.fresh.trans a.fresh,
    b.effects.trans a.effects⟩

theorem Marked.foldl {α : Type} {f : State → α → State} (h : ∀ s a, Marked s (f s a)) (l : List α) (s : State) :
    Marked s (l.foldl f s) := by
  induction l generalizing s with
  | nil => exact Marked.refl s
  | cons a l ih => exact (h s a).trans (ih _)

theorem signReads_marked (s : State) (w : Who) (l : List (Nat × Nat)) : Marked s (signReads s w l) := by
  unfold signReads
  split
  · exact Marked.refl s
  · exact ⟨rfl, rfl, rfl, rfl, rfl, rfl⟩

theorem mergeWords_marked (s : State) (pa n : Nat) : Marked s (mergeWords s pa n) := by
  obtain ⟨ac, h⟩ := mergeWords_eq s pa n
  rw [h]
  exact ⟨rfl, rfl, rfl, rfl, rfl, rfl⟩

theorem mergeRead_marked (s : State) (w : Who) (va n : Nat) : Marked s (mergeRead s w va n) := by
  have haccs (s : State) (ac : List (Nat × Exact)) : Marked s { s with accs := ac } := ⟨rfl, rfl, rfl, rfl, rfl, rfl⟩
  unfold mergeRead
  split
  · exact Marked.refl s
  · refine ((haccs s _).trans (Marked.foldl (fun s p => ?_) _ _)).trans (haccs _ _)
    split
    · exact mergeWords_marked ..
    · exact Marked.refl s

theorem mergeDomains_marked (s : State) (a b : Nat) : Marked s (mergeDomains s a b) := by
  unfold mergeDomains
  split
  · refine ⟨rfl, rfl, rfl, rfl, rfl, ?_⟩
    rw [List.map_map]
    refine List.map_congr_left fun e _ => ?_
    simp only [Function.comp]
    split <;> rfl
  · exact Marked.refl s

theorem settleJoins_marked (s : State) (d : Nat) : Marked s (settleJoins s d) := by
  unfold settleJoins
  split
  · exact Marked.refl s
  · refine Marked.foldl (fun s j => ?_) _ _
    dsimp only
    split
    · exact mergeDomains_marked ..
    · exact Marked.refl s

theorem joinDomains_marked (s : State) (w : Who) (d : Nat) : Marked s (joinDomains s w d) := by
  simp only [joinDomains]
  split
  · exact Marked.refl s
  · exact Marked.trans (t := joinAt ..) ⟨rfl, rfl, rfl, rfl, rfl, rfl⟩ (settleJoins_marked ..)

theorem joinPort_marked (s : State) (w : Who) (num : Nat) : Marked s (joinPort s w num) := by
  refine Marked.foldl (fun s o => ?_) _ _
  split
  · exact joinDomains_marked ..
  · exact Marked.refl s

theorem copyMarks_marked (s : State) (w : Who) (started : List (Desc × List Row)) : Marked s (copyMarks s w started) := by
  have htag (s : State) (d : Nat) (l : List Nat) : Marked s (tagPages s d l) := ⟨rfl, rfl, rfl, rfl, rfl, rfl⟩
  simp only [copyMarks]
  exact ((signReads_marked ..).trans (Marked.foldl (fun s (r : Nat × Nat) => mergeRead_marked s w r.1 r.2) _ _)).trans
    ((htag ..).trans (Marked.foldl (fun s _ => joinPort_marked s w _) _ _))

/-! ### A new copy in flight -/

/-- The command that a checked block starts. -/
def copyCmd (s : State) (w : Who) (d : Desc) (p : Plan) (rows : List Row) (flag serial : Nat) : Cmd :=
  let refused := (d.refusal s w).map word
  { group := w.g, split := w.x, team := w.grp.team, task := w.grp.task, flag, sd := d.sd, into := [w.x]
    key := agentKey w, clock := w.sp.clock, prog := s.prog, line := w.sp.line
    reads := if refused.isSome then [] else ownRanges w p.accs false
    writes := if refused.isSome then [] else ownRanges w p.accs true
    wins := if refused.isSome then [] else windowRanges w p.accs
    bar := if d.cmode = 1 && refused.isNone then some (d.bar, cmdPhase w.grp d.bar) else none
    interval := w.team.interval
    ovl := viewOverlay s w ((rows.filter fun r => r.data.isNone).map fun r => (r.src, r.len))
    behind := if refused.isSome then [] else (rows.flatMap (rowBehind s w d)).eraseDups
    after := if rows.any fun r => !r.late.isEmpty then some (quantum w) else none
    body := .copy d.opc d.ws (if refused.isSome then [] else rows) serial (quantum w) none d.entry refused }

/-- Its number, and the state: the barrier that it names counts it. -/
theorem startCopy_eq (s : State) (w : Who) (d : Desc) (p : Plan) (rows : List Row) (flag serial : Nat) :
    startCopy s w d p rows flag serial =
      (s.fresh,
        let t := (newCmd { s with prog := s.prog + 1 } (copyCmd s w d p rows flag serial)).2
        if d.cmode = 1 && ((d.refusal s w).map word).isNone then barAddCmd t w d.bar s.fresh else t) := rfl

/-- `t` is `s` but for one new command in flight, with a later program order, that a barrier of the team may count. -/
structure Started (s t : State) (k : Cmd) : Prop where
  cmds : t.cmds = Table.put s.cmds s.fresh k
  fresh : t.fresh = s.fresh + 1
  groups : t.groups = s.groups
  mem : t.mem = s.mem
  effects : t.effects = s.effects
  teams : ∀ n tm, Table.find s.teams n = some tm → ∃ tm', Table.find t.teams n = some tm' ∧
    tm'.mem = tm.mem ∧ tm'.sched = tm.sched

theorem updTeam_find {s : State} {n m : Nat} {tm : Team} (f : Team → Team) (h : Table.find s.teams n = some tm) :
    Table.find (updTeam s m f).teams n = some (if n = m then f tm else tm) := by
  by_cases hn : n = m
  · subst hn
    simp [h]
  · simp [hn, Table.find_upd_ne _ _ hn, h]

theorem startCopy_started (s : State) (w : Who) (d : Desc) (p : Plan) (rows : List Row) (flag serial : Nat) :
    Started s (startCopy s w d p rows flag serial).2 (copyCmd s w d p rows flag serial) := by
  rw [startCopy_eq]
  dsimp only
  split
  · refine ⟨rfl, rfl, rfl, rfl, rfl, fun n tm h => ⟨_, updTeam_find _ h, ?_⟩⟩
    split <;> exact ⟨rfl, rfl⟩
  · exact ⟨rfl, rfl, rfl, rfl, rfl, fun n tm h => ⟨tm, h, rfl, rfl⟩⟩

/-! ### What a change of tasks or teams leaves of a command's judgement -/

/-- A change of the state that ports, patterns and phasers do not depend on: it keeps them and what their configuration
reads, and commutes with their changes. -/
structure PortBlind (g : State → State) : Prop where
  chip : ∀ v, (g v).chip = v.chip
  ctxs : ∀ v, (g v).ctxs = v.ctxs
  ports : ∀ v, (g v).ports = v.ports
  patterns : ∀ v, (g v).patterns = v.patterns
  phasers : ∀ v, (g v).phasers = v.phasers
  conts : ∀ v, (g v).conts = v.conts
  groups : ∀ v, (g v).groups = v.groups
  effects : ∀ v, (g v).effects = v.effects
  launch : ∀ v n, ((Table.find (g v).tasks n).bind fun t => Table.find (g v).launches t.launch) =
    (Table.find v.tasks n).bind fun t => Table.find v.launches t.launch
  setPorts : ∀ v ps, g { v with ports := ps } = { g v with ports := ps }
  setPatterns : ∀ v ps, g { v with patterns := ps } = { g v with patterns := ps }

section
variable {g : State → State} (h : PortBlind g) (s : State) (ctx : Nat)
include h

theorem PortBlind.ctxOf : ctxOf (g s) ctx = ctxOf s ctx := by rw [Machine.ctxOf, h.ctxs]; rfl

theorem PortBlind.physPort (num : Nat) : physPort (g s) ctx num = physPort s ctx num := by
  rw [Machine.physPort, dies, h.ctxOf, h.chip]
  rfl

theorem PortBlind.physPattern (num : Nat) : physPattern (g s) ctx num = physPattern s ctx num := by
  rw [Machine.physPattern, dies, h.ctxOf, h.chip]
  rfl

theorem PortBlind.portAt (num : Nat) : portAt (g s) ctx num = portAt s ctx num := by
  simp only [Machine.portAt, h.physPort, h.ports]

theorem PortBlind.patternAt (num : Nat) : patternAt (g s) ctx num = patternAt s ctx num := by
  simp only [Machine.patternAt, h.physPattern, h.patterns]

theorem PortBlind.status (kind : Nat) (ws : List Word) : cfgStatus (g s) ctx kind ws = cfgStatus s ctx kind ws := by
  unfold cfgStatus
  split
  · simp only [portcfgStatus, portNumbers, patternNumbers, h.portAt, h.patternAt, h.ctxOf, h.ports, h.patterns, h.conts,
      h.groups, h.launch]
  · simp only [patcfgStatus, h.portAt, h.patternAt]
  · simp only [patsetStatus, h.portAt, h.patternAt]
  · rfl

theorem PortBlind.updPort (num : Nat) (p : Port → Port) : updPort (g s) ctx num p = g (updPort s ctx num p) := by
  unfold Machine.updPort
  rw [h.physPort]
  split
  · rw [h.ports]
    exact (h.setPorts ..).symm
  · rfl

theorem PortBlind.updPattern (num : Nat) (p : Pattern → Pattern) :
    updPattern (g s) ctx num p = g (updPattern s ctx num p) := by
  unfold Machine.updPattern
  rw [h.physPattern]
  split
  · rw [h.patterns]
    exact (h.setPatterns ..).symm
  · rfl

theorem PortBlind.cfgApply (num task gidx key kind : Nat) (ws : List Word) :
    cfgApply (g s) ctx num task gidx key kind ws = g (cfgApply s ctx num task gidx key kind ws) := by
  unfold Machine.cfgApply
  dsimp only
  split
  · exact h.updPort ..
  · exact h.updPattern ..
  · split
    · exact h.updPattern ..
    · exact h.updPattern ..
    · exact h.updPort ..
    · exact h.updPort ..
  · exact h.updPort ..

theorem PortBlind.portView (w : Who) : portView (g s) w = g (portView s w) := by
  have hown : ownConfigs (g s) w = ownConfigs s w := by rw [ownConfigs, h.effects]; rfl
  unfold Machine.portView
  rw [hown]
  clear hown
  generalize ownConfigs s w = es
  induction es generalizing s with
  | nil => rfl
  | cons e es ih =>
    simp only [List.foldl_cons]
    rw [← ih]
    congr 1
    split
    · rw [h.status, h.cfgApply]
      split <;> rfl
    · rfl

/-- A command is refused or not whatever the change. -/
theorem PortBlind.refusal (d : Desc) (w : Who) : d.refusal (g s) w = d.refusal s w := by
  unfold Desc.refusal
  split
  · rfl
  · rw [portOpen, h.portView, h.portAt]
    rfl
  · rw [copyPartySignals, h.phasers]
    rfl
  · rfl

end

theorem updTeam_portBlind (n : Nat) (f : Team → Team) : PortBlind fun s => updTeam s n f :=
  ⟨fun _ => rfl, fun _ => rfl, fun _ => rfl, fun _ => rfl, fun _ => rfl, fun _ => rfl, fun _ => rfl, fun _ => rfl,
    fun _ _ => rfl, fun _ _ => rfl, fun _ _ => rfl⟩

theorem updTask_portBlind (n : Nat) {f : Task → Task} (hf : ∀ k, (f k).launch = k.launch) :
    PortBlind fun s => updTask s n f := by
  refine ⟨fun _ => rfl, fun _ => rfl, fun _ => rfl, fun _ => rfl, fun _ => rfl, fun _ => rfl, fun _ => rfl, fun _ => rfl,
    fun v m => ?_, fun _ _ => rfl, fun _ _ => rfl⟩
  by_cases hm : m = n
  · subst hm
    simp only [updTask_tasks, updTask_launches, Table.find_upd]
    cases Table.find v.tasks m with
    | none => rfl
    | some k => simp [hf]
  · simp only [updTask_tasks, updTask_launches, Table.find_upd_ne _ _ hm]

/-! ### What a copy instruction comes to -/

/-- The body of a copy instruction for its block. -/
def copyRes (s : State) (w : Who) (d : Desc) : Res :=
  if d.listWaits s w then .stall 7
  else
    .bind (d.plan s w) fun p =>
      if viewWaits s w d then .stall 8
      else if (d.refusal s w).isSome then
        .ok { s := acceptCopy w d p p.rows s, accs := d.listAccs p, items := p.items, looks := d.listLooks p
              pends := some d.pends }
      else startsCopy s w d p

section
variable {s : State} {w : Who} {c : Clause} {i : Instr} {opc words : Nat} {sd sa : SReg}
  (hx : exec i s = copySlot i opc words sd sa s)
include hx

theorem copy_stops {r : Res} (hr : copyRes s w { opc, ws := block s sa words, sd := sd.toNat } = r) (hok : ∀ o, r ≠ .ok o)
    (hq : r ≠ .closeFirst) : stopsOnSplit s w c i r := fun h =>
  hx.trans (slot_settle h ((withWho_issues h _).trans hr) hok fun e => absurd e hq)

theorem copy_traps {t : Trap} (hr : copyRes s w { opc, ws := block s sa words, sd := sd.toNat } = .trap t) :
    trapsOnSplit s w c i t := copy_stops hx hr (fun _ h => by cases h) fun h => by cases h

theorem copy_waits {k : Nat} (hr : copyRes s w { opc, ws := block s sa words, sd := sd.toNat } = .stall k) :
    waitsOnSplit s w c i k := copy_stops hx hr (fun _ h => by cases h) fun h => by cases h

theorem copy_runs {o : Out} (hr : copyRes s w { opc, ws := block s sa words, sd := sd.toNat } = .ok o) :
    runsOnSplit s w c i o := fun h hc => hx.trans (slot_ok h ((withWho_issues h _).trans hr) hc)

end

/-- The state in which the bytes of a command count against the task's write set. -/
def counted (s : State) (w : Who) (n : Nat) : State :=
  if n = 0 then s
  else updTask s w.grp.task fun k =>
    { k with wset := Sparse.set 0 k.wset (quantum w) (Sparse.get 0 k.wset (quantum w) + n) }

section
variable {s : State} {w : Who} {n : Nat} (f : State → Res)

theorem countWrites_turn (hn : 0 < n) (hr : w.task.rooted = none) (ht : itsTurn s w = false) :
    countWrites s w n f = .turn .turn := by
  simp [countWrites, Nat.ne_of_gt hn, hr, ht]

theorem mayCount_iff : (w.task.rooted.isNone && !itsTurn s w) = false ↔ w.task.rooted.isSome = true ∨ itsTurn s w = true := by
  cases w.task.rooted <;> cases itsTurn s w <;> simp

theorem countWrites_exhaust (hn : 0 < n) (hm : w.task.rooted.isSome = true ∨ itsTurn s w = true)
    (hq : (recWord w.task.words 17).toNat < writeTotal w n) : countWrites s w n f = .exhaust 3 := by
  rw [countWrites, if_neg (Nat.ne_of_gt hn), mayCount_iff.2 hm, if_neg Bool.false_ne_true, if_pos hq]

theorem countWrites_passes (h : n = 0 ∨ (w.task.rooted.isSome = true ∨ itsTurn s w = true) ∧
    writeTotal w n ≤ (recWord w.task.words 17).toNat) : countWrites s w n f = f (counted s w n) := by
  unfold countWrites counted
  by_cases hn : n = 0
  · rw [if_pos hn, if_pos hn]
  · obtain ⟨hm, hq⟩ := h.resolve_left hn
    rw [if_neg hn, if_neg hn, mayCount_iff.2 hm, if_neg Bool.false_ne_true, if_neg (by omega)]

/-- The count changes only the task's write set. -/
theorem counted_eq (s : State) (w : Who) (n : Nat) : ∃ ks, counted s w n = { s with tasks := ks } := by
  unfold counted
  split
  · exact ⟨s.tasks, rfl⟩
  · exact ⟨_, rfl⟩

theorem readRows_counted (s : State) (w : Who) (n : Nat) (d : Desc) (rows : List Row) :
    readRows (counted s w n) w d rows = readRows s w d rows := by
  obtain ⟨ks, h⟩ := counted_eq s w n
  rw [h]
  rfl

theorem refusal_counted (s : State) (w : Who) (n : Nat) (d : Desc) : d.refusal (counted s w n) w = d.refusal s w := by
  unfold counted
  split
  · rfl
  · refine PortBlind.refusal (g := fun s => updTask s w.grp.task _) (updTask_portBlind w.grp.task fun _ => ?_) s d w
    rfl

end

section
variable {s : State} {w : Who} {d : Desc} {p : Plan}

theorem copyRes_error {t : Trap} (hl : d.listWaits s w = false) (hp : d.plan s w = .error t) : copyRes s w d = .trap t := by
  simp [copyRes, hl, hp, Res.bind]

theorem listWaits_of_formBad {e : Nat × Nat} (h : d.formBad = some e) : d.listWaits s w = false := by
  simp [Desc.listWaits, h]

theorem viewWaits_ready (hv : 2 ≤ d.cmode → readReady s w = true) : viewWaits s w d = false := by
  by_cases hm : 2 ≤ d.cmode
  · simp [viewWaits, hv hm]
  · simp [viewWaits, hm]

section
variable (hl : d.listWaits s w = false) (hp : d.plan s w = .ok p)
include hl hp

theorem copyRes_view (hm : 2 ≤ d.cmode) (hv : readReady s w = false) : copyRes s w d = .stall 8 := by
  simp [copyRes, hl, hp, Res.bind, viewWaits, hm, hv]

variable (hv : 2 ≤ d.cmode → readReady s w = true)
include hv

theorem copyRes_refused {k : Nat} (hr : d.refusal s w = some k) : copyRes s w d =
    .ok { s := acceptCopy w d p p.rows s, accs := d.listAccs p, items := p.items, looks := d.listLooks p
          pends := some d.pends } := by
  simp [copyRes, hl, hp, Res.bind, viewWaits_ready hv, hr]

variable (hr : d.refusal s w = none)
include hr

theorem copyRes_starts : copyRes s w d = startsCopy s w d p := by
  simp [copyRes, hl, hp, Res.bind, viewWaits_ready hv, hr]

theorem copyRes_foreign {va : Nat} (hf : copyForeign s w d p.rows = some va) :
    copyRes s w d = .trap { cls := 8, cause := 2, d0 := word va, d1 := word (va / 2 ^ 32) } := by
  simp only [copyRes_starts hl hp hv hr, startsCopy, hf, crossTrap]

variable (hf : copyForeign s w d p.rows = none)
include hf

theorem copyRes_waits {k : Nat} (hk : copyWaits s w d p = some k) : copyRes s w d = .stall k := by
  simp only [copyRes_starts hl hp hv hr, startsCopy, hf, hk]

theorem copyRes_counts (hk : copyWaits s w d p = none) :
    ∃ f, copyRes s w d = countWrites s w (globalBytes d p.rows) f ∧ ∀ t rows, readRows t w d p.rows = .ok rows →
      f t = .ok { s := copyMarks (acceptCopy w d p rows t) w [(d, rows)]
                  accs := p.accs, items := p.items, looks := p.looks, pends := some d.pends } := by
  simp only [copyRes_starts hl hp hv hr, startsCopy, hf, hk]
  exact ⟨_, rfl, fun t rows h => by simp only [h]⟩

/-- A command whose bytes count moves on with its sources as they stand at issue. -/
theorem copyRes_flies (hk : copyWaits s w d p = none) (hn : globalBytes d p.rows = 0 ∨
    (w.task.rooted.isSome = true ∨ itsTurn s w = true) ∧
      writeTotal w (globalBytes d p.rows) ≤ (recWord w.task.words 17).toNat) {rows : List Row}
    (hrows : readRows s w d p.rows = .ok rows) : copyRes s w d =
    .ok { s := copyMarks (acceptCopy w d p rows (counted s w (globalBytes d p.rows))) w [(d, rows)]
          accs := p.accs, items := p.items, looks := p.looks, pends := some d.pends } := by
  obtain ⟨f, hres, hf⟩ := copyRes_counts hl hp hv hr hf hk
  rw [hres, countWrites_passes _ hn]
  exact hf _ _ ((readRows_counted ..).trans hrows)

end

theorem copyWaits_source (hg : d.srcGlobal = true) (hv : readReady s w = false) : copyWaits s w d p = some 8 := by
  simp [copyWaits, hg, hv]

theorem source_passes (hv : d.srcGlobal = true → readReady s w = true) : (d.srcGlobal && !readReady s w) = false := by
  cases hg : d.srcGlobal
  · rfl
  · simp [hv hg]

theorem copyWaits_window (hv : d.srcGlobal = true → readReady s w = true)
    (hh : heldAccess s w (p.accs.filter fun a => a.team ≠ w.team.tidx && a.how = 0) = true) :
    copyWaits s w d p = some 7 := by
  rw [copyWaits, source_passes hv, if_neg Bool.false_ne_true, if_pos hh]

theorem copyWaits_none (hv : d.srcGlobal = true → readReady s w = true)
    (hh : heldAccess s w (p.accs.filter fun a => a.team ≠ w.team.tidx && a.how = 0) = false) :
    copyWaits s w d p = none := by
  rw [copyWaits, source_passes hv, if_neg Bool.false_ne_true, hh, if_neg Bool.false_ne_true]

end

/-- What a copy's issue leaves: one new command in flight, the group's next serial, every byte as before, and the effects as
before but for their domains. -/
structure Issued (s t : State) (g : Nat) (k : Cmd) : Prop where
  cmd : Table.find t.cmds s.fresh = some k
  mem : t.mem = s.mem
  effects : t.effects.map (fun e => { e with dom := 0 }) = s.effects.map fun e => { e with dom := 0 }
  groups : t.groups = (nextSerial s g).groups
  teams : ∀ n tm, Table.find s.teams n = some tm → ∃ tm', Table.find t.teams n = some tm' ∧ tm'.mem = tm.mem

theorem acceptCopy_issued (s : State) (w : Who) (d : Desc) (p : Plan) (rows : List Row) :
    Issued s (acceptCopy w d p rows s) w.g
      (copyCmd s w d p rows ((w.sp.clause.map Clause.flag).getD 15) w.grp.cserial) := by
  obtain ⟨hcmds, hfresh, hgroups, hmem, heffects, hteams⟩ :=
    startCopy_started s w d p rows ((w.sp.clause.map Clause.flag).getD 15) w.grp.cserial
  refine ⟨?_, hmem, congrArg _ heffects, ?_, fun n tm h => ?_⟩
  · rw [acceptCopy, nextSerial, updGroup_cmds, hcmds, Table.find_put]
  · rw [acceptCopy, nextSerial, nextSerial, updGroup_groups, updGroup_groups, hgroups]
  · obtain ⟨tm', ht, hm, -⟩ := hteams n tm h
    exact ⟨tm', ht, hm⟩

theorem Issued.marked {s t u : State} {g : Nat} {k : Cmd} (h : Issued s t g k) (m : Marked t u) : Issued s u g k := by
  obtain ⟨hcmd, hmem, heffects, hgroups, hteams⟩ := h
  exact ⟨m.cmds ▸ hcmd, m.mem.trans hmem, m.effects.trans heffects, m.groups.trans hgroups, m.teams ▸ hteams⟩

/-- The count of a command's bytes is no part of what its issue leaves. -/
theorem Issued.of_counted {s t : State} {w : Who} {n g : Nat} {k : Cmd} (h : Issued (counted s w n) t g k) : Issued s t g k := by
  obtain ⟨ks, hs⟩ := counted_eq s w n
  rw [hs] at h
  exact ⟨h.cmd, h.mem, h.effects, h.groups, h.teams⟩

/-! ### The four copy instructions -/

section
variable {d : Desc} {s : State} {w : Who} {xs : List (Option Nat)} {accs : List Acc}

/-- No index register of a block of a good form is pending. -/
theorem hazard_none_of_good (hd : d.opc ∈ copyOpcodes) (hform : d.formChecks.all (fun e => !e.2.2) = true)
    (hpend : ∀ p ∈ w.sp.pend, p.kind = 1 → decide (0xA2 ≤ d.opc) = true →
      (decide (0xA2 ≤ d.opc) && (d.w 9).getLsbD 31) = true ∨ p.reg ≠ (d.w 9).toNat) :
    (d.vreg.bind fun v => hazardIn w.sp.pend 1 [v]) = none := by
  cases hv : decide (0xA2 ≤ d.opc)
  · rw [vreg_of_plain hd hv]
    rfl
  · cases hl : decide (0xA2 ≤ d.opc) && (d.w 9).getLsbD 31
    · rw [vreg_of_good hd hform hv hl]
      exact hazardIn_vector fun p hp hk => (hpend p hp hk hv).resolve_left (by rw [hl]; exact Bool.false_ne_true)
    · rw [vreg_of_listed hl]
      rfl

/-- The quota that the statement of O24 speaks of is the one that the model asks for. -/
theorem overQuota_eq (hd : d.opc ∈ copyOpcodes) (hform : d.formChecks.all (fun e => !e.2.2) = true) :
    d.overQuota w = true ↔ decide (0xA2 ≤ d.opc) = true ∧ (decide (0xA2 ≤ d.opc) && (d.w 9).getLsbD 31) = false ∧
      w.grp.vcount ≤ (d.w 9).toNat := by
  cases hv : decide (0xA2 ≤ d.opc)
  · simp [overQuota_of_no_vreg (vreg_of_plain hd hv)]
  · cases hl : decide (0xA2 ≤ d.opc) && (d.w 9).getLsbD 31
    · rw [overQuota_of_vreg (vreg_of_good hd hform hv hl)]
      simp_all
    · rw [overQuota_of_no_vreg (vreg_of_listed hl)]
      simp_all

end

/-- Each copy instruction with its opcode and the words of its block. -/
def copyForms (sd sa : SReg) : List (Instr × Nat × Nat) :=
  [(.cpy sd sa, 0xA0, 8), (.cpy2 sd sa, 0xA1, 11), (.gath sd sa, 0xA2, 12), (.scat sd sa, 0xA3, 12)]

theorem copyForms_exec {sd sa : SReg} {r : Instr × Nat × Nat} (hr : r ∈ copyForms sd sa) (s : State) :
    r.2.1 ∈ copyOpcodes ∧ exec r.1 s = copySlot r.1 r.2.1 r.2.2 sd sa s := by
  simp only [copyForms, List.mem_cons, List.not_mem_nil, or_false] at hr
  obtain rfl | rfl | rfl | rfl := hr
  · exact ⟨by simp [copyOpcodes], rfl⟩
  · exact ⟨by simp [copyOpcodes], rfl⟩
  · exact ⟨by simp [copyOpcodes], rfl⟩
  · exact ⟨by simp [copyOpcodes], rfl⟩

/-- A command that its barrier, port or phaser refuses flies with the refusal alone. -/
theorem copyCmd_refused {s : State} {w : Who} {d : Desc} {k : Nat} (hr : d.refusal s w = some k) (p : Plan)
    (rows : List Row) (flag serial : Nat) :
    (copyCmd s w d p rows flag serial).body = .copy d.opc d.ws [] serial (quantum w) none d.entry (some (word k)) := by
  simp only [copyCmd, hr, Option.map_some, Option.isSome_some, if_true]

theorem copyCmd_accepted {s : State} {w : Who} {d : Desc} (hr : d.refusal s w = none) (p : Plan) (rows : List Row)
    (flag serial : Nat) :
    (copyCmd s w d p rows flag serial).body = .copy d.opc d.ws rows serial (quantum w) none d.entry none := by
  simp only [copyCmd, hr, Option.map_none, Option.isSome_none, Bool.false_eq_true, if_false]

/-- Settles O24: the checks of a block in the order of `Desc.plan`, and what the issue of a checked block leaves. -/
theorem copyCommandsIssueIntoFlight : Obligations.CopyCommandsIssueIntoFlight := by
  unfold Obligations.CopyCommandsIssueIntoFlight
  intro s w c sd sa hw hc r hr d windows pends inFlight' b dir cm two vec listed tomb form good
  obtain ⟨hd, hx⟩ := copyForms_exec hr s
  have hflag : (w.sp.clause.map Clause.flag).getD 15 = c.flag := by rw [hc]; rfl
  have hgood (h : good) : d.formBad = none ∧ (d.vreg.bind fun v => hazardIn w.sp.pend 1 [v]) = none :=
    ⟨formBad_of_good hd h.1, hazard_none_of_good hd h.1 h.2.2⟩
  refine ⟨fun e he => ?_, fun hg hl lim hout => ?_, fun hg xs accs hi => ?_, fun hl => ?_,
    fun t hl ht => copy_traps hx (copyRes_error hl ht), fun p hl hp => ⟨fun hm hv => ?_, fun hv => ⟨fun k hk => ?_,
      fun hr => ⟨fun va hva => ?_, fun hnf => ⟨fun hs hv' => ?_, fun hs => ⟨fun hh => ?_, fun hh => ⟨fun hn hrt ht => ?_,
        fun hn hm hq => ?_, fun hn rows hrows => ?_⟩⟩⟩⟩⟩⟩⟩
  · have hbad := formBad_of_first hd he
    exact copy_traps hx (copyRes_error (listWaits_of_formBad hbad) (plan_formBad hbad))
  · obtain ⟨hform, hhaz⟩ := hgood hg
    exact copy_traps hx (copyRes_error hg.2.1 (plan_indices_error hform hhaz (indices_out hd hl hout)))
  · obtain ⟨hform, hhaz⟩ := hgood hg
    have hj : d.Judged s w xs accs := ⟨hform, hhaz, hi⟩
    intro raw past farS farT outOf outside names register room
    have htrap {t : Trap} (ht : d.plan s w = .error t) : trapsOnSplit s w c r.1 t :=
      copy_traps hx (copyRes_error hg.2.1 ht)
    have hfarS (e : RawRow) : d.farSrc e = true ↔ farS e := farSrc_iff e
    have hfarT (e : RawRow) : d.farDst e = true ↔ farT e := farDst_iff e
    have hoff (e : RawRow) : d.outside s w e ↔ outside e := outside_iff e
    have hquota : d.overQuota w = true ↔ register := overQuota_eq hd hg.1
    refine ⟨fun ⟨e, he, hf⟩ m hm => ?_, fun hnf => ?_⟩
    · have hplan : d.plan s w = .error (copyTrap 5 (if (d.rows xs).any d.farSrc then 1 else 3) (some m)) :=
        hj.plan_far (by simpa only [hfarS, hfarT] using hm) ⟨e, he, by rwa [hfarS, hfarT]⟩
      refine ⟨fun ⟨e, he, hs⟩ => htrap ?_, fun hns => htrap ?_⟩
      · rw [hplan, if_pos (List.any_eq_true.2 ⟨e, he, (hfarS e).2 hs⟩)]
        rfl
      · rw [hplan, if_neg fun h => ?_]
        · rfl
        · obtain ⟨e, he, hs⟩ := List.any_eq_true.1 h
          exact hns e he ((hfarS e).1 hs)
    · have hnear (e) (he : e ∈ d.rows xs) : d.farSrc e = false ∧ d.farDst e = false := by
        rw [← Bool.not_eq_true, ← Bool.not_eq_true, hfarS, hfarT]
        exact hnf e he
      have hin (h : ¬ register) : d.overQuota w = false := by rwa [← Bool.not_eq_true, hquota]
      have hfits (h : ¬ room) : d.room := fun ht => by
        have : ¬ (d.sd < 4 ∨ 1004 < d.sd) := fun hsd => h ⟨ht, hsd⟩
        omega
      refine ⟨fun h => htrap (hj.plan_register hnear (hquota.2 h)),
        fun h ⟨ht, hsd⟩ => htrap (hj.plan_noRoom hnear (hin h) ht hsd), fun h hr => ⟨fun ⟨e, he, ho⟩ => ?_, fun hall => ?_⟩⟩
      · obtain ⟨m, a, lim, hplan, hm⟩ := hj.plan_outside hnear (hin h) (hfits hr) ⟨e, he, (hoff e).2 ho⟩
        exact ⟨_, htrap hplan, rfl, rfl, m, rfl, by simpa only [hoff] using hm⟩
      · exact ⟨_, hj.plan_ok hnear (hin h) (hfits hr) fun e he ho => hall e he ((hoff e).1 ho), goodPlan_rows _⟩
  · exact copy_waits hx (if_pos hl)
  · exact copy_waits hx (copyRes_view hl hp hm hv)
  · obtain ⟨hcmd, hmem, heffects, hgroups, hteams⟩ := acceptCopy_issued s w d p p.rows
    exact ⟨_, ⟨_, hcmd, rfl, rfl, hflag, rfl, rfl, copyCmd_refused hk .., hmem, heffects, hgroups, hteams⟩,
      copy_runs hx (copyRes_refused hl hp hv hk)⟩
  · exact copy_traps hx (copyRes_foreign hl hp hv hr hva)
  · exact copy_waits hx (copyRes_waits hl hp hv hr hnf (copyWaits_source hs hv'))
  · exact copy_waits hx (copyRes_waits hl hp hv hr hnf (copyWaits_window hs hh))
  · obtain ⟨f, hres, -⟩ := copyRes_counts hl hp hv hr hnf (copyWaits_none hs hh)
    exact copy_stops hx (hres.trans (countWrites_turn f hn hrt ht)) (fun _ h => by cases h) fun h => by cases h
  · obtain ⟨f, hres, -⟩ := copyRes_counts hl hp hv hr hnf (copyWaits_none hs hh)
    exact copy_stops hx (hres.trans (countWrites_exhaust f hn hm hq)) (fun _ h => by cases h) fun h => by cases h
  · obtain ⟨hcmd, hmem, heffects, hgroups, hteams⟩ :=
      ((acceptCopy_issued (counted s w (globalBytes d p.rows)) w d p rows).of_counted).marked
        (copyMarks_marked _ w [(d, rows)])
    exact ⟨_, ⟨_, hcmd, rfl, rfl, hflag, rfl, rfl, copyCmd_accepted ((refusal_counted ..).trans hr) .., hmem, heffects,
      hgroups, hteams⟩, copy_runs hx (copyRes_flies hl hp hv hr hnf (copyWaits_none hs hh) hn hrows)⟩

end Sys2Proof.Machine

namespace Sys2Proof.Machine

-- Theorems one after another: in parallel, the stacks of the waiting threads go past the checker's memory limit.
set_option Elab.async false

/-! ### Copy schedules (R262-R265) -/

section
variable {s : State} {w : Who} {c : Clause} {i : Instr}

/-- A slot whose instruction only a split issues retires with what its body answers. -/
theorem body_runs {f : State → Who → Res} (hx : exec i s = slot i (fun s => withWho s (f s)) s) {o : Out}
    (hr : f s w = .ok o) : runsOnSplit s w c i o :=
  fun h hc => hx.trans (slot_ok h ((withWho_issues h _).trans hr) hc)

/-- A slot whose instruction only a split issues traps as its body does. -/
theorem body_traps {f : State → Who → Res} (hx : exec i s = slot i (fun s => withWho s (f s)) s) {t : Trap}
    (hr : f s w = .trap t) : trapsOnSplit s w c i t :=
  fun h => hx.trans (slot_trap h ((withWho_issues h _).trans hr))

/-- A slot whose instruction only a split issues waits as its body does. -/
theorem body_waits {f : State → Who → Res} (hx : exec i s = slot i (fun s => withWho s (f s)) s) {k : Nat}
    (hr : f s w = .stall k) : waitsOnSplit s w c i k :=
  fun h => hx.trans (slot_settle h ((withWho_issues h _).trans hr) (fun _ h => by cases h) fun h => by cases h)

end

theorem block_getD (s : State) (a : SReg) {i k : Nat} (h : i < k) : (block s a k).getD i 0 = uread s (a.toNat + i) := by
  simp [block, h]

/-- A command that completes at once flies under its clause's flag. -/
theorem doneCmd_flies {w : Who} {c : Clause} (hc : w.sp.clause = some c) (s : State) (sd : Nat) (body : CmdBody) :
    ∃ cmd, Table.find (doneCmd s w sd body).cmds s.fresh = some cmd ∧ cmd.group = w.g ∧ cmd.flag = c.flag ∧ cmd.sd = sd ∧
      cmd.finished = false ∧ cmd.body = body :=
  ⟨_, Table.find_put .., rfl, by rw [hc]; rfl, rfl, rfl, rfl⟩

/-- Each entry's stage is one of the schedule's. -/
theorem lt_foldl_max {α : Type} (f : α → Nat) {l : List α} {e : α} (he : e ∈ l) :
    f e < l.foldl (fun m e => max m (f e)) 0 + 1 := by
  have hge (l : List α) : ∀ m, m ≤ l.foldl (fun m e => max m (f e)) m ∧ ∀ e ∈ l, f e ≤ l.foldl (fun m e => max m (f e)) m := by
    induction l with
    | nil => simp
    | cons a l ih =>
      intro m
      obtain ⟨hm, hl⟩ := ih (max m (f a))
      simp only [List.foldl_cons, List.forall_mem_cons]
      exact ⟨by omega, by omega, hl⟩
  have := (hge l 0).2 e he
  omega

/-- The words of `CPSCH` pass the checks of R263. -/
structure ScheduleGood (s : State) (w : Who) (sa : SReg) : Prop where
  base : bits (uread s (sa.toNat + 2)) 31 24 = 0
  sel : bits (uread s (sa.toNat + 4)) 7 6 = 0
  selTop : bits (uread s (sa.toNat + 4)) 31 14 = 0
  rounds : 0 < (uread s (sa.toNat + 3)).toNat
  roundsLe : (uread s (sa.toNat + 3)).toNat ≤ 65536
  entries : bits (uread s (sa.toNat + 4)) 5 0 + (bits (uread s (sa.toNat + 4)) 13 8 + 1) ≤ bits (recWord w.task.words 30) 6 0
  local4 : (uread s sa.toNat).toNat % 4 = 0
  global4 : (uread s (sa.toNat + 1)).toNat % 4 = 0

section
variable {s : State} {w : Who} {c : Clause} {sd sa : SReg}

/-- A refused schedule instruction: its status, and the next serial. -/
def refusedOut (s : State) (w : Who) (sd : Nat) (v : Word) : Out :=
  { s := doneCmd (nextSerial s w.g) w sd (.done v), items := schedItem w true }

theorem inactive_iff {k : Option Sched} : (match k with | some c => c.active | none => false) = false ↔
    ∀ c, k = some c → c.active = false := by
  cases k <;> simp

/-- The selected entries of a schedule, as they lie in memory. -/
def schedEntries (s : State) (sa : SReg) (bs : List Byte) : List (Nat × List Word) :=
  (List.range (bits (uread s (sa.toNat + 4)) 13 8 + 1)).map fun i =>
    (bits (uread s (sa.toNat + 4)) 5 0 + i, bytesWords 16 (bs.drop (64 * i)))

/-- The schedule that `CPSCH` installs. -/
def newSched (s : State) (w : Who) (sa : SReg) (es : List (Nat × List Word)) : Sched :=
  { owner := w.g, lbase := uread s sa.toNat
    gbase := (uread s (sa.toNat + 1)).toNat + (uread s (sa.toNat + 2)).toNat * 2 ^ 32
    rounds := (uread s (sa.toNat + 3)).toNat, sel := es.map (·.1), entries := es.map (·.2), round := 0, stage := 0
    stages := es.foldl (fun m e => max m (bits (e.2.getD 13 0) 5 0)) 0 + 1, released := 0, active := true
    view := match w.team.sched with | some c => c.view | none => [0, 0, 0, 0] }

/-- The state in which the team holds a schedule. -/
def scheduled (s : State) (w : Who) (k : Sched) : State := updTeam s w.grp.team fun tm => { tm with sched := some k }

theorem scheduled_team (h : Table.find s.teams w.grp.team = some w.team) (k : Sched) :
    Table.find (scheduled s w k).teams w.grp.team = some { w.team with sched := some k } :=
  (updTeam_find _ h).trans (by rw [if_pos rfl])

/-- What `CPSCH` comes to once its words pass the checks. -/
theorem cpsch_judges (hg : ScheduleGood s w sa) : ∃ r : Res,
    (∀ o, r = .ok o → runsOnSplit s w c (.cpsch sd sa) o) ∧
    (∀ k, w.team.sched = some k → k.active = true → r = .ok (refusedOut s w sd.toNat (word 4))) ∧
    ((∀ k, w.team.sched = some k → k.active = false) → ∀ bs,
      vaRead s w.launch.ctx w.team.die false w.launch.old
        (((recWord w.task.words 28).toNat + bits (recWord w.task.words 29) 23 0 * 2 ^ 32 +
          64 * bits (uread s (sa.toNat + 4)) 5 0) % 2 ^ 56) (64 * (bits (uread s (sa.toNat + 4)) 13 8 + 1)) = .ok bs →
      (∀ e, (schedEntries s sa bs).find? (fun e => schedEntryBad e.2) = some e →
        r = .ok (refusedOut s w sd.toNat (word (6 + e.1 * 2 ^ 8)))) ∧
      ((schedEntries s sa bs).find? (fun e => schedEntryBad e.2) = none →
        (∀ n, stageBreak 65 none (schedEntries s sa bs) = some n →
          r = .ok (refusedOut s w sd.toNat (word (6 + n * 2 ^ 8)))) ∧
        (stageBreak 65 none (schedEntries s sa bs) = none →
          r = .ok
            { s := doneCmd (scheduled s w (newSched s w sa (schedEntries s sa bs))) w sd.toNat (.done 0)
              items := [⟨4, 35, true⟩] }))) := by
  obtain ⟨h2, h4, h4', h3, h3', hn, h0, h1⟩ := hg
  refine ⟨_, fun o ho => body_runs rfl ((if_neg ?_).trans ((if_neg ?_).trans ((if_neg ?_).trans ((if_neg ?_).trans
    ((if_neg ?_).trans ((if_neg ?_).trans ho)))))), ?_, ?_⟩
  · exact not_not.2 h2
  · rw [Bool.not_eq_true, Bool.or_eq_false_iff]
    exact ⟨decide_eq_false (not_not.2 h4), decide_eq_false (not_not.2 h4')⟩
  · rw [Bool.not_eq_true, Bool.or_eq_false_iff]
    exact ⟨decide_eq_false (Nat.ne_of_gt h3), decide_eq_false (Nat.not_lt.2 h3')⟩
  · exact Nat.not_lt.2 hn
  · exact not_not.2 h0
  · exact not_not.2 h1
  · intro k hk ha
    rw [if_pos (by rw [hk]; exact ha)]
    rfl
  · intro hk bs hbs
    have hrun : ¬ (match w.team.sched with | some c => c.active | none => false) = true := by
      rw [Bool.not_eq_true]
      exact inactive_iff.2 hk
    rw [if_neg (by exact hrun)]
    simp only [block_getD s sa (show 4 < 5 by decide), hbs]
    refine ⟨fun e he => ?_, fun hf => ⟨fun n hn => ?_, fun hn => ?_⟩⟩
    · rw [schedEntries] at he
      simp only [he]
      rfl
    · rw [schedEntries] at hf hn
      simp only [hf, hn]
      rfl
    · rw [schedEntries] at hf hn ⊢
      simp only [hf, hn]
      rfl

end

section
variable {s : State} {w : Who} {c : Clause} {sd sa : SReg}

/-- A refused release leaves what it makes of the schedule. -/
theorem cpstg_idle (h : ∀ k, w.team.sched = some k → k.active = false) :
    runsOnSplit s w c (.cpstg sd) (refusedOut s w sd.toNat (word 4)) := by
  refine body_runs rfl ?_
  cases hk : w.team.sched with
  | none =>
    simp only
    rfl
  | some k =>
    simp only [h k hk]
    rfl

/-- Only the owner releases. -/
theorem cpstg_foreign {k : Sched} (hk : w.team.sched = some k) (ha : k.active = true) (ho : k.owner ≠ w.g) :
    runsOnSplit s w c (.cpstg sd) (refusedOut s w sd.toNat (word 5)) := by
  refine body_runs rfl ?_
  simp only [hk, ha, Bool.not_true, Bool.false_eq_true, if_false, if_pos ho]
  rfl

/-- The commands of the next stage. -/
def Sched.next (k : Sched) (sd : Nat) : List Desc :=
  ((k.sel.zip k.entries).filter fun e => bits (e.2.getD 13 0) 5 0 = k.stage).map fun e => entryDesc k sd e.1 e.2

/-- The owner's release, by what judging the stage comes to. -/
theorem cpstg_judges {k : Sched} (hk : w.team.sched = some k) (ha : k.active = true) (ho : k.owner = w.g) :
    ∃ f : State → Who → Res, exec (.cpstg sd) s = slot (.cpstg sd) (fun s => withWho s (f s)) s ∧
      (∀ n, stageRead w (k.next sd.toNat) s [] = .bad n →
        f s w = .ok (refusedOut (scheduled s w (schedNext k)) w sd.toNat (word (6 + n * 2 ^ 8)))) ∧
      (∀ n, stageRead w (k.next sd.toNat) s [] = .stall n → f s w = .stall n) ∧
      (∀ l, stageRead w (k.next sd.toNat) s [] = .go l → f s w = releaseStage (scheduled s w (schedNext k)) w sd.toNat l) := by
  rw [Sched.next]
  refine ⟨_, rfl, fun n h => ?_, fun n h => ?_, fun l h => ?_⟩
  · simp only [hk, ha, ho, h, Bool.not_true, Bool.false_eq_true, if_false, ne_eq, not_true_eq_false]
    rfl
  · simp only [hk, ha, ho, h, Bool.not_true, Bool.false_eq_true, if_false, ne_eq, not_true_eq_false]
  · simp only [hk, ha, ho, h, Bool.not_true, Bool.false_eq_true, if_false, ne_eq, not_true_eq_false]
    rfl

/-! ### The release of a stage -/

/-- The state after the release of a judged stage. -/
def released (w : Who) (sd : Nat) (l : List (Desc × Plan)) (t : State) : State :=
  let r := startEntries w ((w.sp.clause.map Clause.flag).getD 15) w.grp.cserial l t []
  copyMarks (nextSerial (doneCmd r.2 w sd (.stage (r.1.map (·.1)) (word (l.length * 2 ^ 8)))) w.g) w
    ((r.1.map (·.2)).filter fun e => (e.1.refusal t w).isNone)

/-- A stage of which no command is refused, nor foreign to its rank. -/
theorem releaseStage_eq {sd : Nat} {l : List (Desc × Plan)}
    (h : ∀ e ∈ l, e.1.refusal s w = none ∧ copyForeign s w e.1 e.2.rows = none) : releaseStage s w sd l =
      if 8 ≤ outstandingStages s w.grp.team then .stall 6
      else countWrites s w (l.map fun e => globalBytes e.1 e.2.rows).sum fun t =>
        .ok { s := released w sd l t, accs := l.flatMap (fun e => e.2.accs), looks := l.flatMap (fun e => e.2.looks)
              items := schedItem w true } := by
  have hpart : (l.partition fun e => (e.1.refusal s w).isNone) = (l, []) := by
    rw [List.partition_eq_filter_filter, Prod.mk.injEq, List.filter_eq_self, List.filter_eq_nil_iff]
    exact ⟨fun e he => by simp [(h e he).1], fun e he => by simp [(h e he).1]⟩
  have hforeign : (l.findSome? fun e => copyForeign s w e.1 e.2.rows) = none :=
    List.findSome?_eq_none_iff.2 fun e he => (h e he).2
  have hsum : (l.foldl (fun n e => n + globalBytes e.1 e.2.rows) 0) = (l.map fun e => globalBytes e.1 e.2.rows).sum := by
    rw [List.sum_eq_foldl, List.foldl_map]
  unfold releaseStage
  simp only [hpart, hforeign, hsum, List.flatMap_nil, List.append_nil]
  rfl

/-- `t` is `s` but for `n` new commands in flight, whose program orders and barriers the teams may count. -/
structure StartedMany (s t : State) (n : Nat) : Prop where
  fresh : t.fresh = s.fresh + n
  groups : t.groups = s.groups
  mem : t.mem = s.mem
  teams : ∀ n tm, Table.find s.teams n = some tm → ∃ tm', Table.find t.teams n = some tm' ∧
    tm'.mem = tm.mem ∧ tm'.sched = tm.sched

/-- The entries of a stage start in order, one command for each. -/
theorem startEntries_started (w : Who) (flag serial : Nat) (l : List (Desc × Plan)) (s : State)
    (done : List (Nat × Desc × List Row)) : (startEntries w flag serial l s done).1.length = done.length + l.length ∧
      StartedMany s (startEntries w flag serial l s done).2 l.length := by
  induction l generalizing s done with
  | nil => exact ⟨rfl, rfl, rfl, rfl, fun n tm h => ⟨tm, h, rfl, rfl⟩⟩
  | cons e l ih =>
    obtain ⟨d, p⟩ := e
    obtain ⟨rows, hstep⟩ : ∃ rows, startEntries w flag serial ((d, p) :: l) s done =
        startEntries w flag serial l (startCopy s w d p rows flag serial).2
          (done ++ [((startCopy s w d p rows flag serial).1, d, rows)]) := ⟨_, rfl⟩
    rw [hstep]
    obtain ⟨-, hfresh, hgroups, hmem, -, hteams⟩ := startCopy_started s w d p rows flag serial
    obtain ⟨hlen, hfresh', hgroups', hmem', hteams'⟩ :=
      ih (startCopy s w d p rows flag serial).2 (done ++ [((startCopy s w d p rows flag serial).1, d, rows)])
    refine ⟨by simp only [hlen, List.length_append, List.length_cons, List.length_nil]; omega,
      by rw [hfresh', hfresh, List.length_cons]; omega, hgroups'.trans hgroups, hmem'.trans hmem, fun n tm h => ?_⟩
    obtain ⟨tm₁, h₁, hm₁, hs₁⟩ := hteams n tm h
    obtain ⟨tm₂, h₂, hm₂, hs₂⟩ := hteams' n tm₁ h₁
    exact ⟨tm₂, h₂, hm₂.trans hm₁, hs₂.trans hs₁⟩

/-- What the release of a stage leaves: one command that stands for the stage behind those of its entries, and the group's
next serial. -/
theorem released_leaves (hc : w.sp.clause = some c) (sd : Nat) (l : List (Desc × Plan)) (t : State) : ∃ ids : List Nat,
    ids.length = l.length ∧
    (∃ cmd, Table.find (released w sd l t).cmds (t.fresh + l.length) = some cmd ∧ cmd.group = w.g ∧ cmd.flag = c.flag ∧
      cmd.sd = sd ∧ cmd.finished = false ∧ cmd.body = .stage ids (word (l.length * 2 ^ 8))) ∧
    (released w sd l t).groups = (nextSerial t w.g).groups ∧ (released w sd l t).mem = t.mem ∧
    ∀ n tm, Table.find t.teams n = some tm → ∃ tm', Table.find (released w sd l t).teams n = some tm' ∧
      tm'.mem = tm.mem ∧ tm'.sched = tm.sched := by
  obtain ⟨hlen, hfresh, hgroups, hmem, hteams⟩ :=
    startEntries_started w ((w.sp.clause.map Clause.flag).getD 15) w.grp.cserial l t []
  unfold released
  dsimp only
  generalize startEntries w ((w.sp.clause.map Clause.flag).getD 15) w.grp.cserial l t [] = r at *
  obtain ⟨hcmds', hgroups', hteams', hmem', -, -⟩ := copyMarks_marked
    (nextSerial (doneCmd r.2 w sd (.stage (r.1.map (·.1)) (word (l.length * 2 ^ 8)))) w.g) w
    ((r.1.map (·.2)).filter fun e => (e.1.refusal t w).isNone)
  refine ⟨r.1.map (·.1), by simpa using hlen, ?_, ?_, hmem'.trans hmem, fun n tm h => ?_⟩
  · rw [hcmds', ← hfresh]
    exact doneCmd_flies hc ..
  · rw [hgroups', nextSerial, nextSerial, updGroup_groups, updGroup_groups, ← hgroups]
    rfl
  · rw [hteams']
    exact hteams n tm h

end

section
variable {s : State} {w : Who} {d : Desc} {ds : List Desc} {p : Plan} {rows : List Row} {l : List (Desc × Plan)}

/-- A command of a stage that its judge lets pass. -/
theorem stageRead_passes (hl : d.listWaits s w = false) (hp : d.plan s w = .ok p) (hv : 2 ≤ d.cmode → readReady s w = true)
    (hr : d.refusal s w = none) (hw : copyWaits s w d p = none) (hrows : readRows s w d p.rows = .ok rows) :
    stageRead w (d :: ds) s l = stageRead w ds
      (if rows.all fun r => r.data.isSome && r.late.isEmpty then landedCopy s w d p rows else s) (l ++ [(d, p)]) := by
  simp only [stageRead, hl, hp, viewWaits_ready hv, hr, hw, hrows, Bool.false_eq_true, if_false, Option.isSome_none]

theorem stageRead_error {t : Trap} (hl : d.listWaits s w = false) (hp : d.plan s w = .error t) :
    stageRead w (d :: ds) s l = .bad (d.entry.getD 0) := by
  simp only [stageRead, hl, hp, Bool.false_eq_true, if_false]

end

section
variable {s : State} {w : Who} {c : Clause} {sd sa : SReg}

theorem cpcur_reserved (h : uread s sa.toNat ≠ 0) : trapsOnSplit s w c (.cpcur sd sa) { cls := 7, cause := 1 } := by
  refine body_traps rfl ?_
  exact if_pos h

theorem cpcur_none (h : uread s sa.toNat = 0) (hk : w.team.sched = none) :
    runsOnSplit s w c (.cpcur sd sa) { s := uwrites s sd.toNat [0, 0, 0, 0] } := by
  refine body_runs rfl ?_
  simp only [h, hk, schedItem]
  rfl

theorem cpcur_some (h : uread s sa.toNat = 0) {k : Sched} (hk : w.team.sched = some k) :
    runsOnSplit s w c (.cpcur sd sa)
      { s := uwrites s sd.toNat (if k.owner = w.g then [word k.released, word k.round, word k.stage,
          if k.active then 1 else 0] else k.view)
        items := if k.owner = w.g then [⟨4, 35, false⟩] else [] } := by
  refine body_runs rfl ?_
  simp only [h, hk, schedItem, Option.map_some, Option.some.injEq]
  rfl

end

/-- Settles O25: by what `CPSCH` and `CPSTG` come to once their words pass, and for a stage by induction on its entries. -/
theorem copySchedulesInstallAndAdvance : Obligations.CopySchedulesInstallAndAdvance := by
  unfold Obligations.CopySchedulesInstallAndAdvance
  intro s w c sd sa hw hc ht g first count table flight owned refuses good moved stage
  have hrefuses {t : State} (i : Instr) (v : Word) (m : Option Sched) (hfresh : t.fresh = s.fresh)
      (hgroups : t.groups = s.groups) (hmem : t.mem = s.mem) (heffects : t.effects = s.effects)
      (hteam : Table.find t.teams w.grp.team =
        some (match m with | none => w.team | some k => { w.team with sched := some k }))
      (hrun : runsOnSplit s w c i (refusedOut t w sd.toNat v)) : refuses i v m := by
    refine ⟨doneCmd (nextSerial t w.g) w sd.toNat (.done v), ?_, ?_, hmem, heffects, hteam, hrun⟩
    · rw [← hfresh]
      exact doneCmd_flies hc (nextSerial t w.g) ..
    · show (nextSerial t w.g).groups = _
      rw [nextSerial, nextSerial, updGroup_groups, updGroup_groups, hgroups]
  have hgood (h : good) : ScheduleGood s w sa := by
    obtain ⟨h2, h4, h4', h3, h3', hn, h0, h1⟩ := h
    exact ⟨h2, h4, h4', h3, h3', hn, h0, h1⟩
  refine ⟨fun hg hk bs hbs => ?_, fun hg k hk ha => ?_, fun hk => hrefuses _ _ none rfl rfl rfl rfl ht (cpstg_idle hk),
    fun k hk ha ho => hrefuses _ _ none rfl rfl rfl rfl ht (cpstg_foreign hk ha ho), fun k hk ha ho => ?_,
    fun d ds p rows l hl hp hv hr hw hrows => ⟨stageRead_passes hl hp hv hr hw hrows, fun hknown => ?_⟩,
    fun d ds t hl hp => stageRead_error hl hp, cpcur_reserved, fun h => ⟨cpcur_none h, fun k => cpcur_some h⟩⟩
  · obtain ⟨r, hruns, -, hread⟩ := cpsch_judges (c := c) (sd := sd) (hgood hg)
    obtain ⟨hbad, hpass⟩ := hread hk bs hbs
    intro es
    have hfirst (hes : ∀ e ∈ es, schedEntryBad e.2 = false) :
        (schedEntries s sa bs).find? (fun e => schedEntryBad e.2) = none :=
      List.find?_eq_none.2 fun e he => by rw [hes e he]; exact Bool.false_ne_true
    refine ⟨fun e he => hrefuses _ _ none rfl rfl rfl rfl ht (hruns _ (hbad e he)),
      fun hes n hn => hrefuses _ _ none rfl rfl rfl rfl ht (hruns _ ((hpass (hfirst hes)).1 n hn)), fun hes hn => ?_⟩
    exact ⟨_, newSched s w sa es, doneCmd_flies hc (scheduled s w _) sd.toNat (.done 0), rfl, rfl, rfl,
      scheduled_team ht _, rfl, rfl, rfl, rfl, rfl, rfl, rfl, rfl, fun e he => lt_foldl_max (fun e => bits (e.2.getD 13 0) 5 0) he, rfl,
      hruns _ ((hpass (hfirst hes)).2 hn)⟩
  · obtain ⟨r, hruns, hactive, -⟩ := cpsch_judges (c := c) (sd := sd) (hgood hg)
    exact hrefuses _ _ none rfl rfl rfl rfl ht (hruns _ (hactive k hk ha))
  · have hmoved : Table.find (scheduled s w (schedNext k)).teams w.grp.team =
        some { w.team with sched := some (moved k) } := scheduled_team ht _
    obtain ⟨f, hx, hbad, hstall, hgo⟩ := cpstg_judges (sd := sd) hk ha ho
    refine ⟨fun n hn => hrefuses (t := scheduled s w (schedNext k)) _ _ (some (moved k)) rfl rfl rfl rfl hmoved (body_runs hx (hbad n hn)),
      fun n hn => body_waits hx (hstall n hn), fun l hl hpass hrooted => ?_⟩
    have hres := (hgo l hl).trans (releaseStage_eq (s := scheduled s w (schedNext k)) fun e he =>
      ⟨((updTeam_portBlind _ _).refusal s e.1 w).trans (hpass e he).1, (hpass e he).2⟩)
    refine ⟨fun h8 => body_waits hx (hres.trans (if_pos h8)), fun h8 hn => ?_⟩
    obtain ⟨ks, hks⟩ := counted_eq (scheduled s w (schedNext k)) w (l.map fun e => globalBytes e.1 e.2.rows).sum
    obtain ⟨ids, hids, hcmd, hgroups, hmem, hteams⟩ := released_leaves hc sd.toNat l
      (counted (scheduled s w (schedNext k)) w (l.map fun e => globalBytes e.1 e.2.rows).sum)
    have hrun := body_runs (c := c) hx (hres.trans ((if_neg (Nat.not_le.2 h8)).trans
      (countWrites_passes _ (hn.imp_right fun h => ⟨Or.inl hrooted, h⟩))))
    rw [hks] at hcmd hgroups hmem hteams hrun
    obtain ⟨tm, htm, htmem, htsched⟩ := hteams _ _ hmoved
    exact ⟨_, ids, tm, hids, hcmd, hgroups, hmem, htm, htsched, htmem, hrun⟩
  · rw [stageRead_passes hl hp hv hr hw hrows, if_pos]
    exact List.all_eq_true.2 fun r hr => by simp [hknown r hr]

end Sys2Proof.Machine

namespace Sys2Proof.Machine

-- Theorems one after another: in parallel, the stacks of the waiting threads go past the checker's memory limit.
set_option Elab.async false

/-! ### What the end of a command leaves -/

/-- In `t`, the groups of `s` have their flags, the teams their bytes, and the effects are the same. -/
structure Calm (s t : State) : Prop where
  effects : t.effects = s.effects
  groups : ∀ n g, Table.find s.groups n = some g → ∃ g', Table.find t.groups n = some g' ∧ g'.flags = g.flags
  teams : ∀ n tm, Table.find s.teams n = some tm → ∃ tm', Table.find t.teams n = some tm' ∧ tm'.mem = tm.mem

theorem Calm.of_eq {s t : State} (he : t.effects = s.effects) (hg : t.groups = s.groups) (ht : t.teams = s.teams) :
    Calm s t := by
  refine ⟨he, fun n g h => ⟨g, by rw [hg, h], rfl⟩, fun n tm h => ⟨tm, by rw [ht, h], rfl⟩⟩

theorem Calm.refl (s : State) : Calm s s := Calm.of_eq rfl rfl rfl

theorem Calm.trans {s t u : State} (a : Calm s t) (b : Calm t u) : Calm s u := by
  refine ⟨b.effects.trans a.effects, fun n g h => ?_, fun n tm h => ?_⟩
  · obtain ⟨g₁, h₁, e₁⟩ := a.groups n g h
    obtain ⟨g₂, h₂, e₂⟩ := b.groups n g₁ h₁
    exact ⟨g₂, h₂, e₂.trans e₁⟩
  · obtain ⟨tm₁, h₁, e₁⟩ := a.teams n tm h
    obtain ⟨tm₂, h₂, e₂⟩ := b.teams n tm₁ h₁
    exact ⟨tm₂, h₂, e₂.trans e₁⟩

theorem Calm.foldl {α : Type} {f : State → α → State} (h : ∀ s a, Calm s (f s a)) (l : List α) (s : State) :
    Calm s (l.foldl f s) := by
  induction l generalizing s with
  | nil => exact Calm.refl s
  | cons a l ih => exact (h s a).trans (ih _)

theorem Calm.ite {s t u : State} (p : Prop) [Decidable p] (ht : Calm s t) (hu : Calm s u) : Calm s (if p then t else u) := by
  split
  · exact ht
  · exact hu

theorem updTeam_calm (s : State) (n : Nat) {f : Team → Team} (hf : ∀ tm, (f tm).mem = tm.mem) : Calm s (updTeam s n f) := by
  refine ⟨rfl, fun _ g h => ⟨g, h, rfl⟩, fun _ tm h => ⟨_, updTeam_find f h, ?_⟩⟩
  split
  · exact hf tm
  · rfl

theorem updGroup_calm (s : State) (n : Nat) {f : Group → Group} (hf : ∀ g, (f g).flags = g.flags) :
    Calm s (updGroup s n f) := by
  refine ⟨rfl, fun m g h => ?_, fun n tm h => ⟨tm, h, rfl⟩⟩
  by_cases hm : m = n
  · subst hm
    exact ⟨f g, by simp [h], hf g⟩
  · exact ⟨g, by simp [Table.find_upd_ne _ _ hm, h], rfl⟩

theorem updSplit_calm (s : State) (g x : Nat) (f : Split → Split) : Calm s (updSplit s g x f) :=
  updGroup_calm s g fun _ => rfl

theorem updCore_calm (s : State) (d : Nat) (f : Core → Core) : Calm s (updCore s d f) := Calm.of_eq rfl rfl rfl

theorem updBar_calm (s : State) (t b : Nat) (f : Bar → Bar) : Calm s (updBar s t b f) := updTeam_calm s t fun _ => rfl

theorem Calm.fresh {s t : State} (h : Calm s t) (n : Nat) : Calm s { t with fresh := n } := h.trans (Calm.of_eq rfl rfl rfl)

/-- A table whose units are all changed, each with a view to its number. -/
theorem Table.find_map_entry {α : Type} {f : Nat × α → Nat × α} (hf : ∀ e, (f e).1 = e.1) {m : Table α} {k : Nat} {v : α}
    (h : Table.find m k = some v) : Table.find (m.map f) k = some (f (k, v)).2 := by
  induction m with
  | nil => contradiction
  | cons e m ih =>
    by_cases hk : e.1 = k
    · subst hk
      obtain rfl : e.2 = v := by simpa [Table.find] using h
      simp [Table.find, hf]
    · have hm : Table.find m k = some v := by simpa [Table.find, hk] using h
      simpa [Table.find, hf, hk] using ih hm

/-- Every group is changed into one with its flags. -/
theorem mapGroups_calm {s : State} {f : Nat × Group → Nat × Group} (hf : ∀ e, (f e).1 = e.1 ∧ (f e).2.flags = e.2.flags) :
    Calm s { s with groups := s.groups.map f } :=
  ⟨rfl, fun _ _ h => ⟨_, Table.find_map_entry (fun e => (hf e).1) h, (hf _).2⟩, fun _ tm h => ⟨tm, h, rfl⟩⟩

theorem releaseWhere_calm (s : State) (sel : Group → Bool) (p : Mode → Bool) (t : Nat) : Calm s (releaseWhere s sel p t) := by
  refine ⟨rfl, fun n g h => ?_, fun n tm h => ⟨tm, h, rfl⟩⟩
  obtain ⟨-, -, hflags, -⟩ := wokenGroup_like sel p t g
  exact ⟨_, by rw [releaseWhere_groups, Table.find_map, h]; rfl, hflags⟩

theorem wakeStalled_calm (s : State) : Calm s (wakeStalled s) := releaseWhere_calm ..

/-! A trap of the completion of b0, with its trace record -/

theorem storeCore_calm (s : State) (key pa : Nat) (bs : List Byte) : Calm s (storeCore s key pa bs) := by
  simp only [storeCore]
  generalize hs1 : physWrite _ key pa bs = s1
  obtain ⟨m, en, h⟩ := physWrite_eq _ key pa bs
  obtain ⟨ac, hac⟩ := mergeWords_eq s1 pa bs.length
  rw [hac, ← hs1, h]
  exact Calm.of_eq rfl rfl rfl

theorem profRecord_calm (s : State) (die ctx : Nat) (ws : List Word) : Calm s (profRecord s die ctx ws) := by
  simp only [profRecord]
  split
  · exact Calm.refl s
  · split
    · exact updCore_calm ..
    · split
      · exact Calm.refl s
      · exact (storeCore_calm ..).trans (updCore_calm ..)

theorem trace_calm (s : State) (w : Who) (en kind pc : Nat) (arg : Word) : Calm s (trace s w en kind pc arg) := by
  unfold trace
  exact Calm.ite _ (profRecord_calm ..) (Calm.refl s)

theorem enterHandler_calm (s : State) (g x : Nat) (ws : List Word) (base : Nat) : Calm s (enterHandler s g x ws base) := by
  unfold enterHandler
  split
  · exact Calm.refl s
  · exact (updGroup_calm _ _ (by intro; rfl)).trans (updSplit_calm ..)

theorem serveTraps_calm (s : State) (t : Nat) : Calm s (serveTraps s t) := by
  unfold serveTraps
  split
  · exact Calm.refl s
  · split
    · exact Calm.refl s
    · dsimp only
      have hmark {f : Team → Team} {u : State} (hu : Calm (updTeam s t f) u) (hf : ∀ tm, (f tm).mem = tm.mem) : Calm s u :=
        (updTeam_calm s t hf).trans hu
      split
      · exact hmark (updCore_calm ..) fun _ => rfl
      · split
        · exact hmark (updCore_calm ..) fun _ => rfl
        · split
          · exact hmark (enterHandler_calm ..) fun _ => rfl
          · exact hmark (updCore_calm ..) fun _ => rfl

theorem haltTeam_calm (s : State) (t : Nat) : Calm s (haltTeam s t) := by
  refine (updTeam_calm s t (f := fun tm => { tm with halted := true }) fun _ => rfl).trans (mapGroups_calm fun e => ?_)
  obtain ⟨g, grp⟩ := e
  dsimp only
  split <;> exact ⟨rfl, rfl⟩

theorem takeTrap_calm (s : State) (g x : Nat) (t : Trap) : Calm s (takeTrap s g x t) := by
  unfold takeTrap
  dsimp only
  split
  · exact Calm.refl s
  · refine Calm.trans (Calm.trans (Calm.trans (Calm.fresh (Calm.trans (Calm.trans (trace_calm ..) (updGroup_calm _ _ ?_))
      (updSplit_calm ..)) _) (updTeam_calm _ _ ?_)) (haltTeam_calm ..)) (serveTraps_calm ..)
    · exact fun _ => rfl
    · exact fun _ => rfl

theorem raise_calm (s : State) (g x : Nat) (t : Trap) : Calm s (raise s g x t) := by
  unfold raise
  split
  · exact Calm.refl s
  · exact Calm.ite _ (updSplit_calm ..) (takeTrap_calm ..)

/-! The completion of a barrier's phases -/

theorem b0Completed_calm (s : State) (t p : Nat) : Calm s (b0Completed s t p) := by
  refine Calm.trans ?_ (Calm.foldl (fun s b => ?_) _ _)
  · split
    · refine Calm.trans (updTeam_calm _ _ ?_) (mapGroups_calm fun e => ?_)
      · exact fun _ => rfl
      · obtain ⟨g, grp⟩ := e
        dsimp only
        split <;> exact ⟨rfl, rfl⟩
    · exact updTeam_calm _ _ fun _ => rfl
  · split
    · exact Calm.refl s
    · next tm _ =>
      have hu : Calm s (if (Table.find tm.bars b).isSome then
          updBar s t b fun k => { k with touched := false, next := none } else s) :=
        Calm.ite _ (updBar_calm ..) (Calm.refl s)
      dsimp only
      split
      · exact hu
      · refine Calm.ite _ ?_ (hu.trans (updBar_calm ..))
        split
        · exact hu.trans (raise_calm ..)
        · exact hu

theorem barSettle_calm (fuel : Nat) (s : State) (t b : Nat) : Calm s (barSettle fuel s t b) := by
  induction fuel generalizing s with
  | zero => exact Calm.refl s
  | succ fuel ih =>
    unfold barSettle
    split
    · exact Calm.refl s
    · refine Calm.ite _ (Calm.refl s) (Calm.trans (Calm.trans (Calm.trans ?_ (releaseWhere_calm ..)) (wakeStalled_calm _)) (ih _))
      exact Calm.ite _ ((updBar_calm ..).trans (b0Completed_calm ..)) (updBar_calm ..)

theorem barEndCmd_calm (s : State) (t id : Nat) : Calm s (barEndCmd s t id) := by
  unfold barEndCmd
  split
  · exact Calm.refl s
  · split
    · exact Calm.refl s
    · exact (updBar_calm ..).trans (barSettle_calm ..)

/-! The delivery of a command's results -/

theorem groupWrite_calm (s : State) (g x n : Nat) (v : Word) : Calm s (groupWrite s g x n v) := by
  unfold groupWrite
  refine Calm.ite _ (Calm.refl s) (Calm.ite _ (updSplit_calm ..) (Calm.ite _ (updGroup_calm _ _ ?_)
    (Calm.ite _ (Calm.refl s) (updSplit_calm ..))))
  exact fun _ => rfl

theorem vecWrites_flags (l : List Nat) (p : Nat → Nat → Bool) (f : Nat → Nat → Word) (grp : Group) :
    (l.foldl (fun grp v => vecWrite grp v (p v) (f v)) grp).flags = grp.flags := by
  induction l generalizing grp with
  | nil => rfl
  | cons v l ih => exact (ih _).trans rfl

theorem deliver_calm (s : State) (c : Cmd) (outs : List (Nat × Nat × Nat × Word)) : Calm s (deliver s c outs) := by
  unfold deliver
  extract_lets to' held s1 s2 vs s3 fs
  have h1 : Calm s s1 := Calm.ite _ (Calm.refl s) (updGroup_calm _ _ fun _ => rfl)
  have h2 : Calm s1 s2 := Calm.foldl (fun s o => Calm.foldl (fun s e => groupWrite_calm ..) _ _) _ _
  have h3 : Calm s2 s3 := Calm.ite _ (Calm.refl _) (updGroup_calm _ _ fun _ => vecWrites_flags ..)
  have h4 : Calm s s3 := (h1.trans h2).trans h3
  exact Calm.ite _ h4 (h4.trans (Calm.foldl (fun s e => updSplit_calm ..) _ _))

/-- A command that ends lowers its flag by one. -/
theorem finishCmd_flag {s : State} {id : Nat} {k : Cmd} {outs : List (Nat × Nat × Nat × Word)} {grp : Group}
    (hf : k.finished = false) (hg : Table.find (deliver s k outs).groups k.group = some grp) :
    ∃ grp', Table.find (finishCmd s id k outs).groups k.group = some grp' ∧
      Sparse.get 0 grp'.flags k.flag = Sparse.get 0 grp.flags k.flag - 1 := by
  obtain ⟨grp', h, -, -, hflags, -⟩ := wakeStalled_like
    (s := updGroup (deliver s k outs) k.group fun g =>
      { g with flags := Sparse.set 0 g.flags k.flag (Sparse.get 0 g.flags k.flag - 1) })
    (g := k.group) (by rw [updGroup_groups, Table.find_upd, hg]; rfl)
  refine ⟨grp', ?_, by rw [hflags]; simp⟩
  rw [finishCmd, if_neg (by simp [hf])]
  exact h

/-- What a copy leaves that ends: its flag is lowered, and effects and the teams' bytes are as they were. -/
theorem finishCopy_ends {v : State} {id : Nat} {c : Cmd} {grp : Group} {regs : List Word} (hf : c.finished = false)
    (hg : Table.find v.groups c.group = some grp) :
    (∃ grp', Table.find (finishCopy v id c false regs).groups c.group = some grp' ∧
      Sparse.get 0 grp'.flags c.flag = Sparse.get 0 grp.flags c.flag - 1) ∧
      (finishCopy v id c false regs).effects = v.effects ∧
      ∀ n tm, Table.find v.teams n = some tm →
        ∃ tm', Table.find (finishCopy v id c false regs).teams n = some tm' ∧ tm'.mem = tm.mem := by
  have he : finishCopy v id c false regs = barEndCmd (finishCmd v id c (uniformOuts c.sd regs)) c.team id := rfl
  rw [he]
  have hd := deliver_calm v c (uniformOuts c.sd regs)
  obtain ⟨grp₁, h₁, e₁⟩ := hd.groups _ _ hg
  obtain ⟨grp₂, h₂, e₂⟩ := finishCmd_flag (id := id) hf h₁
  have hb := barEndCmd_calm (finishCmd v id c (uniformOuts c.sd regs)) c.team id
  obtain ⟨grp₃, h₃, e₃⟩ := hb.groups _ _ h₂
  refine ⟨⟨grp₃, h₃, by rw [e₃, e₂, e₁]⟩, hb.effects.trans ?_, fun n tm h => ?_⟩
  · rw [finishCmd, if_neg (by simp [hf])]
    simp only [pruneCmds, updCmd, lowerFlag, wakeStalled, releaseWhere, updGroup_effects]
    exact hd.effects
  · obtain ⟨tm₁, h₁, e₁⟩ := hd.teams n tm h
    obtain ⟨tm₂, h₂, e₂⟩ := hb.teams n tm₁ (by rw [finishCmd_teams _ _ _ _ hf, h₁])
    exact ⟨tm₂, h₂, e₂.trans e₁⟩

/-! ### The rows that a command lands -/

/-- In `t`, the bytes of a command have been landed: groups, tasks, launches and control cores are those of `s`, commands
are so but for their views, and teams keep their places. -/
structure Landed (s t : State) : Prop where
  groups : t.groups = s.groups
  tasks : t.tasks = s.tasks
  launches : t.launches = s.launches
  cores : t.cores = s.cores
  cmds : ∀ n k, Table.find s.cmds n = some k → ∃ o, Table.find t.cmds n = some { k with ovl := o }
  teams : ∀ n tm, Table.find s.teams n = some tm → ∃ tm', Table.find t.teams n = some tm' ∧
    tm'.die = tm.die ∧ tm'.tidx = tm.tidx

theorem Landed.of_eq {s t : State} (hg : t.groups = s.groups) (hk : t.tasks = s.tasks) (hl : t.launches = s.launches)
    (hc : t.cores = s.cores) (hm : t.cmds = s.cmds) (ht : t.teams = s.teams) : Landed s t :=
  ⟨hg, hk, hl, hc, fun _ k h => ⟨k.ovl, by rw [hm, h]⟩, fun _ tm h => ⟨tm, by rw [ht, h], rfl, rfl⟩⟩

theorem Landed.refl (s : State) : Landed s s := Landed.of_eq rfl rfl rfl rfl rfl rfl

theorem Landed.trans {s t u : State} (a : Landed s t) (b : Landed t u) : Landed s u := by
  refine ⟨b.groups.trans a.groups, b.tasks.trans a.tasks, b.launches.trans a.launches, b.cores.trans a.cores,
    fun n k h => ?_, fun n tm h => ?_⟩
  · obtain ⟨o, h₁⟩ := a.cmds n k h
    obtain ⟨o', h₂⟩ := b.cmds n _ h₁
    exact ⟨o', h₂⟩
  · obtain ⟨tm₁, h₁, d₁, i₁⟩ := a.teams n tm h
    obtain ⟨tm₂, h₂, d₂, i₂⟩ := b.teams n tm₁ h₁
    exact ⟨tm₂, h₂, d₂.trans d₁, i₂.trans i₁⟩

theorem Landed.foldl {α : Type} {f : State → α → State} (h : ∀ s a, Landed s (f s a)) (l : List α) (s : State) :
    Landed s (l.foldl f s) := by
  induction l generalizing s with
  | nil => exact Landed.refl s
  | cons a l ih => exact (h s a).trans (ih _)

theorem Landed.ite {s t u : State} (p : Prop) [Decidable p] (ht : Landed s t) (hu : Landed s u) :
    Landed s (if p then t else u) := by
  split
  · exact ht
  · exact hu

theorem mergeLate_landed (s : State) (ctx : Nat) (c : Cmd) (va n : Nat) : Landed s (mergeLate s ctx c va n) := by
  unfold mergeLate
  split
  · exact Landed.refl s
  · refine Landed.foldl (fun s p => ?_) _ _
    split
    · exact Landed.of_eq rfl rfl rfl rfl rfl rfl
    · exact Landed.refl s

theorem cmdEffect_landed (s : State) (id : Nat) (c : Cmd) (l : Launch) (body : EffBody) : Landed s (cmdEffect s id c l body) := by
  unfold cmdEffect
  split
  · exact Landed.of_eq rfl rfl rfl rfl rfl rfl
  · exact Landed.refl s

theorem feedBehind_landed (s : State) (id va : Nat) (bs : List Byte) : Landed s (feedBehind s id va bs) := by
  refine ⟨rfl, rfl, rfl, rfl, fun n k h => ?_, fun _ tm h => ⟨tm, h, rfl, rfl⟩⟩
  have hfind := Table.find_map (fun c : Cmd => if c.behind.contains id then { c with ovl := putBytes c.ovl va bs } else c)
    s.cmds n
  rw [h] at hfind
  by_cases hb : k.behind.contains id
  · exact ⟨putBytes k.ovl va bs, hfind.trans (congrArg some (if_pos hb))⟩
  · exact ⟨k.ovl, hfind.trans (congrArg some (if_neg hb))⟩

theorem landOwn_landed (s : State) (n gidx off : Nat) (bs : List Byte) : Landed s (landOwn s n gidx off bs) := by
  refine ⟨rfl, rfl, rfl, rfl, fun _ k h => ⟨k.ovl, h⟩, fun _ tm h => ⟨_, updTeam_find _ h, ?_⟩⟩
  split <;> exact ⟨rfl, rfl⟩

theorem landLocal_landed (s : State) (id : Nat) (c : Cmd) (l : Launch) (a : Nat) (bs : List Byte) :
    Landed s (landLocal s id c l a bs) := by
  unfold landLocal
  dsimp only
  split
  · split
    · exact landOwn_landed ..
    · split
      · exact Landed.of_eq rfl rfl rfl rfl rfl rfl
      · exact Landed.refl s
  · exact Landed.refl s

theorem landRows_landed (s : State) (id : Nat) (c : Cmd) (l : Launch) (ws : List Word) (rows : List Row) (to' : Nat × Nat) :
    Landed s (landRows s id c l ws rows to') := by
  refine Landed.foldl (fun v r => Landed.ite _ (Landed.refl v) (Landed.ite _ (Landed.trans (Landed.trans ?_
    (cmdEffect_landed ..)) (feedBehind_landed ..)) (Landed.trans ?_ (landLocal_landed ..)))) _ _
  · exact Landed.ite _ (Landed.refl v) (mergeLate_landed ..)
  · exact Landed.ite _ (Landed.refl v) (mergeLate_landed ..)

/-! Rows whose bytes have been read at issue -/

/-- What landing a known row comes to. -/
def landKnown (s : State) (id : Nat) (c : Cmd) (l : Launch) (ws : List Word) (to' : Nat × Nat) (v : State) (r : Row) : State :=
  let (o, n) := rowSpan c.cursor to' r
  if n = 0 then v
  else
    let bs := ((r.data.getD []).drop o).take n
    if blockDir ws = 1 || blockDir ws = 2 then
      feedBehind (cmdEffect v id c l (.write (r.dst + o) (writePieces s l.ctx (cmdDie s c) (r.dst + o) bs))) id (r.dst + o) bs
    else landLocal v id c l (r.dst + o) bs

theorem landRows_known {s : State} {id : Nat} {c : Cmd} {l : Launch} {ws : List Word} {rows : List Row} {to' : Nat × Nat}
    (ht : bit (ws.getD 0 0) 9 = false) (hd : ∀ r ∈ rows, ∃ bs, r.data = some bs) :
    landRows s id c l ws rows to' = rows.foldl (landKnown s id c l ws to') s := by
  unfold landRows
  refine List.foldl_ext _ _ _ fun v r hr => ?_
  obtain ⟨bs, hbs⟩ := hd r hr
  simp only [landKnown, rowPart, rowVoid, ht, hbs, Bool.false_and, Bool.false_eq_true, if_false, Option.isSome_some,
    Bool.true_or, if_true, Option.getD_some]

/-- A command that has moved nothing moves all of a row. -/
theorem rowSpan_whole {r : Row} (h : r.pos < 2 ^ 32) : rowSpan (0, 0) (2 ^ 32, 0) r = (0, r.len) := by
  have h0 : (if r.pos = 0 then min 0 r.len else 0) = 0 := by split <;> simp
  simp only [rowSpan, if_pos h, h0, Nat.not_lt_zero, if_false, Nat.sub_zero]

/-- A command that is replayed moves the rest of its row. -/
theorem rowSpan_rest {r : Row} {k : Nat} (h : r.pos < 2 ^ 32) (hk : k ≤ r.len) :
    rowSpan (r.pos, k) (2 ^ 32, 0) r = (k, r.len - k) := by
  simp only [rowSpan, if_pos h, Nat.lt_irrefl, if_false, if_true, Nat.min_eq_left hk]

section
variable {s : State} {id : Nat} {c : Cmd} {l : Launch} {tm : Team} {task : Task}

/-- Bytes for a place of the own allocation are stored there. -/
theorem landLocal_own {a off : Nat} (htm : Table.find s.teams c.team = some tm) (hk : Table.find s.tasks c.task = some task)
    (ha : placeOf a = (tm.tidx, off)) (bs : List Byte) :
    landLocal s id c l a bs = landOwn s c.team (indexOf s c.group) off bs := by
  simp only [landLocal, ha, htm, hk, if_pos]

/-- Bytes for another team's window are posted. -/
theorem landLocal_window {a t' n off : Nat} (htm : Table.find s.teams c.team = some tm)
    (hk : Table.find s.tasks c.task = some task) (ha : placeOf a = (t', off)) (hne : t' ≠ tm.tidx)
    (hn : task.teams[t']? = some n) (bs : List Byte) : ∃ e : Effect, (landLocal s id c l a bs).effects = s.effects ++ [e] ∧
      e.body = .window n off bs ∧ e.key = c.key ∧ e.time = c.time ∧ e.cmd = id := by
  simp only [landLocal, ha, htm, hk, if_neg hne, hn]
  exact ⟨_, rfl, rfl, rfl, rfl, rfl⟩

/-- The team after bytes have been landed in its allocation. -/
theorem landOwn_team (htm : Table.find s.teams c.team = some tm) (gidx off : Nat) (bs : List Byte) :
    ∃ tm', Table.find (landOwn s c.team gidx off bs).teams c.team = some tm' ∧ tm'.tidx = tm.tidx ∧
      ∀ a, Sparse.get 0 tm'.mem a =
        if off ≤ a ∧ a < off + bs.length then bs.getD (a - off) 0 else Sparse.get 0 tm.mem a :=
  ⟨_, updTeam_find _ htm, by rw [if_pos rfl]; rfl, fun a => by
    rw [if_pos rfl]
    exact Sparse.getF_writeF_getD ..⟩

theorem cmdEffect_effects (hk : Table.find s.tasks c.task = some task) (body : EffBody) :
    ∃ e : Effect, (cmdEffect s id c l body).effects = s.effects ++ [e] ∧ e.body = body ∧ e.key = c.key ∧ e.time = c.time ∧
      e.cmd = id := by
  simp only [cmdEffect, hk]
  exact ⟨_, rfl, rfl, rfl, rfl, rfl⟩

end

/-- The byte that the rows of a command leave at offset `a` of the own allocation, where one of them reaches it: the last
one's. -/
def lastByte (rows : List Row) (a : Nat) : Option Byte :=
  (rows.filter fun r => decide ((placeOf r.dst).2 ≤ a) && decide (a < (placeOf r.dst).2 + r.len)).getLast?.bind fun r =>
    r.data.map fun bs => bs.getD (a - (placeOf r.dst).2) 0

theorem lastByte_concat (rows : List Row) (r : Row) (a : Nat) {bs : List Byte} (hb : r.data = some bs) :
    lastByte (rows ++ [r]) a = if (placeOf r.dst).2 ≤ a ∧ a < (placeOf r.dst).2 + r.len then
      some (bs.getD (a - (placeOf r.dst).2) 0) else lastByte rows a := by
  unfold lastByte
  rw [List.filter_append]
  split
  · next h => simp [h, hb]
  · next h =>
    have hr : (decide ((placeOf r.dst).2 ≤ a) && decide (a < (placeOf r.dst).2 + r.len)) = false := by
      rwa [← Bool.decide_and, decide_eq_false_iff_not]
    simp [hr]

/-- What rows for the own allocation leave: its bytes, where two rows meet the later one's. -/
theorem landKnown_own {s : State} {id : Nat} {c : Cmd} {l : Launch} {ws : List Word} {tm : Team} {task : Task}
    {rows : List Row} (hlocal : (blockDir ws = 1 || blockDir ws = 2) = false) (hcur : c.cursor = (0, 0))
    (htm : Table.find s.teams c.team = some tm) (hk : Table.find s.tasks c.task = some task)
    (hrows : ∀ r ∈ rows, (placeOf r.dst).1 = tm.tidx ∧ r.pos < 2 ^ 32 ∧ ∃ bs, r.data = some bs ∧ bs.length = r.len) :
    let t := rows.foldl (landKnown s id c l ws (2 ^ 32, 0)) s
    t.effects = s.effects ∧ t.tasks = s.tasks ∧ ∃ tm', Table.find t.teams c.team = some tm' ∧ tm'.tidx = tm.tidx ∧
      ∀ a, Sparse.get 0 tm'.mem a = (lastByte rows a).getD (Sparse.get 0 tm.mem a) := by
  induction rows using List.reverseRecOn with
  | nil => exact ⟨rfl, rfl, tm, htm, rfl, fun a => rfl⟩
  | append_singleton rows r ih =>
    obtain ⟨heff, htasks, tm₁, htm₁, hidx, hmem⟩ := ih fun r hr => hrows r (List.mem_append_left _ hr)
    obtain ⟨hplace, hpos, bs, hbs, hlen⟩ := hrows r (by simp)
    rw [List.foldl_concat]
    generalize rows.foldl (landKnown s id c l ws (2 ^ 32, 0)) s = v at *
    simp only [landKnown, hcur, rowSpan_whole hpos, hlocal, hbs, Bool.false_eq_true, if_false]
    split
    · next h0 =>
      refine ⟨heff, htasks, tm₁, htm₁, hidx, fun a => ?_⟩
      rw [hmem, lastByte_concat rows r a hbs, if_neg (by omega)]
    · have hfull : (((some bs).getD []).drop 0).take r.len = bs := by simp [← hlen]
      obtain ⟨tm₂, htm₂, hidx₂, hmem₂⟩ := landOwn_team htm₁ (indexOf v c.group) (placeOf r.dst).2 bs
      rw [landLocal_own (off := (placeOf r.dst).2) htm₁ (htasks ▸ hk) (by rw [Nat.add_zero, hidx, ← hplace])]
      rw [hfull]
      refine ⟨heff, htasks, tm₂, htm₂, hidx₂.trans hidx, fun a => ?_⟩
      rw [hmem₂, hmem, lastByte_concat rows r a hbs, hlen]
      split <;> rfl

/-- Places of one allocation lie one after another. -/
theorem placeOf_add {a t off k n : Nat} (h : placeOf a = (t, off)) (hoff : off + n ≤ 2 ^ 20) (hk : k < n) :
    placeOf (a + k) = (t, off + k) := by
  simp only [placeOf, Prod.mk.injEq] at h ⊢
  obtain ⟨h1, h2⟩ := h
  have hm : off + k < 1048576 := by omega
  constructor
  · have hq : (a + k) / 1048576 = a / 1048576 := by omega
    rw [show 16777216 = 1048576 * 16 from rfl, Nat.sub_mul_div] at h1 ⊢
    rw [hq, h1]
  · omega

section
variable {s : State} {id : Nat} {c : Cmd} {l : Launch} {ws : List Word} {tm : Team} {task : Task} {r : Row} {bs : List Byte}
  (htm : Table.find s.teams c.team = some tm) (hk : Table.find s.tasks c.task = some task) (hpos : r.pos < 2 ^ 32)
  (hbs : r.data = some bs) (hlen : bs.length = r.len)
include htm hk hpos hbs hlen

/-- What the rest of a replayed row leaves in the own allocation: nothing below its cursor. -/
theorem landKnown_rest {off k : Nat} (hlocal : (blockDir ws = 1 || blockDir ws = 2) = false) (hcur : c.cursor = (r.pos, k))
    (hkl : k ≤ r.len) (hplace : placeOf r.dst = (tm.tidx, off)) (hoff : off + r.len ≤ 2 ^ 20) :
    ∃ tm', Table.find (landKnown s id c l ws (2 ^ 32, 0) s r).teams c.team = some tm' ∧
      ∀ a, Sparse.get 0 tm'.mem a =
        if off + k ≤ a ∧ a < off + bs.length then bs.getD (a - off) 0 else Sparse.get 0 tm.mem a := by
  simp only [landKnown, hcur, rowSpan_rest hpos hkl, hlocal, hbs, Bool.false_eq_true, if_false]
  split
  · exact ⟨tm, htm, fun a => by rw [if_neg (by omega)]⟩
  · have hplace' := placeOf_add hplace hoff (by omega : k < r.len)
    have hrest : (((some bs).getD []).drop k).take (r.len - k) = bs.drop k := by simp [← hlen]
    rw [landLocal_own htm hk hplace', hrest]
    obtain ⟨tm', htm', -, hmem⟩ := landOwn_team htm (indexOf s c.group) (off + k) (bs.drop k)
    refine ⟨tm', htm', fun a => ?_⟩
    rw [hmem, List.length_drop]
    by_cases ha : off + k ≤ a ∧ a < off + bs.length
    · have hget : (bs.drop k).getD (a - (off + k)) 0 = bs.getD (a - off) 0 := by
        rw [List.getD_eq_getElem?_getD, List.getElem?_drop, List.getD_eq_getElem?_getD]
        congr 2
        omega
      rw [if_pos ha, if_pos (by omega), hget]
    · rw [if_neg ha, if_neg (by omega)]

/-- What a row leaves for another team's window: a posted write. -/
theorem landKnown_window {t' n off : Nat} (hlocal : (blockDir ws = 1 || blockDir ws = 2) = false) (hcur : c.cursor = (0, 0))
    (hpos' : 0 < r.len) (hplace : placeOf r.dst = (t', off)) (hne : t' ≠ tm.tidx) (hn : task.teams[t']? = some n) :
    ∃ e : Effect, (landKnown s id c l ws (2 ^ 32, 0) s r).effects = s.effects ++ [e] ∧ e.body = .window n off bs ∧ e.key = c.key ∧
      e.time = c.time ∧ e.cmd = id := by
  have hfull : (((some bs).getD []).drop 0).take r.len = bs := by simp [← hlen]
  simp only [landKnown, hcur, rowSpan_whole hpos, hlocal, hbs, Bool.false_eq_true, if_false, if_neg (Nat.ne_of_gt hpos'), hfull]
  exact landLocal_window htm hk hplace hne hn bs

omit htm in
/-- What a row leaves for global memory: a write. -/
theorem landKnown_global (hglobal : (blockDir ws = 1 || blockDir ws = 2) = true) (hcur : c.cursor = (0, 0))
    (hpos' : 0 < r.len) : ∃ e : Effect, (landKnown s id c l ws (2 ^ 32, 0) s r).effects = s.effects ++ [e] ∧
      e.body = .write r.dst (writePieces s l.ctx (cmdDie s c) r.dst bs) ∧ e.key = c.key ∧ e.time = c.time ∧ e.cmd = id := by
  have hfull : (((some bs).getD []).drop 0).take r.len = bs := by simp [← hlen]
  simp only [landKnown, hcur, rowSpan_whole hpos, hglobal, hbs, if_true, if_neg (Nat.ne_of_gt hpos'), hfull]
  exact cmdEffect_effects hk _

end

/-! ### The end of a copy -/

section
variable {s : State} {c : Cmd} {l : Launch} {grp : Group} {tm : Team} {task : Task} {opc : Nat} {ws : List Word}
  {rows : List Row} {serial q : Nat} {refused : Option Word}

/-- The end of a refused command. -/
theorem copyComplete_refused {code : Word} (hc : Table.find s.cmds s.arg.a = some c) (hf : c.finished = false)
    (hb : c.body = .copy opc ws rows serial q none none (some code)) : ∃ regs,
    exec .copyCommandComplete s = .next (finishCopy s s.arg.a c false regs) := by
  refine ⟨code :: (if bit (ws.getD 0 0) 9 then [0, 0, 0] else []), ?_⟩
  show execCopyCommandComplete s = _
  simp only [execCopyCommandComplete, hc, hf, hb]
  rfl

/-- The end of a command whose bytes are known and that tells neither a port nor a phaser: its rows are landed first. -/
theorem copyComplete_moves (hc : Table.find s.cmds s.arg.a = some c) (hf : c.finished = false) (hl : cmdLaunch s c = some l)
    (hb : c.body = .copy opc ws rows serial q none none none) (ht : bit (ws.getD 0 0) 9 = false)
    (hm : bits (ws.getD 0 0) 4 3 < 2) (hmoves : movesNow s c = true) (hff : firstFault s l.ctx c ws rows = none)
    (hd : ∀ r ∈ rows, ∃ bs, r.data = some bs) : ∃ regs, exec .copyCommandComplete s =
      .next (finishCopy (rows.foldl (landKnown s s.arg.a c l ws (2 ^ 32, 0)) s) s.arg.a c false regs) := by
  have hexec : execCopyCommandComplete s = .next (completeCopy s s.arg.a c l opc ws rows false) := by
    simp only [execCopyCommandComplete, hc, hf, hb, hl, hmoves, hff]
    rfl
  show ∃ regs, execCopyCommandComplete s = _
  rw [hexec, completeCopy, landRows_known ht hd]
  split
  · omega
  · omega
  · exact ⟨_, rfl⟩

/-- The record of a fault is the same where the bytes below it have been landed. -/
theorem Landed.faultWords {s t : State} (h : Landed s t) {entry : Option Nat} (htm : Table.find s.teams c.team = some tm)
    (hk : Table.find s.tasks c.task = some task) (hg : Table.find s.groups c.group = some grp)
    (hb : c.body = .copy opc ws rows serial q none entry refused) (f : Nat × Nat × Nat × Bool) :
    faultWords t c f = faultWords s c f := by
  obtain ⟨tm', htm', -, hidx⟩ := h.teams _ _ htm
  simp only [Machine.faultWords, h.tasks, h.groups, h.launches, htm, htm', hk, hg, hb, hidx]

theorem Landed.cmdDie {s t : State} (h : Landed s t) (htm : Table.find s.teams c.team = some tm) : cmdDie t c = tm.die := by
  obtain ⟨tm', htm', hdie, -⟩ := h.teams _ _ htm
  simp only [Machine.cmdDie, htm', Option.map_some, Option.getD_some, hdie]

theorem updCmd_find {v : State} {id : Nat} {k : Cmd} (h : Table.find v.cmds id = some k) (f : Cmd → Cmd) :
    Table.find (updCmd v id f).cmds id = some (f k) :=
  (Table.find_upd ..).trans (congrArg (Option.map f) h)

/-- What a suspended command leaves: the command at the faulting chunk, and its record at the end of the die's queue. -/
theorem suspend_leaves {id : Nat} {entry : Option Nat} (hc : Table.find s.cmds id = some c)
    (htm : Table.find s.teams c.team = some tm) (hk : Table.find s.tasks c.task = some task)
    (hg : Table.find s.groups c.group = some grp) (hb : c.body = .copy opc ws rows serial q none entry refused)
    (f : Nat × Nat × Nat × Bool) (body : CmdBody) :
    (∃ c', Table.find (suspend s id c l ws rows f body).cmds id = some c' ∧ c'.finished = c.finished ∧ c'.body = body ∧
      c'.cursor = (f.2.1, f.2.2.1)) ∧
      (coreOf (suspend s id c l ws rows f body) tm.die).faultQ = (coreOf s tm.die).faultQ ++ [(id, faultWords s c f)] := by
  have hland := landRows_landed s id c l ws rows (f.2.1, f.2.2.1)
  obtain ⟨o, ho⟩ := hland.cmds _ _ hc
  have hdie := hland.cmdDie htm
  have hwords := hland.faultWords htm hk hg hb f
  have hcores := hland.cores
  unfold suspend
  dsimp only
  generalize landRows s id c l ws rows (f.2.1, f.2.2.1) = v at *
  refine ⟨by rw [updCore_cmds, updCmd_find ho]; exact ⟨_, rfl, rfl, rfl, rfl⟩, ?_⟩
  rw [show ∀ g, cmdDie (updCmd v id g) c = tm.die from fun _ => hdie,
    show ∀ g, faultWords (updCmd v id g) c f = faultWords s c f from fun _ => hwords]
  rw [coreOf_updCore]
  simp only [coreOf, updCmd, hcores]

/-- A command that meets a fault is suspended. -/
theorem copyFault_suspends {f : Nat × Nat × Nat × Bool} (hc : Table.find s.cmds s.arg.a = some c)
    (hl : cmdLaunch s c = some l) (hb : c.body = .copy opc ws rows serial q none none none)
    (hmoves : movesNow s c = true) (hff : firstFault s l.ctx c ws rows = some (.ok f)) :
    exec .copyFault s =
      .next (suspend s s.arg.a c l ws rows f (.copy opc ws rows serial q (some f) none none)) := by
  show execCopyFault s = _
  simp only [execCopyFault, hc, hb, hl, hmoves, hff, Option.isSome_none, Bool.not_true, Bool.or_false, Bool.false_eq_true,
    if_false]

/-- A command that meets a fault does not end. -/
theorem copyComplete_faults {x : Except Nat (Nat × Nat × Nat × Bool)} (hc : Table.find s.cmds s.arg.a = some c)
    (hf : c.finished = false) (hl : cmdLaunch s c = some l) (hb : c.body = .copy opc ws rows serial q none none none)
    (hff : firstFault s l.ctx c ws rows = some x) : exec .copyCommandComplete s = .next s := by
  show execCopyCommandComplete s = _
  simp only [execCopyCommandComplete, hc, hf, hb, hl, hff, Option.isNone_some, Bool.and_false, Bool.false_eq_true, if_false]

end

/-- Settles O26: the rows of a command whose bytes are known, one after another, and then its flag. -/
theorem copyCompletionDeliversItsBytes : Obligations.CopyCompletionDeliversItsBytes := by
  unfold Obligations.CopyCompletionDeliversItsBytes
  intro s c l grp tm task opc ws rows serial q refused hc hf hl hgrp htm htask hbody ends moves dir inside
  have hends {v : State} {p : State → Prop} (hg : v.groups = s.groups)
      (hx : ∃ regs, exec .copyCommandComplete s = .next (finishCopy v s.arg.a c false regs))
      (hp : ∀ t, t.effects = v.effects → (∀ n k, Table.find v.teams n = some k →
        ∃ k', Table.find t.teams n = some k' ∧ k'.mem = k.mem) → p t) : ends p := by
    obtain ⟨regs, hx⟩ := hx
    obtain ⟨⟨grp', hgrp', hflag⟩, heff, hteams⟩ :=
      finishCopy_ends (v := v) (id := s.arg.a) (regs := regs) hf (by rw [hg]; exact hgrp)
    exact ⟨_, grp', hx, hgrp', hflag, hp _ heff hteams⟩
  have hmoved (h : moves) {p : State → Prop}
      (hp : ∀ t, t.effects = (rows.foldl (landKnown s s.arg.a c l ws (2 ^ 32, 0)) s).effects →
        (∀ n k, Table.find (rows.foldl (landKnown s s.arg.a c l ws (2 ^ 32, 0)) s).teams n = some k →
          ∃ k', Table.find t.teams n = some k' ∧ k'.mem = k.mem) → p t) : ends p := by
    obtain ⟨rfl, ht, hm, hmv, hff, hrows⟩ := h
    have hd : ∀ r ∈ rows, ∃ bs, r.data = some bs := fun r hr => by
      obtain ⟨-, bs, hbs, -⟩ := hrows r hr
      exact ⟨bs, hbs⟩
    have hland := (landRows_landed s s.arg.a c l ws rows (2 ^ 32, 0)).groups
    rw [landRows_known ht hd] at hland
    exact hends hland (copyComplete_moves hc hf hl hbody ht hm hmv hff hd) hp
  have hlocal (h : blockDir ws = 0 ∨ blockDir ws = 3) : (blockDir ws = 1 || blockDir ws = 2) = false := by
    obtain h | h := h <;> simp [h]
  have hglobal (h : blockDir ws = 1 ∨ blockDir ws = 2) : (blockDir ws = 1 || blockDir ws = 2) = true := by
    obtain h | h := h <;> simp [h]
  refine ⟨fun h hdir => ⟨fun r bs off k hr hbs hcur hk hplace hoff => ?_, fun hcur hplace => ?_,
    fun r n t' off hr hcur hlen hplace hne hn => ?_⟩, fun h hdir r hr hcur hlen => ?_, fun code hcode => ?_,
    fun cause pos o wr href hmv hff => ⟨?_, ?_⟩⟩
  · refine hmoved h fun t _ hteams => ?_
    obtain ⟨-, -, -, -, -, hrows⟩ := h
    subst hr
    obtain ⟨hpos, bs', hbs', hlen⟩ := hrows r (List.mem_singleton_self r)
    obtain rfl : bs' = bs := Option.some.inj (hbs'.symm.trans hbs)
    obtain ⟨tm₁, htm₁, hmem⟩ := landKnown_rest htm htask hpos hbs hlen (hlocal hdir) hcur hk hplace hoff
    obtain ⟨tm₂, htm₂, hmem₂⟩ := hteams _ _ htm₁
    exact ⟨tm₂, htm₂, fun a => by rw [hmem₂, hmem]⟩
  · refine hmoved h fun t heff hteams => ?_
    obtain ⟨-, -, -, -, -, hrows⟩ := h
    obtain ⟨heff', -, tm₁, htm₁, -, hmem⟩ := landKnown_own (id := s.arg.a) (l := l) (ws := ws) (hlocal hdir) hcur htm htask
      fun r hr => ⟨hplace r hr, hrows r hr⟩
    obtain ⟨tm₂, htm₂, hmem₂⟩ := hteams _ _ htm₁
    exact ⟨heff.trans heff', tm₂, htm₂, fun a => by rw [hmem₂]; exact hmem a⟩
  · refine hmoved h fun t heff _ => ?_
    obtain ⟨-, -, -, -, -, hrows⟩ := h
    subst hr
    obtain ⟨hpos, bs, hbs, hbl⟩ := hrows r (List.mem_singleton_self r)
    obtain ⟨e, he, hb, hrest⟩ := landKnown_window htm htask hpos hbs hbl (hlocal hdir) hcur hlen hplace hne hn
    exact ⟨e, heff.trans he, by rw [hb, hbs]; rfl, hrest⟩
  · refine hmoved h fun t heff _ => ?_
    obtain ⟨-, -, -, -, -, hrows⟩ := h
    subst hr
    obtain ⟨hpos, bs, hbs, hbl⟩ := hrows r (List.mem_singleton_self r)
    obtain ⟨e, he, hb, hrest⟩ := landKnown_global htask hpos hbs hbl (hglobal hdir) hcur hlen
    exact ⟨e, heff.trans he, by rw [hb, hbs]; rfl, hrest⟩
  · subst hcode
    exact hends rfl (copyComplete_refused hc hf hbody) fun t _ hteams => hteams
  · subst href
    obtain ⟨⟨c', hc', hfin, hb', hcur⟩, hq⟩ := suspend_leaves (l := l) (ws := ws) (rows := rows) hc htm htask hgrp hbody
      (cause, pos, o, wr)
      (.copy opc ws rows serial q (some (cause, pos, o, wr)) none none)
    exact ⟨_, c', copyFault_suspends hc hl hbody hmv hff, hc', hfin.trans hf, hb', hcur, hq⟩
  · subst href
    exact copyComplete_faults hc hf hl hbody hff

end Sys2Proof.Machine

namespace Sys2Proof.Machine
-- Theorems one after another: in parallel, the stacks of the waiting threads go past the checker's memory limit.
set_option Elab.async false

/-! ### Effects across a slot's retirement -/

theorem ite_effects (p : Prop) [Decidable p] {s t : State} {es : List Effect} (hs : s.effects = es) (ht : t.effects = es) :
    (if p then s else t).effects = es := by
  split
  · exact hs
  · exact ht

theorem settleStripes_effects (s : State) (t : Nat) : (settleStripes s t).effects = s.effects := by
  simp only [settleStripes]
  split
  · rfl
  · split
    · rfl
    · refine ite_effects _ rfl ?_
      split
      · split
        · exact (takeTrap_calm ..).effects
        · rfl
      · rfl

theorem settleSiblings_effects (s : State) (g : Nat) : (settleSiblings s g).effects = s.effects := by
  simp only [settleSiblings]
  split
  · rfl
  · split
    · rfl
    · refine ite_effects _ rfl ?_
      split
      · exact (takeTrap_calm ..).effects
      · rfl

theorem settleRace_effects (s : State) (t : Nat) : (settleRace s t).effects = s.effects := by
  have hfold (l : List Nat) (s : State) : (l.foldl settleSiblings s).effects = s.effects := by
    induction l generalizing s with
    | nil => rfl
    | cons g l ih => exact (ih _).trans (settleSiblings_effects s g)
  exact (hfold _ _).trans (settleStripes_effects s t)

theorem endStep_effects (s : State) (w : Who) (d0 : Nat) : (endStep s w d0).effects = s.effects := by
  unfold endStep
  split
  · rfl
  · exact (takeTrap_calm ..).effects

theorem countWait_effects (s : State) (w : Who) : (countWait s w).effects = s.effects := by
  unfold countWait
  split
  · split <;> rfl
  · rfl

theorem retire_effects (w : Who) (c : Clause) (i : Instr) (o : Out) (uses : List (Nat × Nat)) (wuses : List WinAcc)
    (sib : List SibUse) (hpost : o.post = id) : (retire w c i o uses wuses sib).effects = o.s.effects := by
  simp only [retire, hpost, id_eq, updGroup_effects, updSplit_effects]
  split <;> split <;> rfl

/-- A slot whose retirement runs nothing after it leaves the effects that its instruction left. -/
theorem slotDone_effects (w : Who) (c : Clause) (i : Instr) (o : Out) (hpost : o.post = id) :
    (slotDone w c i o).effects = o.s.effects :=
  (settleRace_effects ..).trans ((endStep_effects ..).trans ((countWait_effects ..).trans (retire_effects _ _ _ _ _ _ _ hpost)))

/-! ### A message to a port of another launch (R53, R473)

The message of an `MST` names a port that another launch owns, in a commit domain of its own. The two domains stand at their
first common commit, so they are one at once, and the effects that wait in the other domain become the issuer's domain's. -/

/-- A message of launch 20, of domain 9, that waits for its commit. -/
def waitingMessage : Effect :=
  { dom := 9, launch := 20, task := 0, team := 0, group := 0, split := 0, key := 0, prog := 0, time := some 0
    body := .message 3 0 0 none }

/-- The issuer at an `MST` of one row of S8 with a message to port 3, which launch 20 owns and holds open. -/
def storeToOpenPort : State :=
  let s := updGroup (placeOnGroup State.reset (encode (.mst 4 8))) 5 fun g =>
    { g with u := [(8, 0x216), (9, 0x3FC0), (11, 95), (12, 1), (15, 3)] }
  { s with
    actor := .split 5 0
    ports := [(3, { isOpen := true, depth := 1, owner := 1 })]
    ctxs := Table.upd s.ctxs 0 fun c =>
      { c with pspace := [(0, 0x400000)], tspace := [(0, 0x400000)], mshare := [(0, 64)] }
    launches := s.launches ++ [(20, { ctx := 0, num := 1, dom := 9, words := placedRecord, order := 20 })]
    doms := s.doms ++ [(9, { q := 32768 })]
    effects := [waitingMessage] }

/-- The effects of that `MST`, by what the checks see of them. -/
def storeOut (s : State) (w : Who) : Out :=
  { s, accs := matrixAccs w [] [(0x3FC0, 64, none)], items := [⟨4, 32, true⟩]
    looks := [⟨false, 0x3FC0, 64, false, true, 96⟩], pends := some [(0, 4)] }

/-- The issuer of that state starts its `MST`: nothing stops it or makes it wait, and port 3 is open in its view. -/
theorem storeToOpenPort_issuer : ∃ w c, issues storeToOpenPort w c (.mst 4 8) ∧
    clears storeToOpenPort w c (.mst 4 8) (storeOut storeToOpenPort w) ∧ w.grp.size = 0x4000 ∧
    readReady storeToOpenPort w = true ∧ (portOpen storeToOpenPort w 3).isSome = true ∧
    matrixInFlight storeToOpenPort w < 8 ∧
    heldAccess storeToOpenPort w (matrixAccs w [] [(0x3FC0, 64, none)]) = false := by
  have h : (match whoOf storeToOpenPort 5 0 with
      | some w =>
        let i : Instr := .mst 4 8
        let c := placedClause (encode i)
        let o := storeOut storeToOpenPort w
        decide (w.g = 5 ∧ w.x = 0 ∧
          (w.sp.clause = some c ∧ pcHit storeToOpenPort w c = none ∧ isPrivileged i = false ∧ timeUp w = none ∧
            hazardOf w i = none ∧ kindBad i w.grp.mode = false) ∧
          (collTouched w o.accs = none ∧ watchHit storeToOpenPort w o.looks = none ∧
            (longLatency i = true → flagOf w.grp c.flag < 15) ∧
            (o.flow.closes = true → w.task.rooted.isSome = true ∧ closeFits w = true) ∧
            stripeConflict w.team w.grp.gidx w.sp.clock (b0Span w.sp) w.g w.x (o.stripes w) = none ∧
            windowRace w (o.windows w) = none ∧ sibConflicts w (o.shared w i) = [] ∧
            (i = .exit → keepsPair storeToOpenPort w = false)) ∧
          w.grp.size = 0x4000 ∧ readReady storeToOpenPort w = true ∧
          (portOpen storeToOpenPort w 3).isSome = true ∧ matrixInFlight storeToOpenPort w < 8 ∧
          heldAccess storeToOpenPort w (matrixAccs w [] [(0x3FC0, 64, none)]) = false)
      | none => false) = true := by decide +kernel
  split at h
  · next w hw =>
    obtain ⟨hg, hx, hissues, hclears, hrest⟩ := of_decide_eq_true h
    exact ⟨w, _, ⟨by rw [hg, hx]; rfl, by rw [hg, hx]; exact hw, hissues⟩, hclears, hrest⟩
  · contradiction

/-- Its issue makes the message that waits one of domain 1. -/
theorem storeToOpenPort_effects {t : State} (h : exec (.mst 4 8) storeToOpenPort = .next t) :
    t.effects = [{ waitingMessage with dom := 1 }] := by
  have hrun : (match exec (.mst 4 8) storeToOpenPort with
      | .next t => decide (t.effects = [{ waitingMessage with dom := 1 }])
      | _ => false) = true := by decide +kernel
  rw [h] at hrun
  exact of_decide_eq_true hrun

/-- Refutes O28: an `MST` sends its message to port 3, which a launch of another domain owns. Both domains stand at the same
commit, so they become one at once (R53, R473), and the message that waits in the other domain is one of domain 1 after the
issue: the effects are not those before it. -/
theorem not_matrixLoopStoreAndRead : ¬ Obligations.MatrixLoopStoreAndRead := by
  unfold Obligations.MatrixLoopStoreAndRead
  intro h
  obtain ⟨w, c, hissues, hclears, hsize, hview, hopen, hroom, hheld⟩ := storeToOpenPort_issuer
  have ⟨_, hw, hc, _⟩ := hissues
  obtain ⟨-, hstore, -⟩ := h storeToOpenPort w c 4 8 hw hc
  -- The block passes the checks of R290: no bias, no table and no scales, so their words are zero.
  extract_lets cm flag out place outs ins whole accs at hstore
  have hz {k : Nat} (hk : flag k = false) {p : Prop} (h : flag k = true) : p := by simp [hk] at h
  specialize hstore (by decide +kernel) (.inr (by decide +kernel)) (by decide +kernel) (by decide +kernel)
    (by decide +kernel) (hz (by decide +kernel)) (by decide +kernel) (by decide +kernel) (by decide +kernel)
    (by decide +kernel) (by decide +kernel) (by decide +kernel) (by decide +kernel) (by decide +kernel) (by decide +kernel)
  have houts : outs = [(0x3FC0, 64)] := by decide +kernel
  have hins : ins = [] := by decide +kernel
  have hport : bits (uread storeToOpenPort (BitVec.toNat (8 : SReg) + 7)) 15 0 = 3 := by decide +kernel
  have haccs : accs = matrixAccs w [] [(0x3FC0, 64, none)] := by simp only [accs, whole, houts, hins, List.map]
  beta_reduce at hstore
  rw [hport, haccs, houts, hins, hsize] at hstore
  obtain ⟨-, -, hopens⟩ := hstore ⟨by decide, by decide⟩
  obtain ⟨-, -, hstarts⟩ := hopens (.inr ⟨hview, hopen⟩)
  obtain ⟨t, -, -, -, -, -, heffects, -, -, -, -, hruns⟩ := hstarts hroom hheld
  have hnext := storeToOpenPort_effects (hruns hissues hclears)
  rw [slotDone_effects _ _ _ _ rfl, heffects] at hnext
  exact absurd hnext (by decide)

end Sys2Proof.Machine

namespace Sys2Proof.Machine
-- Theorems one after another: in parallel, the stacks of the waiting threads go past the checker's memory limit.
set_option Elab.async false

/-! ### The rows that a matrix command lands (R289) -/

/-- The byte that output rows leave at offset `a` of the allocation, where one of them reaches it: the last one's. -/
def lastOutput (rows : List (Nat × List Byte)) (a : Nat) : Option Byte :=
  (rows.filter fun r => decide (r.1 ≤ a) && decide (a < r.1 + r.2.length)).getLast?.map fun r => r.2.getD (a - r.1) 0

theorem lastOutput_concat (rows : List (Nat × List Byte)) (r : Nat × List Byte) (a : Nat) :
    lastOutput (rows ++ [r]) a =
      if r.1 ≤ a ∧ a < r.1 + r.2.length then some (r.2.getD (a - r.1) 0) else lastOutput rows a := by
  unfold lastOutput
  rw [List.filter_append]
  split
  · next h => simp [h]
  · next h =>
    have hr : (decide (r.1 ≤ a) && decide (a < r.1 + r.2.length)) = false := by
      rwa [← Bool.decide_and, decide_eq_false_iff_not]
    simp [hr]

/-- Output rows change the bytes of the one allocation, and what its groups see of them. -/
theorem landOutputs_lands {s : State} {t : Nat} {tm : Team} (h : Table.find s.teams t = some tm) (gidx : Nat)
    (rows : List (Nat × List Byte)) : ∃ ts tm', landOutputs s t gidx rows = { s with teams := ts } ∧
      Table.find ts t = some tm' ∧ tm' = { tm with mem := tm'.mem, views := tm'.views } ∧
      ∀ a, Sparse.get 0 tm'.mem a = (lastOutput rows a).getD (Sparse.get 0 tm.mem a) := by
  induction rows using List.reverseRecOn with
  | nil => exact ⟨s.teams, tm, rfl, h, rfl, fun _ => rfl⟩
  | append_singleton rows r ih =>
    obtain ⟨ts, tm₁, hland, hfind, hframe, hmem⟩ := ih
    have hstep : landOutputs s t gidx (rows ++ [r]) = landOwn (landOutputs s t gidx rows) t gidx r.1 r.2 := by
      simp [landOutputs]
    refine ⟨(landOwn { s with teams := ts } t gidx r.1 r.2).teams, _, by rw [hstep, hland]; rfl,
      (updTeam_find _ hfind).trans (by rw [if_pos rfl]), ?_, fun a => ?_⟩
    · rw [hframe]
      rfl
    · rw [lastOutput_concat]
      refine (Sparse.getF_writeF_getD (fun _ => 0) tm₁.mem r.1 a r.2 0).trans ?_
      split
      · rfl
      · exact hmem a

/-! ### What the end of a command leaves of the state -/

/-- State `t` is `s` but for its groups. -/
def GroupsOnly (s t : State) : Prop := ∃ gs, t = { s with groups := gs }

theorem GroupsOnly.refl (s : State) : GroupsOnly s s := ⟨s.groups, rfl⟩

theorem GroupsOnly.trans {s t u : State} (a : GroupsOnly s t) (b : GroupsOnly t u) : GroupsOnly s u := by
  obtain ⟨_, rfl⟩ := a
  obtain ⟨gs, rfl⟩ := b
  exact ⟨gs, rfl⟩

theorem GroupsOnly.ite {s t u : State} (p : Prop) [Decidable p] (ht : GroupsOnly s t) (hu : GroupsOnly s u) :
    GroupsOnly s (if p then t else u) := by
  split
  · exact ht
  · exact hu

theorem GroupsOnly.foldl {α : Type} {f : State → α → State} (h : ∀ s a, GroupsOnly s (f s a)) (l : List α) (s : State) :
    GroupsOnly s (l.foldl f s) := by
  induction l generalizing s with
  | nil => exact .refl s
  | cons a l ih => exact (h s a).trans (ih _)

theorem updGroup_groupsOnly (s : State) (g : Nat) (f : Group → Group) : GroupsOnly s (updGroup s g f) := ⟨_, rfl⟩

theorem groupWrite_groupsOnly (s : State) (g x n : Nat) (v : Word) : GroupsOnly s (groupWrite s g x n v) :=
  .ite _ (.refl s) (.ite _ (updGroup_groupsOnly ..) (.ite _ (updGroup_groupsOnly ..)
    (.ite _ (.refl s) (updGroup_groupsOnly ..))))

theorem deliver_groupsOnly (s : State) (c : Cmd) (outs : List (Nat × Nat × Nat × Word)) : GroupsOnly s (deliver s c outs) := by
  unfold deliver
  extract_lets to' held s1 s2 vs s3 fs
  have h1 : GroupsOnly s s1 := .ite _ (.refl s) (updGroup_groupsOnly ..)
  have h2 : GroupsOnly s1 s2 := .foldl (fun s o => .foldl (fun s e => groupWrite_groupsOnly ..) _ s) _ _
  have h3 : GroupsOnly s2 s3 := .ite _ (.refl s2) (updGroup_groupsOnly ..)
  have h123 : GroupsOnly s s3 := (h1.trans h2).trans h3
  exact .ite _ h123 (h123.trans (.foldl (fun s e => updGroup_groupsOnly ..) _ _))

theorem finishCmd_effects {s : State} {id : Nat} {k : Cmd} (outs : List (Nat × Nat × Nat × Word)) (hf : k.finished = false) :
    (finishCmd s id k outs).effects = s.effects := by
  rw [finishCmd, if_neg (by simp [hf])]
  simp only [pruneCmds, updCmd, lowerFlag, wakeStalled, releaseWhere, updGroup_effects]
  exact (deliver_calm s k outs).effects

/-- A command that has ended is finished where it still stands. -/
theorem finishCmd_finished {s : State} {id : Nat} {c k : Cmd} {outs : List (Nat × Nat × Nat × Word)} (hf : c.finished = false)
    (hk : Table.find (finishCmd s id c outs).cmds id = some k) : k.finished = true := by
  rw [finishCmd, if_neg (by simp [hf])] at hk
  obtain ⟨e, -, he⟩ := List.mem_map.1 (List.mem_of_mem_filter (Table.mem_of_find hk))
  split at he
  · rw [← (Prod.mk.inj he).2]
  · next hne =>
    subst he
    exact absurd rfl hne

/-! ### The status and the column of a matrix command (R286, R289) -/

/-- The lanes of a column that the taker holds, as results without flags. -/
def columnLanes (sp : Split) (lanes : Mask) (ws : List Word) : List (Nat × Word × Word) :=
  ((lanesOf lanes).filter fun l => sp.lanes.getLsbD l).map fun l => (l, ws.getD l 0, 0)

theorem find_columnLanes (sp : Split) (lanes : Mask) (ws : List Word) {l : Nat} (hl : l < 96) :
    Table.find (columnLanes sp lanes ws) l =
      if lanes.getLsbD l && sp.lanes.getLsbD l then some (ws.getD l 0, 0) else none := by
  have hfind (ls : List Nat) : Table.find (ls.map fun l => (l, ws.getD l 0, (0 : Word))) l =
      if l ∈ ls then some (ws.getD l 0, 0) else none := by
    induction ls with
    | nil => rfl
    | cons a ls ih =>
      by_cases ha : a = l
      · simp [Table.find, ha]
      · simpa [Table.find, ha, Ne.symm ha] using ih
  rw [columnLanes, hfind]
  simp [lanesOf, hl, and_comm]

/-- What the results of a command with a status and a column make of the taker's registers: the column's lanes are
written after the status. -/
theorem deliver_column {s : State} {k : Cmd} {x : Nat} {sp : Split} (ht : takers s k = [(x, sp)]) (status : Word) (v : Nat)
    (lanes : Mask) (ws : List Word) : ∃ outs,
      let u := groupWrite (updGroup s k.group fun grp => grp.keep outs) k.group x k.sd status
      deliver s k (uniformOuts k.sd [status] ++ columnOuts (some (v, lanes, ws))) =
        if columnLanes sp lanes ws = [] then u
        else updGroup u k.group fun grp => writeLanes grp v (columnLanes sp lanes ws) := by
  have ho : uniformOuts k.sd [status] ++ columnOuts (some (v, lanes, ws)) =
      (0, k.sd, 0, status) :: (lanesOf lanes).map fun l => (1, v, l, ws.getD l 0) := by
    simp [uniformOuts, columnOuts, laneOuts, List.range_succ]
  have hheld : (uniformOuts k.sd [status] ++ columnOuts (some (v, lanes, ws))).filter (fun o =>
      !decide (o.1 = 1) || sp.lanes.getLsbD o.2.2.1) =
        (0, k.sd, 0, status) :: (columnLanes sp lanes ws).map fun r => (1, v, r.1, r.2.1) := by
    simp [ho, columnLanes, List.filter_map, Function.comp_def]
  have hzero : (uniformOuts k.sd [status] ++ columnOuts (some (v, lanes, ws))).filter (fun o => decide (o.1 = 0)) =
      [(0, k.sd, 0, status)] := by
    simp [ho, List.filter_map, Function.comp_def]
  have hlanes : (uniformOuts k.sd [status] ++ columnOuts (some (v, lanes, ws))).filter (fun o =>
      decide (o.1 = 1) && sp.lanes.getLsbD o.2.2.1) = (columnLanes sp lanes ws).map fun r => (1, v, r.1, r.2.1) := by
    simp [ho, columnLanes, List.filter_map, Function.comp_def]
  have hflags : (uniformOuts k.sd [status] ++ columnOuts (some (v, lanes, ws))).filter (fun o => decide (o.1 = 2)) = [] := by
    simp [ho]
  refine ⟨(0, k.sd, 0, status) :: (columnLanes sp lanes ws).map fun r => (1, v, r.1, r.2.1), ?_⟩
  by_cases hne : columnLanes sp lanes ws = []
  · simp [deliver, ht, hheld, hzero, hlanes, hflags, hne]
  · have hone : (List.replicate (columnLanes sp lanes ws).length v).eraseDups = [v] :=
      eraseDups_eq_singleton (by simpa using hne) (by simp)
    simp [deliver, ht, hheld, hzero, hlanes, hflags, hne, hone, List.filter_map, Function.comp_def, writeLanes]

/-- A write of a uniform register keeps the group's vector registers. -/
theorem groupWrite_registers {s : State} {g : Nat} {grp : Group} (hg : Table.find s.groups g = some grp) (x n : Nat) (v : Word) :
    ∃ grp', Table.find (groupWrite s g x n v).groups g = some grp' ∧ grp'.v = grp.v ∧
      (4 ≤ n → n < 1008 → Sparse.get 0 grp'.u n = v) := by
  have hupd (f : Group → Group) : Table.find (updGroup s g f).groups g = some (f grp) := by
    rw [updGroup_groups, Table.find_upd, hg]
    rfl
  unfold groupWrite
  split
  · exact ⟨grp, hg, rfl, by omega⟩
  · split
    · exact ⟨_, hupd _, rfl, by omega⟩
    · split
      · exact ⟨_, hupd _, rfl, fun _ _ => Sparse.get_set ..⟩
      · split
        · exact ⟨grp, hg, rfl, by omega⟩
        · exact ⟨_, hupd _, rfl, by omega⟩

/-- The registers of the taker's group after the results of a matrix command. -/
theorem deliver_registers {s : State} {k : Cmd} {grp : Group} {x : Nat} {sp : Split}
    (hg : Table.find s.groups k.group = some grp) (ht : takers s k = [(x, sp)]) (status : Word)
    (col : Option (Nat × Mask × List Word)) : ∃ grp',
      Table.find (deliver s k (uniformOuts k.sd [status] ++ columnOuts col)).groups k.group = some grp' ∧
      (4 ≤ k.sd → k.sd < 1008 → Sparse.get 0 grp'.u k.sd = status) ∧
      ∀ v lanes ws, col = some (v, lanes, ws) → ∀ l < 96, laneRead grp' v l =
        if lanes.getLsbD l && sp.lanes.getLsbD l then ws.getD l 0 else laneRead grp v l := by
  have hwrite (outs : List (Nat × Nat × Nat × Word)) := groupWrite_registers (s := updGroup s k.group fun grp => grp.keep outs)
    (g := k.group) (grp := grp.keep outs) (by rw [updGroup_groups, Table.find_upd, hg]; rfl) x k.sd status
  obtain _ | ⟨v, lanes, ws⟩ := col
  · obtain ⟨grp₁, h₁, -, hu⟩ := hwrite [(0, k.sd, 0, status)]
    refine ⟨grp₁, ?_, hu, fun _ _ _ h => by cases h⟩
    rw [columnOuts, List.append_nil, deliver_uniform ht, h₁]
  · obtain ⟨outs, hd⟩ := deliver_column ht status v lanes ws
    obtain ⟨grp₁, h₁, hv, hu⟩ := hwrite outs
    have hkeep (l : Nat) : laneRead grp₁ v l = laneRead grp v l := by
      rw [laneRead, vecRead, hv]
      rfl
    by_cases hne : columnLanes sp lanes ws = []
    · refine ⟨grp₁, by rw [hd, if_pos hne, h₁], hu, fun v' lanes' ws' h l hl => ?_⟩
      obtain ⟨rfl, rfl, rfl⟩ := by simpa using h
      have hnone := find_columnLanes sp lanes ws hl
      rw [hne] at hnone
      rw [hkeep, if_neg fun hlane => by simp [Table.find, hlane] at hnone]
    · refine ⟨writeLanes grp₁ v (columnLanes sp lanes ws), ?_, hu, fun v' lanes' ws' h l hl => ?_⟩
      · rw [hd, if_neg hne, updGroup_groups, Table.find_upd, h₁]
        rfl
      · obtain ⟨rfl, rfl, rfl⟩ := by simpa using h
        rw [laneRead_writeLanes _ _ hl, find_columnLanes _ _ _ hl, hkeep]
        cases lanes.getLsbD l && sp.lanes.getLsbD l <;> rfl

/-! ### Completion in issue order (R289, R291) -/

/-- The state in which a matrix command's rows have been landed and its message has been sent. -/
def matrixLanded (s : State) (id : Nat) (c : Cmd) (l : Launch) (rows : List (Nat × List Byte)) (msg : Option (Nat × Word))
    (status : Word) : State :=
  let v := landOutputs s c.team (indexOf s c.group) rows
  match msg with
  | some (port, w0) => cmdEffect v id c l (.message port w0 status none)
  | none => v

section
variable {s : State} {c : Cmd} {l : Launch} {rows : List (Nat × List Byte)} {col : Option (Nat × Mask × List Word)}
  {msg : Option (Nat × Word)} {status : Word}

/-- A message is one more effect, and changes nothing else. -/
theorem matrixLanded_frame {tm : Team} (htm : Table.find s.teams c.team = some tm) (id : Nat) : ∃ ts tm' es,
    matrixLanded s id c l rows msg status = { s with teams := ts, effects := es } ∧ Table.find ts c.team = some tm' ∧
      tm' = { tm with mem := tm'.mem, views := tm'.views } ∧
      (∀ a, Sparse.get 0 tm'.mem a = (lastOutput rows a).getD (Sparse.get 0 tm.mem a)) ∧
      (msg = none → es = s.effects) ∧
      ∀ port w0, msg = some (port, w0) → (Table.find s.tasks c.task).isSome = true → ∃ e, es = s.effects ++ [e] ∧
        e.body = .message port w0 status none ∧ e.key = c.key ∧ e.dom = l.dom ∧ e.cmd = id := by
  obtain ⟨ts, tm', hland, hfind, hframe, hmem⟩ := landOutputs_lands htm (indexOf s c.group) rows
  obtain _ | ⟨port, w0⟩ := msg
  · exact ⟨ts, tm', s.effects, hland, hfind, hframe, hmem, fun _ => rfl, fun _ _ h => by cases h⟩
  · have hsend : matrixLanded s id c l rows (some (port, w0)) status =
        cmdEffect { s with teams := ts } id c l (.message port w0 status none) := by rw [matrixLanded, hland]
    cases hk : Table.find s.tasks c.task with
    | none =>
      refine ⟨ts, tm', s.effects, ?_, hfind, hframe, hmem, nofun, fun _ _ _ h => absurd h (by simp)⟩
      rw [hsend, cmdEffect, hk]
    | some k =>
      refine ⟨ts, tm', _, by rw [hsend, cmdEffect, hk], hfind, hframe, hmem, nofun, fun p v h _ => ?_⟩
      obtain ⟨rfl, rfl⟩ := by simpa using h
      exact ⟨_, rfl, rfl, rfl, rfl, rfl⟩

variable (hc : Table.find s.cmds s.arg.a = some c) (hf : c.finished = false) (hl : cmdLaunch s c = some l)
  (hbody : c.body = .matrix rows col msg status)

/-- A command of the matrix engine. -/
def CmdBody.isMatrix (b : CmdBody) : Bool := match b with | .matrix .. => true | _ => false

theorem CmdBody.isMatrix_iff (b : CmdBody) : b.isMatrix = true ↔ ∃ r k m v, b = .matrix r k m v := by
  cases b <;> simp [isMatrix]

/-- An earlier matrix command of the team is in flight. -/
def matrixBefore (s : State) (c : Cmd) : Bool :=
  s.cmds.any fun e => decide (e.1 < s.arg.a) && decide (e.2.team = c.team) && !e.2.finished && e.2.body.isMatrix

theorem matrixBefore_iff : matrixBefore s c = true ↔
    ∃ e ∈ s.cmds, e.1 < s.arg.a ∧ e.2.team = c.team ∧ e.2.finished = false ∧ ∃ r k m v, e.2.body = .matrix r k m v := by
  simp only [matrixBefore, List.any_eq_true, Bool.and_eq_true, decide_eq_true_eq, Bool.not_eq_true', CmdBody.isMatrix_iff,
    and_assoc]

include hc hf hl hbody

theorem matrixComplete_eq : exec .matrixCommandComplete s = if matrixBefore s c then .next s else
    .next (finishCmd (matrixLanded s s.arg.a c l rows msg status) s.arg.a c (uniformOuts c.sd [status] ++ columnOuts col)) := by
  simp only [exec, execMatrixCommandComplete, hc, hl, hbody, hf, Bool.false_or]
  rfl

end

/-- Settles O29: the rows and the message come before `finishCmd`, which lowers the flag and delivers status and column. -/
theorem matrixCompletionLandsRows : Obligations.MatrixCompletionLandsRows := by
  unfold Obligations.MatrixCompletionLandsRows
  intro s c l grp tm rows col msg status hc hf hl hg htm hbody isMatrix earlier
  have hbefore : matrixBefore s c = true ↔ earlier := matrixBefore_iff
  have hx := matrixComplete_eq hc hf hl hbody
  refine ⟨fun h => hx.trans (if_pos (hbefore.2 h)), fun h => ?_⟩
  obtain ⟨ts, tm', es, hland, htm', hframe, hmem, hquiet, hsends⟩ :=
    matrixLanded_frame (l := l) (rows := rows) (msg := msg) (status := status) htm s.arg.a
  generalize houts : uniformOuts c.sd [status] ++ columnOuts col = outs
  rw [if_neg (mt hbefore.1 h), hland, houts] at hx
  set v : State := { s with teams := ts, effects := es }
  obtain ⟨gs, hdel⟩ := deliver_groupsOnly v c outs
  obtain ⟨grp₁, hg₁, hflags₁⟩ := (deliver_calm v c outs).groups c.group grp hg
  obtain ⟨-, grp₂, hg₂, hu, hv, hflags, -, -⟩ := finishCmd_lands (id := s.arg.a) (s := v) (by rw [hdel]; exact hc) hf hg₁
  refine ⟨_, grp₂, tm', hx, hg₂, ?_, finishCmd_mem .., ?_, fun f hne => ?_, hframe, hmem, fun hm => ?_, fun port w0 hm hk => ?_,
    fun k hk => finishCmd_finished hf hk, fun x sp ht => ?_⟩
  · rw [finishCmd_teams _ _ _ _ hf, hdel]
    exact htm'
  · rw [hflags, Sparse.get_set, hflags₁]
  · rw [hflags, Sparse.get_set_ne _ _ _ hne, hflags₁]
  · rw [finishCmd_effects _ hf]
    exact hquiet hm
  · rw [finishCmd_effects _ hf]
    exact hsends port w0 hm hk
  · obtain ⟨grp', hg', hstatus, hcol⟩ := deliver_registers (s := v) hg ht status col
    obtain rfl : grp' = grp₁ := by rw [houts, hg₁] at hg'; exact (Option.some.inj hg').symm
    refine ⟨fun h4 h1008 => by rw [hu]; exact hstatus h4 h1008, fun r lanes ws h l hl => ?_⟩
    rw [← hcol r lanes ws h l hl]
    simp only [laneRead, vecRead, hv]

end Sys2Proof.Machine

namespace Sys2Proof.Machine
-- Theorems one after another: in parallel, the stacks of the waiting threads go past the checker's memory limit.
set_option Elab.async false

/-! ### What a checked command comes to (R268, R290) -/

/-- The body of instruction `i` comes to `r` where split `w` issues it. -/
def comesTo (i : Instr) (s : State) (w : Who) (r : Res) : Prop :=
  ∃ f : State → Who → Res, exec i s = slot i (fun s => withWho s (f s)) s ∧ f s w = r

/-- A check that failed is a trap. -/
def checked (bad : Option Trap) (r : Res) : Res :=
  match bad with
  | some t => .trap t
  | none => r

section
variable {i : Instr} {s : State} {w : Who} {c : Clause}

theorem comesTo.traps {t : Trap} (h : comesTo i s w (.trap t)) : trapsOnSplit s w c i t := by
  obtain ⟨_, hx, hr⟩ := h
  exact body_traps hx hr

theorem comesTo.waits {k : Nat} (h : comesTo i s w (.stall k)) : waitsOnSplit s w c i k := by
  obtain ⟨_, hx, hr⟩ := h
  exact body_waits hx hr

theorem comesTo.runs {o : Out} (h : comesTo i s w (.ok o)) : runsOnSplit s w c i o := by
  obtain ⟨_, hx, hr⟩ := h
  exact body_runs hx hr

theorem comesTo.passes {bad : Option Trap} {r : Res} (h : comesTo i s w (checked bad r)) (hb : bad = none) :
    comesTo i s w r := by
  rwa [hb] at h

theorem comesTo.fails {bad : Option Trap} {r : Res} {t : Trap} (h : comesTo i s w (checked bad r)) (hb : bad = some t) :
    trapsOnSplit s w c i t := by
  rw [hb] at h
  exact h.traps

end

/-- The first check that fails is the MATRIX trap, with its word. -/
theorem matrixBad_first {l : List (Nat × Nat × Bool)} {r : Nat × Nat × Bool} (h : (l.find? fun r => r.2.2) = some r) :
    matrixBad l = some { cls := 14, cause := r.1, aux := r.2.1 } := by
  rw [matrixBad, h]
  rfl

theorem matrixBad_none {l : List (Nat × Nat × Bool)} (h : l.all (fun r => !r.2.2) = true) : matrixBad l = none := by
  rw [matrixBad, List.find?_eq_none.2 (by simpa using h)]
  rfl

/-- A range without an index position. -/
def unindexed (r : Nat × Nat) : MxRange := (r.1, r.2, none)

section
variable {w : Who} {reads : List (Nat × Nat)}

theorem matrixPlace_empty (rs : List MxRange) (h : w.grp.size = 0) :
    matrixPlace w none rs false = some { cls := 14, cause := 8 } := by
  rw [matrixPlace, if_pos h]
  rfl

theorem matrixPlace_inside (hsize : 0 < w.grp.size) (h : ∀ r ∈ reads, r.1 + r.2 ≤ w.grp.size) :
    matrixPlace w none (reads.map unindexed) false = none := by
  have hbad : (reads.map unindexed).filter (fun r => decide (w.grp.size < r.1 + r.2.1)) = [] := by
    refine List.filter_eq_nil_iff.2 fun r hr => ?_
    obtain ⟨e, he, rfl⟩ := List.mem_map.1 hr
    exact fun h' => Nat.not_lt.2 (h e he) (of_decide_eq_true h')
  rw [matrixPlace, if_neg hsize.ne', matrixRange, hbad]
  rfl

theorem leastBy_head {α : Type} {lt : α → α → Bool} {x : α} {xs : List α} (h : ∀ y ∈ xs, lt y x = false) :
    leastBy lt (x :: xs) = some x := by
  have hmem (l : List α) : ∀ y, leastBy lt l = some y → y ∈ l := by
    induction l with
    | nil => intro y hy; cases hy
    | cons a l ih =>
      intro y hy
      rw [leastBy] at hy
      split at hy
      · simp_all
      · next z hz =>
        have := ih z hz
        split at hy <;> simp_all
  rw [leastBy]
  split
  · rfl
  · next y hy => rw [if_neg (by simp [h y (hmem xs y hy)])]

/-- The first range lies outside the own allocation. -/
theorem matrixPlace_outside {r : Nat × Nat} (hsize : 0 < w.grp.size) (h : w.grp.size < r.1 + r.2) :
    matrixPlace w none ((r :: reads).map unindexed) false =
      some { cls := 4, cause := 15, d0 := word r.1, d1 := word w.grp.size } := by
  have hbad : ((r :: reads).map unindexed).filter (fun r => decide (w.grp.size < r.1 + r.2.1)) =
      unindexed r :: (reads.map unindexed).filter fun r => decide (w.grp.size < r.1 + r.2.1) := by
    exact List.filter_cons_of_pos (decide_eq_true h)
  rw [matrixPlace, if_neg hsize.ne', matrixRange, hbad, leastBy_head fun y hy => ?_]
  · rfl
  · obtain ⟨e, -, rfl⟩ := List.mem_map.1 (List.mem_of_mem_filter hy)
    rfl

end

/-! ### The start of a command that only reads -/

/-- The command that a plan without a message starts. -/
def matrixCmd (s : State) (w : Who) (sd : SReg) (p : MxPlan) : Cmd :=
  { group := w.g, split := w.x, team := w.grp.team, task := w.grp.task
    flag := (w.sp.clause.map Clause.flag).getD 15, sd := sd.toNat, into := [w.x], key := agentKey w
    clock := w.sp.clock, prog := s.prog, line := w.sp.line, interval := w.team.interval
    reads := (p.reads.map fun r => (r.1, r.2.1)).eraseDups, writes := (p.writes.map fun r => (r.1, r.2.1)).eraseDups
    body := .matrix p.rows p.col p.msg p.status }

/-- The state in which it stands in flight. -/
def matrixStarted (s : State) (w : Who) (sd : SReg) (p : MxPlan) : State :=
  updTeam (newCmd { s with prog := s.prog + 1 } (matrixCmd s w sd p)).2 w.grp.team fun tm => { tm with mx := p.mx }

section
variable {i : Instr} {s : State} {w : Who} {c : Clause} {sd : SReg}

theorem matrixStarted_cmd (p : MxPlan) : Table.find (matrixStarted s w sd p).cmds s.fresh = some (matrixCmd s w sd p) :=
  Table.find_put ..

theorem matrixStarted_team (h : Table.find s.teams w.grp.team = some w.team) (p : MxPlan) :
    Table.find (matrixStarted s w sd p).teams w.grp.team = some { w.team with mx := p.mx } := by
  have hf := Table.find_upd s.teams w.grp.team fun tm => { tm with mx := p.mx }
  rw [h] at hf
  exact hf

theorem matrixCmd_flag (hc : w.sp.clause = some c) (p : MxPlan) : (matrixCmd s w sd p).flag = c.flag := by
  rw [matrixCmd, hc]
  rfl

/-- Ranges without index positions are as they were named. -/
theorem matrixCmd_reads {reads : List (Nat × Nat)} (h : reads.eraseDups = reads) (m : Matrix) :
    (matrixCmd s w sd { reads := reads.map unindexed, mx := m }).reads = reads := by
  have hmap : (reads.map unindexed).map (fun r => (r.1, r.2.1)) = reads := by
    rw [List.map_map]
    exact List.map_id' reads
  rw [matrixCmd, hmap, h]

theorem matrixStart_full {p : MxPlan} (h : 8 ≤ matrixInFlight s w) : matrixStart s w sd p = .stall 6 := if_pos h

theorem matrixStart_held {p : MxPlan} (h : matrixInFlight s w < 8)
    (hheld : heldAccess s w (matrixAccs w p.reads p.writes) = true) : matrixStart s w sd p = .stall 7 :=
  (if_neg (Nat.not_le.2 h)).trans (if_pos hheld)

/-- A command that reads the scratchpad and leaves no message, no rows and no column. -/
theorem matrixStart_reads {reads : List (Nat × Nat)} {m : Matrix} (h : matrixInFlight s w < 8)
    (hheld : heldAccess s w (matrixAccs w (reads.map unindexed) []) = false) :
    matrixStart s w sd { reads := reads.map unindexed, mx := m } = .ok
      { s := matrixStarted s w sd { reads := reads.map unindexed, mx := m }, accs := matrixAccs w (reads.map unindexed) []
        items := [⟨4, 32, true⟩], looks := reads.map fun r => ⟨false, r.1, r.2, true, false, 96⟩
        pends := some [(0, sd.toNat)] } := by
  have hlooks : (reads.map unindexed).map (fun r => localLook r.1 r.2.1 (r.2.2.getD noLane) true false) ++ [] =
      reads.map fun r => ⟨false, r.1, r.2, true, false, 96⟩ := by
    rw [List.append_nil, List.map_map]
    rfl
  rw [← hlooks]
  exact (if_neg (Nat.not_le.2 h)).trans (if_neg (Bool.not_eq_true _ ▸ hheld))

/-- Such a command waits for room in the engine and for its ranges, and then stands in flight with the new matrix state. -/
theorem matrixStart_goes {reads : List (Nat × Nat)} {m : Matrix} (hw : whoOf s w.g w.x = some w) (hc : w.sp.clause = some c)
    (hreads : reads.eraseDups = reads) {p : Matrix → Prop} (hp : p m)
    (h : comesTo i s w (matrixStart s w sd { reads := reads.map unindexed, mx := m })) :
    let accs := matrixAccs w (reads.map unindexed) []
    (8 ≤ matrixInFlight s w → waitsOnSplit s w c i 6) ∧
    (matrixInFlight s w < 8 → heldAccess s w accs = true → waitsOnSplit s w c i 7) ∧
    (matrixInFlight s w < 8 → heldAccess s w accs = false → ∃ (t : State) (tm : Team),
      leavesCommand s w c sd t (fun k => k.body = .matrix [] none none 0 ∧ k.reads = reads ∧ k.writes = []) ∧
      t.groups = s.groups ∧ t.mem = s.mem ∧ t.effects = s.effects ∧
      Table.find t.teams w.grp.team = some tm ∧ tm = { w.team with mx := tm.mx } ∧ p tm.mx ∧
      runsOnSplit s w c i
        { s := t, accs, items := [⟨4, 32, true⟩], looks := reads.map fun r => ⟨false, r.1, r.2, true, false, 96⟩
          pends := some [(0, sd.toNat)] }) := by
  intro accs
  obtain ⟨-, -, -, -, hteam, -, -⟩ := whoOf_eq_some.1 hw
  refine ⟨fun hfull => ?_, fun hroom hheld => ?_, fun hroom hheld =>
    ⟨matrixStarted s w sd { reads := reads.map unindexed, mx := m }, { w.team with mx := m }, ?_⟩⟩
  · rw [matrixStart_full hfull] at h
    exact h.waits
  · rw [matrixStart_held (p := { reads := reads.map unindexed, mx := m }) hroom hheld] at h
    exact h.waits
  · rw [matrixStart_reads hroom hheld] at h
    have hteam' := matrixStarted_team (sd := sd) hteam { reads := reads.map unindexed, mx := m }
    exact ⟨⟨_, matrixStarted_cmd _, rfl, rfl, rfl, matrixCmd_flag hc _, rfl, rfl, rfl, matrixCmd_reads hreads m, rfl⟩,
      rfl, rfl, rfl, hteam', rfl, hp, h.runs⟩

end

/-! ### Fields of a block's words -/

theorem bits_low (w : Word) (k : Nat) : bits w k 0 = w.toNat % 2 ^ (k + 1) := by
  rw [bits, pow_zero, Nat.div_one, Nat.sub_zero]

theorem bits_high (w : Word) {k : Nat} (hk : k ≤ 31) : bits w 31 k = w.toNat / 2 ^ k := by
  have hpow : 2 ^ (31 - k + 1) * 2 ^ k = 2 ^ 32 := by rw [← pow_add]; congr 1; omega
  exact Nat.mod_eq_of_lt (Nat.div_lt_of_lt_mul (by rw [Nat.mul_comm, hpow]; exact w.isLt))

theorem checked_orElse (a b : Option Trap) (r : Res) : checked a (checked b r) = checked (a.orElse fun _ => b) r := by
  cases a <;> rfl

/-! ### What the four instructions come to -/

/-- The checks of `MWLD` on its control word and its two addresses (R290). -/
def mwldChecks (w : Who) (ctl : Word) (wa sc : Nat) : List (Nat × Nat × Bool) :=
  let fmt := ctl.toNat % 8
  let scl := ctl.getLsbD 4
  [(1, 0, decide (ctl.toNat / 2 ^ 5 ≠ 0)), (1, 2, !scl && decide (sc ≠ 0)),
    (2, 0, decide (5 < fmt) || (scl && !decide (2 ≤ fmt)) || (decide (fmt = 1) && !(recFeat w.task.words).testBit 1)),
    (4, 1, decide (wa % 64 ≠ 0)), (4, 2, decide (sc % 4 ≠ 0))]

/-- The ranges that `MWLD` reads. -/
def mwldReads (ctl : Word) (wa sc : Nat) : List (Nat × Nat) := (wa, 8192) :: if ctl.getLsbD 4 then [(sc, 256)] else []

/-- The tile that `MWLD` loads. -/
def mwldTile (w : Who) (ctl : Word) (wa sc : Nat) : Tile :=
  makeTile (teamBytes w.team wa 8192) (ctl.toNat % 8)
    (if ctl.getLsbD 4 then bytesWords 64 (teamBytes w.team sc 256) else List.replicate 64 0x3F800000) wa

theorem noMx4_eq (w : Who) (fmt : Nat) : noMx4 w fmt = (decide (fmt = 1) && !(recFeat w.task.words).testBit 1) := by
  rw [noMx4, Nat.testBit_succ, Nat.testBit_zero]
  rcases Nat.mod_two_eq_zero_or_one (recFeat w.task.words / 2) with h | h <;> simp [h]

theorem mxInt_eq (fmt : Nat) : mxInt fmt = !decide (2 ≤ fmt) := by
  rw [mxInt, ← decide_not]
  exact decide_eq_decide.2 Nat.not_le.symm

theorem mwld_comesTo (s : State) (w : Who) (sd sa : SReg) :
    let ctl := uread s sa.toNat
    let wa := (uread s (sa.toNat + 1)).toNat
    let sc := (uread s (sa.toNat + 2)).toNat
    let rs := (mwldReads ctl wa sc).map unindexed
    comesTo (.mwld sd sa) s w (checked (matrixBad (mwldChecks w ctl wa sc)) (checked (matrixPlace w none rs false)
      (matrixStart s w sd { reads := rs, mx := w.team.mx.setWeights (ctl.getLsbD 3) (mwldTile w ctl wa sc) }))) := by
  intro ctl wa sc rs
  have hrs : rs = (wa, 8192, none) :: if bit ctl 4 then [(sc, 256, none)] else [] := by
    show (mwldReads ctl wa sc).map unindexed = (wa, 8192, none) :: if ctl.getLsbD 4 then [(sc, 256, none)] else []
    cases h : ctl.getLsbD 4 <;> rw [mwldReads, h] <;> rfl
  rw [checked_orElse, hrs]
  refine ⟨_, rfl, ?_⟩
  simp only [block_getD s sa (show 0 < 3 by decide), block_getD s sa (show 1 < 3 by decide),
    block_getD s sa (show 2 < 3 by decide), bits_low, bits_high _ (show 5 ≤ 31 by decide), mwldChecks, mwldTile,
    Nat.add_zero, noMx4_eq, mxInt_eq]
  rfl

/-- The checks of `MTBL` (R281, R290). -/
def mtblChecks (ctl lo hi : Word) (ta : Nat) : List (Nat × Nat × Bool) :=
  [(1, 0, decide (ctl.toNat / 2 ≠ 0)), (4, 3, decide (ta % 4 ≠ 0)), (6, 1, notFinite lo),
    (6, 2, notFinite hi || !fracLt (cvalWord none lo.toNat).frac' (cvalWord none hi.toNat).frac')]

theorem mtbl_comesTo (s : State) (w : Who) (sd sa : SReg) :
    let ctl := uread s sa.toNat
    let lo := uread s (sa.toNat + 1)
    let hi := uread s (sa.toNat + 2)
    let ta := (uread s (sa.toNat + 3)).toNat
    let rs := [(ta, 1028)].map unindexed
    let es := bytesWords 257 (teamBytes w.team ta 1028)
    comesTo (.mtbl sd sa) s w (checked (matrixBad (mtblChecks ctl lo hi ta)) (checked (matrixPlace w none rs false)
      (if es.any fun e => (fmtF32.decode false e.toNat).isInf then .trap (matrixTrap 6 3)
      else matrixStart s w sd
        { reads := rs, mx := { w.team.mx with tbl := some (es, [lo, hi, flagWord (ctl.getLsbD 0)]) } }))) := by
  intro ctl lo hi ta rs es
  rw [checked_orElse]
  refine ⟨_, rfl, ?_⟩
  simp only [block_getD s sa (show 0 < 4 by decide), block_getD s sa (show 1 < 4 by decide),
    block_getD s sa (show 2 < 4 by decide), block_getD s sa (show 3 < 4 by decide),
    bits_high _ (show 1 ≤ 31 by decide), mtblChecks, Nat.add_zero, pow_one]
  rfl

/-- The checks of `MCLR` (R287, R290). -/
def mclrChecks (ctl : Word) : List (Nat × Nat × Bool) :=
  [(1, 0, decide (ctl.toNat / 2 ^ 2 ≠ 0)), (2, 0, decide (ctl.toNat % 4 = 3))]

theorem mclrMatrix_comesTo (s : State) (w : Who) (sd sa : SReg) :
    let ctl := uread s sa.toNat
    comesTo (.mclrMatrix sd sa) s w (checked (matrixBad (mclrChecks ctl)) (checked (matrixPlace w none [] false)
      (matrixStart s w sd
        { mx := { w.team.mx with
            a0 := if ctl.toNat % 4 = 1 then w.team.mx.a0 else []
            a1 := if ctl.toNat % 4 = 0 then w.team.mx.a1 else [] } }))) := by
  intro ctl
  rw [checked_orElse]
  refine ⟨_, rfl, ?_⟩
  simp only [block_getD s sa (show 0 < 1 by decide), bits_low, bits_high _ (show 2 ≤ 31 by decide), mclrChecks,
    Nat.add_zero]
  rfl

/-- The check of `MSTAT` (R288, R290). -/
def mstatChecks (ctl : Word) : List (Nat × Nat × Bool) := [(1, 0, decide (ctl.toNat / 2 ≠ 0))]

/-- The state after `MSTAT`: the status is read and, where asked, cleared. -/
def mstatState (s : State) (w : Who) (sd : SReg) (clear : Bool) : State :=
  let v := uwrite s sd.toNat w.team.mx.status
  if clear then updTeam v w.grp.team fun tm => { tm with mx := { tm.mx with status := 0 } } else v

theorem mstat_comesTo (s : State) (w : Who) (sd sa : SReg) :
    let ctl := uread s sa.toNat
    comesTo (.mstat sd sa) s w (checked (matrixBad (mstatChecks ctl)) (checked (matrixPlace w none [] false)
      (if 0 < matrixInFlight s w then .stall 15
      else .ok { s := mstatState s w sd (ctl.getLsbD 0), accs := matrixAccs w [] [], items := [⟨4, 32, true⟩] }))) := by
  intro ctl
  rw [checked_orElse]
  refine ⟨_, rfl, ?_⟩
  simp only [block_getD s sa (show 0 < 1 by decide), bits_high _ (show 1 ≤ 31 by decide), mstatChecks, Nat.add_zero, pow_one]
  rfl

/-! ### What they load -/

theorem Sparse.read_eq {α : Type} (d : α) (m : Sparse α) (k n : Nat) :
    Sparse.read d m k n = (List.range n).map fun i => Sparse.get d m (k + i) := Sparse.readF_eq ..

/-- The words of consecutive bytes, each from its own four. -/
theorem bytesWords_read (m : Sparse Byte) (a n : Nat) : bytesWords n (Sparse.read 0 m a (4 * n)) =
    (List.range n).map fun i => bytesWord (Sparse.read 0 m (a + 4 * i) 4) := by
  induction n generalizing a with
  | zero => rfl
  | succ n ih =>
    have hcut : Sparse.read 0 m a (4 * (n + 1)) = Sparse.read 0 m a 4 ++ Sparse.read 0 m (a + 4) (4 * n) := by
      simp only [Sparse.read_eq, show 4 * (n + 1) = 4 + 4 * n by omega, List.range_add, List.map_append, List.map_map,
        Function.comp_def, Nat.add_assoc]
    have hlen : (Sparse.read 0 m a 4).length = 4 := Sparse.length_read ..
    rw [bytesWords, hcut, List.take_left' hlen, List.drop_left' hlen, ih, List.range_succ_eq_map, List.map_cons, List.map_map]
    simp only [Nat.mul_zero, Nat.add_zero, Function.comp_def, Nat.succ_eq_add_one, Nat.mul_add, Nat.add_assoc,
      Nat.mul_one, Nat.add_comm 4]

theorem mwldTile_bytes (w : Who) (ctl : Word) (wa sc : Nat) {k : Nat} (hk : k < 8192) :
    Sparse.get 0 (mwldTile w ctl wa sc).bytes k = Sparse.get 0 w.team.mem (wa + k) := by
  have hlen : (teamBytes w.team wa 8192).length = 8192 := Sparse.length_read ..
  refine (Sparse.getF_writeF_getD (fun _ => 0) [] 0 k (teamBytes w.team wa 8192) 0).trans ?_
  rw [if_pos ⟨Nat.zero_le k, by omega⟩, teamBytes, Sparse.read_eq]
  simp [hk]

theorem mwldTile_scales (w : Who) (ctl : Word) (wa sc : Nat) : (mwldTile w ctl wa sc).scales =
    (List.range 64).map fun n =>
      if ctl.getLsbD 4 then bytesWord (Sparse.read 0 w.team.mem (sc + 4 * n) 4) else 0x3F800000 := by
  show (if ctl.getLsbD 4 then bytesWords 64 (teamBytes w.team sc 256) else List.replicate 64 0x3F800000) = _
  cases ctl.getLsbD 4 with
  | true => exact bytesWords_read ..
  | false => simp

theorem Matrix.weights_setWeights (m : Matrix) (b : Bool) (t : Tile) : (m.setWeights b t).weights b = some t := by
  cases b <;> rfl

theorem uwrite_frame (s : State) (n : Nat) (v : Word) : (uwrite s n v).mem = s.mem ∧ (uwrite s n v).effects = s.effects ∧
    (uwrite s n v).teams = s.teams := by
  unfold uwrite
  split
  · next g x _ =>
    obtain ⟨gs, h⟩ := groupWrite_groupsOnly s g x n v
    rw [h]
    exact ⟨rfl, rfl, rfl⟩
  · unfold coreWrite
    repeat' split
    all_goals exact ⟨rfl, rfl, rfl⟩

theorem mstatState_frame {s : State} {w : Who} (sd : SReg) (clear : Bool) (h : Table.find s.teams w.grp.team = some w.team) :
    (mstatState s w sd clear).groups = (uwrite s sd.toNat w.team.mx.status).groups ∧
      (mstatState s w sd clear).mem = s.mem ∧ (mstatState s w sd clear).effects = s.effects ∧
      Table.find (mstatState s w sd clear).teams w.grp.team =
        some { w.team with mx := { w.team.mx with status := if clear then 0 else w.team.mx.status } } := by
  obtain ⟨hmem, heffects, hteams⟩ := uwrite_frame s sd.toNat w.team.mx.status
  rw [← hteams] at h
  cases clear with
  | false => exact ⟨rfl, hmem, heffects, h⟩
  | true => exact ⟨rfl, hmem, heffects, (updTeam_find _ h).trans (by rw [if_pos rfl]; rfl)⟩

/-- Settles O27: each instruction's body is its checks in order, and then the start of its command. -/
theorem matrixStateCommands : Obligations.MatrixStateCommands := by
  unfold Obligations.MatrixStateCommands
  intro s w c sd sa hw hc g ctl wa sc ta fmt buf scl mx form goes notInt wl cl st
  obtain ⟨-, -, -, -, hteam, -, -⟩ := whoOf_eq_some.1 hw
  have hmwld := mwld_comesTo s w sd sa
  have hmtbl := mtbl_comesTo s w sd sa
  have hmclr := mclrMatrix_comesTo s w sd sa
  have hmstat := mstat_comesTo s w sd sa
  have hgood (hctl : ctl.toNat < 2) : (mstatChecks ctl).all (fun r => !r.2.2) = true := by
    simp [mstatChecks, show ctl.toNat / 2 = 0 by omega]
  have hstatus (hctl : ctl.toNat < 2) (hsize : 0 < w.grp.size) :=
    (hmstat.passes (matrixBad_none (hgood hctl))).passes (matrixPlace_inside (reads := []) hsize (by simp))
  have hgoes {i : Instr} {reads : List (Nat × Nat)} {m : Matrix} (hdups : reads.eraseDups = reads)
      (h : matrixPlace w none (reads.map unindexed) false = none →
        comesTo i s w (matrixStart s w sd { reads := reads.map unindexed, mx := m })) {p : Matrix → Prop} (hp : p m) :
      goes i reads p :=
    fun hsize hin => matrixStart_goes hw hc hdups hp (h (matrixPlace_inside hsize hin))
  clear_value goes
  refine ⟨⟨fun r hr => hmwld.fails (matrixBad_first hr), fun r hr => hmclr.fails (matrixBad_first hr),
    fun r hr => hmstat.fails (matrixBad_first hr)⟩, fun hwl => ?_, fun hctl hta hlo hhi hlt hes => ?_, fun hctl => ?_,
    fun hctl hsize => ⟨fun hbusy => ?_, fun hidle => ?_⟩,
    fun hsize hwl => (hmwld.passes (matrixBad_none hwl)).fails (matrixPlace_empty _ hsize),
    fun hsize hwl hout => (hmwld.passes (matrixBad_none hwl)).fails (matrixPlace_outside hsize hout)⟩
  · refine hgoes (reads := mwldReads ctl wa sc) ?_ (hmwld.passes (matrixBad_none hwl)).passes ?_
    · rw [mwldReads]
      split <;> simp [List.eraseDups_cons]
    · exact ⟨mwldTile w ctl wa sc, Matrix.weights_setWeights .., rfl, rfl, rfl, fun k hk => mwldTile_bytes w ctl wa sc hk,
        mwldTile_scales w ctl wa sc⟩
  · have hload : bytesWords 257 (teamBytes w.team ta 1028) =
        (List.range 257).map fun n => bytesWord (Sparse.read 0 w.team.mem (ta + 4 * n) 4) := bytesWords_read ..
    have hgood : (mtblChecks ctl (g 1) (g 2) ta).all (fun r => !r.2.2) = true := by
      simp [mtblChecks, hta, hlo, hhi, hlt, show ctl.toNat / 2 = 0 by omega]
    refine hgoes (reads := [(ta, 1028)]) (m := { mx with
      tbl := some (bytesWords 257 (teamBytes w.team ta 1028), [g 1, g 2, flagWord (ctl.getLsbD 0)]) }) rfl (fun hin => ?_) ?_
    · have h := (hmtbl.passes (matrixBad_none hgood)).passes hin
      rwa [if_neg] at h
      rw [List.any_eq_true]
      rintro ⟨e, he, hinf⟩
      rw [hload] at he
      exact absurd hinf (by rw [hes e he]; decide)
    · rw [hload]
      rfl
  · have hgood : (mclrChecks ctl).all (fun r => !r.2.2) = true := by
      simp [mclrChecks, show ctl.toNat / 4 = 0 by omega, show ctl.toNat % 4 ≠ 3 by omega]
    have hsel (v : Word) (hv : v.toNat < 4) : ctl.toNat % 4 = v.toNat ↔ ctl = v := by
      rw [← BitVec.toNat_inj]
      omega
    refine hgoes (reads := []) rfl (hmclr.passes (matrixBad_none hgood)).passes ?_
    exact congrArg₂ (fun a0 a1 => { mx with a0, a1 }) (if_congr (hsel 1 (by decide)) rfl rfl)
      (if_congr (hsel 0 (by decide)) rfl rfl)
  · have h := hstatus hctl hsize
    rw [if_pos hbusy] at h
    exact h.waits
  · have h := hstatus hctl hsize
    rw [if_neg (by omega)] at h
    obtain ⟨hgroups, hmem, heffects, hteam'⟩ := mstatState_frame sd (ctl.getLsbD 0) hteam
    exact ⟨_, _, hgroups, hmem, heffects, hteam', rfl, h.runs⟩

end Sys2Proof.Machine
